-- ==== Sys2Proof/Word.lean ====
section
/-! DEFINITION. The word types of the Parwiel (spec 00 R2, R3) and their plainest arithmetic. -/

namespace Sys2Proof

abbrev Byte := BitVec 8
abbrev Half := BitVec 16
/-- One 16-bit parcel of the instruction stream (R139). -/
abbrev Parcel := BitVec 16
/-- One 32-bit container. -/
abbrev Word := BitVec 32
/-- One 64-bit quad. -/
abbrev Quad := BitVec 64
/-- A taint set: bit i stands for tag i (R55). -/
abbrev TaintSet := BitVec 16

/-- The bit `i` of a value as a Bool. -/
def bitOf {n : Nat} (v : BitVec n) (i : Nat) : Bool := v.getLsbD i

/-- The natural number in bits [lo+n-1:lo] of a value. -/
def fieldOf {w : Nat} (v : BitVec w) (lo n : Nat) : Nat := (v.extractLsb' lo n).toNat

/-- One where the condition holds and zero elsewhere. -/
def boolQuad (b : Bool) : Quad := if b then 1 else 0

end Sys2Proof
end

