-- ==== Sys2Proof/Syntax.lean ====
section
/-! DEFINITION. The instructions of the Parwiel and the steps of its other agents: one constructor
of `Instr` for each row of spec/opcode_table.json. Rows 0 to 263 are instructions (spec 07-12, 17);
the later rows are indivisible steps of homes, engines, the scheduler and Mucen
(spec 95), which carry no encoding. -/

namespace Sys2Proof

abbrev SReg := BitVec 5
abbrev VReg := BitVec 6
abbrev MReg := BitVec 3
abbrev TReg := BitVec 2
abbrev QReg := BitVec 4
abbrev FReg := BitVec 3
abbrev KReg := BitVec 3

/-- Address fields of gmk and gfld, codes 0 to 8 (R143). -/
inductive AddrField where
  | kind | pkg | die | chan | core | goff | voff | wslot | woff
  deriving DecidableEq, Repr

/-- The two scalar float formats (R143). -/
inductive FFmt where
  | f32 | f64
  deriving DecidableEq, Repr

/-- The rm field of an instruction (R68). -/
inductive RMode where
  | dyn | rne | rtz | rto
  deriving DecidableEq, Repr, Inhabited

/-- The fcvt conversion codes, named to.from (R143). -/
inductive FcvtCode where
  | f64f32 | f32f64 | i64f32 | n64f32 | i64f64 | n64f64 | f32i64 | f32n64 | f64i64 | f64n64
  | i32f32 | n32f32 | i32f64 | n32f64 | f32i32 | f32n32 | f64i32 | f64n32
  deriving DecidableEq, Repr

/-- Scopes of lsync and st.rel (R121, R169). -/
inductive Scope where
  | h | c | d | p | g
  deriving DecidableEq, Repr

/-- Store widths of st.rel (R143). -/
inductive StWidth where
  | b | h | w | q
  deriving DecidableEq, Repr

/-- Widths of the scalar atomics (R171). -/
inductive AmoWidth where
  | w32 | w64
  deriving DecidableEq, Repr

/-- A register named by a taint instruction (R143). -/
inductive TaintReg where
  | s (r : SReg) | v (r : VReg) | m (r : MReg) | q (r : QReg)
  deriving DecidableEq, Repr

/-- The element tags (R48); codes 3 and 7 are reserved. -/
inductive Tag where
  | n32 | i32 | f32 | n64 | i64 | f64
  deriving DecidableEq, Repr, Inhabited

/-- The memory formats of streams (R52). -/
inductive MemFmt where
  | n8 | n16 | n32 | n64 | i8 | i16 | i32 | i64 | f16 | bf16 | f32 | f64 | e4m3 | e5m2 | e2m1 | e8m0
  deriving DecidableEq, Repr, Inhabited

/-- Bound policies (R52); code 3 is reserved. -/
inductive Policy where
  | trap | clamp | drop
  deriving DecidableEq, Repr, Inhabited

/-- Compare conditions (R145). -/
inductive CmpCond where
  | eq | ne | lt | ge | le | gt | uo
  deriving DecidableEq, Repr

/-- Reduction operators (R145, R212). -/
inductive RedOp where
  | sum | max | min | and | or | xor
  deriving DecidableEq, Repr

/-- Operations of the atomics, codes 0 to 9 (R143, R234). -/
inductive AmoOp where
  | add | and | or | xor | min | max | minN | maxN | swap | fadd
  deriving DecidableEq, Repr, Inhabited

/-- Matrix multiplier classes (R80). -/
inductive MClass where
  | w4 | w8 | w16 | w32
  deriving DecidableEq, Repr

/-- The mask field and its complement bit (R144). -/
structure MaskOp where
  m : MReg
  comp : Bool
  deriving DecidableEq, Repr

/-- The second source of a binary form: a v register, or an s register under S = 1 (R187). -/
inductive VSrc where
  | v (r : VReg) | s (r : SReg)
  deriving DecidableEq, Repr

/-- Operands of the binary vector forms (R198). -/
structure VBin where
  vd : VReg
  va : VReg
  vb : VSrc
  mask : MaskOp
  rm : RMode
  sat : Bool
  deriving DecidableEq, Repr

/-- Operands of the unary vector forms (R200, R202, R203). -/
structure VUn where
  vd : VReg
  va : VReg
  mask : MaskOp
  rm : RMode
  sat : Bool
  deriving DecidableEq, Repr

/-- Operands of the fused vector forms (R201). -/
structure VTern where
  vd : VReg
  va : VReg
  vb : VReg
  vc : VReg
  mask : MaskOp
  rm : RMode
  sat : Bool
  deriving DecidableEq, Repr

/-- Operands of vred and vscan; `init` is vc when I = 1 (R212). -/
structure VRed where
  op : RedOp
  vd : VReg
  va : VReg
  init : Option VReg
  mask : MaskOp
  rm : RMode
  deriving DecidableEq, Repr

/-- Operands of a vector memory access through a stream (R224). `data` is va, `dst` is vd;
a form that lacks one leaves it zero. -/
structure VMem where
  dst : VReg
  data : VReg
  q : QReg
  mask : MaskOp
  nb : Bool
  k : KReg
  rm : RMode
  sat : Bool
  deriving DecidableEq, Repr

/-- Operands of a collective half: the stream operand is an f register (R271). -/
structure VColl where
  reg : VReg
  f : FReg
  mask : MaskOp
  nb : Bool
  k : KReg
  rm : RMode
  sat : Bool
  deriving DecidableEq, Repr

/-- A hart of the system: its package and its hartid there (R57). -/
structure HartRef where
  pkg : Nat
  hid : Nat
  deriving DecidableEq, Repr, Inhabited

/-- A collective operation: the group's handle and the sequence number (R271). -/
structure OpRef where
  handle : Quad
  seq : Nat
  deriving DecidableEq, Repr

/-- Where an ABORT arrives: a reducing package or a member hart (R277). -/
inductive AbortAt where
  | unit (pkg : Nat) | member (h : HartRef)
  deriving DecidableEq, Repr

/-- A walk request: the TLB that asked (a core's, or the die's), the die, the asid, the offset (R349). -/
structure WalkReq where
  pkg : Nat
  die : Nat
  core : Option Nat
  asid : Nat
  offset : Nat
  /-- The access that a hint is for: its channel field, and whether it writes or is atomic (R356). -/
  chan : Nat := 256
  write : Bool := false
  atomic : Bool := false
  deriving DecidableEq, Repr

/-- One hop of a circuit: package, in-port and out-port (R395). -/
structure Hop where
  pkg : Nat
  inPort : Nat
  outPort : Nat
  deriving DecidableEq, Repr

/-- A circuit as a SETUP packet carries it (R393). -/
structure Circuit where
  epoch : Nat
  slot : Nat
  num : Nat
  colours : BitVec 16
  path : List Hop
  deriving DecidableEq, Repr

/-- What a flit's word says, and whether the flit decoded with a good CRC (R387). -/
structure Flit where
  type : BitVec 2
  mode : BitVec 2
  lseq : BitVec 12
  good : Bool
  content : List Byte
  deriving DecidableEq, Repr

/-- One colour of one port of one package, in the direction a step concerns. -/
structure Lane where
  pkg : Nat
  port : Nat
  colour : Nat
  deriving DecidableEq, Repr

/-- A transport packet after the wire: whether its seal authenticates, and its fields (R399). -/
structure TPacket where
  conn : Nat
  psn : Nat
  op : Nat
  req : Nat
  offset : Nat
  total : Nat
  addr : Quad
  sig : Option Nat
  payload : List Byte
  sealOk : Bool
  /-- Offsets of the payload bytes whose source granule is poisoned (R108). -/
  bad : List Nat := []
  /-- The Ethernet port it comes in at, its UDP destination port, and the number of the key that seals it. -/
  port : Nat := 32
  udp : Nat := 53664
  key : Nat := 0
  deriving DecidableEq, Repr

/-- What a frame that is no transport packet holds (R398). -/
inductive EthKind where
  | neighbour | echo | other
  deriving DecidableEq, Repr

/-- Such a frame: whether it asks for an address of the port's own, its bytes, and its IEEE 802.1Q tags. -/
structure EthFrame where
  kind : EthKind
  own : Bool
  size : Nat
  tags : Nat
  deriving DecidableEq, Repr

/-- Where a corrected or uncorrectable error was found (R420). -/
inductive EccUnit where
  | hbm | l2 | vault | regfile | mucen
  deriving DecidableEq, Repr

/-- A register written by host software or a supervisor through its map (R4, R367, R405). -/
inductive RegId where
  | bringUp (quad : Nat)                 -- the bring-up block of the package
  | queue (func : Nat) (idx quad : Nat)  -- a descriptor through a function's doorbell window
  | portStatus (port : Nat)
  | slotStatus
  | ringHead (die : Nat)                 -- fault-ring HEAD through its access map
  | mailbox (ring quad : Nat)
  deriving DecidableEq, Repr

/-- One constructor for each row of spec/opcode_table.json. -/
inductive Instr where
  -- integer register operations (R158)
  | add (d a b : SReg) | sub (d a b : SReg) | and (d a b : SReg) | or (d a b : SReg)
  | xor (d a b : SReg) | sll (d a b : SReg) | srl (d a b : SReg) | sra (d a b : SReg)
  | rotl (d a b : SReg) | rotr (d a b : SReg) | mul (d a b : SReg) | mulh (d a b : SReg)
  | mulhN (d a b : SReg) | div (d a b : SReg) | divN (d a b : SReg) | rem (d a b : SReg)
  | remN (d a b : SReg) | min (d a b : SReg) | max (d a b : SReg) | minN (d a b : SReg)
  | maxN (d a b : SReg) | slt (d a b : SReg) | sltN (d a b : SReg)
  | clz (d a : SReg) | ctz (d a : SReg) | popc (d a : SReg)
  -- immediate and constant forms (R159, R160)
  | addi (d a : SReg) (imm : BitVec 15) | andi (d a : SReg) (imm : BitVec 15)
  | ori (d a : SReg) (imm : BitVec 15) | xori (d a : SReg) (imm : BitVec 15)
  | slli (d a : SReg) (count : BitVec 6) | srli (d a : SReg) (count : BitVec 6)
  | srai (d a : SReg) (count : BitVec 6)
  | lih (d : SReg) (imm : BitVec 20) | adr (d : SReg) (imm : BitVec 20)
  | li64 (d : SReg) (imm : BitVec 48)
  -- address fields (R161)
  | gmk (f : AddrField) (d a b : SReg) | gfld (f : AddrField) (d a : SReg)
  -- branches and jumps (R162, R163)
  | bEq (a b : SReg) (off : BitVec 12) | bNe (a b : SReg) (off : BitVec 12)
  | bLt (a b : SReg) (off : BitVec 12) | bGe (a b : SReg) (off : BitVec 12)
  | bLtN (a b : SReg) (off : BitVec 12) | bGeN (a b : SReg) (off : BitVec 12)
  | j (off : BitVec 25) | jal (off : BitVec 25) | jr (a : SReg) | jalr (d a : SReg)
  -- scalar floating point (R165-R167)
  | fadd (fmt : FFmt) (rm : RMode) (d a b : SReg) | fsub (fmt : FFmt) (rm : RMode) (d a b : SReg)
  | fmul (fmt : FFmt) (rm : RMode) (d a b : SReg) | fdiv (fmt : FFmt) (rm : RMode) (d a b : SReg)
  | fsqrt (fmt : FFmt) (rm : RMode) (d a : SReg)
  | fmin (fmt : FFmt) (d a b : SReg) | fmax (fmt : FFmt) (d a b : SReg)
  | fcmpEq (fmt : FFmt) (d a b : SReg) | fcmpLt (fmt : FFmt) (d a b : SReg)
  | fcmpLe (fmt : FFmt) (d a b : SReg) | fcmpUo (fmt : FFmt) (d a b : SReg)
  | fclass (fmt : FFmt) (d a : SReg)
  | fsgnJ (fmt : FFmt) (d a b : SReg) | fsgnN (fmt : FFmt) (d a b : SReg)
  | fsgnX (fmt : FFmt) (d a b : SReg) | fmv (fmt : FFmt) (d a : SReg)
  | fcvt (code : FcvtCode) (rm : RMode) (d a : SReg)
  | fmadd (fmt : FFmt) (rm : RMode) (d a b c : SReg)
  | fmsub (fmt : FFmt) (rm : RMode) (d a b c : SReg)
  | fnmadd (fmt : FFmt) (rm : RMode) (d a b c : SReg)
  -- loads and stores (R168)
  | ldB (d a : SReg) (imm : BitVec 12) | ldH (d a : SReg) (imm : BitVec 12)
  | ldW (d a : SReg) (imm : BitVec 12) | ld (d a : SReg) (imm : BitVec 12)
  | ldBi (d a : SReg) (imm : BitVec 12) | ldHi (d a : SReg) (imm : BitVec 12)
  | ldWi (d a : SReg) (imm : BitVec 12)
  | stB (d a : SReg) (imm : BitVec 12) | stH (d a : SReg) (imm : BitVec 12)
  | stW (d a : SReg) (imm : BitVec 12) | st (d a : SReg) (imm : BitVec 12)
  | ldcB (d a : SReg) (imm : BitVec 12) | ldcH (d a : SReg) (imm : BitVec 12)
  | ldcW (d a : SReg) (imm : BitVec 12) | ldc (d a : SReg) (imm : BitVec 12)
  | ldcBi (d a : SReg) (imm : BitVec 12) | ldcHi (d a : SReg) (imm : BitVec 12)
  | ldcWi (d a : SReg) (imm : BitVec 12)
  -- ordering and atomics (R169-R173)
  | lsync (sc : Scope) | stRel (wd : StWidth) (sc : Scope) (a b : SReg)
  | amoAdd (w : AmoWidth) (d a b : SReg) | amoAnd (w : AmoWidth) (d a b : SReg)
  | amoOr (w : AmoWidth) (d a b : SReg) | amoXor (w : AmoWidth) (d a b : SReg)
  | amoMin (w : AmoWidth) (d a b : SReg) | amoMax (w : AmoWidth) (d a b : SReg)
  | amoMinN (w : AmoWidth) (d a b : SReg) | amoMaxN (w : AmoWidth) (d a b : SReg)
  | amoSwap (w : AmoWidth) (d a b : SReg) | amoFadd (w : AmoWidth) (d a b : SReg)
  | cas (w : AmoWidth) (d a b : SReg)
  | waita (d a b : SReg) | wakea (d a b : SReg)
  -- CSR and taint (R174-R176)
  | csrr (d : SReg) (csr : BitVec 12) | csrw (d a : SReg) (csr : BitVec 12)
  | csrs (d a : SReg) (csr : BitVec 12) | csrc (d a : SReg) (csr : BitVec 12)
  | tclr (x : TaintReg) | tget (d : SReg) (y : TaintReg) | tdep (x y : TaintReg)
  -- gang instructions (R177-R183)
  | glaunch (d a b : SReg) | gwait (d a b : SReg)
  -- system (R184, R336-R346)
  | vqsave (d a : SReg) | vqrest (d a : SReg) | vsave (d a : SReg)
  | vrest (d a : SReg) | hsave (a : SReg) | hrest (d a : SReg) | tlbinv (d a b : SReg)
  | snap (d a b : SReg) | pwait (d a : SReg) | mwipe (d a b : SReg)
  -- configuration and strip loop (R192-R194)
  | vcfg (d : SReg) (nreg : BitVec 2) (w64 : Bool) (lgreq : BitVec 4)
  | vsetl (d a : SReg) (gl : BitVec 2) (tp mp : Bool)
  | sloop (a : SReg) (off : BitVec 12) | sloopPar (a : SReg) (off : BitVec 12)
  | snext (off : BitVec 12)
  -- the convoy header: CNT and the six unit codes, unit 1 in bits [2:0] (R148)
  | convoyHeader (cnt : BitVec 3) (units : BitVec 18)
  -- compact forms (R152, R153); a 3-bit register r stands for s(r + 8)
  | cAddi (d : SReg) (imm : BitVec 6) | cMv (d a : SReg)
  | cLd (d a : BitVec 3) (off : BitVec 5) | cSt (b a : BitVec 3) (off : BitVec 5)
  | cBEq (a : BitVec 3) (off : BitVec 7) | cBNe (a : BitVec 3) (off : BitVec 7)
  | cJ (off : BitVec 11)
  | cVadd (vx : VReg) (m : MReg) | cVsub (vx : VReg) (m : MReg) | cVmul (vx : VReg) (m : MReg)
  | cVmulh (vx : VReg) (m : MReg) | cVdiv (vx : VReg) (m : MReg) | cVrem (vx : VReg) (m : MReg)
  | cVmin (vx : VReg) (m : MReg) | cVmax (vx : VReg) (m : MReg) | cVand (vx : VReg) (m : MReg)
  | cVor (vx : VReg) (m : MReg) | cVxor (vx : VReg) (m : MReg) | cVsll (vx : VReg) (m : MReg)
  | cVsrl (vx : VReg) (m : MReg) | cVsra (vx : VReg) (m : MReg)
  -- vector arithmetic (R198-R204)
  | vadd (o : VBin) | vsub (o : VBin) | vmul (o : VBin) | vmulh (o : VBin) | vdiv (o : VBin)
  | vrem (o : VBin) | vmin (o : VBin) | vmax (o : VBin) | vand (o : VBin) | vor (o : VBin)
  | vxor (o : VBin) | vsll (o : VBin) | vsrl (o : VBin) | vsra (o : VBin)
  | vpopc (o : VUn) | vclz (o : VUn) | vabs (o : VUn) | vneg (o : VUn)
  | vfma (o : VTern) | vfms (o : VTern) | vnfma (o : VTern)
  | vsqrt (o : VUn) | vrcp (o : VUn) | vrsqrt (o : VUn) | vexp2 (o : VUn) | vlog2 (o : VUn)
  | vclass (o : VUn) | vcvt (t : Tag) (o : VUn)
  -- compare, select, masks (R205-R209)
  | vcmp (c : CmpCond) (md : MReg) (va : VReg) (vb : VSrc) (mask : MaskOp)
  | vsel (vd va vb : VReg) (mask : MaskOp)
  | mand (md ma mb : MReg) | mor (md ma mb : MReg) | mxor (md ma mb : MReg)
  | mandn (md ma mb : MReg) | mnot (md ma : MReg)
  | mpop (sd : SReg) (ma : MReg) (mask : MaskOp) | mfirst (sd : SReg) (ma : MReg) (mask : MaskOp)
  | mtolist (md ma : MReg) | mtobit (md ma : MReg)
  | mfromx (md : MReg) (va : VReg) (mask : MaskOp)
  -- moves and permutes (R195-R197, R210, R211)
  | vidx (vd : VReg) (start : BitVec 12) (stp : BitVec 8) (mask : MaskOp)
  | vsplat (vd : VReg) (sa : SReg) (mask : MaskOp) | vmv (vd va : VReg) (mask : MaskOp)
  | vtag (t : Tag) (vd va : VReg)
  | vmvx (sd : SReg) (va : VReg) (sb : SReg) | vmvs (vd : VReg) (sa : SReg) (mask : MaskOp)
  | vslideup (vd va : VReg) (sb sc : SReg) (mask : MaskOp)
  | vslidedn (vd va : VReg) (sb sc : SReg) (mask : MaskOp)
  | vperm (vd va vb : VReg) (mask : MaskOp) | vcompress (vd va : VReg) (mask : MaskOp)
  | vexpand (vd va : VReg) (mask : MaskOp) | vrev (vd va : VReg) (mask : MaskOp)
  -- reductions (R212-R214)
  | vred (o : VRed) | vscan (o : VRed)
  | vsegred (op : RedOp) (vd va : VReg) (mc : MReg) (mask : MaskOp) (rm : RMode)
  -- vector memory (R224-R236)
  | vld (o : VMem) | vldff (o : VMem) | vst (o : VMem) | vchg (o : VMem)
  | vamo (op : AmoOp) (o : VMem) | vamoR (op : AmoOp) (o : VMem)
  | vwait (va : VReg) | vpres (md : MReg) (va : VReg)
  -- the Sieve (R237, R238)
  | svins (md : MReg) (va : VReg) (mask : MaskOp)
  | svlook (vd : VReg) (mc : MReg) (va : VReg) (mask : MaskOp)
  | svacc (md : MReg) (va vb : VReg) (mask : MaskOp)
  | svdrn (vd vb : VReg) (sa : SReg) (mask : MaskOp) | svclr (sa sb : SReg)
  -- matrix engine (R244-R251)
  | mshape (c : MClass) (sd sa sb sc : SReg) | mstep (sd : SReg)
  | fmpq (sd : SReg) (k : KReg) (hi : Bool)
  | mzero (t : TReg) | mop (t : TReg) (va vb : VReg) (mask : MaskOp) (rm : RMode)
  | mopn (t : TReg) (va vb : VReg) (mask : MaskOp) (rm : RMode)
  | mrd (col : Bool) (vd : VReg) (t : TReg) (sa : SReg) (mask : MaskOp)
  | mwr (col : Bool) (t : TReg) (va : VReg) (sb : SReg) (mask : MaskOp)
  | mst (q : QReg) (t : TReg) (sa sb : SReg) (mask : MaskOp) (k : KReg) (rm : RMode) (sat : Bool)
  -- messages (R265)
  | vsend (nb : Bool) (f : FReg) (va : VReg) (k : KReg)
  | vrecv (nb : Bool) (vd : VReg) (f : FReg) (k : KReg)
  -- streams and counters (R221, R232)
  | qset (fmt : MemFmt) (q : QReg) (sa sb : SReg) (scq : Option QReg)
  | qsetx (pol : Policy) (q : QReg) (vb : VReg) (sc : SReg)
  | qchain (pol : Policy) (q : QReg) (sa sb : SReg) | qget (sd : SReg) (q : QReg) (quad : BitVec 3)
  | kwait (k : KReg) (sa : SReg) | kread (sd : SReg) (k : KReg) | kset (k : KReg) (sa : SReg)
  | kadd (k : KReg) (sa : SReg)
  -- fabric and groups (R264, R269, R279)
  | fsbindPeer (sealed : Bool) (f : FReg) (sa sb : SReg) | fsbindGroup (f : FReg) (j : BitVec 4)
  | fsfree (f : FReg) | cbar (sd : SReg)
  | collectiveVst (o : VColl) | collectiveVld (o : VColl)
  -- circuits, windows, engines, transport (R280, R240, R241, R253, R259, R282)
  | rwo (slot : BitVec 5) (sa sb : SReg) | rwc (slot : BitVec 5)
  | cpy (qa qb : QReg) (sa : SReg) (k : KReg) | cpyff (sd : SReg) (qa qb : QReg) (sa : SReg) (k : KReg)
  -- the last nine instructions with operands; see `Late` in Decode.lean
  | fmp (sa : SReg) (k : KReg)
  | cgsel (sd : SReg) (j : BitVec 4) | cjoin (sd : SReg) (j : BitVec 4) (sa sb : SReg)
  | cleave (j : BitVec 4) | cstat (sd : SReg) (j : BitVec 4)
  | sqpost (sd sa sb sc : SReg) (k : KReg) | sqstat (sd sa : SReg)
  | rpost (sa sb : SReg) (k : KReg) | rarm (sa sb : SReg) (k : KReg)
  -- the instructions without operands (R170, R176-R184, R247, R279)
  | ifence | tclrCt | gtrig | gbar | gyield | gexit | sys | brk | sret | mwait | cabort
  -- steps of a hart that no instruction names (R330, R45, R39, R182)
  | trapEntry (h : HartRef) | issueWaitEnd (h : HartRef) | hartResume (h : HartRef)
  | gyieldExpiry (h : HartRef)
  -- accesses reaching their homes (R35, R112-R128, R136)
  | elementGroupArrival (h : HartRef) (v : VReg) (g : Nat) | loadPerformed (h : HartRef) (i : Nat)
  | tagRetire (h : HartRef) (t : BitVec 4) | storeAcknowledge (h : HartRef) (i : Nat)
  | homeAccess (h : HartRef) (i : Nat) | atomicAtHome (h : HartRef) (i : Nat)
  | rruAtomic (h : HartRef) (i : Nat) | vectorAtomicUpdate (h : HartRef) (i : Nat)
  | trainApply (h : HartRef) (t : Nat) | trainAcknowledge (h : HartRef) (t : Nat)
  -- completions (R230, R257, R263, R251)
  | nbComplete (h : HartRef) (c : Nat) | copyComplete (h : HartRef) (c : Nat)
  | fullerComplete (h : HartRef) (c : Nat) | mstComplete (h : HartRef) (c : Nat)
  -- translation (R352-R360)
  | tlbMissWalk (w : WalkReq) | translationHint (w : WalkReq) | shootdownRequest (pkg : Nat)
  | shootdownAcknowledge (pkg : Nat)
  -- messages and collectives (R266, R277, R278, R404)
  | messagePacketArrive (m : Nat) (packet : Nat)
  | collectiveContributionArrive (g : OpRef) (rank : Nat) (pkg : Nat) | collectiveCommit (g : OpRef)
  | abort (g : OpRef) (cause : Nat) (at_ : AbortAt) | lagLimitExpiry (g : OpRef)
  -- circuits (R281, R393-R396)
  | circuitPacketSend (pkg dest : Nat) | circuitPayloadPlace (pkg post payload : Nat)
  | postComplete (pkg post : Nat) | slotStart (pkg slot : Nat) | switchChange (pkg : Nat)
  | rotstart (pkg rot epoch : Nat) | rotationTimeout (pkg : Nat) | setup (pkg : Nat) (c : Circuit)
  | circuitAck (pkg num : Nat) | busy (pkg num : Nat) | teardown (pkg num : Nat)
  | setupRetry (pkg num : Nat) | slotTableLoad (pkg : Nat)
  -- flits, FEC, colours (R385-R392, R397)
  | flitReceive (l : Lane) (f : Flit) | nak (l : Lane) (lseq : BitVec 12)
  | propose (l : Lane) (mode : BitVec 2) (epoch : BitVec 4) | fecAck (l : Lane) (epoch : BitVec 4)
  | proposeRepeat (l : Lane) | fecThresholdCrossed (l : Lane) | fecQuietExpiry (l : Lane)
  | portPlanChange (pkg port : Nat) | colourTrained (l : Lane) | colourDrained (l : Lane)
  | pathTimeout (pkg dest : Nat) | laneRemap (l : Lane)
  -- transport (R398-R401, R284)
  | transportPacketReceive (pkg : Nat) (p : TPacket)
  | transportAcknowledge (pkg conn cum : Nat) (sel : List Nat)
  | retransmitTimeout (pkg conn psn : Nat) | notready (pkg conn psn delay : Nat)
  | contextFetchComplete (pkg conn : Nat) | rekey (pkg conn : Nat)
  | workRequestComplete (pkg req : Nat) (code : Nat) | ethernetFrameReceive (pkg port : Nat) (f : EthFrame)
  -- scheduler (R364-R379)
  | recordAccept (pkg q : Nat) | gangPlace (pkg q : Nat) | preemptVictims (pkg q : Nat)
  | graceExpiry (h : HartRef) | forcedHartEnd (h : HartRef) | quotaReturn (pkg gang : Nat)
  | gangTrigger (pkg gang : Nat) | gangEnd (pkg gang : Nat)
  | queueTailWrite (pkg q : Nat) (value : Word) | sieveRecarve (pkg core : Nat)
  -- reset, Huane, power, errors, host link (R405-R421)
  | packageReset (pkg : Nat) | go (pkg : Nat) | mailboxPoll (pkg : Nat) | fwload (pkg ring : Nat)
  | pcreate (pkg ring : Nat) | ptear (pkg ring : Nat) | partitionRelease (pkg part : Nat)
  | ecreate (pkg ring : Nat) | ejoin (pkg ring : Nat) | report (pkg ring : Nat)
  | erevoke (pkg ring : Nat) | revocationApply (pkg : Nat) (enclave member epoch : Nat)
  | lcs (pkg ring : Nat) | powerGrantInterval (pkg : Nat) (demand : List Nat) | railDroop (pkg : Nat)
  | thermalTrip (pkg : Nat) | thermalRecover (pkg : Nat)
  | uncorrectableError (pkg : Nat) (u : EccUnit) (addr : Nat) | correctedSummary (pkg die : Nat)
  | hostLinkTraining (pkg rate : Nat) | registerWrite (pkg : Nat) (r : RegId) (v : Quad)
  | lossOfLight (l : Lane) | remapEnd (pkg port : Nat) | notReadyAnswer (m : Nat)
  | rankDeparture (handle : Quad) (rank : Nat)
  deriving DecidableEq, Repr

end Sys2Proof
end

