-- ==== Sys2Proof/WellFormed.lean ====
section
/-! DEFINITION. Which terms of `Instr` an instruction word can stand for: the rules of check 4 of
R141 that the types of Syntax.lean do not already enforce. The steps of other agents (spec 95) are
no instructions and have no word. -/

namespace Sys2Proof

/-- A complemented mask names a register other than m0 (R144). -/
def MaskOp.wf (o : MaskOp) : Bool := !(o.comp && o.m == 0#3)

/-- The unmasked mask field. -/
def MaskOp.none : MaskOp := ⟨0, false⟩

/-- A destination mask is not m0 (R49). -/
def MReg.isDst (m : MReg) : Bool := m != 0#3

/-- rm and sat must be zero where the entry lists neither (R188). -/
def noRm (rm : RMode) : Bool := rm == .dyn

/-- The counter field is zero without .nb (R224). -/
def counterOk (nb : Bool) (k : KReg) : Bool := nb || k == 0#3

def VBin.wf (o : VBin) (rm sat : Bool) : Bool :=
  o.mask.wf && (rm || noRm o.rm) && (sat || !o.sat)

def VUn.wf (o : VUn) (rm sat : Bool) : Bool :=
  o.mask.wf && (rm || noRm o.rm) && (sat || !o.sat)

def VTern.wf (o : VTern) : Bool := o.mask.wf

/-- rm is allowed on sum only (R212). -/
def RedOp.rmOk (op : RedOp) (rm : RMode) : Bool := op == .sum || noRm rm

def VRed.wf (o : VRed) : Bool := o.mask.wf && o.op.rmOk o.rm

/-- Fields of the access instructions (R224): `dst`, `data` say whether the form has them. -/
def VMem.wf (o : VMem) (dst data nb rm : Bool) : Bool :=
  o.mask.wf && (dst || o.dst == 0#6) && (data || o.data == 0#6) && (nb || !o.nb)
    && counterOk o.nb o.k && (rm || (noRm o.rm && !o.sat))

def VColl.wf (o : VColl) : Bool := o.mask.wf && counterOk o.nb o.k

/-- Unit code of member `i` (0-based) of a convoy header (R148). -/
def convoyUnit (units : BitVec 18) (i : Nat) : BitVec 3 := units.extractLsb' (3 * i) 3

/-- Unit fields beyond the declared count are zero (R148). -/
def convoyUnitsOk (cnt : BitVec 3) (units : BitVec 18) : Bool :=
  (List.range 6).all fun i => decide (i < cnt.toNat + 2) || convoyUnit units i == 0#3

/-- Well-formed: some instruction word stands for the term. False for every step of another agent. -/
def Instr.wellFormed : Instr → Bool
  | .add .. | .sub .. | .and .. | .or .. | .xor .. | .sll .. | .srl .. | .sra .. | .rotl ..
  | .rotr .. | .mul .. | .mulh .. | .mulhN .. | .div .. | .divN .. | .rem .. | .remN .. | .min ..
  | .max .. | .minN .. | .maxN .. | .slt .. | .sltN .. | .clz .. | .ctz .. | .popc ..
  | .addi .. | .andi .. | .ori .. | .xori .. | .slli .. | .srli .. | .srai .. | .lih .. | .adr ..
  | .li64 .. | .gmk .. | .gfld .. | .bEq .. | .bNe .. | .bLt .. | .bGe .. | .bLtN .. | .bGeN ..
  | .j .. | .jal .. | .jr .. | .jalr .. | .fadd .. | .fsub .. | .fmul .. | .fdiv .. | .fsqrt ..
  | .fmin .. | .fmax .. | .fcmpEq .. | .fcmpLt .. | .fcmpLe .. | .fcmpUo .. | .fclass ..
  | .fsgnJ .. | .fsgnN .. | .fsgnX .. | .fmv .. | .fcvt .. | .fmadd .. | .fmsub .. | .fnmadd ..
  | .ldB .. | .ldH .. | .ldW .. | .ld .. | .ldBi .. | .ldHi .. | .ldWi .. | .stB .. | .stH ..
  | .stW .. | .st .. | .ldcB .. | .ldcH .. | .ldcW .. | .ldc .. | .ldcBi .. | .ldcHi ..
  | .ldcWi .. | .lsync .. | .stRel .. | .ifence | .amoAdd .. | .amoAnd .. | .amoOr ..
  | .amoXor .. | .amoMin .. | .amoMax .. | .amoMinN .. | .amoMaxN .. | .amoSwap .. | .amoFadd ..
  | .cas .. | .waita .. | .wakea .. | .csrr .. | .csrw .. | .csrs .. | .csrc .. | .tclr ..
  | .tclrCt | .tget .. | .tdep .. | .glaunch .. | .gtrig | .gwait .. | .gbar | .gyield | .gexit
  | .sys | .brk | .sret | .vqsave .. | .vqrest .. | .vsave .. | .vrest .. | .hsave .. | .hrest ..
  | .tlbinv .. | .snap .. | .pwait .. | .mwipe .. | .vsetl .. | .sloop .. | .sloopPar ..
  | .snext .. => true
  | .vcfg _ _ _ lg => decide (lg.toNat ≤ 8)
  | .convoyHeader cnt units => convoyUnitsOk cnt units
  | .cAddi d _ => d != 0#5
  | .cMv .. | .cLd .. | .cSt .. | .cBEq .. | .cBNe .. | .cJ .. | .cVadd .. | .cVsub .. | .cVmul ..
  | .cVmulh .. | .cVdiv .. | .cVrem .. | .cVmin .. | .cVmax .. | .cVand .. | .cVor .. | .cVxor ..
  | .cVsll .. | .cVsrl .. | .cVsra .. => true
  | .vadd o | .vsub o | .vmul o | .vdiv o => o.wf true true
  | .vmulh o | .vrem o | .vmin o | .vmax o | .vand o | .vor o | .vxor o | .vsll o | .vsrl o
  | .vsra o => o.wf false false
  | .vpopc o | .vclz o | .vclass o => o.wf false false
  | .vabs o | .vneg o => o.wf false true
  | .vfma o | .vfms o | .vnfma o => o.wf
  | .vsqrt o | .vrcp o | .vrsqrt o | .vexp2 o | .vlog2 o => o.wf true true
  | .vcvt _ o => o.wf true true
  | .vcmp _ md _ _ mask => md.isDst && mask.wf
  | .vsel _ _ _ mask => mask.wf
  | .mand md _ _ | .mor md _ _ | .mxor md _ _ | .mandn md _ _ | .mnot md _ => md.isDst
  | .mpop _ _ mask | .mfirst _ _ mask => mask.wf
  | .mtolist md _ | .mtobit md _ => md.isDst
  | .mfromx md _ mask => md.isDst && mask.wf
  | .vidx _ _ _ mask | .vsplat _ _ mask | .vmv _ _ mask => mask.wf
  | .vtag .. | .vmvx .. => true
  | .vmvs _ _ mask | .vslideup _ _ _ _ mask | .vslidedn _ _ _ _ mask | .vperm _ _ _ mask
  | .vcompress _ _ mask | .vexpand _ _ mask | .vrev _ _ mask => mask.wf
  | .vred o | .vscan o => o.wf
  | .vsegred op _ _ _ mask rm => mask.wf && op.rmOk rm
  | .vld o => o.wf true false true true
  | .vldff o => o.wf true false false true
  | .vst o => o.wf false true true true
  | .vchg o => o.wf true true true true
  | .vamo _ o => o.wf false true true false
  | .vamoR _ o => o.wf true true true false
  | .vwait _ => true
  | .vpres md _ => md.isDst
  | .svins md _ mask => md.isDst && mask.wf
  | .svlook _ _ _ mask => mask.wf
  | .svacc md _ _ mask => md.isDst && mask.wf
  | .svdrn vd vb _ mask => mask.wf && vd != vb
  | .svclr .. | .mshape .. | .mstep .. | .mwait | .fmpq .. | .mzero .. => true
  | .mop _ _ _ mask _ | .mopn _ _ _ mask _ => mask.wf
  | .mrd _ _ _ _ mask | .mwr _ _ _ _ mask => mask.wf
  | .mst _ _ _ _ mask _ _ _ => mask.wf
  | .vsend nb _ _ k | .vrecv nb _ _ k => counterOk nb k
  | .qset fmt _ _ sb _ => !(fmt == .e2m1 && sb != 0#5)
  | .qsetx .. | .qchain .. | .qget .. | .kwait .. | .kread .. | .kset .. | .kadd .. => true
  | .fsbindPeer .. | .fsbindGroup .. | .fsfree .. | .cgsel .. | .cjoin .. | .cleave .. | .cbar ..
  | .cabort | .cstat .. => true
  | .collectiveVst o | .collectiveVld o => o.wf
  | .sqpost .. | .sqstat .. | .rwo .. | .rwc .. | .cpy .. | .cpyff .. | .fmp .. | .rpost ..
  | .rarm .. => true
  | .trapEntry .. | .issueWaitEnd .. | .hartResume .. | .gyieldExpiry .. | .elementGroupArrival ..
  | .loadPerformed .. | .tagRetire .. | .storeAcknowledge .. | .homeAccess .. | .atomicAtHome ..
  | .rruAtomic .. | .vectorAtomicUpdate .. | .trainApply .. | .trainAcknowledge ..
  | .nbComplete .. | .copyComplete .. | .fullerComplete .. | .mstComplete .. | .tlbMissWalk ..
  | .translationHint .. | .shootdownRequest .. | .shootdownAcknowledge ..
  | .messagePacketArrive .. | .collectiveContributionArrive .. | .collectiveCommit .. | .abort ..
  | .lagLimitExpiry .. | .circuitPacketSend .. | .circuitPayloadPlace .. | .postComplete ..
  | .slotStart .. | .switchChange .. | .rotstart .. | .rotationTimeout .. | .setup ..
  | .circuitAck .. | .busy .. | .teardown .. | .setupRetry .. | .slotTableLoad ..
  | .flitReceive .. | .nak .. | .propose .. | .fecAck .. | .proposeRepeat ..
  | .fecThresholdCrossed .. | .fecQuietExpiry .. | .portPlanChange .. | .colourTrained ..
  | .colourDrained .. | .pathTimeout .. | .laneRemap .. | .transportPacketReceive ..
  | .transportAcknowledge .. | .retransmitTimeout .. | .notready .. | .contextFetchComplete ..
  | .rekey .. | .workRequestComplete .. | .ethernetFrameReceive .. | .recordAccept ..
  | .gangPlace .. | .preemptVictims .. | .graceExpiry .. | .forcedHartEnd .. | .quotaReturn ..
  | .gangTrigger .. | .gangEnd .. | .queueTailWrite .. | .sieveRecarve .. | .packageReset ..
  | .go .. | .mailboxPoll .. | .fwload .. | .pcreate .. | .ptear .. | .partitionRelease ..
  | .ecreate .. | .ejoin .. | .report .. | .erevoke .. | .revocationApply .. | .lcs ..
  | .powerGrantInterval .. | .railDroop .. | .thermalTrip .. | .thermalRecover ..
  | .uncorrectableError .. | .correctedSummary .. | .hostLinkTraining .. | .registerWrite ..
  | .lossOfLight .. | .remapEnd .. | .notReadyAnswer .. | .rankDeparture .. => false

end Sys2Proof
end

