-- ==== Sys2Proof/Decode.lean ====
section
/-! DEFINITION. The instruction formats of spec 07 (R139 to R153): the encoder and the decoder.

`encode` gives the word of each instruction, field by field from the tables of R142 to R153; every
field that the entry of an instruction leaves unused is zero there. The decoder reads its operands
out of a word (`candidate`), and accepts the word only when it is the encoding of the term it read
and that term is well-formed: this is the must-be-zero check of R141 (check 4), for every format. -/

namespace Sys2Proof

/-- Why the decoder rejects a sequence of parcels (checks 2 to 4 of R141). -/
inductive DecodeError where
  /-- Parcel 0 declares a reserved length, or a reserved major, page function or long-form operation. -/
  | reserved
  /-- A must-be-zero bit is set, or a register field is outside its class's range. -/
  | mustBeZero
  /-- Fewer parcels than parcel 0 declares. -/
  | truncated
  deriving DecidableEq, Repr

/-- The word of one instruction: 1, 2 or 4 parcels (R139). -/
inductive Code where
  | w16 (w : BitVec 16) | w32 (w : BitVec 32) | w64 (w : BitVec 64)
  deriving DecidableEq, Repr

/-! ### Field codes -/

def RMode.code : RMode → BitVec 2
  | .dyn => 0 | .rne => 1 | .rtz => 2 | .rto => 3

def RMode.ofCode (c : BitVec 2) : RMode :=
  if c = 0 then .dyn else if c = 1 then .rne else if c = 2 then .rtz else .rto

def FFmt.code : FFmt → BitVec 1
  | .f32 => 0 | .f64 => 1

def FFmt.ofCode (c : BitVec 1) : FFmt := if c = 0 then .f32 else .f64

def AddrField.code : AddrField → BitVec 4
  | .kind => 0 | .pkg => 1 | .die => 2 | .chan => 3 | .core => 4 | .goff => 5 | .voff => 6
  | .wslot => 7 | .woff => 8

def AddrField.ofCode (c : BitVec 4) : Option AddrField :=
  match c with
  | 0#4 => some .kind | 1#4 => some .pkg | 2#4 => some .die | 3#4 => some .chan
  | 4#4 => some .core | 5#4 => some .goff | 6#4 => some .voff | 7#4 => some .wslot
  | 8#4 => some .woff | _ => none

def FcvtCode.code : FcvtCode → BitVec 5
  | .f64f32 => 0 | .f32f64 => 1 | .i64f32 => 2 | .n64f32 => 3 | .i64f64 => 4 | .n64f64 => 5
  | .f32i64 => 6 | .f32n64 => 7 | .f64i64 => 8 | .f64n64 => 9 | .i32f32 => 10 | .n32f32 => 11
  | .i32f64 => 12 | .n32f64 => 13 | .f32i32 => 14 | .f32n32 => 15 | .f64i32 => 16 | .f64n32 => 17

def FcvtCode.ofCode (c : BitVec 5) : Option FcvtCode :=
  match c with
  | 0#5 => some .f64f32 | 1#5 => some .f32f64 | 2#5 => some .i64f32 | 3#5 => some .n64f32
  | 4#5 => some .i64f64 | 5#5 => some .n64f64 | 6#5 => some .f32i64 | 7#5 => some .f32n64
  | 8#5 => some .f64i64 | 9#5 => some .f64n64 | 10#5 => some .i32f32 | 11#5 => some .n32f32
  | 12#5 => some .i32f64 | 13#5 => some .n32f64 | 14#5 => some .f32i32 | 15#5 => some .f32n32
  | 16#5 => some .f64i32 | 17#5 => some .f64n32 | _ => none

def Scope.code : Scope → BitVec 3
  | .h => 0 | .c => 1 | .d => 2 | .p => 3 | .g => 4

def Scope.ofCode (c : BitVec 3) : Option Scope :=
  match c with
  | 0#3 => some .h | 1#3 => some .c | 2#3 => some .d | 3#3 => some .p | 4#3 => some .g | _ => none

def StWidth.code : StWidth → BitVec 2
  | .b => 0 | .h => 1 | .w => 2 | .q => 3

def StWidth.ofCode (c : BitVec 2) : StWidth :=
  if c = 0 then .b else if c = 1 then .h else if c = 2 then .w else .q

def AmoWidth.code : AmoWidth → BitVec 2
  | .w32 => 2 | .w64 => 3

def AmoWidth.ofCode (c : BitVec 2) : Option AmoWidth :=
  if c = 2 then some .w32 else if c = 3 then some .w64 else none

def Tag.code : Tag → BitVec 3
  | .n32 => 0 | .i32 => 1 | .f32 => 2 | .n64 => 4 | .i64 => 5 | .f64 => 6

def Tag.ofCode (c : BitVec 3) : Option Tag :=
  match c with
  | 0#3 => some .n32 | 1#3 => some .i32 | 2#3 => some .f32 | 4#3 => some .n64 | 5#3 => some .i64
  | 6#3 => some .f64 | _ => none

def MemFmt.code : MemFmt → BitVec 5
  | .n8 => 0 | .n16 => 1 | .n32 => 2 | .n64 => 3 | .i8 => 4 | .i16 => 5 | .i32 => 6 | .i64 => 7
  | .f16 => 8 | .bf16 => 9 | .f32 => 10 | .f64 => 11 | .e4m3 => 12 | .e5m2 => 13 | .e2m1 => 14
  | .e8m0 => 15

def MemFmt.ofCode (c : BitVec 5) : Option MemFmt :=
  match c with
  | 0#5 => some .n8 | 1#5 => some .n16 | 2#5 => some .n32 | 3#5 => some .n64 | 4#5 => some .i8
  | 5#5 => some .i16 | 6#5 => some .i32 | 7#5 => some .i64 | 8#5 => some .f16 | 9#5 => some .bf16
  | 10#5 => some .f32 | 11#5 => some .f64 | 12#5 => some .e4m3 | 13#5 => some .e5m2
  | 14#5 => some .e2m1 | 15#5 => some .e8m0 | _ => none

def Policy.code : Policy → BitVec 2
  | .trap => 0 | .clamp => 1 | .drop => 2

def Policy.ofCode (c : BitVec 2) : Option Policy :=
  if c = 0 then some .trap else if c = 1 then some .clamp else if c = 2 then some .drop else none

def CmpCond.code : CmpCond → BitVec 4
  | .eq => 0 | .ne => 1 | .lt => 2 | .ge => 3 | .le => 4 | .gt => 5 | .uo => 6

def CmpCond.ofCode (c : BitVec 4) : Option CmpCond :=
  match c with
  | 0#4 => some .eq | 1#4 => some .ne | 2#4 => some .lt | 3#4 => some .ge | 4#4 => some .le
  | 5#4 => some .gt | 6#4 => some .uo | _ => none

def RedOp.code : RedOp → BitVec 4
  | .sum => 0 | .max => 1 | .min => 2 | .and => 3 | .or => 4 | .xor => 5

def RedOp.ofCode (c : BitVec 4) : Option RedOp :=
  match c with
  | 0#4 => some .sum | 1#4 => some .max | 2#4 => some .min | 3#4 => some .and | 4#4 => some .or
  | 5#4 => some .xor | _ => none

def AmoOp.code : AmoOp → BitVec 4
  | .add => 0 | .and => 1 | .or => 2 | .xor => 3 | .min => 4 | .max => 5 | .minN => 6
  | .maxN => 7 | .swap => 8 | .fadd => 9

def AmoOp.ofCode (c : BitVec 4) : Option AmoOp :=
  match c with
  | 0#4 => some .add | 1#4 => some .and | 2#4 => some .or | 3#4 => some .xor | 4#4 => some .min
  | 5#4 => some .max | 6#4 => some .minN | 7#4 => some .maxN | 8#4 => some .swap
  | 9#4 => some .fadd | _ => none

def MClass.code : MClass → BitVec 2
  | .w4 => 0 | .w8 => 1 | .w16 => 2 | .w32 => 3

def MClass.ofCode (c : BitVec 2) : MClass :=
  if c = 0 then .w4 else if c = 1 then .w8 else if c = 2 then .w16 else .w32

/-- Class code and number of a register named by a taint instruction (R143). -/
def TaintReg.cls : TaintReg → BitVec 2
  | .s _ => 0 | .v _ => 1 | .m _ => 2 | .q _ => 3

def TaintReg.num : TaintReg → BitVec 6
  | .s r => 0#1 ++ r | .v r => r | .m r => 0#3 ++ r | .q r => 0#2 ++ r

def TaintReg.ofFields (cls : BitVec 2) (num : BitVec 6) : TaintReg :=
  if cls = 0 then .s (num.extractLsb' 0 5) else if cls = 1 then .v num
  else if cls = 2 then .m (num.extractLsb' 0 3) else .q (num.extractLsb' 0 4)

def bit1 (b : Bool) : BitVec 1 := BitVec.ofBool b

/-! ### 32-bit scalar formats (R142) -/

/-- The fields of a 32-bit scalar word in Register form; the other forms overlay them. -/
structure SWord where
  major : BitVec 5
  fn : BitVec 10
  b : BitVec 5
  a : BitVec 5
  d : BitVec 5
  deriving DecidableEq, Repr

def SWord.pack (w : SWord) : BitVec 32 := (w.fn ++ w.b ++ w.a ++ w.d ++ w.major ++ 3#2).setWidth 32

def SWord.unpack (w : BitVec 32) : SWord :=
  { major := w.extractLsb' 2 5, fn := w.extractLsb' 22 10, b := w.extractLsb' 17 5,
    a := w.extractLsb' 12 5, d := w.extractLsb' 7 5 }

def regWord (major : BitVec 5) (fn : BitVec 10) (b a d : BitVec 5) : SWord := ⟨major, fn, b, a, d⟩

/-- Immediate form: imm15 fills the fn and b fields. -/
def immWord (major : BitVec 5) (imm : BitVec 15) (a d : BitVec 5) : SWord :=
  ⟨major, imm.extractLsb' 5 10, imm.extractLsb' 0 5, a, d⟩

def SWord.imm15 (w : SWord) : BitVec 15 := w.fn ++ w.b

/-- Memory, Branch and Loop forms: imm12 and a 3-bit selector. -/
def memWord (major : BitVec 5) (imm : BitVec 12) (sel : BitVec 3) (a d : BitVec 5) : SWord :=
  immWord major (imm ++ sel) a d

def SWord.imm12 (w : SWord) : BitVec 12 := w.imm15.extractLsb' 3 12
def SWord.sel (w : SWord) : BitVec 3 := w.imm15.extractLsb' 0 3

/-- Upper form: imm20 fills the fn, b and a fields. -/
def upperWord (major : BitVec 5) (imm : BitVec 20) (d : BitVec 5) : SWord :=
  immWord major (imm.extractLsb' 5 15) (imm.extractLsb' 0 5) d

def SWord.imm20 (w : SWord) : BitVec 20 := w.fn ++ w.b ++ w.a

/-- Jump form: offset25 fills everything above the major. -/
def jumpWord (major : BitVec 5) (off : BitVec 25) : SWord :=
  upperWord major (off.extractLsb' 5 20) (off.extractLsb' 0 5)

def SWord.off25 (w : SWord) : BitVec 25 := w.fn ++ w.b ++ w.a ++ w.d

/-- Branch form: the offset, sb, the condition and sa; sa is in [11:7] and sb in [16:12]. -/
def brWord (cond : BitVec 3) (a b : BitVec 5) (off : BitVec 12) : SWord := memWord 0x08 off cond b a

/-- Scalar floating point: fn10 is rm, fmt, op (R143). -/
def fpWord (rm : RMode) (fmt : FFmt) (op : BitVec 7) (b a d : BitVec 5) : SWord :=
  regWord 0x11 (rm.code ++ fmt.code ++ op) b a d

/-- Quad-operand form: fmt, rm, op, sc. -/
def quadWord (rm : RMode) (fmt : FFmt) (op : BitVec 2) (c b a d : BitVec 5) : SWord :=
  regWord 0x12 (fmt.code ++ rm.code ++ op ++ c) b a d

/-- Atomics: fn10 is zero, width, operation (R143). -/
def amoWord (x : AmoWidth) (op : BitVec 4) (b a d : BitVec 5) : SWord :=
  regWord 0x0F (0#4 ++ x.code ++ op) b a d

/-- CSR form (R142). -/
def csrWord (op : BitVec 2) (csr : BitVec 12) (a d : BitVec 5) : SWord :=
  memWord 0x13 csr (0#1 ++ op) a d

/-- Taint form (R143); x in [28], [25:24], sd; y in [29], [27:26], sa. -/
def taintWord (op : BitVec 2) (yc xc : BitVec 2) (y x : BitVec 6) : SWord :=
  regWord 0x14 (0#2 ++ y.extractLsb' 5 1 ++ x.extractLsb' 5 1 ++ yc ++ xc ++ op) 0
    (y.extractLsb' 0 5) (x.extractLsb' 0 5)

/-! ### The vector word (R144) -/

/-- The fields of a vector word; fn12 is `hi` over SUB. -/
structure VWord where
  major : BitVec 6
  sub : BitVec 4 := 0
  hi : BitVec 8 := 0
  sat : Bool := false
  rm : RMode := .dyn
  nb : Bool := false
  k : BitVec 3 := 0
  q : BitVec 4 := 0
  mask : MaskOp := ⟨0, false⟩
  vc : BitVec 6 := 0
  vb : BitVec 6 := 0
  va : BitVec 6 := 0
  vd : BitVec 6 := 0
  deriving DecidableEq, Repr

def VWord.pack (w : VWord) : BitVec 64 :=
  (w.hi ++ w.sub ++ bit1 w.sat ++ w.rm.code ++ bit1 w.nb ++ w.k ++ w.q ++ bit1 w.mask.comp ++ w.mask.m
    ++ w.vc ++ w.vb ++ w.va ++ w.vd ++ w.major ++ 0x73#7).setWidth 64

def VWord.unpack (w : BitVec 64) : VWord :=
  { hi := w.extractLsb' 56 8, sub := w.extractLsb' 52 4, sat := bitOf w 51,
    rm := RMode.ofCode (w.extractLsb' 49 2), nb := bitOf w 48, k := w.extractLsb' 45 3,
    q := w.extractLsb' 41 4, mask := ⟨w.extractLsb' 37 3, bitOf w 40⟩, vc := w.extractLsb' 31 6,
    vb := w.extractLsb' 25 6, va := w.extractLsb' 19 6, vd := w.extractLsb' 13 6,
    major := w.extractLsb' 7 6 }

/-- A six-bit field that names an s register, a mask register or a tile (R144). -/
def fieldS (r : BitVec 5) : BitVec 6 := 0#1 ++ r
def fieldM (r : BitVec 3) : BitVec 6 := 0#3 ++ r
def fieldT (r : BitVec 2) : BitVec 6 := 0#4 ++ r
def fieldQ (r : BitVec 4) : BitVec 6 := 0#2 ++ r
/-- The q field that names an f register (R144). -/
def fieldF (f : FReg) : BitVec 4 := 0#1 ++ f

def lowS (f : BitVec 6) : BitVec 5 := f.extractLsb' 0 5
def lowM (f : BitVec 6) : BitVec 3 := f.extractLsb' 0 3
def lowT (f : BitVec 6) : BitVec 2 := f.extractLsb' 0 2
def lowQ (f : BitVec 6) : BitVec 4 := f.extractLsb' 0 4
def lowF (q : BitVec 4) : BitVec 3 := q.extractLsb' 0 3

def VSrc.field : VSrc → BitVec 6
  | .v r => r | .s r => fieldS r
def VSrc.sBit : VSrc → BitVec 1
  | .v _ => 0 | .s _ => 1
def VSrc.ofField (s : Bool) (f : BitVec 6) : VSrc := if s then .s (lowS f) else .v f

def binWord (major : BitVec 6) (o : VBin) : VWord :=
  { major := major, hi := 0#7 ++ o.vb.sBit, sat := o.sat, rm := o.rm, mask := o.mask,
    vb := o.vb.field, va := o.va, vd := o.vd }
def unWord (major : BitVec 6) (sub : BitVec 4) (o : VUn) : VWord :=
  { major := major, sub := sub, sat := o.sat, rm := o.rm, mask := o.mask, va := o.va, vd := o.vd }
def ternWord (major : BitVec 6) (o : VTern) : VWord :=
  { major := major, sat := o.sat, rm := o.rm, mask := o.mask, vc := o.vc, vb := o.vb, va := o.va,
    vd := o.vd }
def redWord (major : BitVec 6) (o : VRed) : VWord :=
  { major := major, hi := 0#3 ++ bit1 o.init.isSome ++ o.op.code, rm := o.rm, mask := o.mask,
    vc := o.init.getD 0, va := o.va, vd := o.vd }
def memVWord (major : BitVec 6) (hi : BitVec 8) (o : VMem) : VWord :=
  { major := major, hi := hi, sat := o.sat, rm := o.rm, nb := o.nb, k := o.k, q := o.q,
    mask := o.mask, va := o.data, vd := o.dst }

def VWord.bin (w : VWord) : VBin := ⟨w.vd, w.va, VSrc.ofField (bitOf w.hi 0) w.vb, w.mask, w.rm, w.sat⟩
def VWord.un (w : VWord) : VUn := ⟨w.vd, w.va, w.mask, w.rm, w.sat⟩
def VWord.tern (w : VWord) : VTern := ⟨w.vd, w.va, w.vb, w.vc, w.mask, w.rm, w.sat⟩
def VWord.red (w : VWord) (op : RedOp) : VRed :=
  ⟨op, w.vd, w.va, if bitOf w.hi 4 then some w.vc else none, w.mask, w.rm⟩
def VWord.mem (w : VWord) : VMem := ⟨w.vd, w.va, w.q, w.mask, w.nb, w.k, w.rm, w.sat⟩

def maskWord (sub : BitVec 4) (md ma mb : MReg) : VWord :=
  { major := 0x17, sub := sub, vb := fieldM mb, va := fieldM ma, vd := fieldM md }

/-! ### Long forms (R151) -/

/-- The fields of an engine form. -/
structure LWord where
  lop : BitVec 4
  k : BitVec 3 := 0
  qb : BitVec 4 := 0
  qa : BitVec 4 := 0
  b : BitVec 5 := 0
  a : BitVec 5 := 0
  d : BitVec 5 := 0
  deriving DecidableEq, Repr

def LWord.pack (w : LWord) : BitVec 64 :=
  (0#27 ++ w.k ++ w.qb ++ w.qa ++ w.b ++ w.a ++ w.lop ++ w.d ++ 0x7B#7).setWidth 64

def LWord.unpack (w : BitVec 64) : LWord :=
  { lop := w.extractLsb' 12 4, k := w.extractLsb' 34 3, qb := w.extractLsb' 30 4,
    qa := w.extractLsb' 26 4, b := w.extractLsb' 21 5, a := w.extractLsb' 16 5,
    d := w.extractLsb' 7 5 }

/-- The word of a convoy header (R148). -/
def convoyWord (cnt : BitVec 3) (units : BitVec 18) : BitVec 32 :=
  (0#4 ++ units ++ cnt ++ 0x77#7).setWidth 32

/-- A compact vector form (R153). -/
def cvWord (op : BitVec 5) (vx : VReg) (m : MReg) : BitVec 16 := (m ++ vx ++ op ++ 2#2).setWidth 16

def Code.s (w : SWord) : Code := .w32 w.pack
def Code.v (w : VWord) : Code := .w64 w.pack
def Code.l (w : LWord) : Code := .w64 w.pack

def fmpWord (sa : SReg) (k : KReg) : LWord :=
  { lop := 3, k := k, a := sa }
def cgselWord (sd : SReg) (j : BitVec 4) : VWord :=
  { major := 0x32, sub := 2, hi := j ++ 0#4, vd := fieldS sd }
def cjoinWord (sd : SReg) (j : BitVec 4) (sa sb : SReg) : VWord :=
  { major := 0x32, sub := 3, hi := j ++ 0#4, vb := fieldS sb, va := fieldS sa, vd := fieldS sd }
def cleaveWord (j : BitVec 4) : VWord :=
  { major := 0x32, sub := 4, hi := j ++ 0#4 }
def cstatWord (sd : SReg) (j : BitVec 4) : VWord :=
  { major := 0x32, sub := 7, hi := j ++ 0#4, vd := fieldS sd }
def sqpostWord (sd sa sb sc : SReg) (k : KReg) : VWord :=
  { major := 0x33, sub := 0, k := k, vc := fieldS sc, vb := fieldS sb, va := fieldS sa, vd := fieldS sd }
def sqstatWord (sd sa : SReg) : VWord :=
  { major := 0x33, sub := 1, va := fieldS sa, vd := fieldS sd }
def rpostWord (sa sb : SReg) (k : KReg) : LWord :=
  { lop := 5, k := k, b := sb, a := sa }
def rarmWord (sa sb : SReg) (k : KReg) : LWord :=
  { lop := 6, k := k, b := sb, a := sa }

/-! ### The encoder -/

/-- The word of an instruction; none for a step of another agent, which has no word. -/
def encode : Instr → Option Code
  | .add d a b => some (.s (regWord 0x00 0x000 b a d))
  | .sub d a b => some (.s (regWord 0x00 0x001 b a d))
  | .and d a b => some (.s (regWord 0x00 0x002 b a d))
  | .or d a b => some (.s (regWord 0x00 0x003 b a d))
  | .xor d a b => some (.s (regWord 0x00 0x004 b a d))
  | .sll d a b => some (.s (regWord 0x00 0x005 b a d))
  | .srl d a b => some (.s (regWord 0x00 0x006 b a d))
  | .sra d a b => some (.s (regWord 0x00 0x007 b a d))
  | .rotl d a b => some (.s (regWord 0x00 0x008 b a d))
  | .rotr d a b => some (.s (regWord 0x00 0x009 b a d))
  | .mul d a b => some (.s (regWord 0x00 0x00a b a d))
  | .mulh d a b => some (.s (regWord 0x00 0x00b b a d))
  | .mulhN d a b => some (.s (regWord 0x00 0x00c b a d))
  | .div d a b => some (.s (regWord 0x00 0x00d b a d))
  | .divN d a b => some (.s (regWord 0x00 0x00e b a d))
  | .rem d a b => some (.s (regWord 0x00 0x00f b a d))
  | .remN d a b => some (.s (regWord 0x00 0x010 b a d))
  | .min d a b => some (.s (regWord 0x00 0x011 b a d))
  | .max d a b => some (.s (regWord 0x00 0x012 b a d))
  | .minN d a b => some (.s (regWord 0x00 0x013 b a d))
  | .maxN d a b => some (.s (regWord 0x00 0x014 b a d))
  | .slt d a b => some (.s (regWord 0x00 0x015 b a d))
  | .sltN d a b => some (.s (regWord 0x00 0x016 b a d))
  | .clz d a => some (.s (regWord 0x00 0x017 0 a d))
  | .ctz d a => some (.s (regWord 0x00 0x018 0 a d))
  | .popc d a => some (.s (regWord 0x00 0x019 0 a d))
  | .addi d a imm => some (.s (immWord 0x01 imm a d))
  | .andi d a imm => some (.s (immWord 0x02 imm a d))
  | .ori d a imm => some (.s (immWord 0x03 imm a d))
  | .xori d a imm => some (.s (immWord 0x04 imm a d))
  | .slli d a n => some (.s (immWord 0x05 (0#7 ++ 0#2 ++ n) a d))
  | .srli d a n => some (.s (immWord 0x05 (0#7 ++ 1#2 ++ n) a d))
  | .srai d a n => some (.s (immWord 0x05 (0#7 ++ 2#2 ++ n) a d))
  | .lih d imm => some (.s (upperWord 0x06 imm d))
  | .adr d imm => some (.s (upperWord 0x07 imm d))
  | .li64 d imm => some (.w64 ((imm ++ 0#4 ++ d ++ 0x7B#7).setWidth 64))
  | .gmk f d a b => some (.s (regWord 0x17 (0#5 ++ f.code ++ 0#1) b a d))
  | .gfld f d a => some (.s (regWord 0x17 (0#5 ++ f.code ++ 1#1) 0 a d))
  | .bEq a b off => some (.s (brWord 0 a b off))
  | .bNe a b off => some (.s (brWord 1 a b off))
  | .bLt a b off => some (.s (brWord 2 a b off))
  | .bGe a b off => some (.s (brWord 3 a b off))
  | .bLtN a b off => some (.s (brWord 4 a b off))
  | .bGeN a b off => some (.s (brWord 5 a b off))
  | .j off => some (.s (jumpWord 0x09 off))
  | .jal off => some (.s (jumpWord 0x0A off))
  | .jr a => some (.s (regWord 0x0B 0 0 a 0))
  | .jalr d a => some (.s (regWord 0x0B 1 0 a d))
  | .fadd f rm d a b => some (.s (fpWord rm f 0x00 b a d))
  | .fsub f rm d a b => some (.s (fpWord rm f 0x01 b a d))
  | .fmul f rm d a b => some (.s (fpWord rm f 0x02 b a d))
  | .fdiv f rm d a b => some (.s (fpWord rm f 0x03 b a d))
  | .fsqrt f rm d a => some (.s (fpWord rm f 0x04 0 a d))
  | .fmin f d a b => some (.s (fpWord .dyn f 0x05 b a d))
  | .fmax f d a b => some (.s (fpWord .dyn f 0x06 b a d))
  | .fcmpEq f d a b => some (.s (fpWord .dyn f 0x07 b a d))
  | .fcmpLt f d a b => some (.s (fpWord .dyn f 0x08 b a d))
  | .fcmpLe f d a b => some (.s (fpWord .dyn f 0x09 b a d))
  | .fcmpUo f d a b => some (.s (fpWord .dyn f 0x0A b a d))
  | .fclass f d a => some (.s (fpWord .dyn f 0x0B 0 a d))
  | .fsgnJ f d a b => some (.s (fpWord .dyn f 0x0C b a d))
  | .fsgnN f d a b => some (.s (fpWord .dyn f 0x0D b a d))
  | .fsgnX f d a b => some (.s (fpWord .dyn f 0x0E b a d))
  | .fmv f d a => some (.s (fpWord .dyn f 0x0F 0 a d))
  | .fcvt c rm d a => some (.s (fpWord rm .f32 0x10 c.code a d))
  | .fmadd f rm d a b c => some (.s (quadWord rm f 0 c b a d))
  | .fmsub f rm d a b c => some (.s (quadWord rm f 1 c b a d))
  | .fnmadd f rm d a b c => some (.s (quadWord rm f 2 c b a d))
  | .ldB d a imm => some (.s (memWord 0x0C imm 0 a d))
  | .ldH d a imm => some (.s (memWord 0x0C imm 1 a d))
  | .ldW d a imm => some (.s (memWord 0x0C imm 2 a d))
  | .ld d a imm => some (.s (memWord 0x0C imm 3 a d))
  | .ldBi d a imm => some (.s (memWord 0x0C imm 4 a d))
  | .ldHi d a imm => some (.s (memWord 0x0C imm 5 a d))
  | .ldWi d a imm => some (.s (memWord 0x0C imm 6 a d))
  | .stB d a imm => some (.s (memWord 0x0D imm 0 a d))
  | .stH d a imm => some (.s (memWord 0x0D imm 1 a d))
  | .stW d a imm => some (.s (memWord 0x0D imm 2 a d))
  | .st d a imm => some (.s (memWord 0x0D imm 3 a d))
  | .ldcB d a imm => some (.s (memWord 0x16 imm 0 a d))
  | .ldcH d a imm => some (.s (memWord 0x16 imm 1 a d))
  | .ldcW d a imm => some (.s (memWord 0x16 imm 2 a d))
  | .ldc d a imm => some (.s (memWord 0x16 imm 3 a d))
  | .ldcBi d a imm => some (.s (memWord 0x16 imm 4 a d))
  | .ldcHi d a imm => some (.s (memWord 0x16 imm 5 a d))
  | .ldcWi d a imm => some (.s (memWord 0x16 imm 6 a d))
  | .lsync sc => some (.s (regWord 0x0E (0#5 ++ 0#2 ++ sc.code) 0 0 0))
  | .stRel x sc a b => some (.s (regWord 0x0E (0#3 ++ x.code ++ 1#2 ++ sc.code) b a 0))
  | .ifence => some (.s (regWord 0x0E (0#5 ++ 2#2 ++ 0#3) 0 0 0))
  | .amoAdd x d a b => some (.s (amoWord x 0 b a d))
  | .amoAnd x d a b => some (.s (amoWord x 1 b a d))
  | .amoOr x d a b => some (.s (amoWord x 2 b a d))
  | .amoXor x d a b => some (.s (amoWord x 3 b a d))
  | .amoMin x d a b => some (.s (amoWord x 4 b a d))
  | .amoMax x d a b => some (.s (amoWord x 5 b a d))
  | .amoMinN x d a b => some (.s (amoWord x 6 b a d))
  | .amoMaxN x d a b => some (.s (amoWord x 7 b a d))
  | .amoSwap x d a b => some (.s (amoWord x 8 b a d))
  | .amoFadd x d a b => some (.s (amoWord x 9 b a d))
  | .cas x d a b => some (.s (amoWord x 10 b a d))
  | .waita d a b => some (.s (regWord 0x10 0 b a d))
  | .wakea d a b => some (.s (regWord 0x10 1 b a d))
  | .csrr d csr => some (.s (csrWord 0 csr 0 d))
  | .csrw d a csr => some (.s (csrWord 1 csr a d))
  | .csrs d a csr => some (.s (csrWord 2 csr a d))
  | .csrc d a csr => some (.s (csrWord 3 csr a d))
  | .tclr x => some (.s (taintWord 0 0 x.cls 0 x.num))
  | .tclrCt => some (.s (taintWord 1 0 0 0 0))
  | .tget d y => some (.s (taintWord 2 y.cls 0 y.num (0#1 ++ d)))
  | .tdep x y => some (.s (taintWord 3 y.cls x.cls y.num x.num))
  | .glaunch d a b => some (.s (regWord 0x15 0 b a d))
  | .gtrig => some (.s (regWord 0x15 1 0 0 0))
  | .gwait d a b => some (.s (regWord 0x15 2 b a d))
  | .gbar => some (.s (regWord 0x15 3 0 0 0))
  | .gyield => some (.s (regWord 0x15 4 0 0 0))
  | .gexit => some (.s (regWord 0x15 5 0 0 0))
  | .sys => some (.s (regWord 0x18 0 0 0 0))
  | .brk => some (.s (regWord 0x18 1 0 0 0))
  | .sret => some (.s (regWord 0x18 2 0 0 0))
  | .vqsave d a => some (.s (regWord 0x18 3 0 a d))
  | .vqrest d a => some (.s (regWord 0x18 4 0 a d))
  | .vsave d a => some (.s (regWord 0x18 5 0 a d))
  | .vrest d a => some (.s (regWord 0x18 6 0 a d))
  | .hsave a => some (.s (regWord 0x18 7 0 a 0))
  | .hrest d a => some (.s (regWord 0x18 8 0 a d))
  | .tlbinv d a b => some (.s (regWord 0x18 9 b a d))
  | .snap d a b => some (.s (regWord 0x18 10 b a d))
  | .pwait d a => some (.s (regWord 0x18 11 0 a d))
  | .mwipe d a b => some (.s (regWord 0x18 12 b a d))
  | .vcfg d n w l => some (.s (memWord 0x19 (0#5 ++ l ++ bit1 w ++ n) 0 0 d))
  | .vsetl d a g tp mp => some (.s (memWord 0x19 (0#8 ++ bit1 mp ++ bit1 tp ++ g) 1 a d))
  | .sloop a off => some (.s (memWord 0x19 off 2 0 a))
  | .sloopPar a off => some (.s (memWord 0x19 off 3 0 a))
  | .snext off => some (.s (memWord 0x19 off 4 0 0))
  | .convoyHeader cnt units => some (.w32 (convoyWord cnt units))
  | .cAddi d imm => some (.w16 ((0#3 ++ d ++ imm ++ 0#2).setWidth 16))
  | .cMv d a => some (.w16 ((1#3 ++ d ++ a ++ 0#1 ++ 0#2).setWidth 16))
  | .cLd d a off => some (.w16 ((2#3 ++ d ++ a ++ off ++ 0#2).setWidth 16))
  | .cSt b a off => some (.w16 ((3#3 ++ b ++ a ++ off ++ 0#2).setWidth 16))
  | .cBEq a off => some (.w16 ((0#3 ++ 0#1 ++ a ++ off ++ 1#2).setWidth 16))
  | .cBNe a off => some (.w16 ((0#3 ++ 1#1 ++ a ++ off ++ 1#2).setWidth 16))
  | .cJ off => some (.w16 ((1#3 ++ off ++ 1#2).setWidth 16))
  | .cVadd vx m => some (.w16 (cvWord 0x00 vx m))
  | .cVsub vx m => some (.w16 (cvWord 0x01 vx m))
  | .cVmul vx m => some (.w16 (cvWord 0x02 vx m))
  | .cVmulh vx m => some (.w16 (cvWord 0x03 vx m))
  | .cVdiv vx m => some (.w16 (cvWord 0x04 vx m))
  | .cVrem vx m => some (.w16 (cvWord 0x05 vx m))
  | .cVmin vx m => some (.w16 (cvWord 0x06 vx m))
  | .cVmax vx m => some (.w16 (cvWord 0x07 vx m))
  | .cVand vx m => some (.w16 (cvWord 0x08 vx m))
  | .cVor vx m => some (.w16 (cvWord 0x09 vx m))
  | .cVxor vx m => some (.w16 (cvWord 0x0A vx m))
  | .cVsll vx m => some (.w16 (cvWord 0x0B vx m))
  | .cVsrl vx m => some (.w16 (cvWord 0x0C vx m))
  | .cVsra vx m => some (.w16 (cvWord 0x0D vx m))
  | .vadd o => some (.v (binWord 0x00 o))
  | .vsub o => some (.v (binWord 0x01 o))
  | .vmul o => some (.v (binWord 0x02 o))
  | .vmulh o => some (.v (binWord 0x03 o))
  | .vdiv o => some (.v (binWord 0x04 o))
  | .vrem o => some (.v (binWord 0x05 o))
  | .vmin o => some (.v (binWord 0x06 o))
  | .vmax o => some (.v (binWord 0x07 o))
  | .vand o => some (.v (binWord 0x08 o))
  | .vor o => some (.v (binWord 0x09 o))
  | .vxor o => some (.v (binWord 0x0A o))
  | .vsll o => some (.v (binWord 0x0B o))
  | .vsrl o => some (.v (binWord 0x0C o))
  | .vsra o => some (.v (binWord 0x0D o))
  | .vpopc o => some (.v (unWord 0x0E 0 o))
  | .vclz o => some (.v (unWord 0x0E 1 o))
  | .vabs o => some (.v (unWord 0x0E 2 o))
  | .vneg o => some (.v (unWord 0x0E 3 o))
  | .vfma o => some (.v (ternWord 0x0F o))
  | .vfms o => some (.v (ternWord 0x10 o))
  | .vnfma o => some (.v (ternWord 0x11 o))
  | .vsqrt o => some (.v (unWord 0x12 0 o))
  | .vrcp o => some (.v (unWord 0x12 1 o))
  | .vrsqrt o => some (.v (unWord 0x12 2 o))
  | .vexp2 o => some (.v (unWord 0x12 3 o))
  | .vlog2 o => some (.v (unWord 0x12 4 o))
  | .vclass o => some (.v (unWord 0x13 0 o))
  | .vcvt t o => some (.v { unWord 0x14 0 o with hi := 0#5 ++ t.code })
  | .vcmp c md va vb mask =>
    some (.v { major := 0x15, hi := 0#3 ++ vb.sBit ++ c.code, mask := mask, vb := vb.field, va := va,
               vd := fieldM md })
  | .vsel vd va vb mask => some (.v { major := 0x16, mask := mask, vb := vb, va := va, vd := vd })
  | .mand md ma mb => some (.v (maskWord 0 md ma mb))
  | .mor md ma mb => some (.v (maskWord 1 md ma mb))
  | .mxor md ma mb => some (.v (maskWord 2 md ma mb))
  | .mandn md ma mb => some (.v (maskWord 3 md ma mb))
  | .mnot md ma => some (.v (maskWord 4 md ma 0))
  | .mpop sd ma mask =>
    some (.v { major := 0x18, sub := 0, mask := mask, va := fieldM ma, vd := fieldS sd })
  | .mfirst sd ma mask =>
    some (.v { major := 0x18, sub := 1, mask := mask, va := fieldM ma, vd := fieldS sd })
  | .mtolist md ma => some (.v { major := 0x19, sub := 0, va := fieldM ma, vd := fieldM md })
  | .mtobit md ma => some (.v { major := 0x19, sub := 1, va := fieldM ma, vd := fieldM md })
  | .mfromx md va mask => some (.v { major := 0x19, sub := 2, mask := mask, va := va, vd := fieldM md })
  | .vidx vd start stp mask =>
    some (.v { major := 0x1A, sub := 0, hi := stp, mask := mask, vc := start.extractLsb' 6 6,
               vb := start.extractLsb' 0 6, vd := vd })
  | .vsplat vd sa mask => some (.v { major := 0x1A, sub := 1, mask := mask, va := fieldS sa, vd := vd })
  | .vmv vd va mask => some (.v { major := 0x1A, sub := 2, mask := mask, va := va, vd := vd })
  | .vtag t vd va => some (.v { major := 0x1A, sub := 3, hi := 0#5 ++ t.code, va := va, vd := vd })
  | .vmvx sd va sb => some (.v { major := 0x1B, sub := 0, vb := fieldS sb, va := va, vd := fieldS sd })
  | .vmvs vd sa mask => some (.v { major := 0x1B, sub := 1, mask := mask, va := fieldS sa, vd := vd })
  | .vslideup vd va sb sc mask =>
    some (.v { major := 0x1C, sub := 0, mask := mask, vc := fieldS sc, vb := fieldS sb, va := va, vd := vd })
  | .vslidedn vd va sb sc mask =>
    some (.v { major := 0x1C, sub := 1, mask := mask, vc := fieldS sc, vb := fieldS sb, va := va, vd := vd })
  | .vperm vd va vb mask => some (.v { major := 0x1D, sub := 0, mask := mask, vb := vb, va := va, vd := vd })
  | .vcompress vd va mask => some (.v { major := 0x1D, sub := 1, mask := mask, va := va, vd := vd })
  | .vexpand vd va mask => some (.v { major := 0x1D, sub := 2, mask := mask, va := va, vd := vd })
  | .vrev vd va mask => some (.v { major := 0x1D, sub := 3, mask := mask, va := va, vd := vd })
  | .vred o => some (.v (redWord 0x1E o))
  | .vscan o => some (.v (redWord 0x1F o))
  | .vsegred op vd va mc mask rm =>
    some (.v { major := 0x20, hi := 0#4 ++ op.code, rm := rm, mask := mask, vc := fieldM mc, va := va,
               vd := vd })
  | .vld o => some (.v (memVWord 0x21 0 o))
  | .vldff o => some (.v (memVWord 0x22 0 o))
  | .vst o => some (.v (memVWord 0x23 0 o))
  | .vchg o => some (.v (memVWord 0x24 0 o))
  | .vamo op o => some (.v (memVWord 0x25 (0#4 ++ op.code) o))
  | .vamoR op o => some (.v (memVWord 0x26 (0#4 ++ op.code) o))
  | .vwait va => some (.v { major := 0x27, sub := 0, va := va })
  | .vpres md va => some (.v { major := 0x27, sub := 1, va := va, vd := fieldM md })
  | .svins md va mask => some (.v { major := 0x28, sub := 0, mask := mask, va := va, vd := fieldM md })
  | .svlook vd mc va mask =>
    some (.v { major := 0x28, sub := 1, mask := mask, vc := fieldM mc, va := va, vd := vd })
  | .svacc md va vb mask =>
    some (.v { major := 0x28, sub := 2, mask := mask, vb := vb, va := va, vd := fieldM md })
  | .svdrn vd vb sa mask =>
    some (.v { major := 0x28, sub := 3, mask := mask, vb := vb, va := fieldS sa, vd := vd })
  | .svclr sa sb => some (.v { major := 0x28, sub := 4, vb := fieldS sb, va := fieldS sa })
  | .mshape c sd sa sb sc =>
    some (.v { major := 0x29, sub := 0, hi := 0#6 ++ c.code, vc := fieldS sc, vb := fieldS sb,
               va := fieldS sa, vd := fieldS sd })
  | .mstep sd => some (.v { major := 0x29, sub := 1, vd := fieldS sd })
  | .mwait => some (.v { major := 0x29, sub := 2 })
  | .fmpq sd k hi => some (.v { major := 0x29, sub := 3, hi := 0#7 ++ bit1 hi, k := k, vd := fieldS sd })
  | .mzero t => some (.v { major := 0x2A, sub := 0, vd := fieldT t })
  | .mop t va vb mask rm =>
    some (.v { major := 0x2A, sub := 1, rm := rm, mask := mask, vb := vb, va := va, vd := fieldT t })
  | .mopn t va vb mask rm =>
    some (.v { major := 0x2A, sub := 2, rm := rm, mask := mask, vb := vb, va := va, vd := fieldT t })
  | .mrd col vd t sa mask =>
    some (.v { major := 0x2B, sub := 0, hi := 0#7 ++ bit1 col, mask := mask, vc := fieldT t,
               va := fieldS sa, vd := vd })
  | .mwr col t va sb mask =>
    some (.v { major := 0x2B, sub := 1, hi := 0#7 ++ bit1 col, mask := mask, vb := fieldS sb,
               va := va, vd := fieldT t })
  | .mst q t sa sb mask k rm sat =>
    some (.v { major := 0x2C, sat := sat, rm := rm, k := k, q := q, mask := mask, vc := fieldT t,
               vb := fieldS sb, va := fieldS sa })
  | .vsend nb f va k => some (.v { major := 0x2D, sub := 0, nb := nb, k := k, q := fieldF f, va := va })
  | .vrecv nb vd f k => some (.v { major := 0x2D, sub := 1, nb := nb, k := k, q := fieldF f, vd := vd })
  | .qset fmt q sa sb scq =>
    some (.v { major := 0x30, sub := 0, hi := 0#2 ++ bit1 scq.isSome ++ fmt.code, q := q,
               vc := fieldQ (scq.getD 0), vb := fieldS sb, va := fieldS sa })
  | .qsetx pol q vb sc =>
    some (.v { major := 0x30, sub := 1, hi := 0#6 ++ pol.code, q := q, vc := fieldS sc, vb := vb })
  | .qchain pol q sa sb =>
    some (.v { major := 0x30, sub := 2, hi := 0#6 ++ pol.code, q := q, vb := fieldS sb, va := fieldS sa })
  | .qget sd q quad => some (.v { major := 0x30, sub := 3, hi := 0#5 ++ quad, q := q, vd := fieldS sd })
  | .kwait k sa => some (.v { major := 0x31, sub := 0, k := k, va := fieldS sa })
  | .kread sd k => some (.v { major := 0x31, sub := 1, k := k, vd := fieldS sd })
  | .kset k sa => some (.v { major := 0x31, sub := 2, k := k, va := fieldS sa })
  | .kadd k sa => some (.v { major := 0x31, sub := 3, k := k, va := fieldS sa })
  | .fsbindPeer sl f sa sb =>
    some (.v { major := 0x32, sub := 0, hi := 0#6 ++ bit1 sl ++ 0#1, q := fieldF f, vb := fieldS sb,
               va := fieldS sa })
  | .fsbindGroup f j => some (.v { major := 0x32, sub := 0, hi := j ++ 1#4, q := fieldF f })
  | .fsfree f => some (.v { major := 0x32, sub := 1, q := fieldF f })
  | .cgsel sd j => some (.v (cgselWord sd j))
  | .cjoin sd j sa sb => some (.v (cjoinWord sd j sa sb))
  | .cleave j => some (.v (cleaveWord j))
  | .cbar sd => some (.v { major := 0x32, sub := 5, vd := fieldS sd })
  | .cabort => some (.v { major := 0x32, sub := 6 })
  | .cstat sd j => some (.v (cstatWord sd j))
  | .collectiveVst o =>
    some (.v { major := 0x23, hi := 1, sat := o.sat, rm := o.rm, nb := o.nb, k := o.k, q := fieldF o.f,
               mask := o.mask, va := o.reg })
  | .collectiveVld o =>
    some (.v { major := 0x21, hi := 1, sat := o.sat, rm := o.rm, nb := o.nb, k := o.k, q := fieldF o.f,
               mask := o.mask, vd := o.reg })
  | .sqpost sd sa sb sc k => some (.v (sqpostWord sd sa sb sc k))
  | .sqstat sd sa => some (.v (sqstatWord sd sa))
  | .rwc slot => some (.v { major := 0x33, sub := 2, hi := 0#3 ++ slot })
  | .rwo slot sa sb => some (.l { lop := 4, b := sb, a := sa, d := slot })
  | .cpy qa qb sa k => some (.l { lop := 1, k := k, qb := qb, qa := qa, a := sa })
  | .cpyff sd qa qb sa k => some (.l { lop := 2, k := k, qb := qb, qa := qa, a := sa, d := sd })
  | .fmp sa k => some (.l (fmpWord sa k))
  | .rpost sa sb k => some (.l (rpostWord sa sb k))
  | .rarm sa sb k => some (.l (rarmWord sa sb k))
  | .trapEntry .. | .issueWaitEnd .. | .hartResume .. | .gyieldExpiry .. | .elementGroupArrival ..
  | .loadPerformed .. | .tagRetire .. | .storeAcknowledge .. | .homeAccess .. | .atomicAtHome ..
  | .rruAtomic .. | .vectorAtomicUpdate .. | .trainApply .. | .trainAcknowledge ..
  | .nbComplete .. | .copyComplete .. | .fullerComplete .. | .mstComplete .. | .tlbMissWalk ..
  | .translationHint .. | .shootdownRequest .. | .shootdownAcknowledge ..
  | .messagePacketArrive .. | .collectiveContributionArrive .. | .collectiveCommit .. | .abort ..
  | .lagLimitExpiry .. | .circuitPacketSend .. | .circuitPayloadPlace .. | .postComplete ..
  | .slotStart .. | .switchChange .. | .rotstart .. | .rotationTimeout .. | .setup ..
  | .circuitAck .. | .busy .. | .teardown .. | .setupRetry .. | .slotTableLoad ..
  | .flitReceive .. | .nak .. | .propose .. | .fecAck .. | .proposeRepeat ..
  | .fecThresholdCrossed .. | .fecQuietExpiry .. | .portPlanChange .. | .colourTrained ..
  | .colourDrained .. | .pathTimeout .. | .laneRemap .. | .transportPacketReceive ..
  | .transportAcknowledge .. | .retransmitTimeout .. | .notready .. | .contextFetchComplete ..
  | .rekey .. | .workRequestComplete .. | .ethernetFrameReceive .. | .recordAccept ..
  | .gangPlace .. | .preemptVictims .. | .graceExpiry .. | .forcedHartEnd .. | .quotaReturn ..
  | .gangTrigger .. | .gangEnd .. | .queueTailWrite .. | .sieveRecarve .. | .packageReset ..
  | .go .. | .mailboxPoll .. | .fwload .. | .pcreate .. | .ptear .. | .partitionRelease ..
  | .ecreate .. | .ejoin .. | .report .. | .erevoke .. | .revocationApply .. | .lcs ..
  | .powerGrantInterval .. | .railDroop .. | .thermalTrip .. | .thermalRecover ..
  | .uncorrectableError .. | .correctedSummary .. | .hostLinkTraining .. | .registerWrite ..
  | .lossOfLight .. | .remapEnd .. | .notReadyAnswer .. | .rankDeparture .. => none

/-! ### The decoder -/

/-- The nine instructions that stand last among the constructors with operands. Compiled Lean can
build no constructor with operands whose index is above 243, so the decoder that `step` runs names
these nine by a type of their own; `Late.toInstr` is the term of `Instr` that each stands for. -/
inductive Late where
  | fmp (sa : SReg) (k : KReg)
  | cgsel (sd : SReg) (j : BitVec 4) | cjoin (sd : SReg) (j : BitVec 4) (sa sb : SReg)
  | cleave (j : BitVec 4) | cstat (sd : SReg) (j : BitVec 4)
  | sqpost (sd sa sb sc : SReg) (k : KReg) | sqstat (sd sa : SReg)
  | rpost (sa sb : SReg) (k : KReg) | rarm (sa sb : SReg) (k : KReg)
  deriving DecidableEq, Repr

/-- What the decoder names: an instruction, or one of the last nine. -/
inductive Cand where
  | i (x : Instr) | late (l : Late)
  deriving DecidableEq, Repr

noncomputable def Late.toInstr : Late → Instr
  | .fmp sa k => .fmp sa k | .cgsel sd j => .cgsel sd j | .cjoin sd j sa sb => .cjoin sd j sa sb | .cleave j => .cleave j
  | .cstat sd j => .cstat sd j | .sqpost sd sa sb sc k => .sqpost sd sa sb sc k
  | .sqstat sd sa => .sqstat sd sa | .rpost sa sb k => .rpost sa sb k | .rarm sa sb k => .rarm sa sb k

noncomputable def Cand.toInstr : Cand → Instr
  | .i x => x | .late l => l.toInstr

/-- The word of a late instruction; `Late.encode_eq` says that it is that of `encode`. -/
def Late.encode : Late → Code
  | .fmp sa k => .l (fmpWord sa k) | .cgsel sd j => .v (cgselWord sd j) | .cjoin sd j sa sb => .v (cjoinWord sd j sa sb)
  | .cleave j => .v (cleaveWord j) | .cstat sd j => .v (cstatWord sd j)
  | .sqpost sd sa sb sc k => .v (sqpostWord sd sa sb sc k) | .sqstat sd sa => .v (sqstatWord sd sa)
  | .rpost sa sb k => .l (rpostWord sa sb k) | .rarm sa sb k => .l (rarmWord sa sb k)

theorem Late.encode_eq (l : Late) : Sys2Proof.encode l.toInstr = some l.encode := by cases l <;> rfl

theorem Late.wellFormed (l : Late) : l.toInstr.wellFormed = true := by cases l <;> rfl

def Cand.encode : Cand → Option Code
  | .i x => Sys2Proof.encode x | .late l => some l.encode

/-- The late instructions have no further condition (`Late.wellFormed`). -/
def Cand.wellFormed : Cand → Bool
  | .i x => x.wellFormed | .late _ => true

/-- The number of parcels that parcel 0 declares (R139); none for a reserved length. -/
def lengthOf (p : Parcel) : Option Nat :=
  if p.extractLsb' 0 2 = 3#2 then
    let m := (p.extractLsb' 2 5).toNat
    if m ≤ 0x19 then some 2
    else if m = 0x1C ∨ m = 0x1E then some 4
    else if m = 0x1D then some 2
    else none
  else some 1

def candInt (w : SWord) : Option Cand :=
  match w.fn with
  | 0x000#10 => some (.i (.add w.d w.a w.b))
  | 0x001#10 => some (.i (.sub w.d w.a w.b))
  | 0x002#10 => some (.i (.and w.d w.a w.b))
  | 0x003#10 => some (.i (.or w.d w.a w.b))
  | 0x004#10 => some (.i (.xor w.d w.a w.b))
  | 0x005#10 => some (.i (.sll w.d w.a w.b))
  | 0x006#10 => some (.i (.srl w.d w.a w.b))
  | 0x007#10 => some (.i (.sra w.d w.a w.b))
  | 0x008#10 => some (.i (.rotl w.d w.a w.b))
  | 0x009#10 => some (.i (.rotr w.d w.a w.b))
  | 0x00a#10 => some (.i (.mul w.d w.a w.b))
  | 0x00b#10 => some (.i (.mulh w.d w.a w.b))
  | 0x00c#10 => some (.i (.mulhN w.d w.a w.b))
  | 0x00d#10 => some (.i (.div w.d w.a w.b))
  | 0x00e#10 => some (.i (.divN w.d w.a w.b))
  | 0x00f#10 => some (.i (.rem w.d w.a w.b))
  | 0x010#10 => some (.i (.remN w.d w.a w.b))
  | 0x011#10 => some (.i (.min w.d w.a w.b))
  | 0x012#10 => some (.i (.max w.d w.a w.b))
  | 0x013#10 => some (.i (.minN w.d w.a w.b))
  | 0x014#10 => some (.i (.maxN w.d w.a w.b))
  | 0x015#10 => some (.i (.slt w.d w.a w.b))
  | 0x016#10 => some (.i (.sltN w.d w.a w.b))
  | 0x017#10 => some (.i (.clz w.d w.a))
  | 0x018#10 => some (.i (.ctz w.d w.a))
  | 0x019#10 => some (.i (.popc w.d w.a))
  | _ => none

def candShift (w : SWord) : Option Cand :=
  let n := w.imm15.extractLsb' 0 6
  match w.imm15.extractLsb' 6 2 with
  | 0#2 => some (.i (.slli w.d w.a n))
  | 1#2 => some (.i (.srli w.d w.a n))
  | 2#2 => some (.i (.srai w.d w.a n))
  | _ => none

def candBranch (w : SWord) : Option Cand :=
  match w.sel with
  | 0#3 => some (.i (.bEq w.d w.a w.imm12)) | 1#3 => some (.i (.bNe w.d w.a w.imm12))
  | 2#3 => some (.i (.bLt w.d w.a w.imm12)) | 3#3 => some (.i (.bGe w.d w.a w.imm12))
  | 4#3 => some (.i (.bLtN w.d w.a w.imm12)) | 5#3 => some (.i (.bGeN w.d w.a w.imm12))
  | _ => none

def candLoad (w : SWord) : Option Cand :=
  match w.sel with
  | 0#3 => some (.i (.ldB w.d w.a w.imm12)) | 1#3 => some (.i (.ldH w.d w.a w.imm12))
  | 2#3 => some (.i (.ldW w.d w.a w.imm12)) | 3#3 => some (.i (.ld w.d w.a w.imm12))
  | 4#3 => some (.i (.ldBi w.d w.a w.imm12)) | 5#3 => some (.i (.ldHi w.d w.a w.imm12))
  | 6#3 => some (.i (.ldWi w.d w.a w.imm12)) | _ => none

def candStore (w : SWord) : Option Cand :=
  match w.sel with
  | 0#3 => some (.i (.stB w.d w.a w.imm12)) | 1#3 => some (.i (.stH w.d w.a w.imm12))
  | 2#3 => some (.i (.stW w.d w.a w.imm12)) | 3#3 => some (.i (.st w.d w.a w.imm12))
  | _ => none

def candLdc (w : SWord) : Option Cand :=
  match w.sel with
  | 0#3 => some (.i (.ldcB w.d w.a w.imm12)) | 1#3 => some (.i (.ldcH w.d w.a w.imm12))
  | 2#3 => some (.i (.ldcW w.d w.a w.imm12)) | 3#3 => some (.i (.ldc w.d w.a w.imm12))
  | 4#3 => some (.i (.ldcBi w.d w.a w.imm12)) | 5#3 => some (.i (.ldcHi w.d w.a w.imm12))
  | 6#3 => some (.i (.ldcWi w.d w.a w.imm12)) | _ => none

def candSync (w : SWord) : Option Cand :=
  match w.fn.extractLsb' 3 2 with
  | 0#2 => (Scope.ofCode (w.fn.extractLsb' 0 3)).map fun sc => .i (.lsync sc)
  | 1#2 => (Scope.ofCode (w.fn.extractLsb' 0 3)).map fun sc =>
      .i (.stRel (StWidth.ofCode (w.fn.extractLsb' 5 2)) sc w.a w.b)
  | 2#2 => some (.i .ifence)
  | _ => none

def candAmo (w : SWord) : Option Cand :=
  match AmoWidth.ofCode (w.fn.extractLsb' 4 2) with
  | none => none
  | some x =>
    match w.fn.extractLsb' 0 4 with
    | 0#4 => some (.i (.amoAdd x w.d w.a w.b)) | 1#4 => some (.i (.amoAnd x w.d w.a w.b))
    | 2#4 => some (.i (.amoOr x w.d w.a w.b)) | 3#4 => some (.i (.amoXor x w.d w.a w.b))
    | 4#4 => some (.i (.amoMin x w.d w.a w.b)) | 5#4 => some (.i (.amoMax x w.d w.a w.b))
    | 6#4 => some (.i (.amoMinN x w.d w.a w.b)) | 7#4 => some (.i (.amoMaxN x w.d w.a w.b))
    | 8#4 => some (.i (.amoSwap x w.d w.a w.b)) | 9#4 => some (.i (.amoFadd x w.d w.a w.b))
    | 10#4 => some (.i (.cas x w.d w.a w.b)) | _ => none

def candFp (w : SWord) : Option Cand :=
  let rm := RMode.ofCode (w.fn.extractLsb' 8 2)
  let f := FFmt.ofCode (w.fn.extractLsb' 7 1)
  match w.fn.extractLsb' 0 7 with
  | 0x00#7 => some (.i (.fadd f rm w.d w.a w.b)) | 0x01#7 => some (.i (.fsub f rm w.d w.a w.b))
  | 0x02#7 => some (.i (.fmul f rm w.d w.a w.b)) | 0x03#7 => some (.i (.fdiv f rm w.d w.a w.b))
  | 0x04#7 => some (.i (.fsqrt f rm w.d w.a))
  | 0x05#7 => some (.i (.fmin f w.d w.a w.b)) | 0x06#7 => some (.i (.fmax f w.d w.a w.b))
  | 0x07#7 => some (.i (.fcmpEq f w.d w.a w.b)) | 0x08#7 => some (.i (.fcmpLt f w.d w.a w.b))
  | 0x09#7 => some (.i (.fcmpLe f w.d w.a w.b)) | 0x0A#7 => some (.i (.fcmpUo f w.d w.a w.b))
  | 0x0B#7 => some (.i (.fclass f w.d w.a)) | 0x0C#7 => some (.i (.fsgnJ f w.d w.a w.b))
  | 0x0D#7 => some (.i (.fsgnN f w.d w.a w.b)) | 0x0E#7 => some (.i (.fsgnX f w.d w.a w.b))
  | 0x0F#7 => some (.i (.fmv f w.d w.a))
  | 0x10#7 => (FcvtCode.ofCode w.b).map fun c => .i (.fcvt c rm w.d w.a)
  | _ => none

def candFused (w : SWord) : Option Cand :=
  let f := FFmt.ofCode (w.fn.extractLsb' 9 1)
  let rm := RMode.ofCode (w.fn.extractLsb' 7 2)
  let c := w.fn.extractLsb' 0 5
  match w.fn.extractLsb' 5 2 with
  | 0#2 => some (.i (.fmadd f rm w.d w.a w.b c)) | 1#2 => some (.i (.fmsub f rm w.d w.a w.b c))
  | 2#2 => some (.i (.fnmadd f rm w.d w.a w.b c)) | _ => none

def candCsr (w : SWord) : Option Cand :=
  match w.sel with
  | 0#3 => some (.i (.csrr w.d w.imm12)) | 1#3 => some (.i (.csrw w.d w.a w.imm12))
  | 2#3 => some (.i (.csrs w.d w.a w.imm12)) | 3#3 => some (.i (.csrc w.d w.a w.imm12))
  | _ => none

def candTaint (w : SWord) : Option Cand :=
  let x := TaintReg.ofFields (w.fn.extractLsb' 2 2) (w.fn.extractLsb' 6 1 ++ w.d)
  let y := TaintReg.ofFields (w.fn.extractLsb' 4 2) (w.fn.extractLsb' 7 1 ++ w.a)
  match w.fn.extractLsb' 0 2 with
  | 0#2 => some (.i (.tclr x)) | 1#2 => some (.i .tclrCt) | 2#2 => some (.i (.tget w.d y))
  | _ => some (.i (.tdep x y))

def candGang (w : SWord) : Option Cand :=
  match w.fn with
  | 0#10 => some (.i (.glaunch w.d w.a w.b)) | 1#10 => some (.i .gtrig) | 2#10 => some (.i (.gwait w.d w.a w.b))
  | 3#10 => some (.i .gbar) | 4#10 => some (.i .gyield) | 5#10 => some (.i .gexit) | _ => none

def candAddr (w : SWord) : Option Cand :=
  (AddrField.ofCode (w.fn.extractLsb' 1 4)).map fun f =>
    if bitOf w.fn 0 then .i (.gfld f w.d w.a) else .i (.gmk f w.d w.a w.b)

def candSystem (w : SWord) : Option Cand :=
  match w.fn with
  | 0#10 => some (.i .sys) | 1#10 => some (.i .brk) | 2#10 => some (.i .sret) | 3#10 => some (.i (.vqsave w.d w.a))
  | 4#10 => some (.i (.vqrest w.d w.a)) | 5#10 => some (.i (.vsave w.d w.a)) | 6#10 => some (.i (.vrest w.d w.a))
  | 7#10 => some (.i (.hsave w.a)) | 8#10 => some (.i (.hrest w.d w.a)) | 9#10 => some (.i (.tlbinv w.d w.a w.b))
  | 10#10 => some (.i (.snap w.d w.a w.b)) | 11#10 => some (.i (.pwait w.d w.a))
  | 12#10 => some (.i (.mwipe w.d w.a w.b)) | _ => none

def candLoop (w : SWord) : Option Cand :=
  match w.sel with
  | 0#3 => some (.i (.vcfg w.d (w.imm12.extractLsb' 0 2) (bitOf w.imm12 2) (w.imm12.extractLsb' 3 4)))
  | 1#3 => some (.i (.vsetl w.d w.a (w.imm12.extractLsb' 0 2) (bitOf w.imm12 2) (bitOf w.imm12 3)))
  | 2#3 => some (.i (.sloop w.d w.imm12)) | 3#3 => some (.i (.sloopPar w.d w.imm12))
  | 4#3 => some (.i (.snext w.imm12)) | _ => none

/-- The scalar major map (R143): the operands a 32-bit scalar word would have. -/
def candS (w : SWord) : Option Cand :=
  match w.major with
  | 0x00#5 => candInt w
  | 0x01#5 => some (.i (.addi w.d w.a w.imm15)) | 0x02#5 => some (.i (.andi w.d w.a w.imm15))
  | 0x03#5 => some (.i (.ori w.d w.a w.imm15)) | 0x04#5 => some (.i (.xori w.d w.a w.imm15))
  | 0x05#5 => candShift w
  | 0x06#5 => some (.i (.lih w.d w.imm20)) | 0x07#5 => some (.i (.adr w.d w.imm20))
  | 0x08#5 => candBranch w
  | 0x09#5 => some (.i (.j w.off25)) | 0x0A#5 => some (.i (.jal w.off25))
  | 0x0B#5 => if w.fn = 0 then some (.i (.jr w.a)) else if w.fn = 1 then some (.i (.jalr w.d w.a)) else none
  | 0x0C#5 => candLoad w | 0x0D#5 => candStore w | 0x0E#5 => candSync w | 0x0F#5 => candAmo w
  | 0x10#5 =>
    if w.fn = 0 then some (.i (.waita w.d w.a w.b)) else if w.fn = 1 then some (.i (.wakea w.d w.a w.b)) else none
  | 0x11#5 => candFp w | 0x12#5 => candFused w | 0x13#5 => candCsr w | 0x14#5 => candTaint w
  | 0x15#5 => candGang w | 0x16#5 => candLdc w | 0x17#5 => candAddr w | 0x18#5 => candSystem w
  | 0x19#5 => candLoop w
  | _ => none

/-- The binary majors by their number, shared by the vector word and page 10 (R145, R153). -/
def candBin (major : BitVec 6) (o : VBin) : Option Cand :=
  match major with
  | 0x00#6 => some (.i (.vadd o)) | 0x01#6 => some (.i (.vsub o)) | 0x02#6 => some (.i (.vmul o))
  | 0x03#6 => some (.i (.vmulh o)) | 0x04#6 => some (.i (.vdiv o)) | 0x05#6 => some (.i (.vrem o))
  | 0x06#6 => some (.i (.vmin o)) | 0x07#6 => some (.i (.vmax o)) | 0x08#6 => some (.i (.vand o))
  | 0x09#6 => some (.i (.vor o)) | 0x0A#6 => some (.i (.vxor o)) | 0x0B#6 => some (.i (.vsll o))
  | 0x0C#6 => some (.i (.vsrl o)) | 0x0D#6 => some (.i (.vsra o)) | _ => none

def candUn (w : VWord) : Option Cand :=
  match w.sub with
  | 0#4 => some (.i (.vpopc w.un)) | 1#4 => some (.i (.vclz w.un)) | 2#4 => some (.i (.vabs w.un))
  | 3#4 => some (.i (.vneg w.un)) | _ => none

def candSpecial (w : VWord) : Option Cand :=
  match w.sub with
  | 0#4 => some (.i (.vsqrt w.un)) | 1#4 => some (.i (.vrcp w.un)) | 2#4 => some (.i (.vrsqrt w.un))
  | 3#4 => some (.i (.vexp2 w.un)) | 4#4 => some (.i (.vlog2 w.un)) | _ => none

def candMask (w : VWord) : Option Cand :=
  let d := lowM w.vd; let a := lowM w.va; let b := lowM w.vb
  match w.sub with
  | 0#4 => some (.i (.mand d a b)) | 1#4 => some (.i (.mor d a b)) | 2#4 => some (.i (.mxor d a b))
  | 3#4 => some (.i (.mandn d a b)) | 4#4 => some (.i (.mnot d a)) | _ => none

def candMaskConv (w : VWord) : Option Cand :=
  match w.sub with
  | 0#4 => some (.i (.mtolist (lowM w.vd) (lowM w.va))) | 1#4 => some (.i (.mtobit (lowM w.vd) (lowM w.va)))
  | 2#4 => some (.i (.mfromx (lowM w.vd) w.va w.mask)) | _ => none

def candMove (w : VWord) : Option Cand :=
  match w.sub with
  | 0#4 => some (.i (.vidx w.vd (w.vc ++ w.vb) w.hi w.mask))
  | 1#4 => some (.i (.vsplat w.vd (lowS w.va) w.mask))
  | 2#4 => some (.i (.vmv w.vd w.va w.mask))
  | 3#4 => (Tag.ofCode (w.hi.extractLsb' 0 3)).map fun t => .i (.vtag t w.vd w.va)
  | _ => none

def candPerm (w : VWord) : Option Cand :=
  match w.sub with
  | 0#4 => some (.i (.vperm w.vd w.va w.vb w.mask)) | 1#4 => some (.i (.vcompress w.vd w.va w.mask))
  | 2#4 => some (.i (.vexpand w.vd w.va w.mask)) | 3#4 => some (.i (.vrev w.vd w.va w.mask)) | _ => none

def candSieve (w : VWord) : Option Cand :=
  match w.sub with
  | 0#4 => some (.i (.svins (lowM w.vd) w.va w.mask))
  | 1#4 => some (.i (.svlook w.vd (lowM w.vc) w.va w.mask))
  | 2#4 => some (.i (.svacc (lowM w.vd) w.va w.vb w.mask))
  | 3#4 => some (.i (.svdrn w.vd w.vb (lowS w.va) w.mask))
  | 4#4 => some (.i (.svclr (lowS w.va) (lowS w.vb))) | _ => none

def candMatrixCtl (w : VWord) : Option Cand :=
  match w.sub with
  | 0#4 => some (.i (.mshape (MClass.ofCode (w.hi.extractLsb' 0 2)) (lowS w.vd) (lowS w.va) (lowS w.vb)
      (lowS w.vc)))
  | 1#4 => some (.i (.mstep (lowS w.vd))) | 2#4 => some (.i .mwait)
  | 3#4 => some (.i (.fmpq (lowS w.vd) w.k (bitOf w.hi 0))) | _ => none

def candMatrix (w : VWord) : Option Cand :=
  match w.sub with
  | 0#4 => some (.i (.mzero (lowT w.vd))) | 1#4 => some (.i (.mop (lowT w.vd) w.va w.vb w.mask w.rm))
  | 2#4 => some (.i (.mopn (lowT w.vd) w.va w.vb w.mask w.rm)) | _ => none

def candTileMove (w : VWord) : Option Cand :=
  match w.sub with
  | 0#4 => some (.i (.mrd (bitOf w.hi 0) w.vd (lowT w.vc) (lowS w.va) w.mask))
  | 1#4 => some (.i (.mwr (bitOf w.hi 0) (lowT w.vd) w.va (lowS w.vb) w.mask)) | _ => none

def candStream (w : VWord) : Option Cand :=
  match w.sub with
  | 0#4 => (MemFmt.ofCode (w.hi.extractLsb' 0 5)).map fun f =>
      .i (.qset f w.q (lowS w.va) (lowS w.vb) (if bitOf w.hi 5 then some (lowQ w.vc) else none))
  | 1#4 => (Policy.ofCode (w.hi.extractLsb' 0 2)).map fun p => .i (.qsetx p w.q w.vb (lowS w.vc))
  | 2#4 => (Policy.ofCode (w.hi.extractLsb' 0 2)).map fun p => .i (.qchain p w.q (lowS w.va) (lowS w.vb))
  | 3#4 => some (.i (.qget (lowS w.vd) w.q (w.hi.extractLsb' 0 3))) | _ => none

def candCounter (w : VWord) : Option Cand :=
  match w.sub with
  | 0#4 => some (.i (.kwait w.k (lowS w.va))) | 1#4 => some (.i (.kread (lowS w.vd) w.k))
  | 2#4 => some (.i (.kset w.k (lowS w.va))) | 3#4 => some (.i (.kadd w.k (lowS w.va))) | _ => none

def candFabric (w : VWord) : Option Cand :=
  let j := w.hi.extractLsb' 4 4
  match w.sub with
  | 0#4 => if bitOf w.hi 0 then some (.i (.fsbindGroup (lowF w.q) j))
           else some (.i (.fsbindPeer (bitOf w.hi 1) (lowF w.q) (lowS w.va) (lowS w.vb)))
  | 1#4 => some (.i (.fsfree (lowF w.q))) | 2#4 => some (.late (.cgsel (lowS w.vd) j))
  | 3#4 => some (.late (.cjoin (lowS w.vd) j (lowS w.va) (lowS w.vb))) | 4#4 => some (.late (.cleave j))
  | 5#4 => some (.i (.cbar (lowS w.vd))) | 6#4 => some (.i .cabort) | 7#4 => some (.late (.cstat (lowS w.vd) j))
  | _ => none

def candCircuit (w : VWord) : Option Cand :=
  match w.sub with
  | 0#4 => some (.late (.sqpost (lowS w.vd) (lowS w.va) (lowS w.vb) (lowS w.vc) w.k))
  | 1#4 => some (.late (.sqstat (lowS w.vd) (lowS w.va))) | 2#4 => some (.i (.rwc (w.hi.extractLsb' 0 5)))
  | _ => none

def VWord.coll (w : VWord) (r : VReg) : VColl := ⟨r, lowF w.q, w.mask, w.nb, w.k, w.rm, w.sat⟩

def candRest (w : VWord) : Option Cand :=
  match w.major with
  | 0x0E#6 => candUn w
  | 0x0F#6 => some (.i (.vfma w.tern)) | 0x10#6 => some (.i (.vfms w.tern)) | 0x11#6 => some (.i (.vnfma w.tern))
  | 0x12#6 => candSpecial w | 0x13#6 => some (.i (.vclass w.un))
  | 0x14#6 => (Tag.ofCode (w.hi.extractLsb' 0 3)).map fun t => .i (.vcvt t w.un)
  | 0x15#6 => (CmpCond.ofCode (w.hi.extractLsb' 0 4)).map fun c =>
      .i (.vcmp c (lowM w.vd) w.va (VSrc.ofField (bitOf w.hi 4) w.vb) w.mask)
  | 0x16#6 => some (.i (.vsel w.vd w.va w.vb w.mask))
  | 0x17#6 => candMask w
  | 0x18#6 => if w.sub = 0 then some (.i (.mpop (lowS w.vd) (lowM w.va) w.mask))
              else some (.i (.mfirst (lowS w.vd) (lowM w.va) w.mask))
  | 0x19#6 => candMaskConv w | 0x1A#6 => candMove w
  | 0x1B#6 => if w.sub = 0 then some (.i (.vmvx (lowS w.vd) w.va (lowS w.vb)))
              else some (.i (.vmvs w.vd (lowS w.va) w.mask))
  | 0x1C#6 => if w.sub = 0 then some (.i (.vslideup w.vd w.va (lowS w.vb) (lowS w.vc) w.mask))
              else some (.i (.vslidedn w.vd w.va (lowS w.vb) (lowS w.vc) w.mask))
  | 0x1D#6 => candPerm w
  | 0x1E#6 => (RedOp.ofCode (w.hi.extractLsb' 0 4)).map fun op => .i (.vred (w.red op))
  | 0x1F#6 => (RedOp.ofCode (w.hi.extractLsb' 0 4)).map fun op => .i (.vscan (w.red op))
  | 0x20#6 => (RedOp.ofCode (w.hi.extractLsb' 0 4)).map fun op =>
      .i (.vsegred op w.vd w.va (lowM w.vc) w.mask w.rm)
  | 0x21#6 => if bitOf w.hi 0 then some (.i (.collectiveVld (w.coll w.vd))) else some (.i (.vld w.mem))
  | 0x22#6 => some (.i (.vldff w.mem))
  | 0x23#6 => if bitOf w.hi 0 then some (.i (.collectiveVst (w.coll w.va))) else some (.i (.vst w.mem))
  | 0x24#6 => some (.i (.vchg w.mem))
  | 0x25#6 => (AmoOp.ofCode (w.hi.extractLsb' 0 4)).map fun op => .i (.vamo op w.mem)
  | 0x26#6 => (AmoOp.ofCode (w.hi.extractLsb' 0 4)).map fun op => .i (.vamoR op w.mem)
  | 0x27#6 => if w.sub = 0 then some (.i (.vwait w.va)) else some (.i (.vpres (lowM w.vd) w.va))
  | 0x28#6 => candSieve w | 0x29#6 => candMatrixCtl w | 0x2A#6 => candMatrix w
  | 0x2B#6 => candTileMove w
  | 0x2C#6 => some (.i (.mst w.q (lowT w.vc) (lowS w.va) (lowS w.vb) w.mask w.k w.rm w.sat))
  | 0x2D#6 => if w.sub = 0 then some (.i (.vsend w.nb (lowF w.q) w.va w.k))
              else some (.i (.vrecv w.nb w.vd (lowF w.q) w.k))
  | 0x30#6 => candStream w | 0x31#6 => candCounter w | 0x32#6 => candFabric w
  | 0x33#6 => candCircuit w
  | _ => none

/-- The vector major map (R145). -/
def candV (w : VWord) : Option Cand :=
  match candBin w.major w.bin with
  | some i => some i
  | none => candRest w

/-- The long forms (R151). -/
def candL (w : BitVec 64) : Option Cand :=
  let l := LWord.unpack w
  match l.lop with
  | 0#4 => some (.i (.li64 l.d (w.extractLsb' 16 48)))
  | 1#4 => some (.i (.cpy l.qa l.qb l.a l.k))
  | 2#4 => some (.i (.cpyff l.d l.qa l.qb l.a l.k))
  | 3#4 => some (.late (.fmp l.a l.k))
  | 4#4 => some (.i (.rwo l.d l.a l.b))
  | 5#4 => some (.late (.rpost l.a l.b l.k))
  | 6#4 => some (.late (.rarm l.a l.b l.k))
  | _ => none

/-- Compact pages 00, 01 and 10 (R152, R153). -/
def candC (w : BitVec 16) : Option Cand :=
  let f := w.extractLsb' 13 3
  match w.extractLsb' 0 2 with
  | 0#2 =>
    match f with
    | 0#3 => some (.i (.cAddi (w.extractLsb' 8 5) (w.extractLsb' 2 6)))
    | 1#3 => some (.i (.cMv (w.extractLsb' 8 5) (w.extractLsb' 3 5)))
    | 2#3 => some (.i (.cLd (w.extractLsb' 10 3) (w.extractLsb' 7 3) (w.extractLsb' 2 5)))
    | 3#3 => some (.i (.cSt (w.extractLsb' 10 3) (w.extractLsb' 7 3) (w.extractLsb' 2 5)))
    | _ => none
  | 1#2 =>
    match f with
    | 0#3 => if bitOf w 12 then some (.i (.cBNe (w.extractLsb' 9 3) (w.extractLsb' 2 7)))
             else some (.i (.cBEq (w.extractLsb' 9 3) (w.extractLsb' 2 7)))
    | 1#3 => some (.i (.cJ (w.extractLsb' 2 11)))
    | _ => none
  | _ =>
    let vx := w.extractLsb' 7 6
    match w.extractLsb' 2 5 with
    | 0x00#5 => some (.i (.cVadd vx f)) | 0x01#5 => some (.i (.cVsub vx f)) | 0x02#5 => some (.i (.cVmul vx f))
    | 0x03#5 => some (.i (.cVmulh vx f)) | 0x04#5 => some (.i (.cVdiv vx f)) | 0x05#5 => some (.i (.cVrem vx f))
    | 0x06#5 => some (.i (.cVmin vx f)) | 0x07#5 => some (.i (.cVmax vx f)) | 0x08#5 => some (.i (.cVand vx f))
    | 0x09#5 => some (.i (.cVor vx f)) | 0x0A#5 => some (.i (.cVxor vx f)) | 0x0B#5 => some (.i (.cVsll vx f))
    | 0x0C#5 => some (.i (.cVsrl vx f)) | 0x0D#5 => some (.i (.cVsra vx f)) | _ => none

/-- The instruction a word would be, before its must-be-zero bits are checked. -/
def candidate : Code → Option Cand
  | .w16 w => candC w
  | .w32 w =>
    if w.extractLsb' 2 5 = 0x1D#5 then some (.i (.convoyHeader (w.extractLsb' 7 3) (w.extractLsb' 10 18)))
    else candS (SWord.unpack w)
  | .w64 w => if w.extractLsb' 2 5 = 0x1E#5 then candL w else candV (VWord.unpack w)

/-- Checks 2 to 4 of R141 on one word. -/
def decodeCand (c : Code) : Except DecodeError Cand :=
  match candidate c with
  | none => .error .reserved
  | some i => if i.encode = some c ∧ i.wellFormed = true then .ok i else .error .mustBeZero

/-- The instruction of one word. -/
noncomputable def decodeCode (c : Code) : Except DecodeError Instr :=
  (decodeCand c).map Cand.toInstr

/-- The word that starts a list of parcels, and the parcels after it (R139). -/
def nextCode : List Parcel → Except DecodeError (Code × List Parcel)
  | [] => .error .truncated
  | p :: rest =>
    match lengthOf p, rest with
    | none, _ => .error .reserved
    | some 1, r => .ok (.w16 p, r)
    | some 2, p1 :: r => .ok (.w32 (p1 ++ p), r)
    | some 4, p1 :: p2 :: p3 :: r => .ok (.w64 (p3 ++ p2 ++ p1 ++ p), r)
    | some _, _ => .error .truncated

/-- Decode the first instruction of a list of parcels. -/
noncomputable def decodeParcels (ps : List Parcel) : Except DecodeError (Instr × List Parcel) :=
  match nextCode ps with
  | .error e => .error e
  | .ok (c, r) =>
    match decodeCode c with
    | .error e => .error e
    | .ok i => .ok (i, r)

/-- The parcels of a list of bytes, little-endian (R139); an odd last byte is dropped. -/
def parcelsOf : List Byte → List Parcel
  | b0 :: b1 :: r => (b1 ++ b0) :: parcelsOf r
  | _ => []

/-- Decode the first instruction of a list of bytes, as memory holds them. -/
noncomputable def decodeBytes (bs : List Byte) : Except DecodeError (Instr × List Parcel) :=
  decodeParcels (parcelsOf bs)

/-- Length in bytes of the words of an instruction (R139). -/
def Code.bytes : Code → Nat
  | .w16 _ => 2 | .w32 _ => 4 | .w64 _ => 8

/-- The bytes of a word in the order memory holds them (R2, R139). -/
def Code.toBytes : Code → List Byte
  | .w16 w => (List.range 2).map fun i => w.extractLsb' (8 * i) 8
  | .w32 w => (List.range 4).map fun i => w.extractLsb' (8 * i) 8
  | .w64 w => (List.range 8).map fun i => w.extractLsb' (8 * i) 8

/-- The bits of a word, bit 0 the least significant of parcel 0. -/
def Code.toQuad : Code → Quad
  | .w16 w => w.setWidth 64 | .w32 w => w.setWidth 64 | .w64 w => w

/-- The four parcels of a number whose bit 0 is bit 0 of parcel 0. -/
def parcelsOfNat (w : Nat) : List Parcel :=
  [BitVec.ofNat 16 w, BitVec.ofNat 16 (w >>> 16), BitVec.ofNat 16 (w >>> 32), BitVec.ofNat 16 (w >>> 48)]

/-- What the decoder reads from an instruction whose bits are `w`, numbered as
spec/opcode_table.json numbers them; bits at and above `nbits` are zero. -/
noncomputable def decodeTableWord (nbits w : Nat) : Option Instr :=
  match decodeParcels (parcelsOfNat (w % 2 ^ nbits)) with
  | .ok (i, _) => some i
  | .error _ => none

end Sys2Proof
end

