-- ==== Sys2Proof/Machine/Flags.lean ====
section
/-! DEFINITION. Number formats, exact arithmetic, rounding and the accrued flags (spec 04, R64 to
R83; 08, R165 to R167): pure functions on bits. A result is its bits and the flags it raises. -/

namespace Sys2Proof

/-- fflags: bit 0 NV, 1 DZ, 2 OF, 3 UF, 4 NX (R57). -/
abbrev FFlags := BitVec 5

def flagNV : FFlags := 1
def flagDZ : FFlags := 2
def flagOF : FFlags := 4
def flagUF : FFlags := 8
def flagNX : FFlags := 16

/-- A result and the flags it raises. -/
abbrev FRes := Quad × FFlags

/-- The rounding modes (R68). -/
inductive Rnd where
  | rne | rtz | rdn | rup | rmm | rto
  deriving DecidableEq, Repr, Inhabited

/-- The mode that frm holds; none for the reserved codes 0, 3 and 7 (R59). -/
def Rnd.ofFrm (frm : BitVec 3) : Option Rnd :=
  match frm with
  | 1#3 => some .rne | 2#3 => some .rtz | 4#3 => some .rdn | 5#3 => some .rup | 6#3 => some .rmm
  | _ => none

/-- The mode of an instruction: its rm field, or frm when dynamic (R68). -/
def RMode.resolve (rm : RMode) (frm : BitVec 3) : Option Rnd :=
  match rm with
  | .dyn => Rnd.ofFrm frm | .rne => some .rne | .rtz => some .rtz | .rto => some .rto

/-! ### Formats -/

/-- A floating-point format (R64): field widths, bias, and max finite = maxSig x 2^maxExp. -/
structure FF where
  ebits : Nat
  fbits : Nat
  bias : Int
  maxSig : Nat
  maxExp : Int
  hasInf : Bool
  /-- NaN: all-ones exponent and a fraction that is not zero, or only the all-ones fraction. -/
  ieeeNan : Bool
  nanBits : Nat
  deriving DecidableEq, Repr

def ff64 : FF := ⟨11, 52, 1023, 0x1FFFFFFFFFFFFF, 971, true, true, 0x7FF8000000000000⟩
def ff32 : FF := ⟨8, 23, 127, 0xFFFFFF, 104, true, true, 0x7FC00000⟩
def ff16 : FF := ⟨5, 10, 15, 0x7FF, 5, true, true, 0x7E00⟩
def ffb16 : FF := ⟨8, 7, 127, 0xFF, 120, true, true, 0x7FC0⟩
def ffe4m3 : FF := ⟨4, 3, 7, 14, 5, false, false, 0x7F⟩
def ffe5m2 : FF := ⟨5, 2, 15, 7, 13, true, true, 0x7E⟩
/-- E2M1 has no NaN; NaNOf gives +0 (R73). -/
def ffe2m1 : FF := ⟨2, 1, 1, 3, 1, false, false, 0⟩

/-- Precision p, and the exponent of the subnormal quantum. -/
def FF.p (f : FF) : Nat := f.fbits + 1
def FF.qmin (f : FF) : Int := 1 - f.bias - f.fbits
def FF.width (f : FF) : Nat := f.ebits + f.fbits + 1

def ffOf (wide : Bool) : FF := if wide then ff64 else ff32
def FFmt.ff : FFmt → FF
  | .f32 => ff32 | .f64 => ff64

/-- What the bits of a format stand for; fin is (-1)^neg x m x 2^e. -/
inductive FVal where
  | nan (signalling : Bool)
  | inf (neg : Bool)
  | fin (neg : Bool) (m : Nat) (e : Int)
  deriving DecidableEq, Repr

/-- The value of bits in a format (R64). -/
def FF.decode (f : FF) (bits : Nat) : FVal :=
  let frac := bits % 2 ^ f.fbits
  let ex := bits / 2 ^ f.fbits % 2 ^ f.ebits
  let neg := bits / 2 ^ (f.fbits + f.ebits) % 2 == 1
  if ex = 0 then .fin neg frac f.qmin
  else if f.ieeeNan && ex == 2 ^ f.ebits - 1 then
    if frac = 0 then .inf neg else .nan (decide (frac < 2 ^ (f.fbits - 1)))
  else if !f.ieeeNan && f.nanBits != 0 && bits % 2 ^ (f.fbits + f.ebits) == f.nanBits then .nan false
  else .fin neg (2 ^ f.fbits + frac) (ex - f.bias - f.fbits)

def signBit (f : FF) (neg : Bool) : Nat := if neg then 2 ^ (f.fbits + f.ebits) else 0

/-- The bits of q x 2^t, where q < 2^(p+1) and t is at least the subnormal quantum. -/
def FF.encodeFin (f : FF) (neg : Bool) (q : Nat) (t : Int) : Nat :=
  signBit f neg +
    (if q < 2 ^ f.fbits then q
     else if q < 2 ^ f.p then (t + f.fbits + f.bias).toNat * 2 ^ f.fbits + (q - 2 ^ f.fbits)
     else (t + 1 + f.fbits + f.bias).toNat * 2 ^ f.fbits + (q / 2 - 2 ^ f.fbits))

def FF.infBits (f : FF) (neg : Bool) : Nat := signBit f neg + (2 ^ f.ebits - 1) * 2 ^ f.fbits
def FF.maxBits (f : FF) (neg : Bool) : Nat := f.encodeFin neg f.maxSig f.maxExp

/-! ### Rounding (R68) -/

/-- Bits of a natural number. -/
def bitLen (m : Nat) : Nat := if m = 0 then 0 else Nat.log2 m + 1

/-- An exact magnitude m x 2^e, or with `sticky` a value strictly between m and m + 1 times 2^e. -/
structure Mag where
  m : Nat
  e : Int
  sticky : Bool := false
  deriving DecidableEq, Repr

/-- Round a magnitude to a multiple of 2^t: the quotient, and whether it is inexact. A sticky
magnitude must have e < t - 1. -/
def roundAt (rnd : Rnd) (neg : Bool) (x : Mag) (t : Int) : Nat × Bool :=
  let k := (t - x.e).toNat
  let q := if t ≤ x.e then x.m * 2 ^ (x.e - t).toNat else x.m / 2 ^ k
  let r := if t ≤ x.e then 0 else x.m % 2 ^ k
  let half := 2 ^ (k - 1)
  let inexact := r != 0 || x.sticky
  let up :=
    match rnd with
    | .rne => decide (half < r) || (r == half && k != 0 && (x.sticky || q % 2 == 1))
    | .rmm => k != 0 && decide (half ≤ r)
    | .rtz | .rto => false
    | .rdn => neg && inexact
    | .rup => !neg && inexact
  let q' := if up then q + 1 else q
  (if rnd == .rto && inexact && q % 2 == 0 then q + 1 else q', inexact)

/-- What RoundTo gives before it is put into bits. -/
inductive FOut where
  | fin (q : Nat) (t : Int) | overflow (inf : Bool)
  deriving DecidableEq, Repr

/-- Whether overflow gives an infinity (R68, the table of modes). -/
def overInf (rnd : Rnd) (neg : Bool) : Bool :=
  match rnd with
  | .rne | .rmm => true | .rtz | .rto => false | .rdn => neg | .rup => !neg

/-- RoundTo (R68), with `bounded` false for E2M1's unbounded range (R73). -/
def FF.roundMag (f : FF) (rnd : Rnd) (neg bounded : Bool) (x : Mag) : FOut × FFlags :=
  if x.m = 0 ∧ x.sticky = false then (.fin 0 f.qmin, 0)
  else
    let t := x.e + (bitLen x.m : Int) - f.p
    let (q, inx) := roundAt rnd neg x t
    -- below the minimum normal magnitude 2^(qmin + fbits) after rounding to p bits
    if t + (bitLen q : Int) ≤ f.qmin + f.fbits then
      let (q', inx') := roundAt rnd neg x f.qmin
      (.fin q' f.qmin, if inx' then flagUF ||| flagNX else 0)
    else
      let t' := max t f.qmin
      let q := if t < t' then q / 2 ^ (t' - t).toNat else q
      let big :=
        if f.maxExp ≤ t' then decide (f.maxSig < q * 2 ^ (t' - f.maxExp).toNat)
        else decide (f.maxSig * 2 ^ (f.maxExp - t').toNat < q)
      if bounded && big then (.overflow (overInf rnd neg), flagOF ||| flagNX)
      else (.fin q t', if inx then flagNX else 0)

/-- RoundTo of an exact magnitude with its sign, as bits; `sat` turns an infinity made by overflow
into max finite (R188). Log 34 (DEDUCED). -/
def FF.round (f : FF) (rnd : Rnd) (sat neg : Bool) (x : Mag) : FRes :=
  match f.roundMag rnd neg true x with
  | (.fin q t, fl) => (BitVec.ofNat 64 (f.encodeFin neg q t), fl)
  | (.overflow inf, fl) =>
    (BitVec.ofNat 64 (if inf && !sat then f.infBits neg else f.maxBits neg), fl)

def FF.nan (f : FF) (fl : FFlags) : FRes := (BitVec.ofNat 64 f.nanBits, fl)
def FF.inf (f : FF) (neg : Bool) (fl : FFlags) : FRes := (BitVec.ofNat 64 (f.infBits neg), fl)
def FF.zero (f : FF) (neg : Bool) : FRes := (BitVec.ofNat 64 (signBit f neg), 0)

def FF.val (f : FF) (x : Quad) : FVal := f.decode (x.toNat % 2 ^ f.width)

def FVal.isSnan : FVal → Bool
  | .nan s => s | _ => false
def FVal.isNan : FVal → Bool
  | .nan _ => true | _ => false

/-- NV when any of the values is a signalling NaN (R69). -/
def snanFlag (xs : List FVal) : FFlags := if xs.any FVal.isSnan then flagNV else 0

/-! ### Sum, product, fused forms -/

def FVal.negate : FVal → FVal
  | .nan s => .nan s | .inf n => .inf (!n) | .fin n m e => .fin (!n) m e

/-- The exact sum; none for infinities of opposite signs. An exact zero sum of operands with
opposite signs is +0, and -0 under RDN (R68). -/
def FVal.addExact (rnd : Rnd) (x y : FVal) : Option FVal :=
  match x, y with
  | .nan s, _ => some (.nan s)
  | _, .nan s => some (.nan s)
  | .inf a, .inf b => if a == b then some (.inf a) else none
  | .inf a, _ => some (.inf a)
  | _, .inf b => some (.inf b)
  | .fin n1 m1 e1, .fin n2 m2 e2 =>
    let e := min e1 e2
    let a := m1 * 2 ^ (e1 - e).toNat
    let b := m2 * 2 ^ (e2 - e).toNat
    let s : Int := (if n1 then -(a : Int) else a) + (if n2 then -(b : Int) else b)
    some (.fin (if s = 0 then (if n1 == n2 then n1 else rnd == .rdn) else decide (s < 0)) s.natAbs e)

/-- RoundTo of an exact value that some operation gave, or NaN with NV where it gave none. -/
def FF.ofExact (f : FF) (rnd : Rnd) (sat : Bool) (x : Option FVal) (fl : FFlags) : FRes :=
  match x with
  | none => f.nan (fl ||| flagNV)
  | some (.nan _) => f.nan fl
  | some (.inf n) => f.inf n fl
  | some (.fin n m e) => let r := f.round rnd sat n ⟨m, e, false⟩; (r.1, r.2 ||| fl)

def FF.add (f : FF) (rnd : Rnd) (sat : Bool) (x y : Quad) : FRes :=
  let a := f.val x; let b := f.val y
  f.ofExact rnd sat (a.addExact rnd b) (snanFlag [a, b])

def FF.sub (f : FF) (rnd : Rnd) (sat : Bool) (x y : Quad) : FRes :=
  let a := f.val x; let b := f.val y
  f.ofExact rnd sat (a.addExact rnd b.negate) (snanFlag [a, b])

/-- The exact product; none for infinity times zero. -/
def FVal.mulExact (x y : FVal) : Option FVal :=
  match x, y with
  | .nan s, _ => some (.nan s)
  | _, .nan s => some (.nan s)
  | .inf a, .inf b => some (.inf (a != b))
  | .inf a, .fin n m _ => if m = 0 then none else some (.inf (a != n))
  | .fin n m _, .inf a => if m = 0 then none else some (.inf (a != n))
  | .fin n1 m1 e1, .fin n2 m2 e2 => some (.fin (n1 != n2) (m1 * m2) (e1 + e2))

def FF.mul (f : FF) (rnd : Rnd) (sat : Bool) (x y : Quad) : FRes :=
  let a := f.val x; let b := f.val y
  f.ofExact rnd sat (a.mulExact b) (snanFlag [a, b])

/-- RoundTo of a x b + c (R167, R201), with c negated for the subtracting form, and with the exact
sum negated before rounding for the negated form. Log 35 (DEDUCED). -/
def FF.fma (f : FF) (rnd : Rnd) (sat negC negSum : Bool) (x y z : Quad) : FRes :=
  let a := f.val x; let b := f.val y; let c := f.val z
  let sum := (a.mulExact b).bind fun p => p.addExact rnd (if negC then c.negate else c)
  f.ofExact rnd sat (if negSum then sum.map FVal.negate else sum) (snanFlag [a, b, c])

/-! ### Division and roots -/

/-- The exact quotient of two magnitudes to at least `bits` bits. -/
def divMag (m1 : Nat) (e1 : Int) (m2 : Nat) (e2 : Int) (bits : Nat) : Mag :=
  let sh := bits + bitLen m2 - bitLen m1 + 1
  let n := m1 * 2 ^ sh
  ⟨n / m2, e1 - e2 - sh, n % m2 != 0⟩

def FF.div (f : FF) (rnd : Rnd) (sat : Bool) (x y : Quad) : FRes :=
  let a := f.val x; let b := f.val y
  let fl := snanFlag [a, b]
  match a, b with
  | .nan _, _ | _, .nan _ => f.nan fl
  | .inf _, .inf _ => f.nan flagNV
  | .inf n, .fin n2 _ _ => f.inf (n != n2) 0
  | .fin n1 _ _, .inf n2 => f.zero (n1 != n2)
  | .fin n1 m1 e1, .fin n2 m2 e2 =>
    if m2 = 0 then (if m1 = 0 then f.nan flagNV else f.inf (n1 != n2) flagDZ)
    else if m1 = 0 then f.zero (n1 != n2)
    else f.round rnd sat (n1 != n2) (divMag m1 e1 m2 e2 (f.p + 4))

/-- Digit-by-digit integer square root: bits i - 1 down to 0 of the root, above `r`. -/
def isqrtGo : Nat → Nat → Nat → Nat
  | 0, _, r => r
  | i + 1, x, r =>
    if (r + 2 ^ i) * (r + 2 ^ i) ≤ x then isqrtGo i x (r + 2 ^ i) else isqrtGo i x r

def isqrt (x : Nat) : Nat := isqrtGo (bitLen x / 2 + 1) x 0

/-- The root of m x 2^e to at least `bits` bits. -/
def sqrtMag (m : Nat) (e : Int) (bits : Nat) : Mag :=
  let odd := e % 2 != 0
  let m := if odd then m * 2 else m
  let e := if odd then e - 1 else e
  let n := m * 2 ^ (2 * bits)
  let r := isqrt n
  ⟨r, e / 2 - bits, r * r != n⟩

def FF.sqrt (f : FF) (rnd : Rnd) (sat : Bool) (x : Quad) : FRes :=
  match f.val x with
  | .nan s => f.nan (if s then flagNV else 0)
  | .inf n => if n then f.nan flagNV else f.inf false 0
  | .fin n m e =>
    if m = 0 then f.zero n
    else if n then f.nan flagNV
    else f.round rnd sat false (sqrtMag m e (f.p + 4))

def FF.rcp (f : FF) (rnd : Rnd) (sat : Bool) (x : Quad) : FRes :=
  match f.val x with
  | .nan s => f.nan (if s then flagNV else 0)
  | .inf n => f.zero n
  | .fin n m e =>
    if m = 0 then f.inf n flagDZ else f.round rnd sat n (divMag 1 0 m e (f.p + 4))

/-- 1 / root(m x 2^e) to at least `bits` bits. -/
def rsqrtMag (m : Nat) (e : Int) (bits : Nat) : Mag :=
  let odd := e % 2 != 0
  let m := if odd then m * 2 else m
  let e := if odd then e - 1 else e
  let k := bits + bitLen m
  let n := 2 ^ (2 * k)
  let r := isqrt (n / m)
  ⟨r, -(e / 2) - k, m * r * r != n⟩

def FF.rsqrt (f : FF) (rnd : Rnd) (sat : Bool) (x : Quad) : FRes :=
  match f.val x with
  | .nan s => f.nan (if s then flagNV else 0)
  | .inf n => if n then f.nan flagNV else f.zero false
  | .fin n m e =>
    if m = 0 then f.inf n flagDZ
    else if n then f.nan flagNV
    else f.round rnd sat false (rsqrtMag m e (f.p + 4))

/-! ### Powers and logarithms of two

Fixed point with 400 fraction bits; the series below are cut off far beyond the bits that decide a
rounding of p = 53. -/

def fixBits : Nat := 400
/-- ln 2 x 2^400, cut off. -/
def ln2Fix : Nat :=
  0xb17217f7d1cf79abc9e3b39803f2f6af40f343267298b62d8a0d175b8baafa2be7b876206debac98559552fb4afa1b10ed2e

/-- Sum of y^k / k! from term k on, while the fuel lasts. -/
def expSeries : Nat → Nat → Nat → Nat → Nat
  | 0, _, _, _ => 0
  | fuel + 1, y, k, term =>
    if term = 0 then 0 else term + expSeries fuel y (k + 1) (term * y / 2 ^ fixBits / (k + 1))

/-- 2^(fr / 2^400) in fixed point, for fr < 2^400. -/
def exp2Fix (fr : Nat) : Nat := expSeries 200 (fr * ln2Fix / 2 ^ fixBits) 0 (2 ^ fixBits)

/-- The exact 2^((-1)^neg m x 2^e), m not zero. Log 114 (PRESUMED). -/
def exp2Mag (neg : Bool) (m : Nat) (e : Int) : Mag :=
  let top := e + bitLen m
  if top ≤ -80 then
    -- within 2^-80 of 1
    if neg then ⟨2 ^ 64 - 1, -64, true⟩ else ⟨2 ^ 64, -64, true⟩
  else if top > 14 then (if neg then ⟨2 ^ 64, -8000, true⟩ else ⟨2 ^ 64, 8000, true⟩)
  else if e ≥ 0 then
    let n : Int := m * 2 ^ e.toNat
    ⟨1, if neg then -n else n, false⟩
  else
    let d := 2 ^ (-e).toNat
    let ip := m / d
    let fr := m % d
    if fr = 0 then ⟨1, if neg then -(ip : Int) else ip, false⟩
    else
      let n : Int := if neg then -(ip : Int) - 1 else ip
      let fr := if neg then d - fr else fr
      ⟨exp2Fix (fr * 2 ^ fixBits / d), n - fixBits, true⟩

def FF.exp2 (f : FF) (rnd : Rnd) (sat : Bool) (x : Quad) : FRes :=
  match f.val x with
  | .nan s => f.nan (if s then flagNV else 0)
  | .inf n => if n then f.zero false else f.inf false 0
  | .fin n m e =>
    if m = 0 then f.round rnd sat false ⟨1, 0, false⟩ else f.round rnd sat false (exp2Mag n m e)

/-- Sum of z^(2k+1) / (2k+1) from power `pw` = z^(2k+1) on, while the fuel lasts. -/
def atanhSeries : Nat → Nat → Nat → Nat → Nat
  | 0, _, _, _ => 0
  | fuel + 1, z2, k, pw =>
    if pw = 0 then 0
    else pw / (2 * k + 1) + atanhSeries fuel z2 (k + 1) (pw * z2 / 2 ^ fixBits)

/-- log2 of m x 2^e, m not zero: sign and magnitude. -/
def log2Mag (m : Nat) (e : Int) : Bool × Mag :=
  let len := bitLen m
  let n : Int := e + len - 1
  if m = 2 ^ (len - 1) then (decide (n < 0), ⟨n.natAbs, 0, false⟩)
  else
    let d := 2 ^ (len - 1)
    let z := (m - d) * 2 ^ fixBits / (m + d)
    let ln := 2 * atanhSeries 200 (z * z / 2 ^ fixBits) 0 z
    let v : Int := n * 2 ^ fixBits + ln * 2 ^ fixBits / ln2Fix
    if n < 0 then (true, ⟨(-v - 1).toNat, -(fixBits : Int), true⟩)
    else (false, ⟨v.toNat, -(fixBits : Int), true⟩)

def FF.log2 (f : FF) (rnd : Rnd) (sat : Bool) (x : Quad) : FRes :=
  match f.val x with
  | .nan s => f.nan (if s then flagNV else 0)
  | .inf n => if n then f.nan flagNV else f.inf false 0
  | .fin n m e =>
    if m = 0 then f.inf true flagDZ
    else if n then f.nan flagNV
    else let r := log2Mag m e; f.round rnd sat r.1 r.2

/-! ### Comparison, class, sign -/

/-- Order of two values that are not NaN: minus one, zero or one. -/
def FVal.order (x y : FVal) : Ordering :=
  match x, y with
  | .inf a, .inf b => compare (if a then (0 : Nat) else 1) (if b then 0 else 1)
  | .inf a, _ => if a then .lt else .gt
  | _, .inf b => if b then .gt else .lt
  | .fin n1 m1 e1, .fin n2 m2 e2 =>
    let e := min e1 e2
    let a : Int := m1 * 2 ^ (e1 - e).toNat
    let b : Int := m2 * 2 ^ (e2 - e).toNat
    compare (if n1 then -a else a) (if n2 then -b else b)
  | _, _ => .eq

/-- A float comparison and its flags (R165, R205): lt, ge, le and gt raise NV for any NaN, eq, ne
and uo only for a signalling one. -/
def FF.cmp (f : FF) (c : CmpCond) (x y : Quad) : Bool × FFlags :=
  let a := f.val x; let b := f.val y
  let un := a.isNan || b.isNan
  let quiet := snanFlag [a, b]
  let loud := if un then flagNV else 0
  match c with
  | .eq => (!un && a.order b == .eq, quiet)
  | .ne => (un || a.order b != .eq, quiet)
  | .uo => (un, quiet)
  | .lt => (!un && a.order b == .lt, loud)
  | .ge => (!un && a.order b != .lt, loud)
  | .le => (!un && a.order b != .gt, loud)
  | .gt => (!un && a.order b == .gt, loud)

def FF.neg (f : FF) (x : Quad) : Bool := x.getLsbD (f.width - 1)

/-- The low bits of x that a format holds. -/
def FF.bits (f : FF) (x : Quad) : Quad := BitVec.ofNat 64 (x.toNat % 2 ^ f.width)

/-- minimumNumber or maximumNumber with -0 < +0 (R165, R198). -/
def FF.minmax (f : FF) (isMax : Bool) (x y : Quad) : FRes :=
  let a := f.val x; let b := f.val y
  let fl := snanFlag [a, b]
  if a.isNan then (if b.isNan then f.nan fl else (f.bits y, fl))
  else if b.isNan then (f.bits x, fl)
  else
    let less := match a.order b with
      | .lt => true | .gt => false | .eq => f.neg x
    (f.bits (if less != isMax then x else y), fl)

/-- The class word (R165). -/
def FF.classWord (f : FF) (x : Quad) : Quad :=
  let c : Quad := match f.val x with
    | .nan s => if s then 0x20 else 0x10
    | .inf _ => 0x08
    | .fin _ m _ => if m = 0 then 1 else if m < 2 ^ f.fbits then 2 else 4
  if f.neg x then c ||| 0x100 else c

/-- The bits of x below the sign. -/
def FF.abs (f : FF) (x : Quad) : Quad := BitVec.ofNat 64 (x.toNat % 2 ^ (f.width - 1))

/-- x with its sign bit set to `neg`, bits copied (R70). -/
def FF.withSign (f : FF) (neg : Bool) (x : Quad) : Quad :=
  BitVec.ofNat 64 (x.toNat % 2 ^ (f.width - 1) + signBit f neg)

/-! ### Conversions (R74) -/

/-- Range of an integer or natural type of b bits. -/
def intMin (signed : Bool) (b : Nat) : Int := if signed then -(2 ^ (b - 1) : Int) else 0
def intMax (signed : Bool) (b : Nat) : Int := if signed then 2 ^ (b - 1) - 1 else 2 ^ b - 1

def clampInt (signed : Bool) (b : Nat) (x : Int) : Int := max (intMin signed b) (min (intMax signed b) x)

/-- Two's-complement bits of an integer, in a quad. -/
def quadOfInt (b : Nat) (x : Int) : Quad := (BitVec.ofInt b x).setWidth 64

/-- Float to integer or natural of b bits. -/
def FF.toInt (f : FF) (rnd : Rnd) (signed : Bool) (b : Nat) (x : Quad) : FRes :=
  match f.val x with
  | .nan _ => (0, flagNV)
  | .inf n => (quadOfInt b (if n then intMin signed b else intMax signed b), flagNV)
  | .fin n m e =>
    let (q, inx) := roundAt rnd n ⟨m, e, false⟩ 0
    let v : Int := if n then -(q : Int) else q
    if v = clampInt signed b v then (quadOfInt b v, if inx then flagNX else 0)
    else (quadOfInt b (clampInt signed b v), flagNV)

/-- Integer to float. -/
def FF.ofInt (f : FF) (rnd : Rnd) (x : Int) : FRes :=
  f.round rnd false (decide (x < 0)) ⟨x.natAbs, 0, false⟩

/-- Float to float of another format. -/
def FF.convert (f g : FF) (rnd : Rnd) (sat : Bool) (x : Quad) : FRes :=
  match f.val x with
  | .nan s => g.nan (if s then flagNV else 0)
  | .inf n => g.inf n 0
  | .fin n m e => g.round rnd sat n ⟨m, e, false⟩

/-! ### Tags and memory formats -/

def Tag.wide : Tag → Bool
  | .n64 | .i64 | .f64 => true | _ => false
def Tag.isF : Tag → Bool
  | .f32 | .f64 => true | _ => false
def Tag.isI : Tag → Bool
  | .i32 | .i64 => true | _ => false
def Tag.isN : Tag → Bool
  | .n32 | .n64 => true | _ => false
def Tag.bits (t : Tag) : Nat := if t.wide then 64 else 32
def Tag.ff (t : Tag) : FF := ffOf t.wide
/-- Words of one element (R47). -/
def Tag.words (t : Tag) : Nat := if t.wide then 2 else 1

/-- The integer that the bits of an element stand for under an N or I tag. -/
def Tag.int (t : Tag) (x : Quad) : Int :=
  if t.isI then (if t.wide then x.toInt else (x.setWidth 32).toInt)
  else if t.wide then x.toNat else (x.setWidth 32).toNat

/-- The bits of an integer in a tag's width, wrapped, or clamped with sat (R75, R188). -/
def Tag.ofInt (t : Tag) (sat : Bool) (x : Int) : Quad :=
  quadOfInt t.bits (if sat then clampInt t.isI t.bits x else x)

/-- Convert(x, from, to, rm, sat) of R74. -/
def convertTag (from_ to_ : Tag) (rnd : Rnd) (sat : Bool) (x : Quad) : FRes :=
  if from_ = to_ then (x, 0)
  else if from_.isF then
    if to_.isF then from_.ff.convert to_.ff rnd sat x else from_.ff.toInt rnd to_.isI to_.bits x
  else if to_.isF then to_.ff.ofInt rnd (from_.int x)
  else (to_.ofInt sat (from_.int x), 0)

/-- Bits of one element of a memory format. -/
def MemFmt.bits : MemFmt → Nat
  | .n8 | .i8 | .e4m3 | .e5m2 | .e8m0 => 8
  | .n16 | .i16 | .f16 | .bf16 => 16
  | .n32 | .i32 | .f32 => 32
  | .n64 | .i64 | .f64 => 64
  | .e2m1 => 4

/-- Bytes of one access of a memory format: an E2M1 element lies in one byte (R67, R89). -/
def MemFmt.bytes (f : MemFmt) : Nat := (f.bits + 7) / 8

def MemFmt.isF : MemFmt → Bool
  | .f16 | .bf16 | .f32 | .f64 | .e4m3 | .e5m2 | .e2m1 => true | _ => false
def MemFmt.isI : MemFmt → Bool
  | .i8 | .i16 | .i32 | .i64 => true | _ => false
def MemFmt.isN : MemFmt → Bool
  | .n8 | .n16 | .n32 | .n64 => true | _ => false

/-- The float layout of a memory format; F32 where it has none. -/
def MemFmt.ff : MemFmt → FF
  | .f16 => ff16 | .bf16 => ffb16 | .f64 => ff64 | .e4m3 => ffe4m3 | .e5m2 => ffe5m2
  | .e2m1 => ffe2m1 | _ => ff32

/-- The tag a load gives (R71); E8M0 is not a data format. -/
def MemFmt.tag : MemFmt → Tag
  | .n8 | .n16 | .n32 => .n32
  | .i8 | .i16 | .i32 => .i32
  | .n64 => .n64 | .i64 => .i64 | .f64 => .f64
  | .f16 | .bf16 | .e4m3 | .e5m2 | .e2m1 | .f32 | .e8m0 => .f32

/-- The class of a tag matches the class of a format (R73). -/
def MemFmt.accepts (f : MemFmt) (t : Tag) : Bool :=
  (t.isF && f.isF) || (t.isI && f.isI) || (t.isN && f.isN)

/-- Formats that a scaled stream may have (R72). -/
def MemFmt.scalable : MemFmt → Bool
  | .e4m3 | .e5m2 | .e2m1 => true | _ => false

/-- Widen on load (R71): exact, no flag. `x` is the datum in its low bits. -/
def widen (f : MemFmt) (x : Nat) : Quad :=
  let x := x % 2 ^ f.bits
  if f.isI then quadOfInt f.tag.bits (BitVec.ofNat f.bits x).toInt
  else if f.isF && f.bits < 32 then
    match f.ff.decode x with
    | .nan _ => BitVec.ofNat 64 ff32.nanBits
    | .inf n => BitVec.ofNat 64 (ff32.infBits n)
    | .fin n m e => (ff32.round .rne false n ⟨m, e, false⟩).1
  else BitVec.ofNat 64 x

/-- A scaled load (R72). -/
def widenScaled (f : MemFmt) (x : Nat) (scale : Byte) (rnd : Rnd) (sat : Bool) : FRes :=
  if scale = 0xFF then ff32.nan 0
  else
    match f.ff.decode (x % 2 ^ f.bits) with
    | .nan _ => ff32.nan 0
    | .inf n => if sat then (BitVec.ofNat 64 (ff32.maxBits n), 0) else ff32.inf n 0
    | .fin n m e => ff32.round rnd sat n ⟨m, e + (scale.toNat - 127), false⟩

/-- Narrowing of a float value to a float memory format (R73), after any scaling. -/
def narrowVal (f : MemFmt) (rnd : Rnd) (sat : Bool) (x : FVal) : Nat × FFlags :=
  let ff := f.ff
  match x with
  | .nan s => (ff.nanBits, (if s then flagNV else 0) ||| (if f = .e2m1 then flagNV else 0))
  | .inf n =>
    if f = .e2m1 then (ff.maxBits n, flagNV)
    else if sat then (ff.maxBits n, 0)
    else if f = .e4m3 then (ff.nanBits, 0) else (ff.infBits n, 0)
  | .fin n m e =>
    if f = .e2m1 then
      match ff.roundMag rnd n false ⟨m, e, false⟩ with
      | (.fin q t, fl) =>
        if (if 1 ≤ t then 3 < q * 2 ^ (t - 1).toNat else 3 * 2 ^ (1 - t).toNat < q)
        then (ff.maxBits n, flagOF ||| flagNX) else (ff.encodeFin n q t, fl)
      | (.overflow _, fl) => (ff.maxBits n, fl)
    else
      match ff.roundMag rnd n true ⟨m, e, false⟩ with
      | (.fin q t, fl) => (ff.encodeFin n q t, fl)
      | (.overflow inf, fl) =>
        (if !inf || sat then ff.maxBits n
         else if f = .e4m3 then ff.nanBits else ff.infBits n, fl)

/-- Narrow on store (R73): the datum and the flags. `scale` is the block's scale under SC = 1. An F32 source widens exactly
to F64. -/
def narrow (f : MemFmt) (t : Tag) (scale : Option Byte) (rnd : Rnd) (sat : Bool) (x : Quad) :
    Nat × FFlags :=
  if !f.isF then
    let v := t.int x
    ((BitVec.ofInt f.bits (if sat then clampInt f.isI f.bits v else v)).toNat, 0)
  else
    match scale with
    | some s =>
      if s = 0xFF then (f.ff.nanBits, if f = .e2m1 then flagNV else 0)
      else narrowVal f rnd sat
        (match t.ff.val x with
         | .fin n m e => .fin n m (e - (s.toNat - 127))
         | v => v)
    | none =>
      if (f = .f32 ∧ t = .f32) ∨ (f = .f64 ∧ t = .f64) then (x.toNat % 2 ^ f.bits, 0)
      else narrowVal f rnd (sat && f ≠ .f64) (t.ff.val x)

/-! ### Integer arithmetic (R75) -/

/-- Quotient truncated toward zero; division by zero gives all ones. -/
def divInt (t : Tag) (x y : Quad) : Int :=
  if t.int y = 0 then (if t.isI then -1 else intMax false t.bits) else (t.int x).tdiv (t.int y)

/-- Remainder with the sign of the dividend; of a division by zero, the dividend. -/
def remInt (t : Tag) (x y : Quad) : Int :=
  if t.int y = 0 then t.int x else (t.int x).tmod (t.int y)

/-- One operation of an atomic on a value of `bits` bits (R171, R234), under R77. -/
def amoApply (op : AmoOp) (wide : Bool) (v x : Quad) : Quad :=
  let ti : Tag := if wide then .i64 else .i32
  let tn : Tag := if wide then .n64 else .n32
  match op with
  | .add => tn.ofInt false (tn.int v + tn.int x)
  | .and => tn.ofInt false (tn.int (v &&& x))
  | .or => tn.ofInt false (tn.int (v ||| x))
  | .xor => tn.ofInt false (tn.int (v ^^^ x))
  | .min => if ti.int x < ti.int v then tn.ofInt false (tn.int x) else tn.ofInt false (tn.int v)
  | .max => if ti.int v < ti.int x then tn.ofInt false (tn.int x) else tn.ofInt false (tn.int v)
  | .minN => if tn.int x < tn.int v then tn.ofInt false (tn.int x) else tn.ofInt false (tn.int v)
  | .maxN => if tn.int v < tn.int x then tn.ofInt false (tn.int x) else tn.ofInt false (tn.int v)
  | .swap => tn.ofInt false (tn.int x)
  | .fadd => ((ffOf wide).add .rne false v x).1

end Sys2Proof
end

