-- ==== Sys2Proof/Config.lean ====
section
/-! DEFINITION. What a configuration or an implementation fixes, and the values the spec leaves open.
An `opaque` constant has no body: no proof can know its value. -/

namespace Sys2Proof.Config

/-- Bytes of HBM4E of one die: 2 x 64 GB (R352), GB being 10^9 bytes (R3). -/
def hbmBytes : Nat := 128000000000
/-- Bytes of one vault (R93). -/
def vaultBytes : Nat := 0x300000
/-- Cores of a die, dies of a package, harts of a core (R10). -/
def coresPerDie : Nat := 96
def diesPerPackage : Nat := 4
def hartsPerCore : Nat := 8
def hartsPerDie : Nat := 768
def hartsPerPackage : Nat := 3072
/-- Containers of one lane group's share of the vector file (R26). -/
def laneContainers : Nat := 8192
/-- Entries of a wait list (R173). -/
def waitListEntries : Nat := 32
/-- Entries of the address-range interlock table (R132). -/
def interlockEntries : Nat := 16

/-- Clocks beyond one that a step takes: the spec gives ranges only (R1, R14, R423). Log 7 (DESIGN CHOICE). -/
opaque stepClocks : Nat → Nat
/-- A choice the spec leaves to the part, drawn once per value of the counter State.free. -/
opaque choice : Nat → Bool
/-- Whether the front end looks past a branch whose registers are not known, one per value of State.free (R164).
Log 110 (DESIGN CHOICE). -/
opaque predicts : Nat → Bool
/-- A 64-bit value that the spec does not state, one per value of State.free. -/
opaque value : Nat → Quad
/-- The 4 KiB page of host memory that the host's own I/O memory management gives a function of a package for a page of bus
addresses (R87, R421). Log 142 (DESIGN CHOICE). -/
opaque hostPage : Nat → Nat → Nat → Nat
/-- The hash that chooses the L2 home slice of a 64-byte line, fixed for a part (R95). Log 19 (DESIGN CHOICE). -/
opaque l2Slice : Nat → Nat

/-- The circuit port 0 to 7 of another package to which a circuit port of a package is cabled (R381): the cabling of the
system. Log 146 (DESIGN CHOICE). -/
opaque cable : Nat → Nat → Option (Nat × Nat)
/-- Mucen's clock count, by the clocks since the package reset: the spec gives its clock no rate (R397). Log 68 (DESIGN CHOICE). -/
opaque mucenClock : Nat → Quad

/-- The quads of the frame that vqsave or hsave writes, by its number: its content is not architectural (R338,
R340). Log 64 (DESIGN CHOICE). -/
opaque frameQuad : Nat → Nat → Quad

/-- What the 256 bytes of a connection context say to a package with a wrap key: asid, the peer's connection number and the
next packet number; none where the wrap fails authentication (R400). The spec gives no layout. Log 44 (DESIGN CHOICE). -/
opaque context : Nat → Quad → List (BitVec 8) → Option (BitVec 16 × Nat × Nat)
/-- Byte i of a context that a package with a wrap key writes back; the second argument is State.free. Log 44 (DESIGN CHOICE). -/
opaque contextByte : Quad → Nat → Nat → BitVec 8

/-- The security version of a signed firmware image; none where its signature is rejected (R407).
Log 106 (DESIGN CHOICE). -/
opaque firmware : List (BitVec 8) → Option Nat
/-- The measurement of a code region and policy: SHAKE256 with 64 bytes of output (R410). -/
opaque measure : List (BitVec 8) → Nat
/-- Byte i of the signature that a package makes with a leaf over a report (R408, R410). -/
opaque signature : Nat → Nat → List (BitVec 8) → Nat → BitVec 8
/-- Whether a participant's key verifies a signature over an enclave, a member and an epoch (R411). -/
opaque verifies : Nat → BitVec 64 → Nat → Nat → List (BitVec 8) → Bool

end Sys2Proof.Config
end

