-- ==== Sys2Proof/Machine/State.lean ====
section
/-! DEFINITION. The state of the system: harts, cores, dies, packages and their memory, as plain
data, with `State.reset` (spec 02, 03, 05, 06, 12, 17 to 21). Every default below is the reset or
launch value that INVENTORY.md lists with its rule. -/

namespace Sys2Proof.Machine

/-- Where a step stops because the machine has no such place. -/
inductive Fault where
  /-- A physical address past the memory of its die, in a table or block whose base software chose
  (R350, R358, R363, R380). Raised by the walker and by the readers of those blocks. Safe: the model
  stops where the spec says nothing lies. -/
  | noMemory (addr : Nat)
  deriving DecidableEq, Repr

/-- Why the model refuses an instruction. -/
inductive Refusal where
  /-- An instruction that has no meaning yet. Raised by Dispatch.lean only. Safe: nothing happens. -/
  | notModelled (mnemonic : String)
  deriving DecidableEq, Repr

/-! ### One hart -/

/-- Levels U and S (R325). -/
inductive Level where
  | u | s
  deriving DecidableEq, Repr, Inhabited

/-- What holds a placed hart's issue (R45). -/
inductive Wait where
  | counter | presence | sync | gangBarrier | collective | header | fifthSend | engine | matrix
  | window | unbind | grant | status | event | quota | shootdown | exit
  deriving DecidableEq, Repr, Inhabited

/-- Why a hart is parked: waita with its line (physical), gwait, gyield with the clock at which it
ends, or pwait with REL = 1 (R38, R172, R180, R182, R342). -/
inductive Park where
  | waita (line : Nat) | gwait (queue : Nat) (seq : Word) | gyield (until_ : Nat) | released
  deriving DecidableEq, Repr, Inhabited

/-- Status of a hart (R22, R38, R45, R183). `dest` receives the park code at resumption. -/
inductive HartStatus where
  | vacant
  | running
  | held (w : Wait)
  | parked (why : Park) (dest : SReg) (code : Option Quad)
  deriving DecidableEq, Repr, Inhabited

/-- A v register: its containers (an unlisted container is zero), tag and taint (R47, R48, R55). -/
structure VecReg where
  data : List Word := []
  tag : Tag := .n32
  taint : TaintSet := 0
  deriving DecidableEq, Repr, Inhabited

/-- A mask register: its bits, its form, its taint (R49). -/
structure MaskReg where
  bits : BitVec 65536 := 0
  list : Bool := false
  taint : TaintSet := 0
  deriving DecidableEq, Repr, Inhabited

/-- A tile: rows of F32 words; an unlisted word is zero (R50). -/
abbrev Tile := List (List Word)

/-- A stream register, quads 0 to 7 (R51). -/
structure Stream where
  base : Quad := 0
  stride : Quad := 0
  table2 : Quad := 0
  bound1 : Quad := 0
  bound2 : Quad := 0
  bound3 : Quad := 0
  kind : BitVec 4 := 0
  idx : VReg := 0
  fmt : MemFmt := .n8
  sc : Bool := false
  scq : QReg := 0
  pol1 : Policy := .trap
  pol2 : Policy := .trap
  pol3 : Policy := .trap
  prewalk : BitVec 3 := 0
  taint : TaintSet := 0
  deriving DecidableEq, Repr, Inhabited

/-- The binding of an f register (R53): a peer hart with its channel, or a joined group. Each holds whether its
traffic is sealed, its send sequence number (messages or contributions sent) and its receive tag (the number of
messages or results taken). Log 119 (DEDUCED). -/
inductive Binding where
  | unbound
  | peer (sealed : Bool) (peer : HartRef) (channel : Nat) (sendSeq recvTag : Nat)
  | group (j : BitVec 4) (sealed : Bool) (sendSeq recvTag : Nat)
  deriving DecidableEq, Repr, Inhabited

/-- The user CSRs that no other field of the hart holds (R57). -/
structure UserCsr where
  vl : Word := 0
  mp : Bool := false
  tp : Bool := false
  gl : BitVec 2 := 0
  nreg : BitVec 2 := 0
  w64 : Bool := false
  lgreq : BitVec 4 := 0
  vlmax : Word := 0
  lgrp : Byte := 0
  vlast : BitVec 6 := 0
  vstat : BitVec 5 := 0
  kstat : BitVec 24 := 0
  fflags : BitVec 5 := 0
  frm : BitVec 3 := 1
  strip : Quad := 0
  slen : Quad := 0
  sbase : Quad := 0
  mM : Word := 0
  mN : Word := 0
  mK : Word := 0
  mMg : Byte := 0
  mNg : Byte := 0
  mclass : BitVec 2 := 0
  mi : Word := 0
  nj : Word := 0
  kk : Word := 0
  mcols : Byte := 0
  cgrp : BitVec 4 := 0
  cop : BitVec 24 := 0
  cstride : Word := 0
  aseq : Word := 0
  acause : Byte := 0
  gangid : Word := 0
  ganghart : BitVec 12 := 0
  gangsize : BitVec 12 := 0
  deriving DecidableEq, Repr, Inhabited

/-- The supervisor CSRs (R327); ptroot acts on memory (R354) and vqlen is computed (R338). -/
structure SupCsr where
  pend : BitVec 3 := 0
  vown : Bool := false
  vdirty : Bool := false
  saie : Bool := false
  aie : Bool := false
  spp : Level := .u
  tcause : BitVec 11 := 0
  tinfo : Quad := 0
  tpc : Quad := 0
  tvec : Quad := 0
  tsave : Quad := 0
  asid : BitVec 16 := 0
  preempt : BitVec 16 := 0x0040
  telem : Quad := 0
  tvpc : Quad := 0
  parkbase : Quad := 0
  snapseq : Quad := 0
  deriving DecidableEq, Repr, Inhabited

/-- Where the value of a load goes: an s register, or an element of a v register with the memory
format, whether an E2M1 datum is the high nibble, the scale byte when SC = 1, the rounding mode and
sat (R67, R71, R72, R168). -/
inductive LoadDst where
  | s (d : SReg) (signed : Bool)
  | v (d : VReg) (elem : Nat) (fmt : MemFmt) (high : Bool) (scale : Option Byte) (rnd : Rnd) (sat : Bool)
  deriving DecidableEq, Repr, Inhabited

/-- What an access does at its home. -/
inductive AccOp where
  | load (dst : LoadDst)
  /-- ldc: through the constant cache (R98). -/
  | loadConst (dst : LoadDst)
  /-- Through the window in a slot (R99). -/
  | loadWindow (slot : Nat) (dst : LoadDst)
  | store (data : Nat)
  /-- One nibble of a byte (R67). -/
  | storeNibble (high : Bool) (data : Nat)
  | amo (op : AmoOp) (x : Quad) (dst : SReg)
  | cas (expected new : Quad) (dst : SReg)
  | exchange (data : Nat) (dst : LoadDst)
  /-- A merged vector-atomic update: the elements and their operands (R235). -/
  | vamo (op : AmoOp) (tag : Tag) (elems : List (Nat × Quad)) (dst : Option VReg)
  deriving DecidableEq, Repr, Inhabited

/-- Slices of R115: a vault of the own package, an L2 home slice, a die of another package, host. -/
inductive Slice where
  | vault (die core : Nat) | l2 (die slice : Nat) | remote (pkg die : Nat) | host
  deriving DecidableEq, Repr, Inhabited

/-- An access that has issued and is not yet performed (R113 to R117, R127). -/
structure Access where
  /-- Number of its instruction in the hart's program order. -/
  seq : Nat
  /-- 0 the scalar queue, j + 1 the queue of owned lane group j (R116). -/
  queue : Nat
  slice : Slice
  /-- Physical address and size in bytes. -/
  addr : Nat
  size : Nat
  /-- The address that the program used. -/
  shown : Quad := 0
  op : AccOp
  /-- Tags that hold it (R127). -/
  held : TaintSet
  /-- The tag it holds, for a load (R124). -/
  tag : Option (BitVec 4)
  /-- Presence is visible: a non-blocking load (R35). -/
  nb : Bool := false
  /-- Its train, for a remote vector store or atomic (R136). -/
  train : Option Nat := none
  /-- Asid, first offset and size of the page it was translated with, for a PGAS access (R360). -/
  via : Option (BitVec 16 × Nat × Nat) := none
  /-- lsyncs that precede it in program order: at one slice an access follows those with fewer (R121). -/
  join : Nat := 0
  /-- The write completes the cover of its granule by one instruction, and clears its poison (R110). -/
  clears : Bool := false
  /-- Address of its instruction, or of its convoy header. -/
  pc : Quad := 0
  /-- Registers in the group of its v destination: G when it issued. -/
  span : Nat := 1
  /-- The sloop.par and the strip it belongs to: accesses of different strips are not ordered (R30). -/
  strip : Option (Nat × Quad) := none
  /-- The colours of each hop of its path, to another package (R384). -/
  path : List Lane := []
  deriving DecidableEq, Repr, Inhabited

/-- A non-blocking instruction in flight: its number and its counter (R230). -/
structure NbOp where
  seq : Nat
  k : KReg
  deriving DecidableEq, Repr, Inhabited

/-- An open read-only window, with the 64-byte lines that its buffer holds, each by its number (R99, R240). -/
structure Window where
  base : Quad
  length : Quad
  buf : List (Nat × Nat) := []
  deriving DecidableEq, Repr, Inhabited

/-- An entry of the address-range interlock table (R132): canonical byte range [base, limit). -/
structure Interlock where
  base : Nat
  limit : Nat
  write : Bool
  k : KReg
  seq : Nat
  /-- Arrival pointers of the 32 banks, for a vault range (R134). -/
  arrival : List Nat
  deriving DecidableEq, Repr, Inhabited

/-- An engine record (R257). -/
structure EngineRecord where
  poison : BitVec 24 := 0
  status : BitVec 4 := 0
  done : Word := 0
  firstp : Quad := 0xFFFFFFFFFFFFFFFF
  deriving DecidableEq, Repr, Inhabited

/-- What an engine command does, with the operands captured at issue. -/
inductive CmdOp where
  /-- cpy and cpyff: destination and source streams, their index registers as they stood, the
  length, the data-index base, the register that receives cpyff's length (R253 to R256). -/
  | copy (dst src : Stream) (dstIdx srcIdx : List Quad) (dstTag srcTag : Tag) (len : Nat)
      (sbase : Quad) (ff : Option SReg)
  /-- fmp: the eight quads of the descriptor and its address (R259). -/
  | fuller (desc : List Quad) (addr : Quad)
  /-- mst: stream, its index register, tile rows as they stood, row count, pitch, columns, mask,
  rounding and saturation (R251). -/
  | drain (q : Stream) (idx : List Quad) (idxTag : Tag) (tile : Tile) (rows : Nat) (pitch : Quad)
      (cols : Nat) (mask : BitVec 65536) (sbase : Quad) (rnd : Rnd) (sat : Bool)
  deriving DecidableEq, Repr, Inhabited

/-- An engine command in flight (R19, R257): `next` is the next element, vertex or row. -/
structure Cmd where
  seq : Nat
  k : KReg
  pc : Quad
  /-- Its word, and the address space it was issued in. -/
  word : Quad := 0
  asid : BitVec 16 := 0
  op : CmdOp
  held : TaintSet
  /-- The nearest home that any of its accesses has: 1 the own vault, 2 the own die, 3 the own
  package, 4 elsewhere (R121). -/
  nearest : Nat := 4
  next : Nat := 0
  /-- Clock of its issue: the Fuller of a core runs commands in this order (R263). -/
  issued : Nat := 0
  /-- Destination granules it has marked poisoned; and for each other poisoned granule, the bytes that
  it has written, one bit each (R110, R111). -/
  marked : List Nat := []
  cover : List (Nat × Nat) := []
  firstp : Option Int := none
  /-- The element or vertex whose granule FIRSTP names. -/
  firstAt : Nat := 0
  /-- Of the vertex that a Fuller command is at: the edges that it has read, what their messages reduce to, and whether a
  granule was poisoned (R261). -/
  part : Option (Nat × Option (List Quad) × Bool) := none
  /-- The row of OUT that it has read for that vertex, under ACC = 1, and whether a granule was poisoned (R263). -/
  row : Option (List Quad × Bool) := none
  /-- Of a copy whose ranges overlap: the bytes that it has written, as they were before (R254). -/
  was : List Host.Cell := []
  /-- Stopped by a fault, or reloaded by vqrest: it resumes at sret (R255, R336). -/
  stopped : Bool := false
  /-- It waits at issue for interlock entries, with the ranges that it will enter (R133). -/
  queued : Bool := false
  ranges : List Interlock := []
  deriving DecidableEq, Repr, Inhabited

/-- The part of the state that a vector instruction reads when it issues (R338). -/
structure VecEnv where
  vl : Word
  mp : Bool
  tp : Bool
  gl : BitVec 2
  sbase : Quad
  frm : BitVec 3
  cop : BitVec 24
  cstride : Word
  mcols : Byte
  mMg : Byte
  mNg : Byte
  mclass : BitVec 2
  s : Vector Quad 32
  q : Vector Stream 16
  /-- The control taint. -/
  ct : TaintSet
  /-- Tags of the v registers, and taint sets of the s, v and m registers. -/
  vt : Vector Tag 64
  st : Vector TaintSet 32
  vx : Vector TaintSet 64
  mx : Vector TaintSet 8
  deriving DecidableEq, Repr, Inhabited

/-- An entry of the vector instruction queue (R330, R338): the word, the address that tvpc takes, the element or
update to go on from, and what it captured. It waits to execute (R36), or a trap has frozen it. -/
structure Frozen where
  word : Quad
  pc : Quad
  start : Nat
  /-- Elements that are complete: of a vector atomic (R236), or of the element groups that an element-wise
  instruction has executed (R33, R36). -/
  doneElems : BitVec 65536
  env : VecEnv
  /-- The load tag that it took at issue; trap entry takes it away (R330). -/
  tag : Option (BitVec 4) := none
  /-- The index elements and the data elements of a memory instruction that has begun (R220). -/
  capIdx : Option (List Quad) := none
  capData : Option (List Quad) := none
  /-- Its mask, by register, where later instructions may have written the register since it began. -/
  capMask : Option (MReg × BitVec 65536) := none
  /-- The sequence number that a collective vst or vld took when it issued (R271). -/
  collSeq : Option Word := none
  /-- Number of its instruction, the lsyncs before it, and its strip of a sloop.par. -/
  seq : Nat := 0
  joins : Nat := 0
  strip : Option (Nat × Quad) := none
  deriving DecidableEq, Repr, Inhabited

/-- A vector instruction whose reads are in flight: how it would freeze, and its destination group as it was. -/
structure Flight where
  entry : Frozen
  vd : VReg
  wide : Bool
  old : List Word
  deriving DecidableEq, Repr, Inhabited

/-- A read that met poison or a failed path at its home (R88 check 10, R109, R385): the trap that it raises, at the
level at which it was issued. `seq` and `elem` name the instruction and the element; a scalar load has no element. -/
structure Hit where
  cause : Byte
  tinfo : Quad
  pc : Quad
  level : Level
  seq : Nat
  elem : Option Nat
  /-- The home die that records it, with the walk level; and what the access was (R357). -/
  home : Option (Nat × Nat × Nat) := none
  reads : Bool := true
  writes : Bool := false
  deriving DecidableEq, Repr, Inhabited

/-- A joined group of the hart (R268 to R271). -/
structure Joined where
  handle : Quad
  rank : Nat
  cseq : Word := 0
  /-- Cause of the last abort. -/
  abort : Byte := 0
  /-- The contribution sent and not yet closed by a collective vld, and the sequence number and tag of it. -/
  opened : Bool := false
  openSeq : Word := 0
  openTag : Tag := .n32
  /-- The operation that a cbar waits for. -/
  barrier : Option Word := none
  deriving DecidableEq, Repr, Inhabited

/-- A collective vld whose result has not come (R273, R276), or a vrecv whose message is not whole: its operation, its destination with the tag
that it had, the active elements, what it captured, its load tag and its counter. -/
structure CollLoad where
  handle : Quad
  seq : Word
  j : BitVec 4
  vd : VReg
  oldTag : Tag
  act : BitVec 65536
  env : VecEnv
  ltag : BitVec 4
  k : KReg
  nb : Bool
  word : Quad
  pc : Quad
  /-- Number of its instruction. -/
  order : Nat := 0
  /-- For a vrecv whose message is not whole (R266): the message, the elements that it keeps, their tag, and the packets
  that have come. -/
  msg : Option Nat := none
  len : Nat := 0
  tag : Tag := .n32
  got : List Nat := []
  deriving DecidableEq, Repr, Inhabited

/-- A frame that vqsave or hsave has written (R338, R340). Its bytes are not architectural: the model keeps
what the frame stands for beside them. -/
structure VqFrame where
  id : Nat
  hart : HartRef
  bytes : Nat
  /-- Number of the saving hart's next instruction. -/
  seq : Nat
  interlock : List Interlock
  cmds : List Cmd
  frozen : List Frozen
  deriving DecidableEq, Repr, Inhabited

/-- A scalar load past a predicted branch that was performed before the branch ran: its instruction, its address, and the
value that its register takes (R164). -/
structure EarlyLoad where
  seq : Nat
  pc : Quad
  addr : Nat
  dest : SReg
  value : Quad
  deriving DecidableEq, Repr, Inhabited

/-- A prediction (R164): the branch, where it was predicted to go, and the loads performed on that path. -/
structure Ahead where
  seq : Nat
  pc : Quad
  toward : Quad
  loads : List EarlyLoad
  deriving DecidableEq, Repr, Inhabited

/-- One hart: one vector loop context on one partition (R22, R46 to R62, R327). Log 10 (DESIGN CHOICE). -/
structure Hart where
  ref : HartRef := ⟨0, 0⟩
  status : HartStatus := .vacant
  level : Level := .u
  pc : Quad := 0
  /-- The word being executed, which tinfo reports (R331). The model's own field. -/
  ir : Quad := 0
  s : Vector Quad 32 := Vector.replicate 32 0
  st : Vector TaintSet 32 := Vector.replicate 32 0
  ct : TaintSet := 0
  v : Vector VecReg 64 := Vector.replicate 64 {}
  m : Vector MaskReg 8 := Vector.replicate 8 {}
  /-- Owned lane groups (g) and owned tiles, in ascending order of their physical numbers. -/
  g : Nat := 0
  tiles : List Tile := []
  /-- The physical tiles they lie in, bit p for tile p of the core. -/
  tmask : BitVec 4 := 0
  q : Vector Stream 16 := Vector.replicate 16 {}
  f : Vector Binding 8 := Vector.replicate 8 .unbound
  k : Vector Word 8 := Vector.replicate 8 0
  csr : UserCsr := {}
  sup : SupCsr := {}
  joined : Vector (Option Joined) 16 := Vector.replicate 16 none
  windows : Vector (Option Window) 32 := Vector.replicate 32 none
  records : Vector EngineRecord 8 := Vector.replicate 8 {}
  interlock : List Interlock := []
  /-- Outstanding tags (R124): bit i for tag i. -/
  tagBusy : BitVec 16 := 0
  /-- Number of the last load given tag 0. -/
  tag0Last : Nat := 0
  /-- Number of lsyncs so far. -/
  joins : Nat := 0
  /-- Number of the next instruction (program order). -/
  seq : Nat := 1
  pend : List Access := []
  nbs : List NbOp := []
  /-- Scalar stores applied at their home and not yet acknowledged (R97), by number. -/
  unacked : List Nat := []
  /-- Trains applied and not yet acknowledged (R136): train and instruction number. -/
  trains : List (Nat × Nat) := []
  cmds : List Cmd := []
  frozen : List Frozen := []
  colls : List CollLoad := []
  /-- Number of the free value that vqlen shows while the queue is not empty (R338). -/
  vqDraw : Nat := 0
  /-- Element at which the next vector instruction starts; nonzero only while a frozen entry
  resumes (R34). The model's own field. -/
  start : Nat := 0
  doneElems : BitVec 65536 := 0
  /-- The load tag of the queue entry that runs; none while no entry runs. The model's own field. -/
  grant : Option (BitVec 4) := none
  /-- What the queue entry that runs captured of its index and data registers, and the sequence number that it took. The
  model's own fields. -/
  capIdx : Option (List Quad) := none
  capData : Option (List Quad) := none
  collSeq : Option Word := none
  /-- Vector instructions whose reads are in flight, and reads that met poison or a failed path. -/
  flights : List Flight := []
  hits : List Hit := []
  /-- The latest prediction of the front end, until its branch goes elsewhere or a trap is taken (R164). The model's own
  field. -/
  early : Option Ahead := none
  /-- The sloop.par that runs, by number (R30). -/
  par : Option Nat := none
  /-- Number of the next instruction at each trap that has not been returned from, latest first (R424). -/
  trapSeqs : List Nat := []
  /-- Numbers of the instructions that vqsave has carried off with writes to perform, and no vqrest brought back
  (R338). -/
  owed : List Nat := []
  /-- gtrig has executed, as the instruction of that number: the mark of R179 once the writes before it are
  performed. -/
  triggered : Option Nat := none
  /-- Arrived at gbar (R181). -/
  atBarrier : Bool := false
  /-- Cause 0x21 has been delivered: sret acts as gexit (R335); the enclave that the order names. -/
  revoked : Bool := false
  enclave : Quad := 0
  /-- The vector instruction queue is not frozen: its entries execute (R336). -/
  thaw : Bool := false
  /-- A trap was taken while parked: lane groups and tiles return only at resumption (R339). -/
  noLanes : Bool := false
  /-- Clock by which a pre-empted handler must reach pwait (R343). -/
  graceEnd : Option Nat := none
  deriving DecidableEq, Repr, Inhabited

/-- What an hsave area stands for (R340). -/
structure HFrame where
  id : Nat
  hart : HartRef
  q : Vector Stream 16
  f : Vector Binding 8
  k : Vector Word 8
  csr : UserCsr
  joined : Vector (Option Joined) 16
  windows : Vector (Option Window) 32
  records : Vector EngineRecord 8
  deriving DecidableEq, Repr, Inhabited

/-! ### Messages and collective operations (12) -/

/-- A message that has been sent and not yet taken (R265, R266): its header, its elements, its counter at
the sender, the packets placed, and whether a not-ready answer is on its way. -/
structure Message where
  number : Nat
  sender : HartRef
  gang : Word
  instr : Nat
  f : FReg
  dst : HartRef
  channel : Nat
  seq : Nat
  crypt : Bool
  /-- Enclave and member index of the sender. -/
  origin : Option (Quad × Nat) := none
  tag : Tag
  elems : List Quad
  k : KReg
  nb : Bool
  admitted : Bool := false
  /-- Its place in the receive area. Log 54 (DESIGN CHOICE). -/
  place : Nat := 0
  arrived : List Nat := []
  waiting : Bool := false
  deriving DecidableEq, Repr, Inhabited

/-- The contribution of one rank (R271, R275); `body` is its tag, cop and cstride, none for cbar.
`arrived` and `waiting` are reducing packages. -/
structure Contribution where
  number : Nat
  rank : Nat
  hart : HartRef
  gang : Word
  origin : Option (Quad × Nat) := none
  body : Option (Tag × BitVec 24 × Word)
  elems : List (Option Quad)
  k : KReg
  nb : Bool
  arrived : List Nat := []
  waiting : List Nat := []
  /-- The vst half is performed. -/
  accepted : Bool := false
  /-- Number of its instruction. -/
  instr : Nat := 0
  deriving DecidableEq, Repr, Inhabited

/-- How the root decides a sequence number (R278). -/
inductive Verdict where
  | committed | aborted (cause : Byte)
  deriving DecidableEq, Repr, Inhabited

/-- One operation of a group (R271 to R278). -/
structure CollOp where
  handle : Quad
  seq : Word
  /-- Package that reads the descriptor. -/
  pkg : Nat
  parts : List Contribution := []
  /-- Clock of the first contribution to arrive. -/
  first : Option Nat := none
  verdict : Option Verdict := none
  /-- Packages whose counts have gone up the tree, and packages that the root's decision has reached on its way down (R404). -/
  counted : List Nat := []
  reached : List Nat := []
  /-- Ranks that the abort has reached, and ranks that have closed the operation. -/
  told : List Nat := []
  closed : List Nat := []
  /-- Every rank has closed it: what is left is the root's decision (R278). -/
  past : Bool := false
  deriving DecidableEq, Repr, Inhabited

/-- A group: the harts joined, by rank, and the ranks whose departure has not reached the tree (R268 to
R270). -/
structure Group where
  handle : Quad
  joined : List (Nat × HartRef) := []
  leaving : List Nat := []
  /-- Clock at which it last became ready (R277). -/
  readyAt : Nat := 0
  deriving DecidableEq, Repr, Inhabited

/-- An ABORT on its way (R277). -/
structure AbortMsg where
  handle : Quad
  seq : Word
  cause : Byte
  /-- The package whose unit it has come to. -/
  at_ : Nat
  deriving DecidableEq, Repr, Inhabited

/-! ### Circuits (12 R280, R281; 20 R393 to R396) -/

/-- A post of a send queue: `next` bytes sent, payloads on their way with their data and the granules of
their source that are poisoned, bytes placed (R281). -/
structure Post where
  number : Nat
  dest : Nat
  src : Quad
  dst : Quad
  len : Nat
  hart : HartRef
  gang : Word
  asid : BitVec 16
  k : KReg
  seq : Nat
  nearest : Nat
  /-- Numbers of the instructions of the hart whose loads hold it, or whose accesses to its source come first (R118,
  R127). -/
  waits : List Nat := []
  next : Nat := 0
  flying : List (Nat × List Byte × List Nat) := []
  placed : Nat := 0
  failed : Bool := false
  /-- The circuit has failed: the post ends where it stands. -/
  cut : Bool := false
  /-- Rotations of a table that gives its destination no slot. -/
  idle : Nat := 0
  deriving DecidableEq, Repr, Inhabited

/-- An entry of a slot table that this package sources (R395). -/
structure CircuitEntry where
  index : Nat
  slot : Nat
  num : Nat
  dest : Nat
  colours : BitVec 16
  path : List Hop
  acked : Bool := false
  failed : Bool := false
  attempts : Nat := 0
  /-- Clock at which the retry of a SETUP is due. -/
  retryAt : Option Nat := none
  deriving DecidableEq, Repr, Inhabited

/-- A slot table read from the fabric region (R395). -/
structure SlotTable where
  epoch : Nat
  actrot : Nat
  master : Nat
  nslot : Nat
  guard_ : Nat
  slotlen : Nat
  entries : List CircuitEntry
  deriving DecidableEq, Repr, Inhabited

/-- A reservation of a switch (R393, R394). -/
structure Reservation where
  num : Nat
  epoch : Nat
  slot : Nat
  hop : Hop
  colours : BitVec 16
  first : Bool
  last : Bool
  committed : Bool
  deriving DecidableEq, Repr

/-- A control packet on its way to a package (R393). -/
inductive MeshPacket where
  | setup (c : Circuit) | ack (num : Nat) | busy (num hop : Nat) | teardown (num : Nat)
  | rotstart (rot epoch : Nat)
  deriving DecidableEq, Repr, Inhabited

/-- The rotation a package is in (R396). -/
structure Rotation where
  running : Bool := false
  number : Nat := 0
  /-- Number of the latest ROTSTART that was received or sent. -/
  heard : Option Nat := none
  start : Nat := 0
  slot : Option Nat := none
  /-- Slots of the rotation that have begun. -/
  begun : Nat := 0
  /-- Rotations in a row started without a ROTSTART. -/
  own : Nat := 0
  /-- The slot for which the switches are set. -/
  switches : Option Nat := none
  /-- Of each circuit of the slot, by entry: the clock at which its colours last began to send without a pause, and the
  bytes since. -/
  busy : List (Nat × Nat × Nat) := []
  deriving DecidableEq, Repr, Inhabited

/-! ### Colours (20 R387 to R392, R397) -/

/-- A colour in one direction: dark, warming, carrying, draining, or lit with its light lost. -/
inductive Light where
  | dark | warming | up | draining
  deriving DecidableEq, Repr, Inhabited

/-- A control flit that a colour has sent (R387, R390, R392). -/
inductive Control where
  | nak (lseq : BitVec 12) | propose (mode : BitVec 2) (epoch : BitVec 4) | ack (epoch : BitVec 4)
  | stopUsing (port colour : Nat)
  deriving DecidableEq, Repr, Inhabited

/-- One colour of one port. The first numbers, the mode and the epoch after reset, 0, are the model's choice: log 89 (DESIGN
CHOICE). -/
structure Colour where
  port : Nat
  colour : Nat
  tx : Light := .dark
  rx : Light := .dark
  /-- Clock at which each direction was last powered up (R392), and that of the latest PROPOSE (R390). -/
  txAt : Nat := 0
  rxAt : Nat := 0
  proposedAt : Nat := 0
  txMode : BitVec 2 := 0
  rxMode : BitVec 2 := 0
  proposal : Option (BitVec 2 × BitVec 4) := none
  epoch : BitVec 4 := 0
  /-- Numbers of the next new flit to send and of the next to take. -/
  txSeq : BitVec 12 := 0
  rxSeq : BitVec 12 := 0
  /-- The receiver has asked that the colour be used no more (R392). -/
  asked : Bool := false
  /-- Flits sent that the far end may still ask for, and flits to send again. -/
  window : List Flit := []
  replay : List Flit := []
  /-- Flits delivered, latest first. -/
  taken : List Flit := []
  sent : List Control := []
  flits : Quad := 0
  replays : Word := 0
  /-- Corrected symbols and uncorrectable codewords received, and the corrected symbols of the last second by clock (R390, R397). -/
  corr : Word := 0
  uncorr : BitVec 16 := 0
  errs : List (Nat × Nat) := []
  /-- Clock at which each direction lost light or training. -/
  txLost : Option Nat := none
  rxLost : Option Nat := none
  remapped : Bool := false
  remapping : Bool := false
  deriving DecidableEq, Repr, Inhabited

/-- A path to a package all of whose lit colours of a hop are dark, with the clock since when (R385). -/
structure DarkPath where
  dest : Nat
  lanes : List Lane
  since : Nat
  deriving DecidableEq, Repr, Inhabited

/-! ### Transport (12 R282 to R285, 20 R398 to R401) -/

/-- A cached connection context (R400). -/
structure Conn where
  conn : Nat
  asid : BitVec 16
  peer : Nat
  /-- Next packet sequence number to send, of 32 bits (R399). -/
  psn : Nat
  /-- Packets sent and not acknowledged. -/
  unacked : List TPacket := []
  /-- Packets to be sent again, and not before a clock. -/
  resend : List (TPacket × Nat) := []
  /-- Clock at which each packet was last sent. -/
  sentAt : List (Nat × Nat) := []
  /-- Packets taken from the peer: number of the key and packet number. -/
  seen : List (Nat × Nat) := []
  /-- Bytes placed of each request of the peer. -/
  got : List (Nat × Nat) := []
  /-- Signals of the peer's reads, counted once its packets of the data are acknowledged: request and identifier. -/
  sigs : List (Nat × Word) := []
  /-- NOTREADY replies for a packet. -/
  denials : List (Nat × Nat) := []
  /-- Number of rekeyings, and the next packet sequence number at the last one. -/
  keyEpoch : Nat := 0
  keyPsn : Nat := 0
  deriving DecidableEq, Repr, Inhabited

/-- A work request (R283): its quads as read, its place, its hart and counter; armed or started; bytes
done; the code with which it must end. -/
structure WorkReq where
  number : Nat
  conn : Nat
  quads : List Quad
  addr : Quad
  hart : HartRef
  gang : Word
  asid : BitVec 16
  k : KReg
  seq : Nat
  nearest : Nat
  armed : Bool
  arrivals : Nat := 0
  started : Bool := false
  done : Nat := 0
  ends : Option Byte := none
  /-- Answers of a read that have come before those of lower offsets, where its local buffer lies in a vault (R284). -/
  early : List TPacket := []
  deriving DecidableEq, Repr, Inhabited

/-- The transport of a package. -/
structure Transport where
  /-- The cached contexts, the one used last first; what the bytes of those written back say; and the connections that a
  context whose wrap failed has closed (R400). -/
  conns : List Conn := []
  stored : List (List Byte × Conn) := []
  closed : List Nat := []
  /-- Connections whose context is being fetched, and packets that wait for one. -/
  fetching : List Nat := []
  staged : List TPacket := []
  requests : List WorkReq := []
  /-- Arrivals that no armed request took, by asid and identifier. -/
  arrivals : List ((BitVec 16 × Word) × Nat) := []
  /-- NOTREADY replies sent: connection, packet, delay in microseconds. -/
  notready : List (Nat × Nat × Nat) := []
  acks : List (Nat × Nat) := []
  /-- Packets put on the wire, latest first. -/
  wire : List TPacket := []
  /-- Frames counted and discarded, by port; and the frames answered, by port (R398). -/
  frames : List (Nat × Nat) := []
  replies : List (Nat × EthFrame) := []
  deriving DecidableEq, Repr, Inhabited

/-! ### Huane and power (21) -/

/-- A resource of a partition: its type as PCREATE numbers it, the first and the count (R409). -/
structure Resource where
  type : Nat
  first : Nat
  count : Nat
  deriving DecidableEq, Repr, Inhabited

/-- A partition (R412). -/
structure Partition where
  id : Nat
  function : Nat
  resources : List Resource
  tearing : Bool := false
  /-- The ring whose PTEAR waits for its end. -/
  ring : Option Nat := none
  /-- Its measurement at EJOIN (R410). -/
  measure : Nat := 0
  deriving DecidableEq, Repr, Inhabited

/-- An enclave (R410), as its creator describes it: the members admitted, with package and partition. -/
structure Enclave where
  id : Quad
  quorum : Nat
  keys : List Nat
  allowed : List Nat
  hostio : Bool
  members : List (Nat × Nat × Nat) := []
  deriving DecidableEq, Repr, Inhabited

/-- A revocation order on its way to member packages (R411). -/
structure Order where
  enclave : Quad
  member : Nat
  epoch : Nat
  deriving DecidableEq, Repr, Inhabited

/-- Huane of one package (R407 to R415). -/
structure Huane where
  lcs : BitVec 4 := 0
  /-- Versions in slots A and B of each image; none where the slot holds no valid image. The first reset lists what the
  flash holds. -/
  slots : List (Nat × Option Nat × Option Nat) := []
  /-- Which slot of each image runs: 0 A, 1 B. -/
  active : List (Nat × Nat) := []
  least : List (Nat × Nat) := []
  leaf : Nat := 0
  /-- TAIL of each ring as last polled. -/
  tails : List (Nat × Word) := []
  partitions : List Partition := []
  nextPartition : Nat := 1
  /-- Orders applied here, latest first. -/
  applied : List Order := []
  /-- The package key, under which keys are wrapped outside Huane and Mucen: drawn afresh at every reset (R410). -/
  wrapKey : Quad := 0
  deriving DecidableEq, Repr, Inhabited

/-- The power arbiter (R416, R417): grants in amperes by die, and the estimate of the package's power in watts. -/
structure Power where
  grants : List Nat := [800, 800, 800, 800]
  estimate : Nat := 0
  droop : Bool := false
  hot : Bool := false
  deriving DecidableEq, Repr, Inhabited

/-! ### Cores, dies, packages -/

/-- A leaf of a page table (R351). -/
structure Leaf where
  pa : Nat
  chan : Nat
  x : Bool
  a : Bool
  w : Bool
  r : Bool
  deriving DecidableEq, Repr, Inhabited

/-- A TLB entry (R355): a core's TLB or the die's, the asid, the first offset and size of the page. -/
structure TlbEntry where
  pkg : Nat
  die : Nat
  core : Option Nat
  asid : BitVec 16
  page : Nat
  size : Nat
  leaf : Leaf
  deriving DecidableEq, Repr, Inhabited

/-- A non-leaf entry that a TLB holds (R355): the table that it names serves the pages of a region at a level. -/
structure TableEntry where
  pkg : Nat
  die : Nat
  core : Option Nat
  asid : BitVec 16
  level : Nat
  page : Nat
  size : Nat
  /-- Die-local physical address of the table. -/
  table : Nat
  deriving DecidableEq, Repr, Inhabited

/-- A waiter on a line at its home (R173): the home's list, the line, the hart. -/
structure Waiter where
  home : Nat
  line : Nat
  hart : HartRef
  deriving DecidableEq, Repr, Inhabited

/-- One core: the asid of each vault unit, the Sieve size, and the 64-byte lines that its instruction L1 and constant cache
hold, each by its number (R93, R98, R105, R170). -/
structure Core where
  pkg : Nat
  die : Nat
  core : Nat
  units : List (Nat × BitVec 16) := []
  sieve : Nat := 0
  icache : List (Nat × Nat) := []
  ccache : List (Nat × Nat) := []
  /-- Partition that was last given a freed entry of the matrix queue (R242). -/
  served : Nat := 7
  deriving DecidableEq, Repr, Inhabited

/-- What a gang holds on one core (R25, R373): its share of lane groups and tiles, and its run of vault
units. -/
structure GangCore where
  die : Nat
  core : Nat
  lanes : Byte := 0
  tiles : BitVec 4 := 0
  unit : Nat := 0
  units : Nat := 0
  deriving DecidableEq, Repr, Inhabited

/-- A placed gang that has not ended (R40 to R44, R376 to R379). -/
structure Gang where
  gangid : Word
  queue : Nat
  seq : Word
  ctx : Nat
  prio : Nat
  /-- Placement order. -/
  order : Nat
  size : Nat
  /-- Harts on each core, and the vault of each in 64-byte lines (R369). -/
  hpc : Nat := 1
  vault : Nat := 0
  /-- The gang whose hart launched it, the gang that launched that one, and so on (R375). -/
  ancestors : List Word := []
  cores : List GangCore := []
  triggered : Bool := false
  aborted : Bool := false
  preempted : Bool := false
  /-- Clock of the abort (R378). -/
  abortAt : Option Nat := none
  deriving DecidableEq, Repr, Inhabited

/-- A record that glaunch appended: the launching hart, its gang, and the number of the instruction. The gang sees every
write before it (R178). -/
structure Launch where
  queue : Nat
  seq : Word
  hart : HartRef
  gang : Word
  instr : Nat
  deriving DecidableEq, Repr, Inhabited

/-- An accepted record that waits (R371): its eight quads and its group list. -/
structure Waiting where
  queue : Nat
  seq : Word
  quads : List Quad
  ctx : Nat
  asid : BitVec 16
  dies : Nat
  groups : List (Quad × Quad)
  /-- The gang whose hart launched it, and so on (R368, R375). -/
  ancestors : List Word
  deriving DecidableEq, Repr, Inhabited

/-- A tlbinv request at Mucen (R344, R359): whom it serves, what it names, the number its counter takes when
it runs, the instructions (by hart and number) whose accesses it waits for, and whether it is acknowledged. -/
structure Shoot where
  hart : HartRef
  asid : Option (BitVec 16)
  offset : Option Nat
  ran : Option Word := none
  waits : List (HartRef × Nat) := []
  acked : Bool := false
  /-- A trap has interrupted the tlbinv that made it: it serves none (R344). -/
  orphan : Bool := false
  deriving DecidableEq, Repr, Inhabited

/-- One package. -/
structure Package where
  pkg : Nat
  gangs : List Gang := []
  /-- Number of gangs placed so far, and the queue that placed last (R374). -/
  placements : Nat := 0
  lastQueue : Nat := 2047
  /-- The bring-up block by quad (R405); a quad that is not listed has its reset value. LCS is Huane.lcs. -/
  block : List (Nat × Quad) := []
  /-- Shoot-down sequence counter of every TLB of the package (R359). -/
  shootdown : Word := 0
  /-- Clock of the last package reset (R60). -/
  resetClock : Nat := 0
  posts : List Post := []
  table : Option SlotTable := none
  loaded : Option SlotTable := none
  /-- Entries of replaced tables whose TEARDOWN is not yet acknowledged (R393). -/
  retired : List CircuitEntry := []
  /-- Slot tables read so far; and whether Mucen has taken the LOAD that is set (R395). -/
  epochs : Nat := 0
  loadTaken : Bool := false
  reservations : List Reservation := []
  mesh : List MeshPacket := []
  rotation : Rotation := {}
  colours : List Colour := []
  /-- TRUNK bit in force of each port (R391). -/
  trunks : List (Nat × Bool) := []
  remapSeq : Word := 0
  darkPaths : List DarkPath := []
  transport : Transport := {}
  huane : Huane := {}
  power : Power := {}
  /-- Rate to which the host link trained, GT/s; 0 before it trains (R421). -/
  hostRate : Nat := 0
  shoots : List Shoot := []
  waiting : List Waiting := []
  /-- Next sequence number to accept, by queue; HEAD where a queue is not listed. -/
  nexts : List (Nat × Word) := []
  /-- Ancestors of each record that glaunch appended: queue, sequence number, gangs. -/
  parents : List (Nat × Word × List Word) := []
  /-- Records that glaunch appended and that are not accepted. -/
  launches : List Launch := []
  deriving DecidableEq, Repr, Inhabited

/-- Who acts next: a hart, or another agent with one of its steps. The model's own type. Log 1 (DESIGN CHOICE). -/
inductive Turn where
  | hart (h : HartRef) | agent (i : Instr)
  deriving DecidableEq, Repr, Inhabited

/-- The state of the whole system. -/
structure State where
  /-- Memory by physical address, in ascending order; an unlisted byte is zero. -/
  mem : List Host.Cell := []
  /-- Poisoned 32-byte granules, in ascending order (R108). -/
  poison : List Nat := []
  /-- The hart whose turn it is, and every other hart. -/
  hart : Hart := {}
  others : List Hart := []
  /-- Harts that have ended, as gexit left their registers, until their partitions are placed anew (R183, R289). -/
  ended : List Hart := []
  cores : List Core := []
  pkgs : List Package := []
  tlb : List TlbEntry := []
  /-- The non-leaf entries of the TLBs. -/
  tables : List TableEntry := []
  waiters : List Waiter := []
  messages : List Message := []
  groups : List Group := []
  ops : List CollOp := []
  aborts : List AbortMsg := []
  enclaves : List Enclave := []
  orders : List Order := []
  /-- Number of the next message, post, request or saved frame. The model's own field. -/
  serial : Nat := 0
  vqFrames : List VqFrame := []
  hFrames : List HFrame := []
  /-- The model's own: which agent acts next. -/
  agenda : List Turn := []
  /-- Core clocks since machine start. -/
  clock : Nat := 0
  /-- The model's own: the number of the next free value. -/
  free : Nat := 0
  deriving DecidableEq, Repr, Inhabited

/-- The machine right after reset: no hart is placed, memory is wiped (R405, R413). -/
def State.reset : State := {}

end Sys2Proof.Machine
end

