-- ==== Sys2Proof/Machine/Ops.lean ====
section
/-! DEFINITION. The named operations over memory, registers, harts and accesses: bytes and poison,
the physical layout, translation (spec 18), the address checks (05 R88), taint and tags (06), the
accesses in flight (06 R113 to R128), taking a trap and returning (17 R330, R336). -/

namespace Sys2Proof.Machine

/-! ### Bytes -/

/-- The byte at a physical address; an unlisted byte is zero (R413). Log 5 (DEDUCED), 17 (DESIGN CHOICE). -/
def readByte : List Host.Cell → Nat → Byte
  | [], _ => 0
  | (a, b) :: r, x => if a = x then b else if x < a then 0 else readByte r x

/-- Write a byte; a zero byte is not listed. -/
def writeByte : List Host.Cell → Nat → Byte → List Host.Cell
  | [], x, b => if b = 0 then [] else [(x, b)]
  | (a, c) :: r, x, b =>
    if a = x then (if b = 0 then r else (x, b) :: r)
    else if x < a then (if b = 0 then (a, c) :: r else (x, b) :: (a, c) :: r)
    else (a, c) :: writeByte r x b

/-- The canonical form: addresses rise strictly from `lo`, and no listed byte is zero. -/
def wfFrom : Nat → List Host.Cell → Bool
  | _, [] => true
  | lo, (a, b) :: r => decide (lo ≤ a) && b != 0 && wfFrom (a + 1) r

/-- The canonical form of memory. Log 3 (DESIGN CHOICE). -/
def Memory.wf (m : List Host.Cell) : Bool := wfFrom 0 m

/-- n bytes from an address, little-endian (R2). -/
def readN (m : List Host.Cell) (a : Nat) : Nat → Nat
  | 0 => 0
  | n + 1 => (readByte m a).toNat + 256 * readN m (a + 1) n

/-- Write n bytes, little-endian. -/
def writeN (m : List Host.Cell) (a : Nat) : Nat → Nat → List Host.Cell
  | 0, _ => m
  | n + 1, v => writeN (writeByte m a (BitVec.ofNat 8 v)) (a + 1) n (v / 256)

def readQuad (m : List Host.Cell) (a : Nat) : Quad := BitVec.ofNat 64 (readN m a 8)
def readWord (m : List Host.Cell) (a : Nat) : Word := BitVec.ofNat 32 (readN m a 4)
def writeQuad (m : List Host.Cell) (a : Nat) (v : Quad) : List Host.Cell := writeN m a 8 v.toNat

/-- The number whose little-endian bytes are given. -/
def byteNat (l : List Byte) : Nat := l.foldr (fun b acc => b.toNat + 256 * acc) 0

/-- n quads from an address. -/
def readQuads (m : List Host.Cell) (a n : Nat) : List Quad :=
  (List.range n).map fun i => readQuad m (a + 8 * i)

def writeQuads (m : List Host.Cell) (a : Nat) : List Quad → List Host.Cell
  | [] => m
  | q :: r => writeQuads (writeQuad m a q) (a + 8) r

/-- Drop every listed byte of [lo, lo + n): the range then reads zero. -/
def wipeRange (m : List Host.Cell) (lo n : Nat) : List Host.Cell :=
  m.filter fun c => decide (c.1 < lo ∨ lo + n ≤ c.1)

/-- A strictly rising list of numbers: insert and remove. -/
def insertNat : List Nat → Nat → List Nat
  | [], x => [x]
  | a :: r, x => if a = x then a :: r else if x < a then x :: a :: r else a :: insertNat r x

def removeNat (l : List Nat) (x : Nat) : List Nat := l.filter (· != x)

/-- A number in an association list, or a default. -/
def assocGet {α : Type} (l : List (Nat × α)) (k : Nat) (d : α) : α :=
  match l.find? (·.1 == k) with
  | some p => p.2
  | none => d

def assocSet {α : Type} (l : List (Nat × α)) (k : Nat) (v : α) : List (Nat × α) :=
  (k, v) :: l.filter (·.1 != k)

def assocDel {α : Type} (l : List (Nat × α)) (k : Nat) : List (Nat × α) := l.filter (·.1 != k)

/-! ### The physical layout (the model's numbering of R10's places) -/

def hbmKey (pkg die off : Nat) : Nat := pkg * 2 ^ 53 + die * 2 ^ 51 + off
def vaultKey (pkg die core off : Nat) : Nat :=
  2 ^ 61 + pkg * 2 ^ 53 + die * 2 ^ 51 + core * 2 ^ 44 + off
def hostKey (pkg addr : Nat) : Nat := 3 * 2 ^ 61 + pkg * 2 ^ 48 + addr

/-- The granule of a physical address (R108). -/
def granule (a : Nat) : Nat := a / 32
/-- The 64-byte line of a physical address. -/
def lineOf (a : Nat) : Nat := a / 64

/-! ### Places of a hart (R10, R57) -/

def HartRef.die (r : HartRef) : Nat := r.hid / 768
def HartRef.core (r : HartRef) : Nat := r.hid % 768 / 8
def HartRef.part (r : HartRef) : Nat := r.hid % 8

def Hart.pkg (h : Hart) : Nat := h.ref.pkg
def Hart.die (h : Hart) : Nat := HartRef.die h.ref
def Hart.core (h : Hart) : Nat := HartRef.core h.ref
def Hart.asid (h : Hart) : BitVec 16 := h.sup.asid

/-! ### Finding and updating parts of the state -/

def State.setHart (s : State) (h : Hart) : State := { s with hart := h }

def State.mapHart (s : State) (f : Hart → Hart) : State := { s with hart := f s.hart }

def emptyCore (pkg die core : Nat) : Core := { pkg := pkg, die := die, core := core }

def State.core (s : State) (pkg die core : Nat) : Core :=
  match s.cores.find? (fun c => c.pkg == pkg && c.die == die && c.core == core) with
  | some c => c
  | none => emptyCore pkg die core

def State.setCore (s : State) (c : Core) : State :=
  let rest := s.cores.filter fun d => !(d.pkg == c.pkg && d.die == c.die && d.core == c.core)
  { s with cores := c :: rest }

def State.pack (s : State) (pkg : Nat) : Package :=
  match s.pkgs.find? (·.pkg == pkg) with
  | some p => p
  | none => { pkg := pkg }

def State.setPack (s : State) (p : Package) : State :=
  { s with pkgs := p :: s.pkgs.filter (·.pkg != p.pkg) }

/-- Every placed hart. -/
def State.harts (s : State) : List Hart :=
  if s.hart.status = .vacant then s.others else s.hart :: s.others

def State.findHart (s : State) (r : HartRef) : Option Hart := s.harts.find? (·.ref == r)

/-- Change the hart of that name, if it is placed. -/
def State.onHart (s : State) (r : HartRef) (f : Hart → Hart) : State :=
  if s.hart.ref = r ∧ s.hart.status ≠ .vacant then { s with hart := f s.hart }
  else { s with others := s.others.map fun h => if h.ref = r then f h else h }

/-- Make a placed hart the one whose turn it is. -/
def State.focus (s : State) (r : HartRef) : State :=
  if s.hart.ref = r ∧ s.hart.status ≠ .vacant then s
  else
    match s.others.find? (·.ref == r) with
    | none => s
    | some h => { s with hart := h, others := (s.harts).filter (·.ref != r) }

/-- Do something with a placed hart as the one whose turn it is; nothing where it is not placed. -/
def State.withHart (s : State) (r : HartRef) (f : State → State) : State :=
  if (s.harts.find? (·.ref == r)).isNone then s
  else
    let was := s.hart.ref
    (f (s.focus r)).focus was

/-- Whether the hart of that name is placed. -/
def State.placed (s : State) (r : HartRef) : Bool := (s.findHart r).isSome

/-- Draw the number of a free value. Log 2 (DESIGN CHOICE). -/
def State.drawn (s : State) : State := { s with free := s.free + 1 }

/-! ### The bring-up block and the tables it names (R405) -/

/-- A quad of the bring-up block; one that nothing has written since the part was made reads as its Reset column says
(R5, R405). -/
def State.block (s : State) (pkg quad : Nat) : Quad :=
  let p := s.pack pkg
  let q := assocGet p.block quad (if quad = 10 then 0x320000007D0 else 0)
  if quad = 0 then (p.huane.lcs.setWidth 64 <<< 4) ||| q else q

/-- STATE of the block is 4: the part runs with the bases that passed (R406). -/
def State.partRuns (s : State) (pkg : Nat) : Bool := fieldOf (s.block pkg 0) 0 4 == 4

/-- The physical base that a quad of the block names; none until the part runs. -/
def State.blockBase (s : State) (pkg quad : Nat) : Option Nat :=
  let q := s.block pkg quad
  if s.partRuns pkg then some (hbmKey pkg (fieldOf q 37 2) (fieldOf q 0 37)) else none

/-- The translation region of a die (R405). -/
def State.xlat (s : State) (pkg die : Nat) : Nat := hbmKey pkg die (fieldOf (s.block pkg (4 + die)) 0 37)

/-- Address of RT[asid] (R354, R405). -/
def State.rootAddr (s : State) (pkg die : Nat) (asid : BitVec 16) : Nat :=
  s.xlat pkg die + 0x10000 + 8 * asid.toNat

/-- A quad of the fabric region of a package (R380); zero while it has none. -/
def State.fabricQuad (s : State) (pkg off : Nat) : Quad :=
  match s.blockBase pkg 2 with
  | none => 0
  | some b => readQuad s.mem (b + off)

/-! ### The Access columns of the register blocks that lie in memory (R4) -/

/-- What a write can do to a quad of a register block: the bits it sets, and the bits that a written 1 clears. Every other
bit is read-only, or a reserved one that reads zero. -/
structure Fields where
  rw : Quad := 0
  w1c : Quad := 0
  deriving DecidableEq, Repr

/-- A quad that holds no read-only, reserved or write-1-to-clear field. -/
def Fields.all : Fields := { rw := 0xFFFFFFFFFFFFFFFF }

/-- The fault ring and machine-check ring control blocks (R358, R420). -/
def ringFields : Nat → Fields
  | 0 => { rw := 0x1FFFFFFFFF } | 1 => { rw := 0x1F } | 2 => { rw := 0xFFFFFFFF } | _ => {}

/-- The scheduler tables: header, core table, context blocks, queue descriptors (R363 to R365). -/
def schedFields (q : Nat) (dev : Bool) : Fields :=
  if q = 0 then { rw := 0xF }
  else if q < 8 then Fields.all
  else if q < 56 then { rw := 0x1F1F1F1F1F1F1F1F }
  else if q < 2104 then
    match (q - 56) % 8 with
    | 0 | 2 | 4 => Fields.all | 1 | 3 => { rw := 0xFFFF } | 5 => { rw := 1 } | _ => {}
  else
    match (q - 2104) % 8 with
    | 0 => Fields.all | 1 => { rw := 0x1FFFF0DF } | 3 => { rw := if dev then 0 else 0xFFFFFFFF } | 4 => { w1c := 1 } | _ => {}

/-- The fabric region: control header, receive-area bases, port plan, port status, routing table, slot table, group table
(R380, R384, R391, R395, R403). -/
def fabricFields (q : Nat) : Fields :=
  if q < 8 then
    match q with
    | 0 => { rw := 0xFFFFF } | 1 => { rw := 0xFFFF } | 2 => Fields.all | 3 => { rw := 0x3F } | 4 => { rw := 0x7F } | _ => {}
  else if q < 12 then { rw := 0x1FFFFF0000 }
  else if q < 32 then {}
  else if q < 112 then { rw := if q % 2 = 0 then 0x1FFFFFFFF else 0xFFFFFFFFF }
  else if q < 152 then { w1c := 1 }
  else if q < 256 then {}
  else if q < 511 then { rw := 0xFF87FF }
  else if q = 512 then { rw := 0xFFFFFFFFFFFFFC00 }
  else if q = 513 then { rw := 0xFFFFFFFF }
  else if q = 514 then { rw := 1, w1c := 4 }
  else if q < 520 then {}
  else if q < 1032 then { rw := if q % 2 = 0 then 0x7FFFFFFF else 0x3FFF3FFF3FFF3FFF }
  else if q < 2048 then {}
  else if q < 34816 then
    match q % 8 with
    | 0 | 2 | 3 | 4 => Fields.all | 1 => { rw := 0xFFFFFFFFFFF } | 5 => { rw := 0xFFFFFFFF } | _ => {}
  else {}

/-- A ring of the Huane mailbox: its control block, then its command slots (R409). -/
def mailboxFields (q : Nat) : Fields :=
  match q % 512 with
  | 0 => { rw := 0xFFFFFFFF } | 2 => { w1c := 1 } | 1 | 3 | 4 | 5 | 6 | 7 => {} | _ => Fields.all

/-- The quad of a block of n bytes in which an address lies. -/
def quadIn (base n x : Nat) : Option Nat := if base ≤ x ∧ x < base + n then some ((x - base) / 8) else none

/-- Where the scheduler tables begin that hold the quad of an address, and its number (R363). -/
def State.schedAt (s : State) (x : Nat) : Option (Nat × Nat) :=
  match s.blockBase (x / 2 ^ 53) 1 with
  | none => none
  | some b => (quadIn b 147904 x).map fun q => (b, q)

/-- The fields of the quad in which a physical address lies (R4, R405). Log 102 (DEDUCED). -/
def State.fieldsAt (s : State) (x : Nat) : Fields :=
  let pkg := x / 2 ^ 53
  if 256 ≤ pkg ∨ !s.partRuns pkg then Fields.all
  else
    let at_ := fun quad n => quadIn ((s.blockBase pkg quad).getD 0) n x
    match (List.range 4).findSome? fun die => quadIn (s.xlat pkg die) 64 x with
    | some q => ringFields q
    | none =>
      match s.schedAt x, at_ 2 524288, at_ 3 64, at_ 8 69632 with
      | some (b, q), _, _, _ => schedFields q (bitOf (readQuad s.mem (b + 8 * (q / 8 * 8) + 8)) 7)
      | none, some q, _, _ => fabricFields q
      | none, none, some q, _ => ringFields q
      | none, none, none, some q => mailboxFields q
      | none, none, none, none => Fields.all

/-- What the byte at an address holds after a write of b. -/
def State.heldByte (s : State) (x : Nat) (b : Byte) : Byte :=
  let f := s.fieldsAt x
  let part := fun q : Quad => q.extractLsb' (8 * (x % 8)) 8
  let old := readByte s.mem x
  (b &&& part f.rw) ||| (old &&& ~~~part f.rw &&& ~~~(b &&& part f.w1c))

/-- What n bytes hold after a write of v. -/
def State.held (s : State) (a : Nat) : Nat → Nat → Nat
  | 0, _ => 0
  | n + 1, v => (s.heldByte a (BitVec.ofNat 8 v)).toNat + 256 * s.held (a + 1) n (v / 256)

/-- A written TAIL of the queue descriptor at an address: one that fails is ignored, and BADTAIL is set (R366). -/
def State.tailWritten (s : State) (mem : List Host.Cell) (d : Nat) : List Host.Cell :=
  let c := readQuad s.mem (d + 8)
  let tail := readWord s.mem (d + 24)
  let new := readWord mem (d + 24)
  if bitOf c 7 ∨ ((new - readWord s.mem (d + 16)).toNat ≤ 2 ^ fieldOf c 0 5 ∧ (new - tail).toNat < 2 ^ 31) then mem
  else writeQuad (writeN mem (d + 24) 4 tail.toNat) (d + 32) (readQuad mem (d + 32) ||| 1)

/-- The queue descriptors of whose TAIL a write of n bytes at an address has a byte. -/
def State.tailsIn (s : State) (a n : Nat) : List Nat :=
  if 256 ≤ a / 2 ^ 53 then []
  else
    match s.blockBase (a / 2 ^ 53) 1 with
    | none => []
    | some b =>
      let b := b + 16832
      if b + 131072 ≤ a ∨ a + n ≤ b then []
      else
        ((List.range (n / 64 + 2)).map fun i => b + 64 * ((a - b) / 64 + i)).filter fun d =>
          decide (d < b + 131072 ∧ a < d + 28 ∧ d + 24 < a + n)

/-- A write of n bytes at a physical address, by whatever reaches it as memory: plain memory takes the bytes, a register
block what its Access column lets through (R4, R366). -/
def State.put (s : State) (a n v : Nat) : List Host.Cell :=
  (s.tailsIn a n).foldl s.tailWritten (writeN s.mem a n (s.held a n v))

/-- Write quads one after another. -/
def State.putQuads (s : State) (a : Nat) : List Quad → State
  | [] => s
  | q :: r => State.putQuads { s with mem := s.put a 8 q.toNat } (a + 8) r

/-- Zero n bytes as writes of zeros do. -/
def State.zeroed (s : State) (lo n : Nat) : List Host.Cell :=
  (s.tailsIn lo n).foldl s.tailWritten (s.mem.filterMap fun c =>
    if c.1 < lo ∨ lo + n ≤ c.1 then some c
    else
      let b := s.heldByte c.1 0
      if b = 0 then none else some (c.1, b))

/-- MODE of the routing entry of a package is not 0 (R384). -/
def State.routed (s : State) (own p : Nat) : Bool :=
  decide (p < 255) && (s.fabricQuad own (0x800 + 8 * p)).extractLsb' 0 2 != 0#2

/-- Ports and colours that carry a direct path from pod position a to position b (R382). -/
def podColours (a b : Nat) : List (Nat × Nat) :=
  let o := (b + 64 - a) % 64
  if o = 0 then []
  else (List.range 6).map fun m => let k := o - 1 + 63 * m; (k / 16, k % 16)

def State.routeQuad (s : State) (pkg p : Nat) : Quad := s.fabricQuad pkg (0x800 + 8 * p)

/-- The pod position of a package in its own table. -/
def State.ownPosition (s : State) (pkg : Nat) : Nat := fieldOf (s.routeQuad pkg pkg) 2 6

/-- The TRUNK bit in force of a port (R386). -/
def Package.trunk (p : Package) (port : Nat) : Bool := assocGet p.trunks port false

/-- Colours on which a package sends to another directly, or on which it receives from it: those of the pod's routers, or
those of a trunk that is in force; none where its entry is not of MODE 2 (R382, R384, R386). -/
def State.pairColours (s : State) (pkg dest : Nat) (out : Bool) : List (Nat × Nat) :=
  let q := s.routeQuad pkg dest
  let port := 24 + fieldOf q 8 3
  if 255 ≤ dest ∨ fieldOf q 0 2 ≠ 2 then []
  else if bitOf q 15 then
    if (s.pack pkg).trunk port then (List.range 16).map fun c => (port, c) else []
  else if out then podColours (s.ownPosition pkg) (fieldOf q 2 6)
  else podColours (fieldOf q 2 6) (s.ownPosition pkg)

/-- The colours of one hop. -/
def State.hopLanes (s : State) (pkg dest : Nat) : List Lane :=
  (s.pairColours pkg dest true).map fun x => ⟨pkg, x.1, x.2⟩

/-- The colours of the path that a packet to a package takes: of its own direct entry, or of the entry for the relay and of
the relay's own direct entry (R384). -/
def State.pathLanes (s : State) (pkg dest : Nat) : List Lane :=
  let q := s.routeQuad pkg dest
  let relay := fieldOf q 16 8
  if 255 ≤ dest then []
  else if fieldOf q 0 2 = 3 then s.hopLanes pkg relay ++ s.hopLanes relay dest
  else s.hopLanes pkg dest

/-! ### Partitions and enclaves (R410, R412) -/

/-- A resource list holds number n of a type. -/
def holds (rs : List Resource) (type n : Nat) : Bool :=
  rs.any fun r => r.type == type && decide (r.first ≤ n) && decide (n < r.first + r.count)

/-- The partition of a package that owns an asid. -/
def State.partitionOf (s : State) (pkg : Nat) (asid : BitVec 16) : Option Partition :=
  (s.pack pkg).huane.partitions.find? fun p => holds p.resources 0 asid.toNat

/-- The host function whose partition owns an asid: PF 0 where none does (R421). -/
def State.functionOf (s : State) (pkg : Nat) (asid : BitVec 16) : Nat := (s.partitionOf pkg asid).elim 0 (·.function)

/-- Host memory that a function of a package reaches at a bus address. Log 142 (DESIGN CHOICE). -/
def hostPhys (pkg f addr : Nat) : Nat := hostKey pkg (Config.hostPage pkg f (addr / 4096) % 2 ^ 36 * 4096 + addr % 4096)

/-- The enclave to which an asid of a package belongs, and its member index. -/
def State.memberOf (s : State) (pkg : Nat) (asid : BitVec 16) : Option (Enclave × Nat) :=
  match s.partitionOf pkg asid with
  | none => none
  | some p =>
    match s.enclaves.find? (fun e => e.members.any fun m => m.2.1 == pkg && m.2.2 == p.id) with
    | none => none
    | some e => (e.members.find? fun m => m.2.1 == pkg && m.2.2 == p.id).map fun m => (e, m.1)

/-- The sender was a member whose keys the receiving package has dropped (R411). -/
def State.keyDropped (s : State) (pkg : Nat) (o : Option (Quad × Nat)) : Bool :=
  match o with
  | none => false
  | some x => (s.pack pkg).huane.applied.any fun a => a.enclave == x.1 && a.member == x.2

/-! ### Traps -/

/-- What trap entry writes (R327, R330 to R332); `tpc` none stands for the pc of the hart. -/
structure Trap where
  cause : Byte
  tinfo : Quad := 0
  telem : Quad := 0
  prec : Bool := true
  eng : Bool := false
  tvpc : Quad := 0
  tpc : Option Quad := none
  deriving DecidableEq, Repr

/-- Why an instruction does not go on to the next. -/
inductive Stop where
  /-- A trap, with the state in which it is taken. -/
  | trap (t : Trap) (s : State)
  /-- The hart waits and executes the instruction again (R45). -/
  | hold (w : Wait)
  | fault (f : Fault)
  deriving Repr

/-- A trap whose tinfo is the instruction word (R331). -/
def insnTrap (s : State) (cause : Byte) : Stop :=
  .trap { cause := cause, tinfo := s.hart.ir } s

/-- A trap whose tinfo is an address. -/
def addrTrap (s : State) (cause : Byte) (a : Quad) : Stop :=
  .trap { cause := cause, tinfo := a } s

def illegal (s : State) : Stop := insnTrap s 0x01

/-! ### Waking parked harts (R39, R173) -/

/-- Give a parked hart its code; it resumes when its quota is free. -/
def Hart.wake (code : Quad) (h : Hart) : Hart :=
  match h.status with
  | .parked why d none => { h with status := .parked why d (some code) }
  | _ => h

/-- Wake up to n waiters of a line, oldest first, all when n is 0; the number woken. -/
def State.wakeLine (s : State) (line n : Nat) : State × Nat :=
  let mine := s.waiters.filter (·.line == line)
  let chosen := if n = 0 then mine else mine.take n
  let s' := { s with waiters := s.waiters.filter fun w => !chosen.any (fun c => c.hart == w.hart) }
  (chosen.foldl (fun t w => t.onHart w.hart (Hart.wake 0)) s', chosen.length)

/-! ### Translation (R350 to R355) -/

/-- What an access needs of a page (R353), and its code in the fault ring (R358). -/
inductive AccKind where
  | read | write | atomic | fetch | engRead | engWrite
  deriving DecidableEq, Repr

def AccKind.code : AccKind → Nat
  | .read => 0 | .write => 1 | .atomic => 2 | .fetch => 3 | .engRead => 4 | .engWrite => 5

def AccKind.writes : AccKind → Bool
  | .write | .engWrite => true | _ => false

def AccKind.reads : AccKind → Bool
  | .read | .atomic | .engRead | .fetch => true | _ => false

def Leaf.allows (l : Leaf) : AccKind → Bool
  | .read | .engRead => l.r
  | .write | .engWrite => l.w
  | .atomic => l.r && l.w && l.a
  | .fetch => l.x

/-- Offset bits that index a level, and its page size (R350). -/
def levelIndex (level off : Nat) : Nat :=
  match level with
  | 0 => off / 2 ^ 39 % 8 | 1 => off / 2 ^ 30 % 512 | 2 => off / 2 ^ 21 % 512 | _ => off / 2 ^ 16 % 32

def levelSize (level : Nat) : Nat :=
  match level with
  | 1 => 2 ^ 30 | 2 => 2 ^ 21 | _ => 2 ^ 16

/-- Alignment of the table of a level (R350). -/
def levelAlign (level : Nat) : Nat :=
  match level with
  | 1 | 2 => 4096 | _ => 256

/-- What a walk ends with: a leaf and its page size, or the level of a fault (R352). -/
inductive WalkResult where
  | leaf (l : Leaf) (size : Nat)
  | absent (level : Nat)
  | beyond (addr : Nat)
  deriving DecidableEq, Repr

def leafOf (e : Quad) : Leaf :=
  { pa := fieldOf e 16 21 * 2 ^ 16, chan := fieldOf e 7 9, x := bitOf e 5, a := bitOf e 4, w := bitOf e 3,
    r := bitOf e 2 }

/-- Walk from a level's table on, one call a level (R352). -/
def walkFrom (mem : List Host.Cell) (pkg die off : Nat) : List Nat → Nat → WalkResult
  | [], _ => .absent 3
  | level :: rest, table =>
    let at_ := table + 8 * levelIndex level off
    if Config.hbmBytes ≤ at_ then .beyond (hbmKey pkg die at_)
    else
      let e := readQuad mem (hbmKey pkg die at_)
      if !bitOf e 0 then .absent level
      else if bitOf e 1 then
        let l := leafOf e
        if level = 0 ∨ fieldOf e 37 27 ≠ 0 ∨ bitOf e 6 ∨ l.pa % levelSize level ≠ 0
            ∨ Config.hbmBytes < l.pa + levelSize level then .absent level
        else .leaf l (levelSize level)
      else
        let next := fieldOf e 8 29 * 2 ^ 8
        if level = 3 ∨ fieldOf e 37 27 ≠ 0 ∨ fieldOf e 2 6 ≠ 0 ∨ next % levelAlign (level + 1) ≠ 0 then
          .absent level
        else walkFrom mem pkg die off rest next

/-- The walk of an offset for an asid on a die (R352). Log 8 (DESIGN CHOICE). -/
def State.walk (s : State) (pkg die : Nat) (asid : BitVec 16) (off : Nat) : WalkResult :=
  let t := (readQuad s.mem (s.rootAddr pkg die asid)).toNat
  if t = 0 then .absent 0 else walkFrom s.mem pkg die off [0, 1, 2, 3] t

/-- Size of the region that an entry of a level maps (R350). -/
def regionSize (level : Nat) : Nat := if level = 0 then 2 ^ 39 else levelSize level

/-- The tables that a walk from a level's table on reads through: the level of each, and its address. -/
def tablesFrom (mem : List Host.Cell) (pkg die off : Nat) : List Nat → Nat → List (Nat × Nat)
  | [], _ => []
  | level :: rest, table =>
    let e := readQuad mem (hbmKey pkg die (table + 8 * levelIndex level off))
    let next := fieldOf e 8 29 * 2 ^ 8
    if !bitOf e 0 ∨ bitOf e 1 ∨ level = 3 ∨ fieldOf e 37 27 ≠ 0 ∨ fieldOf e 2 6 ≠ 0 ∨ next % levelAlign (level + 1) ≠ 0 then []
    else (level + 1, next) :: tablesFrom mem pkg die off rest next

/-- The deepest table that the TLBs of a core, or of its die, hold for an offset (R355). -/
def State.cachedTable (s : State) (pkg die : Nat) (core : Option Nat) (asid : BitVec 16) (off : Nat) : Option TableEntry :=
  s.tables.foldl (fun acc e =>
    if e.pkg = pkg ∧ e.die = die ∧ (e.core = none ∨ e.core = core) ∧ e.asid = asid ∧ e.page ≤ off ∧ off < e.page + e.size then
      (match acc with
        | some x => if x.level < e.level then some e else acc
        | none => some e)
    else acc) none

/-- A walk that starts at the deepest table that is cached; one that ends in a fault there walks again, ignoring what is
cached (R355). -/
def State.walkCached (s : State) (pkg die : Nat) (core : Option Nat) (asid : BitVec 16) (off : Nat) : WalkResult :=
  match s.cachedTable pkg die core asid off with
  | none => s.walk pkg die asid off
  | some e =>
    match walkFrom s.mem pkg die off ((List.range 4).drop e.level) e.table with
    | .leaf l size => .leaf l size
    | _ => s.walk pkg die asid off

/-- Entries of a TLB (R355). -/
def tlbEntries (core : Option Nat) : Nat :=
  match core with
  | some _ => 2048 | none => 32768

/-- Fill a TLB with a leaf; the entries of the same pages go, and the oldest where it is full. -/
def State.fillTlb (s : State) (w : WalkReq) (l : Leaf) (size : Nat) : State :=
  let page := w.offset - w.offset % size
  let asid := BitVec.ofNat 16 w.asid
  let same := fun (e : TlbEntry) => e.pkg == w.pkg && e.die == w.die && e.core == w.core
  let keep := s.tlb.filter fun e => !(same e && e.asid == asid && decide (e.page < page + size ∧ page < e.page + e.size))
  let new : TlbEntry := { pkg := w.pkg, die := w.die, core := w.core, asid := asid, page := page, size := size, leaf := l }
  let mine := new :: keep.filter same
  { s with tlb := mine.take (tlbEntries w.core) ++ keep.filter fun e => !same e }

/-- The tables that a walk reads through, from the one at which it starts (R355). -/
def State.tablesRead (s : State) (pkg die : Nat) (core : Option Nat) (asid : BitVec 16) (off : Nat) : List (Nat × Nat) :=
  let root := (readQuad s.mem (s.rootAddr pkg die asid)).toNat
  let whole := if root = 0 then [] else tablesFrom s.mem pkg die off [0, 1, 2, 3] root
  match s.cachedTable pkg die core asid off with
  | none => whole
  | some e =>
    let levels := (List.range 4).drop e.level
    match walkFrom s.mem pkg die off levels e.table with
    | .leaf .. => tablesFrom s.mem pkg die off levels e.table
    | _ => whole

/-- A TLB keeps the tables that a walk has read through (R355), as many at most as it holds leaves. Log 49 (DESIGN CHOICE). -/
def State.fillTables (s : State) (w : WalkReq) : State :=
  let asid := BitVec.ofNat 16 w.asid
  let new := (s.tablesRead w.pkg w.die w.core asid w.offset).map fun x =>
    let size := regionSize (x.1 - 1)
    ({ pkg := w.pkg, die := w.die, core := w.core, asid := asid, level := x.1, page := w.offset - w.offset % size, size := size,
       table := x.2 } : TableEntry)
  let same := fun (e : TableEntry) => e.pkg == w.pkg && e.die == w.die && e.core == w.core
  let keep := s.tables.filter fun e => !new.any fun x => same e && e.asid == asid && e.level == x.level && e.page == x.page
  { s with tables := (new ++ keep.filter same).take (tlbEntries w.core) ++ keep.filter fun e => !same e }

/-- A check that failed: the cause, tinfo, and for the causes that the home die records, the die
and the walk level (R357, R358). -/
structure Fail where
  cause : Byte
  tinfo : Quad
  home : Option (Nat × Nat × Nat) := none
  deriving DecidableEq, Repr

/-- An entry of a TLB that holds the page of an offset. -/
def TlbEntry.serves (e : TlbEntry) (pkg die : Nat) (asid : BitVec 16) (off : Nat) : Bool :=
  e.pkg == pkg && e.die == die && e.asid == asid && decide (e.page ≤ off) && decide (off < e.page + e.size)

/-- The cached translation that serves an access: the core's TLB on the core's own die, then the die's TLB
(R349). -/
def State.tlbLookup (s : State) (h : Hart) (pkg die : Nat) (asid : BitVec 16) (off : Nat) : Option TlbEntry :=
  let own := if h.pkg = pkg ∧ h.die = die then
      s.tlb.find? fun e => e.serves pkg die asid off && e.core == some h.core
    else none
  match own with
  | some e => some e
  | none => s.tlb.find? fun e => e.serves pkg die asid off && e.core.isNone

/-- Translate an offset of a die: the die-local physical address, and the page (R352, R353, R355). A cached
entry serves only when it permits the access; otherwise the tables are walked. Log 49 (DESIGN CHOICE). -/
def State.translate (s : State) (h : Hart) (pkg die : Nat) (asid : BitVec 16) (off chan : Nat)
    (k : AccKind) (a : Quad) : Except (Fail ⊕ Fault) (Nat × Nat × Nat) :=
  let ok := fun (l : Leaf) => l.allows k && l.chan == chan
  let again : Except (Fail ⊕ Fault) (Nat × Nat × Nat) :=
    match s.walk pkg die asid off with
    | .leaf l size =>
      if ok l then .ok (l.pa + off % size, off - off % size, size)
      else .error (.inl ⟨0x09, a, some (pkg, die, if size = 2 ^ 30 then 1 else if size = 2 ^ 21 then 2 else 3)⟩)
    | .absent level => .error (.inl ⟨0x08, a, some (pkg, die, level)⟩)
    | .beyond x => .error (.inr (.noMemory x))
  let own := if h.pkg = pkg ∧ h.die = die then some h.core else none
  let slow := match s.walkCached pkg die own asid off with
    | .leaf l size => if ok l then .ok (l.pa + off % size, off - off % size, size) else again
    | _ => again
  match s.tlbLookup h pkg die asid off with
  | some e => if ok e.leaf then .ok (e.leaf.pa + (off - e.page), e.page, e.size) else slow
  | none => slow

/-! ### The address checks (R84 to R93) -/

/-- Where an access goes. -/
structure Loc where
  phys : Nat
  /-- The address that the program used. -/
  shown : Quad := 0
  slice : Slice
  /-- The window slot, for an aperture read. -/
  slot : Option Nat := none
  /-- Asid and page it was translated with. -/
  via : Option (BitVec 16 × Nat × Nat) := none
  deriving DecidableEq, Repr

/-- The restriction an instruction puts on its space (check 7 of R88). -/
inductive SpaceRule where
  /-- Any space of R88; writes and atomics to an aperture trap, atomics to host memory trap. -/
  | any
  /-- Own-package PGAS memory and vaults only: ldc, launch records, save areas (R98, R178, R337). -/
  | own
  /-- PGAS memory and vaults of any package (R172). -/
  | home
  deriving DecidableEq, Repr

/-- The package that a package field names (R85, R90). -/
def pkgOf (own field : Nat) : Nat := if field = 0xFF then own else field

def State.pkgPresent (s : State) (own field : Nat) : Bool := field == 0xFF || s.routed own field

/-- Units of a vault carved for the Sieve (R105). -/
def Core.sieveUnits (c : Core) : Nat := (16 * c.sieve + 65535) / 65536

/-- The asid that holds a vault unit may reach it, unless the unit is the Sieve's (R93). -/
def Core.vaultAllows (c : Core) (asid : BitVec 16) (off : Nat) : Bool :=
  let u := off / 65536
  decide (u < 48 - c.sieveUnits) && c.units.any (fun p => p.1 == u && p.2 == asid)

/-- The slice of a physical address (R115); a die has home slices 0 to 47 (R95). -/
def State.sliceOf (own pkg die : Nat) (vaultCore : Option Nat) (phys : Nat) : Slice :=
  if pkg ≠ own then .remote pkg die
  else match vaultCore with
    | some c => .vault die c
    | none => .l2 die (Config.l2Slice (lineOf phys) % 48)

/-- Memory of an enclave's asid is reachable only by harts of the enclave (R410). Log 103 (DEDUCED). -/
def State.enclaveOk (s : State) (own pkg : Nat) (asid : BitVec 16) : Bool :=
  pkg == own || (match s.memberOf pkg asid with
    | none => true
    | some e => (s.memberOf own asid).any fun x => x.1.id == e.1.id)

/-- Checks 1 to 6 on a PGAS or vault address, then the space rule, then the home's checks 8 and 9.
`shown` is the address that tinfo reports. Log 45 (DEDUCED). -/
def State.locate (s : State) (h : Hart) (asid : BitVec 16) (a shown : Quad) (align : Nat) (k : AccKind)
    (rule : SpaceRule) : Except (Fail ⊕ Fault) Loc :=
  let own := h.pkg
  let fail := fun (c : Byte) => (Except.error (.inl ⟨c, shown, none⟩) : Except (Fail ⊕ Fault) Loc)
  let pf := fieldOf a 53 8
  let die := fieldOf a 51 2
  let pkg := pkgOf own pf
  if fieldOf a 61 3 = 0 then
    let chan := fieldOf a 42 9
    if 256 < chan ∨ !s.pkgPresent own pf then fail 0x07
    else if a.toNat % align ≠ 0 then fail 0x06
    else if rule = .own ∧ pkg ≠ own then fail 0x07
    else if !s.enclaveOk own pkg asid then .error (.inl ⟨0x09, shown, some (pkg, die, 0)⟩)
    else
      match s.translate h pkg die asid (fieldOf a 0 42) chan k shown with
      | .error e => .error e
      | .ok (pa, page, size) =>
        let phys := hbmKey pkg die pa
        .ok { phys := phys, shown := shown, slice := State.sliceOf own pkg die none phys, via := some (asid, page, size) }
  else if fieldOf a 61 3 ≠ 1 then fail 0x07
  else
    let cf := fieldOf a 44 7
    let off := fieldOf a 0 22
    let ownForm := cf = 0x7F
    let die := if ownForm then h.die else die
    let core := if ownForm then h.core else cf
    if !s.pkgPresent own pf ∨ (96 ≤ cf ∧ cf ≤ 126) ∨ (ownForm ∧ pf ≠ 0xFF) ∨ fieldOf a 22 22 ≠ 0
        ∨ Config.vaultBytes ≤ off then fail 0x07
    else if a.toNat % align ≠ 0 then fail 0x06
    else if rule = .own ∧ pkg ≠ own then fail 0x07
    else if !(s.core pkg die core).vaultAllows asid off ∨ !s.enclaveOk own pkg asid then
      .error (.inl ⟨0x09, shown, some (pkg, die, 0)⟩)
    else
      let phys := vaultKey pkg die core off
      .ok { phys := phys, shown := shown, slice := State.sliceOf own pkg die (some core) phys }

/-- The checks of R88 in order, up to check 9. Log 23 (DESIGN CHOICE). -/
def State.check19 (s : State) (h : Hart) (asid : BitVec 16) (a : Quad) (align : Nat) (k : AccKind)
    (rule : SpaceRule) : Except (Fail ⊕ Fault) Loc :=
  let fail := fun (c : Byte) => (Except.error (.inl ⟨c, a, none⟩) : Except (Fail ⊕ Fault) Loc)
  match fieldOf a 61 3 with
  | 0 | 1 => s.locate h asid a a align k rule
  | 2 =>
    match h.windows[fieldOf a 56 5]! with
    | none => fail 0x07
    | some w =>
      if w.length.toNat ≤ fieldOf a 0 56 then fail 0x0A
      else if a.toNat % align ≠ 0 then fail 0x06
      else if rule = .own then fail 0x07
      else if k.writes ∨ k = .atomic then fail 0x09
      else if rule = .home then fail 0x09
      else
        match s.locate h asid (w.base + (a.extractLsb' 0 56).setWidth 64) a align k .any with
        | .ok l => .ok { l with slot := some (fieldOf a 56 5) }
        | .error e => .error e
  | 3 =>
    if fieldOf a 48 13 ≠ 0 then fail 0x07
    else if a.toNat % align ≠ 0 then fail 0x06
    else if k = .atomic ∨ rule ≠ .any then fail 0x07
    else if (match s.memberOf h.pkg asid with
        | some e => !e.1.hostio
        | none => false) then fail 0x09
    else .ok { phys := hostPhys h.pkg (s.functionOf h.pkg asid) (fieldOf a 0 48), shown := a, slice := .host }
  | _ => fail 0x07

def State.poisoned (s : State) (phys : Nat) : Bool := s.poison.contains (granule phys)

/-- An access of the hart that is not yet performed shares the granule of a physical address. -/
def Hart.touches (h : Hart) (phys : Nat) : Bool :=
  h.pend.any fun a => decide (granule a.addr ≤ granule phys ∧ granule phys ≤ granule (a.addr + a.size - 1))

/-- The checks of R88, all ten: check 10 is made on what the access reads; an engine goes on with poisoned data
(R111). Where an earlier access of the hart to the granule is still to be performed, the home makes check 10 when
it performs this one (`Hart.hitAt`). Log 120 (DEDUCED). -/
def State.check (s : State) (h : Hart) (asid : BitVec 16) (a : Quad) (align : Nat) (k : AccKind)
    (rule : SpaceRule) : Except (Fail ⊕ Fault) Loc :=
  match s.check19 h asid a align k rule with
  | .error e => .error e
  | .ok l =>
    if k.reads && k != .engRead && s.poisoned l.phys && !h.touches l.phys then .error (.inl ⟨0x0B, a, none⟩)
    else .ok l

/-! ### The fault ring (R357, R358) -/

/-- Append a 32-byte record to a ring whose control block is at `blk`: quads 0 to 4 hold the base,
the logarithm of the record count, HEAD, TAIL and DROPPED. Base 0 or a logarithm outside
[lo, hi] disables it. The base is a physical address of the die given. -/
def State.ringAppend (s : State) (blk base lo hi : Nat) (record : List Quad) : State :=
  let log2 := (readQuad s.mem (blk + 8)).toNat % 32
  let head := (readWord s.mem (blk + 16)).toNat
  let tail := (readWord s.mem (blk + 24)).toNat
  if base = 0 ∨ log2 < lo ∨ hi < log2 then s
  else
    let mem :=
      if (tail + 2 ^ 32 - head) % 2 ^ 32 = 2 ^ log2 then
        writeN s.mem (blk + 32) 4 (((readWord s.mem (blk + 32)).toNat + 1) % 2 ^ 32)
      else
        writeN (writeQuads s.mem (base + 32 * (tail % 2 ^ log2)) record) (blk + 24) 4 ((tail + 1) % 2 ^ 32)
    (State.wakeLine { s with mem := mem } (lineOf blk) 0).1

/-- The fault record of R358. -/
def faultRecord (h : Hart) (f : Fail) (level : Nat) (passed : Bool) (k : AccKind) (sdseq : Word) : List Quad :=
  [f.tinfo,
   BitVec.ofNat 64 (f.cause.toNat * 2 ^ 56 + level * 2 ^ 54 + (if passed then 2 ^ 53 else 0)
     + k.code * 2 ^ 49 + h.pkg % 256 * 2 ^ 28 + h.ref.hid % 4096 * 2 ^ 16 + h.asid.toNat),
   sdseq.setWidth 64, 0]

/-- What the home die records of a failed check (R357). -/
def State.logFail (s : State) (h : Hart) (f : Fail) (passed : Bool) (k : AccKind) : State :=
  match f.home with
  | none => s
  | some (pkg, die, level) =>
    if !s.partRuns pkg then s
    else
      let blk := s.xlat pkg die
      let ring := fieldOf (readQuad s.mem blk) 0 37
      s.ringAppend blk (if ring = 0 then 0 else hbmKey pkg die ring) 7 16
        (faultRecord h f level passed k (s.pack pkg).shootdown)

/-- The precise trap of a failed check. -/
def State.raise (s : State) (h : Hart) (k : AccKind) (e : Fail ⊕ Fault) : Stop :=
  match e with
  | .inr f => .fault f
  | .inl f => .trap { cause := f.cause, tinfo := f.tinfo } (s.logFail h f false k)

/-- Check an address of the hart whose turn it is, or trap. -/
def State.resolve (s : State) (a : Quad) (align : Nat) (k : AccKind) (rule : SpaceRule) : Except Stop Loc :=
  match s.check s.hart s.hart.asid a align k rule with
  | .ok l => .ok l
  | .error e => .error (s.raise s.hart k e)

/-! ### Scalar registers and taint (R46, R55) -/

def Hart.getS (h : Hart) (r : SReg) : Quad := if r = 0 then 0 else h.s[r.toNat]
def Hart.taintS (h : Hart) (r : SReg) : TaintSet := if r = 0 then 0 else h.st[r.toNat]

/-- Write an s register and its taint set; s0 discards both (R46). -/
def Hart.setS (h : Hart) (r : SReg) (v : Quad) (t : TaintSet) : Hart :=
  if r = 0 then h else { h with s := h.s.set r.toNat v, st := h.st.set r.toNat t }

/-- The taint of a mask register; m0's is empty. -/
def Hart.taintM (h : Hart) (m : MReg) : TaintSet := if m = 0 then 0 else h.m[m.toNat].taint

def Hart.addControl (h : Hart) (t : TaintSet) : Hart := { h with ct := h.ct ||| t }

def Hart.advance (h : Hart) (n : Nat) : Hart := { h with pc := h.pc + BitVec.ofNat 64 n }

/-- Keep only some tags in the taint sets that a queue entry captured. -/
def VecEnv.clear (e : VecEnv) (keep : TaintSet) : VecEnv :=
  { e with
    q := e.q.map (fun r => { r with taint := r.taint &&& keep }), ct := e.ct &&& keep,
    st := e.st.map (· &&& keep), vx := e.vx.map (· &&& keep), mx := e.mx.map (· &&& keep) }

/-- Clear tag t from every taint set of the hart (R128). -/
def Hart.clearTags (h : Hart) (gone : TaintSet) : Hart :=
  let keep := ~~~ gone
  { h with
    st := h.st.map (· &&& keep), ct := h.ct &&& keep,
    v := h.v.map (fun r => { r with taint := r.taint &&& keep }),
    m := h.m.map (fun r => { r with taint := r.taint &&& keep }),
    q := h.q.map (fun r => { r with taint := r.taint &&& keep }),
    pend := h.pend.map (fun a => { a with held := a.held &&& keep }),
    cmds := h.cmds.map (fun c => { c with held := c.held &&& keep }),
    frozen := h.frozen.map (fun e => { e with env := e.env.clear keep }),
    colls := h.colls.map (fun c => { c with env := c.env.clear keep }),
    tagBusy := h.tagBusy &&& keep }

/-- Bit t. -/
def tagBit (t : BitVec 4) : TaintSet := 1#16 <<< t.toNat

/-- The load with tag t is not yet performed (R124): it is in flight, a collective result that has not come, or an
entry of the queue that has not executed. Tag 0 covers the loads up to the last one that took it. -/
def Hart.tagPending (h : Hart) (t : BitVec 4) : Bool :=
  if t = 0 then
    h.pend.any (fun a => a.tag.isSome && decide (a.seq ≤ h.tag0Last)) || h.colls.any (fun c => decide (c.order ≤ h.tag0Last))
      || h.frozen.any (fun e => e.tag.isSome && decide (e.seq ≤ h.tag0Last))
  else h.pend.any (fun a => a.tag == some t) || h.colls.any (·.ltag == t) || h.frozen.any (·.tag == some t)

/-- The tags of a set whose loads are not yet performed. -/
def Hart.pendingOf (h : Hart) (set : TaintSet) : Bool :=
  (List.range 16).any fun t => bitOf set t && h.tagPending (BitVec.ofNat 4 t)

/-- Numbers of the instructions whose loads, not yet performed, a taint set names (R127). -/
def Hart.holders (h : Hart) (set : TaintSet) : List Nat :=
  let mine := fun (t : BitVec 4) (n : Nat) => bitOf set t.toNat || (bitOf set 0 && decide (n ≤ h.tag0Last))
  h.pend.filterMap (fun a => if a.tag.any (mine · a.seq) then some a.seq else none)
    ++ h.colls.filterMap (fun c => if mine c.ltag c.order then some c.order else none)
    ++ h.frozen.filterMap fun e => if e.tag.any (mine · e.seq) then some e.seq else none

/-- Outstanding tags whose loads are performed. -/
def Hart.retirable (h : Hart) : TaintSet :=
  (List.range 16).foldl (fun acc t =>
    if bitOf h.tagBusy t && !h.tagPending (BitVec.ofNat 4 t) then acc ||| tagBit (BitVec.ofNat 4 t) else acc) 0

/-- Retire every tag whose load is performed (R128). Log 24 (DESIGN CHOICE). -/
def Hart.retire (h : Hart) : Hart :=
  let gone := h.retirable
  if gone = 0 then h else h.clearTags gone

/-- Allocate a tag for the instruction numbered `seq`: the lowest free one of 1 to 15, else 0 (R124). An entry of the
queue has taken its tag when it issued. -/
def Hart.allocTag (h : Hart) : Hart × BitVec 4 :=
  match h.grant with
  | some t => (h, t)
  | none =>
    match (List.range 15).find? (fun i => !bitOf h.tagBusy (i + 1)) with
    | some i =>
      let t := BitVec.ofNat 4 (i + 1)
      ({ h with tagBusy := h.tagBusy ||| tagBit t }, t)
    | none => ({ h with tagBusy := h.tagBusy ||| 1, tag0Last := h.seq }, 0)

/-! ### Element containers (R47) -/

/-- Element i of a list of containers. -/
def elemAt (data : List Word) (wide : Bool) (i : Nat) : Quad :=
  if wide then (data.getD (2 * i + 1) 0) ++ (data.getD (2 * i) 0) else (data.getD i 0).setWidth 64

/-- Set container c, listing zeros before it where it lies past the end. -/
def setContainer : List Word → Nat → Word → List Word
  | [], 0, w => [w]
  | [], c + 1, w => 0 :: setContainer [] c w
  | _ :: r, 0, w => w :: r
  | x :: r, c + 1, w => x :: setContainer r c w

/-- Write element i of a list of containers. -/
def setElem (data : List Word) (wide : Bool) (i : Nat) (x : Quad) : List Word :=
  if wide then setContainer (setContainer data (2 * i) (x.setWidth 32)) (2 * i + 1) (x.extractLsb' 32 32)
  else setContainer data i (x.setWidth 32)

/-- Containers of one register: VLMAX x w (R47). -/
def Hart.regWords (h : Hart) : Nat := h.csr.vlmax.toNat * (if h.csr.w64 then 2 else 1)

/-- G of vtype (R26). -/
def Hart.group (h : Hart) : Nat := 2 ^ h.csr.gl.toNat

/-- The containers of the group that starts at a register, padded to full length. -/
def padTo (n : Nat) (l : List Word) : List Word := (l ++ List.replicate (n - l.length) 0).take n

def Hart.groupData (h : Hart) (r : VReg) : List Word :=
  match h.group with
  | 1 => h.v[r.toNat].data
  | g => (List.range g).flatMap fun i => padTo h.regWords (h.v[(r.toNat + i) % 64]!).data

/-- Write the containers of a group, keeping tags and taint. -/
def Hart.setGroupData (h : Hart) (r : VReg) (data : List Word) : Hart :=
  match h.group with
  | 1 => { h with v := h.v.set r.toNat { h.v[r.toNat] with data := data } }
  | g =>
    (List.range g).foldl (fun h i =>
      let j := (r.toNat + i) % 64
      { h with v := h.v.set! j { (h.v[j]!) with data := (data.drop (i * h.regWords)).take h.regWords } }) h

/-- Write one element of the group that starts at a register. -/
def Hart.setVElem (h : Hart) (r : VReg) (wide : Bool) (i : Nat) (x : Quad) : Hart :=
  let per := h.regWords / (if wide then 2 else 1)
  let j := if per = 0 then r.toNat else (r.toNat + i / per) % 64
  let i := if per = 0 then i else i % per
  { h with v := h.v.set! j { (h.v[j]!) with data := setElem (h.v[j]!).data wide i x } }

def Hart.addFlags (h : Hart) (f : FFlags) : Hart := { h with csr := { h.csr with fflags := h.csr.fflags ||| f } }

/-! ### Stale copies (R98, R99, R170) -/

/-- n bytes of a copy, within one line; none where it does not hold the line. -/
def copyRead (c : List (Nat × Nat)) (a n : Nat) : Option Nat :=
  (c.find? fun l => l.1 == lineOf a).map fun l => l.2 / 256 ^ (a % 64) % 256 ^ n

/-- Put a line into a copy, as memory holds it now. -/
def copyFill (mem : List Host.Cell) (c : List (Nat × Nat)) (a : Nat) : List (Nat × Nat) :=
  (lineOf a, readN mem (64 * lineOf a) 64) :: c.filter fun l => l.1 != lineOf a

/-- A read of n bytes through a copy that need not be fresh: what its line holds when the part chooses it, else the home's
bytes; the copy then holds the whole line as it is at its home. Log 20 (DESIGN CHOICE). -/
def staleRead (mem : List Host.Cell) (copy : List (Nat × Nat)) (a n free : Nat) : Nat × List (Nat × Nat) :=
  let now := readN mem a n
  match copyRead copy a n with
  | none => (now, copyFill mem copy a)
  | some old =>
    if old = now then (now, copy)
    else if Config.choice free then (old, copy)
    else (now, copyFill mem copy a)

/-! ### What the entries of the vector instruction queue access (R118, R121) -/

/-- The major of a vector word. -/
def vectorMajor (w : Quad) : Nat := fieldOf w 7 6

/-- A vector word of the queue that makes no access: arithmetic, masks, moves, vwait (R145). -/
def quietWord (w : Quad) : Bool := decide (vectorMajor w < 0x21) || vectorMajor w == 0x27

/-- The instruction of a vector word. -/
def wordInstr (w : Quad) : Option Instr :=
  match decodeCand (.w64 w) with
  | .ok (.i x) => some x
  | _ => none

/-- The canonical form of an address (R90); an aperture address stands for its source. -/
def Hart.canon (h : Hart) (a : Quad) : Nat :=
  let a := if fieldOf a 61 3 = 2 then
      (match h.windows[fieldOf a 56 5]! with
        | some w => w.base + (a.extractLsb' 0 56).setWidth 64
        | none => a)
    else a
  let n := a.toNat
  let n := if fieldOf a 61 3 ≤ 1 ∧ fieldOf a 53 8 = 0xFF then n - 0xFF * 2 ^ 53 + h.pkg * 2 ^ 53 else n
  if fieldOf a 61 3 = 1 ∧ fieldOf a 44 7 = 0x7F then
    n - (n / 2 ^ 44 % 2 ^ 9) * 2 ^ 44 + (h.die * 2 ^ 7 + h.core) * 2 ^ 44
  else n

/-- Byte span of the first n elements of a stream (R133): its first address and length. -/
def Stream.span (q : Stream) (sbase : Quad) (n : Nat) : Quad × Nat :=
  if n = 0 then (q.base, 0)
  else if q.kind = 2 then
    let first := q.base + sbase * q.stride
    let d := (n - 1 : Int) * q.stride.toInt
    if 0 ≤ d then (first, d.toNat + q.fmt.bytes) else (first - BitVec.ofNat 64 d.natAbs, d.natAbs + q.fmt.bytes)
  else if q.kind = 1 then
    if q.fmt = .e2m1 then (q.base + sbase / 2, (sbase.toNat + n - 1) / 2 - sbase.toNat / 2 + 1)
    else (q.base + sbase * BitVec.ofNat 64 q.fmt.bytes, n * q.fmt.bytes)
  else (q.base, q.bound1.toNat * q.fmt.bytes)

/-- The canonical ranges meet. -/
def meets (lo n base size : Nat) : Bool := decide (lo < base + size ∧ base < lo + n)

/-- The ranges that an entry of the queue has still to access, each with whether it writes: the elements of its stream,
its tables, the Sieve of its core, and everything where the range is not known at issue. -/
def Frozen.ranges (e : Frozen) : List ((Quad × Nat) × Bool) :=
  let of := fun (q : QReg) (write : Bool) =>
    let st := e.env.q[q.toNat]
    [(st.span e.env.sbase e.env.vl.toNat, write)]
      ++ (if 4 ≤ st.kind.toNat then [((st.stride, 4 * st.bound2.toNat), false)] else [])
      ++ (if st.kind = 5 then [((st.table2, 4 * st.bound3.toNat), false)] else [])
      ++ (if st.sc then [((0, 2 ^ 64), false)] else [])
  match wordInstr e.word with
  | some (.vld o) | some (.vldff o) => of o.q false
  | some (.vst o) | some (.vchg o) | some (.vamo _ o) | some (.vamoR _ o) => of o.q true
  | some (.mst ..) => [((0, 2 ^ 64), true)]
  | some (.svins ..) | some (.svlook ..) | some (.svacc ..) | some (.svdrn ..) | some (.svclr ..) =>
    [((0x3FE7F00000000000, Config.vaultBytes), true)]
  | _ => []

/-- The canonical addresses that a slice may hold, each range with its length. -/
def Slice.spans (pkg : Nat) : Slice → List (Nat × Nat)
  | .vault d c => [(2 ^ 61 + pkg * 2 ^ 53 + d * 2 ^ 51 + c * 2 ^ 44, 2 ^ 44)]
  | .l2 d _ => [(pkg * 2 ^ 53 + d * 2 ^ 51, 2 ^ 51)]
  | .remote p d => [(p * 2 ^ 53 + d * 2 ^ 51, 2 ^ 51), (2 ^ 61 + p * 2 ^ 53 + d * 2 ^ 51, 2 ^ 51)]
  | .host => [(3 * 2 ^ 61, 2 ^ 61)]

/-- An earlier entry of the queue, on the other side of an lsync, has still to access the slice of an access: it goes
first (R121). -/
def Hart.queueBefore (h : Hart) (a : Access) : Bool :=
  h.thaw && h.frozen.any fun e => decide (e.seq < a.seq ∧ e.joins < a.join) &&
    e.ranges.any fun r => (a.slice.spans h.pkg).any fun p => meets p.1 p.2 (h.canon r.1.1) r.1.2

/-! ### Performing an access (R112 to R118) -/

/-- Put a loaded datum where it goes; a scaled element may raise flags (R72). -/
def Hart.deliver (h : Hart) (dst : LoadDst) (n : Nat) (x : Nat) : Hart :=
  match dst with
  | .s d signed =>
    let v : Quad := if signed then (BitVec.ofNat (8 * n) x).signExtend 64 else BitVec.ofNat 64 x
    if d = 0 then h else { h with s := h.s.set d.toNat v }
  | .v d i fmt high scale rnd sat =>
    let datum := if fmt = .e2m1 then (if high then x / 16 else x % 16) else x
    match scale with
    | none => h.setVElem d fmt.tag.wide i (widen fmt datum)
    | some sc =>
      let r := widenScaled fmt datum sc rnd sat
      (h.setVElem d fmt.tag.wide i r.1).addFlags r.2

/-- Write bytes at the home (R4); `clears` says that the instruction covers the granule (R110). -/
def State.store (s : State) (a n x : Nat) (clears : Bool) : State :=
  { s with mem := s.put a n x, poison := if clears then removeNat s.poison (granule a) else s.poison }

/-- Apply a merged vector-atomic update element by element (R235). -/
def vamoApply (op : AmoOp) (tag : Tag) : List (Nat × Quad) → Quad → Quad × List (Nat × Quad)
  | [], v => (v, [])
  | (j, x) :: r, v =>
    let (last, out) := vamoApply op tag r (amoApply op tag.wide v x)
    (last, (j, v) :: out)

/-- Two accesses belong to different strips of one sloop.par: neither is ordered with the other (R30). -/
def Access.apart (a b : Access) : Bool :=
  match a.strip, b.strip with
  | some x, some y => x.1 == y.1 && x.2 != y.2
  | _, _ => false

/-- Two accesses overlap when they share a byte. -/
def Access.overlaps (a b : Access) : Bool := decide (a.addr < b.addr + b.size ∧ b.addr < a.addr + a.size)

/-- The scalar store from which the store buffer serves a load: the hart's latest earlier access to its bytes,
where it covers them and no lsync stands between (R97, R118, R121). -/
def forwardFrom (pre : List Access) (a : Access) : Option Access :=
  match (pre.filter fun b => b.overlaps a && !b.apart a).getLast? with
  | none => none
  | some b =>
    match b.op, a.op with
    | .store _, .load _ =>
      if b.queue = 0 ∧ b.join = a.join ∧ b.addr ≤ a.addr ∧ a.addr + a.size ≤ b.addr + b.size then some b else none
    | _, _ => none

/-- The data that the store buffer gives a load. -/
def forwardData (pre : List Access) (a : Access) : Option Nat :=
  match forwardFrom pre a with
  | none => none
  | some b =>
    match b.op with
    | .store x => some (x / 256 ^ (a.addr - b.addr) % 256 ^ a.size)
    | _ => none

/-- Perform one access of the hart whose turn it is, `fwd` being forwarded data. -/
def State.applyAccess (s : State) (a : Access) (fwd : Option Nat) : State :=
  let h := s.hart
  match a.op with
  | .load dst => s.setHart (h.deliver dst a.size (fwd.getD (readN s.mem a.addr a.size)))
  | .loadConst dst =>
    let c := s.core h.pkg h.die h.core
    let r := staleRead s.mem c.ccache a.addr a.size s.free
    ((s.setCore { c with ccache := r.2 }).setHart (h.deliver dst a.size r.1)).drawn
  | .loadWindow slot dst =>
    match h.windows[slot]! with
    | none => s.setHart (h.deliver dst a.size (readN s.mem a.addr a.size))
    | some w =>
      let r := staleRead s.mem w.buf a.addr a.size s.free
      (s.setHart ((({ h with windows := h.windows.set! slot (some { w with buf := r.2 }) } : Hart)).deliver
        dst a.size r.1)).drawn
  | .store x => s.store a.addr a.size x a.clears
  | .storeNibble high x =>
    let b := (readByte s.mem a.addr).toNat
    s.store a.addr 1 (if high then b % 16 + 16 * (x % 16) else b / 16 * 16 + x % 16) a.clears
  | .amo op x d =>
    let old := readN s.mem a.addr a.size
    (s.store a.addr a.size (amoApply op (a.size == 8) (BitVec.ofNat 64 old) x).toNat false).setHart
      (h.deliver (.s d false) a.size old)
  | .cas e n d =>
    let old := readN s.mem a.addr a.size
    let s' := if old = e.toNat % 256 ^ a.size then s.store a.addr a.size n.toNat false else s
    s'.setHart (h.deliver (.s d false) a.size old)
  | .exchange x dst =>
    let old := readN s.mem a.addr a.size
    match dst with
    | .v _ _ .e2m1 high _ _ _ =>
      let new := if high then old % 16 + 16 * (x % 16) else old / 16 * 16 + x % 16
      (s.store a.addr 1 new false).setHart (h.deliver dst a.size old)
    | _ => (s.store a.addr a.size x false).setHart (h.deliver dst a.size old)
  | .vamo op tag elems dst =>
    let old := BitVec.ofNat 64 (readN s.mem a.addr a.size)
    let (v, out) := vamoApply op tag elems old
    let s' := s.store a.addr a.size v.toNat false
    match dst with
    | none => s'
    | some d => s'.setHart (out.foldl (fun h p => h.setVElem d tag.wide p.1 p.2) h)

/-- An exchange of vchg. -/
def AccOp.exchanges : AccOp → Bool
  | .exchange .. => true
  | _ => false

/-- b, earlier in program order, must be performed before a (R117, R118, R121); accesses of different strips of a
sloop.par are not ordered (R30). Within one instruction, exchanges are made in element order, so that none above a failing
element has been made (R227), and the write that clears a granule's poison comes after the others to the granule (R110).
Two elements of one load at one location return their values in element order. Log 121 (DESIGN CHOICE). -/
def Access.before (b a : Access) : Bool :=
  !b.apart a && (((b.queue == a.queue || decide (b.join < a.join)) && b.slice == a.slice) || b.overlaps a
    || (b.seq == a.seq && (a.op.exchanges || (a.clears && granule b.addr == granule a.addr))))

/-- An access may be performed now: nothing earlier must come first but the store that serves it from the store
buffer, and no tag holds it (R97, R117, R118, R121, R127). -/
def Hart.mayPerform (h : Hart) (pre : List Access) (a : Access) : Bool :=
  !h.queueBefore a && (match forwardFrom pre a with
    | some f => !pre.any (fun b => b.before a && b != f)
    | none => !pre.any (fun b => b.before a)) && !h.pendingOf a.held

/-- Acknowledge bookkeeping: what an access leaves behind once it is applied (R97, R136). -/
def Hart.afterAccess (h : Hart) (a : Access) : Hart :=
  match a.train with
  | some t => if h.trains.any (·.1 == t) then h else { h with trains := h.trains ++ [(t, a.seq)] }
  | none =>
    match a.op with
    | .store _ => if a.queue = 0 then { h with unacked := h.unacked ++ [a.seq] } else h
    | _ => h

/-- An access that reads its home (R109). -/
def AccOp.reads : AccOp → Bool
  | .store _ | .storeNibble .. => false
  | _ => true

/-- An access that writes. -/
def AccOp.writes : AccOp → Bool
  | .load _ | .loadConst _ | .loadWindow .. => false
  | _ => true

/-- The elements of a v register that an access reads for. -/
def AccOp.elems : AccOp → List Nat
  | .load (.v _ e ..) | .loadConst (.v _ e ..) | .loadWindow _ (.v _ e ..) | .exchange _ (.v _ e ..) => [e]
  | .vamo _ _ es _ => es.map (·.1)
  | _ => []

/-- Elements of an access lie at or above one that failed: they are left untouched (R88, R227). A vector atomic loses
only the update that failed (R236). -/
def Access.after (a : Access) (seq : Nat) (elem : Option Nat) : Bool :=
  match elem, a.op with
  | some _, .vamo .. => false
  | some j, op => a.seq == seq && op.elems.any (decide <| j ≤ ·)
  | none, _ => false

/-- Access i meets poison, or a path that has failed, or a failed translation, at its home: it and the elements above it are not performed,
and its trap waits to be taken (R88, R109, R385). -/
def Hart.hitAt (h : Hart) (cause : Byte) (i : Nat) (a : Access) (home : Option (Nat × Nat × Nat) := none) : Hart :=
  let elem := a.op.elems.head?
  let flights := match a.op with
    | .vamo _ _ es _ => h.flights.map fun f =>
        if f.entry.seq = a.seq then
          { f with entry := { f.entry with doneElems := es.foldl (fun acc p => acc &&& ~~~ (1#65536 <<< p.1)) f.entry.doneElems } }
        else f
    | _ => h.flights
  { h with
    pend := (h.pend.eraseIdx i).filter fun b => !b.after a.seq elem,
    nbs := if elem.isSome then h.nbs.filter (·.seq != a.seq) else h.nbs,
    flights := flights,
    hits := h.hits ++ [{ cause := cause, tinfo := a.shown, pc := a.pc, level := h.level, seq := a.seq, elem := elem,
                         home := home, reads := a.op.reads, writes := a.op.writes }] }

/-- An access goes to a package that has dropped the keys of its hart's member: it fails authentication there (R411). -/
def State.unauthentic (s : State) (a : Access) : Bool :=
  match a.slice with
  | .remote p _ => s.keyDropped p ((s.memberOf s.hart.pkg s.hart.asid).map fun x => (x.1.id, x.2))
  | _ => false

/-- What an access is to the checks of R88. -/
def accKind (reads writes : Bool) : AccKind := if reads && writes then .atomic else if writes then .write else .read

/-- An access to another die is translated when it arrives there (R349). Log 23 (DESIGN CHOICE). -/
def State.arrival (s : State) (a : Access) : Except Fail Access :=
  match a.via with
  | none => .ok a
  | some (asid, _, _) =>
    let c := s.hart.canon a.shown
    let pkg := c / 2 ^ 53 % 256
    let die := c / 2 ^ 51 % 4
    if pkg = s.hart.pkg ∧ die = s.hart.die then .ok a
    else
      match s.translate s.hart pkg die asid (c % 2 ^ 42) (c / 2 ^ 42 % 512) (accKind a.op.reads a.op.writes) a.shown with
      | .ok (pa, page, size) => .ok { a with addr := hbmKey pkg die pa, via := some (asid, page, size) }
      | .error (.inl f) => .error f
      | .error (.inr _) => .ok a

/-- Perform access i of the hart whose turn it is; what its home cannot translate, or what reads a poisoned granule of it,
fails (R109, R349). One that fails authentication is discarded, and a load meets poison. Log 147 (DESIGN CHOICE). -/
def State.performAt (s : State) (i : Nat) : State :=
  match s.hart.pend[i]? with
  | none => s
  | some a =>
    if s.unauthentic a then
      s.mapHart fun h => if a.op.reads then h.hitAt 0x0B i a else ({ h with pend := h.pend.eraseIdx i }).afterAccess a
    else
      match s.arrival a with
      | .error f => s.mapHart (·.hitAt f.cause i a f.home)
      | .ok a =>
        let fwd := forwardData (s.hart.pend.take i) a
        if a.op.reads && fwd.isNone && s.poisoned a.addr then s.mapHart (·.hitAt 0x0B i a)
        else
          let s' := s.applyAccess a fwd
          s'.mapHart fun h => ({ h with pend := h.pend.eraseIdx i }).afterAccess a

/-- Accesses may be held by what no access of the hart performs: a collective result that has not come, or an entry of
the queue that has not executed. -/
def Hart.awaited (h : Hart) : Bool :=
  !h.colls.isEmpty || h.frozen.any (·.tag.isSome) || (h.thaw && h.pend.any h.queueBefore)

/-- The access to perform next, of those that satisfy p first: one that may be performed; else, where nothing outside
the accesses holds them, the first. None while every access is held by such a tag (R127). Log 25 (DESIGN CHOICE). -/
def Hart.nextReady (h : Hart) (p : Access → Bool) : Option Nat :=
  let may := (List.range h.pend.length).filter fun i =>
    match h.pend[i]? with
    | some a => h.mayPerform (h.pend.take i) a
    | none => false
  match may.find? fun i => (h.pend[i]?).any p with
  | some i => some i
  | none =>
    match may with
    | i :: _ => some i
    | [] => if h.awaited then none else some 0

/-- Perform accesses until none that satisfies p is left or can be performed, those that do first. -/
def drainUntilGo (p : Access → Bool) : Nat → State → State
  | 0, s => s
  | n + 1, s =>
    if s.hart.pend.any p then
      match s.hart.nextReady p with
      | some i => drainUntilGo p n (s.performAt i)
      | none => s
    else s

/-- Perform the accesses that satisfy p, and what must come before them. -/
def State.drainUntil (s : State) (p : Access → Bool) : State := drainUntilGo p s.hart.pend.length s

/-- A completion counter advances by one; kstat.OVF is set when it wraps (R54). -/
def Hart.bumpK (h : Hart) (k : KReg) : Hart :=
  let v := h.k[k.toNat]
  let h := { h with k := h.k.set k.toNat (v + 1) }
  if v = 0xFFFFFFFF then { h with csr := { h.csr with kstat := h.csr.kstat ||| (1#24 <<< (16 + k.toNat)) } } else h

/-- The non-blocking instruction numbered `seq` has no access left to perform (R230). -/
def Hart.nbDone (h : Hart) (seq : Nat) : Bool :=
  !h.pend.any (·.seq == seq) && !h.trains.any (·.2 == seq)

/-- Complete every non-blocking instruction that has no access left (R230). -/
def Hart.completeNb (h : Hart) : Hart :=
  let done := h.nbs.filter fun o => h.nbDone o.seq
  done.foldl (fun h o => h.bumpK o.k) { h with nbs := h.nbs.filter fun o => !h.nbDone o.seq }

/-- Perform and acknowledge every access of the hart (the waits of R121, R38, R183), and retire its
tags. -/
def State.drain (s : State) : State :=
  if s.hart.pend = [] ∧ s.hart.unacked = [] ∧ s.hart.trains = [] ∧ s.hart.nbs = [] ∧ s.hart.tagBusy = 0 then s
  else
    (s.drainUntil fun _ => true).mapHart fun h =>
      ({ h with unacked := [], trains := [] } : Hart).completeNb.retire

/-- Perform what is needed before an instruction uses these s registers. Log 21 (DESIGN CHOICE). -/
def State.needS (s : State) (rs : List SReg) : State :=
  if s.hart.pend.any (fun a =>
      match a.op with
      | .load (.s d _) | .loadConst (.s d _) | .loadWindow _ (.s d _) | .amo _ _ d | .cas _ _ d =>
        d != 0 && rs.contains d
      | _ => false) then s.drain else s

/-- The s register that an access will write. -/
def Access.sdst (a : Access) : Option SReg :=
  match a.op with
  | .load (.s d _) | .loadConst (.s d _) | .loadWindow _ (.s d _) | .amo _ _ d | .cas _ _ d => some d
  | _ => none

/-- The v register that an access will write. -/
def Access.vdst (a : Access) : Option VReg :=
  match a.op with
  | .load (.v d ..) | .loadConst (.v d ..) | .loadWindow _ (.v d ..) | .exchange _ (.v d ..)
  | .vamo _ _ _ (some d) => some d
  | _ => none

/-- An access will write a register of the group that starts at r. -/
def Hart.writesGroup (h : Hart) (a : Access) (r : VReg) : Bool :=
  match a.vdst with
  | some d => decide (r.toNat < d.toNat + a.span ∧ d.toNat < r.toNat + h.group)
  | none => false

/-- Perform what is needed before an instruction uses the groups at these v registers (R33, R36). -/
def State.needV (s : State) (rs : List VReg) : State :=
  if s.hart.pend.any (fun a => rs.any (s.hart.writesGroup a)) then s.drain else s

/-- The path that an access to a slice takes (R384). -/
def State.pathOfSlice (s : State) (sl : Slice) : List Lane :=
  match sl with
  | .remote p _ => s.pathLanes s.hart.pkg p
  | _ => []

/-- Issue an access: it is numbered, and held by its operands' taint and the control taint (R127); it takes the
address of its instruction, G, its strip and its path. -/
def State.issue (s : State) (a : Access) : State :=
  s.mapHart fun h =>
    { h with pend := h.pend ++ [{ a with held := a.held ||| h.ct, join := h.joins, pc := h.pc, span := h.group,
                                         strip := h.par.map fun n => (n, h.csr.strip), path := s.pathOfSlice a.slice }] }

/-- The number of the next instruction moves on. -/
def State.nextSeq (s : State) : State := s.mapHart fun h => { h with seq := h.seq + 1 }

/-- Perform what holds an access that is made at issue: the loads of a taint set and of the control
taint; wait for a collective result whose tag is among them (R127). -/
def State.settle (s : State) (t : TaintSet) : Except Stop State :=
  if !s.hart.pendingOf (t ||| s.hart.ct) then .ok s
  else
    let s := s.drain
    if s.hart.pendingOf (t ||| s.hart.ct) || s.hart.hits.any (·.level == s.hart.level) then .error (.hold .collective) else .ok s

/-- The nearest scope that holds a home: 1 the own vault, 2 the own die, 3 the own package, 4 any
(R121). -/
def Hart.rankOf (h : Hart) : Slice → Nat
  | .vault d c => if d = h.die then (if c = h.core then 1 else 2) else 3
  | .l2 d _ => if d = h.die then 2 else 3
  | .remote .. | .host => 4

def Scope.rank : Scope → Nat
  | .h => 0 | .c => 1 | .d => 2 | .p => 3 | .g => 4

/-- A command that the hart waits for: one that a fault stopped is not running (R424). Log 30 (DEDUCED). -/
def Cmd.running (c : Cmd) : Bool := !c.stopped

/-- A message is whole when every packet of up to 4,096 bytes has been placed (R266, R388). -/
def Message.packets (m : Message) : Nat := max 1 ((m.elems.length * (if m.tag.wide then 8 else 4) + 4095) / 4096)
def Message.whole (m : Message) : Bool := decide (m.packets ≤ m.arrived.length)

/-- The number from which on the hart's instructions count as earlier: at level S, those issued since the trap
(R424). -/
def Hart.since (h : Hart) : Nat := if h.level = .s then h.trapSeqs.headD 0 else 0

/-- A fabric send, contribution, post or work request of the hart that is not performed and has an access
whose home lies within a scope (R121, R267, R276, R281, R282). -/
def State.remoteBusy (s : State) (n : Nat) : Bool :=
  let h := s.hart
  let mine := fun (r : HartRef) (g : Word) (i : Nat) => r == h.ref && g == h.csr.gangid && decide (h.since ≤ i)
  s.messages.any (fun m => mine m.sender m.gang m.instr && !m.whole
      && decide ((if m.dst.pkg ≠ h.pkg then 4 else if HartRef.die m.dst = h.die then 2 else 3) ≤ n))
    || (decide (3 ≤ n) && s.ops.any fun o => o.verdict.isNone && o.parts.any fun p =>
          mine p.hart p.gang p.instr && p.body.isSome && !p.accepted)
    || (s.pack h.pkg).posts.any (fun p => mine p.hart p.gang p.seq && decide (p.nearest ≤ n))
    || (s.pack h.pkg).transport.requests.any (fun r => mine r.hart r.gang r.seq && decide (r.nearest ≤ n))

/-- Entries that execute when their operands are there: the queue is not frozen. -/
def Hart.queued (h : Hart) : Bool := h.thaw && !h.frozen.isEmpty

/-! ### Interlock (R132 to R134) -/

/-- The entry is that of an mst which trap entry has frozen: at level S it is not waited for (R424). -/
def Hart.asleep (h : Hart) (e : Interlock) : Bool :=
  decide (h.level = .s) && h.cmds.any fun c => c.stopped && (match c.op with
    | .drain .. => true
    | _ => false) && c.seq == e.seq

/-- The bank of a vault byte, by its offset (R93). -/
def bankOf (off : Nat) : Nat := off / 64 % 32

/-- Every byte of a vault read lies below the arrival pointer of its bank: the command has written what it writes there
(R134). -/
def Interlock.arrived (e : Interlock) (lo n : Nat) : Bool :=
  e.write && !e.arrival.isEmpty && ((List.range n).all fun i => decide (lo + i < e.arrival.getD (bankOf ((lo + i) % 2 ^ 44)) 0))

/-- An access of [lo, lo + n) conflicts with an entry: the ranges overlap and one of them writes; a vault read of bytes
that have arrived does not (R134). The ranges of a command that waits for entries count: its accesses come first (R118). -/
def Hart.interlocked (h : Hart) (lo n : Nat) (write : Bool) : Bool :=
  (h.interlock ++ h.cmds.flatMap (·.ranges)).any fun e => !h.asleep e && decide (e.base < lo + n ∧ lo < e.limit)
    && (write || (e.write && !e.arrived lo n))

/-- Wait at issue while an entry conflicts (R134). -/
def State.awaitRange (s : State) (lo n : Nat) (write : Bool) : Except Stop Unit :=
  if s.hart.interlocked lo n write then .error (.hold .engine) else .ok ()

/-! ### Taking a trap (R330 to R334) -/

/-- The bit of PEND that an asynchronous cause clears (R334). -/
def pendBit (cause : Byte) : BitVec 3 :=
  if cause = 0x20 then 1 else if cause = 0x21 then 2 else if cause = 0x22 then 4 else 0

/-- tcause of a trap (R327). -/
def Trap.code (t : Trap) : BitVec 11 :=
  (bit1 t.eng ++ bit1 t.prec ++ 0#1 ++ t.cause : BitVec (1 + 1 + 1 + 8)).setWidth 11

/-- A vector instruction, a convoy header, cpy, cpyff or fmp, by its first 64 bits (R139, R145, R151, R153). -/
def namesVector (w : Quad) : Bool :=
  if fieldOf w 0 7 = 0x73 then decide (vectorMajor w ≤ 0x2D ∧ vectorMajor w ≠ 0x29)
  else if fieldOf w 0 7 = 0x7B then decide (1 ≤ fieldOf w 12 4 ∧ fieldOf w 12 4 ≤ 3)
  else fieldOf w 0 7 == 0x77 || fieldOf w 0 2 == 2

/-- tvpc of a trap (R327): a precise trap of a vector instruction or of an engine command names its address. -/
def Hart.tvpcOf (h : Hart) (t : Trap) : Quad :=
  if t.prec && namesVector h.ir then t.tpc.getD h.pc else t.tvpc

/-- An mst, which is an entry of the vector instruction queue as well as a command (R251, R330). Log 53 (DEDUCED). -/
def Cmd.isDrain (c : Cmd) : Bool := match c.op with
  | .drain .. => true | _ => false

/-- An unfinished entry of the vector instruction queue: a frozen instruction or an mst. -/
def Hart.entriesLeft (h : Hart) : Bool := !h.frozen.isEmpty || h.cmds.any Cmd.isDrain

/-- Steps 3 to 6 of R330 on a hart whose loads are performed. Copies and Fuller commands run on; an mst
freezes with the queue. -/
def Hart.enterTrap (h : Hart) (t : Trap) : Hart :=
  let h := { h.clearTags (~~~ 0) with
    ct := 0, tagBusy := 0, tag0Last := 0, trapSeqs := h.seq :: h.trapSeqs, early := none }
  let parked := match h.status with
    | .parked (.waita _) .. | .parked (.gwait ..) .. | .parked (.gyield _) .. => true
    | _ => false
  { h with
    status := .running, level := .s, pc := h.sup.tvec, thaw := false, noLanes := h.noLanes || parked,
    atBarrier := false, cmds := h.cmds.map fun c => { c with stopped := c.stopped || c.isDrain },
    sup := { h.sup with
      tcause := t.code, tinfo := t.tinfo, telem := t.telem, tvpc := h.tvpcOf t, tpc := t.tpc.getD h.pc,
      vdirty := h.entriesLeft, vown := false, spp := h.level, saie := h.sup.aie, aie := false,
      pend := h.sup.pend &&& ~~~ pendBit t.cause } }

/-- A parked hart that takes a trap leaves its wait list; waita then returns 2 (R173, R332). -/
def State.unpark (s : State) : State :=
  match s.hart.status with
  | .parked (.waita _) d _ =>
    ({ s with waiters := s.waiters.filter (·.hart != s.hart.ref) } : State).mapHart (·.setS d 2 0)
  | _ => s

/-- Put an entry into a queue, in the order of the instructions. -/
def insertEntry (e : Frozen) : List Frozen → List Frozen
  | [] => [e]
  | x :: r => if e.seq ≤ x.seq then e :: x :: r else x :: insertEntry e r

/-- Collective results and messages that have not come go back to the frozen queue, in program order. Log 52 (DEDUCED). -/
def Hart.freezeColls (h : Hart) : Hart :=
  let back := fun (h : Hart) (c : CollLoad) =>
    { h with
      frozen := insertEntry { word := c.word, pc := c.pc, start := 0, doneElems := 0, env := c.env, seq := c.order,
                              collSeq := if c.msg.isSome then none else some c.seq } h.frozen }
  { h.colls.foldl back h with colls := [] }

/-- The containers of a group of a given G. -/
def Hart.withGroup (h : Hart) (gl : BitVec 2) (f : Hart → Hart) : Hart :=
  let was := h.csr.gl
  let r := f { h with csr := { h.csr with gl := gl } }
  { r with csr := { r.csr with gl := was } }

/-- A vector instruction whose element j failed at its home goes back to the queue: the elements from j on are as they
were (R88, R227). -/
def Hart.freezeHit (h : Hart) (seq j : Nat) : Hart :=
  match h.flights.find? (·.entry.seq == seq) with
  | none => h
  | some f =>
    let n := j * (if f.wide then 2 else 1)
    let h := if f.old.isEmpty then h else
      h.withGroup f.entry.env.gl fun h => h.setGroupData f.vd (padTo n (h.groupData f.vd) ++ f.old.drop n)
    { h with
      flights := h.flights.filter (·.entry.seq != seq),
      frozen := insertEntry { f.entry with start := j } h.frozen }

/-- The lowest element of an instruction that failed. -/
def Hart.lowestHit (h : Hart) (seq : Nat) : Nat :=
  (h.hits.filterMap fun x => if x.seq = seq then x.elem else none).foldl min 65536

/-- Failures of vector instructions that are found while the loads drain stay in their entries (R333). -/
def Hart.freezeHits (h : Hart) : Hart :=
  { h.hits.foldl (fun h x => match x.elem with
      | none => h
      | some _ => h.freezeHit x.seq (h.lowestHit x.seq)) h with
    hits := h.hits.filter (·.elem.isNone) }

/-- telem (R327). -/
def telemOf (src : Bool) (level row index : Nat) : Quad :=
  BitVec.ofNat 64 ((if src then 2 ^ 51 else 0) + level * 2 ^ 49 + row % 2 ^ 16 * 2 ^ 32 + index % 2 ^ 32)

/-- The granule of a physical address as a machine-check record names it, and the unit it lies in (R420). -/
def checkAddr (phys : Nat) : Nat × Nat :=
  let p := phys / 32 * 32
  if p < 2 ^ 61 then (p / 2 ^ 51 % 4 * 2 ^ 37 + p % 2 ^ 37, 0) else (p, 2)

/-- Append a record to the machine-check ring of a package (R419, R420). Log 63 (DEDUCED). -/
def State.machineCheck (s : State) (pkg addr kind unit count : Nat) (asid : BitVec 16) : State :=
  match s.blockBase pkg 3 with
  | none => s
  | some blk =>
    let ring := fieldOf (readQuad s.mem blk) 0 37
    s.ringAppend blk (if ring = 0 then 0 else blk / 2 ^ 51 * 2 ^ 51 + ring) 7 16
      [BitVec.ofNat 64 addr,
       BitVec.ofNat 64 (kind * 2 ^ 56 + unit * 2 ^ 48 + count % 2 ^ 32 * 2 ^ 16 + asid.toNat), 0, 0]

/-- The machine check of a Poisoned data trap (R419). -/
def State.noteTrap (s : State) (t : Trap) : State :=
  if t.cause ≠ 0x0B then s
  else
    match s.check19 s.hart s.hart.asid t.tinfo 1 .read .any with
    | .ok l => let a := checkAddr l.phys; s.machineCheck s.hart.pkg a.1 2 a.2 1 s.hart.asid
    | .error _ => s

/-- A tlbinv that a trap interrupts leaves its request behind (R344). -/
def State.orphanShoots (s : State) : State :=
  let p := s.pack s.hart.pkg
  if p.shoots.any (fun x => x.hart == s.hart.ref && !x.orphan) then
    s.setPack { p with shoots := p.shoots.map fun x => if x.hart = s.hart.ref then { x with orphan := true } else x }
  else s

/-- Entries that have not executed hold no tag once the queue is frozen (R330). -/
def Hart.dropTags (h : Hart) : Hart := { h with frozen := h.frozen.map fun e => { e with tag := none } }

/-- Take a trap on the hart whose turn it is: its loads are performed, then R330 steps 4 to 6. The frame that vqsave
would write takes a new length when the trap is taken at level U. -/
def State.takeTrap (s : State) (t : Trap) : State :=
  (((((s.noteTrap t).unpark.orphanShoots.mapHart fun h => { h.freezeColls.dropTags with thaw := false }).drain).mapHart fun h =>
    { h.freezeHits.dropTags.enterTrap t with
      vqDraw := if h.level = .u then s.free else h.vqDraw,
      graceEnd := if t.cause = 0x20 then some (s.clock + h.sup.preempt.toNat * 1024) else h.graceEnd })).drawn

/-- A read of the hart has failed at its home, at its present level. -/
def Hart.struck (h : Hart) : Bool := h.hits.any (·.level == h.level)

/-- The home die's record of a failure that is met there (R357). -/
def State.logHit (s : State) (x : Hit) : State :=
  s.logFail s.hart ⟨x.cause, x.tinfo, x.home⟩ false (accKind x.reads x.writes)

/-- Take the trap of the first failure at a home: of a vector instruction at its lowest failing element, or of a
scalar load, which is precise and names the load (R88, R109, R328). Log 122 (DEDUCED). -/
def State.takeHit (s : State) (x : Hit) : State :=
  match x.elem with
  | none =>
    ((s.logHit x).mapHart fun h => { h with ir := 0, hits := h.hits.erase x }).takeTrap
      { cause := x.cause, tinfo := x.tinfo, tpc := some x.pc }
  | some _ =>
    let j := s.hart.lowestHit x.seq
    let y := (s.hart.hits.find? fun y => y.seq == x.seq && y.elem == some j).getD x
    let tvpc := match s.hart.flights.find? (·.entry.seq == x.seq) with
      | some f => f.entry.pc
      | none => x.pc
    ((s.logHit y).mapHart fun h => { h.freezeHit x.seq j with hits := h.hits.filter (·.seq != x.seq) }).takeTrap
      { cause := y.cause, tinfo := y.tinfo, telem := telemOf false 0 0 j, prec := false, tvpc := tvpc }

/-- Put a hart into a wait. Log 27 (DESIGN CHOICE). -/
def State.holdHart (s : State) (w : Wait) : State := s.mapHart fun h => { h with status := .held w }

/-- The outcome of an instruction that started in s. -/
def finish (s : State) (r : Except Stop State) : Host.Outcome State Fault Refusal :=
  match r with
  | .ok s' => .next s'
  | .error (.trap t s') => .next (s'.takeTrap t)
  | .error (.hold w) => .next (s.holdHart w)
  | .error (.fault f) => .fault f

/-- An instruction of n bytes that ran: the hart runs on at the next address. -/
def State.done (s : State) (n : Nat) : State :=
  s.mapHart fun h => { h.advance n with status := .running }

end Sys2Proof.Machine
end

