-- ==== Sys2Proof/Machine/Operands.lean ====
section
/-! DEFINITION. Operand forms: the checks of vector operands (02 R23, R26; 17 R339), elements and
masks, the element-wise write of 09 R185, the taint of destinations (06 R125), and the index walk,
address and scale of stream elements (10 R216 to R219). -/

namespace Sys2Proof.Machine

/-! ### Lengths (R26, R185) -/

def Hart.nregs (h : Hart) : Nat := 8 * 2 ^ h.csr.nreg.toNat
def Hart.vl (h : Hart) : Nat := h.csr.vl.toNat
/-- E of R185: VLMAX x G. -/
def Hart.maxElems (h : Hart) : Nat := h.csr.vlmax.toNat * h.group

/-- The unit rules at level S (R339) and of a scalar-only hart (R23). Log 42 (DEDUCED). -/
def State.vecUnit (s : State) : Except Stop Unit :=
  if s.hart.g = 0 ∨ s.hart.noLanes then .error (illegal s)
  else if s.hart.level = .s ∧ s.hart.sup.vown = false then .error (illegal s)
  else .ok ()

/-- A matrix instruction at level S without VOWN (R339). -/
def State.matrixUnit (s : State) : Except Stop Unit :=
  if s.hart.level = .s ∧ s.hart.sup.vown = false then .error (illegal s) else .ok ()

/-- A register name below n and a multiple of G (R26). -/
def Hart.regOk (h : Hart) (r : VReg) : Bool := decide (r.toNat < h.nregs) && r.toNat % h.group == 0

/-- The checks of a vector instruction's register names. -/
def State.vecRegs (s : State) (rs : List VReg) : Except Stop Unit :=
  match s.vecUnit with
  | .error e => .error e
  | .ok _ => if rs.all s.hart.regOk then .ok () else .error (illegal s)

/-- Operand tag (0x04) unless the condition holds (R186). -/
def State.tagOk (s : State) (c : Bool) : Except Stop Unit := if c then .ok () else .error (insnTrap s 0x04)

/-- Shape (0x05) for a 64-bit tag with w = 1 (R26). -/
def State.shapeOk (s : State) (t : Tag) : Except Stop Unit :=
  if t.wide && !s.hart.csr.w64 then .error (insnTrap s 0x05) else .ok ()

/-- The rounding mode, or Illegal instruction where frm holds a reserved code (R59). -/
def State.rounding (s : State) (rm : RMode) : Except Stop Rnd :=
  match rm.resolve s.hart.csr.frm with
  | some r => .ok r
  | none => .error (illegal s)

/-- The rounding mode of an instruction on a tag: rm is ignored on N and I (R188). Log 46 (DEDUCED). -/
def State.roundingFor (s : State) (t : Tag) (rm : RMode) : Except Stop Rnd :=
  if t.isF then s.rounding rm else .ok .rne

/-- The rounding mode of a store: F data copied or widened takes none (R73). -/
def State.storeRounding (s : State) (t : Tag) (fmt : MemFmt) (rm : RMode) : Except Stop Rnd :=
  if t.isF && fmt != .f64 && !(t == .f32 && fmt == .f32) then s.rounding rm else .ok .rne

/-- Check 6 of R141 for a vector instruction: its unit and register names (R23, R26), the 64-bit tags that it would give
or takes as T (R26, R186), then its rounding mode where it takes one (R59). The traps of execution come after. -/
def State.checks6 (s : State) (rs : List VReg) (tags : List Tag) (rnd : Except Stop Rnd) : Except Stop Rnd :=
  match s.vecRegs rs with
  | .error e => .error e
  | .ok _ =>
    if tags.any (fun t => t.wide && !s.hart.csr.w64) then .error (insnTrap s 0x05) else rnd

def Hart.tagOf (h : Hart) (r : VReg) : Tag := h.v[r.toNat].tag
def Hart.taintV (h : Hart) (r : VReg) : TaintSet := h.v[r.toNat].taint
def Hart.taintQ (h : Hart) (q : QReg) : TaintSet := h.q[q.toNat].taint

/-! ### Masks -/

/-- Bit i of a mask register; every bit of m0 is true (R49). -/
def Hart.maskBit (h : Hart) (m : MReg) (i : Nat) : Bool := m == 0 || bitOf h.m[m.toNat].bits i

/-- Active(i): the mask bit exclusive-or the complement bit (R185). -/
def Hart.active (h : Hart) (o : MaskOp) (i : Nat) : Bool := h.maskBit o.m i != o.comp

/-- Write a mask register in bitmap form, from bits that are a function of the index (R189). -/
def maskOfList : List Bool → Nat → BitVec 65536 → BitVec 65536
  | [], _, acc => acc
  | b :: r, i, acc =>
    let one := 1#65536 <<< i
    maskOfList r (i + 1) (if b then acc ||| one else acc &&& ~~~ one)

/-- A mask destination (R189): body bits from `f` where active, zero where inactive under MP, else as
they were; nothing at or beyond vl; at vl = 0 mask and taint stay. -/
def Hart.writeMask (h : Hart) (md : MReg) (mask : MaskOp) (f : Nat → Bool) (t : TaintSet) : Hart :=
  let old := h.m[md.toNat]
  if h.vl = 0 then h
  else
    let bits := (List.range h.vl).map fun i =>
      if bitOf h.doneElems i then bitOf old.bits i
      else if h.active mask i then f i else if h.csr.mp then false else bitOf old.bits i
    let keep := (!h.csr.mp && mask.m != 0) || !h.csr.tp
    let taint := t ||| h.taintM mask.m ||| (if keep then old.taint else 0)
    { h with m := h.m.set md.toNat ⟨maskOfList bits 0 old.bits, false, taint⟩ }

/-! ### Elements -/

/-- The first n elements of a list of containers. -/
def takeElems (wide : Bool) : Nat → List Word → List Quad
  | 0, _ => []
  | n + 1, l =>
    if wide then ((l.drop 1).headD 0 ++ l.headD 0) :: takeElems wide n (l.drop 2)
    else (l.headD 0).setWidth 64 :: takeElems wide n (l.drop 1)

/-- Containers of a list of elements. -/
def packElems (wide : Bool) : List Quad → List Word
  | [] => []
  | x :: r =>
    if wide then x.setWidth 32 :: x.extractLsb' 32 32 :: packElems wide r
    else x.setWidth 32 :: packElems wide r

/-- The elements of a source: n of them, read at the width of a tag. -/
def Hart.elems (h : Hart) (r : VReg) (t : Tag) (n : Nat) : Array Quad :=
  (takeElems t.wide n (h.groupData r)).toArray

/-- The elements of vb, or of an s register acting as every element (R187). -/
def Hart.srcElem (h : Hart) (b : VSrc) (t : Tag) (n : Nat) : Nat → Quad :=
  match b with
  | .v r => let a := h.elems r t n; fun i => a.getD i 0
  | .s r =>
    let x := h.getS r
    let x := if t.wide then x else (x.setWidth 32).setWidth 64
    fun _ => x

def Hart.taintSrc (h : Hart) : VSrc → TaintSet
  | .v r => h.taintV r
  | .s r => h.taintS r

/-- The v registers a source names, and the s registers. -/
def vsrcVregs : VSrc → List VReg
  | .v r => [r] | .s _ => []
def vsrcSregs : VSrc → List SReg
  | .v _ => [] | .s r => [r]

/-- Results for the body, in order: `f i` where active; and the union of their flags (R69, R185). -/
def bodyResults (act : Nat → Bool) (f : Nat → FRes) : Nat → Nat → List Quad × FFlags
  | 0, _ => ([], 0)
  | n + 1, i =>
    let (rest, fl) := bodyResults act f n (i + 1)
    if act i then let r := f i; (r.1 :: rest, r.2 ||| fl) else (0 :: rest, fl)

/-- R185's choice for each element from i on: `res` holds results for the body, `old` the old
elements. -/
def mergeBody (act : Nat → Bool) (mp tp : Bool) : Nat → List Quad → List Quad → List Quad
  | _, _, [] => []
  | i, x :: res, o :: old => (if act i then x else if mp then 0 else o) :: mergeBody act mp tp (i + 1) res old
  | i, [], o :: old => (if tp then 0 else o) :: mergeBody act mp tp (i + 1) [] old

/-- Results that leave alone the elements of a set: those that an earlier run of the instruction has executed, or whose
element group is not yet present (R34, R36). -/
def keepElems (skip : BitVec 65536) : Nat → List Quad → List Quad → List Quad
  | i, x :: new, o :: old => (if bitOf skip i then o else x) :: keepElems skip (i + 1) new old
  | _, new, _ => new

/-- The old taint is kept under MP = 0 with a mask other than m0, or under TP = 0 (R125). -/
def Hart.keepTaint (h : Hart) (mask : MaskOp) (vd : VReg) : TaintSet :=
  if (!h.csr.mp && mask.m != 0) || !h.csr.tp then h.taintV vd else 0

/-- Write the elements, tag and taint of a destination group, and vlast (R154, R185). `res` holds one
value for each body element; `act` says which are active. Elements that `doneElems` names stay. -/
def Hart.writeV (h : Hart) (vd : VReg) (t : Tag) (act : Nat → Bool) (mp : Bool) (res : List Quad)
    (taint : TaintSet) : Hart :=
  let words := h.regWords * h.group
  let old := padTo words (h.groupData vd)
  let e := h.maxElems
  let was := takeElems t.wide e old
  let body := mergeBody act mp h.csr.tp 0 res was
  let new := packElems t.wide (if h.doneElems = 0 then body else keepElems h.doneElems 0 body was)
  let data := new ++ old.drop (e * t.words)
  let h' := h.setGroupData vd data
  { h' with
    v := h'.v.set vd.toNat { h'.v[vd.toNat] with tag := t, taint := taint },
    csr := { h'.csr with vlast := vd } }

/-- An element-wise vector result (R185): F(i), its tag, and the taint of its sources. -/
def Hart.elementwise (h : Hart) (vd : VReg) (t : Tag) (mask : MaskOp) (f : Nat → FRes) (src : TaintSet) :
    Hart :=
  let act := h.active mask
  let (res, fl) := bodyResults (fun i => act i && !bitOf h.doneElems i) f h.vl 0
  (h.writeV vd t act h.csr.mp res (src ||| h.taintM mask.m ||| h.keepTaint mask vd)).addFlags fl

/-! ### A vector instruction as a whole -/

/-- What a vector instruction reads when it issues (R220, R338). -/
def Hart.env (h : Hart) : VecEnv :=
  { vl := h.csr.vl, mp := h.csr.mp, tp := h.csr.tp, gl := h.csr.gl, sbase := h.csr.sbase, frm := h.csr.frm,
    cop := h.csr.cop, cstride := h.csr.cstride, mcols := h.csr.mcols, mMg := h.csr.mMg, mNg := h.csr.mNg, mclass := h.csr.mclass, s := h.s, q := h.q, ct := h.ct,
    vt := h.v.map (·.tag), st := h.st, vx := h.v.map (·.taint), mx := h.m.map (·.taint) }

/-- The entry that a vector instruction is, as it stands. -/
def Hart.entryOf (h : Hart) (word pc : Quad) : Frozen :=
  { word := word, pc := pc, start := h.start, doneElems := h.doneElems, env := h.env, capIdx := h.capIdx, capData := h.capData,
    collSeq := h.collSeq, seq := h.seq, joins := h.joins, strip := h.par.map fun n => (n, h.csr.strip) }

/-- A vector fault of an instruction, whose entry at issue is given: the queue freezes at the element where the body
stopped, and the trap is imprecise (R227, R330, R332). A precise trap is left as it is. -/
def freeze (entry : Frozen) (after : Quad) (e : Stop) : Stop :=
  match e with
  | .trap t s =>
    if t.prec then e
    else
      .trap { t with tvpc := entry.pc, tpc := some after }
        (s.mapHart fun h =>
          { h with
            frozen := insertEntry { entry with start := h.start, doneElems := h.doneElems, capIdx := h.capIdx,
                                               capData := h.capData } h.frozen,
            start := 0, doneElems := 0, capIdx := none, capData := none })
  | _ => e

/-- A collective result that has not come will write one of these groups. -/
def Hart.awaitsColl (h : Hart) (rs : List VReg) : Bool :=
  h.colls.any fun c => rs.any fun r =>
    decide (r.toNat < c.vd.toNat + 2 ^ c.env.gl.toNat ∧ c.vd.toNat < r.toNat + h.group)

/-- Wait until the registers an instruction reads or writes are complete (R33, R36). -/
def State.ready (s : State) (vs : List VReg) (ss : List SReg) : Except Stop State :=
  if s.hart.awaitsColl vs then .error (.hold .presence)
  else
    let t := (s.needV vs).needS ss
    if t.hart.struck || t.hart.pend.any (fun a => vs.any (t.hart.writesGroup a)) then .error (.hold .presence) else .ok t

/-- A non-blocking load in flight will write one of these groups (R35). -/
def Hart.awaitsNb (h : Hart) (rs : List VReg) : Bool :=
  h.pend.any fun a => a.nb && rs.any (h.writesGroup a)

/-- As `ready`, for an element-wise instruction, which may go on into the queue while a source that a non-blocking load
writes is pending, and reads what is present (R36): whether it does is a free choice. Once it runs as an entry of the
queue, the loads that it needs are performed. Log 123 (DESIGN CHOICE). -/
def State.readyEach (s : State) (vs : List VReg) (ss : List SReg) : Except Stop State :=
  if s.hart.grant.isNone && s.hart.awaitsNb vs && Config.choice s.free then .error (.hold .presence) else s.ready vs ss

/-- A blocking collective vst holds later vector instructions until it is performed (R276): until the tree has accepted
its contribution, or an abort has reached its rank. At level S one that was sent before the trap is not waited for
(R424). -/
def State.blockedVst (s : State) : Bool :=
  s.ops.any fun o => o.parts.any fun p =>
    p.hart == s.hart.ref && p.gang == s.hart.csr.gangid && p.body.isSome && !p.nb && !p.accepted
      && !o.told.contains p.rank && decide (s.hart.since ≤ p.instr)

/-! ### The vector instruction queue (R36, R338) -/

/-- An element-wise arithmetic, logic, compare or select instruction: it may execute element group by element group (R33,
R36). -/
def Instr.eachwise : Instr → Bool
  | .vadd _ | .vsub _ | .vmul _ | .vmulh _ | .vdiv _ | .vrem _ | .vmin _ | .vmax _ | .vand _ | .vor _ | .vxor _
  | .vsll _ | .vsrl _ | .vsra _ | .vpopc _ | .vclz _ | .vabs _ | .vneg _ | .vfma _ | .vfms _ | .vnfma _ | .vsqrt _
  | .vrcp _ | .vrsqrt _ | .vexp2 _ | .vlog2 _ | .vclass _ | .vcvt .. | .vcmp .. | .vsel .. => true
  | _ => false

/-- What issues only when no entry of the queue goes before it, and holds the hart till then: what sets vl, or is an engine command as well
(R45, R228, R251, R266). -/
def Instr.inStep : Instr → Bool
  | .vldff .. | .vrecv .. | .mst .. => true
  | _ => false

/-- What goes into the queue where it cannot execute, and lets the hart go on: element-wise arithmetic, logic, compare
and select (R36), what writes an s register (R190), vwait (R231), and a fifth vsend (R266). The others hold the hart's
issue (R45). Log 124 (DEDUCED). -/
def Instr.lags (i : Instr) : Bool :=
  Instr.eachwise i || (match i with
    | .mpop .. | .mfirst .. | .vmvx .. | .vwait _ | .vsend .. => true
    | _ => false)

/-- A hart whose accesses, collective results, queue, commands and interlock entries are all done: what an instruction
does to tags, taint sets and vlast is then what it does at issue, whatever it waits for (R154, R186). -/
def State.still (s : State) : State :=
  { s.mapHart fun h => { h with pend := [], colls := [], interlock := [], frozen := [], cmds := [] } with others := [] }

/-- What an instruction does when it issues, and before it executes: the tags and taint sets of its destinations, its
load tag, vlast, the count of K steps, and the operation that it opens or closes (R271). `u` is the state after a run of
it. -/
def Hart.issued (h u : Hart) : Hart :=
  { h with
    v := Vector.ofFn fun (i : Fin 64) => { h.v[i] with tag := u.v[i].tag, taint := u.v[i].taint },
    m := Vector.ofFn fun (i : Fin 8) => { h.m[i] with taint := u.m[i].taint },
    tagBusy := u.tagBusy, tag0Last := u.tag0Last, joined := u.joined,
    csr := { h.csr with vlast := u.csr.vlast, kk := u.csr.kk } }

/-- The load tag that an instruction took: one that has become outstanding, or tag 0. -/
def tookTag (h u : Hart) : Option (BitVec 4) :=
  match (List.range 16).find? fun i => bitOf u.tagBusy i && !bitOf h.tagBusy i with
  | some i => some (BitVec.ofNat 4 i)
  | none => if u.tag0Last = h.seq && h.tag0Last != h.seq then some 0 else none

/-- The sequence number of the operation that a collective instruction opens or closes when it issues (R271). -/
def tookSeq (h u : Hart) : Option Word :=
  (List.range 16).findSome? fun j =>
    match h.joined[j]!, u.joined[j]! with
    | some x, some y => if x.opened != y.opened then some y.openSeq else none
    | _, _ => none

/-- What is known at issue of an instruction that waits before it can do anything: vrecv sets vlast (R154). -/
def State.issuedBlind (s : State) : State :=
  match wordInstr s.hart.ir with
  | some (.vrecv _ vd ..) => s.mapHart fun h => { h with csr := { h.csr with vlast := vd } }
  | _ => s

/-- What an instruction leaves when it issues: the state, the load tag and the sequence number that it took. -/
structure Issue where
  st : State
  tag : Option (BitVec 4) := none
  collSeq : Option Word := none

def State.issuedAs (s : State) (u : Hart) : Issue :=
  { st := s.mapHart (·.issued u), tag := tookTag s.hart u, collSeq := tookSeq s.hart u }

/-- The issue of an instruction: its precise traps, or what it does at issue. A collective vst behind an open operation of
its group does not issue (R271). -/
def State.issueOnly (s : State) (body : State → Except Stop State) : Except Stop Issue :=
  match body s.still with
  | .ok u => .ok (s.issuedAs u.hart)
  | .error (.trap t u) => if t.prec then .error (.trap t s) else .ok (s.issuedAs u.hart)
  | .error (.hold w) => if w = .collective then .error (.hold w) else .ok { st := s.issuedBlind }
  | .error (.fault f) => .error (.fault f)

/-! ### The s registers that an instruction names (R46, R190) -/

/-- The s registers that a word may name; a convoy header may name any (R142, R144, R151, R152). -/
def Code.mayName (c : Code) (d : SReg) : Bool :=
  match c with
  | .w16 w =>
    let small := fun (n : Nat) => (1#2 ++ w.extractLsb' n 3 : BitVec 5) == d
    if w.extractLsb' 0 2 = 0#2 then
      w.extractLsb' 8 5 == d || w.extractLsb' 3 5 == d || small 10 || small 7
    else if w.extractLsb' 0 2 = 1#2 then small 9
    else false
  | .w32 w =>
    w.extractLsb' 2 5 == 0x1D#5 || [7, 12, 17, 22].any fun n => w.extractLsb' n 5 == d
  | .w64 w => [7, 13, 16, 19, 21, 25, 31].any fun n => w.extractLsb' n 5 == d

/-- The s register that a vector instruction writes. -/
def memberResult : Instr → Option SReg
  | .mpop d .. | .mfirst d .. | .vmvx d .. => some d
  | _ => none

/-- The s registers that a vector instruction names. -/
def Instr.vectorSregs : Instr → List SReg
  | .vadd o | .vsub o | .vmul o | .vmulh o | .vdiv o | .vrem o | .vmin o | .vmax o | .vand o | .vor o | .vxor o
  | .vsll o | .vsrl o | .vsra o => vsrcSregs o.vb
  | .vcmp _ _ _ vb _ => vsrcSregs vb
  | .vsplat _ r _ | .vmvs _ r _ | .mpop r .. | .mfirst r .. | .svdrn _ _ r _ | .mrd _ _ _ r _ | .mwr _ _ _ r _ => [r]
  | .vmvx a _ b | .vslideup _ _ a b _ | .vslidedn _ _ a b _ | .svclr a b | .mst _ _ a b .. => [a, b]
  | _ => []

/-- The s registers that vector words name. -/
def namedBy (ws : List Quad) : List SReg := ws.flatMap fun w => ((wordInstr w).map Instr.vectorSregs).getD []

/-- The register that a running cpyff will write (R256). -/
def Cmd.result (c : Cmd) : Option SReg :=
  match c.op with
  | .copy _ _ _ _ _ _ _ _ d => if c.running then d else none
  | _ => none

/-- An s register is still to be written by a running cpyff, or by an entry of the queue (R190, R256). -/
def Hart.sPending (h : Hart) (d : SReg) : Bool :=
  d != 0 && (h.cmds.any (fun x => x.result == some d)
    || (h.thaw && h.frozen.any fun e => (wordInstr e.word).bind memberResult == some d))

/-- Perform the loads of the s registers that vector words name, which they read when they issue; wait for one that a tag
holds, and for a command or an entry of the queue that will write one. -/
def State.settleS (s : State) (ws : List Quad) : Except Stop State :=
  let rs := namedBy ws
  let s := s.needS rs
  if s.hart.struck || rs.any (fun d => s.hart.sPending d) || s.hart.pend.any (fun a => a.sdst.any fun d => d != 0 && rs.contains d)
  then .error (.hold .presence) else .ok s

/-- Put an instruction into the queue. -/
def State.enqueue (s : State) (word pc : Quad) (body : State → Except Stop State) : Except Stop State :=
  match s.settleS [word] with
  | .error e => .error e
  | .ok s =>
    match s.issueOnly body with
    | .error e => .error e
    | .ok x =>
      let e := { s.hart.entryOf word pc with tag := x.tag, collSeq := x.collSeq }
      .ok (x.st.mapHart fun h => { h with frozen := h.frozen ++ [e], thaw := h.thaw || h.frozen.isEmpty })

/-- The index elements of a stream, read as naturals of their tag's width; an instruction that has begun reads what it
captured (R220). -/
def Hart.streamIdx (h : Hart) (q : Stream) (n : Nat) : Array Quad :=
  match h.capIdx with
  | some l => l.toArray
  | none => if 3 ≤ q.kind.toNat then h.elems q.idx (h.tagOf q.idx) n else #[]

/-- The data elements of a memory instruction, likewise. -/
def Hart.streamData (h : Hart) (r : VReg) (t : Tag) (n : Nat) : Array Quad :=
  match h.capData with
  | some l => l.toArray
  | none => h.elems r t n

/-- What a vector memory instruction reads of its index and data registers (R220). -/
def Instr.captures (h : Hart) : Instr → Option (List Quad) × Option (List Quad)
  | .vld o | .vldff o => (some (h.streamIdx h.q[o.q.toNat] h.vl).toList, none)
  | .vchg o | .vamo _ o | .vamoR _ o =>
    (some (h.streamIdx h.q[o.q.toNat] h.vl).toList, some (h.streamData o.data (h.tagOf o.data) h.vl).toList)
  | _ => (none, none)

/-- The v register that a vector memory instruction loads, and whether its elements are 64 bits wide. -/
def Instr.loads (h : Hart) : Instr → Option (VReg × Bool)
  | .vld o | .vldff o | .vchg o | .vamoR _ o => some (o.dst, (h.q[o.q.toNat]).fmt.tag.wide)
  | .vamo .. => some (0, false)
  | _ => none

/-- The v register a stream reads. -/
def Stream.vregs (q : Stream) : List VReg := if 3 ≤ q.kind.toNat then [q.idx] else []

/-- Whether the walk itself reads memory: tables or scales. -/
def Stream.walks (q : Stream) : Bool := decide (4 ≤ q.kind.toNat) || q.sc

/-- The mask of a vector memory instruction. -/
def Instr.memMask : Instr → MReg
  | .vld o | .vldff o | .vchg o | .vamo _ o | .vamoR _ o => o.mask.m
  | _ => 0

/-- A vector memory instruction begins: what writes the registers that it reads and writes is performed, and before a walk
that reads memory everything. What it captures is read then (R220). -/
def State.prepared (s : State) (word : Quad) : State :=
  let go := fun (rs : List VReg) (q : QReg) =>
    let st := s.hart.q[q.toNat]
    let t := s.needV (rs ++ st.vregs)
    if st.walks then t.drain else t
  match wordInstr word with
  | some (.vld o) | some (.vldff o) => go [o.dst] o.q
  | some (.vst o) | some (.vamo _ o) => go [o.data] o.q
  | some (.vchg o) | some (.vamoR _ o) => go [o.dst, o.data] o.q
  | _ => s

/-- The instruction changes elements of its destination only as its updates come (R236). -/
def Instr.isVamo : Instr → Bool
  | .vamo .. | .vamoR .. => true
  | _ => false

/-- Remember a vector memory instruction while its reads are in flight, to freeze it if one fails at its
home. -/
def State.launched (s : State) (before : Hart) (entry : Frozen) : State :=
  match wordInstr entry.word with
  | none => s
  | some x =>
    match Instr.loads before x with
    | none => s
    | some (vd, wide) =>
      let old := if Instr.isVamo x then [] else before.groupData vd
      (s.mapHart fun h =>
        let live := h.flights.filter fun f => h.pend.any (·.seq == f.entry.seq)
        if h.pend.any (fun a => a.seq == entry.seq && a.op.reads) then
          let cap := Instr.captures before x
          let m := Instr.memMask x
          let entry := { entry with capIdx := cap.1, capData := cap.2, capMask := if m = 0 then none else some (m, before.m[m.toNat].bits) }
          let whole := if Instr.isVamo x then { entry with doneElems := ~~~ 0 } else entry
          { h with flights := live ++ [⟨whole, vd, wide, padTo (before.regWords * before.group) old⟩] }
        else { h with flights := live })

/-- The v, m and t registers that a vector instruction reads and writes, and whether it writes an s register. -/
structure Touch where
  vr : List VReg := []
  vw : List VReg := []
  mr : List MReg := []
  mw : List MReg := []
  tr : List TReg := []
  tw : List TReg := []
  sw : Bool := false

/-- The registers of a vector instruction, its streams read as given; none for one that is no vector instruction. -/
def Instr.touch (qs : Vector Stream 16) : Instr → Option Touch
  | .vadd o | .vsub o | .vmul o | .vmulh o | .vdiv o | .vrem o | .vmin o | .vmax o | .vand o | .vor o | .vxor o | .vsll o
  | .vsrl o | .vsra o => some { vr := o.va :: vsrcVregs o.vb, vw := [o.vd], mr := [o.mask.m] }
  | .vpopc o | .vclz o | .vabs o | .vneg o | .vsqrt o | .vrcp o | .vrsqrt o | .vexp2 o | .vlog2 o | .vclass o
  | .vcvt _ o => some { vr := [o.va], vw := [o.vd], mr := [o.mask.m] }
  | .vfma o | .vfms o | .vnfma o => some { vr := [o.va, o.vb, o.vc], vw := [o.vd], mr := [o.mask.m] }
  | .vcmp _ md va vb mask => some { vr := va :: vsrcVregs vb, mr := [mask.m], mw := [md] }
  | .vsel vd va vb mask | .vperm vd va vb mask => some { vr := [va, vb], vw := [vd], mr := [mask.m] }
  | .mand md ma mb | .mor md ma mb | .mxor md ma mb | .mandn md ma mb => some { mr := [ma, mb], mw := [md] }
  | .mnot md ma | .mtolist md ma | .mtobit md ma => some { mr := [ma], mw := [md] }
  | .mpop _ ma mask | .mfirst _ ma mask => some { mr := [ma, mask.m], sw := true }
  | .mfromx md va mask | .svins md va mask => some { vr := [va], mr := [mask.m], mw := [md] }
  | .vidx vd _ _ mask | .vsplat vd _ mask | .vmvs vd _ mask => some { vw := [vd], mr := [mask.m] }
  | .vmv vd va mask | .vslideup vd va _ _ mask | .vslidedn vd va _ _ mask | .vcompress vd va mask | .vexpand vd va mask
  | .vrev vd va mask => some { vr := [va], vw := [vd], mr := [mask.m] }
  | .vtag _ vd va => some { vr := [va], vw := [vd] }
  | .vmvx _ va _ => some { vr := [va], sw := true }
  | .vred o | .vscan o => some { vr := o.va :: o.init.toList, vw := [o.vd], mr := [o.mask.m] }
  | .vsegred _ vd va mc mask _ => some { vr := [va], vw := [vd], mr := [mc, mask.m] }
  | .vld o | .vldff o => some { vr := qs[o.q.toNat].vregs, vw := [o.dst], mr := [o.mask.m] }
  | .vst o | .vamo _ o => some { vr := o.data :: qs[o.q.toNat].vregs, mr := [o.mask.m] }
  | .vchg o | .vamoR _ o => some { vr := o.data :: qs[o.q.toNat].vregs, vw := [o.dst], mr := [o.mask.m] }
  | .vwait va | .vsend _ _ va _ => some { vr := [va] }
  | .vpres md va => some { vr := [va], mw := [md] }
  | .svlook vd mc va mask => some { vr := [va], vw := [vd], mr := [mask.m], mw := [mc] }
  | .svacc md va vb mask => some { vr := [va, vb], mr := [mask.m], mw := [md] }
  | .svdrn vd vb _ mask => some { vw := [vd, vb], mr := [mask.m] }
  | .svclr _ _ => some {}
  | .mzero t => some { tw := [t] }
  | .mop t va vb mask _ | .mopn t va vb mask _ => some { vr := [va, vb], mr := [mask.m], tr := [t], tw := [t] }
  | .mrd _ vd t _ mask => some { vw := [vd], mr := [mask.m], tr := [t] }
  | .mwr _ t va _ mask => some { vr := [va], mr := [mask.m], tw := [t] }
  | .mst q t _ _ mask _ _ _ => some { vr := qs[q.toNat].vregs, mr := [mask.m], tr := [t] }
  | .vrecv _ vd _ _ => some { vw := [vd] }
  | .collectiveVst o => some { vr := [o.reg], mr := [o.mask.m] }
  | .collectiveVld o => some { vw := [o.reg], mr := [o.mask.m] }
  | _ => none

/-- Groups of v registers of given lengths overlap. -/
def groupsMeet (ga gb : Nat) (a b : List VReg) : Bool :=
  a.any fun x => b.any fun y => decide (x.toNat < y.toNat + gb ∧ y.toNat < x.toNat + ga)

/-- Two instructions that may not change places: one writes a register that the other reads or writes. -/
def Touch.clashes (ga gb : Nat) (a b : Touch) : Bool :=
  groupsMeet ga gb a.vw (b.vr ++ b.vw) || groupsMeet ga gb a.vr b.vw
    || a.mw.any (fun m => b.mr.contains m || b.mw.contains m) || b.mw.any a.mr.contains
    || a.tw.any (fun t => b.tr.contains t || b.tw.contains t) || b.tw.any a.tr.contains

/-- A fabric instruction that names an f register. -/
def Instr.fabric : Instr → Option FReg
  | .vsend _ f .. | .vrecv _ _ f _ => some f
  | .collectiveVst o | .collectiveVld o => some o.f
  | _ => none

/-- What every later vector instruction waits for: vwait, a vrecv or vldff, whose vl is not known, and a blocking
collective vst (R228, R231, R266, R276). -/
def Instr.holdsAll : Instr → Bool
  | .vwait _ | .vrecv .. | .vldff _ => true
  | .collectiveVst o => !o.nb
  | _ => false

/-- An entry of the queue goes before a later instruction: they share a register, both make accesses to memory or both
use the fabric, or the entry holds all that follows. -/
def Frozen.goesBefore (e : Frozen) (word : Quad) (gl : BitVec 2) (q : Vector Stream 16) : Bool :=
  match wordInstr e.word, wordInstr word with
  | some x, some y =>
    (match Instr.touch e.env.q x, Instr.touch q y with
      | some a, some b =>
        Instr.holdsAll x || Touch.clashes (2 ^ e.env.gl.toNat) (2 ^ gl.toNat) a b
          || (!quietWord e.word && !quietWord word && (Instr.fabric x).isSome == (Instr.fabric y).isSome)
      | _, _ => true)
  | _, _ => true

/-- What passes the queue: vpres, which does not wait for the registers that it looks at (R231), unless a vwait stands in it
or an entry reads or writes the mask that it writes; and what executes as it issues, where no entry goes before it. -/
def Hart.passes (h : Hart) (word : Quad) : Bool :=
  match wordInstr word with
  | some (.vpres md _) => !h.frozen.any fun e => match wordInstr e.word with
      | none => true
      | some x => Instr.holdsAll x || (Instr.touch e.env.q x).any fun t => t.mr.contains md || t.mw.contains md
  | some x => Instr.inStep x && !h.frozen.any fun e => e.goesBefore word h.csr.gl h.q
  | none => false

/-- Entries of a core's matrix queue (R242). -/
def matrixEntries : Nat := 32

/-- Partitions of a core whose harts wait for an entry of its matrix queue, in the order of the rotation (R242). -/
def State.matrixWaiters (s : State) (h : Hart) : List Nat :=
  let last := (s.core h.pkg h.die h.core).served
  ((List.range 8).map fun i => (last + 1 + i) % 8).filter fun p =>
    s.harts.any fun x => x.pkg == h.pkg && x.die == h.die && x.core == h.core && HartRef.part x.ref == p
      && decide (x.status = .held .matrix)

/-- A word is that of a matrix instruction. -/
def matrixWord (w : Quad) : Bool :=
  match wordInstr w with
  | some (.mzero _) | some (.mop ..) | some (.mopn ..) | some (.mrd ..) | some (.mwr ..) | some (.mst ..) => true
  | _ => false

/-- Entries of the core's matrix queue that are taken: by mst until it completes, and by what has issued and waits in the
vector instruction queue (R242). -/
def State.matrixUsed (s : State) (h : Hart) : Nat :=
  s.harts.foldl (fun n x => if x.pkg = h.pkg ∧ x.die = h.die ∧ x.core = h.core then
    n + (x.cmds.filter Cmd.isDrain).length + (x.frozen.filter fun e => matrixWord e.word).length else n) 0

/-- Take an entry of the core's matrix queue (R242). Waiting harts take freed entries in rotation. An entry of the vector
instruction queue has taken its own when it issued. -/
def State.matrixEntry (s : State) : Except Stop State :=
  let h := s.hart
  let waiting := s.matrixWaiters h
  let mine := HartRef.part h.ref
  let ahead := if waiting.contains mine then (waiting.takeWhile (· != mine)).length else waiting.length
  if h.grant.isSome then .ok s
  else if matrixEntries ≤ s.matrixUsed h + ahead then .error (.hold .matrix)
  else if waiting.contains mine then .ok (s.setCore { s.core h.pkg h.die h.core with served := mine })
  else .ok s

/-- Run an instruction now, or put it into the queue, as the member or the only instruction of a convoy at `pc`; `after` is
the address of the next scalar instruction. A later member of a convoy has issued with the first (R150): it goes into the
queue wherever it cannot execute. So does an access that a tag holds before it is made: it orders nothing else (R127). -/
def State.issueVector (s : State) (word pc after : Quad) (later : Bool) (body : State → Except Stop State) :
    Except Stop State :=
  let queueIt := match (if matrixWord word && !later then s.matrixEntry else .ok s) with
    | .error e => .error e
    | .ok s =>
      match s.enqueue word pc body with
      | .ok t => .ok t.nextSeq
      | .error e => .error e
  if s.hart.queued && !s.hart.passes word then
    (if later || (wordInstr word).any (fun x => !Instr.inStep x) then queueIt else .error (.hold .presence))
  else if s.blockedVst then (if later then queueIt else .error (.hold .collective))
  else
    let t := s.prepared word
    match body t with
    | .ok u => .ok ((u.launched t.hart (t.hart.entryOf word pc)).nextSeq)
    | .error (.hold w) =>
      if later || (s.hart.frozen.isEmpty && (w == .collective || (wordInstr word).any Instr.lags)) then queueIt else .error (.hold w)
    | .error e => .error (freeze (t.hart.entryOf word pc) after e)

/-- An instruction of n bytes that is a convoy of one: what `body` gives, then the next address. `word` is its vector
word. -/
def State.vectorN (s : State) (n : Nat) (word : Quad) (body : State → Except Stop State) : Host.Outcome State Fault Refusal :=
  finish s (
    match s.issueVector word s.hart.pc (s.hart.pc + BitVec.ofNat 64 n) false body with
    | .ok s' => .ok (s'.done n)
    | .error e => .error e)

/-- As `vectorN` for a vector word. -/
def State.vector (s : State) (body : State → Except Stop State) : Host.Outcome State Fault Refusal :=
  s.vectorN 8 s.hart.ir body

/-! ### Streams (R216 to R219) -/

/-- A check of a stream element that failed, with the stream level (R227). -/
structure ElemFail where
  err : Fail ⊕ Fault
  level : Nat
  k : AccKind
  /-- A policy had clamped or dropped at an earlier level of the element (R217). -/
  clamped : Bool := false
  deriving DecidableEq, Repr

/-- What the index walk of one element gives: the data index, or none when it is dropped; whether a
policy clamped or dropped; whether an engine has read a poisoned table (R111). -/
structure Walked where
  index : Option Quad
  clamped : Bool
  poison : Bool := false
  deriving DecidableEq, Repr

/-- Check(x, b, pol) of R217: some index, or none for DROP. -/
def boundCheck (x b : Quad) (pol : Policy) : Except Quad Walked :=
  if x.toNat < b.toNat then .ok ⟨some x, false, false⟩
  else
    match pol with
    | .trap => .error x
    | .clamp => if b ≠ 0 then .ok ⟨some (b - 1), true, false⟩ else .ok ⟨none, true, false⟩
    | .drop => .ok ⟨none, true, false⟩

/-- Record what a window's buffer holds after a read through it (R99). -/
def Hart.setBuffer (h : Hart) (slot : Nat) (w : Window) (buf : List (Nat × Nat)) : Hart :=
  { h with windows := h.windows.set! slot (some { w with buf := buf }) }

/-- Bytes at a place that a check has found: through the window of its slot, or at the home (R99). -/
def State.readAt (s : State) (l : Loc) (n : Nat) : Nat × State :=
  match l.slot with
  | none => (readN s.mem l.phys n, s)
  | some i =>
    match s.hart.windows[i]! with
    | none => (readN s.mem l.phys n, s)
    | some w =>
      let r := staleRead s.mem w.buf l.phys n s.free
      (r.1, (s.mapHart (·.setBuffer i w r.2)).drawn)

/-- A read of a table or scale for one element: checked by R88 on its own address (R218, R219). An engine goes on with
a poisoned one, and says so (R111). A vector instruction makes these reads on the step on which it issues, once the
loads that would hold them are performed and its own earlier stores (`State.walkReady`). Log 126 (DESIGN CHOICE). -/
def State.readAux (s : State) (asid : BitVec 16) (a : Quad) (n level : Nat) (k : AccKind) :
    Except ElemFail (Nat × Bool × State) :=
  match s.check19 s.hart asid a n k .any with
  | .error e => .error ⟨e, level, k, false⟩
  | .ok l =>
    if s.poisoned l.phys && k != .engRead then .error ⟨.inl ⟨0x0B, a, none⟩, level, k, false⟩
    else
      let r := s.readAt l n
      .ok (r.1, s.poisoned l.phys, r.2)

/-- One level of the walk: the bound check, then the table read (R217). -/
def State.walkLevel (s : State) (asid : BitVec 16) (k : AccKind) (x bound : Quad) (pol : Policy)
    (table : Option Quad) (level : Nat) : Except ElemFail (Walked × State) :=
  match boundCheck x bound pol with
  | .error v => .error ⟨.inl ⟨0x0A, v, none⟩, level, k, false⟩
  | .ok ⟨none, c, p⟩ => .ok (⟨none, c, p⟩, s)
  | .ok ⟨some y, c, p⟩ =>
    match table with
    | none => .ok (⟨some y, c, p⟩, s)
    | some t =>
      match s.readAux asid (t + 4 * y) 4 level k with
      | .error e => .error { e with clamped := c }
      | .ok (v, q, s) => .ok (⟨some (BitVec.ofNat 64 v), c, q⟩, s)

/-- Chain a further level after one that may have dropped the element. -/
def Walked.andThen (w : Walked) (s : State) (f : State → Quad → Except ElemFail (Walked × State)) :
    Except ElemFail (Walked × State) :=
  match w.index with
  | none => .ok (w, s)
  | some x =>
    match f s x with
    | .error e => .error { e with clamped := e.clamped || w.clamped }
    | .ok (v, s) => .ok (⟨v.index, v.clamped || w.clamped, v.poison || w.poison⟩, s)

/-- DataIndex(q, j): for KIND 1 and 2, sbase + j; else the walk of R217 on element j of IDX. -/
def State.dataIndex (s : State) (asid : BitVec 16) (k : AccKind) (q : Stream) (sbase : Quad)
    (idx : Nat → Quad) (j : Nat) : Except ElemFail (Walked × State) :=
  if q.kind = 1 ∨ q.kind = 2 then .ok (⟨some (sbase + BitVec.ofNat 64 j), false, false⟩, s)
  else
    let l1 := fun (s : State) x => s.walkLevel asid k x q.bound1 q.pol1 none 0
    let l2 := fun (s : State) x =>
      match s.walkLevel asid k x q.bound2 q.pol2 (some q.stride) 1 with
      | .error e => .error e
      | .ok (w, s) => w.andThen s l1
    let l3 := fun (s : State) x =>
      match s.walkLevel asid k x q.bound3 q.pol3 (some q.table2) 2 with
      | .error e => .error e
      | .ok (w, s) => w.andThen s l2
    if q.kind = 3 then l1 s (idx j) else if q.kind = 4 then l2 s (idx j) else l3 s (idx j)

/-- The address of a data index (R216). -/
def Stream.address (q : Stream) (d : Quad) : Quad :=
  if q.kind = 2 then q.base + d * q.stride
  else if q.fmt = .e2m1 then q.base + d / 2
  else q.base + d * BitVec.ofNat 64 q.fmt.bytes

/-- The address of the scale of a data index (R219). -/
def Stream.scaleAddress (scale : Stream) (d : Quad) : Quad :=
  if scale.kind = 2 then scale.base + d / 32 * scale.stride else scale.base + d / 32

/-- One element of a stream access, checked: where it goes, its data index and its scale; whether an engine read a
poisoned table or scale for it. -/
structure Elem where
  j : Nat
  d : Quad
  loc : Loc
  scale : Option Byte
  poison : Bool := false
  deriving DecidableEq, Repr

/-- The scale of a data index, when SC = 1 (R219). -/
def State.readScale (s : State) (asid : BitVec 16) (k : AccKind) (scale : Option Stream) (d : Quad) :
    Except ElemFail (Option Byte × Bool × State) :=
  match scale with
  | none => .ok (none, false, s)
  | some sq =>
    match s.readAux asid (sq.scaleAddress d) 1 3 k with
    | .error e => .error e
    | .ok (v, p, s) => .ok (some (BitVec.ofNat 8 v), p, s)

/-- All the checks of one element, in the order of R227: some element, or none where it is dropped;
whether a policy acted; and the state, in which only window buffers have changed. -/
def State.element (s : State) (asid : BitVec 16) (k auxK : AccKind) (q : Stream)
    (scale : Option Stream) (sbase : Quad) (idx : Nat → Quad) (j : Nat) :
    Except ElemFail (Option Elem × Bool × State) :=
  match s.dataIndex asid auxK q sbase idx j with
  | .error e => .error e
  | .ok (⟨none, c, _⟩, s) => .ok (none, c, s)
  | .ok (⟨some d, c, p⟩, s) =>
    match s.readScale asid auxK scale d with
    | .error e => .error { e with clamped := c }
    | .ok (b, p', s) =>
      match s.check s.hart asid (q.address d) q.fmt.bytes k .any with
      | .error e => .error ⟨e, 0, k, c⟩
      | .ok l => .ok (some ⟨j, d, l, b, p || p'⟩, c, s)

/-- Checks of a stream's configuration at issue (R51, R72, R217, R223): the scale stream when SC = 1. -/
def State.streamOk (s : State) (q : Stream) : Except Stop (Option Stream) :=
  let h := s.hart
  let bad := (Except.error (insnTrap s 0x0C) : Except Stop (Option Stream))
  if q.kind = 0 ∨ q.fmt = .e8m0 then bad
  else if 3 ≤ q.kind.toNat ∧ !h.regOk q.idx then bad
  else if 3 ≤ q.kind.toNat ∧ (h.tagOf q.idx).isF then .error (insnTrap s 0x04)
  else if q.sc then
    let sq := h.q[q.scq.toNat]
    if q.fmt.scalable ∧ (sq.kind = 1 ∨ sq.kind = 2) ∧ sq.fmt = .e8m0 then .ok (some sq) else bad
  else .ok none

/-- An instruction has begun, and stops at element j: what it read of its index and data registers is kept. -/
def Hart.stopAt (h : Hart) (j : Nat) (idx data : Array Quad) : Hart :=
  { h with start := j, capIdx := some idx.toList, capData := some data.toList }

/-- Taint of a stream access: the stream, its scale stream, its IDX register (R225, R219). -/
def Hart.taintStream (h : Hart) (q : QReg) : TaintSet :=
  let st := h.q[q.toNat]
  st.taint ||| (if st.sc then h.taintQ st.scq else 0)
    ||| (if 3 ≤ st.kind.toNat then h.taintV st.idx else 0)

/-! ### The queue and later accesses (R118) -/

/-- An entry of the queue that has not executed accesses bytes of [lo, lo + n), and one of the two writes. -/
def Hart.queueTouches (h : Hart) (lo n : Nat) (write : Bool) : Bool :=
  h.thaw && h.frozen.any fun e => e.ranges.any fun r => (r.2 || write) && meets lo n (h.canon r.1.1) r.1.2

/-- An earlier entry of the queue makes an access, and has not executed. -/
def Hart.loudQueue (h : Hart) : Bool := h.thaw && h.frozen.any fun e => !quietWord e.word

/-- The nearest scope that holds a home of a byte range (R121): 1 the own vault, 2 the own die, 3 the own package, 4
any. -/
def Hart.rankRange (h : Hart) (r : Quad × Nat) : Nat :=
  let lo := h.canon r.1
  let place := h.pkg * 2 ^ 53 + h.die * 2 ^ 51
  if r.2 = 0 then 4
  else if meets lo r.2 (2 ^ 61 + place + h.core * 2 ^ 44) (2 ^ 44) then 1
  else if meets lo r.2 place (2 ^ 51) || meets lo r.2 (2 ^ 61 + place) (2 ^ 51) then 2
  else if meets lo r.2 (h.pkg * 2 ^ 53) (2 ^ 53) || meets lo r.2 (2 ^ 61 + h.pkg * 2 ^ 53) (2 ^ 53) then 3
  else 4

/-- The nearest scope that holds a home of what an entry of the queue has still to access: 5 where it accesses nothing
(R121, R267, R276). -/
def Hart.entryRank (h : Hart) (e : Frozen) : Nat :=
  match wordInstr e.word with
  | some (.vsend _ f ..) =>
    (match h.f[f.toNat] with
      | .peer _ r .. => if r.pkg ≠ h.pkg then 4 else if HartRef.die r = h.die then 2 else 3
      | _ => 4)
  | some (.vrecv ..) => 2
  | some (.collectiveVst _) => 3
  | some (.collectiveVld _) => 4
  | _ => e.ranges.foldl (fun acc r => min acc (h.rankRange r.1)) 5

/-- lsync (R121): wait for engine commands within the scope, perform every access whose home is within
it, and order each slice's later accesses after its earlier ones. Log 39 (DEDUCED). -/
def State.lsync (s : State) (sc : Scope) : Except Stop State :=
  let n := Scope.rank sc
  if s.hart.cmds.any (fun c => c.running && decide (c.nearest ≤ n)) || s.remoteBusy n
      || s.hart.colls.any (fun c => decide ((if c.msg.isSome then 2 else 4) ≤ n))
      || (s.hart.thaw && s.hart.frozen.any fun e => decide (s.hart.entryRank e ≤ n)) then .error (.hold .sync)
  else
    let within := fun (a : Access) => decide (s.hart.rankOf a.slice ≤ n)
    let s := if sc = .g then s.drain else s.drainUntil within
    if s.hart.pend.any within || s.hart.hits.any (·.level == s.hart.level) then .error (.hold .sync)
    else .ok (s.mapHart fun h => ({ h with unacked := (if sc = .h then h.unacked else []), joins := h.joins + 1 } : Hart).completeNb)

/-- Wait at issue while an interlock entry conflicts (R134), or an earlier entry of the queue has still to access the same
bytes (R118). -/
def State.awaitTurn (s : State) (lo n : Nat) (write : Bool) : Except Stop Unit :=
  if s.hart.queueTouches lo n write then .error (.hold .presence) else s.awaitRange lo n write

/-- Clear the poison of every granule that a range covers whole (R110). -/
def State.clearPoison (s : State) (phys n : Nat) : State :=
  { s with poison := s.poison.filter fun g => !decide (phys ≤ 32 * g ∧ 32 * g + 32 ≤ phys + n) }

/-- Place bytes at a physical address, with the poison of those granules that are poisoned. -/
def State.placeBytes (s : State) (phys : Nat) (bytes : List Byte) (bad : List Nat) : State :=
  let s := ({ s with mem := s.put phys bytes.length (byteNat bytes) } : State).clearPoison phys bytes.length
  { s with poison := bad.foldl (fun l i => insertNat l (granule phys + i)) s.poison }

end Sys2Proof.Machine
end

