-- ==== Sys2Proof/Machine/Scalar.lean ====
section
/-! DEFINITION. The integer, constant, address-field and branch instructions of the scalar front end
(08 R158 to R163) and their compact forms (07 R152). -/

namespace Sys2Proof.Machine

/-! ### Shared operations -/

/-- A scalar instruction of n bytes that uses these s registers: loads into them are performed first,
then it changes the hart. -/
def State.scalar (s : State) (n : Nat) (rs : List SReg) (f : Hart → Hart) :
    Host.Outcome State Fault Refusal :=
  .next (((s.needS rs).mapHart f).done n)

/-- sd := f(sa, sb), with the union of the taints (R158). -/
def State.op2 (s : State) (n : Nat) (f : Quad → Quad → Quad) (d a b : SReg) : Host.Outcome State Fault Refusal :=
  s.scalar n [d, a, b] fun h => h.setS d (f (h.getS a) (h.getS b)) (h.taintS a ||| h.taintS b)

/-- sd := f(sa), with the taint of sa. -/
def State.op1 (s : State) (n : Nat) (f : Quad → Quad) (d a : SReg) : Host.Outcome State Fault Refusal :=
  s.scalar n [d, a] fun h => h.setS d (f (h.getS a)) (h.taintS a)

/-- sd := a constant that may depend on pc, with an empty taint set (R125). -/
def State.op0 (s : State) (n : Nat) (f : Hart → Quad) (d : SReg) : Host.Outcome State Fault Refusal :=
  s.scalar n [d] fun h => h.setS d (f h) 0

/-- Number of trailing zeros, `w` for zero. -/
def ctzGo (x : Nat) : Nat → Nat → Nat
  | 0, i => i
  | w + 1, i => if x.testBit i then i else ctzGo x w (i + 1)

/-- Number of set bits among the low w. -/
def popCount (x w : Nat) : Nat := ((List.range w).filter fun i => x.testBit i).length

/-- Number of leading zeros in w bits. -/
def leadingZeros (x w : Nat) : Nat := w - bitLen x

def mulHigh (signed : Bool) (x y : Quad) : Quad :=
  let t : Tag := if signed then .i64 else .n64
  BitVec.ofInt 64 (t.int x * t.int y / 2 ^ 64)

def quotient (t : Tag) (x y : Quad) : Quad := t.ofInt false (divInt t x y)
def remainder (t : Tag) (x y : Quad) : Quad := t.ofInt false (remInt t x y)

def shiftCount (y : Quad) : Nat := fieldOf y 0 6

/-- First bit and width of an address field (R84, R161). -/
def AddrField.place : AddrField → Nat × Nat
  | .kind => (61, 3) | .pkg => (53, 8) | .die => (51, 2) | .chan => (42, 9) | .core => (44, 7)
  | .goff => (0, 42) | .voff => (0, 22) | .wslot => (56, 5) | .woff => (0, 56)

/-- x with a field replaced by the low bits of y. -/
def AddrField.put (f : AddrField) (x y : Quad) : Quad :=
  let (lo, n) := AddrField.place f
  let m : Quad := BitVec.ofNat 64 (2 ^ n - 1) <<< lo
  (x &&& ~~~ m) ||| ((y <<< lo) &&& m)

def AddrField.get (f : AddrField) (x : Quad) : Quad :=
  let (lo, n) := AddrField.place f
  BitVec.ofNat 64 (fieldOf x lo n)

/-- The register that a 3-bit field of a compact form names (R152). -/
def sreg8 (r : BitVec 3) : SReg := (1#2 ++ r)

/-- A branch of n bytes: the control taint gains the taint of the tested registers, whether or not
it is taken (R126, R162). What the front end does before the registers are known is `State.lookPast`. -/
def State.branch (s : State) (n : Nat) (rs : List SReg) (target : Quad) (taken : Hart → Bool) :
    Host.Outcome State Fault Refusal :=
  let s := s.needS rs
  .next (s.mapHart fun h =>
    let t := rs.foldl (fun acc r => acc ||| h.taintS r) 0
    { h.addControl t with pc := if taken h then target else h.pc + BitVec.ofNat 64 n, status := .running })

/-- Twice a signed offset, from the address of the instruction (R140, R142). -/
def State.relative {w : Nat} (s : State) (off : BitVec w) : Quad := s.hart.pc + 2 * off.signExtend 64

/-- Jump through a register; an odd target traps at the jump and writes nothing (R140, R163). -/
def State.jumpReg (s : State) (a : SReg) (link : Option SReg) : Host.Outcome State Fault Refusal :=
  let s := s.needS (a :: link.toList)
  let t := s.hart.getS a
  if t.getLsbD 0 then finish s (.error (addrTrap s 0x06 t))
  else
    .next (s.mapHart fun h =>
      let h' := match link with
        | none => h
        | some d => h.setS d (h.pc + 4) 0
      { h'.addControl (h.taintS a) with pc := t, status := .running })

/-- j and jal. -/
def State.jump (s : State) (target : Quad) (link : Bool) : Host.Outcome State Fault Refusal :=
  let s := if link then s.needS [1] else s
  .next (s.mapHart fun h => { (if link then h.setS 1 (h.pc + 4) 0 else h) with pc := target, status := .running })


/-! ### Integer register operations (R158) -/


/-- add: sa + sb modulo 2^64. -/
def execAdd (d a b : SReg) (s : State) : Host.Outcome State Fault Refusal := s.op2 4 (fun x y => x + y) d a b
/-- sub: sa - sb modulo 2^64. -/
def execSub (d a b : SReg) (s : State) : Host.Outcome State Fault Refusal := s.op2 4 (fun x y => x - y) d a b
/-- and: R158. -/
def execAnd (d a b : SReg) (s : State) : Host.Outcome State Fault Refusal := s.op2 4 (fun x y => x &&& y) d a b
/-- or: R158. -/
def execOr (d a b : SReg) (s : State) : Host.Outcome State Fault Refusal := s.op2 4 (fun x y => x ||| y) d a b
/-- xor: R158. -/
def execXor (d a b : SReg) (s : State) : Host.Outcome State Fault Refusal := s.op2 4 (fun x y => x ^^^ y) d a b
/-- sll: sa shifted left by sb[5:0]. -/
def execSll (d a b : SReg) (s : State) : Host.Outcome State Fault Refusal := s.op2 4 (fun x y => x <<< shiftCount y) d a b
/-- srl: sa shifted right by sb[5:0], filling with 0. -/
def execSrl (d a b : SReg) (s : State) : Host.Outcome State Fault Refusal := s.op2 4 (fun x y => x >>> shiftCount y) d a b
/-- sra: sa shifted right by sb[5:0], filling with sa[63]. -/
def execSra (d a b : SReg) (s : State) : Host.Outcome State Fault Refusal := s.op2 4 (fun x y => x.sshiftRight (shiftCount y)) d a b
/-- rotl: R158. -/
def execRotl (d a b : SReg) (s : State) : Host.Outcome State Fault Refusal := s.op2 4 (fun x y => x.rotateLeft (shiftCount y)) d a b
/-- rotr: R158. -/
def execRotr (d a b : SReg) (s : State) : Host.Outcome State Fault Refusal := s.op2 4 (fun x y => x.rotateRight (shiftCount y)) d a b
/-- mul: the low 64 bits of the product. -/
def execMul (d a b : SReg) (s : State) : Host.Outcome State Fault Refusal := s.op2 4 (fun x y => x * y) d a b
/-- mulh: the high 64 bits of the I product. -/
def execMulh (d a b : SReg) (s : State) : Host.Outcome State Fault Refusal := s.op2 4 (mulHigh true) d a b
/-- mulhN: the high 64 bits of the N product. -/
def execMulhN (d a b : SReg) (s : State) : Host.Outcome State Fault Refusal := s.op2 4 (mulHigh false) d a b
/-- div: R158. -/
def execDiv (d a b : SReg) (s : State) : Host.Outcome State Fault Refusal := s.op2 4 (quotient .i64) d a b
/-- divN: R158. -/
def execDivN (d a b : SReg) (s : State) : Host.Outcome State Fault Refusal := s.op2 4 (quotient .n64) d a b
/-- rem: R158. -/
def execRem (d a b : SReg) (s : State) : Host.Outcome State Fault Refusal := s.op2 4 (remainder .i64) d a b
/-- remN: R158. -/
def execRemN (d a b : SReg) (s : State) : Host.Outcome State Fault Refusal := s.op2 4 (remainder .n64) d a b
/-- min: R158. -/
def execMin (d a b : SReg) (s : State) : Host.Outcome State Fault Refusal := s.op2 4 (fun x y => if x.toInt ≤ y.toInt then x else y) d a b
/-- max: R158. -/
def execMax (d a b : SReg) (s : State) : Host.Outcome State Fault Refusal := s.op2 4 (fun x y => if x.toInt ≤ y.toInt then y else x) d a b
/-- minN: R158. -/
def execMinN (d a b : SReg) (s : State) : Host.Outcome State Fault Refusal := s.op2 4 (fun x y => if x.toNat ≤ y.toNat then x else y) d a b
/-- maxN: R158. -/
def execMaxN (d a b : SReg) (s : State) : Host.Outcome State Fault Refusal := s.op2 4 (fun x y => if x.toNat ≤ y.toNat then y else x) d a b
/-- slt: R158. -/
def execSlt (d a b : SReg) (s : State) : Host.Outcome State Fault Refusal := s.op2 4 (fun x y => boolQuad (decide (x.toInt < y.toInt))) d a b
/-- sltN: R158. -/
def execSltN (d a b : SReg) (s : State) : Host.Outcome State Fault Refusal := s.op2 4 (fun x y => boolQuad (decide (x.toNat < y.toNat))) d a b
/-- clz: leading zeros, 0 to 64 (R158). -/
def execClz (d a : SReg) (s : State) : Host.Outcome State Fault Refusal := s.op1 4 (fun x => BitVec.ofNat 64 (leadingZeros x.toNat 64)) d a
/-- ctz: trailing zeros, 0 to 64 (R158). -/
def execCtz (d a : SReg) (s : State) : Host.Outcome State Fault Refusal := s.op1 4 (fun x => BitVec.ofNat 64 (ctzGo x.toNat 64 0)) d a
/-- popc: set bits (R158). -/
def execPopc (d a : SReg) (s : State) : Host.Outcome State Fault Refusal := s.op1 4 (fun x => BitVec.ofNat 64 (popCount x.toNat 64)) d a

/-! ### Immediate and constant forms (R159, R160) -/


/-- addi: R159. -/
def execAddi (d a : SReg) (imm : BitVec 15) (s : State) : Host.Outcome State Fault Refusal := s.op1 4 (fun x => x + imm.signExtend 64) d a
/-- andi: R159. -/
def execAndi (d a : SReg) (imm : BitVec 15) (s : State) : Host.Outcome State Fault Refusal := s.op1 4 (fun x => x &&& imm.signExtend 64) d a
/-- ori: R159. -/
def execOri (d a : SReg) (imm : BitVec 15) (s : State) : Host.Outcome State Fault Refusal := s.op1 4 (fun x => x ||| imm.signExtend 64) d a
/-- xori: R159. -/
def execXori (d a : SReg) (imm : BitVec 15) (s : State) : Host.Outcome State Fault Refusal := s.op1 4 (fun x => x ^^^ imm.signExtend 64) d a
/-- slli: R159. -/
def execSlli (d a : SReg) (count : BitVec 6) (s : State) : Host.Outcome State Fault Refusal := s.op1 4 (fun x => x <<< count.toNat) d a
/-- srli: R159. -/
def execSrli (d a : SReg) (count : BitVec 6) (s : State) : Host.Outcome State Fault Refusal := s.op1 4 (fun x => x >>> count.toNat) d a
/-- srai: R159. -/
def execSrai (d a : SReg) (count : BitVec 6) (s : State) : Host.Outcome State Fault Refusal := s.op1 4 (fun x => x.sshiftRight count.toNat) d a
/-- lih: SignExtend(imm20) x 2^15 (R160). -/
def execLih (d : SReg) (imm : BitVec 20) (s : State) : Host.Outcome State Fault Refusal := s.op0 4 (fun _ => imm.signExtend 64 <<< 15) d
/-- adr: its own address plus SignExtend(imm20) (R160). -/
def execAdr (d : SReg) (imm : BitVec 20) (s : State) : Host.Outcome State Fault Refusal := s.op0 4 (fun h => h.pc + imm.signExtend 64) d
/-- li64: SignExtend(imm48) (R160). -/
def execLi64 (d : SReg) (imm : BitVec 48) (s : State) : Host.Outcome State Fault Refusal := s.op0 8 (fun _ => imm.signExtend 64) d

/-! ### Address fields (R161) -/


/-- gmk: sa with the field replaced by the low bits of sb. -/
def execGmk (f : AddrField) (d a b : SReg) (s : State) : Host.Outcome State Fault Refusal := s.op2 4 (AddrField.put f) d a b
/-- gfld: the field of sa, zero-extended. -/
def execGfld (f : AddrField) (d a : SReg) (s : State) : Host.Outcome State Fault Refusal := s.op1 4 (AddrField.get f) d a

/-! ### Branches and jumps (R162, R163) -/


/-- bEq: R162. -/
def execBEq (a b : SReg) (off : BitVec 12) (s : State) : Host.Outcome State Fault Refusal := 
  s.branch 4 [a, b] (s.relative off) fun h => decide (h.getS a = h.getS b)
/-- bNe: R162. -/
def execBNe (a b : SReg) (off : BitVec 12) (s : State) : Host.Outcome State Fault Refusal := 
  s.branch 4 [a, b] (s.relative off) fun h => decide (h.getS a ≠ h.getS b)
/-- bLt: R162. -/
def execBLt (a b : SReg) (off : BitVec 12) (s : State) : Host.Outcome State Fault Refusal := 
  s.branch 4 [a, b] (s.relative off) fun h => decide ((h.getS a).toInt < (h.getS b).toInt)
/-- bGe: R162. -/
def execBGe (a b : SReg) (off : BitVec 12) (s : State) : Host.Outcome State Fault Refusal := 
  s.branch 4 [a, b] (s.relative off) fun h => decide ((h.getS b).toInt ≤ (h.getS a).toInt)
/-- bLtN: R162. -/
def execBLtN (a b : SReg) (off : BitVec 12) (s : State) : Host.Outcome State Fault Refusal := 
  s.branch 4 [a, b] (s.relative off) fun h => decide ((h.getS a).toNat < (h.getS b).toNat)
/-- bGeN: R162. -/
def execBGeN (a b : SReg) (off : BitVec 12) (s : State) : Host.Outcome State Fault Refusal := 
  s.branch 4 [a, b] (s.relative off) fun h => decide ((h.getS b).toNat ≤ (h.getS a).toNat)
/-- j: R163. -/
def execJ (off : BitVec 25) (s : State) : Host.Outcome State Fault Refusal := s.jump (s.relative off) false
/-- jal: s1 takes the return address (R163). -/
def execJal (off : BitVec 25) (s : State) : Host.Outcome State Fault Refusal := s.jump (s.relative off) true
/-- jr: R163. -/
def execJr (a : SReg) (s : State) : Host.Outcome State Fault Refusal := s.jumpReg a none
/-- jalr: sa is read before sd is written (R163). -/
def execJalr (d a : SReg) (s : State) : Host.Outcome State Fault Refusal := s.jumpReg a (some d)

/-! ### Compact scalar forms (R152) -/


/-- c.addi: as addi sd, sd, imm. -/
def execCAddi (d : SReg) (imm : BitVec 6) (s : State) : Host.Outcome State Fault Refusal := s.op1 2 (fun x => x + imm.signExtend 64) d d
/-- c.mv: as add sd, s0, sa. -/
def execCMv (d a : SReg) (s : State) : Host.Outcome State Fault Refusal := s.op1 2 (fun x => x) d a
/-- c.beq: branch when the register is zero. -/
def execCBEq (a : BitVec 3) (off : BitVec 7) (s : State) : Host.Outcome State Fault Refusal := 
  s.branch 2 [sreg8 a] (s.relative off) fun h => decide (h.getS (sreg8 a) = 0)
/-- c.bne: branch when the register is not zero. -/
def execCBNe (a : BitVec 3) (off : BitVec 7) (s : State) : Host.Outcome State Fault Refusal := 
  s.branch 2 [sreg8 a] (s.relative off) fun h => decide (h.getS (sreg8 a) ≠ 0)
/-- c.j: as j. -/
def execCJ (off : BitVec 11) (s : State) : Host.Outcome State Fault Refusal := s.jump (s.relative off) false

end Sys2Proof.Machine
end

