-- ==== Sys2Proof/Machine/Vector.lean ====
section
/-! DEFINITION. The vector arithmetic, compare, mask, move, permute and reduction instructions (09 R185 to
R215) and the compact vector forms (07 R153). `vec<Name>` is what an instruction does as a member of a
convoy; `exec<Name>` is the instruction as a convoy of one. -/

namespace Sys2Proof.Machine

/-! ### Element functions -/

abbrev Arith := Tag → Rnd → Bool → Quad → Quad → FRes

/-- An operation on integers: exact, then wrapped or clamped (R75, R188). -/
def intOp (f : Int → Int → Int) (t : Tag) (sat : Bool) (x y : Quad) : FRes := (t.ofInt sat (f (t.int x) (t.int y)), 0)

def arithAdd : Arith := fun t r sat x y => if t.isF then t.ff.add r sat x y else intOp (· + ·) t sat x y
def arithSub : Arith := fun t r sat x y => if t.isF then t.ff.sub r sat x y else intOp (· - ·) t sat x y
def arithMul : Arith := fun t r sat x y => if t.isF then t.ff.mul r sat x y else intOp (· * ·) t sat x y
/-- The high half of the double-width product. -/
def arithMulh : Arith := fun t _ _ x y => intOp (fun a b => a * b / 2 ^ t.bits) t false x y
/-- R75's quotient. With .sat, the most negative I value over -1 clamps to the greatest: R75 gives the value itself, R188
clamps the exact result. Log 138 (DESIGN CHOICE). -/
def arithDiv : Arith := fun t r sat x y =>
  if t.isF then t.ff.div r sat x y else (t.ofInt sat (divInt t x y), 0)
def arithRem : Arith := fun t _ _ x y => (t.ofInt false (remInt t x y), 0)
def arithMinMax (isMax : Bool) : Arith := fun t _ _ x y =>
  if t.isF then t.ff.minmax isMax x y
  else (if decide (t.int x ≤ t.int y) != isMax then x else y, 0)
def arithAnd : Arith := fun _ _ _ x y => (x &&& y, 0)
def arithOr : Arith := fun _ _ _ x y => (x ||| y, 0)
def arithXor : Arith := fun _ _ _ x y => (x ^^^ y, 0)

/-- A shift of x, of tag t, by n below the width (R199). -/
def shiftLeft (t : Tag) (x : Quad) (n : Nat) : Quad := t.ofInt false (Tag.int (if t.wide then .n64 else .n32) x * 2 ^ n)
def shiftRight (t : Tag) (x : Quad) (n : Nat) : Quad :=
  let u : Tag := if t.wide then .n64 else .n32
  u.ofInt false (u.int x / 2 ^ n)
def shiftArith (t : Tag) (x : Quad) (n : Nat) : Quad :=
  let u : Tag := if t.wide then .i64 else .i32
  u.ofInt false (u.int x / 2 ^ n)

def notF (t : Tag) : Bool := !t.isF
def anyTag (_ : Tag) : Bool := true
def noMode (_ : Tag) : Bool := false

/-! ### Shared forms -/

/-- Check 6 of R141 for a binary instruction; T is va's tag. -/
def State.preBin (s : State) (o : VBin) (rounds : Bool) : Except Stop Rnd :=
  let t := s.hart.tagOf o.va
  s.checks6 (o.vd :: o.va :: vsrcVregs o.vb) [t] (if rounds then s.roundingFor t o.rm else .ok .rne)

/-- Check 6 for a unary instruction: the tag of its result, and the tags that take a rounding mode. -/
def State.preUn (s : State) (o : VUn) (rounds : Tag → Bool) (res : Tag → Tag) : Except Stop Rnd :=
  let t := s.hart.tagOf o.va
  s.checks6 [o.vd, o.va] [res t] (if rounds t then s.rounding o.rm else .ok .rne)

/-- Check 6 for a fused instruction. -/
def State.preTern (s : State) (o : VTern) : Except Stop Rnd :=
  let t := s.hart.tagOf o.va
  s.checks6 [o.vd, o.va, o.vb, o.vc] [t] (s.roundingFor t o.rm)

/-- Check 6 for an instruction that names v registers, with the tag that it takes or gives, and takes no mode. -/
def State.preRegs (s : State) (rs : List VReg) (t : Option Tag) : Except Stop Rnd := s.checks6 rs t.toList (.ok .rne)

/-- A binary element-wise instruction (R185 to R188, R198). -/
def State.vbinary (s : State) (o : VBin) (accepts : Tag → Bool) (rounds : Bool) (f : Arith) : Except Stop State := do
  let r ← s.preBin o rounds
  let t := s.hart.tagOf o.va
  s.tagOk (accepts t && (vsrcVregs o.vb).all fun v => s.hart.tagOf v == t)
  let s ← s.readyEach (o.vd :: o.va :: vsrcVregs o.vb) (vsrcSregs o.vb)
  .ok (s.mapHart fun h =>
    let a := h.elems o.va t h.vl
    let b := h.srcElem o.vb t h.vl
    h.elementwise o.vd t o.mask (fun i => f t r o.sat (a.getD i 0) (b i)) (h.taintV o.va ||| h.taintSrc o.vb))

/-- A shift: the count is element i of vb at its own width, modulo the width of va's tag (R199). -/
def State.vshift (s : State) (o : VBin) (f : Tag → Quad → Nat → Quad) : Except Stop State := do
  let _ ← s.preBin o false
  let t := s.hart.tagOf o.va
  s.tagOk (notF t && (vsrcVregs o.vb).all fun v => notF (s.hart.tagOf v))
  let s ← s.readyEach (o.vd :: o.va :: vsrcVregs o.vb) (vsrcSregs o.vb)
  .ok (s.mapHart fun h =>
    let a := h.elems o.va t h.vl
    let tb := match o.vb with
      | .v r => h.tagOf r
      | .s _ => t
    let b := h.srcElem o.vb tb h.vl
    h.elementwise o.vd t o.mask (fun i => (f t (a.getD i 0) ((b i).toNat % t.bits), 0))
      (h.taintV o.va ||| h.taintSrc o.vb))

/-- A unary element-wise instruction, with the tags that take a rounding mode and the tag of its result. -/
def State.vunary (s : State) (o : VUn) (accepts rounds : Tag → Bool) (res : Tag → Tag)
    (f : Tag → Rnd → Bool → Quad → FRes) : Except Stop State := do
  let r ← s.preUn o rounds res
  let t := s.hart.tagOf o.va
  s.tagOk (accepts t)
  let s ← s.readyEach [o.vd, o.va] []
  .ok (s.mapHart fun h =>
    let a := h.elems o.va t h.vl
    h.elementwise o.vd (res t) o.mask (fun i => f t r o.sat (a.getD i 0)) (h.taintV o.va))

/-- A fused instruction: F tags only (R201). -/
def State.vfused (s : State) (o : VTern) (negC negSum : Bool) : Except Stop State := do
  let r ← s.preTern o
  let t := s.hart.tagOf o.va
  s.tagOk (t.isF && s.hart.tagOf o.vb == t && s.hart.tagOf o.vc == t)
  let s ← s.readyEach [o.vd, o.va, o.vb, o.vc] []
  .ok (s.mapHart fun h =>
    let a := h.elems o.va t h.vl
    let b := h.elems o.vb t h.vl
    let c := h.elems o.vc t h.vl
    h.elementwise o.vd t o.mask
      (fun i => t.ff.fma r o.sat negC negSum (a.getD i 0) (b.getD i 0) (c.getD i 0))
      (h.taintV o.va ||| h.taintV o.vb ||| h.taintV o.vc))

/-- A special function of one F source (R202). -/
def State.vspecial (s : State) (o : VUn) (f : FF → Rnd → Bool → Quad → FRes) : Except Stop State :=
  s.vunary o Tag.isF Tag.isF id fun t r sat x => f t.ff r sat x

/-- A mask-logic instruction (R207). -/
def State.mlogic (s : State) (md ma mb : MReg) (f : Bool → Bool → Bool) : Except Stop State := do
  s.vecUnit
  .ok (s.mapHart fun h =>
    h.writeMask md MaskOp.none (fun i => f (h.maskBit ma i) (h.maskBit mb i)) (h.taintM ma ||| h.taintM mb))

/-- The body indices at which ma is true and the mask is active (R208). -/
def Hart.counted (h : Hart) (ma : MReg) (mask : MaskOp) : List Nat :=
  (List.range h.vl).filter fun i => h.maskBit ma i && h.active mask i

/-- mpop and mfirst: an s register from the counted set (R190, R208). -/
def State.mcount (s : State) (sd : SReg) (ma : MReg) (mask : MaskOp) (f : List Nat → Quad) : Except Stop State := do
  s.vecUnit
  let s := s.needS [sd]
  .ok (s.mapHart fun h => h.setS sd (f (h.counted ma mask)) (h.taintM ma ||| h.taintM mask.m))

/-- The bits of a mask below VLMAX x G, all true for m0 (R49). -/
def Hart.wholeMask (h : Hart) (ma : MReg) : BitVec 65536 :=
  let below : BitVec 65536 := BitVec.ofNat 65536 (2 ^ h.maxElems - 1)
  if ma = 0 then below else h.m[ma.toNat].bits &&& below

/-- Active body elements of a register, in ascending order. -/
def Hart.activeElems (h : Hart) (va : VReg) (t : Tag) (mask : MaskOp) : List Quad :=
  let a := h.elems va t h.vl
  ((List.range h.vl).filter (h.active mask)).map fun i => a.getD i 0

/-- A permute: every body element of vd from the elements of va (R210, R211). -/
def State.permute (s : State) (vd va : VReg) (mask : MaskOp) (also : List VReg) (ss : List SReg)
    (accepts : State → Bool) (f : Hart → Array Quad → Tag → Nat → Quad) : Except Stop State := do
  let _ ← s.preRegs (vd :: va :: also) (some (s.hart.tagOf va))
  s.tagOk (accepts s)
  let s ← s.ready (vd :: va :: also) ss
  .ok (s.mapHart fun h =>
    let t := h.tagOf va
    let a := h.elems va t h.vl
    let g := f h a t
    h.elementwise vd t mask (fun i => (g i, 0))
      (also.foldl (fun acc r => acc ||| h.taintV r) (h.taintV va) ||| ss.foldl (fun acc r => acc ||| h.taintS r) 0))

/-! ### Reductions (R78, R79) -/

/-- Combine of an operator (R212). -/
def combine (op : RedOp) (t : Tag) (r : Rnd) (x y : Quad) : FRes :=
  match op with
  | .sum => arithAdd t r false x y
  | .max => arithMinMax true t r false x y
  | .min => arithMinMax false t r false x y
  | .and => arithAnd t r false x y
  | .or => arithOr t r false x y
  | .xor => arithXor t r false x y

/-- The identity of an operator (R78). -/
def identity (op : RedOp) (t : Tag) : Quad :=
  match op with
  | .sum | .or | .xor => 0
  | .max => if t.isF then (t.ff.inf true 0).1 else quadOfInt t.bits (intMin t.isI t.bits)
  | .min => if t.isF then (t.ff.inf false 0).1 else quadOfInt t.bits (intMax t.isI t.bits)
  | .and => quadOfInt t.bits (-1)

/-- One level of the tree: an absent node passes its partner through. -/
def pairUp (c : Quad → Quad → FRes) : List (Option Quad) → List (Option Quad) × FFlags
  | a :: b :: rest =>
    let (r, fl) := pairUp c rest
    match a, b with
    | none, x | x, none => (x :: r, fl)
    | some x, some y => let z := c x y; (some z.1 :: r, fl ||| z.2)
  | l => (l, 0)

/-- The root of the tree over the leaves. -/
def treeRoot (c : Quad → Quad → FRes) : Nat → List (Option Quad) → Option Quad × FFlags
  | _, [] => (none, 0)
  | _, [x] => (x, 0)
  | 0, _ => (none, 0)
  | n + 1, l =>
    let (l', f) := pairUp c l
    let (x, g) := treeRoot c n l'
    (x, f ||| g)

/-- The reduction of R78 over leaves. -/
def reduceTree (op : RedOp) (t : Tag) (r : Rnd) (init : Option Quad) (leaves : List (Option Quad)) : FRes :=
  let c := combine op t r
  let (x, f) := treeRoot c 17 leaves
  match init, x with
  | some i, none => (i, f)
  | some i, some y => let z := c i y; (z.1, f ||| z.2)
  | none, some y => (y, f)
  | none, none => (identity op t, f)

/-- Tags an operator takes (R212). -/
def redAccepts (op : RedOp) (t : Tag) : Bool :=
  match op with
  | .sum | .max | .min => true
  | .and | .or | .xor => notF t

/-- The rounding mode of a reduction: only sum takes one (R212). -/
def State.redRounding (s : State) (op : RedOp) (t : Tag) (rm : RMode) : Except Stop Rnd :=
  if op = .sum then s.roundingFor t rm else .ok .rne

/-- The leaves of a register: absent where inactive. -/
def Hart.leaves (h : Hart) (va : VReg) (t : Tag) (mask : MaskOp) : List (Option Quad) :=
  let a := h.elems va t h.vl
  (List.range h.vl).map fun i => if h.active mask i then some (a.getD i 0) else none

/-- Check 6 for a reduction. -/
def State.preRed (s : State) (op : RedOp) (va : VReg) (rs : List VReg) (rm : RMode) : Except Stop Rnd :=
  let t := s.hart.tagOf va
  s.checks6 rs [t] (s.redRounding op t rm)

/-- Checks of vred and vscan, and their mode. -/
def State.redChecks (s : State) (o : VRed) : Except Stop (Tag × Rnd) := do
  let r ← s.preRed o.op o.va (o.vd :: o.va :: o.init.toList) o.rm
  let t := s.hart.tagOf o.va
  s.tagOk (redAccepts o.op t && o.init.all fun v => s.hart.tagOf v == t)
  .ok (t, r)

/-- The initial value: element 0 of vc. -/
def Hart.initOf (h : Hart) (t : Tag) (init : Option VReg) : Option Quad := init.map fun v => (h.elems v t 1).getD 0 0

def Hart.redTaint (h : Hart) (o : VRed) : TaintSet :=
  h.taintV o.va ||| (o.init.toList.foldl (fun acc r => acc ||| h.taintV r) 0) ||| h.taintM o.mask.m
    ||| h.keepTaint o.mask o.vd

/-- Cut the leaves into segments: a new one starts where `start` holds, and at element 0. -/
def segments (start : Nat → Bool) : Nat → List (Option Quad) → List (List (Option Quad))
  | _, [] => []
  | i, x :: rest =>
    match segments start (i + 1) rest with
    | [] => [[x]]
    | g :: gs => if start (i + 1) then [x] :: g :: gs else (x :: g) :: gs

/-! ### Binary arithmetic (R198, R199) -/

/-- vadd (R198). -/
def vecVadd (o : VBin) (s : State) : Except Stop State :=
  s.vbinary o anyTag true arithAdd

/-- vadd, as a convoy of one. -/
def execVadd (o : VBin) (s : State) : Host.Outcome State Fault Refusal := s.vector (vecVadd o)

/-- vsub (R198). -/
def vecVsub (o : VBin) (s : State) : Except Stop State :=
  s.vbinary o anyTag true arithSub

/-- vsub, as a convoy of one. -/
def execVsub (o : VBin) (s : State) : Host.Outcome State Fault Refusal := s.vector (vecVsub o)

/-- vmul (R198). -/
def vecVmul (o : VBin) (s : State) : Except Stop State :=
  s.vbinary o anyTag true arithMul

/-- vmul, as a convoy of one. -/
def execVmul (o : VBin) (s : State) : Host.Outcome State Fault Refusal := s.vector (vecVmul o)

/-- vmulh (R198). -/
def vecVmulh (o : VBin) (s : State) : Except Stop State :=
  s.vbinary o notF false arithMulh

/-- vmulh, as a convoy of one. -/
def execVmulh (o : VBin) (s : State) : Host.Outcome State Fault Refusal := s.vector (vecVmulh o)

/-- vdiv (R198). -/
def vecVdiv (o : VBin) (s : State) : Except Stop State :=
  s.vbinary o anyTag true arithDiv

/-- vdiv, as a convoy of one. -/
def execVdiv (o : VBin) (s : State) : Host.Outcome State Fault Refusal := s.vector (vecVdiv o)

/-- vrem (R198). -/
def vecVrem (o : VBin) (s : State) : Except Stop State :=
  s.vbinary o notF false arithRem

/-- vrem, as a convoy of one. -/
def execVrem (o : VBin) (s : State) : Host.Outcome State Fault Refusal := s.vector (vecVrem o)

/-- vmin (R198). -/
def vecVmin (o : VBin) (s : State) : Except Stop State :=
  s.vbinary o anyTag false (arithMinMax false)

/-- vmin, as a convoy of one. -/
def execVmin (o : VBin) (s : State) : Host.Outcome State Fault Refusal := s.vector (vecVmin o)

/-- vmax (R198). -/
def vecVmax (o : VBin) (s : State) : Except Stop State :=
  s.vbinary o anyTag false (arithMinMax true)

/-- vmax, as a convoy of one. -/
def execVmax (o : VBin) (s : State) : Host.Outcome State Fault Refusal := s.vector (vecVmax o)

/-- vand (R198). -/
def vecVand (o : VBin) (s : State) : Except Stop State :=
  s.vbinary o notF false arithAnd

/-- vand, as a convoy of one. -/
def execVand (o : VBin) (s : State) : Host.Outcome State Fault Refusal := s.vector (vecVand o)

/-- vor (R198). -/
def vecVor (o : VBin) (s : State) : Except Stop State :=
  s.vbinary o notF false arithOr

/-- vor, as a convoy of one. -/
def execVor (o : VBin) (s : State) : Host.Outcome State Fault Refusal := s.vector (vecVor o)

/-- vxor (R198). -/
def vecVxor (o : VBin) (s : State) : Except Stop State :=
  s.vbinary o notF false arithXor

/-- vxor, as a convoy of one. -/
def execVxor (o : VBin) (s : State) : Host.Outcome State Fault Refusal := s.vector (vecVxor o)

/-- vsll (R199). -/
def vecVsll (o : VBin) (s : State) : Except Stop State :=
  s.vshift o shiftLeft

/-- vsll, as a convoy of one. -/
def execVsll (o : VBin) (s : State) : Host.Outcome State Fault Refusal := s.vector (vecVsll o)

/-- vsrl (R199). -/
def vecVsrl (o : VBin) (s : State) : Except Stop State :=
  s.vshift o shiftRight

/-- vsrl, as a convoy of one. -/
def execVsrl (o : VBin) (s : State) : Host.Outcome State Fault Refusal := s.vector (vecVsrl o)

/-- vsra (R199). -/
def vecVsra (o : VBin) (s : State) : Except Stop State :=
  s.vshift o shiftArith

/-- vsra, as a convoy of one. -/
def execVsra (o : VBin) (s : State) : Host.Outcome State Fault Refusal := s.vector (vecVsra o)

/-! ### Compact forms (R153): vd = va = vlast, vb = vx -/

/-- The operands of a compact form. -/
def Hart.compact (h : Hart) (vx : VReg) (m : MReg) : VBin :=
  ⟨h.csr.vlast, h.csr.vlast, .v vx, ⟨m, false⟩, .dyn, false⟩

/-- A compact form is a convoy of one, two bytes long; in the queue it stands as the vector word that does the same. -/
def State.vectorCompact (s : State) (op : VBin → Instr) (o : VBin) (body : State → Except Stop State) :
    Host.Outcome State Fault Refusal :=
  s.vectorN 2 (((encode (op o)).map Code.toQuad).getD 0) body

/-- c.vadd. -/
def execCVadd (vx : VReg) (m : MReg) (s : State) : Host.Outcome State Fault Refusal :=
  s.vectorCompact .vadd (s.hart.compact vx m) (vecVadd (s.hart.compact vx m))

/-- c.vsub. -/
def execCVsub (vx : VReg) (m : MReg) (s : State) : Host.Outcome State Fault Refusal :=
  s.vectorCompact .vsub (s.hart.compact vx m) (vecVsub (s.hart.compact vx m))

/-- c.vmul. -/
def execCVmul (vx : VReg) (m : MReg) (s : State) : Host.Outcome State Fault Refusal :=
  s.vectorCompact .vmul (s.hart.compact vx m) (vecVmul (s.hart.compact vx m))

/-- c.vmulh. -/
def execCVmulh (vx : VReg) (m : MReg) (s : State) : Host.Outcome State Fault Refusal :=
  s.vectorCompact .vmulh (s.hart.compact vx m) (vecVmulh (s.hart.compact vx m))

/-- c.vdiv. -/
def execCVdiv (vx : VReg) (m : MReg) (s : State) : Host.Outcome State Fault Refusal :=
  s.vectorCompact .vdiv (s.hart.compact vx m) (vecVdiv (s.hart.compact vx m))

/-- c.vrem. -/
def execCVrem (vx : VReg) (m : MReg) (s : State) : Host.Outcome State Fault Refusal :=
  s.vectorCompact .vrem (s.hart.compact vx m) (vecVrem (s.hart.compact vx m))

/-- c.vmin. -/
def execCVmin (vx : VReg) (m : MReg) (s : State) : Host.Outcome State Fault Refusal :=
  s.vectorCompact .vmin (s.hart.compact vx m) (vecVmin (s.hart.compact vx m))

/-- c.vmax. -/
def execCVmax (vx : VReg) (m : MReg) (s : State) : Host.Outcome State Fault Refusal :=
  s.vectorCompact .vmax (s.hart.compact vx m) (vecVmax (s.hart.compact vx m))

/-- c.vand. -/
def execCVand (vx : VReg) (m : MReg) (s : State) : Host.Outcome State Fault Refusal :=
  s.vectorCompact .vand (s.hart.compact vx m) (vecVand (s.hart.compact vx m))

/-- c.vor. -/
def execCVor (vx : VReg) (m : MReg) (s : State) : Host.Outcome State Fault Refusal :=
  s.vectorCompact .vor (s.hart.compact vx m) (vecVor (s.hart.compact vx m))

/-- c.vxor. -/
def execCVxor (vx : VReg) (m : MReg) (s : State) : Host.Outcome State Fault Refusal :=
  s.vectorCompact .vxor (s.hart.compact vx m) (vecVxor (s.hart.compact vx m))

/-- c.vsll. -/
def execCVsll (vx : VReg) (m : MReg) (s : State) : Host.Outcome State Fault Refusal :=
  s.vectorCompact .vsll (s.hart.compact vx m) (vecVsll (s.hart.compact vx m))

/-- c.vsrl. -/
def execCVsrl (vx : VReg) (m : MReg) (s : State) : Host.Outcome State Fault Refusal :=
  s.vectorCompact .vsrl (s.hart.compact vx m) (vecVsrl (s.hart.compact vx m))

/-- c.vsra. -/
def execCVsra (vx : VReg) (m : MReg) (s : State) : Host.Outcome State Fault Refusal :=
  s.vectorCompact .vsra (s.hart.compact vx m) (vecVsra (s.hart.compact vx m))

/-! ### Unary, fused and special functions (R200 to R204) -/

/-- vpopc (R200). -/
def vecVpopc (o : VUn) (s : State) : Except Stop State :=
  s.vunary o notF noMode id fun t _ _ x => (BitVec.ofNat 64 (popCount x.toNat t.bits), 0)

/-- vpopc, as a convoy of one. -/
def execVpopc (o : VUn) (s : State) : Host.Outcome State Fault Refusal := s.vector (vecVpopc o)

/-- vclz (R200). -/
def vecVclz (o : VUn) (s : State) : Except Stop State :=
  s.vunary o notF noMode id fun t _ _ x => (BitVec.ofNat 64 (leadingZeros x.toNat t.bits), 0)

/-- vclz, as a convoy of one. -/
def execVclz (o : VUn) (s : State) : Host.Outcome State Fault Refusal := s.vector (vecVclz o)

/-- vabs (R200). -/
def vecVabs (o : VUn) (s : State) : Except Stop State :=
  s.vunary o anyTag noMode id fun t _ sat x =>
    if t.isF then (t.ff.abs x, 0) else (t.ofInt sat (if t.int x < 0 then -(t.int x) else t.int x), 0)

/-- vabs, as a convoy of one. -/
def execVabs (o : VUn) (s : State) : Host.Outcome State Fault Refusal := s.vector (vecVabs o)

/-- vneg (R200). -/
def vecVneg (o : VUn) (s : State) : Except Stop State :=
  s.vunary o anyTag noMode id fun t _ sat x =>
    if t.isF then (t.ff.withSign (!t.ff.neg x) x, 0) else (t.ofInt sat (-(t.int x)), 0)

/-- vneg, as a convoy of one. -/
def execVneg (o : VUn) (s : State) : Host.Outcome State Fault Refusal := s.vector (vecVneg o)

/-- vfma (R201). -/
def vecVfma (o : VTern) (s : State) : Except Stop State :=
  s.vfused o false false

/-- vfma, as a convoy of one. -/
def execVfma (o : VTern) (s : State) : Host.Outcome State Fault Refusal := s.vector (vecVfma o)

/-- vfms (R201). -/
def vecVfms (o : VTern) (s : State) : Except Stop State :=
  s.vfused o true false

/-- vfms, as a convoy of one. -/
def execVfms (o : VTern) (s : State) : Host.Outcome State Fault Refusal := s.vector (vecVfms o)

/-- vnfma (R201). -/
def vecVnfma (o : VTern) (s : State) : Except Stop State :=
  s.vfused o false true

/-- vnfma, as a convoy of one. -/
def execVnfma (o : VTern) (s : State) : Host.Outcome State Fault Refusal := s.vector (vecVnfma o)

/-- vsqrt (R202, R76). -/
def vecVsqrt (o : VUn) (s : State) : Except Stop State :=
  s.vspecial o FF.sqrt

/-- vsqrt, as a convoy of one. -/
def execVsqrt (o : VUn) (s : State) : Host.Outcome State Fault Refusal := s.vector (vecVsqrt o)

/-- vrcp (R202, R76). -/
def vecVrcp (o : VUn) (s : State) : Except Stop State :=
  s.vspecial o FF.rcp

/-- vrcp, as a convoy of one. -/
def execVrcp (o : VUn) (s : State) : Host.Outcome State Fault Refusal := s.vector (vecVrcp o)

/-- vrsqrt (R202, R76). -/
def vecVrsqrt (o : VUn) (s : State) : Except Stop State :=
  s.vspecial o FF.rsqrt

/-- vrsqrt, as a convoy of one. -/
def execVrsqrt (o : VUn) (s : State) : Host.Outcome State Fault Refusal := s.vector (vecVrsqrt o)

/-- vexp2 (R202, R76). -/
def vecVexp2 (o : VUn) (s : State) : Except Stop State :=
  s.vspecial o FF.exp2

/-- vexp2, as a convoy of one. -/
def execVexp2 (o : VUn) (s : State) : Host.Outcome State Fault Refusal := s.vector (vecVexp2 o)

/-- vlog2 (R202, R76). -/
def vecVlog2 (o : VUn) (s : State) : Except Stop State :=
  s.vspecial o FF.log2

/-- vlog2, as a convoy of one. -/
def execVlog2 (o : VUn) (s : State) : Host.Outcome State Fault Refusal := s.vector (vecVlog2 o)

/-- vclass (R203). -/
def vecVclass (o : VUn) (s : State) : Except Stop State :=
  s.vunary o Tag.isF noMode (fun t => if t.wide then .n64 else .n32) fun t _ _ x =>
    (t.ff.classWord x, 0)

/-- vclass, as a convoy of one. -/
def execVclass (o : VUn) (s : State) : Host.Outcome State Fault Refusal := s.vector (vecVclass o)

/-- vcvt (R204, R74). -/
def vecVcvt (t : Tag) (o : VUn) (s : State) : Except Stop State :=
  s.vunary o anyTag (fun u => (u.isF || t.isF) && u != t) (fun _ => t) fun from_ r sat x => convertTag from_ t r sat x

/-- vcvt, as a convoy of one. -/
def execVcvt (t : Tag) (o : VUn) (s : State) : Host.Outcome State Fault Refusal := s.vector (vecVcvt t o)

/-! ### Compare, select, masks (R205 to R209) -/

/-- A comparison of two elements and its flags (R205). -/
def compareElems (c : CmpCond) (t : Tag) (x y : Quad) : Bool × FFlags :=
  if t.isF then t.ff.cmp c x y
  else
    let a := t.int x
    let b := t.int y
    (match c with
      | .eq => decide (a = b) | .ne => decide (a ≠ b) | .lt => decide (a < b) | .ge => decide (b ≤ a)
      | .le => decide (a ≤ b) | .gt => decide (b < a) | .uo => false, 0)

/-- vcmp (R205). -/
def vecVcmp (c : CmpCond) (md : MReg) (va : VReg) (vb : VSrc) (mask : MaskOp) (s : State) : Except Stop State := do
  let t := s.hart.tagOf va
  let _ ← s.preRegs (va :: vsrcVregs vb) (some t)
  s.tagOk ((vsrcVregs vb).all fun v => s.hart.tagOf v == t)
  let s ← s.readyEach (va :: vsrcVregs vb) (vsrcSregs vb)
  .ok (s.mapHart fun h =>
    let a := h.elems va t h.vl
    let b := h.srcElem vb t h.vl
    let r := fun i => compareElems c t (a.getD i 0) (b i)
    let flags := (List.range h.vl).foldl (fun acc i => if h.active mask i && !bitOf h.doneElems i then acc ||| (r i).2 else acc) 0
    (h.writeMask md mask (fun i => (r i).1) (h.taintV va ||| h.taintSrc vb)).addFlags flags)

/-- vcmp, as a convoy of one. -/
def execVcmp (c : CmpCond) (md : MReg) (va : VReg) (vb : VSrc) (mask : MaskOp) (s : State) : Host.Outcome State Fault Refusal := s.vector (vecVcmp c md va vb mask)

/-- vsel: the mask selects (R206). -/
def vecVsel (vd va vb : VReg) (mask : MaskOp) (s : State) : Except Stop State := do
  let t := s.hart.tagOf va
  let _ ← s.preRegs [vd, va, vb] (some t)
  s.tagOk (s.hart.tagOf vb == t)
  let s ← s.readyEach [vd, va, vb] []
  .ok (s.mapHart fun h =>
    let a := h.elems va t h.vl
    let b := h.elems vb t h.vl
    h.writeV vd t (fun _ => true) false
      ((List.range h.vl).map fun i => if h.active mask i then a.getD i 0 else b.getD i 0)
      (h.taintV va ||| h.taintV vb ||| h.taintM mask.m ||| h.keepTaint mask vd))

/-- vsel, as a convoy of one. -/
def execVsel (vd va vb : VReg) (mask : MaskOp) (s : State) : Host.Outcome State Fault Refusal := s.vector (vecVsel vd va vb mask)

/-- mand (R207). -/
def vecMand (md ma mb : MReg) (s : State) : Except Stop State :=
  s.mlogic md ma mb (fun x y => x && y)

/-- mand, as a convoy of one. -/
def execMand (md ma mb : MReg) (s : State) : Host.Outcome State Fault Refusal := s.vector (vecMand md ma mb)

/-- mor (R207). -/
def vecMor (md ma mb : MReg) (s : State) : Except Stop State :=
  s.mlogic md ma mb (fun x y => x || y)

/-- mor, as a convoy of one. -/
def execMor (md ma mb : MReg) (s : State) : Host.Outcome State Fault Refusal := s.vector (vecMor md ma mb)

/-- mxor (R207). -/
def vecMxor (md ma mb : MReg) (s : State) : Except Stop State :=
  s.mlogic md ma mb (fun x y => x != y)

/-- mxor, as a convoy of one. -/
def execMxor (md ma mb : MReg) (s : State) : Host.Outcome State Fault Refusal := s.vector (vecMxor md ma mb)

/-- mandn (R207). -/
def vecMandn (md ma mb : MReg) (s : State) : Except Stop State :=
  s.mlogic md ma mb (fun x y => x && !y)

/-- mandn, as a convoy of one. -/
def execMandn (md ma mb : MReg) (s : State) : Host.Outcome State Fault Refusal := s.vector (vecMandn md ma mb)

/-- mnot (R207). -/
def vecMnot (md ma : MReg) (s : State) : Except Stop State :=
  s.mlogic md ma 0 (fun x _ => !x)

/-- mnot, as a convoy of one. -/
def execMnot (md ma : MReg) (s : State) : Host.Outcome State Fault Refusal := s.vector (vecMnot md ma)

/-- mpop (R208). -/
def vecMpop (sd : SReg) (ma : MReg) (mask : MaskOp) (s : State) : Except Stop State :=
  s.mcount sd ma mask fun l => BitVec.ofNat 64 l.length

/-- mpop, as a convoy of one. -/
def execMpop (sd : SReg) (ma : MReg) (mask : MaskOp) (s : State) : Host.Outcome State Fault Refusal := s.vector (vecMpop sd ma mask)

/-- mfirst (R208). -/
def vecMfirst (sd : SReg) (ma : MReg) (mask : MaskOp) (s : State) : Except Stop State :=
  s.mcount sd ma mask fun l =>
    match l with
    | [] => 0xFFFFFFFFFFFFFFFF
    | i :: _ => BitVec.ofNat 64 i

/-- mfirst, as a convoy of one. -/
def execMfirst (sd : SReg) (ma : MReg) (mask : MaskOp) (s : State) : Host.Outcome State Fault Refusal := s.vector (vecMfirst sd ma mask)

/-- mtolist (R209). -/
def vecMtolist (md ma : MReg) (s : State) : Except Stop State := do
  s.vecUnit
  .ok (s.mapHart fun h =>
    let bits := h.wholeMask ma
    if 4096 < popCount bits.toNat h.maxElems then
      { h with m := h.m.set md.toNat ⟨(if ma = 0 then bits else h.m[ma.toNat].bits), false, h.taintM ma⟩,
               csr := { h.csr with vstat := h.csr.vstat ||| 0x10 } }
    else { h with m := h.m.set md.toNat ⟨bits, true, h.taintM ma⟩ })

/-- mtolist, as a convoy of one. -/
def execMtolist (md ma : MReg) (s : State) : Host.Outcome State Fault Refusal := s.vector (vecMtolist md ma)

/-- mtobit (R209). -/
def vecMtobit (md ma : MReg) (s : State) : Except Stop State := do
  s.vecUnit
  .ok (s.mapHart fun h =>
    { h with m := h.m.set md.toNat ⟨(if ma = 0 then h.wholeMask ma else h.m[ma.toNat].bits), false, h.taintM ma⟩ })

/-- mtobit, as a convoy of one. -/
def execMtobit (md ma : MReg) (s : State) : Host.Outcome State Fault Refusal := s.vector (vecMtobit md ma)

/-- mfromx (R209). -/
def vecMfromx (md : MReg) (va : VReg) (mask : MaskOp) (s : State) : Except Stop State := do
  let _ ← s.preRegs [va] (some (s.hart.tagOf va))
  let s ← s.ready [va] []
  .ok (s.mapHart fun h =>
    let a := h.elems va (h.tagOf va) h.vl
    h.writeMask md mask (fun i => a.getD i 0 != 0) (h.taintV va))

/-- mfromx, as a convoy of one. -/
def execMfromx (md : MReg) (va : VReg) (mask : MaskOp) (s : State) : Host.Outcome State Fault Refusal := s.vector (vecMfromx md va mask)

/-! ### Moves (R195 to R197) -/

/-- vidx (R196). -/
def vecVidx (vd : VReg) (start : BitVec 12) (stp : BitVec 8) (mask : MaskOp) (s : State) : Except Stop State := do
  s.vecRegs [vd]
  let s ← s.ready [vd] []
  .ok (s.mapHart fun h =>
    h.elementwise vd .i32 mask (fun i => (quadOfInt 32 (start.toInt + i * stp.toInt), 0)) 0)

/-- vidx, as a convoy of one. -/
def execVidx (vd : VReg) (start : BitVec 12) (stp : BitVec 8) (mask : MaskOp) (s : State) : Host.Outcome State Fault Refusal := s.vector (vecVidx vd start stp mask)

/-- vsplat (R196). -/
def vecVsplat (vd : VReg) (sa : SReg) (mask : MaskOp) (s : State) : Except Stop State := do
  let _ ← s.preRegs [vd] (some (s.hart.tagOf vd))
  let s ← s.ready [vd] [sa]
  .ok (s.mapHart fun h =>
    let t := h.tagOf vd
    let x := h.srcElem (.s sa) t h.vl
    h.elementwise vd t mask (fun i => (x i, 0)) (h.taintS sa))

/-- vsplat, as a convoy of one. -/
def execVsplat (vd : VReg) (sa : SReg) (mask : MaskOp) (s : State) : Host.Outcome State Fault Refusal := s.vector (vecVsplat vd sa mask)

/-- vmv (R196). -/
def vecVmv (vd va : VReg) (mask : MaskOp) (s : State) : Except Stop State :=
  s.permute vd va mask [] [] (fun _ => true) fun _ a _ i => a.getD i 0

/-- vmv, as a convoy of one. -/
def execVmv (vd va : VReg) (mask : MaskOp) (s : State) : Host.Outcome State Fault Refusal := s.vector (vecVmv vd va mask)

/-- vtag: every container copied (R195). -/
def vecVtag (t : Tag) (vd va : VReg) (s : State) : Except Stop State := do
  let _ ← s.preRegs [vd, va] (some t)
  let s ← s.ready [vd, va] []
  .ok (s.mapHart fun h =>
    let h' := h.setGroupData vd (h.groupData va)
    { h' with v := h'.v.set vd.toNat { h'.v[vd.toNat] with tag := t, taint := h.taintV va },
              csr := { h'.csr with vlast := vd } })

/-- vtag, as a convoy of one. -/
def execVtag (t : Tag) (vd va : VReg) (s : State) : Host.Outcome State Fault Refusal := s.vector (vecVtag t vd va)

/-- vmvx (R197). -/
def vecVmvx (sd : SReg) (va : VReg) (sb : SReg) (s : State) : Except Stop State := do
  s.vecRegs [va]
  let s ← s.ready [va] [sd, sb]
  .ok (s.mapHart fun h =>
    let t := h.tagOf va
    let j := (h.getS sb).toNat
    let x := if h.maxElems ≤ j then 0 else elemAt (h.groupData va) t.wide j
    h.setS sd (if t = .i32 then (x.setWidth 32).signExtend 64 else x) (h.taintV va ||| h.taintS sb))

/-- vmvx, as a convoy of one. -/
def execVmvx (sd : SReg) (va : VReg) (sb : SReg) (s : State) : Host.Outcome State Fault Refusal := s.vector (vecVmvx sd va sb)

/-- vmvs (R197); at vl = 0 it writes no element, and its taint joins vd's all the same. Log 36 (DEDUCED). -/
def vecVmvs (vd : VReg) (sa : SReg) (mask : MaskOp) (s : State) : Except Stop State := do
  s.vecRegs [vd]
  let s ← s.ready [vd] [sa]
  .ok (s.mapHart fun h =>
    let t := h.tagOf vd
    let h' :=
      if h.vl = 0 then h
      else if h.active mask 0 then h.setVElem vd t.wide 0 (h.getS sa)
      else if h.csr.mp then h.setVElem vd t.wide 0 0 else h
    let taint := h.taintV vd ||| h.taintS sa ||| h.taintM mask.m
    { h' with v := h'.v.set vd.toNat { h'.v[vd.toNat] with taint := taint },
              csr := { h'.csr with vlast := vd } })

/-- vmvs, as a convoy of one. -/
def execVmvs (vd : VReg) (sa : SReg) (mask : MaskOp) (s : State) : Host.Outcome State Fault Refusal := s.vector (vecVmvs vd sa mask)

/-! ### Permutes (R210, R211) -/

/-- vslideup (R210). -/
def vecVslideup (vd va : VReg) (sb sc : SReg) (mask : MaskOp) (s : State) : Except Stop State :=
  s.permute vd va mask [] [sb, sc] (fun _ => true) fun h a t i =>
    if i < (h.getS sb).toNat then (if t.wide then h.getS sc else ((h.getS sc).setWidth 32).setWidth 64)
    else a.getD (i - (h.getS sb).toNat) 0

/-- vslideup, as a convoy of one. -/
def execVslideup (vd va : VReg) (sb sc : SReg) (mask : MaskOp) (s : State) : Host.Outcome State Fault Refusal := s.vector (vecVslideup vd va sb sc mask)

/-- vslidedn (R210). -/
def vecVslidedn (vd va : VReg) (sb sc : SReg) (mask : MaskOp) (s : State) : Except Stop State :=
  s.permute vd va mask [] [sb, sc] (fun _ => true) fun h a t i =>
    if i + (h.getS sb).toNat < h.vl then a.getD (i + (h.getS sb).toNat) 0
    else (if t.wide then h.getS sc else ((h.getS sc).setWidth 32).setWidth 64)

/-- vslidedn, as a convoy of one. -/
def execVslidedn (vd va : VReg) (sb sc : SReg) (mask : MaskOp) (s : State) : Host.Outcome State Fault Refusal := s.vector (vecVslidedn vd va sb sc mask)

/-- vperm (R211). -/
def vecVperm (vd va vb : VReg) (mask : MaskOp) (s : State) : Except Stop State :=
  s.permute vd va mask [vb] [] (fun s => notF (s.hart.tagOf vb)) fun h a _ =>
    let b := h.elems vb (h.tagOf vb) h.vl
    fun i =>
      let j := (h.tagOf vb).int (b.getD i 0)
      if 0 ≤ j ∧ j < h.vl then a.getD j.toNat 0 else 0

/-- vperm, as a convoy of one. -/
def execVperm (vd va vb : VReg) (mask : MaskOp) (s : State) : Host.Outcome State Fault Refusal := s.vector (vecVperm vd va vb mask)

/-- vcompress (R211). -/
def vecVcompress (vd va : VReg) (mask : MaskOp) (s : State) : Except Stop State := do
  let _ ← s.preRegs [vd, va] (some (s.hart.tagOf va))
  let s ← s.ready [vd, va] []
  .ok (s.mapHart fun h =>
    let t := h.tagOf va
    h.writeV vd t (fun _ => true) false (h.activeElems va t mask)
      (h.taintV va ||| h.taintM mask.m ||| h.keepTaint mask vd))

/-- vcompress, as a convoy of one. -/
def execVcompress (vd va : VReg) (mask : MaskOp) (s : State) : Host.Outcome State Fault Refusal := s.vector (vecVcompress vd va mask)

/-- vexpand (R211). -/
def vecVexpand (vd va : VReg) (mask : MaskOp) (s : State) : Except Stop State :=
  s.permute vd va mask [] [] (fun _ => true) fun h a _ i =>
    a.getD ((List.range i).filter (h.active mask)).length 0

/-- vexpand, as a convoy of one. -/
def execVexpand (vd va : VReg) (mask : MaskOp) (s : State) : Host.Outcome State Fault Refusal := s.vector (vecVexpand vd va mask)

/-- vrev (R211). -/
def vecVrev (vd va : VReg) (mask : MaskOp) (s : State) : Except Stop State :=
  s.permute vd va mask [] [] (fun _ => true) fun h a _ i =>
    a.getD (h.vl - 1 - i) 0

/-- vrev, as a convoy of one. -/
def execVrev (vd va : VReg) (mask : MaskOp) (s : State) : Host.Outcome State Fault Refusal := s.vector (vecVrev vd va mask)

/-! ### Reductions (R212 to R214) -/

/-- vred: element 0, the others are tail (R212). -/
def vecVred (o : VRed) (s : State) : Except Stop State := do
  let (t, r) ← s.redChecks o
  let s ← s.ready (o.vd :: o.va :: o.init.toList) []
  .ok (s.mapHart fun h =>
    let x := reduceTree o.op t r (h.initOf t o.init) (h.leaves o.va t o.mask)
    (h.writeV o.vd t (fun _ => true) false [x.1] (h.redTaint o)).addFlags x.2)

/-- vred, as a convoy of one. -/
def execVred (o : VRed) (s : State) : Host.Outcome State Fault Refusal := s.vector (vecVred o)

/-- vscan: element i reduces elements 0 to i (R79, R213). -/
def vecVscan (o : VRed) (s : State) : Except Stop State := do
  let (t, r) ← s.redChecks o
  let s ← s.ready (o.vd :: o.va :: o.init.toList) []
  .ok (s.mapHart fun h =>
    let l := h.leaves o.va t o.mask
    let init := h.initOf t o.init
    let (res, fl) := bodyResults (h.active o.mask) (fun i => reduceTree o.op t r init (l.take (i + 1))) h.vl 0
    (h.writeV o.vd t (h.active o.mask) h.csr.mp res (h.redTaint o)).addFlags fl)

/-- vscan, as a convoy of one. -/
def execVscan (o : VRed) (s : State) : Host.Outcome State Fault Refusal := s.vector (vecVscan o)

/-- vsegred (R214). -/
def vecVsegred (op : RedOp) (vd va : VReg) (mc : MReg) (mask : MaskOp) (rm : RMode) (s : State) : Except Stop State := do
  let r ← s.preRed op va [vd, va] rm
  let t := s.hart.tagOf va
  s.tagOk (redAccepts op t)
  let s ← s.ready [vd, va] []
  .ok (s.mapHart fun h =>
    let xs := (segments (h.maskBit mc) 0 (h.leaves va t mask)).map (reduceTree op t r none)
    (h.writeV vd t (fun _ => true) false (xs.map (·.1))
      (h.taintV va ||| h.taintM mc ||| h.taintM mask.m ||| h.keepTaint mask vd)).addFlags
      (xs.foldl (fun acc x => acc ||| x.2) 0))

/-- vsegred, as a convoy of one. -/
def execVsegred (op : RedOp) (vd va : VReg) (mc : MReg) (mask : MaskOp) (rm : RMode) (s : State) : Host.Outcome State Fault Refusal := s.vector (vecVsegred op vd va mc mask rm)

end Sys2Proof.Machine
end

