-- ==== Sys2Proof/Machine/VecMem.lean ====
section
/-! DEFINITION. Vector memory accesses through streams, vector atomics, stream configuration and the
completion counters (10 R216 to R236). `vec<Name>` is what an instruction does as a convoy member. -/

namespace Sys2Proof.Machine

/-! ### Walking the elements -/

/-- The elements of an access up to the first whose checks fail, and the state: window buffers may have changed. -/
structure Gathered where
  st : State
  elems : List (Nat × Option Elem) := []
  clamped : Bool := false
  fail : Option (Nat × ElemFail) := none

def gather (f : State → Nat → Except ElemFail (Option Elem × Bool × State)) (s : State) : List Nat → Gathered
  | [] => { st := s }
  | j :: r =>
    match f s j with
    | .error e => { st := s, clamped := e.clamped, fail := some (j, e) }
    | .ok (x, c, s) =>
      let g := gather f s r
      { g with elems := (j, x) :: g.elems, clamped := c || g.clamped }

/-- Active body elements from the one at which the instruction starts (R34). -/
def Hart.todo (h : Hart) (mask : MaskOp) : List Nat :=
  (List.range h.vl).filter fun j => decide (h.start ≤ j) && h.active mask j

/-- The queue of element j (R24, R116). -/
def Hart.queueOf (h : Hart) (j : Nat) : Nat := if h.g = 0 then 0 else 1 + j / 8 % h.g

/-- vstat.BCLAMP (R217). -/
def Hart.clampBit (h : Hart) (c : Bool) : Hart :=
  if c then { h with csr := { h.csr with vstat := h.csr.vstat ||| 4 } } else h

/-- The imprecise trap of a failing element; the hart's `start` says where to resume (R227). -/
def State.raiseElem (s : State) (e : ElemFail) (src : Bool) (row j : Nat) : Stop :=
  match e.err with
  | .inr f => .fault f
  | .inl f =>
    .trap { cause := f.cause, tinfo := f.tinfo, telem := telemOf src e.level row j, prec := false }
      (s.logFail s.hart f false e.k)

/-- Wait while an interlock entry conflicts with an element, its tables or the scale stream (R134). -/
def State.awaitElems (s : State) (q : Stream) (scale : Option Stream) (es : List Elem) (write : Bool) : Except Stop Unit :=
  let h := s.hart
  if h.interlock.isEmpty then .ok ()
  else if es.any (fun e => h.interlocked (h.canon (q.address e.d)) q.fmt.bytes write
        || (match scale with
            | some sq => h.interlocked (h.canon (sq.scaleAddress e.d)) 1 false
            | none => false))
      || (decide (4 ≤ q.kind.toNat) && h.interlocked (h.canon q.stride) (4 * q.bound2.toNat) false)
      || (decide (q.kind = 5) && h.interlocked (h.canon q.table2) (4 * q.bound3.toNat) false)
  then .error (.hold .engine)
  else .ok ()

/-- Before a walk that reads memory: everything is performed but what a tag holds that no access of the hart gives back.
Where such a tag is in the taint of the stream, or the hart's own store to a table or the scales is among what is left,
the instruction waits in the queue (R118, R127, R218, R219). -/
def State.walkReady (s : State) (qr : QReg) (mask : MReg) : Except Stop State :=
  let q := s.hart.q[qr.toNat]
  if !q.walks then .ok s
  else
    let t := s.drain
    let h := t.hart
    let tables := (if 4 ≤ q.kind.toNat then [(h.canon q.stride, 4 * q.bound2.toNat)] else [])
      ++ (if q.kind = 5 then [(h.canon q.table2, 4 * q.bound3.toNat)] else [])
    if h.struck then .error (.hold .presence)
    else if h.pendingOf (h.taintStream qr ||| h.taintM mask ||| h.ct) || h.pend.any (fun a => !(match a.op with
          | .load _ | .loadConst _ | .loadWindow .. => true
          | _ => false) && (q.sc || tables.any fun r => meets (h.canon a.shown) a.size r.1 r.2)) then .error (.hold .collective)
    else .ok t

/-- No granule is poisoned: the elements of an access are then known before check 10 of R88 is made, to wait for what
R134 says they wait for. -/
def State.clean (s : State) : State := { s with poison := [] }

/-- The train of a remote vector access (R136). -/
def trainOf (seq : Nat) : Slice → Option Nat
  | .remote p d => some (seq * 4096 + p % 256 * 4 + d)
  | _ => none

/-- A non-blocking instruction is in flight until its accesses are done (R230). -/
def Hart.addNb (h : Hart) (nb : Bool) (k : KReg) : Hart :=
  if nb then ({ h with nbs := h.nbs ++ [⟨h.seq, k⟩] } : Hart).completeNb else h

/-! ### Loads (R224 to R228) -/

/-- The old elements of a load's destination under R185, where the active elements are delivered
later: `dropped` elements are zero, elements at or above `limit` untouched. -/
def mergeLoad (act dropped : Nat → Bool) (mp tp : Bool) (vl limit : Nat) : Nat → List Quad → List Quad
  | _, [] => []
  | i, o :: old =>
    (if limit ≤ i then o
     else if i < vl then (if act i then (if dropped i then 0 else o) else if mp then 0 else o)
     else if tp then 0 else o) :: mergeLoad act dropped mp tp vl limit (i + 1) old

/-- Tag, taint, vlast and the elements that no access will write of a load's destination. -/
def Hart.prepare (h : Hart) (vd : VReg) (t : Tag) (mask : MaskOp) (dropped : List Nat) (limit : Nat)
    (taint : TaintSet) : Hart :=
  let old := padTo (h.regWords * h.group) (h.groupData vd)
  let e := h.maxElems
  let new := packElems t.wide
    (mergeLoad (h.active mask) dropped.contains h.csr.mp h.csr.tp h.vl limit 0 (takeElems t.wide e old))
  let h' := h.setGroupData vd (new ++ old.drop (e * t.words))
  { h' with
    v := h'.v.set vd.toNat { h'.v[vd.toNat] with tag := t, taint := taint },
    csr := { h'.csr with vlast := vd } }

/-- The elements that a walk dropped. -/
def Gathered.dropped (g : Gathered) : List Nat :=
  g.elems.filterMap fun p => match p.2 with
    | none => some p.1
    | some _ => none

/-- The elements that access memory. -/
def Gathered.present (g : Gathered) : List Elem := g.elems.filterMap (·.2)

/-- Issue one access for each element, in order. Log 111 (DEDUCED). -/
def State.issueAll (s : State) (mk : Elem → Access) (es : List Elem) : State :=
  es.foldl (fun s e => s.issue (mk e)) s

/-- The mode of a load: only a scaled one rounds (R72, R224). -/
def State.loadRounding (s : State) (q : Stream) (rm : RMode) : Except Stop Rnd :=
  if q.sc then s.rounding rm else .ok .rne

/-- Check 6 of R141 for a load: R226's Shape, and the mode of a scaled one. -/
def State.preLoad (s : State) (o : VMem) : Except Stop Rnd :=
  let q := s.hart.q[o.q.toNat]
  s.checks6 [o.dst] [q.fmt.tag] (s.loadRounding q o.rm)

/-- vld and vldff (R225 to R228). -/
def State.vload (s : State) (o : VMem) (ff : Bool) : Except Stop State := do
  let r ← s.preLoad o
  let q := s.hart.q[o.q.toNat]
  let scale ← s.streamOk q
  let t := q.fmt.tag
  let s ← s.ready (o.dst :: q.vregs) []
  let s ← s.walkReady o.q o.mask.m
  let idx := s.hart.streamIdx q s.hart.vl
  let walk := fun (s : State) =>
    gather (fun s j => s.element s.hart.asid .read .read q scale s.hart.csr.sbase (fun i => idx.getD i 0) j) s (s.hart.todo o.mask)
  s.awaitElems q scale (walk s.clean).present false
  let g := walk s
  let s := g.st
  let h := s.hart
  let taint := h.taintStream o.q ||| h.taintM o.mask.m
  let (h, tag) := h.allocTag
  let mk := fun (e : Elem) =>
    let dst := LoadDst.v o.dst e.j q.fmt (decide (e.d.toNat % 2 = 1)) e.scale r o.sat
    ({ seq := h.seq, queue := h.queueOf e.j, slice := e.loc.slice, addr := e.loc.phys, size := q.fmt.bytes,
       op := loadVia e.loc dst, held := taint, tag := some tag, nb := o.nb, via := e.loc.via, shown := e.loc.shown } : Access)
  let finishAt := fun (vl : Nat) (limit : Nat) =>
    let h := (({ h with csr := { h.csr with vl := BitVec.ofNat 32 vl } } : Hart).prepare o.dst t o.mask g.dropped limit
      (tagBit tag ||| taint)).clampBit g.clamped
    (s.setHart h).issueAll mk g.present
  match g.fail with
  | none => .ok ((finishAt h.vl h.maxElems).mapHart (·.addNb o.nb o.k))
  | some (j, e) =>
    let shorten := ff && (match e.err with
      | .inl f => f.cause == 0x08
      | .inr _ => false)
    if shorten && (List.range j).any (h.active o.mask) then
      let s' := (finishAt j h.maxElems).mapHart fun h => { h with csr := { h.csr with vstat := h.csr.vstat ||| 8 } }
      match e.err with
      | .inl f => .ok (s'.logFail s'.hart f true e.k)
      | .inr _ => .ok s'
    else
      .error (((finishAt h.vl j).mapHart (·.stopAt j idx #[])).raiseElem e false 0 j)
where
  /-- A load through an aperture is served by its window (R99). -/
  loadVia (l : Loc) (dst : LoadDst) : AccOp :=
    match l.slot with
    | some i => .loadWindow i dst
    | none => .load dst

/-- vld. -/
def vecVld (o : VMem) (s : State) : Except Stop State := s.vload o false

/-- vldff. -/
def vecVldff (o : VMem) (s : State) : Except Stop State := s.vload o true

/-! ### Stores and exchange (R225) -/

/-- Nibbles of a granule that a write of n bytes covers. Log 47 (DEDUCED). -/
def coverMask (addr n : Nat) : Nat := (2 ^ (2 * n) - 1) * 2 ^ (2 * (addr % 32))

/-- The nibble of a granule that an E2M1 element covers (R67). -/
def coverNibble (addr : Nat) (high : Bool) : Nat := 2 ^ (2 * (addr % 32) + (if high then 1 else 0))

/-- A granule is covered: all its 64 nibbles are written. -/
def wholeCover (m : Nat) : Bool := m == 2 ^ 64 - 1

/-- The writes, each a granule with the nibbles it covers: which of them is the last of its granule, where they cover the
granule whole (R110). -/
def clearMarks (ws : List (Nat × Nat)) : List Bool :=
  let covered := fun g => wholeCover (ws.foldl (fun acc w => if w.1 = g then acc ||| w.2 else acc) 0)
  go covered ws
where
  go (covered : Nat → Bool) : List (Nat × Nat) → List Bool
    | [] => []
    | w :: r => (!r.any (fun x => x.1 == w.1) && covered w.1) :: go covered r

/-- The granule of an element and the nibbles of it that a store of the element covers. -/
def Elem.cover (e : Elem) (fmt : MemFmt) : Nat × Nat :=
  (granule e.loc.phys,
   if fmt = .e2m1 then coverNibble e.loc.phys (decide (e.d.toNat % 2 = 1)) else coverMask e.loc.phys fmt.bytes)

/-- The accesses of a store, in element order, with the flags of narrowing. -/
def Hart.storeAccesses (h : Hart) (o : VMem) (q : Stream) (t : Tag) (r : Rnd) (taint : TaintSet) (es : List Elem) :
    List Access × FFlags :=
  let data := h.streamData o.data t h.vl
  let vals := es.map fun e => (e, narrow q.fmt t e.scale r o.sat (data.getD e.j 0))
  let size := q.fmt.bytes
  let marks := clearMarks (es.map (·.cover q.fmt))
  ((vals.zip marks).map fun p =>
     let e := p.1.1
     ({ seq := h.seq, queue := h.queueOf e.j, slice := e.loc.slice, addr := e.loc.phys, size := size,
        op := (if q.fmt = .e2m1 then .storeNibble (decide (e.d.toNat % 2 = 1)) p.1.2.1 else .store p.1.2.1),
        held := taint, tag := none, train := trainOf h.seq e.loc.slice, via := e.loc.via, shown := e.loc.shown, clears := p.2 } : Access),
   vals.foldl (fun acc v => acc ||| v.2.2) 0)

/-- Check 6 of R141 for a store. -/
def State.preStore (s : State) (o : VMem) : Except Stop Rnd :=
  s.checks6 [o.data] [] (s.storeRounding (s.hart.tagOf o.data) s.hart.q[o.q.toNat].fmt o.rm)

/-- vst. -/
def vecVst (o : VMem) (s : State) : Except Stop State := do
  let r ← s.preStore o
  let q := s.hart.q[o.q.toNat]
  let t := s.hart.tagOf o.data
  let scale ← s.streamOk q
  s.tagOk (q.fmt.accepts t)
  let s ← s.ready (o.data :: q.vregs) []
  let s ← s.walkReady o.q o.mask.m
  let idx := s.hart.streamIdx q s.hart.vl
  let walk := fun (s : State) =>
    gather (fun s j => s.element s.hart.asid .write .read q scale s.hart.csr.sbase (fun i => idx.getD i 0) j) s (s.hart.todo o.mask)
  s.awaitElems q scale (walk s.clean).present true
  let g := walk s
  let s := g.st
  let h := s.hart
  let taint := h.taintStream o.q ||| h.taintM o.mask.m ||| h.taintV o.data
  let (accs, fl) := h.storeAccesses o q t r taint g.present
  let s' := accs.foldl State.issue (s.mapHart fun h => (h.clampBit g.clamped).addFlags fl)
  match g.fail with
  | none => .ok (s'.mapHart (·.addNb o.nb o.k))
  | some (j, e) => .error ((s'.mapHart (·.stopAt j idx (h.streamData o.data t h.vl))).raiseElem e false 0 j)

/-- Check 6 of R141 for vchg. -/
def State.preChange (s : State) (o : VMem) : Except Stop Rnd :=
  let fmt := s.hart.q[o.q.toNat].fmt
  s.checks6 [o.dst, o.data] [fmt.tag] (s.storeRounding (s.hart.tagOf o.data) fmt o.rm)

/-- vchg: an exchange at the home of each element (R225). -/
def vecVchg (o : VMem) (s : State) : Except Stop State := do
  let r ← s.preChange o
  let q := s.hart.q[o.q.toNat]
  let t := s.hart.tagOf o.data
  if q.sc then .error (insnTrap s 0x0C) else .ok ()
  let _ ← s.streamOk q
  s.tagOk (q.fmt.accepts t)
  let s ← s.ready (o.dst :: o.data :: q.vregs) []
  let s ← s.walkReady o.q o.mask.m
  let idx := s.hart.streamIdx q s.hart.vl
  let data := s.hart.streamData o.data t s.hart.vl
  let walk := fun (s : State) =>
    gather (fun s j => s.element s.hart.asid .atomic .read q none s.hart.csr.sbase (fun i => idx.getD i 0) j) s (s.hart.todo o.mask)
  s.awaitElems q none (walk s.clean).present true
  let g := walk s
  let s := g.st
  let h := s.hart
  let taint := h.taintStream o.q ||| h.taintM o.mask.m ||| h.taintV o.data
  let vals := g.present.map fun e => (e, narrow q.fmt t none r o.sat (data.getD e.j 0))
  let (h, tag) := h.allocTag
  let limit := match g.fail with
    | none => h.maxElems
    | some (j, _) => j
  let h := ((h.prepare o.dst q.fmt.tag o.mask g.dropped limit (tagBit tag ||| taint)).clampBit g.clamped).addFlags
    (vals.foldl (fun acc v => acc ||| v.2.2) 0)
  let s' := vals.foldl (fun s v =>
    let e := v.1
    s.issue { seq := h.seq, queue := h.queueOf e.j, slice := e.loc.slice, addr := e.loc.phys, size := q.fmt.bytes,
              op := .exchange v.2.1 (.v o.dst e.j q.fmt (decide (e.d.toNat % 2 = 1)) none .rne false),
              held := taint, tag := some tag, nb := o.nb, train := trainOf h.seq e.loc.slice, via := e.loc.via, shown := e.loc.shown })
    (s.setHart h)
  match g.fail with
  | none => .ok (s'.mapHart (·.addNb o.nb o.k))
  | some (j, e) => .error ((s'.mapHart (·.stopAt j idx data)).raiseElem e false 0 j)

/-! ### Vector atomics (R234 to R236) -/

/-- Tags of an operation (R234). -/
def AmoOp.accepts : AmoOp → Tag → Bool
  | .add, t | .and, t | .or, t | .xor, t => notFloat t
  | .min, t | .max, t => t.isI
  | .minN, t | .maxN, t => t.isN
  | .swap, _ => true
  | .fadd, t => t.isF
where
  notFloat (t : Tag) : Bool := !t.isF

/-- The memory format that is the container of a tag. -/
def containerFmt : Tag → MemFmt
  | .n32 => .n32 | .i32 => .i32 | .f32 => .f32 | .n64 => .n64 | .i64 => .i64 | .f64 => .f64

/-- Walk every element, failing or not: the elements that passed, and the first failure. -/
def gatherAll (f : State → Nat → Except ElemFail (Option Elem × Bool × State)) (s : State) : List Nat → Gathered
  | [] => { st := s }
  | j :: r =>
    match f s j with
    | .error e =>
      let g := gatherAll f s r
      { g with clamped := e.clamped || g.clamped, fail := some (j, e) }
    | .ok (x, c, s) =>
      let g := gatherAll f s r
      { g with elems := (j, x) :: g.elems, clamped := c || g.clamped }

/-- Merge elements with equal canonical addresses, lowest element first (R103, R235). Log 113 (DEDUCED). -/
def mergeEqual (key : Elem → Nat) : List Elem → List (List Elem)
  | [] => []
  | e :: r =>
    let gs := mergeEqual key r
    match gs.find? (fun g => g.any fun x => key x == key e) with
    | none => [e] :: gs
    | some g => (e :: g) :: gs.filter fun g => !g.any fun x => key x == key e

/-- Check 6 of R141 for a vector atomic. -/
def State.preAtomic (s : State) (o : VMem) (dst : Option VReg) : Except Stop Rnd :=
  s.checks6 (o.data :: dst.toList) [s.hart.tagOf o.data] (.ok .rne)

/-- vamo and vamo.r: one update for each distinct address. An update that has an element below the
first failing one is sent, with all its elements; the others stay incomplete (R236). -/
def State.vatomic (s : State) (op : AmoOp) (o : VMem) (dst : Option VReg) : Except Stop State := do
  let _ ← s.preAtomic o dst
  let q := s.hart.q[o.q.toNat]
  let t := s.hart.tagOf o.data
  if q.sc then .error (insnTrap s 0x0C) else .ok ()
  let _ ← s.streamOk q
  s.tagOk (AmoOp.accepts op t && q.fmt == containerFmt t)
  let s ← s.ready (o.data :: dst.toList ++ q.vregs) []
  let s ← s.walkReady o.q o.mask.m
  let idx := s.hart.streamIdx q s.hart.vl
  let data := s.hart.streamData o.data t s.hart.vl
  let todo := (List.range s.hart.vl).filter fun j => s.hart.active o.mask j && !bitOf s.hart.doneElems j
  let walk := fun (s : State) =>
    gatherAll (fun s j => s.element s.hart.asid .atomic .read q none s.hart.csr.sbase (fun i => idx.getD i 0) j) s todo
  s.awaitElems q none (walk s.clean).present true
  let g := walk s
  let s := g.st
  let h := s.hart
  let taint := h.taintStream o.q ||| h.taintM o.mask.m ||| h.taintV o.data
  let limit := match g.fail with
    | none => max h.maxElems h.vl
    | some (j, _) => j
  let groups := (mergeEqual (fun e => h.canon (q.address e.d)) g.present).filter fun l =>
    l.any fun e => decide (e.j < limit)
  let (h, tag) := if dst.isSome then (let r := h.allocTag; (r.1, some r.2)) else (h, none)
  let dropped := g.dropped.filter fun j => decide (j < limit)
  let h := match dst, tag with
    | some d, some tg => h.prepare d t o.mask dropped limit (tagBit tg ||| taint)
    | _, _ => h
  let h := h.clampBit g.clamped
  let s' := groups.foldl (fun s l =>
    match l with
    | [] => s
    | e :: _ =>
      s.issue { seq := h.seq, queue := h.queueOf e.j, slice := e.loc.slice, addr := e.loc.phys, size := q.fmt.bytes,
                op := .vamo op t (l.map fun e => (e.j, data.getD e.j 0)) dst, held := taint, tag := tag,
                nb := o.nb && dst.isSome, train := trainOf h.seq e.loc.slice, via := e.loc.via, shown := e.loc.shown })
    (s.setHart h)
  match g.fail with
  | none => .ok (s'.mapHart fun h => { h.addNb o.nb o.k with doneElems := 0 })
  | some (j, e) =>
    let complete := (dropped ++ groups.flatMap fun l => l.map (·.j)).foldl
      (fun (acc : BitVec 65536) j => acc ||| (1#65536 <<< j)) h.doneElems
    .error ((s'.mapHart fun h => { h.stopAt j idx data with doneElems := complete }).raiseElem e false 0 j)

/-- vamo. -/
def vecVamo (op : AmoOp) (o : VMem) (s : State) : Except Stop State := s.vatomic op o none

/-- vamo.r. -/
def vecVamoR (op : AmoOp) (o : VMem) (s : State) : Except Stop State := s.vatomic op o (some o.dst)

/-! ### Presence (R231) -/

/-- vwait: later vector instructions find every presence bit of va set. -/
def vecVwait (va : VReg) (s : State) : Except Stop State := do
  let _ ← s.preRegs [va] none
  let s ← s.ready [va] []
  .ok (s.mapHart (·.completeNb))

/-- The v register that an element-wise instruction writes, and whether with 64-bit elements, by the tags that it found
at issue. -/
def Instr.eachDst (vt : Vector Tag 64) : Instr → Option (VReg × Bool)
  | .vadd o | .vsub o | .vmul o | .vmulh o | .vdiv o | .vrem o | .vmin o | .vmax o | .vand o | .vor o | .vxor o
  | .vsll o | .vsrl o | .vsra o => some (o.vd, vt[o.va.toNat].wide)
  | .vpopc o | .vclz o | .vabs o | .vneg o | .vsqrt o | .vrcp o | .vrsqrt o | .vexp2 o | .vlog2 o | .vclass o =>
    some (o.vd, vt[o.va.toNat].wide)
  | .vcvt t o => some (o.vd, t.wide)
  | .vfma o | .vfms o | .vnfma o => some (o.vd, vt[o.va.toNat].wide)
  | .vsel vd va .. => some (vd, vt[va.toNat].wide)
  | _ => none

/-- The v register that a non-blocking load, exchange, atomic or receive writes. -/
def Instr.nbDst : Instr → Option VReg
  | .vld o | .vldff o | .vchg o | .vamoR _ o => if o.nb then some o.dst else none
  | .vrecv nb vd .. => if nb then some vd else none
  | .collectiveVld o => if o.nb then some o.reg else none
  | _ => none

/-- The elements of group i. -/
def groupBits (i : Nat) : BitVec 65536 := 0xFF#65536 <<< (8 * i)

/-- Element group i of what has not come whole is there: a collective result comes at once, a message packet by packet
(R35, R266). -/
def CollLoad.present (c : CollLoad) (i : Nat) : Bool :=
  c.msg.isSome && (List.range 8).all fun b =>
    decide (c.len ≤ 8 * i + b) || c.got.contains ((8 * i + b) * (if c.tag.wide then 8 else 4) / 4096)

/-- The containers of n elements from element i on, of a register or group, among the containers of all registers. -/
def Hart.places (h : Hart) (r : VReg) (wide : Bool) (i n : Nat) : Nat × Nat :=
  let w := if wide then 2 else 1
  (r.toNat * h.regWords + w * i, w * n)

/-- The containers that an access will write. -/
def Hart.accessSpans (h : Hart) (a : Access) : List (Nat × Nat) :=
  match a.op with
  | .load (.v d j f ..) | .loadConst (.v d j f ..) | .loadWindow _ (.v d j f ..) | .exchange _ (.v d j f ..) =>
    [h.places d f.tag.wide j 1]
  | .vamo _ t es (some d) => es.map fun p => h.places d t.wide p.1 1
  | _ => []

/-- The containers that a result or message will write. -/
def Hart.collSpans (h : Hart) (c : CollLoad) : List (Nat × Nat) :=
  if c.msg.isSome then ((List.range ((c.len + 7) / 8)).filter fun i => !c.present i).map fun i => h.places c.vd c.tag.wide (8 * i) 8
  else [(c.vd.toNat * h.regWords, 2 ^ c.env.gl.toNat * h.regWords)]

/-- The containers that an entry of the queue leaves pending: those of the element groups that an element-wise instruction
has not executed, or the group that a non-blocking one will write (R35, R36). -/
def Hart.entrySpans (h : Hart) (e : Frozen) : List (Nat × Nat) :=
  match wordInstr e.word with
  | none => []
  | some x =>
    match Instr.eachDst e.env.vt x, Instr.nbDst x with
    | some (d, wide), _ =>
      ((List.range ((e.env.vl.toNat + 7) / 8)).filter fun i => e.doneElems &&& groupBits i != groupBits i).map fun i =>
        h.places d wide (8 * i) 8
    | none, some d => [(d.toNat * h.regWords, 2 ^ e.env.gl.toNat * h.regWords)]
    | none, none => []

/-- Element group i of va, with elements of a width, is present: none of its containers is one that a non-blocking access, a result, or one of the
given entries of the queue has still to write (R35, R36). -/
def Hart.presentIn (h : Hart) (q : List Frozen) (va : VReg) (wide : Bool) (i : Nat) : Bool :=
  let p := h.places va wide (8 * i) 8
  let out := fun (l : List (Nat × Nat)) => !l.any fun r => meets p.1 p.2 r.1 r.2
  h.colls.all (fun c => !c.nb || out (h.collSpans c)) && h.pend.all (fun a => !a.nb || out (h.accessSpans a))
    && q.all fun e => out (h.entrySpans e)

/-- Element group i of va is present. -/
def Hart.presentGroup (h : Hart) (va : VReg) (i : Nat) : Bool :=
  h.presentIn (if h.thaw then h.frozen else []) va (h.tagOf va).wide i

/-- vpres: the taint of md is that of va, whatever md held (R231). -/
def vecVpres (md : MReg) (va : VReg) (s : State) : Except Stop State := do
  let _ ← s.preRegs [va] none
  .ok (s.mapHart fun h =>
    let h' := h.writeMask md MaskOp.none (fun i => h.presentGroup va (i / 8)) (h.taintV va)
    if h.vl = 0 then h'
    else { h' with m := h'.m.set md.toNat { h'.m[md.toNat] with taint := h.taintV va } })

/-! ### As convoys of one -/

/-- vld. -/
def execVld (o : VMem) (s : State) : Host.Outcome State Fault Refusal := s.vector (vecVld o)
/-- vldff. -/
def execVldff (o : VMem) (s : State) : Host.Outcome State Fault Refusal := s.vector (vecVldff o)
/-- vst. -/
def execVst (o : VMem) (s : State) : Host.Outcome State Fault Refusal := s.vector (vecVst o)
/-- vchg. -/
def execVchg (o : VMem) (s : State) : Host.Outcome State Fault Refusal := s.vector (vecVchg o)
/-- vamo. -/
def execVamo (op : AmoOp) (o : VMem) (s : State) : Host.Outcome State Fault Refusal := s.vector (vecVamo op o)
/-- vamo.r. -/
def execVamoR (op : AmoOp) (o : VMem) (s : State) : Host.Outcome State Fault Refusal := s.vector (vecVamoR op o)
/-- vwait. -/
def execVwait (va : VReg) (s : State) : Host.Outcome State Fault Refusal := s.vector (vecVwait va)
/-- vpres. -/
def execVpres (md : MReg) (va : VReg) (s : State) : Host.Outcome State Fault Refusal := s.vector (vecVpres md va)

/-! ### Stream configuration (R221, R222) -/

/-- Change a stream register; its walked-ahead translations restart. -/
def Hart.setStream (h : Hart) (q : QReg) (st : Stream) (t : TaintSet) : Hart :=
  { h with q := h.q.set q.toNat { st with prewalk := 0, taint := t } }

/-- qset. -/
def execQset (fmt : MemFmt) (q : QReg) (sa sb : SReg) (scq : Option QReg) (s : State) :
    Host.Outcome State Fault Refusal :=
  let s := s.needS [sa, sb]
  .next ((s.mapHart fun h =>
    h.setStream q { base := h.getS sa, stride := h.getS sb, kind := if sb = 0 then 1 else 2, fmt := fmt,
                    sc := scq.isSome, scq := scq.getD 0 } (h.taintS sa ||| h.taintS sb)).done 8)

/-- Code of a bound policy as a stream instruction that extends a stream of some kind. -/
def State.extend (s : State) (q : QReg) (ss : List SReg) (taint : Hart → TaintSet)
    (f : Hart → Stream → Option Stream) : Host.Outcome State Fault Refusal :=
  let s := s.needS ss
  let h := s.hart
  let st := h.q[q.toNat]
  finish s (match f h st with
    | none => .error (insnTrap s 0x0C)
    | some st' => .ok ((s.mapHart fun h => h.setStream q st' (st.taint ||| taint h)).done 8))

/-- qsetx: a unit stream becomes indexed. -/
def execQsetx (pol : Policy) (q : QReg) (vb : VReg) (sc : SReg) (s : State) : Host.Outcome State Fault Refusal :=
  s.extend q [sc] (fun h => h.taintV vb ||| h.taintS sc) fun h st =>
    if st.kind ≠ 1 then none else some { st with idx := vb, bound1 := h.getS sc, pol1 := pol, kind := 3 }

/-- qchain: the new table goes innermost. -/
def execQchain (pol : Policy) (q : QReg) (sa sb : SReg) (s : State) : Host.Outcome State Fault Refusal :=
  s.extend q [sa, sb] (fun h => h.taintS sa ||| h.taintS sb) fun h st =>
    if st.kind = 3 then some { st with stride := h.getS sa, bound2 := h.getS sb, pol2 := pol, kind := 4 }
    else if st.kind = 4 then some { st with table2 := h.getS sa, bound3 := h.getS sb, pol3 := pol, kind := 5 }
    else none

/-- Quad 6 of a stream register (R51). -/
def Stream.control (q : Stream) : Quad :=
  (q.pol3.code ++ q.pol2.code ++ q.pol1.code ++ q.scq ++ bit1 q.sc ++ q.fmt.code ++ q.idx ++ q.kind
    : BitVec (2 + 2 + 2 + 4 + 1 + 5 + 6 + 4)).setWidth 64

/-- A quad of a stream register (R51). -/
def Stream.quad (q : Stream) (n : BitVec 3) : Quad :=
  match n with
  | 0#3 => q.base | 1#3 => q.stride | 2#3 => q.table2 | 3#3 => q.bound1 | 4#3 => q.bound2 | 5#3 => q.bound3
  | 6#3 => q.control | _ => q.prewalk.setWidth 64

/-- The part walks ahead of a stream whose elements lie on the hart's own die (R356). -/
def Hart.walksAhead (h : Hart) (q : Stream) : Bool :=
  decide (1 ≤ q.kind.toNat ∧ q.kind.toNat ≤ 5) && h.canon q.base / 2 ^ 51 == 4 * h.pkg + h.die

/-- Walk ahead for a stream: from the page of its base on, up to four 64 KiB pages, of which those up to the first that is
not valid fill the core's TLB; their number is quad 7 (R51, R356). How far the part has come is open, as is where the stream's
next element lies. Log 125 (DESIGN CHOICE). -/
def State.walkAhead (s : State) (q : QReg) (base : Nat) : Nat → Nat → State
  | 0, _ => s
  | fuel + 1, n =>
    let off := (base / 65536 + n + 1) * 65536
    let h := s.hart
    match s.walkCached h.pkg h.die (some h.core) h.asid off with
    | .leaf l size =>
      if off < 2 ^ 42 ∧ (l.r ∨ l.w) then
        let w : WalkReq := { pkg := h.pkg, die := h.die, core := some h.core, asid := h.asid.toNat, offset := off }
        (((s.fillTlb w l size).fillTables w).mapHart fun h =>
          { h with q := h.q.set q.toNat { h.q[q.toNat] with prewalk := BitVec.ofNat 3 (n + 1) } }).walkAhead q base fuel (n + 1)
      else s
    | _ => s

/-- The translations that the part has walked ahead for a stream when quad 7 is read. -/
def State.lookAhead (s : State) (q : QReg) : State :=
  let r := s.hart.q[q.toNat]
  let t := (s.mapHart fun h => { h with q := h.q.set q.toNat { h.q[q.toNat] with prewalk := 0 } }).drawn
  if s.hart.walksAhead r then t.walkAhead q (fieldOf r.base 0 42) ((Config.value s.free).toNat % 5) 0 else t

/-- qget. -/
def execQget (sd : SReg) (q : QReg) (quad : BitVec 3) (s : State) : Host.Outcome State Fault Refusal :=
  let s := if quad = 7 then s.lookAhead q else s
  .next (((s.needS [sd]).mapHart fun h => h.setS sd (h.q[q.toNat].quad quad) (h.taintQ q)).done 8)

/-! ### Completion counters (R232, R233) -/

/-- The counter has reached a value: their difference modulo 2^32 is below 2^31. -/
def reached (k : Word) (x : Quad) : Bool := decide ((k - x.setWidth 32).toNat < 2 ^ 31)

/-- kwait: the hart's accesses are performed while it waits. -/
def execKwait (k : KReg) (sa : SReg) (s : State) : Host.Outcome State Fault Refusal :=
  let s := s.needS [sa]
  let s := if reached s.hart.k[k.toNat] (s.hart.getS sa) then s else s.drain
  if reached s.hart.k[k.toNat] (s.hart.getS sa) then .next (s.done 8) else .next (s.holdHart .counter)

/-- kread. -/
def execKread (sd : SReg) (k : KReg) (s : State) : Host.Outcome State Fault Refusal :=
  .next (((s.needS [sd]).mapHart fun h => h.setS sd (h.k[k.toNat].setWidth 64) 0).done 8)

/-- kset. -/
def execKset (k : KReg) (sa : SReg) (s : State) : Host.Outcome State Fault Refusal :=
  .next (((s.needS [sa]).mapHart fun h => { h with k := h.k.set k.toNat ((h.getS sa).setWidth 32) }).done 8)

/-- kadd: OVF is set when the addition carries. -/
def execKadd (k : KReg) (sa : SReg) (s : State) : Host.Outcome State Fault Refusal :=
  .next (((s.needS [sa]).mapHart fun h =>
    let x : Word := (h.getS sa).setWidth 32
    let sum := h.k[k.toNat].toNat + x.toNat
    { h with k := h.k.set k.toNat (BitVec.ofNat 32 sum),
             csr := if 2 ^ 32 ≤ sum then { h.csr with kstat := h.csr.kstat ||| (1#24 <<< (16 + k.toNat)) } else h.csr }).done 8)

end Sys2Proof.Machine
end

