-- ==== Sys2Proof/Machine/Matrix.lean ====
section
/-! DEFINITION. The matrix engine (04 R80, R81; 11 R242 to R252): shapes, tile arithmetic, moving rows, and
issuing mst. A matrix instruction takes effect whole in one step; the rows of mst are read
when it issues. -/

namespace Sys2Proof.Machine

/-! ### Tiles (R50) -/

def tileGet (t : Tile) (i j : Nat) : Quad := ((t.getD i []).getD j 0).setWidth 64

/-- Set row i, listing empty rows before it where it lies past the end. -/
def tileSetRow : Tile → Nat → List Word → Tile
  | [], 0, r => [r]
  | [], i + 1, r => [] :: tileSetRow [] i r
  | _ :: t, 0, r => r :: t
  | x :: t, i + 1, r => x :: tileSetRow t i r

def tileSet (t : Tile) (i j : Nat) (x : Quad) : Tile :=
  tileSetRow t i (setContainer (t.getD i []) j (x.setWidth 32))

def Hart.tile (h : Hart) (t : TReg) : Tile := h.tiles.getD t.toNat []

def Hart.setTile (h : Hart) (t : TReg) (x : Tile) : Hart := { h with tiles := h.tiles.set t.toNat x }

/-- Tile not owned (0x0E) (R23). -/
def State.tileOk (s : State) (t : TReg) : Except Stop Unit :=
  if t.toNat < s.hart.tiles.length ∧ !s.hart.noLanes then .ok () else .error (insnTrap s 0x0E)

/-- Shape (0x05) unless the condition holds. -/
def State.limitOk (s : State) (c : Bool) : Except Stop Unit := if c then .ok () else .error (insnTrap s 0x05)

/-! ### Shape and stepping (R245, R246) -/

/-- Mmax and Nmax of a class (R80). -/
def MClass.limits : MClass → Nat × Nat
  | .w4 => (128, 128) | .w8 => (64, 128) | .w16 => (64, 64) | .w32 => (16, 32)

/-- Precision of a class (R80). -/
def MClass.precision : MClass → Nat
  | .w4 => 2 | .w8 => 4 | .w16 => 11 | .w32 => 24

/-- Rows and columns of the current tile (R245). -/
def UserCsr.ragged (c : UserCsr) : Quad :=
  BitVec.ofNat 64 (min c.mMg.toNat (c.mM.toNat - c.mi.toNat) + 2 ^ 16 * min c.mNg.toNat (c.mN.toNat - c.nj.toNat))

/-- A 64-bit natural cut to 32 bits' maximum. -/
def cut32 (x : Quad) : Word := BitVec.ofNat 32 (min x.toNat (2 ^ 32 - 1))

/-- mshape (R245). -/
def execMshape (c : MClass) (sd sa sb sc : SReg) (s : State) : Host.Outcome State Fault Refusal :=
  .next (((s.needS [sd, sa, sb, sc]).mapHart fun h =>
    let l := h.maxElems
    let lim := MClass.limits c
    let r : UserCsr := { h.csr with
      mM := cut32 (h.getS sa), mN := cut32 (h.getS sb), mK := cut32 (h.getS sc), mclass := c.code,
      mMg := BitVec.ofNat 8 (min lim.1 l), mNg := BitVec.ofNat 8 (min lim.2 l), mi := 0, nj := 0, kk := 0 }
    let out := if r.mM = 0 ∨ r.mN = 0 ∨ r.mMg = 0 then 0 else r.ragged
    (({ h with csr := r } : Hart).setS sd out 0).addControl (h.taintS sa ||| h.taintS sb ||| h.taintS sc)).done 8)

/-- mstep (R246). -/
def execMstep (sd : SReg) (s : State) : Host.Outcome State Fault Refusal :=
  .next (((s.needS [sd]).mapHart fun h =>
    let c := h.csr
    let nj := c.nj.toNat + c.mNg.toNat
    let wrap := decide (c.mN.toNat ≤ nj)
    let mi := if wrap then c.mi.toNat + c.mMg.toNat else c.mi.toNat
    let nj := if wrap then 0 else nj
    let over_ := decide (c.mM.toNat ≤ mi) || c.mMg == 0
    let c' : UserCsr := { c with
      kk := 0, mi := BitVec.ofNat 32 (if over_ then 0 else mi), nj := BitVec.ofNat 32 (if over_ then 0 else nj) }
    ({ h with csr := c' } : Hart).setS sd (if over_ then 0 else c'.ragged) 0).done 8)

/-- mwait (R247): every earlier matrix instruction has taken effect; it waits for those in the queue, but not at level S
for those that a trap has frozen (R424). -/
def execMwait (s : State) : Host.Outcome State Fault Refusal :=
  if s.hart.thaw && s.hart.frozen.any fun e => matrixWord e.word then .next (s.holdHart .matrix) else .next (s.done 8)

/-- A tile takes no taint: an instruction that writes one waits until the tags of its vector sources have retired (R50). -/
def State.awaitTags (s : State) (t : TaintSet) : Except Stop State :=
  if !s.hart.pendingOf t then .ok s
  else
    let u := s.drain
    if u.hart.pendingOf t || u.hart.struck then .error (.hold .collective) else .ok u

/-! ### Tile arithmetic (R81, R249) -/

/-- An operand reduced to p significant bits under RNE, with its flags (R81). -/
def reduceOperand (p : Nat) (x : Quad) : FVal × FFlags :=
  match ff32.val x with
  | .fin n m e =>
    if m = 0 then (.fin n m e, 0)
    else
      let q := max (e + bitLen m - p) (-149)
      let (k, inx) := roundAt .rne n ⟨m, e, false⟩ q
      if 128 < q + bitLen k then (.inf n, flagOF ||| flagNX) else (.fin n k q, if inx then flagNX else 0)
  | v => (v, 0)

/-- One K step on one element (R81): t + a'b', or t - a'b'. -/
def mopStep (neg : Bool) (r : Rnd) (a b : FVal) (t : Quad) : FRes :=
  let c := ff32.val t
  let prod := (a.mulExact b).map fun x => if neg then x.negate else x
  ff32.ofExact r false (prod.bind fun x => x.addExact r c) (snanFlag [a, b, c])

/-- The class in effect. -/
def UserCsr.precision (c : UserCsr) : Nat := MClass.precision (MClass.ofCode c.mclass)

/-- One row of a K step. -/
def mopRow (neg : Bool) (r : Rnd) (a : FVal) : List FVal → Nat → List Word → List Word × FFlags
  | [], _, row => (row, 0)
  | b :: bs, j, row =>
    let x := mopStep neg r a b ((row.getD j 0).setWidth 64)
    let (row', fl) := mopRow neg r a bs (j + 1) (setContainer row j (x.1.setWidth 32))
    (row', fl ||| x.2)

/-- Check 6 of R141 for mop and mopn: they take a rounding mode. -/
def State.preMop (s : State) (va vb : VReg) (rm : RMode) : Except Stop Rnd := s.checks6 [va, vb] [] (s.rounding rm)

/-- mop and mopn (R249). -/
def State.mopBody (s : State) (neg : Bool) (t : TReg) (va vb : VReg) (mask : MaskOp) (rm : RMode) :
    Except Stop State := do
  let r ← s.preMop va vb rm
  s.tileOk t
  s.limitOk (decide (s.hart.vl ≤ s.hart.csr.mMg.toNat ∧ s.hart.csr.mcols.toNat ≤ s.hart.csr.mNg.toNat
    ∧ s.hart.csr.mcols.toNat ≤ s.hart.maxElems))
  s.tagOk (s.hart.tagOf va == .f32 && s.hart.tagOf vb == .f32)
  let s ← s.ready [va, vb] []
  let s ← s.awaitTags (s.hart.taintV va ||| s.hart.taintV vb)
  let s ← s.matrixEntry
  .ok (s.mapHart fun h =>
    let p := h.csr.precision
    let a := h.elems va .f32 h.vl
    let bs := (h.elems vb .f32 h.csr.mcols.toNat).toList.map (reduceOperand p)
    let rows := (List.range h.vl).filter (h.active mask)
    let step := fun (acc : Tile × FFlags) i =>
      let x := reduceOperand p (a.getD i 0)
      let (row, fl) := mopRow neg r x.1 (bs.map (·.1)) 0 (acc.1.getD i [])
      (tileSetRow acc.1 i row, acc.2 ||| fl ||| x.2)
    let (tile, fl) := if bs.isEmpty then (h.tile t, 0) else rows.foldl step (h.tile t, 0)
    let fl := if rows.isEmpty then fl else bs.foldl (fun acc b => acc ||| b.2) fl
    (({ h.setTile t tile with csr := { h.csr with kk := h.csr.kk + 1 } } : Hart)).addFlags fl)

/-- mzero: the granted block becomes +0 (R249). -/
def vecMzero (t : TReg) (s : State) : Except Stop State := do
  s.vecUnit
  s.tileOk t
  let s ← s.matrixEntry
  .ok (s.mapHart fun h =>
    let cols := h.csr.mNg.toNat
    let tile := (List.range h.csr.mMg.toNat).foldl (fun tl i =>
      tileSetRow tl i (List.replicate cols 0 ++ (tl.getD i []).drop cols)) (h.tile t)
    { h.setTile t tile with csr := { h.csr with kk := 0 } })

/-- mop. -/
def vecMop (t : TReg) (va vb : VReg) (mask : MaskOp) (rm : RMode) (s : State) : Except Stop State :=
  s.mopBody false t va vb mask rm

/-- mopn. -/
def vecMopn (t : TReg) (va vb : VReg) (mask : MaskOp) (rm : RMode) (s : State) : Except Stop State :=
  s.mopBody true t va vb mask rm

/-! ### Moving rows (R250) -/

/-- mrd. -/
def vecMrd (col : Bool) (vd : VReg) (t : TReg) (sa : SReg) (mask : MaskOp) (s : State) : Except Stop State := do
  let _ ← s.preRegs [vd] none
  s.tileOk t
  let s ← s.ready [vd] [sa]
  s.limitOk (decide ((s.hart.getS sa).toNat ≤ 127 ∧ s.hart.vl ≤ 128))
  let s ← s.matrixEntry
  .ok (s.mapHart fun h =>
    let x := (h.getS sa).toNat
    let tl := h.tile t
    h.elementwise vd .f32 mask (fun i => (if col then tileGet tl i x else tileGet tl x i, 0)) (h.taintS sa))

/-- mwr. -/
def vecMwr (col : Bool) (t : TReg) (va : VReg) (sb : SReg) (mask : MaskOp) (s : State) : Except Stop State := do
  let _ ← s.preRegs [va] none
  s.tileOk t
  let s ← s.ready [va] [sb]
  s.limitOk (decide ((s.hart.getS sb).toNat ≤ 127 ∧ s.hart.vl ≤ 128))
  s.tagOk (s.hart.tagOf va == .f32)
  let s ← s.awaitTags (s.hart.taintV va)
  let s ← s.matrixEntry
  .ok (s.mapHart fun h =>
    let x := (h.getS sb).toNat
    let a := h.elems va .f32 h.vl
    h.setTile t (((List.range h.vl).filter (h.active mask)).foldl (fun tl i =>
      if col then tileSet tl i x (a.getD i 0) else tileSet tl x i (a.getD i 0)) (h.tile t)))

/-! ### Issuing an engine command (R132, R133) -/

/-- The nearest home of the accesses of a stream's first n elements: data, tables (R121). An indexed stream may access
any element below its bound. Log 127 (DEDUCED). -/
def Hart.nearest (h : Hart) (q : Stream) (sbase : Quad) (n : Nat) : Nat :=
  let r := h.rankRange (q.span sbase n)
  let r := if 4 ≤ q.kind.toNat then min r (h.rankRange (q.stride, 4 * q.bound2.toNat)) else r
  if q.kind = 5 then min r (h.rankRange (q.table2, 4 * q.bound3.toNat)) else r

/-- The arrival pointers of a command that has still to write the given offsets of a vault range: the lowest in each
bank, or the end of the range (R134). -/
def arrivalOf (limit : Nat) (left : List Nat) : List Nat :=
  (List.range 32).map fun b => (left.filter fun a => bankOf (a % 2 ^ 44) == b).foldl min limit

/-- A range entry of the interlock table (R132). A vault range that is written starts with its pointers at the lowest
byte of each bank. -/
def Hart.entry (h : Hart) (r : Quad × Nat) (write : Bool) (k : KReg) : Interlock :=
  let lo := h.canon r.1
  let hi := lo + r.2
  { base := lo, limit := hi, write := write, k := k, seq := h.seq,
    arrival := if write ∧ 2 ^ 61 ≤ lo ∧ lo < 2 ^ 62 then arrivalOf hi ((List.range (min r.2 2048)).map (lo + ·)) else [] }

/-- Enter the ranges of the commands that wait for entries, as far as entries are free, in program order (R133). -/
def Hart.takeEntries (h : Hart) : Nat → Hart
  | 0 => h
  | n + 1 =>
    match h.cmds.findIdx? (·.queued) with
    | none => h
    | some i =>
      match h.cmds[i]? with
      | none => h
      | some c =>
        if Config.interlockEntries < h.interlock.length + c.ranges.length then h
        else
          ({ h with interlock := h.interlock ++ c.ranges, cmds := h.cmds.set i { c with queued := false, ranges := [] } } : Hart).takeEntries n

/-- The addresses of n bytes meet the aperture of a slot. -/
def rangeInSlot (slot : Nat) (r : Quad × Nat) : Bool := meets r.1.toNat r.2 (2 ^ 62 + slot * 2 ^ 56) (2 ^ 56)

/-- A Fuller descriptor (R260). -/
structure Desc where
  quads : List Quad

def Desc.quad (d : Desc) (i : Nat) : Quad := d.quads.getD i 0
def Desc.nv (d : Desc) : Nat := fieldOf (d.quad 0) 32 32
def Desc.v0 (d : Desc) : Nat := fieldOf (d.quad 0) 0 32
def Desc.acc (d : Desc) : Bool := bitOf (d.quad 7) 63
def Desc.ofmt (d : Desc) : MemFmt := if bitOf (d.quad 7) 62 then .bf16 else .f32
def Desc.ne (d : Desc) : Nat := fieldOf (d.quad 7) 32 30
def Desc.ifmt (d : Desc) : MemFmt := if bitOf (d.quad 7) 31 then .bf16 else .f32
def Desc.red (d : Desc) : Nat := fieldOf (d.quad 7) 29 2
def Desc.act (d : Desc) : Nat := fieldOf (d.quad 7) 27 2
def Desc.fm (d : Desc) : Nat := fieldOf (d.quad 7) 20 7 + 1
def Desc.hd (d : Desc) : Nat := fieldOf (d.quad 7) 13 7 + 1
def Desc.fe (d : Desc) : Nat := fieldOf (d.quad 7) 6 7
def Desc.fv (d : Desc) : Nat := fieldOf (d.quad 7) 0 6 + 1
def Desc.dx (d : Desc) : Nat := 2 * d.fv + d.fe

/-- The arrays of a command, by address and length: those that the descriptor bounds, and the rows of H below the 2^31 that
src can name. -/
def Desc.arrays (d : Desc) : List (Quad × Nat) :=
  [(d.quad 1, 4 * (d.nv + 1)), (d.quad 2, 4 * d.ne), (d.quad 3, 2 ^ 31 * d.fv * d.ifmt.bytes),
   (d.quad 4, d.ne * d.fe * d.ifmt.bytes), (d.quad 5, 4 * (d.dx * d.hd + d.hd + d.hd * d.fm + d.fm)),
   (d.quad 6, d.nv * d.fm * d.ofmt.bytes)]

/-- Read a register list of captured indices. -/
def idxOf (l : List Quad) : Nat → Quad := let a := l.toArray; fun i => a.getD i 0

/-- Elements, vertices or rows that a command has in all. -/
def Cmd.total (c : Cmd) : Nat :=
  match c.op with
  | .copy _ _ _ _ _ _ n .. => n
  | .drain _ _ _ _ rows _ cols .. => rows * cols
  | .fuller quads _ => (⟨quads⟩ : Desc).nv

/-- Bytes of a range that a command still writes, each by its offset, as far as the lowest in each bank needs them. -/
def State.leftToWrite (s : State) (c : Cmd) (e : Interlock) : List Nat :=
  match c.op with
  | .fuller .. =>
    let row := (e.limit - e.base) / max 1 c.total
    let lo := e.base + c.next * row
    (List.range (min 2048 (e.limit - lo))).map (lo + ·)
  | .copy dst _ di _ _ _ n sbase _ =>
    (List.range (n - c.next)).flatMap fun i =>
      match s.dataIndex c.asid .engRead dst sbase (idxOf di) (c.next + i) with
      | .ok (w, _) =>
        (match w.index with
          | some d => (List.range dst.fmt.bytes).map (s.hart.canon (dst.address d) + ·)
          | none => [])
      | .error _ => [e.base]
  | .drain q idx _ _ rows pitch cols mask sbase .. =>
    (List.range (rows * cols - c.next)).flatMap fun i =>
      let i := c.next + i
      if !bitOf mask (i % cols) then []
      else
        match s.dataIndex c.asid .engRead q sbase (idxOf idx) (i % cols) with
        | .ok (w, _) =>
          (match w.index with
            | some d => (List.range q.fmt.bytes).map
                (s.hart.canon (q.address d + BitVec.ofNat 64 (i / cols) * pitch) + ·)
            | none => [])
        | .error _ => [e.base]

/-- The arrival pointers of a command, as far as it has gone (R134). -/
def State.movePointers (s : State) (seq : Nat) : State :=
  match s.hart.cmds.find? (·.seq == seq) with
  | none => s
  | some c =>
    let move := fun (e : Interlock) =>
      if e.seq = seq ∧ e.write ∧ !e.arrival.isEmpty then
        { e with arrival := arrivalOf e.limit (s.leftToWrite c e) }
      else e
    s.mapHart fun h => { h with interlock := h.interlock.map move }

/-- Issue a command with its entries: it waits while one conflicts (R134); while the table is full, or an earlier command
waits for entries, it waits in the queue of commands, and the hart goes on (R133). -/
def State.issueCmd (s : State) (es : List Interlock) (c : Cmd) : Except Stop State :=
  let es := (es.filter fun e => decide (e.base < e.limit)).map fun e => { e with seq := c.seq }
  if es.any (fun e => s.hart.interlocked e.base (e.limit - e.base) e.write) then .error (.hold .engine)
  else
    .ok ((s.mapHart fun h =>
      ({ h with cmds := h.cmds ++ [{ c with queued := true, ranges := es }] } : Hart).takeEntries (h.cmds.length + 1)).movePointers c.seq)

/-- The byte range of mst: its elements in rows that lie `pitch` bytes apart (R133, R251). -/
def Stream.rowRange (q : Stream) (sbase : Quad) (n rows : Nat) (pitch : Quad) : Quad × Nat :=
  let sp := q.span sbase n
  let move := (rows - 1 : Int) * pitch.toInt
  if rows = 0 ∨ n = 0 then (0, 0)
  else if 0 ≤ move then (sp.1, sp.2 + move.toNat) else (sp.1 - BitVec.ofNat 64 move.natAbs, sp.2 + move.natAbs)

/-- Check 6 of R141 for mst. -/
def State.preMst (s : State) (q : QReg) (rm : RMode) : Except Stop Rnd :=
  s.checks6 [] [] (s.storeRounding .f32 s.hart.q[q.toNat].fmt rm)

/-- mst (R251): the tile rows are read now, and the command stores them. -/
def vecMst (q : QReg) (t : TReg) (sa sb : SReg) (mask : MaskOp) (k : KReg) (rm : RMode) (sat : Bool) (s : State) :
    Except Stop State := do
  let r ← s.preMst q rm
  s.tileOk t
  let st := s.hart.q[q.toNat]
  if st.kind = 0 ∨ st.fmt = .e8m0 ∨ st.sc ∨ (3 ≤ st.kind.toNat ∧ !s.hart.regOk st.idx) then .error (insnTrap s 0x0C) else .ok ()
  s.tagOk st.fmt.isF
  let _ ← s.streamOk st
  let s ← s.ready st.vregs [sa, sb]
  let rows := (s.hart.getS sa).toNat
  let pitch := s.hart.getS sb
  s.limitOk (decide (rows ≤ 128 ∧ s.hart.vl ≤ 128))
  let s ← s.matrixEntry
  let h := s.hart
  let range := st.rowRange h.csr.sbase h.vl rows pitch
  let bits := maskOfList ((List.range h.vl).map (h.active mask)) 0 0
  s.issueCmd [h.entry range true k]
    { seq := h.seq, k := k, pc := h.pc, word := h.ir, asid := h.asid, nearest := min (h.rankRange range) (h.nearest st h.csr.sbase h.vl),
      held := h.taintStream q ||| h.taintS sa ||| h.taintS sb ||| h.taintM mask.m ||| h.ct,
      op := .drain st (h.streamIdx st h.vl).toList (h.tagOf st.idx) (h.tile t) rows pitch h.vl bits h.csr.sbase r sat }

/-! ### As convoys of one -/

/-- mzero. -/
def execMzero (t : TReg) (s : State) : Host.Outcome State Fault Refusal := s.vector (vecMzero t)
/-- mop. -/
def execMop (t : TReg) (va vb : VReg) (mask : MaskOp) (rm : RMode) (s : State) : Host.Outcome State Fault Refusal :=
  s.vector (vecMop t va vb mask rm)
/-- mopn. -/
def execMopn (t : TReg) (va vb : VReg) (mask : MaskOp) (rm : RMode) (s : State) : Host.Outcome State Fault Refusal :=
  s.vector (vecMopn t va vb mask rm)
/-- mrd. -/
def execMrd (col : Bool) (vd : VReg) (t : TReg) (sa : SReg) (mask : MaskOp) (s : State) :
    Host.Outcome State Fault Refusal := s.vector (vecMrd col vd t sa mask)
/-- mwr. -/
def execMwr (col : Bool) (t : TReg) (va : VReg) (sb : SReg) (mask : MaskOp) (s : State) :
    Host.Outcome State Fault Refusal := s.vector (vecMwr col t va sb mask)
/-- mst. -/
def execMst (q : QReg) (t : TReg) (sa sb : SReg) (mask : MaskOp) (k : KReg) (rm : RMode) (sat : Bool) (s : State) :
    Host.Outcome State Fault Refusal := s.vector (vecMst q t sa sb mask k rm sat)

end Sys2Proof.Machine
end

