-- ==== Sys2Proof/Machine/Engine.lean ====
section
/-! DEFINITION. The copy engine, the Fuller and the matrix drain (11 R251 to R263): issuing a command, and
the steps COPY_COMPLETE, FULLER_COMPLETE and MST_COMPLETE that run one to its end. Between steps of its hart a command
goes on from its progress record. -/

namespace Sys2Proof.Machine

/-! ### Issuing cpy and cpyff (R253) -/

/-- Class of a memory format (R73). -/
def MemFmt.cls : MemFmt → Nat
  | .n8 | .n16 | .n32 | .n64 => 0
  | .i8 | .i16 | .i32 | .i64 => 1
  | .f16 | .bf16 | .f32 | .f64 | .e4m3 | .e5m2 | .e2m1 | .e8m0 => 2

/-- cpy and cpyff: checks in the order of R253, then the command. -/
def State.copy (s : State) (ff : Option SReg) (qa qb : QReg) (sa : SReg) (k : KReg) : Except Stop State := do
  let dst := s.hart.q[qa.toNat]
  let src := s.hart.q[qb.toNat]
  if [dst, src].any (fun q => q.sc || q.kind == 0 || q.fmt == .e8m0 || (decide (3 ≤ q.kind.toNat) && !s.hart.regOk q.idx)) then
    .error (insnTrap s 0x0C) else .ok ()
  let _ ← s.streamOk dst
  let _ ← s.streamOk src
  s.tagOk (MemFmt.cls dst.fmt == MemFmt.cls src.fmt)
  let s ← s.ready (dst.vregs ++ src.vregs) (sa :: ff.toList)
  let h := s.hart
  let n := (h.getS sa).toNat
  let indexed := decide (3 ≤ dst.kind.toNat) || decide (3 ≤ src.kind.toNat)
  s.limitOk (decide (n < 2 ^ 32) && (!indexed || decide (n ≤ h.maxElems)))
  let s := s.nextSeq
  s.issueCmd [h.entry (src.span h.csr.sbase n) false k, h.entry (dst.span h.csr.sbase n) true k]
    { seq := h.seq, k := k, pc := h.pc, word := h.ir, asid := h.asid, nearest := min (h.nearest dst h.csr.sbase n) (h.nearest src h.csr.sbase n), issued := s.clock,
      held := h.taintStream qa ||| h.taintStream qb ||| h.taintS sa ||| h.ct,
      op := .copy dst src (h.streamIdx dst n).toList (h.streamIdx src n).toList (h.tagOf dst.idx) (h.tagOf src.idx) n
        h.csr.sbase ff }

/-- cpy. -/
def execCpy (qa qb : QReg) (sa : SReg) (k : KReg) (s : State) : Host.Outcome State Fault Refusal :=
  finish s ((s.copy none qa qb sa k).map (·.done 8))

/-- cpyff: sd is written at completion. -/
def execCpyff (sd : SReg) (qa qb : QReg) (sa : SReg) (k : KReg) (s : State) : Host.Outcome State Fault Refusal :=
  finish s ((s.copy (some sd) qa qb sa k).map (·.done 8))

/-! ### Issuing fmp (R259) -/

/-- fmp: the descriptor is read when it issues, after the accesses and commands that write it; check 10 is made then. It
holds later instructions until its interlock entries are in (R259). -/
def State.fuller (s : State) (sa : SReg) (k : KReg) : Except Stop State := do
  let s := s.needS [sa]
  let a := s.hart.getS sa
  if fieldOf a 61 3 ≠ 1 then .error (addrTrap s 0x07 a) else .ok ()
  if a.toNat % 64 ≠ 0 then .error (addrTrap s 0x06 a) else .ok ()
  let l ← (match s.check19 s.hart s.hart.asid a 8 .read .any with
    | .ok l => .ok l
    | .error e => .error (s.raise s.hart .read e) : Except Stop Loc)
  let s ← s.settle (s.hart.taintS sa)
  s.awaitTurn (s.hart.canon a) 64 false
  let s := s.drainUntil fun x => decide (x.addr < l.phys + 64 ∧ l.phys < x.addr + x.size)
  if s.poisoned l.phys || s.poisoned (l.phys + 32) then .error (addrTrap s 0x0B a) else .ok ()
  let d : Desc := ⟨readQuads s.mem l.phys 8⟩
  let h := s.hart
  let near := d.arrays.foldl (fun acc r => min acc (h.rankRange r)) (h.rankRange (a, 64))
  if h.cmds.any (·.queued) || decide (Config.interlockEntries < h.interlock.length + 2) then .error (.hold .engine) else .ok ()
  let s := s.nextSeq
  s.issueCmd [h.entry (a, 64) false k, h.entry (d.quad 6, d.nv * d.fm * d.ofmt.bytes) true k]
    { seq := h.seq, k := k, pc := h.pc, word := h.ir, asid := h.asid, nearest := near, issued := s.clock,
      held := h.taintS sa ||| h.ct, op := .fuller d.quads a }

/-- fmp. -/
def execFmp (sa : SReg) (k : KReg) (s : State) : Host.Outcome State Fault Refusal :=
  finish s ((s.fuller sa k).map (·.done 8))

/-! ### Records (R257, R258) -/

/-- The quads of an engine record. -/
def EngineRecord.quads (r : EngineRecord) : Quad × Quad :=
  ((r.poison ++ 0#4 ++ r.status ++ r.done : BitVec (24 + 4 + 4 + 32)).setWidth 64, r.firstp)

/-- POISON, saturating. -/
def poisonCount (n : Nat) : BitVec 24 := BitVec.ofNat 24 (min n 0xFFFFFF)

/-- The record of a command, with a status. -/
def Cmd.record (c : Cmd) (status : BitVec 4) (n : Nat) : EngineRecord :=
  { poison := poisonCount c.marked.length, status := status, done := BitVec.ofNat 32 n,
    firstp := match c.firstp with
      | none => 0xFFFFFFFFFFFFFFFF
      | some x => BitVec.ofInt 64 x }

/-- Whether a command writes an engine record: mst does not (R257). -/
def Cmd.recorded (c : Cmd) : Bool :=
  match c.op with
  | .drain .. => false
  | _ => true

/-- fmpq: the live record of the oldest command that names kc, else the stored one (R258). -/
def execFmpq (sd : SReg) (k : KReg) (hi : Bool) (s : State) : Host.Outcome State Fault Refusal :=
  .next (((s.needS [sd]).mapHart fun h =>
    let r := match h.cmds.find? (fun c => c.k == k && c.recorded) with
      | some c => c.record 1 c.next
      | none => h.records[k.toNat]
    let q := r.quads
    h.setS sd (if hi then q.2 else q.1) 0).done 8)

/-! ### Writing with poison (R110, R111) -/

/-- An engine's write of n bytes at a physical address, for element or vertex j; `part` says which nibbles of the granule
it writes, `bad` that what it copies is poisoned, and `off` is the offset of the destination granule, which the record
reports for the lowest element that poisons one (R257). -/
def State.engineWrite (s : State) (c : Cmd) (j phys n x part : Nat) (bad : Bool) (off : Int) : State × Cmd :=
  let g := granule phys
  let s := { s with mem := s.put phys n x }
  if bad then
    ({ s with poison := insertNat s.poison g },
     { c with marked := (if c.marked.contains g then c.marked else g :: c.marked),
              firstp := some (if j < c.firstAt then off else c.firstp.getD off),
              firstAt := if c.firstp.isSome then min j c.firstAt else j })
  else if s.poison.contains g && !c.marked.contains g then
    let m := assocGet c.cover g 0 ||| part
    if wholeCover m then ({ s with poison := removeNat s.poison g }, { c with cover := assocDel c.cover g })
    else (s, { c with cover := assocSet c.cover g m })
  else (s, c)

/-- Offset of the granule of an address from a base (R257). -/
def granuleOffset (a base : Quad) : Int := ((a &&& ~~~ 31#64) - base).toInt

/-- Why a command stops before its end. -/
inductive EngineStop where
  /-- At an element: the failure, on the source stream or not, row and index. -/
  | elem (e : ElemFail) (src : Bool) (row index : Nat)
  /-- A cause that is no failed check, with its tinfo, at a vertex. -/
  | cause (c : Byte) (tinfo : Quad) (index : Nat)

/-- Where a run of a command ends. -/
structure Run where
  s : State
  c : Cmd
  stop : Option EngineStop := none

/-! ### The copy engine (R254 to R256) -/

/-- The nibbles that an element of a stream covers of its granule. -/
def Stream.cover (q : Stream) (d : Quad) (phys : Nat) : Nat :=
  if q.fmt = .e2m1 then coverNibble phys (decide (d.toNat % 2 = 1)) else coverMask phys q.fmt.bytes

/-- The bytes of an element as they stand in memory: an E2M1 element keeps the other nibble of its byte (R67). -/
def State.wholeBytes (s : State) (q : Stream) (d : Quad) (phys x : Nat) : Nat :=
  if q.fmt = .e2m1 then
    let b := (readByte s.mem phys).toNat
    if d.toNat % 2 = 1 then b % 16 + 16 * (x % 16) else b / 16 * 16 + x % 16
  else x

/-- The source and the destination of a copy overlap (R254). -/
def Hart.copyOverlaps (h : Hart) (dst src : Stream) (sbase : Quad) (n : Nat) : Bool :=
  let a := dst.span sbase n
  let b := src.span sbase n
  meets (h.canon a.1) a.2 (h.canon b.1) b.2

/-- The n bytes at an address as they were before a copy: where it has written them since, what it has kept of them. -/
def Cmd.before (c : Cmd) (mem : List Host.Cell) (a : Nat) : Nat → Nat
  | 0 => 0
  | n + 1 => (match c.was.find? fun b => b.1 == a with
      | some b => b.2.toNat
      | none => (readByte mem a).toNat) + 256 * c.before mem (a + 1) n

/-- Keep n bytes that a copy is about to write for the first time. -/
def Cmd.keep (c : Cmd) (mem : List Host.Cell) (a n : Nat) : Cmd :=
  { c with was := c.was ++ (((List.range n).map (a + ·)).filter fun x => !c.was.any fun b => b.1 == x).map fun x =>
      (x, readByte mem x) }

/-- What a copy reads of a source that it may have written: the bytes there now, or those from before the command, by a
free choice (R254). -/
def State.copyRead (s : State) (c : Cmd) (l : Loc) (n : Nat) : Nat × State :=
  if c.was.any fun b => decide (l.phys ≤ b.1 ∧ b.1 < l.phys + n) then
    (if Config.choice s.free then c.before s.mem l.phys n else readN s.mem l.phys n, s.drawn)
  else s.readAt l n

/-- One element of a copy (R254): both walks, then, unless one has dropped it, the read and the write. -/
def State.copyElem (s : State) (c : Cmd) (dst src : Stream) (di si : Nat → Quad) (sbase : Quad) (j : Nat) : Run :=
  let clamp := fun (s : State) (b : Bool) => s.mapHart (·.clampBit b)
  match s.dataIndex c.asid .engRead src sbase si j with
  | .error e => ⟨clamp s e.clamped, c, some (.elem e true 0 j)⟩
  | .ok (sw, s) =>
    match s.dataIndex c.asid .engRead dst sbase di j with
    | .error e => ⟨clamp s (sw.clamped || e.clamped), c, some (.elem e false 0 j)⟩
    | .ok (dw, s) =>
      let s := clamp s (sw.clamped || dw.clamped)
      match sw.index, dw.index with
      | some sd, some dd =>
        match s.check19 s.hart c.asid (src.address sd) src.fmt.bytes .engRead .any with
        | .error e => ⟨s, c, some (.elem ⟨e, 0, .engRead, false⟩ true 0 j)⟩
        | .ok sl =>
          match s.check19 s.hart c.asid (dst.address dd) dst.fmt.bytes .engWrite .any with
          | .error e => ⟨s, c, some (.elem ⟨e, 0, .engWrite, false⟩ false 0 j)⟩
          | .ok dl =>
            let (raw, s) := s.copyRead c sl src.fmt.bytes
            let raw := if src.fmt = .e2m1 then (if sd.toNat % 2 = 1 then raw / 16 else raw % 16) else raw
            let x := if src.fmt = dst.fmt then raw else (narrow dst.fmt src.fmt.tag none .rne false (widen src.fmt raw)).1
            let bad := s.poisoned sl.phys || sw.poison || dw.poison
            let c := if s.hart.copyOverlaps dst src sbase c.total then c.keep s.mem dl.phys dst.fmt.bytes else c
            let (s, c) := s.engineWrite c j dl.phys dst.fmt.bytes (s.wholeBytes dst dd dl.phys x) (dst.cover dd dl.phys) bad
              (granuleOffset (dst.address dd) dst.base)
            ⟨s, { c with next := j + 1 }, none⟩
      | _, _ => ⟨s, { c with next := j + 1 }, none⟩

/-- Elements from j on. -/
def State.copyRun (s : State) (c : Cmd) (dst src : Stream) (di si : Nat → Quad) (sbase : Quad) : Nat → Nat → Run
  | 0, _ => ⟨s, c, none⟩
  | n + 1, j =>
    let r := s.copyElem c dst src di si sbase j
    match r.stop with
    | some _ => r
    | none => r.s.copyRun r.c dst src di si sbase n (j + 1)

/-- The elements of a copy below n, in descending order; none where one of them stops. -/
def State.copyDown (s : State) (c : Cmd) (dst src : Stream) (di si : Nat → Quad) (sbase : Quad) : Nat → Option (State × Cmd)
  | 0 => some (s, c)
  | n + 1 =>
    let r := s.copyElem c dst src di si sbase n
    match r.stop with
    | some _ => none
    | none => r.s.copyDown r.c dst src di si sbase n

/-- A copy within memory outside vaults whose ranges overlap, and whose elements lie apart, may run in descending order
(R254). -/
def Hart.maySink (h : Hart) (dst src : Stream) (sbase : Quad) (n : Nat) : Bool :=
  h.copyOverlaps dst src sbase n && fieldOf dst.base 61 3 == 0 && dst.fmt != .e2m1
    && (dst.kind == 1 || (dst.kind == 2 && decide (dst.fmt.bytes ≤ dst.stride.toInt.natAbs)))

/-- A copy from element `at_` to its end, `n` elements. -/
def State.copyAll (s : State) (c : Cmd) (dst src : Stream) (di si : Nat → Quad) (sbase : Quad) (n at_ : Nat) : Run :=
  let up := fun (s : State) => s.copyRun c dst src di si sbase n at_
  if at_ = 0 ∧ n = c.total ∧ s.hart.maySink dst src sbase n then
    (if Config.choice s.free then
      (match s.drawn.copyDown c dst src di si sbase n with
        | some (t, d) => ⟨t, { d with next := n }, none⟩
        | none => up s.drawn)
    else up s.drawn)
  else up s

/-- Elements above one at which a copy stops: each may have been copied already, by a free choice (R254, R255, R256). -/
def State.copyAbove (s : State) (c : Cmd) (dst src : Stream) (di si : Nat → Quad) (sbase : Quad) : Nat → Nat → State × Cmd
  | 0, _ => (s, c)
  | n + 1, j =>
    let was := c.next
    let (s, c) :=
      if Config.choice s.free then
        let r := s.drawn.copyElem c dst src di si sbase j
        match r.stop with
        | none => (r.s, { r.c with next := was })
        | some _ => (s.drawn, c)
      else (s.drawn, c)
    s.copyAbove c dst src di si sbase n (j + 1)

/-! ### The matrix drain (R251, R252) -/

/-- Element i of a drain, in row-major order. A poisoned granule of a table is a failed check (R88, R109). -/
def State.drainElem (s : State) (c : Cmd) (q : Stream) (idx : Nat → Quad) (tile : Tile) (pitch : Quad) (cols : Nat)
    (mask : BitVec 65536) (sbase : Quad) (rnd : Rnd) (sat : Bool) (i : Nat) : Run :=
  let r := i / cols
  let j := i % cols
  if !bitOf mask j then ⟨s, { c with next := i + 1 }, none⟩
  else
    let row := { q with base := q.base + BitVec.ofNat 64 r * pitch }
    match s.element c.asid .engWrite .read row none sbase idx j with
    | .error e =>
      ⟨s.mapHart (·.clampBit e.clamped), c, some (.elem { e with k := if e.k = .read then .engRead else e.k } false r j)⟩
    | .ok (none, _, s) => ⟨s.mapHart (·.clampBit true), { c with next := i + 1 }, none⟩
    | .ok (some e, cl, s) =>
      let x := narrow q.fmt .f32 none rnd sat (tileGet tile r j)
      let (s, c) := s.engineWrite c i e.loc.phys q.fmt.bytes (s.wholeBytes q e.d e.loc.phys x.1) (e.cover q.fmt).2 false 0
      ⟨s.mapHart fun h => (h.clampBit cl).addFlags x.2, { c with next := i + 1 }, none⟩

def State.drainRun (s : State) (c : Cmd) (q : Stream) (idx : Nat → Quad) (tile : Tile) (pitch : Quad) (cols : Nat)
    (mask : BitVec 65536) (sbase : Quad) (rnd : Rnd) (sat : Bool) : Nat → Nat → Run
  | 0, _ => ⟨s, c, none⟩
  | n + 1, i =>
    let r := s.drainElem c q idx tile pitch cols mask sbase rnd sat i
    match r.stop with
    | some _ => r
    | none => r.s.drainRun r.c q idx tile pitch cols mask sbase rnd sat n (i + 1)

/-! ### The Fuller (R261 to R263) -/

/-- The windows through which the Fuller reads an array take fresh lines from their source: what their buffers held is
dropped, and no later read goes back behind what it reads (R99). -/
def State.freshWindows (s : State) (d : Desc) : State :=
  let fresh := fun (h : Hart) (i : Fin 32) =>
    if d.arrays.any (rangeInSlot i.val) then (h.windows[i]).map (fun w => { w with buf := [] }) else h.windows[i]
  s.mapHart fun h => { h with windows := Vector.ofFn (fresh h) }

/-- A read by the Fuller: the datum, and whether its granule is poisoned. -/
def State.fullerRead (s : State) (c : Cmd) (a : Quad) (n : Nat) : Except (Fail ⊕ Fault) (Nat × Bool) :=
  match s.check19 s.hart c.asid a n .engRead .any with
  | .error e => .error e
  | .ok l => .ok (readN s.mem l.phys n, s.poisoned l.phys)

/-- n elements of a format from an address, widened. -/
def State.fullerRow (s : State) (c : Cmd) (a : Quad) (f : MemFmt) : Nat → Except (Fail ⊕ Fault) (List Quad × Bool)
  | 0 => .ok ([], false)
  | n + 1 =>
    match s.fullerRead c a f.bytes with
    | .error e => .error e
    | .ok (x, p) =>
      match s.fullerRow c (a + BitVec.ofNat 64 f.bytes) f n with
      | .error e => .error e
      | .ok (r, p') => .ok (widen f x :: r, p || p')

/-- y := RoundTo(a x b + c, F32, RNE). -/
def fullerFma (a b c : Quad) : Quad := (ff32.fma .rne false false false a b c).1

/-- The activation (R261). -/
def fullerAct (act : Nat) (h : Quad) : Quad :=
  if act = 1 then
    (match ff32.val h with
      | .nan _ => (ff32.nan 0).1
      | .inf n => if n then 0 else h
      | .fin n m _ => if n ∨ m = 0 then 0 else h)
  else if act = 2 then
    let u := (ff32.mul .rne false (ff32.withSign (!ff32.neg h) h) 0x3FB8AA3B).1
    let p := (ff32.exp2 .rne false u).1
    let d := (ff32.add .rne false 0x3F800000 p).1
    (ff32.div .rne false h d).1
  else h

/-- A dense layer: out[j] = bias[j] + sum of x[i] w[i][j], in ascending i. -/
def fullerLayer (x : List Quad) (w : Array Quad) (bias : Nat → Quad) (width : Nat) : List Quad :=
  (List.range width).map fun j =>
    ((x.zip (List.range x.length)).foldl (fun acc p => fullerFma p.1 (w.getD (p.2 * width + j) 0) acc) (bias j))

/-- The message of one edge from its concatenated features. -/
def fullerMessage (d : Desc) (w1 b1 w2 b2 : Array Quad) (x : List Quad) : List Quad :=
  let y := (fullerLayer x w1 (fun j => b1.getD j 0) d.hd).map (fullerAct d.act)
  fullerLayer y w2 (fun j => b2.getD j 0) d.fm

/-- Reduce (R261). -/
def fullerReduce (d : Desc) (a m : Quad) : Quad :=
  if d.red = 2 then (ff32.minmax true a m).1 else (ff32.add .rne false a m).1

def int32 (x : Nat) : Int := (BitVec.ofNat 32 x).toInt

/-- The entry of src of edge e, and whether its granule is poisoned; a negative one is a Bounds trap (R262). -/
def State.fullerSrc (s : State) (c : Cmd) (d : Desc) (e : Nat) : Except ((Fail ⊕ Fault) ⊕ Quad) (Nat × Bool) :=
  let ea := d.quad 2 + 4 * BitVec.ofNat 64 e
  match s.fullerRead c ea 4 with
  | .error x => .error (.inl x)
  | .ok (u, p) => if int32 u < 0 then .error (.inr ea) else .ok (u, p)

/-- The first edge, of n from e on, whose entry of src stops the vertex. -/
def State.fullerSrcs (s : State) (c : Cmd) (d : Desc) : Nat → Nat → Option ((Fail ⊕ Fault) ⊕ Quad)
  | 0, _ => none
  | n + 1, e =>
    match s.fullerSrc c d e with
    | .error x => some x
    | .ok _ => s.fullerSrcs c d n (e + 1)

/-- The messages of edges e to e + n - 1, reduced into `acc`. -/
def State.fullerEdges (s : State) (c : Cmd) (d : Desc) (w1 b1 w2 b2 : Array Quad) (hv : List Quad) :
    Nat → Nat → Option (List Quad) → Bool → Except ((Fail ⊕ Fault) ⊕ Quad) (Option (List Quad) × Bool)
  | 0, _, acc, p => .ok (acc, p)
  | n + 1, e, acc, p =>
    match s.fullerSrc c d e with
    | .error x => .error x
    | .ok (u, p1) =>
      let size := BitVec.ofNat 64 d.ifmt.bytes
      match s.fullerRow c (d.quad 3 + BitVec.ofNat 64 (u * d.fv) * size) d.ifmt d.fv with
      | .error x => .error (.inl x)
      | .ok (hu, p2) =>
        match s.fullerRow c (d.quad 4 + BitVec.ofNat 64 (e * d.fe) * size) d.ifmt d.fe with
        | .error x => .error (.inl x)
        | .ok (ef, p3) =>
          let m := fullerMessage d w1 b1 w2 b2 (hu ++ hv ++ ef)
          let acc := match acc with
            | none => m
            | some a => (a.zip m).map fun q => fullerReduce d q.1 q.2
          s.fullerEdges c d w1 b1 w2 b2 hv n (e + 1) (some acc) (p || p1 || p2 || p3)

/-- Resolve the elements of an output row, and read them when accumulating; a failure names its kind of access. -/
def State.fullerOut (s : State) (c : Cmd) (d : Desc) (a : Quad) :
    Nat → Except ((Fail ⊕ Fault) × AccKind) (List (Nat × Quad × Quad) × Bool)
  | 0 => .ok ([], false)
  | n + 1 =>
    match (if d.acc then s.fullerRead c a d.ofmt.bytes else .ok (0, false)) with
    | .error e => .error (e, .engRead)
    | .ok (x, p) =>
      match s.check19 s.hart c.asid a d.ofmt.bytes .engWrite .any with
      | .error e => .error (e, .engWrite)
      | .ok l =>
        match s.fullerOut c d (a + BitVec.ofNat 64 d.ofmt.bytes) n with
        | .error e => .error e
        | .ok (r, p') => .ok ((l.phys, a, widen d.ofmt x) :: r, p || p')

/-- The mean: a sum by the exact edge count, rounded once (R261). -/
def fullerMean (r : Quad) (edges : Nat) : Quad :=
  match ff32.val r with
  | .fin n m e => if m = 0 then r else (ff32.round .rne false n (divMag m e edges 0 (ff32.p + 4))).1
  | .nan _ => (ff32.nan 0).1
  | .inf _ => r

/-- The value of one output element. -/
def fullerResult (d : Desc) (edges : Nat) (acc : Option Quad) (old : Quad) : Nat :=
  let r := acc.getD 0
  let r := if d.red = 1 ∧ 0 < edges then fullerMean r edges else r
  let r := if d.acc then (ff32.add .rne false old r).1 else r
  (narrow d.ofmt .f32 none .rne false r).1

/-- The failure of a Fuller access at a vertex. -/
def fullerStop (k : Nat) (kind : AccKind) (e : (Fail ⊕ Fault) ⊕ Quad) : EngineStop :=
  match e with
  | .inl x => .elem ⟨x, 0, kind, false⟩ false 0 k
  | .inr a => .cause 0x0A a k

/-- What vertex k reads before its output row, its edges from `c.part` on and as far as `upto`: its edge count, the edges
done, what they reduce to, and whether a granule was poisoned. -/
def State.fullerReads (s : State) (c : Cmd) (d : Desc) (k upto : Nat) :
    Except ((Fail ⊕ Fault) ⊕ Quad) (Nat × Nat × Option (List Quad) × Bool) :=
  let ra := fun i => d.quad 1 + 4 * BitVec.ofNat 64 i
  match s.fullerRead c (ra k) 4, s.fullerRead c (ra (k + 1)) 4 with
  | .error e, _ | _, .error e => .error (.inl e)
  | .ok (first, p1), .ok (last, p2) =>
    if int32 last < int32 first then .error (.inr (ra (k + 1)))
    else
      let n := (int32 last - int32 first).toNat
      let (from_, acc, p0) := c.part.getD (0, none, false)
      match s.fullerSrcs c d (n - from_) ((int32 first).toNat + from_) with
      | some e => .error e
      | none =>
        let size := BitVec.ofNat 64 d.ifmt.bytes
        let n1 := d.dx * d.hd
        let n2 := d.hd * d.fm
        let params : Except (Fail ⊕ Fault) (List Quad × Bool) :=
          if n = 0 then .ok ([], false) else s.fullerRow c (d.quad 5) .f32 (n1 + d.hd + n2 + d.fm)
        let hv : Except (Fail ⊕ Fault) (List Quad × Bool) :=
          if n = 0 then .ok ([], false)
          else s.fullerRow c (d.quad 3 + BitVec.ofNat 64 ((d.v0 + k) * d.fv) * size) d.ifmt d.fv
        match params, hv with
        | .error e, _ | _, .error e => .error (.inl e)
        | .ok (ps, p3), .ok (hv, p4) =>
          let w := ps.toArray
          let cut := fun lo len => w.extract lo (lo + len)
          let m := min n upto
          match s.fullerEdges c d (cut 0 n1) (cut n1 d.hd) (cut (n1 + d.hd) n2) (cut (n1 + d.hd + n2) d.fm) hv
              (m - from_) ((int32 first).toNat + from_) acc false with
          | .error e => .error e
          | .ok (acc, p5) => .ok (n, max m from_, acc, p0 || p1 || p2 || p3 || p4 || p5)

/-- The row of OUT of vertex k, read under ACC = 1, and whether a granule was poisoned. -/
def State.fullerRead1 (s : State) (c : Cmd) (d : Desc) (k : Nat) : Option (List Quad × Bool) :=
  match s.fullerOut c d (d.quad 6 + BitVec.ofNat 64 (k * d.fm * d.ofmt.bytes)) d.fm with
  | .ok (outs, p) => some (outs.map (·.2.2), p)
  | .error _ => none

/-- Vertex k. Its row of OUT is read now, or has been read before (R263). -/
def State.fullerVertex (s : State) (c : Cmd) (d : Desc) (k : Nat) : Run :=
  let s := s.freshWindows d
  match s.fullerReads c d k (2 ^ 32) with
  | .error e => ⟨s, c, some (fullerStop k .engRead e)⟩
  | .ok (n, _, acc, p5) =>
    match s.fullerOut c d (d.quad 6 + BitVec.ofNat 64 (k * d.fm * d.ofmt.bytes)) d.fm with
    | .error e => ⟨s, c, some (fullerStop k e.2 (.inl e.1))⟩
    | .ok (outs, p6) =>
      let row := c.row.getD (outs.map (·.2.2), p6)
      let (s, c) := (outs.zip (List.range d.fm)).foldl (fun (sc : State × Cmd) o =>
        let r := fullerResult d n (acc.map fun l => l.getD o.2 0) (row.1.getD o.2 0)
        sc.1.engineWrite sc.2 k o.1.1 d.ofmt.bytes r (coverMask o.1.1 d.ofmt.bytes) (p5 || row.2)
          (granuleOffset o.1.2.1 (d.quad 6))) (s, c)
      ⟨s, { c with next := k + 1, part := none, row := none }, none⟩

def State.fullerRun (s : State) (c : Cmd) (d : Desc) : Nat → Nat → Run
  | 0, _ => ⟨s, c, none⟩
  | n + 1, k =>
    let r := s.fullerVertex c d k
    match r.stop with
    | some _ => r
    | none => r.s.fullerRun r.c d n (k + 1)

/-- The checks at the start (R262 item 1). Log 33 (DEDUCED). -/
def State.fullerStart (s : State) (c : Cmd) (d : Desc) : Option EngineStop :=
  if 64 < d.fe ∨ d.red = 3 ∨ d.act = 3 then some (.cause 0x05 c.word 0)
  else
    let ra := fun i => d.quad 1 + 4 * BitVec.ofNat 64 i
    match s.fullerRead c (ra 0) 4 with
    | .error e => some (fullerStop 0 .engRead (.inl e))
    | .ok (a, _) =>
      if int32 a < 0 then some (.cause 0x0A (ra 0) 0)
      else
        match s.fullerRead c (ra d.nv) 4 with
        | .error e => some (fullerStop 0 .engRead (.inl e))
        | .ok (b, _) => if int32 b - int32 a ≠ d.ne then some (.cause 0x0A (ra d.nv) 0) else none

/-- The edges of the next vertex as far as `upto` are read and reduced, and the rest of the vertex follows later: nothing
where one of them would stop it. Once every edge is read its row of OUT may be read, and is written later (R135, R263). -/
def State.fullerAhead (s : State) (c : Cmd) (d : Desc) (upto : Nat) : Cmd :=
  match s.fullerStart c d, s.fullerReads c d c.next upto with
  | none, .ok (n, m, acc, p) =>
    { c with part := some (m, acc, p), row := if c.row.isNone ∧ d.acc ∧ n ≤ m then s.fullerRead1 c d c.next else c.row }
  | _, _ => c

/-! ### Running and completing a command -/

/-- Run up to n elements or vertices of a command of the hart whose turn it is, from its record on. -/
def State.runFor (s : State) (c : Cmd) (n : Nat) : Run :=
  match c.op with
  | .copy dst src di si _ _ _ sbase _ => s.copyAll c dst src (idxOf di) (idxOf si) sbase n c.next
  | .drain q idx _ tile _ pitch cols mask sbase rnd sat =>
    s.drainRun c q (idxOf idx) tile pitch cols mask sbase rnd sat n c.next
  | .fuller quads _ =>
    let d : Desc := ⟨quads⟩
    match (if c.next = 0 ∧ c.part.isNone then s.fullerStart c d else none) with
    | some e => ⟨s, c, some e⟩
    | none => s.fullerRun c d n c.next

/-- Run a command from its record to its end or to a fault. Log 28 (DESIGN CHOICE). -/
def State.runCmd (s : State) (c : Cmd) : Run := s.runFor c (c.total - c.next)

/-- A copy that stops at an element may have copied elements above it (R255, R256). -/
def Run.spill (r : Run) : Run :=
  match r.stop, r.c.op with
  | some (.elem _ _ _ j), .copy dst src di si _ _ n sbase _ =>
    let x := r.s.copyAbove r.c dst src (idxOf di) (idxOf si) sbase (n - j - 1) (j + 1)
    { r with s := x.1, c := x.2 }
  | _, _ => r

/-- Remove a command with its interlock entries (R132); commands that wait for entries take those freed (R133). -/
def Hart.dropCmd (h : Hart) (c : Cmd) : Hart :=
  let left := h.cmds.filter (·.seq != c.seq)
  ({ h with cmds := left, interlock := h.interlock.filter (·.seq != c.seq) } : Hart).takeEntries left.length

/-- A command completes: its record, its status bit, its counter, its entries (R111, R257). A cpyff that is shortened and
poisoned has STATUS 4: log 148 (DESIGN CHOICE). -/
def Hart.completeCmd (h : Hart) (c : Cmd) (short : Option Nat) : Hart :=
  let h := h.dropCmd c
  let n := short.getD c.next
  let status : BitVec 4 := if short.isSome then 4 else if c.marked.isEmpty then 2 else 3
  let h := if c.recorded then { h with records := h.records.set c.k.toNat (c.record status n) } else h
  let h := if c.marked.isEmpty then h
    else { h with csr := { h.csr with kstat := h.csr.kstat ||| (1#24 <<< (8 + c.k.toNat)) } }
  let h := match c.op with
    | .copy _ _ _ _ _ _ _ _ (some sd) => h.setS sd (BitVec.ofNat 64 n) 0
    | _ => h
  h.bumpK c.k

/-- Whether a copy stops short and completes at this failure: Page not present, not at element 0 (R256). -/
def Cmd.shortens (c : Cmd) (e : EngineStop) : Option (Nat × ElemFail) :=
  match c.op, e with
  | .copy _ _ _ _ _ _ _ _ (some _), .elem f _ _ j =>
    (match f.err with
      | .inl x => if x.cause = 0x08 ∧ j ≠ 0 then some (j, f) else none
      | .inr _ => none)
  | _, _ => none

/-- The hart as the fault ring names it for a command: with the address space that the command was issued in (R358). -/
def Cmd.owner (c : Cmd) (h : Hart) : Hart := { h with sup := { h.sup with asid := c.asid } }

/-- An engine fault: the command stops at its record and the hart takes an imprecise trap (R252, R255,
R262). Log 29 (DEDUCED). -/
def State.engineFault (s : State) (c : Cmd) (e : EngineStop) : Host.Outcome State Fault Refusal :=
  let s := s.mapHart fun h =>
    { h with cmds := h.cmds.map fun x => if x.seq = c.seq then { c with stopped := true, part := none, row := none } else x }
  match e with
  | .cause code tinfo k =>
    .next (s.takeTrap { cause := code, tinfo := tinfo, telem := telemOf false 0 0 k, prec := false, eng := true, tvpc := c.pc })
  | .elem f src row j =>
    match f.err with
    | .inr x => .fault x
    | .inl x =>
      .next ((s.logFail (c.owner s.hart) x false f.k).takeTrap
        { cause := x.cause, tinfo := x.tinfo, telem := telemOf src f.level row j, prec := false, eng := true, tvpc := c.pc })

/-- The machine check of a command that has written poison: it names the first granule (R419). -/
def State.notePoison (s : State) (c : Cmd) : State :=
  match c.marked.getLast? with
  | none => s
  | some g =>
    let a := checkAddr (32 * g)
    s.machineCheck s.hart.pkg a.1 3 a.2 c.marked.length c.asid

/-- The ranges that a command accesses, each with whether it writes: streams, tables and arrays. -/
def Cmd.spans (c : Cmd) : List ((Quad × Nat) × Bool) :=
  let tables := fun (q : Stream) =>
    (if 4 ≤ q.kind.toNat then [((q.stride, 4 * q.bound2.toNat), false)] else [])
      ++ (if q.kind = 5 then [((q.table2, 4 * q.bound3.toNat), false)] else [])
  match c.op with
  | .copy dst src _ _ _ _ n sbase _ => [(src.span sbase n, false), (dst.span sbase n, true)] ++ tables src ++ tables dst
  | .drain q _ _ _ rows pitch cols _ sbase .. => (q.rowRange sbase cols rows pitch, true) :: tables q
  | .fuller quads a =>
    let d : Desc := ⟨quads⟩
    ((a, 64), false) :: ((d.quad 6, d.nv * d.fm * d.ofmt.bytes), true) :: d.arrays.map fun r => (r, false)

/-- An earlier access of the hart that is still to be performed touches what a command accesses, and one of the two writes:
the access goes first (R118). -/
def Hart.standsBefore (h : Hart) (c : Cmd) : Bool :=
  h.pend.any fun a => decide (a.seq < c.seq) && c.spans.any fun r =>
    (r.2 || (match a.op with
      | .load _ | .loadConst _ | .loadWindow .. => false
      | _ => true)) && meets (h.canon a.shown) a.size (h.canon r.1.1) r.1.2

/-- A command may run now: it has its interlock entries, no fault has stopped it, no tag holds it, and the accesses of
earlier entries of the queue are made (R118, R127, R133). -/
def Hart.mayRun (h : Hart) (c : Cmd) : Bool :=
  !c.stopped && !c.queued && !h.pendingOf c.held && !(h.thaw && h.frozen.any fun e => decide (e.seq < c.seq) && !quietWord e.word)

/-- What a run of a command leaves: its completion, its fault, or its progress. -/
def Run.outcome (r : Run) (s : State) : Host.Outcome State Fault Refusal :=
  match r.stop with
  | none =>
    if r.c.total ≤ r.c.next then .next ((r.s.notePoison r.c).mapHart (·.completeCmd r.c none))
    else .next (r.s.mapHart fun h => { h with cmds := h.cmds.map fun x => if x.seq = r.c.seq then r.c else x })
  | some e =>
    let r := r.spill
    match r.c.shortens e with
    | some (j, f) =>
      match f.err with
      | .inl x => .next (((r.s.notePoison r.c).logFail (r.c.owner s.hart) x true f.k).mapHart (·.completeCmd r.c (some j)))
      | .inr x => .fault x
    | none => r.s.engineFault r.c e

/-- Run command i of the hart whose turn it is to its completion or its fault; nothing where it is not
there, is stopped, or is held (R127). Earlier accesses of the hart are performed first, as far as no tag holds them
(R118). -/
def State.commandStep (s : State) (i : Nat) (is : Cmd → Bool) : Host.Outcome State Fault Refusal :=
  match s.hart.cmds[i]? with
  | none => .next s
  | some c =>
    if !is c || !s.hart.mayRun c then .next s
    else
      let s := s.drainUntil fun a => decide (a.seq < c.seq)
      if s.hart.standsBefore c then .next s else (s.runCmd c).outcome s

def Cmd.isCopy (c : Cmd) : Bool := match c.op with
  | .copy .. => true | _ => false
def Cmd.isFuller (c : Cmd) : Bool := match c.op with
  | .fuller .. => true | _ => false

/-- An outcome with the turn given back to the hart that had it. -/
def onHartOutcome (s : State) (h : HartRef) (f : State → Host.Outcome State Fault Refusal) :
    Host.Outcome State Fault Refusal :=
  if s.placed h then
    match f (s.focus h) with
    | .next t => .next (t.focus s.hart.ref)
    | o => o
  else .next s

/-- COPY_COMPLETE: command c of the hart, a copy, runs and completes (R254, R257). -/
def execCopyComplete (h : HartRef) (c : Nat) (s : State) : Host.Outcome State Fault Refusal :=
  onHartOutcome s h fun s => s.commandStep c Cmd.isCopy

/-- No earlier Fuller command of the core is running: another hart's by the clock of issue and then by partition, or one
of the hart itself (R12, R263). -/
def State.fullerTurn (s : State) (c : Cmd) : Bool :=
  let older := fun (h : Hart) (x : Cmd) =>
    x.isFuller && !x.stopped && (decide (x.issued < c.issued) || (x.issued == c.issued && decide (h.ref.hid < s.hart.ref.hid)))
  !(s.others.any fun h => h.pkg == s.hart.pkg && h.die == s.hart.die && h.core == s.hart.core && h.cmds.any (older h))
    && !s.hart.cmds.any fun x => x.isFuller && !x.stopped && decide (x.seq < c.seq)

/-- FULLER_COMPLETE: command c of the hart, a Fuller command, runs and completes (R261, R263). -/
def execFullerComplete (h : HartRef) (c : Nat) (s : State) : Host.Outcome State Fault Refusal :=
  onHartOutcome s h fun s => s.commandStep c fun x => x.isFuller && s.fullerTurn x

/-- MST_COMPLETE: command c of the hart, a drain, runs and completes (R251). -/
def execMstComplete (h : HartRef) (c : Nat) (s : State) : Host.Outcome State Fault Refusal :=
  onHartOutcome s h fun s => s.commandStep c Cmd.isDrain

/-! ### Progress -/

/-- A vault range is written in ascending order in each bank (R134): a command whose elements do not rise runs whole. -/
def State.runsInParts (s : State) (c : Cmd) : Bool :=
  s.hart.interlock.all fun e => e.seq != c.seq || !e.write || e.arrival.isEmpty ||
    decide ((s.leftToWrite c e).Pairwise (· ≤ ·))

/-- The first command of the hart whose turn it is that may run goes on by a free number of elements, edges or vertices,
and may complete. Log 28 (DESIGN CHOICE). -/
def State.engineTurn (s : State) : Host.Outcome State Fault Refusal :=
  match s.hart.cmds.find? fun c => s.hart.mayRun c && (!c.isFuller || s.fullerTurn c) with
  | none => .next s
  | some c =>
    let n := (Config.value s.free).toNat % (c.total - c.next + 2)
    let s := s.drawn.drainUntil fun a => decide (a.seq < c.seq)
    if s.hart.standsBefore c then .next s
    else if c.total - c.next < n then
      match c.op with
      | .fuller quads _ =>
        let c' := s.fullerAhead c ⟨quads⟩ ((Config.value s.free).toNat % 64)
        .next (s.drawn.mapHart fun h => { h with cmds := h.cmds.map fun x => if x.seq = c.seq then c' else x })
      | _ => .next s
    else if n < c.total - c.next && !s.runsInParts c then .next s
    else
      match (s.runFor c n).outcome s with
      | .next t => .next (t.movePointers c.seq)
      | o => o

end Sys2Proof.Machine
end

