-- ==== Sys2Proof/Machine/Fabric.lean ====
section
/-! DEFINITION. Bindings, messages, groups and collective operations (12 R264 to R279; 20 R380, R402 to R404). -/

namespace Sys2Proof.Machine

/-! ### Shared operations -/

/-- Fabric binding (0x0D). -/
def bindTrap (s : State) : Stop := insnTrap s 0x0D

/-- A trap for which the spec states no address that tinfo could hold: tinfo is a free value.
Log 48 (DESIGN CHOICE). -/
def openTrap (s : State) (cause : Byte) : Stop :=
  .trap { cause := cause, tinfo := Config.value s.free } s.drawn

/-- Draw the number of a message, contribution, post, request or frame. -/
def State.nextSerial (s : State) : State := { s with serial := s.serial + 1 }

/-- The hart that sent something, while its gang is still there. -/
def State.stillThere (s : State) (r : HartRef) (gang : Word) : Bool :=
  match s.findHart r with
  | some h => h.csr.gangid == gang
  | none => false

/-- Do something to the hart that sent something, if it is still there. -/
def State.onSender (s : State) (r : HartRef) (gang : Word) (f : Hart → Hart) : State :=
  if s.stillThere r gang then s.onHart r f else s

/-- A kstat bit: field 0 ABORT, 1 ERR, 2 OVF, of counter k (R57). -/
def Hart.kstatBit (h : Hart) (field : Nat) (k : KReg) : Hart :=
  { h with csr := { h.csr with kstat := h.csr.kstat ||| (1#24 <<< (8 * field + k.toNat)) } }

/-- A fabric instruction ends: its status bit, and its counter when it is non-blocking (R267, R276, R277). -/
def Hart.endFabric (h : Hart) (nb : Bool) (k : KReg) (bit : Option Nat) : Hart :=
  let h := match bit with
    | some f => h.kstatBit f k
    | none => h
  if nb then h.bumpK k else h

/-! ### Bindings (R264) -/

/-- A peer hart may belong to an enclave: its package has a member, and a placed hart is of that member. -/
def State.peerIn (s : State) (e : Enclave) (r : HartRef) : Bool :=
  e.members.any (fun m => m.2.1 == r.pkg) &&
    (match s.findHart r with
     | none => true
     | some h => (match s.memberOf r.pkg h.asid with
        | some x => x.1.id == e.id
        | none => false))

/-- An earlier fabric instruction that names f waits in the queue, and has not been sent (R264, R266). -/
def Hart.sendsLeft (h : Hart) (f : FReg) : Bool :=
  h.thaw && h.frozen.any fun e => (wordInstr e.word).bind Instr.fabric == some f

/-- fsbind.p (R264). Within an enclave every binding is sealed (R410). Log 60 (DEDUCED). -/
def execFsbindPeer (crypt : Bool) (f : FReg) (sa sb : SReg) (s : State) : Host.Outcome State Fault Refusal :=
  let s := s.needS [sa, sb]
  let h := s.hart
  let id := h.getS sa
  let ch := h.getS sb
  let field := fieldOf id 12 8
  finish s (
    if s.hart.sendsLeft f then .error (.hold .unbind)
    else if fieldOf id 20 44 ≠ 0 ∨ fieldOf ch 16 48 ≠ 0 ∨ 3071 < fieldOf id 0 12 ∨ !s.pkgPresent h.pkg field then
      .error (bindTrap s)
    else
      let peer : HartRef := ⟨pkgOf h.pkg field, fieldOf id 0 12⟩
      let e := s.memberOf h.pkg h.asid
      let full := crypt || e.isSome
      let allowed := match e with
        | some x => s.peerIn x.1 peer
        | none => false
      if full && !allowed then .error (openTrap s 0x09)
      else .ok ((s.mapHart fun h => { h with f := h.f.set f.toNat (.peer full peer (fieldOf ch 0 16) 0 0) }).done 8))

/-- The group is sealed: so its descriptor says, or its hart is of an enclave (R403, R410). Log 60 (DEDUCED). -/
def State.groupSealed (s : State) (handle : Quad) : Bool :=
  bitOf (s.fabricQuad s.hart.pkg (0x4000 + 64 * fieldOf handle 44 12 + 8)) 43 || (s.memberOf s.hart.pkg s.hart.asid).isSome

/-- fsbind.g (R264). -/
def execFsbindGroup (f : FReg) (j : BitVec 4) (s : State) : Host.Outcome State Fault Refusal :=
  if s.hart.sendsLeft f then .next (s.holdHart .unbind) else
  finish s (match s.hart.joined[j.toNat] with
    | none => .error (bindTrap s)
    | some x =>
      .ok ((s.mapHart fun h => { h with f := h.f.set f.toNat (.group j (s.groupSealed x.handle) 0 0) }).done 8))

/-- fsfree: it waits until the hart's earlier fabric instructions that name f have been sent. An f register that is unbound
stays so. Log 131 (DESIGN CHOICE). -/
def execFsfree (f : FReg) (s : State) : Host.Outcome State Fault Refusal :=
  finish s (if s.hart.sendsLeft f then .error (.hold .unbind)
    else .ok ((s.mapHart fun h => { h with f := h.f.set f.toNat .unbound }).done 8))

/-! ### Messages (R265 to R267) -/

/-- A vrecv has taken the message, whole or not (R266). -/
def State.taken (s : State) (m : Message) : Bool := s.harts.any fun h => h.colls.any (·.msg == some m.number)

/-- vsend. -/
def vecVsend (nb : Bool) (f : FReg) (va : VReg) (k : KReg) (s : State) : Except Stop State := do
  let _ ← s.checks6 [va] [] (.ok .rne)
  match s.hart.f[f.toNat] with
  | .peer full peer channel seq taken =>
    let h := s.hart
    if 4 ≤ (s.messages.filter fun m => m.sender == h.ref && m.gang == h.csr.gangid && m.f == f && !s.taken m).length then
      .error (.hold .fifthSend)
    else
      let s ← s.ready [va] []
      let s ← s.settle (s.hart.taintV va)
      let h := s.hart
      let t := h.tagOf va
      let m : Message := { number := s.serial, sender := h.ref, gang := h.csr.gangid, instr := h.seq, f := f, dst := peer,
                           channel := channel, seq := seq, crypt := full,
                           origin := (s.memberOf h.pkg h.asid).map fun x => (x.1.id, x.2), tag := t,
                           elems := (h.elems va t h.vl).toList, k := k, nb := nb }
      .ok (({ s with messages := s.messages ++ [m] } : State).nextSerial.mapHart fun h =>
        { h with f := h.f.set f.toNat (.peer full peer channel (seq + 1) taken) })
  | _ => .error (bindTrap s)

/-- A message is discarded, and its sender's counter advances with ERR (R267, R380). -/
def State.refuseMessage (s : State) (m : Message) : State :=
  ({ s with messages := s.messages.filter (·.number != m.number) } : State).onSender m.sender m.gang
    (·.endFabric m.nb m.k (some 1))

/-- The message's header has arrived: it is read as part of packet 0. Log 132 (DEDUCED). -/
def Message.headed (m : Message) : Bool := m.arrived.contains 0

/-- The packet that carries element i. -/
def Message.packetOf (m : Message) (i : Nat) : Nat := i * (if m.tag.wide then 8 else 4) / 4096

/-- A message of which every packet is placed is written whole: its receiver's vrecv is performed, and both counters
advance (R267). -/
def State.takeMessage (s : State) (m : Message) (c : CollLoad) : State :=
  let short := decide (c.len < m.elems.length)
  let s := s.mapHart fun h =>
    { h with colls := h.colls.filter (·.msg != some m.number) }.endFabric c.nb c.k none
  ({ s with messages := s.messages.filter (·.number != m.number) } : State).onSender m.sender m.gang
    (·.endFabric m.nb m.k (if short then some 1 else none))

/-- The elements of a message that have arrived, written to its destination (R35, R266). -/
def Hart.putMessage (h : Hart) (m : Message) (c : CollLoad) : Hart :=
  ((List.range c.len).filter fun i => m.arrived.contains (m.packetOf i)).foldl
    (fun h i => h.setVElem c.vd m.tag.wide i (m.elems.getD i 0)) h

/-- A vrecv that waits for the rest of its message takes what has come. -/
def State.receive (s : State) (m : Message) (c : CollLoad) : State :=
  let s := s.mapHart fun h =>
    let h := h.putMessage m c
    { h with colls := h.colls.map fun x => if x.msg = some m.number then { x with got := m.arrived } else x }
  if m.whole then s.takeMessage m c else s

/-- vrecv: the oldest untaken message of the pair and channel, once its header has arrived; the elements that have not
come are pending. Log 51 (DEDUCED), 55 (DESIGN CHOICE). -/
def vecVrecv (nb : Bool) (vd : VReg) (f : FReg) (k : KReg) (s : State) : Except Stop State := do
  let _ ← s.checks6 [vd] [] (.ok .rne)
  match s.hart.f[f.toNat] with
  | .peer full peer channel seq taken =>
    let mine := fun (m : Message) => m.sender == peer && m.dst == s.hart.ref && m.channel == channel
      && !s.hart.colls.any (·.msg == some m.number)
    let s := (s.messages.filter fun m => mine m && m.crypt != full && m.whole).foldl State.refuseMessage s
    match s.messages.find? (fun m => mine m && m.crypt == full) with
    | none => .error (.hold .header)
    | some m =>
      if !m.headed then .error (.hold .header)
      else
        s.shapeOk m.tag
        let s ← s.ready [vd] []
        let (h, tag) := s.hart.allocTag
        let n := min m.elems.length h.maxElems
        let short := decide (h.maxElems < m.elems.length)
        let h := { h with csr := { h.csr with vl := BitVec.ofNat 32 n,
                                              vstat := if short then h.csr.vstat ||| 1 else h.csr.vstat } }
        let c : CollLoad := { handle := 0, seq := 0, j := 0, vd := vd, oldTag := h.tagOf vd, act := 0, env := h.env,
                              ltag := tag, k := k, nb := nb, word := h.ir, pc := h.pc, order := h.seq,
                              msg := some m.number, len := n, tag := m.tag, got := m.arrived }
        let h := h.writeV vd m.tag (fun i => m.arrived.contains (m.packetOf i)) false (m.elems.take n) (tagBit tag)
        let h := { h with colls := h.colls ++ [c], f := h.f.set f.toNat (.peer full peer channel seq (taken + 1)) }
        .ok (if m.whole then (s.setHart h).takeMessage m c else s.setHart h)
  | _ => .error (bindTrap s)

/-- vsend, as a convoy of one. -/
def execVsend (nb : Bool) (f : FReg) (va : VReg) (k : KReg) (s : State) : Host.Outcome State Fault Refusal :=
  s.vector (vecVsend nb f va k)

/-- vrecv, as a convoy of one. -/
def execVrecv (nb : Bool) (vd : VReg) (f : FReg) (k : KReg) (s : State) : Host.Outcome State Fault Refusal :=
  s.vector (vecVrecv nb vd f k)

/-- Bytes of the receive area of every hart of a package (R380). Log 54 (DESIGN CHOICE). -/
def State.areaBytes (s : State) (pkg die : Nat) : Nat :=
  let units := min 64 (fieldOf (s.fabricQuad pkg 32) 0 7)
  if fieldOf (s.fabricQuad pkg (0x40 + 8 * die)) 16 21 = 0 then 0 else 65536 * units

/-- Data bytes of a message. -/
def Message.bytes (m : Message) : Nat := m.elems.length * (if m.tag.wide then 8 else 4)

/-- The receiver has a binding for the pair and channel, and none with the message's sealing (R267). -/
def State.sealDiffers (s : State) (m : Message) : Bool :=
  match s.findHart m.dst with
  | none => false
  | some h =>
    let of := fun (c : Bool) => h.f.toList.any fun b => match b with
      | .peer full p ch _ _ => p == m.sender && ch == m.channel && full == c
      | _ => false
    of (!m.crypt) && !of m.crypt

/-- Where the receive area of a hart starts (R380). -/
def State.areaBase (s : State) (r : HartRef) : Nat :=
  let d := HartRef.die r
  hbmKey r.pkg d (fieldOf (s.fabricQuad r.pkg (0x40 + 8 * d)) 16 21 * 65536 + s.areaBytes r.pkg d * (r.hid % 768))

/-- A place in the receive area that no message there takes: the first that is free at its start, or behind a message.
Log 54 (DESIGN CHOICE). -/
def State.roomFor (s : State) (m : Message) (area : Nat) : Option Nat :=
  let live := s.messages.filter fun y => y.dst == m.dst && y.admitted && y.number != m.number
  (0 :: live.map fun y => y.place + y.bytes).find? fun c =>
    decide (c + m.bytes ≤ area) && !live.any fun y => meets c m.bytes y.place y.bytes

/-- The data bytes of a message that a packet carries. -/
def Message.packetBytes (m : Message) (packet : Nat) : List Byte :=
  let n := if m.tag.wide then 8 else 4
  ((m.elems.drop (packet * (4096 / n))).take (4096 / n)).flatMap fun q => (List.range n).map fun i => q.extractLsb' (8 * i) 8

/-- MESSAGE_PACKET_ARRIVE: a packet of message m reaches the receiver's Mucen (R266, R267, R380). -/
def execMessagePacketArrive (m packet : Nat) (s : State) : Host.Outcome State Fault Refusal :=
  match s.messages.find? (·.number == m) with
  | none => .next s
  | some x =>
    let area := s.areaBytes x.dst.pkg (HartRef.die x.dst)
    let put := fun (y : Message) => ({ s with messages := s.messages.map fun z => if z.number = m then y else z } : State)
    if x.waiting ∨ x.packets ≤ packet ∨ x.arrived.contains packet then .next s
    else if area = 0 ∨ area < x.bytes ∨ s.sealDiffers x ∨ (x.crypt ∧ s.keyDropped x.dst.pkg x.origin) then
      .next (s.refuseMessage x)
    else
      match (if x.admitted then some x.place else s.roomFor x area) with
      | none => .next (put { x with waiting := true })
      | some place =>
        let y := { x with admitted := true, place := place, arrived := packet :: x.arrived }
        .next (((put y).placeBytes (s.areaBase y.dst + place + 4096 * packet) (y.packetBytes packet) []).withHart y.dst fun s =>
          match s.hart.colls.find? (·.msg == some y.number) with
          | none => s
          | some c => s.receive y c)

/-! ### Groups (R268 to R270, R402, R403) -/

/-- A quad of the group descriptor that a handle names, in a package's table. -/
def State.groupQuad (s : State) (pkg : Nat) (handle : Quad) (i : Nat) : Quad :=
  s.fabricQuad pkg (0x4000 + 64 * fieldOf handle 44 12 + 8 * i)

/-- M of the group. -/
def State.groupSize (s : State) (pkg : Nat) (handle : Quad) : Nat := fieldOf (s.groupQuad pkg handle 0) 0 16 + 1

def State.group (s : State) (handle : Quad) : Group :=
  match s.groups.find? (·.handle == handle) with
  | some g => g
  | none => { handle := handle }

def State.setGroup (s : State) (g : Group) : State :=
  { s with groups := g :: s.groups.filter (·.handle != g.handle) }

/-- Every rank is joined. -/
def State.groupReady (s : State) (pkg : Nat) (handle : Quad) : Bool :=
  let j := (s.group handle).joined
  (List.range (s.groupSize pkg handle)).all fun r => j.any (·.1 == r)

/-- Status 1 and 2 of cjoin, else 0 (R269). Log 56 (DEDUCED). -/
def State.joinStatus (s : State) (pkg : Nat) (asid : BitVec 16) (handle rank : Quad) : Nat :=
  let q := s.groupQuad pkg handle 0
  if (s.blockBase pkg 2).isNone ∨ fieldOf handle 32 12 ≠ 0 ∨ fieldOf q 32 32 ≠ fieldOf handle 0 32
      ∨ fieldOf q 16 16 ≠ asid.toNat then 1
  else if s.groupSize pkg handle ≤ rank.toNat ∨ (s.group handle).joined.any (·.1 == rank.toNat) then 2
  else 0

/-- Record a hart as a rank of a group. -/
def State.joinRank (s : State) (handle : Quad) (rank : Nat) (r : HartRef) : State :=
  let g := s.group handle
  let t := s.setGroup { g with joined := (rank, r) :: g.joined }
  if t.groupReady r.pkg handle then t.setGroup { t.group handle with readyAt := s.clock } else t

/-- The group word (R268). -/
def State.groupWord (s : State) (j : Joined) : Quad :=
  let pkg := s.hart.pkg
  BitVec.ofNat 64 (j.abort.toNat * 2 ^ 40 + (if s.groupReady pkg j.handle then 2 ^ 33 else 0)
    + (if s.groupSealed j.handle then 2 ^ 32 else 0)
    + (s.groupSize pkg j.handle - 1) * 2 ^ 16 + j.rank % 2 ^ 16)

/-- cgsel. -/
def execCgsel (sd : SReg) (j : BitVec 4) (s : State) : Host.Outcome State Fault Refusal :=
  let s := s.needS [sd]
  finish s (match s.hart.joined[j.toNat] with
    | none => .error (bindTrap s)
    | some x =>
      .ok ((s.mapHart fun h => ({ h with csr := { h.csr with cgrp := j } } : Hart).setS sd (s.groupWord x) 0).done 8))

/-- cstat. -/
def execCstat (sd : SReg) (j : BitVec 4) (s : State) : Host.Outcome State Fault Refusal :=
  let s := s.needS [sd]
  finish s (match s.hart.joined[j.toNat] with
    | none => .error (bindTrap s)
    | some x => .ok ((s.mapHart (·.setS sd (s.groupWord x) 0)).done 8))

/-- cjoin. -/
def execCjoin (sd : SReg) (j : BitVec 4) (sa sb : SReg) (s : State) : Host.Outcome State Fault Refusal :=
  let s := s.needS [sd, sa, sb]
  let h := s.hart
  let handle := h.getS sa
  let rank := h.getS sb
  let st := s.joinStatus h.pkg h.asid handle rank
  let st := if st = 0 ∧ (h.joined[j.toNat]).isSome then 3 else st
  let s := if st ≠ 0 then s
    else (s.joinRank handle rank.toNat h.ref).mapHart fun h =>
      { h with joined := h.joined.set j.toNat (some { handle := handle, rank := rank.toNat }) }
  .next ((s.mapHart (·.setS sd (BitVec.ofNat 64 st) 0)).done 8)

/-- A rank leaves its group; its departure is on its way to the tree (R270). -/
def State.leaveRank (s : State) (j : Joined) : State :=
  let g := s.group j.handle
  s.setGroup { g with joined := g.joined.filter (·.1 != j.rank), leaving := j.rank :: g.leaving }

def State.findOp (s : State) (handle : Quad) (seq : Word) : Option CollOp :=
  s.ops.find? fun o => o.handle == handle && o.seq == seq

def State.setOp (s : State) (o : CollOp) : State :=
  { s with ops := o :: s.ops.filter fun x => !(x.handle == o.handle && x.seq == o.seq) }

def State.dropOp (s : State) (o : CollOp) : State :=
  { s with ops := s.ops.filter fun x => !(x.handle == o.handle && x.seq == o.seq) }

/-- The hart has an operation on the group that the root has not decided, whose abort has not reached the hart, whose
result has not come, or whose vst or vld waits in the queue (R270, R277). -/
def State.collOpen (s : State) (j : Joined) : Bool :=
  s.hart.colls.any (fun c => c.msg.isNone && c.handle == j.handle) ||
    (s.hart.thaw && s.hart.frozen.any fun e => ((wordInstr e.word).bind Instr.fabric).any fun f =>
      match s.hart.f[f.toNat] with
      | .group i .. => (s.hart.joined[i.toNat]).any fun x => x.handle == j.handle
      | _ => false) ||
    s.ops.any fun o => o.handle == j.handle && o.parts.any (·.rank == j.rank) && (match o.verdict with
      | none => true
      | some .committed => false
      | some (.aborted _) => !o.told.contains j.rank)

/-- cleave: waits for the open operation, then leaves the group (R270). -/
def execCleave (j : BitVec 4) (s : State) : Host.Outcome State Fault Refusal :=
  finish s (match s.hart.joined[j.toNat] with
    | none => .error (bindTrap s)
    | some x =>
      if s.collOpen x then .error (.hold .collective)
      else
        .ok (((s.leaveRank x).mapHart fun h => { h with
          f := h.f.map fun b => match b with
            | .group i .. => if i = j then .unbound else b
            | b => b,
          joined := h.joined.set j.toNat none }).done 8))

/-! ### Operations (R271 to R276) -/

/-- Fields of cop (R57). -/
def copPat (c : BitVec 24) : Nat := (c.extractLsb' 4 4).toNat
def copOp (c : BitVec 24) : Nat := (c.extractLsb' 0 4).toNat
def copRoot (c : BitVec 24) : Nat := (c.extractLsb' 8 16).toNat

/-- cop names no reserved code, no copy under patterns 0 and 1, and a rank of the group. A reserved OP traps under every
pattern. Log 133 (DESIGN CHOICE). -/
def copLegal (c : BitVec 24) (m : Nat) : Bool :=
  decide (copPat c ≤ 4) && decide (copOp c ≤ 6) && !(decide (copOp c = 6) && decide (copPat c ≤ 1))
    && decide (copRoot c < m)

/-- The operator of cop. -/
def copRed (c : BitVec 24) : RedOp :=
  match copOp c with
  | 0 => .sum | 1 => .max | 2 => .min | 3 => .and | 4 => .or | _ => .xor

/-- The group binding of f, which must be joined. -/
def State.groupOf (s : State) (f : FReg) : Except Stop (BitVec 4 × Joined) :=
  match s.hart.f[f.toNat] with
  | .group j .. =>
    match s.hart.joined[j.toNat] with
    | some x => .ok (j, x)
    | none => .error (bindTrap s)
  | _ => .error (bindTrap s)

/-- A contribution whose operation has been aborted, with the abort at its member: it ends at once (R277). -/
def Hart.endAborted (h : Hart) (p : Contribution) (seq : Word) (cause : Byte) : Hart :=
  if p.body.isSome && !p.accepted then
    ({ h with csr := { h.csr with aseq := seq, acause := cause } } : Hart).endFabric p.nb (if p.nb then p.k else 0) (some 0)
  else h

/-- Add a contribution of the hart whose turn it is to its operation, and count it (R271); one that comes from the queue
has taken its sequence number when it issued. Log 50 (DEDUCED). -/
def State.contribute (s : State) (j : BitVec 4) (x : Joined) (body : Option (Tag × BitVec 24 × Word))
    (elems : List (Option Quad)) (k : KReg) (nb : Bool) : State :=
  let h := s.hart
  let seq := h.collSeq.getD x.cseq
  let fresh : CollOp := { handle := x.handle, seq := seq, pkg := h.pkg }
  let o := ((s.findOp x.handle seq).filter fun o => !o.past).getD fresh
  let part : Contribution :=
    { number := s.serial, rank := x.rank, hart := h.ref, gang := h.csr.gangid,
      origin := (s.memberOf h.pkg h.asid).map fun y => (y.1.id, y.2), body := body, elems := elems, k := k, nb := nb,
      instr := h.seq }
  let late := match o.verdict with
    | some (.aborted c) => if o.told.contains x.rank then some c else none
    | _ => none
  let part' := { part with accepted := late.isSome }
  ((s.setOp { o with parts := o.parts ++ [part'] }).nextSerial).mapHart fun h =>
    let h := match late with
      | some c => h.endAborted part seq c
      | none => h
    if h.collSeq.isSome then h
    else
      { h with joined := h.joined.set j.toNat (some { x with
          cseq := x.cseq + 1, opened := body.isSome, openSeq := x.cseq,
          openTag := (match body with
            | some b => b.1
            | none => x.openTag),
          barrier := if body.isNone then some x.cseq else none }) }

/-- A binding counts what it has sent or taken (R53). -/
def Hart.countFabric (h : Hart) (f : FReg) (send : Bool) : Hart :=
  { h with f := h.f.set f.toNat (match h.f[f.toNat] with
      | .group j full a b => if send then .group j full (a + 1) b else .group j full a (b + 1)
      | b => b) }

/-- The collective vst: the contribution (R271, R274). -/
def vecCollectiveVst (o : VColl) (s : State) : Except Stop State := do
  let _ ← s.checks6 [o.reg] [] (.ok .rne)
  let (j, x) ← s.groupOf o.f
  let h := s.hart
  let m := s.groupSize h.pkg x.handle
  let c := h.csr.cop
  let t := h.tagOf o.reg
  let cs := h.csr.cstride.toNat
  if !copLegal c m then .error (illegal s) else .ok ()
  s.tagOk (!(t.isF && decide (copPat c ≤ 1) && decide (3 ≤ copOp c)))
  s.limitOk (!((decide (copPat c = 1) || decide (copPat c = 2) || decide (copPat c = 4)) && decide (cs = 0))
    && !(decide (copPat c = 2) && decide (cs < h.vl)) && !(decide (copPat c = 4) && decide (m * cs < h.vl)))
  if h.collSeq.isNone && (x.opened || x.barrier.isSome) then .error (.hold .collective) else .ok ()
  let s ← s.ready [o.reg] []
  let s ← s.settle (s.hart.taintV o.reg ||| s.hart.taintM o.mask.m)
  let h := s.hart
  let data := h.elems o.reg t h.vl
  .ok ((s.contribute j x (some (t, c, h.csr.cstride))
    ((List.range h.vl).map fun i => if h.active o.mask i then some (data.getD i 0) else none) o.k o.nb).mapHart
      (·.countFabric o.f true))

/-- Element i of the contribution of a rank; none where it has none. -/
def partElem (parts : List Contribution) (rank i : Nat) : Option Quad :=
  match parts.find? (·.rank == rank) with
  | some p => (p.elems.getD i none)
  | none => none

def partLen (parts : List Contribution) (rank : Nat) : Nat :=
  match parts.find? (·.rank == rank) with
  | some p => p.elems.length
  | none => 0

/-- Combine in rank order, skipping members that lack the position (R83, R272). Log 116 (DESIGN CHOICE). -/
def combineRanks (op : RedOp) (t : Tag) (parts : List Contribution) (m i : Nat) : Quad :=
  let xs := (List.range m).filterMap fun r => partElem parts r i
  match xs with
  | [] => 0
  | x :: rest => rest.foldl (fun a y => (combine op t .rne a y).1) x

/-- Length of the result at a rank, and its elements (R272). -/
def collResult (t : Tag) (c : BitVec 24) (cs m : Nat) (parts : List Contribution) (r : Nat) : Nat × (Nat → Quad) :=
  let n := (List.range m).foldl (fun a k => max a (partLen parts k)) 0
  match copPat c with
  | 0 => (n, fun i => combineRanks (copRed c) t parts m i)
  | 1 => (min cs (n - r * cs), fun i => combineRanks (copRed c) t parts m (r * cs + i))
  | 2 => (m * cs, fun i => (partElem parts (i / cs) (i % cs)).getD 0)
  | 3 => (partLen parts (copRoot c), fun i => (partElem parts (copRoot c) i).getD 0)
  | _ => (m * cs, fun i => (partElem parts (i / cs) (r * cs + i % cs)).getD 0)

/-- A rank has closed an operation; once every rank has, only the root's decision is left of it, against an ABORT that
comes later (R278). -/
def State.closeOp (s : State) (o : CollOp) (rank : Nat) : State :=
  let o := { o with closed := rank :: o.closed }
  let all := match o.verdict with
    | some .committed => o.parts.all fun p => o.closed.contains p.rank
    | some (.aborted _) => (s.group o.handle).joined.all (fun j => o.told.contains j.1)
        && o.parts.all (fun p => o.closed.contains p.rank)
    | none => false
  s.setOp (if all then { o with parts := [], past := true } else o)

/-- Give a committed result to the hart whose turn it is (R273, R275). -/
def State.deliverColl (s : State) (c : CollLoad) (o : CollOp) (rank : Nat) : State :=
  let m := o.parts.length
  let same := match o.parts with
    | [] => false
    | p :: rest => p.body.isSome && rest.all fun q => q.body == p.body
  let t := match o.parts.find? (·.rank == rank) with
    | some p => (match p.body with
        | some b => b.1
        | none => .n32)
    | none => .n32
  let (l, f) := match o.parts with
    | p :: _ => (match p.body with
        | some b => collResult b.1 b.2.1 b.2.2.toNat m o.parts rank
        | none => (0, fun _ => 0))
    | [] => (0, fun _ => 0)
  let vl := c.env.vl.toNat
  let res := (List.range vl).map fun i => if same && decide (i < l) then f i else 0
  let s := s.mapHart fun h =>
    let now := h.csr
    let h := { h with csr := { now with vl := c.env.vl, mp := c.env.mp, tp := c.env.tp, gl := c.env.gl } }
    let tag := h.tagOf c.vd
    let h := h.writeV c.vd t (fun i => bitOf c.act i) c.env.mp res (h.taintV c.vd)
    let h := { h with v := h.v.set c.vd.toNat { h.v[c.vd.toNat] with tag := tag } }
    let h := { h with csr := now, colls := h.colls.filter fun x => !(x.msg.isNone && x.handle == c.handle && x.seq == c.seq) }
    let h := if same && decide (vl < l) then { h with csr := { h.csr with vstat := h.csr.vstat ||| 1 } } else h
    h.endFabric c.nb c.k (if same then none else some 1)
  s.closeOp o rank

/-- The tag of a destination is again what it was before its load issued, unless a later instruction has given it one
since: for the hart, and for the entries of its queue (R277). -/
def Hart.untag (h : Hart) (c : CollLoad) : Hart :=
  let later := h.frozen.any fun e => ((wordInstr e.word).bind (Instr.eachDst e.env.vt)).any fun d => d.1 == c.vd
  let back := fun (t : Tag) => if t = c.tag then c.oldTag else t
  { h with
    v := if later then h.v else h.v.set c.vd.toNat { h.v[c.vd.toNat] with tag := back (h.tagOf c.vd) },
    frozen := h.frozen.map fun e =>
      { e with env := { e.env with vt := e.env.vt.set c.vd.toNat (back e.env.vt[c.vd.toNat]) } } }

/-- An aborted collective vld leaves its destination as it was (R277). -/
def State.abortColl (s : State) (c : CollLoad) (o : CollOp) (rank : Nat) (cause : Byte) : State :=
  (s.mapHart fun h =>
    let h := h.untag c
    let h := { h with
      colls := h.colls.filter (fun x => !(x.msg.isNone && x.handle == c.handle && x.seq == c.seq)),
      csr := { h.csr with aseq := c.seq, acause := cause } }
    h.endFabric c.nb (if c.nb then c.k else 0) (some 0)).closeOp o rank

/-- A physical base of a group descriptor, in the form of R405. Log 57 (PRESUMED). -/
def State.groupBase (s : State) (pkg : Nat) (handle : Quad) (i : Nat) : Nat :=
  let q := s.groupQuad pkg handle i
  hbmKey pkg (fieldOf q 37 2) (fieldOf q 0 37)

/-- A package of a group's tree. -/
structure TreeNode where
  pkg : Nat
  parent : Nat
  children : List Nat

/-- The tree of a group, in tree order: an entry gives its package, parent and child count in bytes 0 to 2, and its children from
byte 3 on. Log 57 (PRESUMED). -/
def State.treeNodes (s : State) (pkg : Nat) (handle : Quad) : List TreeNode :=
  let n := fieldOf (s.groupQuad pkg handle 1) 20 15 + 1
  let base := s.groupBase pkg handle 3
  (List.range (min n 255)).map fun i =>
    let b := fun k => (readByte s.mem (base + 32 * i + k)).toNat
    { pkg := b 0, parent := b 1, children := (List.range (min (b 2) 16)).map fun k => b (3 + k) }

def State.treeOf (s : State) (pkg : Nat) (handle : Quad) : List Nat := (s.treeNodes pkg handle).map (·.pkg)

/-- The package at the root of the tree. -/
def State.rootOf (s : State) (pkg : Nat) (handle : Quad) : Nat := fieldOf (s.groupQuad pkg handle 1) 35 8

/-- The package of a rank (R403). -/
def State.rankPackage (s : State) (pkg : Nat) (handle : Quad) (rank : Nat) : Nat :=
  (readByte s.mem (s.groupBase pkg handle 2 + rank)).toNat

/-- The decision of an operation has reached every package of the tree: each releases the results that it holds (R404). -/
def State.isReleased (s : State) (o : CollOp) : Bool := (s.treeOf o.pkg o.handle).all o.reached.contains

/-- Complete a pending collective vld if its operation is decided at this member. -/
def State.settleColl (s : State) (c : CollLoad) (rank : Nat) : State :=
  match s.findOp c.handle c.seq with
  | none => s
  | some o =>
    match o.verdict with
    | none => s
    | some .committed =>
      if s.isReleased o && s.rankPackage o.pkg o.handle rank == s.hart.pkg then s.deliverColl c o rank else s
    | some (.aborted cause) => if o.told.contains rank then s.abortColl c o rank cause else s

/-- The collective vld: the result (R271, R273). -/
def vecCollectiveVld (o : VColl) (s : State) : Except Stop State := do
  let _ ← s.checks6 [o.reg] [] (.ok .rne)
  let (j, x) ← s.groupOf o.f
  if x.opened || s.hart.collSeq.isSome then .ok () else .error (bindTrap s)
  let h := s.hart
  if copLegal h.csr.cop (s.groupSize h.pkg x.handle) then .ok () else .error (illegal s)
  let seq := h.collSeq.getD x.openSeq
  let t := if h.collSeq.isNone then x.openTag else match s.findOp x.handle seq with
    | some op => (match op.parts.find? (·.rank == x.rank) with
        | some p => (match p.body with
            | some b => b.1
            | none => x.openTag)
        | none => x.openTag)
    | none => x.openTag
  s.shapeOk t
  let s ← s.ready [o.reg] []
  let s ← s.settle (s.hart.taintM o.mask.m)
  let (h, tag) := s.hart.allocTag
  let act := maskOfList ((List.range h.vl).map (h.active o.mask)) 0 0
  let c : CollLoad := { handle := x.handle, seq := seq, j := j, vd := o.reg, oldTag := h.tagOf o.reg, act := act,
                        env := h.env, ltag := tag, k := o.k, nb := o.nb, word := h.ir, pc := h.pc, order := h.seq, tag := t }
  let h := { h with
    colls := h.colls ++ [c],
    joined := if h.collSeq.isSome then h.joined else h.joined.set j.toNat (some { x with opened := false }),
    v := h.v.set o.reg.toNat { h.v[o.reg.toNat] with tag := t, taint := tagBit tag ||| h.taintM o.mask.m },
    csr := { h.csr with vlast := o.reg } }
  .ok ((s.setHart (h.countFabric o.f false)).settleColl c x.rank)

/-- The collective vst, as a convoy of one. -/
def execCollectiveVst (o : VColl) (s : State) : Host.Outcome State Fault Refusal := s.vector (vecCollectiveVst o)

/-- The collective vld, as a convoy of one. -/
def execCollectiveVld (o : VColl) (s : State) : Host.Outcome State Fault Refusal := s.vector (vecCollectiveVld o)

/-- Close the barrier operation of the hart: 0 on commit, 1 on abort (R279). -/
def State.endBarrier (s : State) (sd : SReg) (j : BitVec 4) (x : Joined) (o : CollOp) (cause : Option Byte) : State :=
  ((s.mapHart fun h =>
    let h := { h with joined := h.joined.set j.toNat (some { x with barrier := none }) }
    match cause with
    | none => h.setS sd 0 0
    | some c => ({ h with csr := { h.csr with aseq := o.seq, acause := c } } : Hart).setS sd 1 0).closeOp o x.rank).done 8

/-- cbar (R279). -/
def execCbar (sd : SReg) (s : State) : Host.Outcome State Fault Refusal :=
  let s := s.needS [sd]
  let j := s.hart.csr.cgrp
  match s.hart.joined[j.toNat] with
  | none => finish s (.error (bindTrap s))
  | some x =>
    match x.barrier with
    | some q =>
      match s.findOp x.handle q with
      | none => .next (s.holdHart .collective)
      | some o =>
        match o.verdict with
        | some .committed => .next (if s.isReleased o then s.endBarrier sd j x o none else s.holdHart .collective)
        | some (.aborted c) =>
          if o.told.contains x.rank then .next (s.endBarrier sd j x o (some c)) else .next (s.holdHart .collective)
        | none => .next (s.holdHart .collective)
    | none =>
      match s.lsync .g with
      | .error e => finish s (.error e)
      | .ok s =>
        if x.opened then .next (s.holdHart .collective)
        else .next ((s.contribute j x none [] 0 false).holdHart .collective)

/-- cabort (R279). An operation whose vld has issued and is not complete counts as open: log 149 (DESIGN CHOICE). -/
def execCabort (s : State) : Host.Outcome State Fault Refusal :=
  finish s (match s.hart.joined[s.hart.csr.cgrp.toNat] with
    | none => .error (bindTrap s)
    | some x =>
      let seq := if x.opened || x.barrier.isSome || s.collOpen x then x.cseq - 1 else x.cseq
      .ok (({ s with aborts := s.aborts ++ [⟨x.handle, seq, 6, s.hart.pkg⟩] } : State).done 8))

/-! ### The tree (R276 to R278, R404) -/

/-- Bytes of a contribution that a reducing package at position `pos` of n takes (R404). -/
def stageBytes (p : Contribution) (n pos : Nat) : Nat :=
  let size := match p.body with
    | some b => if b.1.wide then 8 else 4
    | none => 0
  size * ((List.range p.elems.length).filter fun i => i / 1024 % n == pos).length

/-- Bytes of STAGE of a package that are in use (R404). -/
def State.stageUsed (s : State) (pkg : Nat) (handle : Quad) (tree : List Nat) : Nat :=
  let pos := tree.idxOf pkg
  s.ops.foldl (fun n o =>
    if o.handle = handle ∧ o.verdict.isNone then
      o.parts.foldl (fun n p => if p.arrived.contains pkg then n + stageBytes p tree.length pos else n) n
    else n) 0

def State.stageLen (s : State) (pkg : Nat) (handle : Quad) : Nat := fieldOf (s.groupQuad pkg handle 5) 0 32

/-- STAGE of a package is full (R404). Log 58 (DESIGN CHOICE). -/
def State.stageFull (s : State) (pkg : Nat) (handle : Quad) (tree : List Nat) : Bool :=
  let used := s.stageUsed pkg handle tree
  decide (0 < used ∧ s.stageLen pkg handle ≤ used)

/-- The elements of a contribution that a package reduces are put into its STAGE, behind those that are there.
Log 58 (DESIGN CHOICE). -/
def State.stagePart (s : State) (pkg : Nat) (handle : Quad) (tree : List Nat) (p : Contribution) : State :=
  let used := s.stageUsed pkg handle tree
  let size := match p.body with
    | some b => if b.1.wide then 8 else 4
    | none => 0
  let mine := (List.range p.elems.length).filter fun i => i / 1024 % tree.length == tree.idxOf pkg
  let bytes := mine.flatMap fun i =>
    let q := (p.elems.getD i none).getD 0
    (List.range size).map fun k => q.extractLsb' (8 * k) 8
  s.placeBytes (s.groupBase pkg handle 4 + used) (bytes.take (s.stageLen pkg handle - used)) []

/-- The root may commit: every rank's contribution has been accepted. -/
def State.opComplete (s : State) (o : CollOp) : Bool :=
  (List.range (s.groupSize o.pkg o.handle)).all fun r => o.parts.any fun p => p.rank == r && p.accepted

/-- COLLECTIVE_CONTRIBUTION_ARRIVE: the elements of a rank reach a reducing package (R404). -/
def execCollectiveContributionArrive (g : OpRef) (rank pkg : Nat) (s : State) : Host.Outcome State Fault Refusal :=
  match s.findOp g.handle (BitVec.ofNat 32 g.seq) with
  | none => .next s
  | some o =>
    match o.parts.find? (·.rank == rank) with
    | none => .next s
    | some p =>
      let tree := s.treeOf o.pkg o.handle
      let put := fun (s : State) (q : Contribution) =>
        s.setOp { o with parts := o.parts.map (fun x => if x.rank = rank then q else x), first := some (o.first.getD s.clock) }
      if o.verdict.isSome ∨ !tree.contains pkg ∨ p.arrived.contains pkg ∨ p.waiting.contains pkg then .next s
      else if s.keyDropped pkg p.origin then .next { s with aborts := s.aborts ++ [⟨o.handle, o.seq, 5, pkg⟩] }
      else if s.stageFull pkg o.handle tree then .next (put s { p with waiting := pkg :: p.waiting })
      else
        let s := s.stagePart pkg o.handle tree p
        let p := { p with arrived := pkg :: p.arrived }
        if tree.all p.arrived.contains then
          .next ((put s { p with accepted := true }).onSender p.hart p.gang fun h =>
            if p.body.isSome then h.endFabric p.nb p.k none else h)
        else .next (put s p)

/-- Complete the pending result of every member of an operation. -/
def State.settleMembers (s : State) (handle : Quad) (seq : Word) : State :=
  (s.group handle).joined.foldl (fun s m =>
    s.withHart m.2 fun s =>
      match s.hart.colls.find? (fun c => c.msg.isNone && c.handle == handle && c.seq == seq) with
      | none => s
      | some c => s.settleColl c m.1) s

/-- The count of a package is complete: every rank's elements have reached it, and its children's counts have (R404). -/
def State.countDone (s : State) (o : CollOp) (p : Nat) : Bool :=
  (List.range (s.groupSize o.pkg o.handle)).all (fun r => o.parts.any fun x => x.rank == r && x.arrived.contains p)
    && (s.treeNodes o.pkg o.handle).all fun n => n.pkg != p || n.children.all o.counted.contains

/-- The first package of the tree to which a decision goes next: a child of one that it has reached. -/
def State.nextDown (s : State) (o : CollOp) : Option Nat :=
  let tree := s.treeNodes o.pkg o.handle
  (tree.map (·.pkg)).find? fun p => !o.reached.contains p && tree.any fun n => o.reached.contains n.pkg && n.children.contains p

/-- A decision to commit has come further down; when it has reached every package, each member has its result. -/
def State.commitAt (s : State) (o : CollOp) : State :=
  let s := s.setOp o
  if s.isReleased o then s.settleMembers o.handle o.seq else s

/-- COLLECTIVE_COMMIT: a complete count goes one package up the tree, or the root commits, or its decision goes one package
down; results go to every member (R276, R278, R404). -/
def execCollectiveCommit (g : OpRef) (s : State) : Host.Outcome State Fault Refusal :=
  match s.findOp g.handle (BitVec.ofNat 32 g.seq) with
  | none => .next s
  | some o =>
    let root := s.rootOf o.pkg o.handle
    match o.verdict with
    | some (.aborted _) => .next s
    | some .committed =>
      match s.nextDown o with
      | some p => .next (s.commitAt { o with reached := p :: o.reached })
      | none => .next s
    | none =>
      if s.countDone o root then .next (s.commitAt { o with verdict := some .committed, reached := [root] })
      else
        match (s.treeOf o.pkg o.handle).find? fun p => p != root && !o.counted.contains p && s.countDone o p with
        | some p => .next (s.setOp { o with counted := p :: o.counted })
        | none => .next s

/-- An ABORT at a unit goes on to its parent; the root takes the first one unless it has committed, and the decision goes
down the tree (R278, R404). -/
def State.abortAtUnit (s : State) (g : OpRef) (cause : Nat) (pkg : Nat) : State :=
  let seq := BitVec.ofNat 32 g.seq
  let mine := fun (a : AbortMsg) => a.handle == g.handle && a.seq == seq && a.cause.toNat == cause && a.at_ == pkg
  let o := (s.findOp g.handle seq).getD { handle := g.handle, seq := seq, pkg := pkg }
  let root := s.rootOf o.pkg g.handle
  let nodes := s.treeNodes o.pkg g.handle
  if !s.aborts.any mine then
    (match o.verdict with
     | some (.aborted c) =>
       if c.toNat = cause ∧ !o.reached.contains pkg ∧ nodes.any (fun n => o.reached.contains n.pkg && n.children.contains pkg)
       then s.setOp { o with reached := pkg :: o.reached } else s
     | _ => s)
  else
    let s' := { s with aborts := s.aborts.filter fun a => !mine a }
    if pkg = root then
      if o.verdict.isSome then s' else s'.setOp { o with verdict := some (.aborted (BitVec.ofNat 8 cause)), reached := [root] }
    else
      let up := ((nodes.find? (·.pkg == pkg)).map (·.parent)).getD root
      { s' with aborts := s'.aborts ++ [⟨g.handle, seq, BitVec.ofNat 8 cause, up⟩] }

/-- An ABORT reaches the member whose turn it is (R277 items 3 and 4). -/
def State.abortAtMember (s : State) (o : CollOp) (cause : Byte) (j : Nat) (x : Joined) : State :=
  let behind := decide ((o.seq - x.cseq).toNat < 2 ^ 31)
  let s := s.mapHart fun h => { h with
    joined := h.joined.set! j (some { x with cseq := if behind then o.seq + 1 else x.cseq, abort := cause }) }
  let o := { o with told := x.rank :: o.told }
  match o.parts.find? (·.rank == x.rank) with
  | none => s.closeOp o x.rank
  | some p =>
    let s := s.mapHart (·.endAborted p o.seq cause)
    let s := s.setOp { o with parts := o.parts.map fun q => if q.rank = x.rank then { q with accepted := true } else q }
    match s.hart.colls.find? (fun c => c.msg.isNone && c.handle == o.handle && c.seq == o.seq) with
    | none => s
    | some c => s.settleColl c x.rank

/-- ABORT: an ABORT for an operation reaches a unit or a member hart. -/
def execAbort (g : OpRef) (cause : Nat) (at_ : AbortAt) (s : State) : Host.Outcome State Fault Refusal :=
  match at_ with
  | .unit pkg => .next (s.abortAtUnit g cause pkg)
  | .member r =>
    match s.findOp g.handle (BitVec.ofNat 32 g.seq) with
    | none => .next s
    | some o =>
      match o.verdict with
      | some (.aborted c) =>
        .next (s.withHart r fun s =>
          match (List.range 16).find? (fun j => match s.hart.joined[j]! with
              | some x => x.handle == g.handle
              | none => false) with
          | none => s
          | some j =>
            match s.hart.joined[j]! with
            | none => s
            | some x =>
              if o.told.contains x.rank ∨ ((s.treeOf o.pkg o.handle).contains r.pkg ∧ !o.reached.contains r.pkg) then s
              else s.abortAtMember o c j x)
      | _ => .next s

/-- Core clocks of a microsecond at the nominal 1.20 GHz (01 R13). Log 59 (DESIGN CHOICE). -/
def clocksPerUs : Nat := 1200

/-- LAG_LIMIT_EXPIRY: a contribution is missing when the lag limit has run (R277). -/
def execLagLimitExpiry (g : OpRef) (s : State) : Host.Outcome State Fault Refusal :=
  match s.findOp g.handle (BitVec.ofNat 32 g.seq) with
  | none => .next s
  | some o =>
    match o.first with
    | none => .next s
    | some t =>
      let lag := fieldOf (s.groupQuad o.pkg o.handle 1) 0 20
      if o.verdict.isSome ∨ !s.groupReady o.pkg o.handle ∨ s.opComplete o
          ∨ s.clock < max t (s.group o.handle).readyAt + lag * clocksPerUs then .next s
      else .next { s with aborts := s.aborts ++ [⟨o.handle, o.seq, 2, o.pkg⟩] }

/-- RANK_DEPARTURE: the departure of a rank reaches the tree; operations that need it abort (R270). -/
def execRankDeparture (handle : Quad) (rank : Nat) (s : State) : Host.Outcome State Fault Refusal :=
  let g := s.group handle
  if !g.leaving.contains rank then .next s
  else
    let hit := s.ops.filter fun o => o.handle == handle && o.verdict.isNone && !o.parts.any (·.rank == rank)
    .next { s.setGroup { g with leaving := g.leaving.erase rank } with
            aborts := s.aborts ++ hit.map fun o => ⟨handle, o.seq, 1, o.pkg⟩ }

/-- NOT_READY_ANSWER: the sender's Mucen takes a not-ready answer and sends again (R266, R404). -/
def execNotReadyAnswer (m : Nat) (s : State) : Host.Outcome State Fault Refusal :=
  .next { s with
    messages := s.messages.map fun x => if x.number = m then { x with waiting := false } else x,
    ops := s.ops.map fun o => { o with
      parts := o.parts.map fun p => if p.number = m then { p with waiting := [] } else p } }

/-- A package aborts every undecided operation of a group (R277, R385, R411). -/
def State.abortGroup (s : State) (handle : Quad) (cause : Byte) (pkg : Nat) : State :=
  { s with aborts := s.aborts ++ (s.ops.filter fun o => o.handle == handle && o.verdict.isNone).map fun o =>
      ⟨handle, o.seq, cause, pkg⟩ }

end Sys2Proof.Machine
end

