-- ==== Sys2Proof/Machine/Area.lean ====
section
/-! DEFINITION. Areas of memory that an instruction checks and reads or writes whole (17 R337), the layout that vsave
writes (17 R339), and the park area of a hart (02 R38). -/

namespace Sys2Proof.Machine

/-! ### Areas (R337) -/

/-- An area cut at the 64 KiB boundaries of its addresses. -/
def pieces : Nat → Nat → Nat → List (Nat × Nat)
  | 0, _, _ => []
  | fuel + 1, a, n =>
    if n = 0 then []
    else
      let m := min n (65536 - a % 65536)
      (a, m) :: pieces fuel (a + m) (n - m)

/-- A poisoned granule of a physical range, as an address of it. -/
def State.poisonIn (s : State) (phys n : Nat) : Option Nat :=
  (s.poison.find? fun g => decide (phys < 32 * g + 32 ∧ 32 * g < phys + n)).map (32 * ·)

/-- Check every page of an area: the physical pieces (R337). -/
def State.areaGo (s : State) (align : Nat) (k : AccKind) (rule : SpaceRule) : List (Nat × Nat) →
    Except Stop (List (Nat × Nat))
  | [] => .ok []
  | (a, n) :: r =>
    match s.resolve (BitVec.ofNat 64 a) align k rule with
    | .error e => .error e
    | .ok l =>
      match (if k.reads then s.poisonIn l.phys n else none) with
      | some p => .error (addrTrap s 0x0B (BitVec.ofNat 64 (a + (p - l.phys))))
      | none =>
        match s.areaGo align k rule r with
        | .error e => .error e
        | .ok ps => .ok ((l.phys, n) :: ps)

/-- The pieces of n bytes from an address, once the commands and entries of the queue that conflict are done (R118,
R134). -/
def State.area (s : State) (a : Quad) (n align : Nat) (k : AccKind) (rule : SpaceRule) : Except Stop (List (Nat × Nat)) :=
  match s.awaitTurn (s.hart.canon a) n k.writes with
  | .error e => .error e
  | .ok _ => s.areaGo align k rule (pieces (n / 65536 + 2) a.toNat n)

/-- Write quads to the pieces of an area. -/
def State.putArea (s : State) : List (Nat × Nat) → List Quad → State
  | [], _ => s
  | (p, n) :: r, qs =>
    ((s.putQuads p (qs.take (n / 8))).clearPoison p n).putArea r (qs.drop (n / 8))

def State.getArea (s : State) (ps : List (Nat × Nat)) : List Quad := ps.flatMap fun p => readQuads s.mem p.1 (p.2 / 8)

/-! ### The layout of a vsave area (R339) -/

/-- Bytes of the area of vsave. -/
def Hart.saveBytes (h : Hart) : Nat := 64 + 32768 * h.g + 57344 + 65536 * h.tiles.length

/-- Words to quads, in memory order. -/
def quadsOf : List Word → List Quad
  | [] => []
  | [x] => [x.setWidth 64]
  | x :: y :: r => (y ++ x : BitVec 64) :: quadsOf r

/-- 16-bit values to quads. -/
def quadsOf16 : List Nat → List Quad
  | a :: b :: c :: d :: r => BitVec.ofNat 64 (a + 65536 * (b + 65536 * (c + 65536 * d))) :: quadsOf16 r
  | [] => []
  | l => [BitVec.ofNat 64 (l.foldr (fun x acc => x + 65536 * acc) 0)]

/-- True bits of a mask register. -/
def MaskReg.trues (m : MaskReg) : List Nat := (List.range 65536).filter (bitOf m.bits)

/-- A mask's 8,192 bytes: a bitmap, or its indices followed by bytes that the spec leaves open. -/
def MaskReg.saved (m : MaskReg) (open_ : Nat → Quad) : List Quad :=
  if m.list then
    let l := quadsOf16 m.trues
    (l ++ (List.range (1024 - l.length)).map open_).take 1024
  else (List.range 1024).map fun i => m.bits.extractLsb' (64 * i) 64

/-- Quad 0 of the area. -/
def Hart.saveHead (h : Hart) : Quad :=
  let forms := (List.range 7).foldl (fun n i => if (h.m[i + 1]!).list then n + 2 ^ i else n) 0
  BitVec.ofNat 64 (h.nregs + (if h.csr.w64 then 256 else 0) + h.g * 512 + (2 ^ h.tiles.length - 1) * 2 ^ 13 + forms * 2 ^ 17)

/-- The part of quad 0 that vrest compares: n, W64, g and the tiles. -/
def headKey (q : Quad) : Nat := fieldOf q 0 17

/-- The quads of the vsave area. The list length of a mask in bitmap form is left open. Log 67 (DESIGN CHOICE). -/
def Hart.saveArea (h : Hart) (open_ : Nat → Quad) : List Quad :=
  let tags := (List.range 64).foldl (fun n i => n + (Tag.code (h.v[i]!).tag).toNat * 8 ^ i) 0
  let len := fun i =>
    let m := h.m[i + 1]!
    if m.list then (m.trues.length % 65536) else (open_ i).toNat % 65536
  let lens := quadsOf16 ((List.range 7).map len)
  [h.saveHead] ++ ((List.range 3).map fun i => BitVec.ofNat 64 (tags / 2 ^ (64 * i))) ++ lens ++ ([0, 0] : List Quad)
    ++ (List.range h.nregs).flatMap (fun r => quadsOf (padTo h.regWords (h.v[r]!).data))
    ++ (List.range 7).flatMap (fun i => (h.m[i + 1]!).saved fun j => open_ (7 + 1024 * i + j))
    ++ h.tiles.flatMap fun t => (List.range 128).flatMap fun r => quadsOf (padTo 128 (t.getD r []))

/-- Quads to words. -/
def wordsOf : List Quad → List Word
  | [] => []
  | q :: r => q.setWidth 32 :: q.extractLsb' 32 32 :: wordsOf r

/-- The words of n bytes at an offset of an area. -/
def cutWords (qs : List Quad) (off n : Nat) : List Word := wordsOf ((qs.drop (off / 8)).take (n / 8))

/-- A mask register from its 8,192 bytes, its form and its list length. -/
def MaskReg.restored (qs : List Quad) (list : Bool) (len : Nat) : MaskReg :=
  let bits : BitVec 65536 :=
    if list then
      (List.range (min len 4096)).foldl (fun acc i => acc ||| (1#65536 <<< fieldOf (qs.getD (i / 4) 0) (16 * (i % 4)) 16)) 0
    else BitVec.ofNat 65536 (qs.foldr (fun q acc => q.toNat + 2 ^ 64 * acc) 0)
  { bits := bits, list := list, taint := 0 }

/-- Rows of a tile from its words. -/
def tileRows : Nat → List Word → Tile
  | 0, _ => []
  | n + 1, l => l.take 128 :: tileRows n (l.drop 128)

/-- Registers, tags, mask forms and tiles from an area (R339). A tag code that R48 reserves gives an open tag. -/
def Hart.loadArea (h : Hart) (qs : List Quad) (open_ : Quad) : Hart :=
  let n := h.nregs
  let per := 4 * h.regWords
  let tags := fieldOf (qs.getD 1 0) 0 64 + 2 ^ 64 * (fieldOf (qs.getD 2 0) 0 64 + 2 ^ 64 * fieldOf (qs.getD 3 0) 0 64)
  let tagAt := fun i => (Tag.ofCode (BitVec.ofNat 3 (tags / 8 ^ i))).getD
    ((Tag.ofCode (BitVec.ofNat 3 (open_.toNat % 3))).getD .n32)
  let masks := 64 + n * per
  let lens := fieldOf (qs.getD 4 0) 0 64 + 2 ^ 64 * fieldOf (qs.getD 5 0) 0 64
  { h with
    v := Vector.ofFn fun (i : Fin 64) =>
      if i.val < n then { data := cutWords qs (64 + i.val * per) per, tag := tagAt i.val, taint := 0 }
      else { h.v[i] with tag := tagAt i.val },
    m := Vector.ofFn fun (i : Fin 8) =>
      if i.val = 0 then h.m[i]
      else MaskReg.restored ((qs.drop ((masks + 8192 * (i.val - 1)) / 8)).take 1024) (bitOf (qs.getD 0 0) (16 + i.val))
        (lens / 65536 ^ (i.val - 1) % 65536),
    tiles := (List.range h.tiles.length).map fun t => tileRows 128 (cutWords qs (masks + 57344 + 65536 * t) 65536),
    sup := { h.sup with vown := false } }

/-! ### The park area (R38, R339) -/

/-- The pieces of the hart's park area: none where the supervisor has reserved none (parkbase 0), or where a check of
R88 fails on it. It is used with the layout of a vsave area. Log 118 (DEDUCED). -/
def State.parkPieces (s : State) (k : AccKind) : Option (List (Nat × Nat)) :=
  if s.hart.sup.parkbase = 0 then none
  else
    match s.areaGo 64 k .own (pieces 10 s.hart.sup.parkbase.toNat s.hart.saveBytes) with
    | .ok ps => some ps
    | .error _ => none

/-- A check that fails on the park area is recorded by its home (R357). -/
def State.parkFault (s : State) (k : AccKind) : State :=
  if s.hart.sup.parkbase = 0 then s
  else
    match s.areaGo 64 k .own (pieces 10 s.hart.sup.parkbase.toNat s.hart.saveBytes) with
    | .error (.trap _ t) => t
    | _ => s

/-- Step 4 of R38. -/
def State.fillPark (s : State) : State :=
  match s.parkPieces .write with
  | none => s.parkFault .write
  | some ps => { s.putArea ps (s.hart.saveArea fun i => Config.value (s.free + i)) with free := s.free + 8192 }

/-- The v, m and t registers of a resuming hart, as its park area holds them. -/
def State.emptyPark (s : State) : State :=
  match s.parkPieces .read with
  | none => s.parkFault .read
  | some ps =>
    (s.mapHart fun h => { h.loadArea (s.getArea ps) (Config.value s.free) with sup := h.sup }).drawn

/-- An earlier vector or matrix instruction is not complete: an entry of the queue, a collective result that has not
come, or an mst that runs (R58, R242). An entry that a trap has frozen is not waited for (R424). -/
def Hart.vectorBusy (h : Hart) : Bool :=
  h.queued || !h.colls.isEmpty || h.cmds.any fun c => c.isDrain && c.running

/-- Every vector and matrix instruction and every load of the hart is complete (R38 steps 2 and 3), or the hart waits.
An entry that a trap has frozen is not waited for. -/
def State.quiesce (s : State) : Except Stop State :=
  if s.hart.vectorBusy then
    .error (.hold .presence)
  else
    let s := s.drain
    if s.hart.pend.isEmpty && !s.hart.struck then .ok s else .error (.hold .presence)

/-- Park the hart (R38): its registers go to its park area; `next` is its pc. -/
def State.park (s : State) (why : Park) (d : SReg) (next : Quad) : State :=
  s.fillPark.mapHart fun h => { h with status := .parked why d none, pc := next }

end Sys2Proof.Machine
end

