-- ==== Sys2Proof/Machine/Csr.lean ====
section
/-! DEFINITION. The CSRs (03 R57 to R60, 17 R327, 18 R354), the CSR instructions (08 R175, R176) and the
taint instructions (06 R131, 08 R174). -/

namespace Sys2Proof.Machine

/-! ### Reading -/

/-- taintct: tags 1 to 15 in use, plus 16 when tag 0 is outstanding. -/
def Hart.taintCount (h : Hart) : Nat :=
  ((List.range 15).filter fun i => bitOf h.tagBusy (i + 1)).length + (if bitOf h.tagBusy 0 then 16 else 0)

/-- The queue, interlock table and engines hold nothing that vqsave would record (R338). -/
def Hart.queueIdle (h : Hart) : Bool := h.frozen.isEmpty && h.colls.isEmpty && h.interlock.isEmpty && h.cmds.isEmpty

/-- vqlen (R338): 64 when idle, else a multiple of 64 from 128 to 8,192 that the spec does not state.
Log 109 (DEDUCED). -/
def Hart.vqlen (h : Hart) : Nat :=
  if h.queueIdle then 64 else 128 + 64 * ((Config.value h.vqDraw).toNat % 127)

/-- vtype (R57). -/
def UserCsr.vtype (c : UserCsr) : Quad := (bit1 c.mp ++ bit1 c.tp ++ c.gl : BitVec (1 + 1 + 2)).setWidth 64

/-- vcfg (R57). -/
def UserCsr.vcfg (c : UserCsr) : Quad :=
  (c.lgreq ++ 0#1 ++ bit1 c.w64 ++ c.nreg : BitVec (4 + 1 + 1 + 2)).setWidth 64

/-- sstatus (R327). -/
def SupCsr.sstatus (c : SupCsr) : Quad :=
  (c.pend ++ 0#3 ++ bit1 c.vown ++ bit1 c.vdirty ++ bit1 c.saie ++ bit1 c.aie
    ++ bit1 (c.spp == .s) : BitVec (3 + 3 + 1 + 1 + 1 + 1 + 1)).setWidth 64

/-- Sequence number of the group that cgrp names; zero where none is joined (R57). -/
def Hart.cseq (h : Hart) : Word :=
  match h.joined[h.csr.cgrp.toNat] with
  | some j => j.cseq
  | none => 0

/-- cycle (R60): clocks since package reset, one count for all cores of the package. Log 7 (DESIGN CHOICE). -/
def State.cycle (s : State) : Quad := BitVec.ofNat 64 (s.clock - (s.pack s.hart.pkg).resetClock)

/-- Address of the root entry of the hart's asid on its die (R354). -/
def State.ownRoot (s : State) : Nat := s.rootAddr s.hart.pkg s.hart.die s.hart.asid

/-- The value of a CSR; none for a number that is in neither table. -/
def State.csrGet (s : State) (n : BitVec 12) : Option Quad :=
  let h := s.hart
  let c := h.csr
  match n with
  | 0x010#12 => some (c.vl.setWidth 64)
  | 0x011#12 => some c.vtype
  | 0x012#12 => some c.vcfg
  | 0x013#12 => some (c.vlmax.setWidth 64)
  | 0x014#12 => some (c.lgrp.setWidth 64)
  | 0x015#12 => some (c.vlast.setWidth 64)
  | 0x016#12 => some (c.vstat.setWidth 64)
  | 0x017#12 => some (c.kstat.setWidth 64)
  | 0x018#12 => some (c.fflags.setWidth 64)
  | 0x019#12 => some (c.frm.setWidth 64)
  | 0x020#12 => some c.strip
  | 0x021#12 => some c.slen
  | 0x022#12 => some c.sbase
  | 0x030#12 => some (c.mM.setWidth 64)
  | 0x031#12 => some (c.mN.setWidth 64)
  | 0x032#12 => some (c.mK.setWidth 64)
  | 0x033#12 => some (c.mMg.setWidth 64)
  | 0x034#12 => some (c.mNg.setWidth 64)
  | 0x035#12 => some (c.mclass.setWidth 64)
  | 0x036#12 => some (c.mi.setWidth 64)
  | 0x037#12 => some (c.nj.setWidth 64)
  | 0x038#12 => some (c.kk.setWidth 64)
  | 0x039#12 => some (c.mcols.setWidth 64)
  | 0x040#12 => some (c.cgrp.setWidth 64)
  | 0x041#12 => some (c.cop.setWidth 64)
  | 0x042#12 => some (c.cstride.setWidth 64)
  | 0x043#12 => some (h.cseq.setWidth 64)
  | 0x044#12 => some ((c.aseq ++ 0#24 ++ c.acause : BitVec (32 + 24 + 8)).setWidth 64)
  | 0x050#12 => some (BitVec.ofNat 64 h.ref.hid)
  | 0x051#12 => some (c.gangid.setWidth 64)
  | 0x052#12 => some (c.ganghart.setWidth 64)
  | 0x053#12 => some (c.gangsize.setWidth 64)
  | 0x054#12 => some (BitVec.ofNat 64 h.core)
  | 0x055#12 => some (BitVec.ofNat 64 h.die)
  | 0x056#12 => some (BitVec.ofNat 64 h.pkg)
  | 0x057#12 => some s.cycle
  | 0x060#12 => some (BitVec.ofNat 64 h.taintCount)
  | 0x061#12 => some (h.tagBusy.setWidth 64)
  | 0x800#12 => some h.sup.sstatus
  | 0x801#12 => some (h.sup.tcause.setWidth 64)
  | 0x802#12 => some h.sup.tinfo
  | 0x803#12 => some h.sup.tpc
  | 0x804#12 => some h.sup.tvec
  | 0x805#12 => some h.sup.tsave
  | 0x806#12 => some (h.sup.asid.setWidth 64)
  | 0x807#12 => some (readQuad s.mem s.ownRoot)
  | 0x808#12 => some (h.sup.preempt.setWidth 64)
  | 0x810#12 => some h.sup.telem
  | 0x811#12 => some h.sup.tvpc
  | 0x812#12 => some (BitVec.ofNat 64 h.vqlen)
  | 0x813#12 => some h.sup.parkbase
  | 0x814#12 => some h.sup.snapseq
  | _ => none

/-! ### Writing -/

/-- The longest vl for a vtype: VLMAX x G (R26). -/
def UserCsr.maxVl (c : UserCsr) : Nat := c.vlmax.toNat * 2 ^ c.gl.toNat

/-- A write of MP, TP and GL (R57): vl is cut to VLMAX x G, and vlast that is no multiple of a changed
G becomes zero. -/
def UserCsr.setVtype (c : UserCsr) (v : Quad) : UserCsr :=
  let c' := { c with gl := v.extractLsb' 0 2, tp := bitOf v 2, mp := bitOf v 3 }
  { c' with
    vl := if c'.maxVl < c.vl.toNat then BitVec.ofNat 32 c'.maxVl else c.vl,
    vlast := if c'.gl ≠ c.gl ∧ c.vlast.toNat % 2 ^ c'.gl.toNat ≠ 0 then 0 else c.vlast }

/-- Write the RW fields of a CSR; read-only and reserved bits ignore the write (R4, R175). -/
def State.csrPut (s : State) (n : BitVec 12) (v : Quad) : State :=
  let user := fun (f : UserCsr → UserCsr) => s.mapHart fun h => { h with csr := f h.csr }
  let sup := fun (f : SupCsr → SupCsr) => s.mapHart fun h => { h with sup := f h.sup }
  match n with
  | 0x011#12 => user fun c => c.setVtype v
  | 0x015#12 => user fun c => { c with vlast := v.setWidth 6 }
  | 0x018#12 => user fun c => { c with fflags := v.setWidth 5 }
  | 0x019#12 => user fun c => { c with frm := v.setWidth 3 }
  | 0x020#12 => user fun c => { c with strip := v }
  | 0x021#12 => user fun c => { c with slen := v }
  | 0x022#12 => user fun c => { c with sbase := v }
  | 0x039#12 => user fun c => { c with mcols := v.setWidth 8 }
  | 0x040#12 => user fun c => { c with cgrp := v.setWidth 4 }
  | 0x041#12 => user fun c => { c with cop := v.setWidth 24 }
  | 0x042#12 => user fun c => { c with cstride := v.setWidth 32 }
  | 0x044#12 => user fun c => { c with acause := v.setWidth 8 }
  | 0x800#12 => sup fun c => { c with saie := bitOf v 2, aie := bitOf v 1, spp := if bitOf v 0 then .s else .u }
  | 0x803#12 => sup fun c => { c with tpc := v }
  | 0x804#12 => sup fun c => { c with tvec := v &&& ~~~ 1 }
  | 0x805#12 => sup fun c => { c with tsave := v }
  | 0x806#12 => sup fun c => { c with asid := v.setWidth 16 }
  | 0x807#12 => if v.extractLsb' 0 6 = 0 then { s with mem := writeQuad s.mem s.ownRoot v } else s
  | 0x808#12 => sup fun c => { c with preempt := v.setWidth 16 }
  | 0x813#12 => sup fun c => { c with parkbase := v }
  | _ => s

/-- Clear the bits that are 1 in v of a W1C CSR (R176). -/
def State.csrClear (s : State) (n : BitVec 12) (v : Quad) : State :=
  if n = 0x016#12 then s.mapHart fun h => { h with csr := { h.csr with vstat := h.csr.vstat &&& ~~~ v.setWidth 5 } }
  else s.mapHart fun h => { h with csr := { h.csr with kstat := h.csr.kstat &&& ~~~ v.setWidth 24 } }

def csrW1c (n : BitVec 12) : Bool := n == 0x016#12 || n == 0x017#12

/-- Writes that add the taint of their source to the control taint (R56, R176). -/
def csrTaints (n : BitVec 12) : Bool :=
  n == 0x011#12 || n == 0x020#12 || n == 0x021#12 || n == 0x022#12 || n == 0x039#12 || n == 0x040#12
    || n == 0x041#12 || n == 0x042#12

/-- CSRs whose access waits for the hart's earlier vector and matrix instructions (R58). -/
def csrWaits (n : BitVec 12) : Bool := n == 0x015#12 || n == 0x016#12 || n == 0x018#12

/-- The three write operations. -/
inductive CsrOp where
  | write | set | clear
  deriving DecidableEq, Repr

/-- A CSR instruction (R175): the old value to sd with an empty taint set, and the write, if any. -/
def State.csr (s : State) (d : SReg) (n : BitVec 12) (op : Option (CsrOp × SReg)) : Host.Outcome State Fault Refusal :=
  finish s (
    if 0x800 ≤ n.toNat ∧ s.hart.level = .u then .error (insnTrap s 0x03)
    else if csrWaits n ∧ s.hart.vectorBusy then .error (.hold .presence)
    else
      let s := s.needS (d :: (op.map (·.2)).toList)
      let s := if csrWaits n then s.drain else s
      if csrWaits n ∧ (s.hart.struck ∨ s.hart.pend.any fun a => a.queue != 0) then .error (.hold .presence) else
      match s.csrGet n with
      | none => .error (illegal s)
      | some old =>
        let s' := match op with
          | none => s
          | some (o, a) =>
            let v := s.hart.getS a
            let s' :=
              if csrW1c n then (if o = CsrOp.clear then s else s.csrClear n v)
              else s.csrPut n (match o with
                | .write => v | .set => old ||| v | .clear => old &&& ~~~ v)
            if csrTaints n then s'.mapHart (·.addControl (s.hart.taintS a)) else s'
        .ok ((s'.mapHart (·.setS d old 0)).done 4))

/-- csrr. -/
def execCsrr (d : SReg) (csr : BitVec 12) (s : State) : Host.Outcome State Fault Refusal := s.csr d csr none

/-- csrw. -/
def execCsrw (d a : SReg) (csr : BitVec 12) (s : State) : Host.Outcome State Fault Refusal :=
  s.csr d csr (some (.write, a))

/-- csrs. -/
def execCsrs (d a : SReg) (csr : BitVec 12) (s : State) : Host.Outcome State Fault Refusal :=
  s.csr d csr (some (.set, a))

/-- csrc. -/
def execCsrc (d a : SReg) (csr : BitVec 12) (s : State) : Host.Outcome State Fault Refusal :=
  s.csr d csr (some (.clear, a))

/-! ### Taint (R131, R174) -/

/-- The taint set of a register; s0's and m0's are empty. -/
def Hart.taintOf (h : Hart) : TaintReg → TaintSet
  | .s r => h.taintS r
  | .v r => h.taintV r
  | .m r => h.taintM r
  | .q r => h.taintQ r

def Hart.setTaint (h : Hart) (r : TaintReg) (t : TaintSet) : Hart :=
  match r with
  | .s r => if r = 0 then h else { h with st := h.st.set r.toNat t }
  | .v r => { h with v := h.v.set r.toNat { h.v[r.toNat] with taint := t } }
  | .m r => if r = 0 then h else { h with m := h.m.set r.toNat { h.m[r.toNat] with taint := t } }
  | .q r => { h with q := h.q.set r.toNat { h.q[r.toNat] with taint := t } }

/-- A v register that is not the first of its group (R174). -/
def Hart.midGroup (h : Hart) : TaintReg → Bool
  | .v r => r.toNat % h.group != 0
  | _ => false

/-- tclr x. -/
def execTclr (x : TaintReg) (s : State) : Host.Outcome State Fault Refusal :=
  finish s (if s.hart.midGroup x then .error (illegal s) else .ok ((s.mapHart (·.setTaint x 0)).done 4))

/-- tclr.ct. -/
def execTclrCt (s : State) : Host.Outcome State Fault Refusal :=
  .next ((s.mapHart fun h => { h with ct := 0 }).done 4)

/-- An access that would write an s register writes s0 instead: a later instruction has written the register. -/
def Access.miss (d : SReg) (a : Access) : Access :=
  if a.sdst != some d then a
  else
    { a with op := match a.op with
        | .load (.s _ g) => .load (.s 0 g)
        | .loadConst (.s _ g) => .loadConst (.s 0 g)
        | .loadWindow i (.s _ g) => .loadWindow i (.s 0 g)
        | .amo o x _ => .amo o x 0
        | .cas e n _ => .cas e n 0
        | o => o }

/-- tget sd, y. It is not held: where a load of sd is still in flight, sd keeps what tget writes (R174). -/
def execTget (d : SReg) (y : TaintReg) (s : State) : Host.Outcome State Fault Refusal :=
  .next ((s.mapHart fun h =>
    ({ h with pend := if d = 0 then h.pend else h.pend.map (Access.miss d) } : Hart).setS d ((h.taintOf y).setWidth 64) 0).done 4)

/-- tdep x, y. -/
def execTdep (x y : TaintReg) (s : State) : Host.Outcome State Fault Refusal :=
  .next ((s.mapHart fun h => h.setTaint x (h.taintOf x ||| h.taintOf y)).done 4)

end Sys2Proof.Machine
end

