-- ==== Sys2Proof/Machine/Loop.lean ====
section
/-! DEFINITION. vcfg, vsetl, sloop and snext (02 R25 to R28, 09 R192 to R194). -/

namespace Sys2Proof.Machine

/-! ### Lane groups (R25) -/

/-- The physical lane groups of a core that the harts of a gang own, or keep as the quota of a parked hart (R39). What a
parked hart of another gang has lent to the gang is not its own meanwhile (R38). -/
def State.lanesOwned (s : State) (pkg die core : Nat) (gang : Word) : Byte :=
  s.harts.foldl (fun acc h =>
    if h.pkg = pkg ∧ h.die = die ∧ h.core = core ∧ h.csr.gangid = gang then acc ||| h.csr.lgrp else acc) 0

/-- The gang of a hart. -/
def State.gangOf (s : State) (h : Hart) : Option Gang := (s.pack h.pkg).gangs.find? (·.gangid == h.csr.gangid)

/-- What a gang holds on a core: its share, or, once it is pre-empted, what its harts have not released (R378). -/
def State.gangLanes (s : State) (pkg : Nat) (g : Gang) (c : GangCore) : Byte × BitVec 4 :=
  if !g.preempted then (c.lanes, c.tiles)
  else s.harts.foldl (fun acc h =>
    if h.pkg = pkg ∧ h.die = c.die ∧ h.core = c.core ∧ h.csr.gangid = g.gangid then
      (acc.1 ||| h.csr.lgrp, acc.2 ||| h.tmask) else acc) (0, 0)

/-- Lane groups of the gang's share of the hart's core that no hart owns. -/
def State.freeShare (s : State) : Byte :=
  let h := s.hart
  match s.gangOf h with
  | none => 0
  | some g =>
    if g.preempted then 0 else
    match g.cores.find? (fun c => c.die == h.die && c.core == h.core) with
    | none => 0
    | some c => c.lanes &&& ~~~ s.lanesOwned h.pkg h.die h.core h.csr.gangid

/-- The lowest n set bits of a byte. -/
def lowBits (n : Nat) (b : Byte) : Byte :=
  ((List.range 8).foldl (fun (acc : Byte × Nat) i =>
    if bitOf b i && decide (acc.2 < n) then (acc.1 ||| (1#8 <<< i), acc.2 + 1) else acc) (0, 0)).1

/-- VLMAX (R26). -/
def vlmaxFor (g nreg : Nat) (w64 : Bool) : Nat := Config.laneContainers * g / (8 * 2 ^ nreg * (if w64 then 2 else 1))

/-- Zero every v register and mask, as vcfg and a grant do. -/
def Hart.clearVectors (h : Hart) : Hart :=
  { h with v := Vector.replicate 64 {}, m := Vector.replicate 8 {} }

/-- Apply the lane-group request (R25): the count becomes the smaller of the request and the count plus
the free share; LGREQ is cleared when it is met in full. Log 40 (DESIGN CHOICE). -/
def State.applyGrant (s : State) : State :=
  let h := s.hart
  let want := h.csr.lgreq.toNat
  if want = 0 then s
  else
    let free := s.freeShare
    let n := min want (h.g + popCount free.toNat 8)
    let lanes := if n ≤ h.g then lowBits n h.csr.lgrp else h.csr.lgrp ||| lowBits (n - h.g) free
    let h' := if n = h.g then h
      else { h.clearVectors with
        g := n,
        csr := { h.csr with lgrp := lanes, vlmax := BitVec.ofNat 32 (vlmaxFor n h.csr.nreg.toNat h.csr.w64) } }
    s.setHart { h' with csr := { h'.csr with lgreq := if n = want then 0 else h'.csr.lgreq } }

/-! ### The instructions -/

/-- vcfg (R192): it waits for the hart's vector and matrix instructions. -/
def execVcfg (d : SReg) (nreg : BitVec 2) (w64 : Bool) (lgreq : BitVec 4) (s : State) :
    Host.Outcome State Fault Refusal :=
  finish s (match s.quiesce with
    | .error e => .error e
    | .ok s =>
      .ok ((s.mapHart fun h =>
        let n := vlmaxFor h.g nreg.toNat w64
        let h := h.clearVectors
        let h : Hart := { h with
          csr := { h.csr with nreg := nreg, w64 := w64, lgreq := lgreq, vlmax := BitVec.ofNat 32 n, vl := 0, vlast := 0 } }
        h.setS d (BitVec.ofNat 64 n) 0).done 4))

/-- min of a 64-bit natural and VLMAX x G. -/
def UserCsr.grant (c : UserCsr) (x : Quad) : Word := BitVec.ofNat 32 (min x.toNat c.maxVl)

/-- A vsetl with a lane-group request outstanding, and no vector instruction of the hart in flight but what a trap has
frozen, performs the accesses in flight and applies the grant (R25, R193, R424). Log 128 (DESIGN CHOICE). -/
def State.tryGrant (s : State) : State :=
  if s.hart.csr.lgreq = 0 ∨ s.hart.vectorBusy then s
  else
    let t := s.drain
    if t.hart.struck || t.hart.pend.any (fun a => a.queue != 0) then t else t.applyGrant

/-- vsetl (R193). -/
def execVsetl (d a : SReg) (gl : BitVec 2) (tp mp : Bool) (s : State) : Host.Outcome State Fault Refusal :=
  let s := s.needS [d, a]
  let s := s.tryGrant
  .next ((s.mapHart fun h =>
    let x := h.getS a
    let t := h.taintS a
    let c := { h.csr with gl := gl, tp := tp, mp := mp,
                          vlast := if h.csr.vlast.toNat % 2 ^ gl.toNat ≠ 0 then 0 else h.csr.vlast }
    let vl := c.grant x
    (({ h with csr := { c with vl := vl } } : Hart).setS d (vl.setWidth 64) 0).addControl t).done 4)

/-- Start a strip loop of length s[sa]; with nothing granted, go to the exit (R27). -/
def State.startLoop (s : State) (a : SReg) (off : BitVec 12) : State :=
  let s := s.needS [a]
  let target := s.relative off
  s.mapHart fun h =>
    let x := h.getS a
    let vl := h.csr.grant x
    { (h.addControl (h.taintS a)) with
      csr := { h.csr with slen := x, strip := 0, sbase := 0, vl := vl },
      pc := if vl = 0 then target else h.pc + 4, par := none, status := .running }

/-- sloop (R27, R194). -/
def execSloop (a : SReg) (off : BitVec 12) (s : State) : Host.Outcome State Fault Refusal := .next (s.startLoop a off)

/-- snext (R27, R28). -/
def execSnext (off : BitVec 12) (s : State) : Host.Outcome State Fault Refusal :=
  let target := s.relative off
  .next (s.mapHart fun h =>
    let sbase := h.csr.sbase + h.csr.vl.setWidth 64
    let left : Quad := if h.csr.slen.toNat ≤ sbase.toNat then 0 else h.csr.slen - sbase
    let vl := h.csr.grant left
    { h with csr := { h.csr with sbase := sbase, strip := h.csr.strip + 1, vl := vl },
             pc := if vl = 0 then h.pc + 4 else target, par := if vl = 0 then none else h.par, status := .running })

end Sys2Proof.Machine
end

