-- ==== Sys2Proof/Machine/Sieve.lean ====
section
/-! DEFINITION. The Sieve (05 R105 to R107, 10 R237 to R239) and read-only windows (10 R240, R241). -/

namespace Sys2Proof.Machine

/-! ### The entries (R105, R106) -/

/-- The marker of an empty entry. -/
def emptyKey : Quad := 0xFFFFFFFFFFFFFFFF

/-- Vault offset of entry e of a Sieve of E entries. -/
def sieveOffset (size e : Nat) : Nat := Config.vaultBytes - 16 * size + 16 * e

/-- The physical address of entry e of the Sieve of a hart's core. -/
def Hart.sieveAddr (h : Hart) (size e : Nat) : Nat := vaultKey h.pkg h.die h.core (sieveOffset size e)

/-- The set of a key (R106). -/
def sieveSet (size : Nat) (key : Quad) : Nat :=
  (key * 0x9E3779B97F4A7C15).toNat / 2 ^ (64 - Nat.log2 (size / 16))

/-- The entry of a set that holds a key. -/
def State.sieveFind (s : State) (size set : Nat) (key : Quad) : Option Nat :=
  ((List.range 16).map (16 * set + ·)).find? fun e => readQuad s.mem (s.hart.sieveAddr size e) == key

/-- A poisoned granule that a search of the set reads: it reads all 16 ways. Log 129 (DESIGN CHOICE). -/
def State.sievePoison (s : State) (size set : Nat) : Option Nat :=
  ((List.range 16).map (16 * set + ·)).find? fun e => s.poisoned (s.hart.sieveAddr size e)

def State.sievePut (s : State) (size e : Nat) (key value : Quad) : State :=
  { s with mem := writeQuads s.mem (s.hart.sieveAddr size e) [key, value] }

/-- A key as 64 bits (R237). -/
def sieveKey (t : Tag) (x : Quad) : Quad := if t = .i32 then (x.setWidth 32).signExtend 64 else x

/-- Accumulation by the value's tag (R238). -/
def sieveAdd (t : Tag) (v x : Quad) : Quad :=
  if t.isF then (t.ff.add .rne false v x).1
  else v + (if t = .i32 then (x.setWidth 32).signExtend 64 else x)

/-- An element: found or inserted, with the entry's value changed by `upd`; none where the key is the
marker or the set is full (R106, R237). -/
def State.sieveInsert (s : State) (size : Nat) (key : Quad) (upd : Quad → Quad) : Option State :=
  if key = emptyKey then none
  else
    let set := sieveSet size key
    match s.sieveFind size set key with
    | some e => some (s.sievePut size e key (upd (readQuad s.mem (s.hart.sieveAddr size e + 8))))
    | none =>
      match s.sieveFind size set emptyKey with
      | some e => some (s.sievePut size e key (upd 0))
      | none => none

/-! ### Element by element -/

/-- What a Sieve instruction does to each element in order: a state, the results so far, or the element
whose set is poisoned. -/
structure Sieved where
  state : State
  /-- Element, reported or found, value, key. -/
  out : List (Nat × Bool × Quad × Quad)
  fail : Option (Nat × Nat) := none

/-- The elements one after another, with nothing of another hart between them. Log 130 (DESIGN CHOICE). -/
def sieveEach (s : State) (poison : State → Nat → Option Nat) (f : State → Nat → State × Bool × Quad × Quad) :
    List Nat → Sieved
  | [] => { state := s, out := [] }
  | j :: r =>
    match poison s j with
    | some e => { state := s, out := [], fail := some (j, e) }
    | none =>
      let (s', x) := f s j
      let rest := sieveEach s' poison f r
      { rest with out := (j, x) :: rest.out }

/-- The size of the Sieve of the hart's core; Permission where none is carved (R237). Log 38 (DESIGN CHOICE). -/
def State.sieveSize (s : State) : Except Stop Nat :=
  let n := (s.core s.hart.pkg s.hart.die s.hart.core).sieve
  if n = 0 then .error (.trap { cause := 0x09, tinfo := Config.value s.free } s.drawn) else .ok n

/-- The trap of an element that reads a poisoned set (R109). -/
def sieveFault (s : State) (size j e : Nat) (keys vals : Array Quad) : Stop :=
  .trap { cause := 0x0B, tinfo := BitVec.ofNat 64 (0x3FE7F00000000000 + sieveOffset size e), telem := telemOf false 0 0 j,
          prec := false } (s.mapHart fun h => h.stopAt j vals keys)

/-- The elements of the second source of svacc; an instruction that has begun reads what it captured (R220). -/
def Hart.sieveVals (h : Hart) (r : VReg) (n : Nat) : Array Quad :=
  match h.capIdx with
  | some l => l.toArray
  | none => h.elems r (h.tagOf r) n

/-- Result bits for a destination mask: below the element at which the instruction starts they are as
they were. The taint is that of an instruction of R124 (R125, R225). -/
def Hart.sieveMask (h : Hart) (md : MReg) (mask : MaskOp) (r : Sieved) (taint : TaintSet) : Hart :=
  let old := h.m[md.toNat].bits
  let f := fun i => if i < h.start then bitOf old i else r.out.any fun x => x.1 == i && x.2.1
  let n := match r.fail with
    | none => h.vl
    | some (j, _) => j
  if h.vl = 0 then h
  else
    let bits := (List.range n).map fun i => if h.active mask i then f i else if h.csr.mp then false else bitOf old i
    { h with m := h.m.set md.toNat ⟨maskOfList bits 0 old, false, taint ||| h.taintM mask.m⟩ }

/-- The elements of a v destination, written up to the failing element. -/
def Hart.sieveVec (h : Hart) (vd : VReg) (mask : MaskOp) (r : Sieved) (val : Bool × Quad × Quad → Quad) (taint : TaintSet) :
    Hart :=
  let limit := match r.fail with
    | none => h.maxElems
    | some (j, _) => j
  r.out.foldl (fun h x => h.setVElem vd true x.1 (val x.2)) (h.prepare vd .n64 mask [] limit taint)

/-- svins and svacc: find or insert each key, and report the elements that fail. -/
def State.sieveUpdate (s : State) (md : MReg) (va : VReg) (vb : Option VReg) (mask : MaskOp) : Except Stop State := do
  let t := s.hart.tagOf va
  let _ ← s.checks6 (va :: vb.toList) (t :: (vb.map s.hart.tagOf).toList) (.ok .rne)
  let size ← s.sieveSize
  s.tagOk (!t.isF)
  let s ← s.ready (va :: vb.toList) []
  let src := vb.toList.foldl (fun acc r => acc ||| s.hart.taintV r) (s.hart.taintV va)
  let s ← s.settle (src ||| s.hart.taintM mask.m)
  let keys := s.hart.streamData va t s.hart.vl
  let vals := match vb with
    | none => #[]
    | some b => s.hart.sieveVals b s.hart.vl
  let key := fun j => sieveKey t (keys.getD j 0)
  let upd := fun j => match vb with
    | none => id
    | some b => fun v => sieveAdd (s.hart.tagOf b) v (vals.getD j 0)
  let poison := fun (s : State) j => if key j = emptyKey then none else s.sievePoison size (sieveSet size (key j))
  let r := sieveEach s poison (fun s j =>
    match s.sieveInsert size (key j) (upd j) with
    | some s' => (s', false, 0, 0)
    | none => (s, true, 0, 0)) (s.hart.todo mask)
  let (h, tag) := r.state.hart.allocTag
  let full := r.out.any fun x => x.2.1
  let h := h.sieveMask md mask r (tagBit tag ||| src)
  let s' := r.state.setHart (if full then { h with csr := { h.csr with vstat := h.csr.vstat ||| 2 } } else h)
  match r.fail with
  | none => .ok s'
  | some (j, e) => .error (sieveFault s' size j e keys vals)

/-- svins. -/
def vecSvins (md : MReg) (va : VReg) (mask : MaskOp) (s : State) : Except Stop State := s.sieveUpdate md va none mask

/-- svacc. -/
def vecSvacc (md : MReg) (va vb : VReg) (mask : MaskOp) (s : State) : Except Stop State :=
  s.sieveUpdate md va (some vb) mask

/-- svlook: the value, and whether the key was found in mc when it is not 0. -/
def vecSvlook (vd : VReg) (mc : MReg) (va : VReg) (mask : MaskOp) (s : State) : Except Stop State := do
  let t := s.hart.tagOf va
  let _ ← s.checks6 [vd, va] [t, .n64] (.ok .rne)
  let size ← s.sieveSize
  s.tagOk (!t.isF)
  let s ← s.ready [vd, va] []
  let src := s.hart.taintV va ||| s.hart.taintM mask.m
  let s ← s.settle src
  let keys := s.hart.streamData va t s.hart.vl
  let key := fun j => sieveKey t (keys.getD j 0)
  let poison := fun (s : State) j => if key j = emptyKey then none else s.sievePoison size (sieveSet size (key j))
  let r := sieveEach s poison (fun s j =>
    if key j = emptyKey then (s, false, 0, 0)
    else match s.sieveFind size (sieveSet size (key j)) (key j) with
      | some e => (s, true, readQuad s.mem (s.hart.sieveAddr size e + 8), 0)
      | none => (s, false, 0, 0)) (s.hart.todo mask)
  let (h, tag) := r.state.hart.allocTag
  let h := h.sieveVec vd mask r (·.2.1) (tagBit tag ||| src)
  let h := if mc = 0 then h else h.sieveMask mc mask r (tagBit tag ||| src)
  match r.fail with
  | none => .ok (r.state.setHart h)
  | some (j, e) => .error (sieveFault (r.state.setHart h) size j e keys #[])

/-- svdrn: keys to vd and values to vb, from entry s[sa] on; each entry drained is emptied. Log 37 (DEDUCED). -/
def vecSvdrn (vd vb : VReg) (sa : SReg) (mask : MaskOp) (s : State) : Except Stop State := do
  let _ ← s.checks6 [vd, vb] [.n64] (.ok .rne)
  let size ← s.sieveSize
  let s ← s.ready [vd, vb] [sa]
  let src := s.hart.taintS sa ||| s.hart.taintM mask.m
  let s ← s.settle src
  let entry := fun (s : State) (j : Nat) => (s.hart.getS sa).toNat + j
  let poison := fun (s : State) j =>
    if entry s j < size && s.poisoned (s.hart.sieveAddr size (entry s j)) then some (entry s j) else none
  let r := sieveEach s poison (fun s j =>
    let e := entry s j
    let k := readQuad s.mem (s.hart.sieveAddr size e)
    if size ≤ e ∨ k = emptyKey then (s, false, 0, emptyKey)
    else
      let v := readQuad s.mem (s.hart.sieveAddr size e + 8)
      ({ s with mem := writeQuad s.mem (s.hart.sieveAddr size e) emptyKey }, true, v, k)) (s.hart.todo mask)
  let (h, tag) := r.state.hart.allocTag
  let h := h.sieveVec vb mask r (·.2.1) (tagBit tag ||| src)
  let h := h.sieveVec vd mask r (·.2.2) (tagBit tag ||| src)
  match r.fail with
  | none => .ok (r.state.setHart h)
  | some (j, e) => .error (sieveFault (r.state.setHart h) size j e #[] #[])

/-- svclr: empty entries s[sa] to s[sa] + s[sb] - 1 that lie below E. -/
def vecSvclr (sa sb : SReg) (s : State) : Except Stop State := do
  s.vecUnit
  let size ← s.sieveSize
  let s ← s.ready [] [sa, sb]
  let s ← s.settle (s.hart.taintS sa ||| s.hart.taintS sb)
  let lo := (s.hart.getS sa).toNat
  let hi := min size (lo + (s.hart.getS sb).toNat)
  .ok ((List.range (hi - lo)).foldl (fun s i =>
    { s with mem := writeQuad s.mem (s.hart.sieveAddr size (lo + i)) emptyKey }) s)

/-- svins. -/
def execSvins (md : MReg) (va : VReg) (mask : MaskOp) (s : State) : Host.Outcome State Fault Refusal :=
  s.vector (vecSvins md va mask)
/-- svlook. -/
def execSvlook (vd : VReg) (mc : MReg) (va : VReg) (mask : MaskOp) (s : State) : Host.Outcome State Fault Refusal :=
  s.vector (vecSvlook vd mc va mask)
/-- svacc. -/
def execSvacc (md : MReg) (va vb : VReg) (mask : MaskOp) (s : State) : Host.Outcome State Fault Refusal :=
  s.vector (vecSvacc md va vb mask)
/-- svdrn. -/
def execSvdrn (vd vb : VReg) (sa : SReg) (mask : MaskOp) (s : State) : Host.Outcome State Fault Refusal :=
  s.vector (vecSvdrn vd vb sa mask)
/-- svclr. -/
def execSvclr (sa sb : SReg) (s : State) : Host.Outcome State Fault Refusal := s.vector (vecSvclr sa sb)

/-! ### Read-only windows -/

/-- A stream of n elements that reads through a slot: its elements, where it is a source, or its tables. -/
def Stream.through (q : Stream) (slot : Nat) (data : Bool) (sbase : Quad) (n : Nat) : Bool :=
  (data && rangeInSlot slot (q.span sbase n)) || (decide (4 ≤ q.kind.toNat) && rangeInSlot slot (q.stride, 4 * q.bound2.toNat))
    || (q.kind == 5 && rangeInSlot slot (q.table2, 4 * q.bound3.toNat))

/-- A command that reads through a slot. -/
def Cmd.through (c : Cmd) (slot : Nat) : Bool :=
  match c.op with
  | .copy dst src _ _ _ _ n sbase _ => src.through slot true sbase n || dst.through slot false sbase n
  | .drain q _ _ _ _ _ cols _ sbase .. => q.through slot false sbase cols
  | .fuller quads _ => (⟨quads⟩ : Desc).arrays.any (rangeInSlot slot)

/-- Perform the hart's earlier reads through a slot, or wait for them: its loads, its commands, and the entries of its
queue that make accesses (R241). What a trap has stopped is not waited for (R424). -/
def State.closeSlot (s : State) (slot : Nat) : Except Stop State :=
  let mine := fun (a : Access) => match a.op with
    | .loadWindow i _ => i == slot
    | _ => false
  if s.hart.cmds.any (fun c => c.running && c.through slot)
      || (s.hart.thaw && s.hart.frozen.any fun e => !quietWord e.word) then .error (.hold .window)
  else
    let s := s.drainUntil mine
    if s.hart.pend.any mine then .error (.hold .window)
    else .ok (s.mapHart fun h => { h with windows := h.windows.set! slot none })

/-- rwo: earlier stores, atomics and engine writes to the source are performed, an open slot is closed as by rwc, and the
slot opens. -/
def execRwo (slot : BitVec 5) (sa sb : SReg) (s : State) : Host.Outcome State Fault Refusal :=
  let s := s.needS [sa, sb]
  let base := s.hart.getS sa
  let len := s.hart.getS sb
  finish s (
    if 1 < fieldOf base 61 3 ∨ len = 0 ∨ 2 ^ 56 ≤ len.toNat then .error (addrTrap s 0x07 base)
    else if s.hart.interlocked (s.hart.canon base) len.toNat false then .error (.hold .window)
    else
      match s.drain.closeSlot slot.toNat with
      | .error e => .error e
      | .ok t =>
        if t.hart.pend.any (fun a => match a.op with
            | .load _ | .loadConst _ | .loadWindow .. => false
            | _ => true) then .error (.hold .window)
        else
          .ok ((t.mapHart fun h => { h with windows := h.windows.set slot.toNat (some { base := base, length := len }) }).done 8))

/-- rwc: earlier reads through the slot are performed, its lines are dropped, and it closes. -/
def execRwc (slot : BitVec 5) (s : State) : Host.Outcome State Fault Refusal :=
  finish s (match s.closeSlot slot.toNat with
    | .error e => .error e
    | .ok s => .ok (s.done 8))

end Sys2Proof.Machine
end

