-- ==== Sys2Proof/Machine/Convoy.lean ====
section
/-! DEFINITION. Fetching (07 R139 to R141, 05 R98, 10 R170), convoys (02 R31, R32; 07 R144 to R150) and sloop.par
(02 R29, R30). -/

namespace Sys2Proof.Machine

/-! ### Fetching -/

/-- Fetch one parcel, through the core's instruction L1 (R140, R170). Log 43 (DEDUCED). -/
def State.fetchParcel (s : State) (a : Quad) : Except Stop (Parcel × State) :=
  match s.resolve a 2 .fetch .any with
  | .error e => .error e
  | .ok l =>
    let h := s.hart
    let c := s.core h.pkg h.die h.core
    let r := staleRead s.mem c.icache l.phys 2 s.free
    .ok (BitVec.ofNat 16 r.1, (s.setCore { c with icache := r.2 }).drawn)

/-- Fetch n parcels. -/
def State.fetchMore (s : State) (a : Quad) : Nat → Except Stop (List Parcel × State)
  | 0 => .ok ([], s)
  | n + 1 =>
    match s.fetchParcel a with
    | .error e => .error e
    | .ok (p, s) =>
      match s.fetchMore (a + 2) n with
      | .error e => .error e
      | .ok (ps, s) => .ok (p :: ps, s)

/-- Fetch the word at an address, whole; none where parcel 0 has a reserved length. -/
def State.fetchWord (s : State) (a : Quad) : Except Stop (Quad × Option Code × State) :=
  match s.fetchParcel a with
  | .error e => .error e
  | .ok (p, s) =>
    match lengthOf p with
    | none => .ok (p.setWidth 64, none, s)
    | some n =>
      match s.fetchMore (a + 2) (n - 1) with
      | .error e => .error e
      | .ok (ps, s) =>
        match nextCode (p :: ps) with
        | .error _ => .ok (p.setWidth 64, none, s)
        | .ok (c, _) => .ok (c.toQuad, some c, s)

/-! ### Members -/

/-- What a vector instruction does as a convoy member. -/
def memberRun : Instr → Option (State → Except Stop State)
  | .vadd o => some (vecVadd o)
  | .vsub o => some (vecVsub o)
  | .vmul o => some (vecVmul o)
  | .vmulh o => some (vecVmulh o)
  | .vdiv o => some (vecVdiv o)
  | .vrem o => some (vecVrem o)
  | .vmin o => some (vecVmin o)
  | .vmax o => some (vecVmax o)
  | .vand o => some (vecVand o)
  | .vor o => some (vecVor o)
  | .vxor o => some (vecVxor o)
  | .vsll o => some (vecVsll o)
  | .vsrl o => some (vecVsrl o)
  | .vsra o => some (vecVsra o)
  | .vpopc o => some (vecVpopc o)
  | .vclz o => some (vecVclz o)
  | .vabs o => some (vecVabs o)
  | .vneg o => some (vecVneg o)
  | .vsqrt o => some (vecVsqrt o)
  | .vrcp o => some (vecVrcp o)
  | .vrsqrt o => some (vecVrsqrt o)
  | .vexp2 o => some (vecVexp2 o)
  | .vlog2 o => some (vecVlog2 o)
  | .vclass o => some (vecVclass o)
  | .vfma o => some (vecVfma o)
  | .vfms o => some (vecVfms o)
  | .vnfma o => some (vecVnfma o)
  | .vcvt t o => some (vecVcvt t o)
  | .vcmp c md va vb mask => some (vecVcmp c md va vb mask)
  | .vsel vd va vb mask => some (vecVsel vd va vb mask)
  | .mand md ma mb => some (vecMand md ma mb)
  | .mor md ma mb => some (vecMor md ma mb)
  | .mxor md ma mb => some (vecMxor md ma mb)
  | .mandn md ma mb => some (vecMandn md ma mb)
  | .mnot md ma => some (vecMnot md ma)
  | .mpop sd ma mask => some (vecMpop sd ma mask)
  | .mfirst sd ma mask => some (vecMfirst sd ma mask)
  | .mtolist md ma => some (vecMtolist md ma)
  | .mtobit md ma => some (vecMtobit md ma)
  | .mfromx md va mask => some (vecMfromx md va mask)
  | .vidx vd start stp mask => some (vecVidx vd start stp mask)
  | .vsplat vd sa mask => some (vecVsplat vd sa mask)
  | .vmv vd va mask => some (vecVmv vd va mask)
  | .vtag t vd va => some (vecVtag t vd va)
  | .vmvx sd va sb => some (vecVmvx sd va sb)
  | .vmvs vd sa mask => some (vecVmvs vd sa mask)
  | .vslideup vd va sb sc mask => some (vecVslideup vd va sb sc mask)
  | .vslidedn vd va sb sc mask => some (vecVslidedn vd va sb sc mask)
  | .vperm vd va vb mask => some (vecVperm vd va vb mask)
  | .vcompress vd va mask => some (vecVcompress vd va mask)
  | .vexpand vd va mask => some (vecVexpand vd va mask)
  | .vrev vd va mask => some (vecVrev vd va mask)
  | .vred o => some (vecVred o)
  | .vscan o => some (vecVscan o)
  | .vsegred op vd va mc mask rm => some (vecVsegred op vd va mc mask rm)
  | .vld o => some (vecVld o)
  | .vldff o => some (vecVldff o)
  | .vst o => some (vecVst o)
  | .vchg o => some (vecVchg o)
  | .vamo op o => some (vecVamo op o)
  | .vamoR op o => some (vecVamoR op o)
  | .vwait va => some (vecVwait va)
  | .vpres md va => some (vecVpres md va)
  | .svins md va mask => some (vecSvins md va mask)
  | .svlook vd mc va mask => some (vecSvlook vd mc va mask)
  | .svacc md va vb mask => some (vecSvacc md va vb mask)
  | .svdrn vd vb sa mask => some (vecSvdrn vd vb sa mask)
  | .svclr sa sb => some (vecSvclr sa sb)
  | .mzero t => some (vecMzero t)
  | .mop t va vb mask rm => some (vecMop t va vb mask rm)
  | .mopn t va vb mask rm => some (vecMopn t va vb mask rm)
  | .mrd col vd t sa mask => some (vecMrd col vd t sa mask)
  | .mwr col t va sb mask => some (vecMwr col t va sb mask)
  | .mst q t sa sb mask k rm sat => some (vecMst q t sa sb mask k rm sat)
  | .vsend nb f va k => some (vecVsend nb f va k)
  | .vrecv nb vd f k => some (vecVrecv nb vd f k)
  | .collectiveVst o => some (vecCollectiveVst o)
  | .collectiveVld o => some (vecCollectiveVld o)
  | _ => none

/-- A vector instruction as a convoy member: what it does, and the registers that it reads and writes. -/
structure Member extends Touch where
  run : State → Except Stop State

/-- The member that an instruction is; none for one that is no vector instruction. -/
def memberFor (h : Hart) (i : Instr) : Option Member :=
  match Instr.touch h.q i, memberRun i with
  | some t, some r => some { t with run := r }
  | _, _ => none

/-- Unit codes that a header may name for a vector major, F being fn12 bit 4 (R145, R146, R148). -/
def unitsOf (major : BitVec 6) (f : Bool) : List Nat :=
  let m := major.toNat
  if m = 0x03 ∨ m = 0x05 ∨ (0x08 ≤ m ∧ m ≤ 0x0E) then [0]
  else if m ≤ 0x07 then [0, 1]
  else if m ≤ 0x12 ∨ m = 0x14 then [1]
  else if m = 0x13 ∨ (0x15 ≤ m ∧ m ≤ 0x17) ∨ m = 0x1A ∨ m = 0x27 then [0]
  else if m ≤ 0x20 then [2]
  else if m = 0x21 then (if f then [6] else [3])
  else if m = 0x23 then (if f then [6] else [4])
  else if m = 0x22 ∨ m = 0x24 ∨ m = 0x26 then [3]
  else if m = 0x25 ∨ m = 0x2C then [4]
  else if m = 0x28 then [7]
  else if m = 0x2A ∨ m = 0x2B then [5]
  else if m = 0x2D then [6]
  else []

/-! ### The checks of R149 -/

/-- Illegal convoy: tinfo holds the header and the 32 bits after it, as far as they were fetched (R331). -/
def convoyTrap (s : State) (header : Word) (after : Nat) : Stop :=
  .trap { cause := 0x02, tinfo := header.setWidth 64 ||| (BitVec.ofNat 64 after <<< 32) } s

/-- Unit code of member i. -/
def unitCode (units : BitVec 18) (i : Nat) : Nat := (units.extractLsb' (3 * i) 3).toNat

def repeats : List Nat → Bool
  | [] => false
  | x :: r => r.contains x || repeats r

/-- Check 5: fetch n members from an address; `after` is what follows the header as far as fetched. -/
def State.fetchMembers (s : State) (header : Word) (units : BitVec 18) : Nat → Nat → Quad → Nat →
    Except Stop (List Quad × State × Nat)
  | 0, _, _, after => .ok ([], s, after)
  | n + 1, i, a, after =>
    match s.fetchParcel a with
    | .error e => .error e
    | .ok (p, s) =>
      let after := if i = 0 then p.toNat else after
      if p.extractLsb' 0 7 ≠ 0x73#7 then .error (convoyTrap s header after)
      else
        match s.fetchMore (a + 2) 3 with
        | .error e => .error e
        | .ok (ps, s) =>
          let w : Quad := BitVec.ofNat 64 ((p :: ps).foldr (fun x acc => x.toNat + 65536 * acc) 0)
          let after := if i = 0 then fieldOf w 0 32 else after
          if (unitsOf (w.extractLsb' 7 6) (bitOf w 56)).contains (unitCode units i) then
            match s.fetchMembers header units n (i + 1) (a + 8) after with
            | .error e => .error e
            | .ok (ws, s, after) => .ok (w :: ws, s, after)
          else .error (convoyTrap s header after)

/-- Check 6 of R141 of a vector instruction (R23, R26, R59): its unit, its register names, its 64-bit tags, its mode. -/
def State.check6 (s : State) (i : Instr) : Except Stop Rnd :=
  let tag := s.hart.tagOf
  match i with
  | .vadd o | .vsub o | .vmul o | .vdiv o => s.preBin o true
  | .vmulh o | .vrem o | .vmin o | .vmax o | .vand o | .vor o | .vxor o | .vsll o | .vsrl o | .vsra o => s.preBin o false
  | .vpopc o | .vclz o | .vabs o | .vneg o => s.preUn o noMode id
  | .vsqrt o | .vrcp o | .vrsqrt o | .vexp2 o | .vlog2 o => s.preUn o Tag.isF id
  | .vclass o => s.preUn o noMode fun t => if t.wide then .n64 else .n32
  | .vcvt t o => s.preUn o (fun u => (u.isF || t.isF) && u != t) fun _ => t
  | .vfma o | .vfms o | .vnfma o => s.preTern o
  | .vcmp _ _ va vb _ => s.preRegs (va :: vsrcVregs vb) (some (tag va))
  | .vsel vd va vb _ => s.preRegs [vd, va, vb] (some (tag va))
  | .vmv vd va _ | .vexpand vd va _ | .vrev vd va _ | .vcompress vd va _ | .vslideup vd va .. | .vslidedn vd va .. =>
    s.preRegs [vd, va] (some (tag va))
  | .vperm vd va vb _ => s.preRegs [vd, va, vb] (some (tag va))
  | .vsplat vd .. => s.preRegs [vd] (some (tag vd))
  | .vtag t vd va => s.preRegs [vd, va] (some t)
  | .mfromx _ va _ => s.preRegs [va] (some (tag va))
  | .vred o | .vscan o => s.preRed o.op o.va (o.vd :: o.va :: o.init.toList) o.rm
  | .vsegred op vd va _ _ rm => s.preRed op va [vd, va] rm
  | .vld o | .vldff o => s.preLoad o
  | .vst o => s.preStore o
  | .vchg o => s.preChange o
  | .vamo _ o => s.preAtomic o none
  | .vamoR _ o => s.preAtomic o (some o.dst)
  | .svins _ va _ => s.preRegs [va] (some (tag va))
  | .svacc _ va vb _ => s.checks6 [va, vb] [tag va, tag vb] (.ok .rne)
  | .svlook vd _ va _ => s.checks6 [vd, va] [tag va, .n64] (.ok .rne)
  | .svdrn vd vb .. => s.preRegs [vd, vb] (some .n64)
  | .mop _ va vb _ rm | .mopn _ va vb _ rm => s.preMop va vb rm
  | .mst q _ _ _ _ _ rm _ => s.preMst q rm
  | .vwait r | .vpres _ r | .vmvx _ r _ | .vmvs r .. | .vidx r .. | .mwr _ _ r .. | .mrd _ r .. | .vsend _ _ r _
  | .vrecv _ r .. => s.preRegs [r] none
  | .collectiveVst o | .collectiveVld o => s.preRegs [o.reg] none
  | _ => s.preRegs [] none

/-- Check 6 on one member: checks 3 to 6 of R141. Log 41 (DEDUCED). -/
def State.checkMember (s : State) (w : Quad) : Except Stop Member :=
  let s := s.mapHart fun h => { h with ir := w }
  match decodeCand (.w64 w) with
  | .ok (.i x) =>
    match memberFor s.hart x with
    | none => .error (illegal s)
    | some m =>
      match s.check6 x with
      | .error e => .error e
      | .ok _ => .ok m
  | _ => .error (illegal s)

/-- The members that check 6 passes, each with the tags and vlast that those before it leave at issue. -/
def State.checkMembers (s : State) : List Quad → Except Stop (List (Quad × Member))
  | [] => .ok []
  | w :: ws =>
    match s.checkMember w with
    | .error e => .error e
    | .ok m =>
      let t := match s.issueOnly m.run with
        | .ok x => x.st
        | .error _ => s
      match t.checkMembers ws with
      | .error e => .error e
      | .ok ms => .ok ((w, m) :: ms)

/-- A trap of a check on a member is taken in the state of the header: nothing has executed. -/
def Stop.within (s : State) : Stop → Stop
  | .trap t _ => .trap t s
  | e => e

/-- Checks 3 to 6 on the header at address a: its members, what follows it, and the state that fetched
them. -/
def State.checkConvoy (s : State) (a : Quad) (header : Word) (cnt : BitVec 3) (units : BitVec 18) :
    Except Stop (List (Quad × Member) × State × Nat) :=
  let n := cnt.toNat + 2
  if 5 ≤ cnt.toNat then .error (convoyTrap s header 0)
  else if repeats ((List.range n).map (unitCode units)) then .error (convoyTrap s header 0)
  else
    match s.fetchMembers header units n 0 (a + 4) 0 with
    | .error e => .error e
    | .ok (ws, s, after) =>
      match s.checkMembers ws with
      | .error e => .error (e.within s)
      | .ok ms => .ok (ms, s, after)

/-! ### Running a convoy -/

/-- The members issue one after another: the first precise trap that one takes; no member has then executed (R186). -/
def State.issueAllOnly (s : State) : List (Quad × Member) → Except Stop Unit
  | [] => .ok ()
  | (w, m) :: rest =>
    match (s.mapHart fun h => { h with ir := w }).issueOnly m.run with
    | .error e => .error e
    | .ok x => x.st.nextSeq.issueAllOnly rest

/-- The low n bits. -/
def lowElems (n : Nat) : BitVec 65536 := BitVec.ofNat 65536 (2 ^ n - 1)

/-- A member behind one that a vector fault has stopped: it has executed up to n element groups, and is in the queue at the
group after them (R33, R34). Those that execute group by group are the element-wise ones and vst; of the others no group has
executed. -/
def State.partMember (s : State) (header : Quad) (n : Nat) (w : Quad) (m : Member) : State × Nat :=
  let s := s.mapHart fun h => { h with ir := w }
  let entry := s.hart.entryOf w header
  let put := fun (t : State) (e : Frozen) => (t.mapHart fun h => { h with frozen := insertEntry e h.frozen }).nextSeq
  let none_ := match s.issueOnly m.run with
    | .ok x => (put x.st { entry with collSeq := x.collSeq }, 0)
    | .error _ => (put s entry, 0)
  match wordInstr w with
  | some (.vst o) =>
    if n = 0 then none_
    else
      let vl := s.hart.csr.vl
      match vecVst { o with nb := false } (s.mapHart fun h => { h with csr := { h.csr with vl := BitVec.ofNat 32 (min h.vl (8 * n)) } }) with
      | .ok t => (put (t.mapHart fun h => { h with csr := { h.csr with vl := vl } }) { entry with start := min vl.toNat (8 * n) }, n)
      | .error _ => none_
  | some x =>
    if n = 0 ∨ !Instr.eachwise x then none_
    else
      match m.run (s.mapHart fun h => { h with doneElems := ~~~ (lowElems (8 * n)) }) with
      | .ok t => (put (t.mapHart fun h => { h with doneElems := 0 }) { entry with doneElems := lowElems (8 * n) }, n)
      | .error _ => none_
  | none => none_

/-- The members behind one that stopped: `before` holds the word, the registers and the element groups complete of each that
has not finished. A member has executed, by a free choice, no more groups than each of those that it shares a register
with, or whose accesses it follows (R32, R33). -/
def State.partMembers (s : State) (header : Quad) (before : List (Quad × Touch × Nat)) : List (Quad × Member) → State
  | [] => s
  | (w, m) :: rest =>
    let g := s.hart.group
    let limit := before.foldl (fun n p =>
      if Touch.clashes g g p.2.1 m.toTouch || (!quietWord p.1 && !quietWord w) then min n p.2.2 else n) ((s.hart.vl + 7) / 8)
    let r := s.drawn.partMember header ((Config.value s.free).toNat % (limit + 1)) w m
    r.1.partMembers header ((w, m.toTouch, r.2) :: before) rest

/-- The members one after another (R32); the first may wait, and the convoy with it. A vector fault freezes the failing
member and those after it. Log 22 (DESIGN CHOICE). -/
def State.runMembers (s : State) (header after : Quad) (later : Bool) : List (Quad × Member) → Except Stop State
  | [] => .ok s
  | (w, m) :: rest =>
    let s := s.mapHart fun h => { h with ir := w }
    match s.issueVector w header after later m.run with
    | .ok s' => s'.runMembers header after true rest
    | .error (.trap t s') =>
      if t.prec then .error (.trap t s')
      else
        let at_ := match s'.hart.frozen.find? (·.seq == s.hart.seq) with
          | some e => e.start / 8
          | none => 0
        .error (.trap t (s'.nextSeq.partMembers header [(w, m.toTouch, at_)] rest))
    | .error e => .error e

/-- A convoy (R31, R149, R150): it issues as one unit, with the entries of the matrix queue that its members take (R242). -/
def execConvoyHeader (cnt : BitVec 3) (units : BitVec 18) (s : State) : Host.Outcome State Fault Refusal :=
  let header : Word := s.hart.ir.setWidth 32
  let pc := s.hart.pc
  match s.checkConvoy pc header cnt units with
  | .error e => finish s (.error e)
  | .ok (ms, s, _) =>
    let len := 4 + 8 * ms.length
    finish s (
      match s.settleS (ms.map (·.1)) with
      | .error e => .error e
      | .ok s =>
        let matrix := (ms.filter fun m => matrixWord m.1).length
        match s.issueAllOnly ms with
        | .error e => .error (e.within s)
        | .ok _ =>
          if 0 < matrix ∧ matrixEntries < s.matrixUsed s.hart + matrix then .error (.hold .matrix)
          else
          match s.runMembers pc (pc + BitVec.ofNat 64 len) false ms with
          | .ok s' => .ok (s'.done len)
          | .error (.trap t s') => .error (.trap t (if t.prec then s else s'))
          | .error e => .error e)

/-! ### sloop.par -/

/-- No register is read that a member writes and no earlier member has written (R29). -/
def parOk : List Member → List Member → Bool
  | _, [] => true
  | before, m :: rest =>
    let all := before ++ m :: rest
    let fine := fun {α : Type} [BEq α] (reads : Member → List α) (writes : Member → List α) =>
      (reads m).all fun r => !(all.any fun x => (writes x).contains r) || before.any fun x => (writes x).contains r
    !m.sw && fine (·.vr) (·.vw) && (fine (fun m => m.mr.filter (· != 0)) (·.mw)) && fine (·.tr) (·.tw)
      && parOk (before ++ [m]) rest

/-- sloop.par: the checks of R29 in order, then as sloop. The strips then run one after another (R30).
Log 112 (DEDUCED). A header that fails check 2 is the word that tinfo holds: log 41 (DEDUCED). -/
def execSloopPar (a : SReg) (off : BitVec 12) (s : State) : Host.Outcome State Fault Refusal :=
  let at_ := s.hart.pc + 4
  finish s (match s.fetchWord at_ with
  | .error e => .error e
  | .ok (q, code, s) =>
    if q.extractLsb' 0 7 ≠ 0x77#7 ∨ code.isNone then .error (illegal s)
    else
      let header : Word := q.setWidth 32
      let cnt : BitVec 3 := q.extractLsb' 7 3
      let units : BitVec 18 := q.extractLsb' 10 18
      if !(Instr.convoyHeader cnt units).wellFormed ∨ fieldOf q 28 4 ≠ 0 then
        .error (.trap { cause := 0x01, tinfo := header.setWidth 64 } s)
      else
        match s.checkConvoy at_ header cnt units with
        | .error e => .error e
        | .ok (ms, s, after) =>
          match s.fetchMore (at_ + BitVec.ofNat 64 (4 + 8 * ms.length)) 2 with
          | .error e => .error e
          | .ok (ps, s) =>
            let w := ps.foldr (fun (x : Parcel) acc => x.toNat + 65536 * acc) 0
            if w % 128 ≠ 0x67 ∨ w / 2 ^ 17 % 8 ≠ 4 then .error (illegal s)
            else if !parOk [] (ms.map (·.2)) then .error (convoyTrap s header after)
            else
              .ok ((s.startLoop a off).mapHart fun h => { h with par := if h.csr.vl = 0 then none else some h.seq }))

end Sys2Proof.Machine
end

