-- ==== Sys2Proof/Machine/Mem.lean ====
section
/-! DEFINITION. Scalar loads and stores, ordering, atomics, waiting on memory (08 R168 to R173) and the
compact forms c.ld and c.st (07 R152). -/

namespace Sys2Proof.Machine

/-! ### Shared operations -/

/-- The destination of a load through an aperture address is served by the window (R99). -/
def loadOp (l : Loc) (const : Bool) (dst : LoadDst) : AccOp :=
  match l.slot with
  | some i => .loadWindow i dst
  | none => if const then .loadConst dst else .load dst

/-- Issue a scalar access that returns a value to sd: it takes a tag (R124), and sd's taint is the tag
and the taint of sa (R125). -/
def State.issueTagged (s : State) (l : Loc) (size : Nat) (op : AccOp) (d : SReg) (addrTaint held : TaintSet) : State :=
  let (h, t) := s.hart.allocTag
  let h := if d = 0 then h else { h with st := h.st.set d.toNat (tagBit t ||| addrTaint) }
  ((s.setHart h).issue { seq := h.seq, queue := 0, slice := l.slice, addr := l.phys, size := size, op := op,
                         held := held, tag := some t, via := l.via, shown := l.shown }).nextSeq

/-- Check an address that a scalar instruction reads: checks 1 to 9, then its turn behind the entries of the queue and the
commands that write it (R118, R134), then check 10. Where the granule is poisoned and earlier accesses of the hart to it
are still to be performed, they are performed first, so that the trap is precise (R88, R109). -/
def State.resolveRead (s : State) (a : Quad) (n : Nat) (k : AccKind) (rule : SpaceRule) : Except Stop (Loc × State) :=
  match s.check19 s.hart s.hart.asid a n k rule with
  | .error e => .error (s.raise s.hart k e)
  | .ok l =>
    match s.awaitTurn (s.hart.canon a) n (k == .atomic) with
    | .error e => .error e
    | .ok _ =>
      if !s.poisoned l.phys then .ok (l, s)
      else
        let t := s.drain
        match t.resolve a n k rule with
        | .error e => .error e
        | .ok l => .ok (l, t)

/-- ld and ldc (R168): n bytes from sa + offset. -/
def State.load (s : State) (len n : Nat) (signed const : Bool) (d a : SReg) (off : Quad) :
    Host.Outcome State Fault Refusal :=
  let s := s.needS [d, a]
  let addr := s.hart.getS a + off
  finish s (match s.resolveRead addr n .read (if const then .own else .any) with
    | .error e => .error e
    | .ok (l, s) =>
        .ok ((s.issueTagged l n (loadOp l const (.s d signed)) d (s.hart.taintS a) (s.hart.taintS a)).done len))

/-- st (R168): the low n bytes of a register to sa + offset, held by the taint of both (R127). -/
def State.storeReg (s : State) (len n : Nat) (data a : SReg) (off : Quad) : Host.Outcome State Fault Refusal :=
  let s := s.needS [data, a]
  let addr := s.hart.getS a + off
  finish s (match s.resolve addr n .write .any with
    | .error e => .error e
    | .ok l =>
      match s.awaitTurn (s.hart.canon addr) n true with
      | .error e => .error e
      | .ok _ =>
        .ok (((s.issue { seq := s.hart.seq, queue := 0, slice := l.slice, addr := l.phys, size := n,
                         op := .store ((s.hart.getS data).toNat % 256 ^ n),
                         held := s.hart.taintS a ||| s.hart.taintS data, tag := none, via := l.via, shown := l.shown }).nextSeq).done len))

/-- amo and cas (R171): one access at the home of s[sa]. -/
def State.atomic (s : State) (w : AmoWidth) (d a b : SReg) (op : Hart → AccOp) (held : Hart → TaintSet) :
    Host.Outcome State Fault Refusal :=
  let n := match w with | .w32 => 4 | .w64 => 8
  let s := s.needS [d, a, b]
  let addr := s.hart.getS a
  finish s (match s.resolveRead addr n .atomic .any with
    | .error e => .error e
    | .ok (l, s) => .ok ((s.issueTagged l n (op s.hart) d (s.hart.taintS a) (held s.hart)).done 4))

def State.amo (s : State) (op : AmoOp) (w : AmoWidth) (d a b : SReg) : Host.Outcome State Fault Refusal :=
  s.atomic w d a b (fun h => .amo op (h.getS b) d) (fun h => h.taintS a ||| h.taintS b)

/-- Bytes of a store width (R143). -/
def StWidth.size : StWidth → Nat
  | .b => 1 | .h => 2 | .w => 4 | .q => 8

/-- The home of a location, which keeps its wait list (R93, R95, R173). -/
def homeOf (phys : Nat) : Nat :=
  if phys < 2 ^ 61 then phys / 2 ^ 51 * 48 + Config.l2Slice (lineOf phys) % 48 else 2 ^ 40 + phys / 2 ^ 44

/-! ### Loads and stores (R168) -/

/-- ld.b: 1 bytes, zero-extended. -/
def execLdB (d a : SReg) (imm : BitVec 12) (s : State) : Host.Outcome State Fault Refusal :=
  s.load 4 1 false false d a (imm.signExtend 64)

/-- ld.h: 2 bytes, zero-extended. -/
def execLdH (d a : SReg) (imm : BitVec 12) (s : State) : Host.Outcome State Fault Refusal :=
  s.load 4 2 false false d a (imm.signExtend 64)

/-- ld.w: 4 bytes, zero-extended. -/
def execLdW (d a : SReg) (imm : BitVec 12) (s : State) : Host.Outcome State Fault Refusal :=
  s.load 4 4 false false d a (imm.signExtend 64)

/-- ld: 8 bytes, zero-extended. -/
def execLd (d a : SReg) (imm : BitVec 12) (s : State) : Host.Outcome State Fault Refusal :=
  s.load 4 8 false false d a (imm.signExtend 64)

/-- ld.bi: 1 bytes, sign-extended. -/
def execLdBi (d a : SReg) (imm : BitVec 12) (s : State) : Host.Outcome State Fault Refusal :=
  s.load 4 1 true false d a (imm.signExtend 64)

/-- ld.hi: 2 bytes, sign-extended. -/
def execLdHi (d a : SReg) (imm : BitVec 12) (s : State) : Host.Outcome State Fault Refusal :=
  s.load 4 2 true false d a (imm.signExtend 64)

/-- ld.wi: 4 bytes, sign-extended. -/
def execLdWi (d a : SReg) (imm : BitVec 12) (s : State) : Host.Outcome State Fault Refusal :=
  s.load 4 4 true false d a (imm.signExtend 64)

/-- st.b: the low 1 bytes of the data register. -/
def execStB (d a : SReg) (imm : BitVec 12) (s : State) : Host.Outcome State Fault Refusal :=
  s.storeReg 4 1 d a (imm.signExtend 64)

/-- st.h: the low 2 bytes of the data register. -/
def execStH (d a : SReg) (imm : BitVec 12) (s : State) : Host.Outcome State Fault Refusal :=
  s.storeReg 4 2 d a (imm.signExtend 64)

/-- st.w: the low 4 bytes of the data register. -/
def execStW (d a : SReg) (imm : BitVec 12) (s : State) : Host.Outcome State Fault Refusal :=
  s.storeReg 4 4 d a (imm.signExtend 64)

/-- st: the low 8 bytes of the data register. -/
def execSt (d a : SReg) (imm : BitVec 12) (s : State) : Host.Outcome State Fault Refusal :=
  s.storeReg 4 8 d a (imm.signExtend 64)

/-- ldc.b: 1 bytes, zero-extended, through the constant cache (R98). -/
def execLdcB (d a : SReg) (imm : BitVec 12) (s : State) : Host.Outcome State Fault Refusal :=
  s.load 4 1 false true d a (imm.signExtend 64)

/-- ldc.h: 2 bytes, zero-extended, through the constant cache (R98). -/
def execLdcH (d a : SReg) (imm : BitVec 12) (s : State) : Host.Outcome State Fault Refusal :=
  s.load 4 2 false true d a (imm.signExtend 64)

/-- ldc.w: 4 bytes, zero-extended, through the constant cache (R98). -/
def execLdcW (d a : SReg) (imm : BitVec 12) (s : State) : Host.Outcome State Fault Refusal :=
  s.load 4 4 false true d a (imm.signExtend 64)

/-- ldc: 8 bytes, zero-extended, through the constant cache (R98). -/
def execLdc (d a : SReg) (imm : BitVec 12) (s : State) : Host.Outcome State Fault Refusal :=
  s.load 4 8 false true d a (imm.signExtend 64)

/-- ldc.bi: 1 bytes, sign-extended, through the constant cache (R98). -/
def execLdcBi (d a : SReg) (imm : BitVec 12) (s : State) : Host.Outcome State Fault Refusal :=
  s.load 4 1 true true d a (imm.signExtend 64)

/-- ldc.hi: 2 bytes, sign-extended, through the constant cache (R98). -/
def execLdcHi (d a : SReg) (imm : BitVec 12) (s : State) : Host.Outcome State Fault Refusal :=
  s.load 4 2 true true d a (imm.signExtend 64)

/-- ldc.wi: 4 bytes, sign-extended, through the constant cache (R98). -/
def execLdcWi (d a : SReg) (imm : BitVec 12) (s : State) : Host.Outcome State Fault Refusal :=
  s.load 4 4 true true d a (imm.signExtend 64)

/-- c.ld: as ld (R152). -/
def execCLd (d a : BitVec 3) (off : BitVec 5) (s : State) : Host.Outcome State Fault Refusal :=
  s.load 2 8 false false (sreg8 d) (sreg8 a) (8 * off.setWidth 64)

/-- c.st: as st (R152). -/
def execCSt (b a : BitVec 3) (off : BitVec 5) (s : State) : Host.Outcome State Fault Refusal :=
  s.storeReg 2 8 (sreg8 b) (sreg8 a) (8 * off.setWidth 64)

/-! ### Ordering (R169, R170) -/

/-- lsync (R121). -/
def execLsync (sc : Scope) (s : State) : Host.Outcome State Fault Refusal :=
  finish s (match s.lsync sc with
    | .error e => .error e
    | .ok s => .ok (s.done 4))

/-- st.rel: lsync, then a store (R122, R169). -/
def execStRel (wd : StWidth) (sc : Scope) (a b : SReg) (s : State) : Host.Outcome State Fault Refusal :=
  match s.lsync sc with
  | .error e => finish s (.error e)
  | .ok s => s.storeReg 4 (StWidth.size wd) b a 0

/-- An entry of the queue that is not frozen has still to write memory. -/
def Hart.queueStores (h : Hart) : Bool := h.thaw && h.frozen.any fun e => e.ranges.any (·.2)

/-- ifence: earlier stores are performed, and the core's instruction L1 is emptied; it waits for no load (R170). -/
def execIfence  (s : State) : Host.Outcome State Fault Refusal :=
  let t := s.drainUntil (·.op.writes)
  if s.hart.queueStores || t.hart.pend.any (·.op.writes) then .next (s.holdHart .sync)
  else
    let c := t.core t.hart.pkg t.hart.die t.hart.core
    .next ((t.setCore { c with icache := [] }).done 4)

/-! ### Atomics (R171) -/

/-- amo.add (R171). -/
def execAmoAdd (w : AmoWidth) (d a b : SReg) (s : State) : Host.Outcome State Fault Refusal :=
  s.amo .add w d a b

/-- amo.and (R171). -/
def execAmoAnd (w : AmoWidth) (d a b : SReg) (s : State) : Host.Outcome State Fault Refusal :=
  s.amo .and w d a b

/-- amo.or (R171). -/
def execAmoOr (w : AmoWidth) (d a b : SReg) (s : State) : Host.Outcome State Fault Refusal :=
  s.amo .or w d a b

/-- amo.xor (R171). -/
def execAmoXor (w : AmoWidth) (d a b : SReg) (s : State) : Host.Outcome State Fault Refusal :=
  s.amo .xor w d a b

/-- amo.min (R171). -/
def execAmoMin (w : AmoWidth) (d a b : SReg) (s : State) : Host.Outcome State Fault Refusal :=
  s.amo .min w d a b

/-- amo.max (R171). -/
def execAmoMax (w : AmoWidth) (d a b : SReg) (s : State) : Host.Outcome State Fault Refusal :=
  s.amo .max w d a b

/-- amo.minN (R171). -/
def execAmoMinN (w : AmoWidth) (d a b : SReg) (s : State) : Host.Outcome State Fault Refusal :=
  s.amo .minN w d a b

/-- amo.maxN (R171). -/
def execAmoMaxN (w : AmoWidth) (d a b : SReg) (s : State) : Host.Outcome State Fault Refusal :=
  s.amo .maxN w d a b

/-- amo.swap (R171). -/
def execAmoSwap (w : AmoWidth) (d a b : SReg) (s : State) : Host.Outcome State Fault Refusal :=
  s.amo .swap w d a b

/-- amo.fadd (R171). -/
def execAmoFadd (w : AmoWidth) (d a b : SReg) (s : State) : Host.Outcome State Fault Refusal :=
  s.amo .fadd w d a b

/-- cas: compares with sd, writes sb (R171). -/
def execCas (w : AmoWidth) (d a b : SReg) (s : State) : Host.Outcome State Fault Refusal :=
  s.atomic w d a b (fun h => .cas (h.getS d) (h.getS b) d)
    (fun h => h.taintS a ||| h.taintS b ||| h.taintS d)

/-! ### Waiting on memory (R172, R173) -/

/-- waita: park while the quad equals sb. -/
def execWaita (d a b : SReg) (s : State) : Host.Outcome State Fault Refusal :=
  match s.lsync .g with
  | .error e => finish s (.error e)
  | .ok s =>
    let addr := s.hart.getS a
    finish s (match s.resolve addr 8 .read .home with
      | .error e => .error e
      | .ok l =>
        let home := homeOf l.phys
        let answer := fun (c : Quad) => (.ok ((s.mapHart (·.setS d c 0)).done 4) : Except Stop State)
        if readQuad s.mem l.phys ≠ s.hart.getS b then answer 1
        else if Config.waitListEntries ≤ (s.waiters.filter (·.home == home)).length then answer 2
        else
          match s.quiesce with
          | .error e => .error e
          | .ok s =>
            .ok (({ s with waiters := s.waiters ++ [⟨home, lineOf l.phys, s.hart.ref⟩] } : State).park
              (.waita (lineOf l.phys)) d (s.hart.pc + 4)))

/-- wakea: wake up to sb waiters of the line, all when sb is 0, after every earlier store and atomic of the hart to the line
(R173). It reads no data: check 10 of R88 is not made. -/
def execWakea (d a b : SReg) (s : State) : Host.Outcome State Fault Refusal :=
  let s := s.needS [d, a, b]
  finish s (match s.check19 s.hart s.hart.asid (s.hart.getS a) 8 .read .home with
    | .error e => .error (s.raise s.hart .read e)
    | .ok l =>
      match s.settle (s.hart.taintS a ||| s.hart.taintS b) with
      | .error e => .error e
      | .ok s =>
        let at_ := s.hart.canon (s.hart.getS a)
        let s := s.drainUntil fun x => x.op.writes && meets (64 * lineOf l.phys) 64 x.addr x.size
        if s.hart.queueTouches (at_ / 64 * 64) 64 false
            || s.hart.pend.any (fun x => x.op.writes && meets (64 * lineOf l.phys) 64 x.addr x.size) then .error (.hold .collective) else
        let r := s.wakeLine (lineOf l.phys) (s.hart.getS b).toNat
        .ok ((r.1.mapHart (·.setS d (BitVec.ofNat 64 r.2) 0)).done 4))

end Sys2Proof.Machine
end

