-- ==== Sys2Proof/Machine/Gang.lean ====
section
/-! DEFINITION. The gang instructions (02 R40 to R44, 08 R177 to R183), and the scheduler tables they read
(19 R363, R365, R368). -/

namespace Sys2Proof.Machine

/-! ### The scheduler tables (R363 to R365) -/

/-- A quad of the scheduler tables of a package; zero while it has none. -/
def State.schedQuad (s : State) (pkg off : Nat) : Quad :=
  match s.blockBase pkg 1 with
  | none => 0
  | some b => readQuad s.mem (b + off)

def State.setSchedQuad (s : State) (pkg off : Nat) (v : Quad) : State :=
  match s.blockBase pkg 1 with
  | none => s
  | some b => { s with mem := writeQuad s.mem (b + off) v }

/-- Quad i of context block c, and of the descriptor of queue q. -/
def State.ctxQuad (s : State) (pkg c i : Nat) : Quad := s.schedQuad pkg (448 + 64 * c + 8 * i)
def State.queueQuad (s : State) (pkg q i : Nat) : Quad := s.schedQuad pkg (16832 + 64 * q + 8 * i)
def State.setQueueQuad (s : State) (pkg q i : Nat) (v : Quad) : State := s.setSchedQuad pkg (16832 + 64 * q + 8 * i) v

/-- A queue descriptor (R365). -/
structure QueueDesc where
  ring : Quad
  func : Nat
  ctx : Nat
  dies : Nat
  dev : Bool
  /-- EN with a LOG2 of 4 to 14. -/
  en : Bool
  log2 : Nat
  head : Word
  tail : Word
  deriving DecidableEq, Repr

def State.queueDesc (s : State) (pkg q : Nat) : QueueDesc :=
  let c := s.queueQuad pkg q 1
  let n := fieldOf c 0 5
  { ring := s.queueQuad pkg q 0, func := fieldOf c 24 5, ctx := fieldOf c 16 8, dies := fieldOf c 12 4, dev := bitOf c 7,
    en := bitOf c 6 && decide (4 ≤ n) && decide (n ≤ 14) && (s.blockBase pkg 1).isSome, log2 := n,
    head := (s.queueQuad pkg q 2).setWidth 32, tail := (s.queueQuad pkg q 3).setWidth 32 }

/-- The slot of a sequence number. -/
def QueueDesc.slot (d : QueueDesc) (seq : Word) : Quad := d.ring + BitVec.ofNat 64 (64 * (seq.toNat % 2 ^ d.log2))

/-- a is at or after b, in 32-bit sequence order. -/
def seqGe (a b : Word) : Bool := decide ((a - b).toNat < 2 ^ 31)

def State.ctxAsid (s : State) (pkg c : Nat) : BitVec 16 := (s.ctxQuad pkg c 1).setWidth 16

/-- The scheduler of a package as it translates for an asid (R365). Log 18 (DEDUCED). -/
def agentHart (pkg : Nat) (asid : BitVec 16) : Hart :=
  { ref := ⟨pkg, 3072⟩, status := .running, level := .s, sup := { asid := asid } }

/-- Quad 7 of the record in the slot of a sequence number: RSEQ and STATE (R369). -/
def State.recordMark (s : State) (pkg q : Nat) (seq : Word) : Option (Word × Nat) :=
  let d := s.queueDesc pkg q
  let asid := s.ctxAsid pkg d.ctx
  match s.check19 (agentHart pkg asid) asid (d.slot seq) 64 .read .own with
  | .ok l =>
    let x := readQuad s.mem (l.phys + 56)
    some (x.extractLsb' 32 32, fieldOf x 0 4)
  | .error _ => none

/-- The next sequence number of a queue that the scheduler will accept. -/
def State.nextAccept (s : State) (pkg q : Nat) : Word := assocGet (s.pack pkg).nexts q (s.queueDesc pkg q).head

/-! ### Gangs -/

/-- The placed harts of a gang. -/
def State.gangHarts (s : State) (pkg : Nat) (gang : Word) : List Hart :=
  s.harts.filter fun h => h.pkg == pkg && h.csr.gangid == gang

/-- Every live hart of a gang has arrived at gbar: all of them go on (R41, R181). -/
def State.releaseBarrier (s : State) (pkg : Nat) (gang : Word) : State :=
  let mine := s.gangHarts pkg gang
  let go := fun (h : Hart) =>
    if h.pkg = pkg ∧ h.csr.gangid = gang then { h.advance 4 with status := .running, atBarrier := false } else h
  if mine.isEmpty || !mine.all (·.atBarrier) then s
  else { s with hart := if s.hart.status = .vacant then s.hart else go s.hart, others := s.others.map go }

/-- What a gang holds of the core of a hart that ends: not the hart's lane groups and tiles, and nothing once the hart is
the gang's last there (R183, R376). Log 136 (DEDUCED). -/
def State.releaseCore (s : State) (h : Hart) : State :=
  match s.gangOf h with
  | none => s
  | some g =>
    let last := !(s.gangHarts h.pkg g.gangid).any fun x => x.ref != h.ref && x.die == h.die && x.core == h.core
    let give := fun (c : GangCore) =>
      if c.die = h.die ∧ c.core = h.core then
        { c with lanes := if last then 0 else c.lanes &&& ~~~ h.csr.lgrp, tiles := if last then 0 else c.tiles &&& ~~~ h.tmask }
      else c
    let p := s.pack h.pkg
    s.setPack { p with gangs := p.gangs.map fun x => if x.gangid = g.gangid then { x with cores := x.cores.map give } else x }

/-- A hart ends: its ranks leave their groups, and its partition, lane groups, tile registers and vault bytes
are released; no register changes (R183, R270, R289). -/
def State.endHart (s : State) : State :=
  let h := s.hart
  let s := s.releaseCore h
  let s := h.joined.toList.foldl (fun s j => match j with
    | some j => s.leaveRank j
    | none => s) s
  ({ s with
      waiters := s.waiters.filter (·.hart != h.ref),
      pkgs := s.pkgs.map fun p => { p with shoots := p.shoots.filter (·.hart != h.ref) },
      hart := {}, ended := { h with status := .vacant } :: s.ended.filter (·.ref != h.ref) } : State).releaseBarrier h.pkg h.csr.gangid

/-- What gexit does once nothing of the hart is in flight. Log 61 (DEDUCED). -/
def State.exitGang (s : State) : Except Stop State :=
  if s.hart.cmds.any Cmd.running || s.remoteBusy 4 || !s.hart.colls.isEmpty || s.hart.queued then .error (.hold .exit)
  else
    let t := s.drain
    if t.hart.pend.isEmpty && !t.hart.struck then .ok t.endHart else .error (.hold .exit)

/-- The gang of a hart and the gangs that launched it (R375). -/
def State.lineage (s : State) (h : Hart) : List Word :=
  h.csr.gangid :: (match s.gangOf h with
    | some g => g.ancestors
    | none => [])

/-! ### Writes before an instruction (R178, R179) -/

/-- A write of the hart's instructions below number n is not performed: an access, an engine command, an entry of the
queue, work that vqsave has carried off, a message, a post or a work request. -/
def State.writesLeft (s : State) (h : Hart) (n : Nat) : Bool :=
  h.pend.any (fun a => decide (a.seq < n) && a.op.writes) || h.trains.any (fun t => decide (t.2 < n))
    || h.cmds.any (fun c => decide (c.seq < n)) || h.owed.any (fun i => decide (i < n))
    || h.frozen.any (fun e => decide (e.seq < n) && !quietWord e.word)
    || s.messages.any (fun m => m.sender == h.ref && m.gang == h.csr.gangid && decide (m.instr < n) && !m.whole)
    || (s.pack h.pkg).posts.any (fun p => p.hart == h.ref && p.gang == h.csr.gangid && decide (p.seq < n))
    || (s.pack h.pkg).transport.requests.any fun r => r.hart == h.ref && r.gang == h.csr.gangid && decide (r.seq < n)

/-! ### glaunch (R178, R368) -/

/-- A write of the hart to bytes of a physical range has issued and is not performed. -/
def Hart.storesTo (h : Hart) (phys n : Nat) : Bool := h.pend.any fun x => x.op.writes && meets phys n x.addr x.size

/-- glaunch. The record's address is checked before the queue; the tags of its operands have retired, and earlier writes to
the record are performed, before it is read (R118, R127). Log 62 (DEDUCED). -/
def execGlaunch (d a b : SReg) (s : State) : Host.Outcome State Fault Refusal :=
  let s := (s.needS [d, a, b]).drain
  finish s (do
    let s ← s.settle (s.hart.taintS a ||| s.hart.taintS b)
    let h := s.hart
    let pkg := h.pkg
    let l ← (match s.check19 h h.asid (h.getS a) 64 .read .own with
      | .ok l => .ok l
      | .error e => .error (s.raise h .read e) : Except Stop Loc)
    s.awaitTurn (h.canon (h.getS a)) 64 false
    if h.storesTo l.phys 64 then .error (.hold .collective) else .ok ()
    if s.poisoned l.phys || s.poisoned (l.phys + 32) then .error (addrTrap s 0x0B (h.getS a)) else .ok ()
    let q := (h.getS b).toNat
    let desc := s.queueDesc pkg q
    if 2047 < q ∨ !desc.dev ∨ !desc.en ∨ s.ctxAsid pkg desc.ctx ≠ h.asid then .error (openTrap s 0x09) else .ok ()
    if (desc.tail - desc.head).toNat = 2 ^ desc.log2 then
      .ok ((s.mapHart (·.setS d 0xFFFFFFFFFFFFFFFF 0)).done 4)
    else
      let slot := desc.slot desc.tail
      if fieldOf desc.ring 61 3 ≠ 0 ∨ pkgOf pkg (fieldOf desc.ring 53 8) ≠ pkg then .error (addrTrap s 0x09 slot) else .ok ()
      let t ← s.resolve slot 64 .write .own
      let quads := (readQuads s.mem l.phys 8).take 7 ++ [0]
      let p := s.pack pkg
      let s := s.setPack { p with
        parents := (q, desc.tail, s.lineage h) :: p.parents,
        launches := { queue := q, seq := desc.tail, hart := h.ref, gang := h.csr.gangid, instr := h.seq } :: p.launches }
      let s := { s.putQuads t.phys quads with
                        poison := removeNat (removeNat s.poison (granule t.phys)) (granule t.phys + 1) }
      let s := s.setQueueQuad pkg q 3 ((desc.tail + 1).setWidth 64)
      .ok ((s.mapHart (·.setS d (desc.tail.setWidth 64) 0)).done 4))

/-! ### gtrig, gwait, gbar, gyield, gexit -/

/-- gtrig: the mark counts once the writes before it are performed (R179). -/
def execGtrig (s : State) : Host.Outcome State Fault Refusal :=
  .next ((s.nextSeq.mapHart fun h => { h with triggered := some (h.triggered.getD h.seq) }).done 4)

/-- The answer of gwait for a record; none while its gang has not ended (R180, R376). An accepted record never shows STATE
0: its slot has been reused. Log 74 (DEDUCED). -/
def State.gwaitCode (s : State) (pkg q : Nat) (n : Word) : Option Quad :=
  let d := s.queueDesc pkg q
  if seqGe n d.tail then some 1
  else if seqGe n (s.nextAccept pkg q) then none
  else
    match s.recordMark pkg q n with
    | none => some 3
    | some (rseq, state) =>
      if rseq ≠ n ∨ state = 0 then some 3
      else if state = 4 then some 0 else if state = 5 then some 1 else if state = 6 then some 2 else none

/-- The home reports a record that the scheduler could not reach (R357). -/
def State.noteMark (s : State) (pkg q : Nat) (seq : Word) : State :=
  let d := s.queueDesc pkg q
  let asid := s.ctxAsid pkg d.ctx
  match s.check19 (agentHart pkg asid) asid (d.slot seq) 64 .read .own with
  | .error (.inl f) => s.logFail (agentHart pkg asid) f false .read
  | _ => s

/-- gwait. A queue number that names no queue is one that is not open: log 74. -/
def execGwait (d a b : SReg) (s : State) : Host.Outcome State Fault Refusal :=
  let s := s.needS [d, a, b]
  match s.lsync .g with
  | .error e => finish s (.error e)
  | .ok s =>
    let pkg := s.hart.pkg
    let q := (s.hart.getS a).toNat
    let n : Word := (s.hart.getS b).setWidth 32
    if 2047 < q ∨ (s.blockBase pkg 1).isNone ∨ s.ctxAsid pkg (s.queueDesc pkg q).ctx ≠ s.hart.asid then
      finish s (.error (openTrap s 0x09))
    else
      let code := s.gwaitCode pkg q n
      let s := if code = some 3 then s.noteMark pkg q n else s
      match code with
      | some c => .next ((s.mapHart (·.setS d c 0)).done 4)
      | none =>
        match s.quiesce with
        | .error e => finish s (.error e)
        | .ok s => .next (s.park (.gwait q n) d s.hart.pc)

/-- gbar: lsync.g, then the hart arrives; the last to arrive lets all go on (R41, R181). -/
def execGbar (s : State) : Host.Outcome State Fault Refusal :=
  match s.lsync .g with
  | .error e => finish s (.error e)
  | .ok s =>
    .next (((s.mapHart fun h => { h with atBarrier := true }).holdHart .gangBarrier).releaseBarrier s.hart.pkg
      s.hart.csr.gangid)

/-- gyield: parked for 1,024 to 2,048 clocks (R182). Log 107 (DESIGN CHOICE). -/
def execGyield (s : State) : Host.Outcome State Fault Refusal :=
  match s.quiesce with
  | .error e => finish s (.error e)
  | .ok s =>
    .next ((s.park (.gyield (s.clock + 1024 + (Config.value s.free).toNat % 1025)) 0 (s.hart.pc + 4)).drawn)

/-- gexit (R183). -/
def execGexit (s : State) : Host.Outcome State Fault Refusal := finish s s.exitGang

end Sys2Proof.Machine
end

