-- ==== Sys2Proof/Machine/System.lean ====
section
/-! DEFINITION. Level S (17 R325 to R347): system calls, sret, saving and restoring a context, waiting at S,
wiping, tlbinv and snap; and the steps of a hart that no instruction names: TRAP_ENTRY, ISSUE_WAIT_END,
HART_RESUME and GYIELD_EXPIRY. -/

namespace Sys2Proof.Machine

/-! ### Shared operations -/

/-- A privileged instruction (R184, R325). -/
def State.privileged (s : State) (body : State → Except Stop State) : Host.Outcome State Fault Refusal :=
  finish s (if s.hart.level = .u then .error (insnTrap s 0x03) else body s)

/-- The quads of a frame of n bytes. -/
def frameQuads (id n : Nat) : List Quad := (List.range (n / 8)).map (Config.frameQuad id)

/-- The saved frame, of those given with number and length, that the area at an address holds (R338, R340). -/
def State.matchFrame {α : Type} (s : State) (a : Quad) : List (Nat × Nat × α) → Except Stop (Option α)
  | [] => .ok none
  | (id, n, x) :: r =>
    match s.area a 64 64 .read .own with
    | .error e => .error e
    | .ok ps =>
      if s.getArea ps ≠ frameQuads id 64 then s.matchFrame a r
      else
        match s.area a n 64 .read .own with
        | .error e => .error e
        | .ok ps => if s.getArea ps = frameQuads id n then .ok (some x) else s.matchFrame a r

/-- The queue holds an unfinished entry. -/
def Hart.queueBusy (h : Hart) : Bool := h.entriesLeft || !h.colls.isEmpty

/-- Answer a status in sd. -/
def State.answer (s : State) (d : SReg) (x : Quad) : State := (s.mapHart (·.setS d x 0)).done 4

/-! ### sys, brk, sret (R184, R336) -/

/-- sys. -/
def execSys (s : State) : Host.Outcome State Fault Refusal := finish s (.error (.trap { cause := 0x10 } s))

/-- brk. -/
def execBrk (s : State) : Host.Outcome State Fault Refusal := finish s (.error (.trap { cause := 0x11 } s))

/-- The return of R336: a hart whose trap was taken while it was parked waits again for its quota (R339). Commands
that wait for interlock entries take those that are free. Log 71 (DEDUCED). -/
def Hart.returnTrap (h : Hart) : Hart :=
  let back := h.noLanes && h.sup.spp == .u
  let h := h.takeEntries h.cmds.length
  { h with
    trapSeqs := h.trapSeqs.drop 1, level := h.sup.spp, pc := h.sup.tpc, sup := { h.sup with aie := h.sup.saie },
    cmds := h.cmds.map fun c => { c with stopped := false },
    thaw := !h.frozen.isEmpty, noLanes := h.noLanes && !back,
    status := if back then .parked (.gyield 0) 0 (some 0) else .running }

/-- sret. The loads of the handler are performed first: the restored context has empty taint sets, and the order that
they stood for is met (R63). Log 134 (DEDUCED). -/
def execSret (s : State) : Host.Outcome State Fault Refusal :=
  s.privileged fun s =>
    let s := s.drain
    if s.hart.struck then .error (.hold .presence) else
    let sup := s.hart.sup
    if s.hart.revoked then s.exitGang
    else if bitOf sup.tpc 0 then .error (.trap { cause := 0x06, tinfo := sup.tpc, tpc := some sup.tpc } s)
    else .ok (s.mapHart Hart.returnTrap)

/-! ### vqsave and vqrest (R338) -/

/-- A command that vqsave stops: a Fuller command at a vertex boundary (R338). -/
def Cmd.saved (c : Cmd) : Cmd := { c with stopped := true, part := none }

/-- Numbers of the instructions that a frame carries off unfinished and that write memory: the writes that a gtrig of
the hart still waits for (R42, R179). -/
def Hart.owing (h : Hart) : List Nat :=
  h.cmds.map (·.seq) ++ (h.frozen.filter fun e => !quietWord e.word).map (·.seq)

/-- vqsave. -/
def execVqsave (d a : SReg) (s : State) : Host.Outcome State Fault Refusal :=
  s.privileged fun s =>
    let s := ((s.needS [d, a]).mapHart fun h => h.freezeColls.dropTags).drain
    let n := s.hart.vqlen
    match s.area (s.hart.getS a) n 64 .write .own with
    | .error e => .error e
    | .ok ps =>
      let h := s.hart
      let f : VqFrame := { id := s.serial, hart := h.ref, bytes := n, seq := h.seq, interlock := h.interlock,
                           cmds := h.cmds.map Cmd.saved, frozen := h.frozen }
      let s := (s.putArea ps (frameQuads f.id n)).nextSerial
      .ok ((({ s with vqFrames := f :: s.vqFrames } : State).mapHart fun h =>
        { h with interlock := [], cmds := [], frozen := [], thaw := false, owed := h.owed ++ h.owing }).answer d
          (BitVec.ofNat 64 n))

/-- Reload a frame: its commands stay stopped until sret. They keep the numbers of their instructions.
Log 65 (DESIGN CHOICE). -/
def Hart.loadFrame (h : Hart) (f : VqFrame) (draw : Nat) : Hart :=
  let back := f.cmds.map (·.seq) ++ f.frozen.map (·.seq)
  { h with
    frozen := f.frozen, thaw := false, vqDraw := draw, seq := max h.seq f.seq, cmds := f.cmds ++ h.cmds,
    interlock := f.interlock ++ h.interlock, owed := h.owed.filter fun n => !back.contains n }

/-- The interlock entries of a frame whose command is not done: it is in the frame, or a post or request under way
(R132). -/
def State.liveEntries (s : State) (f : VqFrame) : List Interlock :=
  let p := s.pack s.hart.pkg
  let mine := fun (r : HartRef) (g : Word) => r == s.hart.ref && g == s.hart.csr.gangid
  f.interlock.filter fun e => f.cmds.any (·.seq == e.seq) || p.posts.any (fun x => mine x.hart x.gang && x.seq == e.seq)
    || p.transport.requests.any fun x => mine x.hart x.gang && x.seq == e.seq

/-- vqrest. -/
def execVqrest (d a : SReg) (s : State) : Host.Outcome State Fault Refusal :=
  s.privileged fun s =>
    let s := (s.needS [d, a]).drain
    match s.area (s.hart.getS a) 64 64 .read .own with
    | .error e => .error e
    | .ok _ =>
      match s.matchFrame (s.hart.getS a) (s.vqFrames.map fun f => (f.id, f.bytes, f)) with
      | .error e => .error e
      | .ok none => .ok (s.answer d 1)
      | .ok (some f) =>
        if f.hart ≠ s.hart.ref ∨ s.hart.queueBusy then .ok (s.answer d 1)
        else .ok ((s.mapHart (·.loadFrame { f with interlock := s.liveEntries f } s.free)).drawn.answer d 0)

/-! ### vsave and vrest (R339) -/

/-- The pieces of the park area that holds the vector registers of a hart which has trapped while parked (R339). -/
def State.parkedPieces (s : State) (k : AccKind) : Option (List (Nat × Nat)) :=
  if s.hart.noLanes then s.parkPieces k else none

/-- vsave. -/
def execVsave (d a : SReg) (s : State) : Host.Outcome State Fault Refusal :=
  s.privileged fun s =>
    let s := (s.needS [d, a]).drain
    match s.area (s.hart.getS a) s.hart.saveBytes 64 .write .own with
    | .error e => .error e
    | .ok ps =>
      if s.hart.queueBusy then .ok (s.answer d 1)
      else
        let qs := match s.parkedPieces .read with
          | some park => s.getArea park
          | none => s.hart.saveArea fun i => Config.value (s.free + i)
        .ok ((({ s.putArea ps qs with free := s.free + 8192 } : State).mapHart fun h =>
          { h with sup := { h.sup with vown := true } }).answer d 0)

/-- vrest. -/
def execVrest (d a : SReg) (s : State) : Host.Outcome State Fault Refusal :=
  s.privileged fun s =>
    let s := (s.needS [d, a]).drain
    match s.area (s.hart.getS a) s.hart.saveBytes 64 .read .own with
    | .error e => .error e
    | .ok ps =>
      let qs := s.getArea ps
      if headKey (qs.getD 0 0) ≠ headKey s.hart.saveHead then .ok (s.answer d 1)
      else
        match s.parkedPieces .write with
        | some park =>
          .ok (((s.putArea park qs).mapHart fun h => { h with sup := { h.sup with vown := false } }).answer d 0)
        | none => .ok ((s.mapHart (·.loadArea qs (Config.value s.free))).drawn.answer d 0)

/-! ### hsave and hrest (R340) -/

/-- hsave. -/
def execHsave (a : SReg) (s : State) : Host.Outcome State Fault Refusal :=
  s.privileged fun s =>
    let s := (s.needS [a]).drain
    match s.area (s.hart.getS a) 4096 64 .write .own with
    | .error e => .error e
    | .ok ps =>
      let h := s.hart
      let f : HFrame := { id := s.serial, hart := h.ref, q := h.q, f := h.f, k := h.k, csr := h.csr, joined := h.joined,
                          windows := h.windows, records := h.records }
      let s := (s.putArea ps (frameQuads f.id 4096)).nextSerial
      .ok (({ s with hFrames := f :: s.hFrames } : State).done 4)

/-- Restore what an hsave area holds; the identity CSRs stay the hart's own, and window buffers are empty. lgrp stays the
hart's own too, since only placement, grants and resumption write it (R57). Log 135 (DEDUCED), 66 (DEDUCED). -/
def Hart.loadHFrame (h : Hart) (x : HFrame) : Hart :=
  { h with
    q := x.q.map fun q => { q with prewalk := 0, taint := 0 },
    f := x.f, k := x.k, records := x.records,
    joined := x.joined,
    windows := x.windows.map fun w => w.map fun w => { w with buf := [] },
    csr := { x.csr with lgrp := h.csr.lgrp, gangid := h.csr.gangid, ganghart := h.csr.ganghart,
                        gangsize := h.csr.gangsize } }

/-- hrest. -/
def execHrest (d a : SReg) (s : State) : Host.Outcome State Fault Refusal :=
  s.privileged fun s =>
    let s := (s.needS [d, a]).drain
    match s.area (s.hart.getS a) 4096 64 .read .own with
    | .error e => .error e
    | .ok _ =>
      match s.matchFrame (s.hart.getS a) (s.hFrames.map fun f => (f.id, 4096, f)) with
      | .error e => .error e
      | .ok none => .ok (s.answer d 1)
      | .ok (some f) =>
        if f.hart ≠ s.hart.ref then .ok (s.answer d 1) else .ok ((s.mapHart (·.loadHFrame f)).answer d 0)

/-! ### tlbinv (R344, R359, R360) -/

/-- tlbinv: the request goes to Mucen, and the instruction completes when the shoot-down is acknowledged. -/
def execTlbinv (d a b : SReg) (s : State) : Host.Outcome State Fault Refusal :=
  s.privileged fun s =>
    let s := s.needS [d, a, b]
    let h := s.hart
    let asid := if bitOf (h.getS a) 63 then none else some ((h.getS a).setWidth 16)
    let off := if h.getS b = 0xFFFFFFFFFFFFFFFF then none else some (h.getS b).toNat
    let p := s.pack h.pkg
    match p.shoots.find? (fun x => x.hart == h.ref && x.asid == asid && x.offset == off && !x.orphan) with
    | none =>
      .ok ((s.setPack { p with shoots := p.shoots ++ [{ hart := h.ref, asid := asid, offset := off }] }).holdHart .shootdown)
    | some x =>
      if !x.acked then .error (.hold .shootdown)
      else
        .ok ((s.setPack { p with shoots := p.shoots.erase x }).answer d ((x.ran.getD 0).setWidth 64))

/-! ### snap (R345, R397) -/

/-- Colour c of a port of a package. -/
def Package.colour (p : Package) (port c : Nat) : Colour :=
  match p.colours.find? (fun x => x.port == port && x.colour == c) with
  | some x => x
  | none => { port := port, colour := c }

/-- The three quads of a colour; the readings that the model does not hold are left open. -/
def Colour.telemetry (c : Colour) (open_ : Nat → Quad) : List Quad :=
  let b := fun (n : Nat) (x : Bool) => if x then 2 ^ n else 0
  let up := c.tx == .up && c.rx == .up && c.txLost.isNone && c.rxLost.isNone
  [BitVec.ofNat 64 (c.corr.toNat * 2 ^ 32 + c.uncorr.toNat * 2 ^ 16 + c.txMode.toNat * 64 + c.rxMode.toNat * 16 + b 3 (c.tx != .dark)
      + b 2 (c.rx != .dark) + b 1 c.remapped + b 0 up),
   BitVec.ofNat 64 (c.replays.toNat * 2 ^ 32 + fieldOf (open_ 1) 0 32), c.flits]

/-- The 64 quads of a snap record. An Ethernet port's lanes are no state of the model: their blocks are open.
Log 68 (DESIGN CHOICE). -/
def Package.snapRecord (p : Package) (port : Nat) (stamp : Quad) (open_ : Nat → Quad) : List Quad :=
  let spare := p.colours.find? fun c => c.port == port && c.remapped
  let head := p.remapSeq.toNat * 2 ^ 32 + (match spare with
    | some c => 2 ^ 20 + c.colour * 2 ^ 16
    | none => 0) + port
  let blocks := (List.range 17).flatMap fun c =>
    let o := fun i => open_ (1 + 3 * c + i)
    if port < 32 ∧ c < 16 then (p.colour port c).telemetry o else [o 0, o 1, o 2]
  [BitVec.ofNat 64 head, stamp] ++ List.replicate 6 0 ++ blocks ++ List.replicate 5 0

/-- snap: waits for a remap in progress. -/
def execSnap (d a b : SReg) (s : State) : Host.Outcome State Fault Refusal :=
  s.privileged fun s =>
    let s := (s.needS [d, a, b]).drain
    let port := (s.hart.getS a).toNat
    if 39 < port then .error (illegal s)
    else
      match s.area (s.hart.getS b) 512 8 .write .any with
      | .error e => .error e
      | .ok ps =>
        let p := s.pack s.hart.pkg
        if p.colours.any (·.remapping) then .error (.hold .event)
        else
          let seq : Quad := p.remapSeq.setWidth 64
          let s := s.putArea ps (p.snapRecord port (Config.mucenClock (s.clock - p.resetClock)) fun i => Config.value (s.free + i))
          .ok ((({ s with free := s.free + 52 } : State).mapHart fun h =>
            { h with sup := { h.sup with snapseq := seq } }).answer d seq)

/-! ### pwait (R342) -/

/-- The contents of v, m and t registers become zero. -/
def Hart.wipeVectors (h : Hart) : Hart :=
  { h with v := Vector.replicate 64 {}, m := Vector.replicate 8 {}, tiles := h.tiles.map fun _ => [] }

/-- The cause code of the lowest set PEND bit. -/
def pendCode (p : BitVec 3) : Quad := if bitOf p 0 then 0x20 else if bitOf p 1 then 0x21 else 0x22

/-- pwait. -/
def execPwait (d a : SReg) (s : State) : Host.Outcome State Fault Refusal :=
  s.privileged fun s =>
    let s := s.needS [d, a]
    if bitOf (s.hart.getS a) 0 then
      if s.hart.queueBusy || s.hart.cmds.any Cmd.running then .ok (s.answer d 1)
      else
        .ok (s.drain.mapHart fun h =>
          { h.wipeVectors with tmask := 0, csr := { h.csr with lgrp := 0 }, graceEnd := none,
                               status := .parked .released d none, pc := s.hart.pc + 4 })
    else if s.hart.sup.pend = 0 then .error (.hold .event)
    else .ok (s.answer d (pendCode s.hart.sup.pend))

/-- A pending 0x21 or 0x22 ends a wait with REL = 1: the quota stays released. Log 69 (DEDUCED). -/
def Hart.endRelease (h : Hart) (d : SReg) : Hart :=
  let code : Quad := if bitOf h.sup.pend 1 then 0x21 else 0x22
  ({ h with status := .running, g := 0, tiles := [], csr := { h.csr with vlmax := 0 } } : Hart).setS d code 0

/-! ### mwipe (R346) -/

/-- The physical piece of one address that mwipe writes: a store's, or a unit of the own package carved for a Sieve.
Log 104 (DEDUCED). -/
def State.wipePiece (s : State) (a : Nat) : Except Stop (Nat × Bool) :=
  let q : Quad := BitVec.ofNat 64 a
  match s.resolve q 65536 .write .any with
  | .ok l => .ok (l.phys, false)
  | .error (.trap t s') =>
    if t.cause = 0x09 ∧ fieldOf q 61 3 = 1 then
      let own := fieldOf q 44 7 = 0x7F
      let pkg := pkgOf s.hart.pkg (fieldOf q 53 8)
      let die := if own then s.hart.die else fieldOf q 51 2
      let core := if own then s.hart.core else fieldOf q 44 7
      let c := s.core pkg die core
      if pkg = s.hart.pkg ∧ 48 - c.sieveUnits ≤ fieldOf q 0 22 / 65536 then .ok (vaultKey pkg die core (fieldOf q 0 22), true)
      else .error (.trap t s')
    else .error (.trap t s')
  | .error e => .error e

def State.wipePieces (s : State) : List Nat → Except Stop (List (Nat × Bool))
  | [] => .ok []
  | a :: r =>
    match s.wipePiece a with
    | .error e => .error e
    | .ok p =>
      match s.wipePieces r with
      | .error e => .error e
      | .ok ps => .ok (p :: ps)

/-- Zero a 64 KiB piece and clear its poison. -/
def State.wipe (s : State) (phys n : Nat) : State :=
  ({ s with mem := s.zeroed phys n } : State).clearPoison phys n

/-- Make every Sieve entry of a piece of a vault empty: the entries lie in the highest 16 x E bytes. -/
def State.emptyEntries (s : State) (phys n size : Nat) : State :=
  (List.range (n / 16)).foldl (fun s i =>
    let a := phys + 16 * i
    if Config.vaultBytes - 16 * size ≤ a % 2 ^ 44 then { s with mem := writeQuad s.mem a 0xFFFFFFFFFFFFFFFF } else s) s

/-- The Sieve size of the core in whose vault a physical address lies. -/
def State.sieveAt (s : State) (phys : Nat) : Nat :=
  (s.core (phys / 2 ^ 53 % 2 ^ 8) (phys / 2 ^ 51 % 4) (phys / 2 ^ 44 % 2 ^ 7)).sieve

/-- mwipe. -/
def execMwipe (d a b : SReg) (s : State) : Host.Outcome State Fault Refusal :=
  s.privileged fun s =>
    let s := s.needS [d, a, b]
    match s.lsync .g with
    | .error e => .error e
    | .ok s =>
      let at_ := (s.hart.getS a).toNat
      let n := (s.hart.getS b).toNat
      if at_ % 65536 ≠ 0 ∨ n % 65536 ≠ 0 ∨ 2 ^ 30 < n then .error (insnTrap s 0x05)
      else
        match s.wipePieces ((List.range (n / 65536)).map fun i => at_ + 65536 * i) with
        | .error e => .error e
        | .ok ps =>
          match s.awaitTurn (s.hart.canon (s.hart.getS a)) n true with
          | .error e => .error e
          | .ok _ =>
            let s := ps.foldl (fun s p =>
              let t := s.wipe p.1 65536
              if p.2 then t.emptyEntries p.1 65536 (s.sieveAt p.1) else t) s
            .ok (s.answer d (BitVec.ofNat 64 n))

/-! ### Asynchronous traps (R333 to R335) -/

/-- mwipe, vqsave, vsave, hsave or a restoring form waits to complete: no asynchronous trap interrupts it (R334). -/
def Hart.uninterrupted (h : Hart) : Bool :=
  (match h.status with
    | .held _ => true
    | _ => false) && fieldOf h.ir 0 7 == 0x63 && [3, 4, 5, 6, 7, 8, 12].contains (fieldOf h.ir 22 10)

/-- The asynchronous cause that a hart takes next, in the order of R333 (R334). -/
def Hart.asyncCause (h : Hart) : Option Byte :=
  if h.uninterrupted then none
  else if h.level = .s ∧ h.sup.aie = false then none
  else if bitOf h.sup.pend 1 then some 0x21
  else if bitOf h.sup.pend 2 then some 0x22
  else if bitOf h.sup.pend 0 then some 0x20
  else none

/-- What revocation discards before its trap, and wipes after its loads are performed (R335). Log 72 (DEDUCED). -/
def Hart.discardWork (h : Hart) : Hart :=
  { h with frozen := [], cmds := [], interlock := [], colls := [], flights := [], owed := [] }

def Hart.wipeRevoked (h : Hart) : Hart :=
  { h.wipeVectors with s := Vector.replicate 32 0, st := Vector.replicate 32 0, revoked := true }

/-- Take an asynchronous trap. -/
def State.asyncTrap (s : State) (c : Byte) : State :=
  if c = 0x21 then
    ((s.mapHart Hart.discardWork).takeTrap { cause := c, tinfo := s.hart.enclave, prec := false }).mapHart Hart.wipeRevoked
  else s.takeTrap { cause := c, prec := false }

/-- The step that a waiting hart takes of itself: a pending cause ends a wait with REL = 1, or is taken (R332,
R342). -/
def State.wakeTurn (s : State) : State :=
  match s.hart.status with
  | .vacant => s
  | .parked .released d _ =>
    if bitOf s.hart.sup.pend 1 || bitOf s.hart.sup.pend 2 then s.mapHart (·.endRelease d) else s
  | _ =>
    match s.hart.asyncCause with
    | some c => s.asyncTrap c
    | none => s

/-! ### Steps of a hart -/

/-- TRAP_ENTRY: the hart takes its pending asynchronous trap. -/
def execTrapEntry (h : HartRef) (s : State) : Host.Outcome State Fault Refusal := .next (s.withHart h State.wakeTurn)

/-- ISSUE_WAIT_END: the wait of a held hart is looked at again: its instruction issues anew (R45). One that no trap may
interrupt stays the instruction of the hart, which looks at it again in its turns (R334). -/
def execIssueWaitEnd (h : HartRef) (s : State) : Host.Outcome State Fault Refusal :=
  .next (s.onHart h fun h => match h.status with
    | .held _ => if h.uninterrupted then h else { h with status := .running }
    | _ => h)

/-- A parked hart's whole quota is free: no gang that was placed into it, which descends from the hart's gang, holds any of
it (R39). -/
def State.quotaFree (s : State) (h : Hart) : Bool :=
  !(s.pack h.pkg).gangs.any (fun g => g.ancestors.contains h.csr.gangid && g.cores.any fun c =>
      let held := s.gangLanes h.pkg g c
      c.die == h.die && c.core == h.core && (held.1 &&& h.csr.lgrp != 0 || held.2 &&& h.tmask != 0))

/-- A parked hart goes on with its code. Log 70 (DESIGN CHOICE). -/
def Hart.resume (h : Hart) : Hart :=
  match h.status with
  | .parked (.gwait ..) d (some c) => ({ h.advance 4 with status := .running } : Hart).setS d c 0
  | .parked (.waita _) d (some c) | .parked (.gyield _) d (some c) => ({ h with status := .running } : Hart).setS d c 0
  | _ => h

/-- A hart that has its code goes on when its whole quota is free, with the registers of its park area (R39). -/
def State.goOn (s : State) (h : HartRef) : State :=
  match s.findHart h with
  | none => s
  | some x =>
    if s.quotaFree x then
      s.withHart h fun t => match t.hart.status with
        | .parked (.waita _) _ (some _) | .parked (.gwait ..) _ (some _) | .parked (.gyield _) _ (some _) =>
          t.emptyPark.mapHart Hart.resume
        | _ => t
    else s

/-- A hart in waita leaves its wait list with code 2 (R173). -/
def State.wakeSpurious (s : State) (h : HartRef) : State :=
  (({ s with waiters := s.waiters.filter (·.hart != h) } : State).onHart h (Hart.wake 2)).drawn

/-- HART_RESUME: a woken hart resumes when its whole quota is free; it keeps its lane groups and tiles. A hart that
nothing has woken from waita may resume with code 2 (R173): a free choice. Log 108 (DESIGN CHOICE). -/
def execHartResume (h : HartRef) (s : State) : Host.Outcome State Fault Refusal :=
  .next (match s.findHart h with
    | none => s
    | some x => match x.status with
      | .parked (.waita _) _ none => if Config.choice s.free then (s.wakeSpurious h).goOn h else s.drawn
      | _ => s.goOn h)

/-- GYIELD_EXPIRY: the period of gyield ends (R182). -/
def execGyieldExpiry (h : HartRef) (s : State) : Host.Outcome State Fault Refusal :=
  .next (s.onHart h fun x => match x.status with
    | .parked (.gyield t) d none => if t ≤ s.clock then { x with status := .parked (.gyield t) d (some 0) } else x
    | _ => x)

end Sys2Proof.Machine
end

