-- ==== Sys2Proof/Machine/Sched.lean ====
section
/-! DEFINITION. The gang scheduler (19 R363 to R379; 03 R61; 17 R326): accepting and placing records, pre-emption,
quotas, triggers and ends, the doorbell and the Sieve sizes. -/

namespace Sys2Proof.Machine

/-! ### The launch record (R369) -/

/-- Quad i of a waiting record. -/
def Waiting.quad (w : Waiting) (i : Nat) : Quad := w.quads.getD i 0
def Waiting.ncores (w : Waiting) : Nat := fieldOf (w.quad 3) 52 12 + 1
def Waiting.hpc (w : Waiting) : Nat := fieldOf (w.quad 3) 48 3 + 1
def Waiting.lg (w : Waiting) : Nat := fieldOf (w.quad 3) 44 4
def Waiting.share (w : Waiting) : Nat :=
  let n := fieldOf (w.quad 3) 40 4
  if n = 0 then w.hpc * w.lg else n
def Waiting.nreg (w : Waiting) : BitVec 2 := (w.quad 3).extractLsb' 38 2
def Waiting.w64 (w : Waiting) : Bool := bitOf (w.quad 3) 37
def Waiting.tl (w : Waiting) : Nat := fieldOf (w.quad 3) 34 3
def Waiting.prio (w : Waiting) : Nat := fieldOf (w.quad 3) 31 3
def Waiting.svlog2 (w : Waiting) : Nat := fieldOf (w.quad 3) 26 5
def Waiting.vault (w : Waiting) : Nat := fieldOf (w.quad 3) 0 16
def Waiting.size (w : Waiting) : Nat := w.ncores * w.hpc
/-- Vault units of each core. -/
def Waiting.units (w : Waiting) : Nat := (w.hpc * w.vault * 64 + 65535) / 65536
def Waiting.gangid (w : Waiting) : Word := BitVec.ofNat 32 (w.queue * 2 ^ 21 + w.seq.toNat % 2 ^ 21)
/-- The valid dependences: TRIG, queue, sequence number. -/
def Waiting.deps (w : Waiting) : List (Bool × Nat × Word) :=
  ([w.quad 4, w.quad 5].filter (bitOf · 63)).map fun q => (bitOf q 62, fieldOf q 32 11, q.setWidth 32)

/-! ### The tables -/

/-- The scheduler considers records: the part runs (STATE 4), and header EN is set (R363, R406). -/
def State.schedEn (s : State) (pkg : Nat) : Bool := s.partRuns pkg && bitOf (s.schedQuad pkg 0) 3
def State.dres (s : State) (pkg : Nat) : Nat := fieldOf (s.schedQuad pkg 0) 0 3

/-- Sieve entries that the core table gives core c of a package (R363). -/
def State.sieveWanted (s : State) (pkg c : Nat) : Nat :=
  let b := fieldOf (s.schedQuad pkg (64 + c / 8 * 8)) (8 * (c % 8)) 5
  if 8 ≤ b ∧ b ≤ 16 then 2 ^ b else 0

/-- Write quad 7 of a record: RSEQ, REASON and STATE; where its slot has no translation, its home reports that (R357). -/
def State.markRecord (s : State) (pkg q : Nat) (asid : BitVec 16) (seq : Word) (reason state : Nat) : State :=
  match s.check19 (agentHart pkg asid) asid ((s.queueDesc pkg q).slot seq) 64 .read .own with
  | .ok l => { s with mem := writeQuad s.mem (l.phys + 56) (BitVec.ofNat 64 (seq.toNat * 2 ^ 32 + reason * 256 + state)) }
  | .error (.inl f) => s.logFail (agentHart pkg asid) f false .write
  | .error (.inr _) => s

/-- A record has been accepted and is neither waiting nor placed: it has ended or been rejected. Log 80 (DEDUCED). -/
def Package.recordDone (p : Package) (q : Nat) (seq next : Word) : Bool :=
  decide (seq ≠ next) && !p.waiting.any (fun w => w.queue == q && w.seq == seq)
    && !p.gangs.any fun g => g.queue == q && g.seq == seq

def advanceGo (p : Package) (q : Nat) (next : Word) : Nat → Word → Word
  | 0, h => h
  | n + 1, h => if p.recordDone q h next then advanceGo p q next n (h + 1) else h

/-- HEAD passes every leading record that has ended or been rejected (R376). -/
def State.advanceHead (s : State) (pkg q : Nat) : State :=
  let d := s.queueDesc pkg q
  let h := advanceGo (s.pack pkg) q (s.nextAccept pkg q) (2 ^ d.log2) d.head
  if h = d.head then s else s.setQueueQuad pkg q 2 (h.setWidth 64)

/-- Give the harts that gwait on a record their answer. -/
def State.wakeGwait (s : State) (pkg q : Nat) (seq : Word) (code : Quad) : State :=
  let f := fun (h : Hart) => match h.status with
    | .parked (.gwait a b) _ none => if h.pkg = pkg ∧ a = q ∧ b = seq then h.wake code else h
    | _ => h
  { s with hart := f s.hart, others := s.others.map f }

/-- A record is rejected (R371). -/
def State.reject (s : State) (pkg q : Nat) (asid : BitVec 16) (seq : Word) (reason : Nat) : State :=
  let s := s.markRecord pkg q asid seq reason 5
  let p := s.pack pkg
  let s := s.setPack { p with
    waiting := p.waiting.filter (fun w => !(w.queue == q && w.seq == seq)),
    nexts := assocSet p.nexts q (seq + 1) }
  (s.wakeGwait pkg q seq 1).advanceHead pkg q

/-! ### Dependences (R372) -/

/-- How a dependence stands. -/
inductive DepState where
  | met | waits | fails
  deriving DecidableEq, Repr

/-- A dependence on a record whose slot has been reused is met: an accepted record never shows STATE 0. -/
def State.depState (s : State) (pkg : Nat) (d : Bool × Nat × Word) : DepState :=
  if seqGe d.2.2 (s.nextAccept pkg d.2.1) then .waits
  else
    match s.recordMark pkg d.2.1 d.2.2 with
    | none => .waits
    | some (rseq, state) =>
      if rseq ≠ d.2.2 ∨ state = 0 then .met
      else if state = 5 ∨ state = 6 then .fails
      else if state = 4 ∨ (d.1 ∧ state = 3) then .met
      else .waits

def State.depsMet (s : State) (pkg : Nat) (w : Waiting) : Bool := w.deps.all fun d => s.depState pkg d == .met

/-! ### Acceptance (R371) -/

/-- The group list of a record; none where it cannot be read. -/
def State.groupList (s : State) (pkg : Nat) (asid : BitVec 16) (a : Quad) : Nat → Option (List (Quad × Quad))
  | 0 => some []
  | n + 1 =>
    match s.check (agentHart pkg asid) asid a 16 .read .own with
    | .error _ => none
    | .ok l => (s.groupList pkg asid (a + 16) n).map fun r => (readQuad s.mem l.phys, readQuad s.mem (l.phys + 8)) :: r

/-- The fault of a group list that cannot be read, which its home reports (R357). -/
def State.noteGroups (s : State) (pkg : Nat) (asid : BitVec 16) (a : Quad) : Nat → State
  | 0 => s
  | n + 1 =>
    match s.check (agentHart pkg asid) asid a 16 .read .own with
    | .error (.inl f) => s.logFail (agentHart pkg asid) f false .read
    | .error (.inr _) => s
    | .ok _ => s.noteGroups pkg asid (a + 16) n

/-- A hart that appended a record has writes before its glaunch that are not performed (R178). -/
def State.launchEarly (s : State) (pkg q : Nat) (n : Word) : Bool :=
  (s.pack pkg).launches.any fun x => x.queue == q && x.seq == n
    && (match s.findHart x.hart with
      | some h => h.csr.gangid == x.gang && s.writesLeft h x.instr
      | none => false)

/-- Every group of the list can be joined by every hart, and no rank is named twice; a rank past 2^64 is none. Log 77
(DEDUCED). -/
def State.groupsFree (s : State) (pkg : Nat) (asid : BitVec 16) (size : Nat) : List (Quad × Quad) → Bool
  | [] => true
  | (h, b) :: r =>
    decide (b.toNat + size ≤ 2 ^ 64) && ((List.range size).all fun i => s.joinStatus pkg asid h (b + BitVec.ofNat 64 i) == 0)
      && !r.any (fun x => x.1 == h && decide ((x.2 - b).toNat < size ∨ (b - x.2).toNat < size))
      && s.groupsFree pkg asid size r

/-- Check 1: reserved fields and limits. -/
def Waiting.fieldsBad (w : Waiting) : Bool :=
  bitOf (w.quad 2) 5 || bitOf (w.quad 3) 51 || fieldOf (w.quad 3) 16 10 != 0 || fieldOf (w.quad 4) 43 19 != 0
    || fieldOf (w.quad 5) 43 19 != 0 || w.quad 6 != 0 || decide (8 < w.lg) || decide (4 < w.tl)
    || decide (16 < fieldOf (w.quad 2) 0 5) || (decide (w.svlog2 ≠ 0) && decide (w.svlog2 < 8)) || decide (16 < w.svlog2)

/-- Check 2: what one core can hold. The least Sieve takes whole units (R105). -/
def Waiting.coreBad (w : Waiting) : Bool :=
  let share := fieldOf (w.quad 3) 40 4
  let sieve := if w.svlog2 = 0 then 0 else (16 * 2 ^ w.svlog2 + 65535) / 65536 * 65536
  decide (8 < w.hpc * w.lg) || (decide (share ≠ 0) && (decide (share < w.hpc * w.lg) || decide (8 < share)))
    || decide (4 < w.hpc * w.tl) || decide (Config.vaultBytes < w.hpc * w.vault * 64 + sieve)

/-- Check 3: harts and Sieves. -/
def State.sizeBad (s : State) (pkg : Nat) (w : Waiting) : Bool :=
  decide (3072 < w.size) || (decide (w.svlog2 ≠ 0) && decide
    (((List.range 384).filter fun c => w.dies.testBit (c / 96) && decide (2 ^ w.svlog2 ≤ s.sieveWanted pkg c)).length < w.ncores))

/-- Check 6: a dependence outside the address space. Log 79 (DEDUCED). -/
def State.depBad (s : State) (pkg : Nat) (w : Waiting) : Bool :=
  w.deps.any fun d =>
    let c := (s.queueDesc pkg d.2.1).ctx
    !bitOf (s.ctxQuad pkg c 5) 0 || s.ctxAsid pkg c != w.asid

/-- The first check that fails, in the order of R371, after the record has been read; 0 when none does. -/
def State.reasonOf (s : State) (pkg : Nat) (w : Waiting) (groups : Option (List (Quad × Quad))) : Nat :=
  if !bitOf (s.ctxQuad pkg w.ctx 5) 0 then 8
  else if w.fieldsBad then 1
  else if w.coreBad then 2
  else if s.sizeBad pkg w then 3
  else if bitOf (w.quad 0) 0 ∨ fieldOf (w.quad 0) 61 3 ≠ 0 then 4
  else if s.depBad pkg w then 6
  else if !(match groups with
      | none => false
      | some l => s.groupsFree pkg w.asid w.size l) then 5
  else if w.deps.any fun d => s.depState pkg d == .fails then 7
  else 0

/-- RECORD_ACCEPT: the oldest record of a queue that is not placed is read and checked, once the writes before its
glaunch are performed (R178); a record that waits is
rejected once a gang it depends on has been (R371). It keeps the dies, context and asid that are read here.
Log 150 (DESIGN CHOICE). -/
def execRecordAccept (pkg q : Nat) (s : State) : Host.Outcome State Fault Refusal :=
  let d := s.queueDesc pkg q
  let p := s.pack pkg
  match p.waiting.find? (·.queue == q) with
  | some w =>
    .next (if w.deps.any fun d => s.depState pkg d == .fails then s.reject pkg q w.asid w.seq 7 else s)
  | none =>
    let n := s.nextAccept pkg q
    if !s.schedEn pkg ∨ !d.en ∨ n = d.tail ∨ s.launchEarly pkg q n then .next s
    else
      let asid := s.ctxAsid pkg d.ctx
      let a := agentHart pkg asid
      match s.check a asid (d.slot n) 64 .read .own with
      | .error (.inr f) => .fault f
      | .error (.inl f) => .next ((s.logFail a f false .read).reject pkg q asid n 9)
      | .ok l =>
        if s.poisoned (l.phys + 32) then .next (s.reject pkg q asid n 9)
        else
          let quads := readQuads s.mem l.phys 8
          let s := s.markRecord pkg q asid n 0 1
          let anc := match p.parents.find? (fun x => x.1 == q && x.2.1 == n) with
            | some x => x.2.2
            | none => []
          let w : Waiting := { queue := q, seq := n, quads := quads, ctx := d.ctx, asid := asid, dies := d.dies, groups := [],
                               ancestors := anc }
          let at_ := w.quad 2 &&& ~~~63#64
          let groups := s.groupList pkg asid at_ (fieldOf (w.quad 2) 0 5)
          let s := s.setPack { p with parents := p.parents.filter (fun x => !(x.1 == q && x.2.1 == n)),
                                      launches := p.launches.filter fun x => !(x.queue == q && x.seq == n) }
          let s := if groups.isNone then s.noteGroups pkg asid at_ (fieldOf (w.quad 2) 0 5) else s
          let s := w.deps.foldl (fun s d => s.noteMark pkg d.2.1 d.2.2) s
          match s.reasonOf pkg w groups with
          | 0 =>
            let p := s.pack pkg
            .next (s.setPack { p with
              waiting := p.waiting ++ [{ w with groups := groups.getD [] }], nexts := assocSet p.nexts q (n + 1) })
          | r => .next (s.reject pkg q asid n r)

/-! ### What is free (R373, R375) -/

/-- The harts parked by gwait from which a record descends. -/
def State.lenders (s : State) (pkg : Nat) (w : Waiting) : List Hart :=
  s.harts.filter fun h => h.pkg == pkg && w.ancestors.contains h.csr.gangid && (match h.status with
    | .parked (.gwait ..) .. => true
    | _ => false)

/-- Lane groups and tiles of a core that a record may take: those no gang holds, leaving out the gangs of
`gone`; and, of a parked ancestor's quota, those that no gang holds which descends from the ancestor's (R39, R44). `only`
restricts to such quotas. -/
def State.freeUnits (s : State) (pkg die core : Nat) (w : Waiting) (gone : List Word) (only : Bool) : Byte × BitVec 4 :=
  let gangs := (s.pack pkg).gangs.filter fun g => !gone.contains g.gangid
  let held := fun (skip : Gang → Bool) => gangs.foldl (fun (acc : Byte × BitVec 4) g =>
    if skip g then acc
    else g.cores.foldl (fun acc c =>
      if c.die = die ∧ c.core = core then
        let x := s.gangLanes pkg g c
        (acc.1 ||| x.1, acc.2 ||| x.2) else acc) acc) (0, 0)
  let all := held fun _ => false
  let lent := (s.lenders pkg w).foldl (fun (acc : Byte × BitVec 4) h =>
    if h.die = die ∧ h.core = core then
      let other := held fun g => !g.ancestors.contains h.csr.gangid
      (acc.1 ||| (h.csr.lgrp &&& ~~~other.1), acc.2 ||| (h.tmask &&& ~~~other.2)) else acc) (0, 0)
  if only then lent else (~~~all.1 ||| lent.1, ~~~all.2 ||| lent.2)

/-- The partitions of a core that no hart holds, in ascending order. Log 78 (DEDUCED). -/
def State.freePartitions (s : State) (pkg die core : Nat) : List Nat :=
  (List.range 8).filter fun p => !s.placed ⟨pkg, die * 768 + core * 8 + p⟩

/-- A unit of a core lies in the vault bytes of a hart of a gang that has not ended (R183, R373). -/
def State.unitHeld (s : State) (pkg : Nat) (g : Gang) (c : GangCore) (u : Nat) : Bool :=
  decide (c.unit ≤ u ∧ u < c.unit + c.units) && (s.gangHarts pkg g.gangid).any fun h =>
    let lo := 65536 * c.unit + h.csr.ganghart.toNat % max 1 g.hpc * g.vault * 64
    h.die == c.die && h.core == c.core && decide (65536 * u < lo + 64 * g.vault ∧ lo < 65536 * (u + 1))

/-- The first of n contiguous units of a core that no gang holds. -/
def State.freeRun (s : State) (pkg die core n : Nat) : Option Nat :=
  let c := s.core pkg die core
  let gangs := (s.pack pkg).gangs
  (List.range (49 - c.sieveUnits - n)).find? fun u =>
    !gangs.any fun g => g.cores.any fun x =>
      x.die == die && x.core == core && (List.range n).any fun i => s.unitHeld pkg g x (u + i)

/-- The lowest n tiles of a set. -/
def lowTiles (n : Nat) (b : BitVec 4) : BitVec 4 := (lowBits n (b.setWidth 8)).setWidth 4

/-- A change of SVLOG2 is due on a core: it takes effect before a gang can be placed there (R364). -/
def State.recarveDue (s : State) (pkg die core : Nat) : Bool :=
  (s.core pkg die core).sieve != s.sieveWanted pkg (96 * die + core)
    && !s.harts.any fun h => h.pkg == pkg && h.die == die && h.core == core

/-- What a record would take of a core, if it fits there. -/
def State.coreFit (s : State) (pkg die core : Nat) (w : Waiting) (gone : List Word) (only : Bool) : Option GangCore :=
  let free := s.freeUnits pkg die core w gone only
  let heir := !(s.lenders pkg w).isEmpty
  let parts := (s.freePartitions pkg die core).length
  if s.recarveDue pkg die core ∨ parts < w.hpc + (if heir then 0 else s.dres pkg) then none
  else if popCount free.1.toNat 8 < w.share ∨ popCount free.2.toNat 4 < w.hpc * w.tl then none
  else if w.svlog2 ≠ 0 ∧ (s.core pkg die core).sieve < 2 ^ w.svlog2 then none
  else
    match (if w.units = 0 then some 0 else s.freeRun pkg die core w.units) with
    | none => none
    | some u => some { die := die, core := core, lanes := lowBits w.share free.1, tiles := lowTiles (w.hpc * w.tl) free.2,
                       unit := u, units := w.units }

/-- A record of higher priority waits for resources on a die (R374). -/
def State.blocked (s : State) (pkg die prio : Nat) : Bool :=
  (s.pack pkg).waiting.any fun w => decide (prio < w.prio) && w.dies.testBit die && s.schedEn pkg && (s.queueDesc pkg w.queue).en && s.depsMet pkg w

/-- The cores of a die that a record would take. On a die that a higher priority blocks, a descendant of a
parked hart may use that hart's quota alone (R375). -/
def State.dieFit (s : State) (pkg die : Nat) (w : Waiting) (gone : List Word) (want : Nat) : List GangCore :=
  let heir := !(s.lenders pkg w).isEmpty
  let only := s.blocked pkg die w.prio
  if !w.dies.testBit die ∨ (only ∧ !heir) then []
  else ((List.range 96).filterMap fun c => s.coreFit pkg die c w gone only).take want

/-- The cores a record takes, in order; none where it does not fit. -/
def State.fit (s : State) (pkg : Nat) (w : Waiting) (gone : List Word) : Option (List GangCore) :=
  if w.ncores ≤ 96 then
    ((List.range 4).map fun d => s.dieFit pkg d w gone w.ncores).find? fun l => l.length == w.ncores
  else
    let l := ((List.range 4).flatMap fun d => s.dieFit pkg d w gone 96).take w.ncores
    if l.length = w.ncores then some l else none

/-! ### Placement (R61, R326, R373, R374) -/

/-- Queues in round robin after the one that placed last. -/
def Package.turn (p : Package) (q : Nat) : Nat := (q + 2047 - p.lastQueue) % 2048

/-- The hart waits in pwait with its quota released (R342). -/
def Hart.hasReleased (h : Hart) : Bool := match h.status with
  | .parked .released .. => true
  | _ => false

/-- A record may be placed now: its dependences are met, it fits, its groups are still free, and no released quota of
at least its priority waits to return (R379). Log 13 (DESIGN CHOICE). -/
def State.placeable (s : State) (pkg : Nat) (w : Waiting) : Bool :=
  s.schedEn pkg && (s.queueDesc pkg w.queue).en && s.depsMet pkg w && (s.fit pkg w []).isSome
    && s.groupsFree pkg w.asid w.size w.groups
    && !(s.pack pkg).gangs.any fun g =>
      g.preempted && decide (w.prio ≤ g.prio) && (s.gangHarts pkg g.gangid).any Hart.hasReleased

/-- The j-th run of n lane groups of a share. -/
def laneRun (n j : Nat) (b : Byte) : Byte := lowBits (n * (j + 1)) b &&& ~~~lowBits (n * j) b
def tileRun (n j : Nat) (b : BitVec 4) : BitVec 4 := lowTiles (n * (j + 1)) b &&& ~~~lowTiles (n * j) b

/-- s2 at launch (R61, R373). -/
def vaultEnd (w : Waiting) (unit j : Nat) : Quad :=
  0x3FE7F00000000000 + BitVec.ofNat 64 (if w.vault = 0 then 0 else unit * 65536 + (j + 1) * w.vault * 64)

/-- Hart j of a gang on a core at its launch. -/
def State.newHart (s : State) (pkg : Nat) (w : Waiting) (c : GangCore) (index j part : Nat) : Hart :=
  let hid := c.die * 768 + c.core * 8 + part
  let gh := index * w.hpc + j
  let s0 : Vector Quad 32 := ((Vector.replicate 32 0).set 2 (vaultEnd w c.unit j)).set 3 (w.quad 1)
  { ref := ⟨pkg, hid⟩, status := .running, pc := w.quad 0, s := s0,
    g := w.lg, tiles := List.replicate w.tl [], tmask := tileRun w.tl j c.tiles,
    csr := { nreg := w.nreg, w64 := w.w64, vlmax := BitVec.ofNat 32 (vlmaxFor w.lg w.nreg.toNat w.w64),
             lgrp := laneRun w.lg j c.lanes, gangid := w.gangid, ganghart := BitVec.ofNat 12 gh,
             gangsize := BitVec.ofNat 12 w.size },
    sup := { tvec := s.ctxQuad pkg w.ctx 0 &&& ~~~1#64, asid := w.asid, preempt := (s.ctxQuad pkg w.ctx 3).setWidth 16,
             parkbase := s.ctxQuad pkg w.ctx 4 + BitVec.ofNat 64 (581696 * hid) },
    joined := Vector.ofFn fun (i : Fin 16) => (w.groups[i.val]?).map fun g =>
      { handle := g.1, rank := g.2.toNat + gh } }

/-- Give n units of a core to an asid; a unit passed to a different asid is wiped first (R373). Log 76 (DEDUCED). -/
def State.giveUnits (s : State) (pkg : Nat) (c : GangCore) (asid : BitVec 16) : State :=
  (List.range c.units).foldl (fun s i =>
    let u := c.unit + i
    let k := s.core pkg c.die c.core
    let s := if k.units.any (fun x => x.1 == u && x.2 == asid) then s
      else s.wipe (vaultKey pkg c.die c.core (65536 * u)) 65536
    s.setCore { k with units := (u, asid) :: k.units.filter (·.1 != u) }) s

/-- A context's root, written to RT[asid] of a die unless it is 0 or misaligned (R354). -/
def State.placeRoot (s : State) (pkg die : Nat) (asid : BitVec 16) (root : Quad) : State :=
  if root = 0 ∨ fieldOf root 0 6 ≠ 0 then s else { s with mem := writeQuad s.mem (s.rootAddr pkg die asid) root }

/-- The harts of a gang on its c-th core start. -/
def State.startCore (s : State) (pkg : Nat) (w : Waiting) (index : Nat) (c : GangCore) : State :=
  let parts := (s.freePartitions pkg c.die c.core).take w.hpc
  let s := (s.giveUnits pkg c w.asid).placeRoot pkg c.die w.asid (s.ctxQuad pkg w.ctx 2)
  let k := s.core pkg c.die c.core
  let s := s.setCore { k with ccache := [] }
  let new := (parts.zip (List.range w.hpc)).map fun x => s.newHart pkg w c index x.2 x.1
  let s := new.foldl (fun s h => h.joined.toList.foldl (fun s j => match j with
    | some j => s.joinRank j.handle j.rank h.ref
    | none => s) s) s
  { s with others := s.others ++ new, ended := s.ended.filter fun h => !new.any (·.ref == h.ref) }

/-- Where no hart has the turn, the first placed one gets it. Log 117 (DESIGN CHOICE). -/
def State.someTurn (s : State) : State :=
  match s.hart.status, s.others with
  | .vacant, h :: r => { s with hart := h, others := r }
  | _, _ => s

/-- Place a record on cores. -/
def State.placeGang (s : State) (pkg : Nat) (w : Waiting) (cores : List GangCore) : State :=
  let s := (cores.zip (List.range cores.length)).foldl (fun s x => s.startCore pkg w x.2 x.1) s
  let p := s.pack pkg
  let g : Gang := { gangid := w.gangid, queue := w.queue, seq := w.seq, ctx := w.ctx, prio := w.prio, order := p.placements,
                    size := w.size, hpc := w.hpc, vault := w.vault, ancestors := w.ancestors, cores := cores }
  let s := s.setPack { p with
    gangs := p.gangs ++ [g], placements := p.placements + 1, lastQueue := w.queue,
    waiting := p.waiting.filter fun x => !(x.queue == w.queue && x.seq == w.seq) }
  (s.markRecord pkg w.queue w.asid w.seq 0 2).someTurn

/-- GANG_PLACE: the waiting record of a queue is placed whole, unless another has precedence (R373, R374). -/
def execGangPlace (pkg q : Nat) (s : State) : Host.Outcome State Fault Refusal :=
  let p := s.pack pkg
  match p.waiting.find? (·.queue == q) with
  | none => .next s
  | some w =>
    let ahead := p.waiting.any fun x => x.queue != q && s.placeable pkg x
      && (decide (w.prio < x.prio) || (x.prio == w.prio && decide (p.turn x.queue < p.turn q)))
    if !s.placeable pkg w ∨ ahead then .next s
    else
      match s.fit pkg w [] with
      | none => .next s
      | some cores => .next (s.placeGang pkg w cores)

/-! ### Pre-emption (R377 to R379) -/

def State.setGang (s : State) (pkg : Nat) (g : Gang) : State :=
  let p := s.pack pkg
  s.setPack { p with gangs := p.gangs.map fun x => if x.gangid = g.gangid then g else x }

/-- Set a PEND bit at every hart of a gang. -/
def State.pendGang (s : State) (pkg : Nat) (gang : Word) (bit : BitVec 3) : State :=
  let f := fun (h : Hart) =>
    if h.pkg = pkg ∧ h.csr.gangid = gang then { h with sup := { h.sup with pend := h.sup.pend ||| bit } } else h
  { s with hart := f s.hart, others := s.others.map f }

/-- Abort a gang: each of its harts takes cause 0x22 (R378). -/
def State.abortGang (s : State) (pkg : Nat) (g : Gang) : State :=
  if g.aborted then s
  else (s.setGang pkg { g with aborted := true, abortAt := some s.clock }).pendGang pkg g.gangid 4

/-- Insert a victim candidate: ascending PRIO, the most recently placed first. -/
def insertVictim (g : Gang) : List Gang → List Gang
  | [] => [g]
  | x :: r =>
    if g.prio < x.prio ∨ (g.prio = x.prio ∧ x.order < g.order) then g :: x :: r else x :: insertVictim g r

/-- Take victims until the record fits: none where all together are not enough. -/
def State.victims (s : State) (pkg : Nat) (w : Waiting) : List Gang → List Word → Option (List Word)
  | rest, gone =>
    if (s.fit pkg w gone).isSome then some gone
    else match rest with
      | [] => none
      | g :: r => s.victims pkg w r (g.gangid :: gone)

/-- PREEMPT_VICTIMS: PEND bit 8 is set at every hart of the victims of a waiting record. -/
def execPreemptVictims (pkg q : Nat) (s : State) : Host.Outcome State Fault Refusal :=
  let p := s.pack pkg
  match p.waiting.find? (·.queue == q) with
  | none => .next s
  | some w =>
    if !s.schedEn pkg ∨ !(s.queueDesc pkg q).en ∨ !s.depsMet pkg w then .next s
    else
      let going := (p.gangs.filter (·.preempted)).map (·.gangid)
      let eligible := p.gangs.filter fun g => decide (g.prio < w.prio) && !g.preempted
        && fieldOf (s.ctxQuad pkg g.ctx 3) 0 16 != 0 && g.cores.any fun c => w.dies.testBit c.die
      match s.victims pkg w (eligible.foldr insertVictim []) going with
      | none => .next s
      | some all =>
        .next ((p.gangs.filter fun g => all.contains g.gangid && !g.preempted).foldl (fun s g =>
          (s.setGang pkg { g with preempted := true }).pendGang pkg g.gangid 1) s)

/-- GRACE_EXPIRY: a victim has not reached pwait in time, and its gang aborts (R343, R378). -/
def execGraceExpiry (h : HartRef) (s : State) : Host.Outcome State Fault Refusal :=
  match s.findHart h with
  | none => .next s
  | some x =>
    match x.graceEnd, s.gangOf x with
    | some t, some g =>
      if t ≤ s.clock then .next ((s.onHart h fun y => { y with graceEnd := none }).abortGang h.pkg g) else .next s
    | _, _ => .next s

/-- FORCED_HART_END: a hart that is still placed a GRACE after its gang aborted is ended: its queue is discarded
and its state wiped (R378). Log 82 (DEDUCED). -/
def execForcedHartEnd (h : HartRef) (s : State) : Host.Outcome State Fault Refusal :=
  match s.findHart h with
  | none => .next s
  | some x =>
    match s.gangOf x with
    | none => .next s
    | some g =>
      match g.abortAt with
      | none => .next s
      | some t =>
        if s.clock < t + x.sup.preempt.toNat * 1024 then .next s
        else
          let s := s.withHart h fun s => (s.mapHart Hart.discardWork).drain.endHart
          .next (({ s with ended := s.ended.filter (·.ref != h) } : State).someTurn)

/-- Lane groups and tiles for the harts of a gang on one core, given what is free: none where they do not fit. -/
def State.coreReturn (s : State) (pkg : Nat) (g : Gang) (c : GangCore) : Option GangCore :=
  let held := ((s.pack pkg).gangs.filter (·.gangid != g.gangid)).foldl (fun (acc : Byte × BitVec 4) x =>
    x.cores.foldl (fun acc d => if d.die = c.die ∧ d.core = c.core then
      let y := s.gangLanes pkg x d
      (acc.1 ||| y.1, acc.2 ||| y.2) else acc) acc) (0, 0)
  let n := popCount c.lanes.toNat 8
  let m := popCount c.tiles.toNat 4
  if popCount (~~~held.1).toNat 8 < n ∨ popCount (~~~held.2).toNat 4 < m then none
  else some { c with lanes := lowBits n (~~~held.1), tiles := lowTiles m (~~~held.2) }

/-- Hand the lane groups and tiles of a core to the harts that wait for them, in order. -/
def State.handBack (s : State) (c : GangCore) : List Hart → Byte → BitVec 4 → State
  | [], _, _ => s
  | h :: r, lanes, tiles =>
    let l := lowBits h.g lanes
    let t := lowTiles h.tiles.length tiles
    match h.status with
    | .parked .released d _ =>
      (s.onHart h.ref fun h => ({ h with
        status := .running, tmask := t, csr := { h.csr with lgrp := l } } : Hart).setS d 0 0).handBack c r
        (lanes &&& ~~~l) (tiles &&& ~~~t)
    | _ => s.handBack c r lanes tiles

/-- A pre-empted gang of which every hart has released its quota. -/
def State.released (s : State) (pkg : Nat) (g : Gang) : Bool :=
  g.preempted && !g.aborted && (s.gangHarts pkg g.gangid).all Hart.hasReleased

/-- QUOTA_RETURN: the quotas of a pre-empted gang return on one clock, and every pwait of it returns 0 (R379).
Log 81 (DEDUCED). -/
def execQuotaReturn (pkg gang : Nat) (s : State) : Host.Outcome State Fault Refusal :=
  let p := s.pack pkg
  match p.gangs.find? (·.gangid.toNat == gang) with
  | none => .next s
  | some g =>
    let first := !p.gangs.any fun x => x.gangid != g.gangid && s.released pkg x
      && (decide (g.prio < x.prio) || (x.prio == g.prio && decide (x.order < g.order)))
    let blocked := g.cores.any fun c => s.blocked pkg c.die g.prio
    if !s.released pkg g ∨ !first ∨ blocked then .next s
    else
      let cores := g.cores.filterMap fun c => s.coreReturn pkg g c
      if cores.length ≠ g.cores.length then .next s
      else
        .next (cores.foldl (fun s c =>
          s.handBack c ((s.gangHarts pkg g.gangid).filter fun h => h.die == c.die && h.core == c.core) c.lanes c.tiles)
          (s.setGang pkg { g with preempted := false, cores := cores }))

/-! ### Triggers and ends (R179, R376) -/

/-- The hart is marked: every write before its gtrig is performed. -/
def State.marked (s : State) (h : Hart) : Bool :=
  match h.triggered with
  | none => false
  | some n => !s.writesLeft h n

/-- GANG_TRIGGER: the last hart of a gang is marked, and its record takes STATE 3. -/
def execGangTrigger (pkg gang : Nat) (s : State) : Host.Outcome State Fault Refusal :=
  match (s.pack pkg).gangs.find? (·.gangid.toNat == gang) with
  | none => .next s
  | some g =>
    let harts := s.gangHarts pkg g.gangid
    if g.triggered ∨ harts.isEmpty ∨ !harts.all s.marked then .next s
    else .next ((s.setGang pkg { g with triggered := true }).markRecord pkg g.queue (s.ctxAsid pkg g.ctx) g.seq 0 3)

/-- GANG_END: a gang of which no hart is left ends: STATE 4, or 6 after an abort, and HEAD advances. -/
def execGangEnd (pkg gang : Nat) (s : State) : Host.Outcome State Fault Refusal :=
  let p := s.pack pkg
  match p.gangs.find? (·.gangid.toNat == gang) with
  | none => .next s
  | some g =>
    if !(s.gangHarts pkg g.gangid).isEmpty then .next s
    else
      let s := s.setPack { p with gangs := p.gangs.filter (·.gangid != g.gangid) }
      let s := s.markRecord pkg g.queue (s.ctxAsid pkg g.ctx) g.seq 0 (if g.aborted then 6 else 4)
      .next ((s.wakeGwait pkg g.queue g.seq (if g.aborted then 2 else 0)).advanceHead pkg g.queue)

/-! ### The doorbell and the Sieve sizes -/

/-- A TAIL write of host software (R366). -/
def State.writeTail (s : State) (pkg q : Nat) (value : Word) : State :=
  let d := s.queueDesc pkg q
  if d.dev then s
  else if 2 ^ d.log2 < (value - d.head).toNat ∨ 2 ^ 31 ≤ (value - d.tail).toNat then
    s.setQueueQuad pkg q 4 (s.queueQuad pkg q 4 ||| 1)
  else s.setQueueQuad pkg q 3 (value.setWidth 64)

/-- A queue that lies in the doorbell window of the function it belongs to: any of PF 0, the first 128 of a VF (R367). -/
def State.windowed (s : State) (pkg q : Nat) : Bool :=
  let f := (s.queueDesc pkg q).func
  s.partRuns pkg && decide (q < 2048) && decide (f ≤ 16) &&
    (f == 0 || decide (((List.range q).filter fun r => (s.queueDesc pkg r).func == f).length < 128))

/-- QUEUE_TAIL_WRITE: through the doorbell window, so a queue without a place in one takes none. -/
def execQueueTailWrite (pkg q : Nat) (value : Word) (s : State) : Host.Outcome State Fault Refusal :=
  .next (if s.windowed pkg q then s.writeTail pkg q value else s)

/-- SIEVE_RECARVE: a changed SVLOG2 takes effect when the core holds no hart; the new Sieve is empty (R364,
R105). -/
def execSieveRecarve (pkg core : Nat) (s : State) : Host.Outcome State Fault Refusal :=
  let die := core / 96
  let n := core % 96
  let c := s.core pkg die n
  let size := s.sieveWanted pkg core
  if 384 ≤ core ∨ (s.blockBase pkg 1).isNone ∨ c.sieve = size
      ∨ s.harts.any fun h => h.pkg == pkg && h.die == die && h.core == n then .next s
  else
    let c := { c with sieve := size }
    let first := 48 - c.sieveUnits
    let base := vaultKey pkg die n (65536 * first)
    let s := s.setCore { c with units := c.units.filter fun u => decide (u.1 < first) }
    .next ((s.wipe base (65536 * c.sieveUnits)).emptyEntries base (65536 * c.sieveUnits) size)

end Sys2Proof.Machine
end

