-- ==== Sys2Proof/Machine/Circuit.lean ====
section
/-! DEFINITION. Circuits (12 R280, R281; 20 R393 to R396): posts, the slot table, the control mesh and rotations.
A step whose event is not due changes nothing. A circuit of package p, entry n of its table number e, has number
65536 e + 256 p + n. -/

namespace Sys2Proof.Machine

/-! ### Shared operations -/

/-- Core clocks of 10 ns at the nominal 1.20 GHz (01 R13). Log 86 (DESIGN CHOICE). -/
def clocksPer10ns : Nat := 12

/-- A hart as an engine of its package translates for it: its name and asid. -/
def engineHart (r : HartRef) (asid : BitVec 16) : Hart := { ref := r, status := .running, sup := { asid := asid } }

/-- A failure of checks 1 to 7 of R88: checks 8 and 9 are the home's. -/
def atIssue (e : Fail ⊕ Fault) : Bool :=
  match e with
  | .inl f => f.home.isNone && f.cause != 0x08
  | .inr _ => false

/-- Checks 1 to 7 of an operand address. -/
def State.check17 (s : State) (a : Quad) (align : Nat) (k : AccKind) (rule : SpaceRule) : Except Stop Unit :=
  match s.check19 s.hart s.hart.asid a align k rule with
  | .ok _ => .ok ()
  | .error e => if atIssue e then .error (s.raise s.hart k e) else .ok ()

/-- The package that a PGAS or vault address names. -/
def Hart.pkgOfAddr (h : Hart) (a : Quad) : Nat := pkgOf h.pkg (fieldOf a 53 8)

/-- Entries of the current slot table from a package to a destination. -/
def Package.routes (p : Package) (dest : Nat) : List CircuitEntry :=
  match p.table with
  | none => []
  | some t => t.entries.filter fun e => e.dest == dest && !e.failed

/-- Enter interlock ranges for a command that no engine of the core runs (R133). -/
def State.enterRanges (s : State) (es : List Interlock) : Except Stop State :=
  let es := es.filter fun e => decide (e.base < e.limit)
  if es.any (fun e => s.hart.interlocked e.base (e.limit - e.base) e.write) || s.hart.cmds.any (·.queued)
      || decide (Config.interlockEntries < s.hart.interlock.length + es.length) then .error (.hold .engine)
  else .ok (s.mapHart fun h => { h with interlock := h.interlock ++ es })

/-- Perform the earlier accesses of the hart to what a command of Mucen will access, of which one writes; wait for one that
cannot be performed, or that stands in the queue (R118). -/
def State.storesBefore (s : State) (a : Quad) (n : Nat) (write : Bool) : Except Stop State :=
  let lo := s.hart.canon a
  let left := fun (h : Hart) => h.pend.any fun x => (write || x.op.writes) && meets lo n (h.canon x.shown) x.size
  if s.hart.queueTouches lo n write then .error (.hold .presence)
  else if !left s.hart then .ok s
  else
    let s := s.drain
    if left s.hart || s.hart.struck then .error (.hold .presence) else .ok s

/-- Numbers of the instructions with an access to a range that is still to be performed, in the queue or in flight. -/
def Hart.earlier (h : Hart) (a : Quad) (n : Nat) : List Nat :=
  let lo := h.canon a
  (h.pend.filter fun x => x.op.writes && meets lo n (h.canon x.shown) x.size).map (·.seq)
    ++ (if h.thaw then (h.frozen.filter fun e => e.ranges.any fun r => r.2 && meets lo n (h.canon r.1.1) r.1.2).map (·.seq) else [])

/-- The instructions of a hart with these numbers are done: no load or access of them is left. -/
def State.unheld (s : State) (r : HartRef) (gang : Word) (waits : List Nat) : Bool :=
  match s.findHart r with
  | none => true
  | some h => h.csr.gangid != gang || waits.all fun n =>
      !h.pend.any (·.seq == n) && !h.colls.any (·.order == n) && !h.frozen.any (·.seq == n)

/-- A post or request ends at its hart: its ranges clear, its status bit and its counter (R132, R281, R284). -/
def Hart.endRemote (h : Hart) (seq : Nat) (k : KReg) (failed : Bool) : Hart :=
  let h := ({ h with interlock := h.interlock.filter (·.seq != seq) } : Hart).takeEntries h.cmds.length
  (if failed then h.kstatBit 1 k else h).bumpK k

/-- A machine check for a poisoned granule at a physical address (R419, R420). -/
def State.checkGranule (s : State) (pkg kind phys : Nat) (asid : BitVec 16) : State :=
  let a := checkAddr phys
  s.machineCheck pkg a.1 kind a.2 1 asid

/-- The posts of the send queue to a destination: a post leaves it when its last payload is sent (R321). -/
def Package.queued (p : Package) (dest : Nat) : List Post :=
  p.posts.filter fun x => x.dest == dest && decide (x.next < x.len)

/-! ### sqpost and sqstat (R280) -/

/-- sqpost. Loads that its operands depend on, and accesses to its source that come before it, hold the post and not the
hart (R118, R127). -/
def execSqpost (sd sa sb sc : SReg) (k : KReg) (s : State) : Host.Outcome State Fault Refusal :=
  let s := s.needS [sd, sa, sb, sc]
  let t := s.hart.taintS sa ||| s.hart.taintS sb ||| s.hart.taintS sc ||| s.hart.ct
  let s := if s.hart.pendingOf t then s.drain else s
  finish s (do
    if s.hart.struck then .error (.hold .presence) else .ok ()
    let h := s.hart
    let src := h.getS sa
    let dst := h.getS sb
    let n := (h.getS sc).toNat
    s.check17 src 64 .engRead .own
    s.check17 dst 64 .engWrite .home
    if n % 64 ≠ 0 ∨ n < 64 ∨ 2 ^ 32 - 64 < n then .error (insnTrap s 0x05) else .ok ()
    let dest := h.pkgOfAddr dst
    let p := s.pack h.pkg
    let done := fun (s : State) (x : Quad) => (s.mapHart (·.setS sd x 0)).done 8
    if dest = h.pkg ∨ p.routes dest = [] then .ok (done s 2)
    else if 64 ≤ (p.queued dest).length then .ok (done s 1)
    else
      let s ← s.enterRanges [h.entry (src, n) false k]
      let post : Post := { number := s.serial, dest := dest, src := src, dst := dst, len := n, hart := h.ref,
                           gang := h.csr.gangid, asid := h.asid, k := k, seq := h.seq, nearest := h.rankRange (src, n),
                           waits := h.holders t ++ h.earlier src n }
      .ok (done ((s.setPack { p with posts := p.posts ++ [post] }).nextSerial.nextSeq) 0))

/-- sqstat. -/
def execSqstat (sd sa : SReg) (s : State) : Host.Outcome State Fault Refusal :=
  let s := s.needS [sd, sa]
  let n := (s.hart.getS sa).toNat
  finish s (
    if 254 < n ∨ !s.routed s.hart.pkg n then .error (openTrap s 0x07)
    else
      let p := s.pack s.hart.pkg
      let mine := p.queued n
      let pending := min 0xFFFFFFFF (mine.foldl (fun t x => t + (x.len - x.next)) 0)
      let slots := if n = s.hart.pkg then 0 else ((p.routes n).map (·.slot)).eraseDups.length
      let w := pending * 2 ^ 32 + slots * 2 ^ 16 + (64 - mine.length) * 256 + mine.length
      .ok ((s.mapHart (·.setS sd (BitVec.ofNat 64 w) 0)).done 8))

/-! ### Sending and placing (R281) -/

def State.setPost (s : State) (pkg : Nat) (x : Post) : State :=
  let p := s.pack pkg
  s.setPack { p with posts := p.posts.map fun y => if y.number = x.number then x else y }

/-- Read the pieces of a payload: its bytes with their offsets, the poisoned granules among them, and the
bytes that could not be read. -/
def State.readPayload (s : State) (pkg : Nat) (x : Post) : List (Nat × Nat) → State × List (Nat × List Byte × List Nat) × Nat
  | [] => (s, [], 0)
  | (a, n) :: r =>
    let h := engineHart x.hart x.asid
    let off := (BitVec.ofNat 64 a - x.src).toNat
    match s.check19 h x.asid (BitVec.ofNat 64 a) 64 .engRead .own with
    | .error (.inl f) =>
      let (s, l, lost) := (s.logFail h f false .engRead).readPayload pkg x r
      (s, l, lost + n)
    | .error (.inr _) =>
      let (s, l, lost) := s.readPayload pkg x r
      (s, l, lost + n)
    | .ok l =>
      let bad := (List.range (n / 32)).filter fun i => s.poisoned (l.phys + 32 * i)
      let s := bad.foldl (fun s i => s.checkGranule pkg 3 (l.phys + 32 * i) x.asid) s
      let bytes := (List.range n).map fun i => readByte s.mem (l.phys + i)
      let (s, rest, lost) := s.readPayload pkg x r
      (s, (off, bytes, bad) :: rest, lost)

/-- When the colours of a circuit end what they send: they began at clock `at_` and have sent n bytes without a pause, at
200 Gb/s each. In units of 1 / (125 c) of a clock, c being the number of colours. -/
def sendEnd (colours : BitVec 16) (at_ n : Nat) : Nat := 125 * popCount colours.toNat 16 * at_ + 6 * n

/-- The circuit of the running slot to a destination, and the clock by which a packet must end. -/
def Package.openCircuit (p : Package) (dest : Nat) : Option (CircuitEntry × Nat) :=
  match p.table, p.rotation.slot with
  | some t, some n =>
    if !p.rotation.running then none
    else
      (t.entries.find? fun e => e.dest == dest && e.slot == n && e.acked && !e.failed && e.colours != 0).map fun e =>
        (e, p.rotation.start + ((n + 1) * t.slotlen - t.guard_) * clocksPer10ns)
  | _, _ => none

/-- CIRCUIT_PACKET_SEND: the next payload of a send queue leaves in a slot to its destination, behind the packet before
it, if it ends before the guard (R281, R318). -/
def execCircuitPacketSend (pkg dest : Nat) (s : State) : Host.Outcome State Fault Refusal :=
  let p := s.pack pkg
  match p.posts.find? (fun x => x.dest == dest && decide (x.next < x.len) && !x.cut), p.openCircuit dest with
  | some x, some (e, limit) =>
    if !s.unheld x.hart x.gang x.waits then .next s else
    let n := min 4096 (x.len - x.next)
    let unit := 125 * popCount e.colours.toNat 16
    let was := assocGet p.rotation.busy e.index (s.clock, 0)
    let idle := sendEnd e.colours was.1 was.2 ≤ unit * s.clock
    let now := if idle then (s.clock, n + 64) else (was.1, was.2 + n + 64)
    if unit * (s.clock + 1) ≤ sendEnd e.colours was.1 was.2 ∨ unit * limit < sendEnd e.colours now.1 now.2 then .next s
    else
      let s := s.setPack { p with rotation := { p.rotation with busy := assocSet p.rotation.busy e.index now } }
      let (s, sent, lost) := s.readPayload pkg x (pieces 3 ((x.src.toNat + x.next) % 2 ^ 64) n)
      let bad := sent.any fun y => !y.2.2.isEmpty
      .next (s.setPost pkg { x with
        next := x.next + n, placed := x.placed + lost, failed := x.failed || bad || decide (lost ≠ 0),
        flying := x.flying ++ sent })
  | _, _ => .next s

/-- Place the pieces of a payload at its destination: what could not be placed is recorded there. -/
def State.placePayload (s : State) (x : Post) (bytes : List Byte) (bad : List Nat) (first : Nat) :
    List (Nat × Nat) → State × Bool
  | [] => (s, false)
  | (a, n) :: r =>
    let h := engineHart x.hart x.asid
    let at_ := (BitVec.ofNat 64 a - x.dst).toNat - first
    match s.check19 h x.asid (BitVec.ofNat 64 a) 64 .engWrite .home with
    | .error (.inl f) => (((s.logFail h f false .engWrite).placePayload x bytes bad first r).1, true)
    | .error (.inr _) => ((s.placePayload x bytes bad first r).1, true)
    | .ok l =>
      let part := (bad.filter fun i => decide (at_ ≤ 32 * i ∧ 32 * i < at_ + n)).map fun i => i - at_ / 32
      (s.placeBytes l.phys ((bytes.drop at_).take n) part).placePayload x bytes bad first r

/-- CIRCUIT_PAYLOAD_PLACE: the destination places payload i of a post by its offset, or logs a failure. -/
def execCircuitPayloadPlace (pkg post payload : Nat) (s : State) : Host.Outcome State Fault Refusal :=
  match (s.pack pkg).posts.find? (·.number == post) with
  | none => .next s
  | some x =>
    match x.flying[payload]? with
    | none => .next s
    | some (off, bytes, bad) =>
      if x.cut then .next s
      else
        let (s, lost) := s.placePayload x bytes bad off (pieces 3 ((x.dst.toNat + off) % 2 ^ 64) bytes.length)
        .next (s.setPost pkg { x with
          flying := x.flying.eraseIdx payload, placed := x.placed + bytes.length, failed := x.failed || lost })

/-- POST_COMPLETE: every byte of a post is placed or given up, or its circuit has failed; its counter advances. -/
def execPostComplete (pkg post : Nat) (s : State) : Host.Outcome State Fault Refusal :=
  let p := s.pack pkg
  match p.posts.find? (·.number == post) with
  | none => .next s
  | some x =>
    if !x.cut ∧ x.placed < x.len then .next s
    else
      .next ((s.setPack { p with posts := p.posts.filter (·.number != post) }).onSender x.hart x.gang
        (·.endRemote x.seq x.k (x.failed || x.cut)))

/-! ### The slot table (R395) -/

/-- The port of a circuit as ports are numbered: P24 to P31. -/
def circuitPort (n : Nat) : Nat := n + 24

/-- A hop names a trunk port of its package; the first in-port and the last out-port are ignored. -/
def State.hopTrunk (s : State) (h : Hop) (first last : Bool) : Bool :=
  let p := s.pack h.pkg
  (!first && p.trunk (circuitPort h.inPort)) || (!last && p.trunk (circuitPort h.outPort))

/-- Entry n of the slot table that is read as number `epoch`; none where no colour is given. -/
def State.circuitEntry (s : State) (pkg epoch n : Nat) : Option CircuitEntry :=
  let a := s.fabricQuad pkg (0x1040 + 16 * n)
  let b := s.fabricQuad pkg (0x1048 + 16 * n)
  let path := (List.range (fieldOf a 29 2 + 1)).map fun i =>
    let x := fieldOf b (16 * i) 14
    ({ pkg := x / 64, inPort := x / 8 % 8, outPort := x % 8 } : Hop)
  if fieldOf a 13 16 = 0 then none
  else some { index := n, slot := fieldOf a 0 5, num := 65536 * epoch + 256 * pkg + n, dest := fieldOf a 5 8,
              colours := a.extractLsb' 13 16, path := path }

/-- The header's third quad, changed. -/
def State.setSlotStatus (s : State) (pkg : Nat) (f : Quad → Quad) : State :=
  match s.blockBase pkg 2 with
  | none => s
  | some b => { s with mem := writeQuad s.mem (b + 0x1010) (f (readQuad s.mem (b + 0x1010))) }

/-- When every entry sourced here is acknowledged, LOAD is cleared and READY set. -/
def State.slotReady (s : State) (pkg : Nat) : State :=
  match (s.pack pkg).loaded with
  | none => s
  | some t =>
    if t.entries.all (fun e => e.acked) then
      (s.setPack { s.pack pkg with loadTaken := false }).setSlotStatus pkg fun q => (q &&& ~~~1#64) ||| 2
    else s

/-- A control packet for a package. -/
def State.meshSend (s : State) (pkg : Nat) (m : MeshPacket) : State :=
  let p := s.pack pkg
  s.setPack { p with mesh := p.mesh ++ [m] }

/-- Take a control packet, if it is there. -/
def State.meshTake (s : State) (pkg : Nat) (m : MeshPacket) : Option State :=
  let p := s.pack pkg
  if p.mesh.contains m then some (s.setPack { p with mesh := p.mesh.erase m }) else none

def CircuitEntry.circuit (e : CircuitEntry) (epoch : Nat) : Circuit :=
  { epoch := epoch, slot := e.slot, num := e.num, colours := e.colours, path := e.path }

/-- An entry of the table being set up, changed. Log 85 (DESIGN CHOICE). -/
def State.setEntry (s : State) (pkg num : Nat) (f : CircuitEntry → CircuitEntry) : State :=
  let p := s.pack pkg
  match p.loaded with
  | none => s
  | some t => s.setPack { p with loaded := some { t with entries := t.entries.map fun e => if e.num = num then f e else e } }

/-- An entry fails: FAIL is set (R394). -/
def State.failEntry (s : State) (pkg num : Nat) : State :=
  (s.setEntry pkg num fun e => { e with failed := true, retryAt := none }).setSlotStatus pkg (· ||| 4)

/-- Tear down circuits, from their source on (R393). -/
def State.tearDown (s : State) (pkg : Nat) (es : List CircuitEntry) : State :=
  let p := s.pack pkg
  es.foldl (fun s e => s.meshSend pkg (.teardown e.num)) (s.setPack { p with retired := p.retired ++ es })

/-- SLOT_TABLE_LOAD: Mucen sees that the supervisor has set LOAD, reads the table, and sends a SETUP for each entry it
sources. The circuits of a table that never came to run are torn down. -/
def execSlotTableLoad (pkg : Nat) (s : State) : Host.Outcome State Fault Refusal :=
  let p := s.pack pkg
  if !bitOf (s.fabricQuad pkg 0x1010) 0 then .next (s.setPack { p with loadTaken := false })
  else if p.loadTaken then .next s
  else
    let h := s.fabricQuad pkg 0x1000
    let epoch := p.epochs + 1
    let entries := ((List.range 256).filterMap (s.circuitEntry pkg epoch)).filter fun e => (e.path.head?.map (·.pkg)) == some pkg
    let t : SlotTable := { epoch := epoch, actrot := fieldOf h 32 32, master := fieldOf h 24 8, nslot := fieldOf h 20 4 + 1,
                           guard_ := fieldOf h 10 10, slotlen := fieldOf (s.fabricQuad pkg 0x1008) 0 32, entries := entries }
    let unused := (p.loaded.elim [] SlotTable.entries)
    let s := (s.setPack { p with loaded := some t, epochs := epoch, loadTaken := true }).setSlotStatus pkg (· &&& ~~~2#64)
    let s := s.tearDown pkg unused
    .next ((entries.foldl (fun s e => s.meshSend pkg (.setup (e.circuit epoch))) s).slotReady pkg)

/-! ### The control mesh (R393, R394) -/

/-- Two reservations share an in-port colour or an out-port colour in a slot. -/
def Reservation.clash (a b : Reservation) : Bool :=
  a.slot == b.slot && a.colours &&& b.colours != 0
    && ((!a.first && !b.first && a.hop.inPort == b.hop.inPort) || (!a.last && !b.last && a.hop.outPort == b.hop.outPort))

/-- The path of a circuit number, from the tables of its source. -/
def State.pathOf (s : State) (num : Nat) : List Hop :=
  let p := s.pack (num / 256 % 256)
  match (p.loaded.elim [] (·.entries) ++ p.table.elim [] (·.entries) ++ p.retired).find? (·.num == num) with
  | some e => e.path
  | none => []

/-- The package before a package on a path. -/
def prevHop (pkg : Nat) : List Hop → Option Nat
  | a :: b :: r => if b.pkg = pkg then some a.pkg else prevHop pkg (b :: r)
  | _ => none

def nextHop (pkg : Nat) : List Hop → Option Nat
  | a :: b :: r => if a.pkg = pkg then some b.pkg else nextHop pkg (b :: r)
  | _ => none

/-- SETUP: a hop reserves its switch tentatively and forwards; the last hop answers ACK, a busy one BUSY. -/
def execSetup (pkg : Nat) (c : Circuit) (s : State) : Host.Outcome State Fault Refusal :=
  match s.meshTake pkg (.setup c), c.path.find? (·.pkg == pkg) with
  | some s, some hop =>
    let p := s.pack pkg
    let first := (prevHop pkg c.path).isNone
    let last := (nextHop pkg c.path).isNone
    let r : Reservation := { num := c.num, epoch := c.epoch, slot := c.slot, hop := hop, colours := c.colours, first := first,
                             last := last, committed := false }
    if s.hopTrunk hop first last ∨ p.reservations.any r.clash then
      .next (s.meshSend ((prevHop pkg c.path).getD pkg) (.busy c.num pkg))
    else
      let s := s.setPack { p with reservations := p.reservations ++ [r] }
      .next (match nextHop pkg c.path with
        | some n => s.meshSend n (.setup c)
        | none => s.meshSend pkg (.ack c.num))
  | _, _ => .next s

/-- CIRCUIT_ACK: a hop commits its reservation as the acknowledgement travels back; that of a TEARDOWN finds none. -/
def execCircuitAck (pkg num : Nat) (s : State) : Host.Outcome State Fault Refusal :=
  match s.meshTake pkg (.ack num) with
  | none => .next s
  | some s =>
    let p := s.pack pkg
    let s := s.setPack { p with
      reservations := p.reservations.map fun r => if r.num = num then { r with committed := true } else r }
    .next (match prevHop pkg (s.pathOf num) with
      | some n => s.meshSend n (.ack num)
      | none =>
        let p := s.pack pkg
        if p.retired.any (·.num == num) then s.setPack { p with retired := p.retired.filter (·.num != num) }
        else (s.setEntry pkg num fun e => { e with acked := true }).slotReady pkg)

/-- The BUSY of a circuit that is on its way to a package, with the hop whose switch was busy. -/
def Package.busyFor (p : Package) (num : Nat) : Option Nat :=
  p.mesh.findSome? fun m => match m with
    | .busy n hop => if n = num then some hop else none
    | _ => none

/-- BUSY: a hop releases its tentative reservation; the source waits a random delay, or fails after 16 attempts. -/
def execBusy (pkg num : Nat) (s : State) : Host.Outcome State Fault Refusal :=
  let hop := ((s.pack pkg).busyFor num).getD pkg
  match s.meshTake pkg (.busy num hop) with
  | none => .next s
  | some s =>
    let p := s.pack pkg
    let s := s.setPack { p with reservations := p.reservations.filter fun r => !(r.num == num && !r.committed) }
    match prevHop pkg (s.pathOf num) with
    | some n => .next (s.meshSend n (.busy num hop))
    | none =>
      let attempts := match (s.pack pkg).loaded with
        | none => 0
        | some t => (match t.entries.find? (·.num == num) with
          | some e => e.attempts + 1
          | none => 0)
      if 16 ≤ attempts then .next (s.failEntry pkg num)
      else
        let wait := (Config.value s.free).toNat % 2 ^ min attempts 10 * clocksPerUs
        .next (s.setEntry pkg num fun e => { e with attempts := attempts, retryAt := some (s.clock + wait) }).drawn

/-- SETUP_RETRY: the delay ends and the SETUP is sent again. -/
def execSetupRetry (pkg num : Nat) (s : State) : Host.Outcome State Fault Refusal :=
  match (s.pack pkg).loaded with
  | none => .next s
  | some t =>
    match t.entries.find? (·.num == num) with
    | none => .next s
    | some e =>
      match e.retryAt with
      | none => .next s
      | some at_ =>
        if s.clock < at_ then .next s
        else .next ((s.setEntry pkg num fun e => { e with retryAt := none }).meshSend pkg (.setup (e.circuit t.epoch)))

/-- TEARDOWN: a hop releases a circuit and forwards; the last hop answers ACK. -/
def execTeardown (pkg num : Nat) (s : State) : Host.Outcome State Fault Refusal :=
  match s.meshTake pkg (.teardown num) with
  | none => .next s
  | some s =>
    let p := s.pack pkg
    let s := s.setPack { p with reservations := p.reservations.filter (·.num != num) }
    .next (match nextHop pkg (s.pathOf num) with
      | some n => s.meshSend n (.teardown num)
      | none => s.meshSend pkg (.ack num))

/-! ### Rotations (R396) -/

/-- Clocks of a rotation of a table. -/
def SlotTable.clocks (t : SlotTable) : Nat := t.nslot * t.slotlen * clocksPer10ns

/-- SLOT_START: a slot of the rotation begins on the local clock, once in the rotation. -/
def execSlotStart (pkg slot : Nat) (s : State) : Host.Outcome State Fault Refusal :=
  let p := s.pack pkg
  match p.table with
  | none => .next s
  | some t =>
    if !p.rotation.running ∨ t.nslot ≤ slot ∨ slot < p.rotation.begun ∨ s.clock < p.rotation.start + slot * t.slotlen * clocksPer10ns
        ∨ p.rotation.start + (slot + 1) * t.slotlen * clocksPer10ns ≤ s.clock then .next s
    else .next (s.setPack { p with rotation := { p.rotation with slot := some slot, begun := slot + 1, busy := [] } })

/-- SWITCH_CHANGE: half a guard before the end of the slot, the switches are set for the next one. -/
def execSwitchChange (pkg : Nat) (s : State) : Host.Outcome State Fault Refusal :=
  let p := s.pack pkg
  match p.table, p.rotation.slot with
  | some t, some n =>
    if s.clock + t.guard_ * clocksPer10ns / 2 < p.rotation.start + (n + 1) * t.slotlen * clocksPer10ns then .next s
    else
      .next (s.setPack { p with rotation := { p.rotation with slot := none, switches := some ((n + 1) % max 1 t.nslot) } })
  | _, _ => .next s

/-- Posts to destinations without a slot count a rotation; after four they end (R396). -/
def Package.countIdle (p : Package) : Package :=
  { p with posts := p.posts.map fun x =>
      if (p.routes x.dest).isEmpty then { x with idle := x.idle + 1, cut := x.cut || decide (4 ≤ x.idle + 1) }
      else { x with idle := 0 } }

/-- A port whose plan changes TRUNK takes it once no circuit uses the port (R391). -/
def State.newTrunks (s : State) (pkg : Nat) : State :=
  let p := s.pack pkg
  s.setPack { p with trunks := (List.range 8).map fun i =>
    let port := circuitPort i
    let want := bitOf (s.fabricQuad pkg (0x100 + 16 * port)) 32
    let used := p.reservations.any fun r => (!r.first && r.hop.inPort == i) || (!r.last && r.hop.outPort == i)
    (port, if used then p.trunk port else want) }

/-- A rotation starts here with a ROTSTART; with READY set and its number reached, the new table replaces the old one, whose
circuits are torn down (R395). -/
def State.startRotation (s : State) (pkg rot : Nat) : State :=
  let p := s.pack pkg
  let ready := bitOf (s.fabricQuad pkg 0x1010) 1
  let swap := (s.pack pkg).loaded.any fun t => ready && decide (t.actrot ≤ rot)
  let old := match p.table with
    | some t => if swap then t.entries else []
    | none => []
  let p' := { p with
    rotation := { running := true, number := rot, heard := some rot, start := s.clock, slot := none, own := 0, switches := some 0 },
    table := if swap then p.loaded else p.table, loaded := if swap then none else p.loaded }
  ((s.setPack p'.countIdle).tearDown pkg old).newTrunks pkg

/-- The package may start rotation `rot` as the master, with the epoch of the table that then runs: its last rotation has
run its length, and the numbers rise. The step gives the first number; while no table has run, the one that is set up names
the master. Log 87 (DEDUCED), 145 (DESIGN CHOICE). -/
def State.masterDue (s : State) (pkg rot epoch : Nat) : Bool :=
  let p := s.pack pkg
  let ready := bitOf (s.fabricQuad pkg 0x1010) 1
  let next := if p.loaded.any fun t => ready && decide (t.actrot ≤ rot) then p.loaded else p.table
  match (match p.table with
    | some t => some t
    | none => p.loaded) with
  | none => false
  | some t => t.master == pkg && (p.rotation.heard.isNone || rot == p.rotation.number + 1)
      && epoch == (next.elim 0 (·.epoch)) && (!p.rotation.running || decide (p.rotation.start + t.clocks ≤ s.clock))

/-- The packages whose Mucens the circuit ports of a package are cabled to (R381, R393). -/
def State.meshNeighbours (s : State) (pkg : Nat) : List Nat :=
  ((List.range 8).filterMap fun i => (Config.cable pkg i).map (·.1)).filter fun n => s.pkgs.any (·.pkg == n)

/-- A package starts a rotation and floods its ROTSTART on along the cabling. -/
def State.flood (s : State) (pkg rot epoch : Nat) : State :=
  (s.meshNeighbours pkg).foldl (fun s n => s.meshSend n (.rotstart rot epoch)) (s.startRotation pkg rot)

/-- ROTSTART: a rotation-start packet arrives, and the first with its number starts the rotation and is flooded on; or the
master starts one (R393, R396). -/
def execRotstart (pkg rot epoch : Nat) (s : State) : Host.Outcome State Fault Refusal :=
  match s.meshTake pkg (.rotstart rot epoch) with
  | some s => .next (if (s.pack pkg).rotation.heard.any fun n => decide (rot ≤ n) then s else s.flood pkg rot epoch)
  | none => .next (if s.masterDue pkg rot epoch then s.flood pkg rot epoch else s)

/-- ROTATION_TIMEOUT: no ROTSTART has come in time; after four rotations of its own, Mucen stops. -/
def execRotationTimeout (pkg : Nat) (s : State) : Host.Outcome State Fault Refusal :=
  let p := s.pack pkg
  match p.table with
  | none => .next s
  | some t =>
    if !p.rotation.running ∨ s.clock < p.rotation.start + t.clocks + t.guard_ * clocksPer10ns / 2 then .next s
    else if 4 ≤ p.rotation.own then .next (s.setPack { p with rotation := { p.rotation with running := false, slot := none } })
    else
      .next (s.setPack ({ p with rotation := { p.rotation with
        number := p.rotation.number + 1, start := s.clock, slot := none, begun := 0, own := p.rotation.own + 1 } } : Package).countIdle)

end Sys2Proof.Machine
end

