-- ==== Sys2Proof/Machine/Links.lean ====
section
/-! DEFINITION. Colours, flits, FEC modes, port plans, lane remap and failed paths (20 R380 to R392, R397). A colour's far
end is the lane of the package that its fibre leads to; where that package is no part of the state, the step gives what
the far end sends. -/

namespace Sys2Proof.Machine

/-! ### Shared operations -/

def Package.setColour (p : Package) (c : Colour) : Package :=
  { p with colours := c :: p.colours.filter fun x => !(x.port == c.port && x.colour == c.colour) }

/-- Change one colour of a port. -/
def State.onColour (s : State) (l : Lane) (f : Colour → Colour) : State :=
  let p := s.pack l.pkg
  s.setPack (p.setColour (f (p.colour l.port l.colour)))

def State.colourAt (s : State) (l : Lane) : Colour := (s.pack l.pkg).colour l.port l.colour

def Light.lit : Light → Bool
  | .warming | .up => true
  | .dark | .draining => false

/-- Field of a port's plan (R391). -/
def State.planQuad (s : State) (pkg port i : Nat) : Quad := s.fabricQuad pkg (0x100 + 16 * port + 8 * i)

/-! ### The two ends of a colour (R381 to R383, R386) -/

/-- The pod position at the other end of colour k from position a, where it sends or where it receives. -/
def farPosition (a k : Nat) (out : Bool) : Nat := if out then (a + 1 + k % 63) % 64 else (a + 63 - k % 63) % 64

/-- The packages and pod positions to which the routing table has a direct entry. -/
def State.podPositions (s : State) (pkg : Nat) : List (Nat × Nat) :=
  (List.range 255).filterMap fun d =>
    let q := s.routeQuad pkg d
    if fieldOf q 0 2 = 2 ∧ !bitOf q 15 then some (d, fieldOf q 2 6) else none

/-- The colours of a port that reach a package, in a direction: the others stay dark (R382, R383). Log 141 (DEDUCED). -/
def State.reach (s : State) (pkg port : Nat) (out : Bool) : BitVec 16 :=
  if 24 ≤ port then 0xFFFF
  else
    let a := s.ownPosition pkg
    let ps := (s.podPositions pkg).map (·.2)
    (List.range 16).foldl (fun (m : BitVec 16) c =>
      let k := 16 * port + c
      if k < 378 ∧ ps.contains (farPosition a k out) then m ||| (1#16 <<< c) else m) 0

/-- The lane that receives what a lane sends, or that sends what it receives: of a trunk, as it is cabled. None where that
package is no part of the state. Log 146 (DESIGN CHOICE). -/
def State.farLane (s : State) (l : Lane) (out : Bool) : Option Lane :=
  let far :=
    if 24 ≤ l.port then
      match Config.cable l.pkg (l.port - 24) with
      | some (q, j) =>
        if (s.pack l.pkg).trunk l.port && (s.pack q).trunk (circuitPort j) && Config.cable q j == some (l.pkg, l.port - 24) then
          some (⟨q, circuitPort j, l.colour⟩ : Lane)
        else none
      | none => none
    else
      let k := 16 * l.port + l.colour
      if 378 ≤ k then none
      else ((s.podPositions l.pkg).find? fun d => d.2 == farPosition (s.ownPosition l.pkg) k out).map fun d =>
        ⟨d.1, l.port, l.colour⟩
  far.filter fun x => s.pkgs.any (·.pkg == x.pkg)

/-- Take a control flit that a far lane has sent; where the far end is no part of the state, any may come. -/
def State.takeControl (s : State) (far : Option Lane) (m : Control) : Option State :=
  match far with
  | none => some s
  | some x =>
    if (s.colourAt x).sent.contains m then some (s.onColour x fun c => { c with sent := c.sent.erase m }) else none

/-! ### Flits (R387) -/

/-- Flits arrive: the lane is powered and trained, has its light, and is not pausing for a remap (R392, R397). -/
def Colour.receives (c : Colour) : Bool :=
  (c.rx == .up || c.rx == .draining) && c.rxLost.isNone && !c.remapping

/-- The colour can send this flit next: the first that is to be sent again, or, where it may carry new flits, one with the
next number. A control flit goes in mode 0, others in the mode of the direction (R387, R389, R392). -/
def Colour.sends (c : Colour) (f : Flit) : Bool :=
  c.txLost.isNone && !c.remapping && f.mode == (if f.type = 0 then 0 else c.txMode) && (match c.replay with
    | r :: _ => (c.tx == .up || c.tx == .draining) && r.type == f.type && r.lseq == f.lseq && r.content == f.content
    | [] => c.tx == .up && !c.asked && f.lseq == c.txSeq)

/-- The sender's side of a flit that leaves: it can be asked for again while its number is not in use anew. -/
def Colour.send (c : Colour) (f : Flit) : Colour :=
  match c.replay with
  | _ :: r => { c with replay := r }
  | [] =>
    let w := c.window ++ [{ f with good := true }]
    { c with window := w.drop (w.length - 2047), txSeq := c.txSeq + 1 }

/-- Clocks of a second. -/
def clocksPerSecond : Nat := clocksPerUs * 10 ^ 6

/-- What decoding a flit counts: its corrected symbols, up to the 15 or 31 that its code corrects, or an uncorrectable
codeword. The step draws them. Log 89 (DESIGN CHOICE). -/
def Colour.count (c : Colour) (f : Flit) (now : Nat) (v : Quad) : Colour :=
  if f.good then
    let n := v.toNat % (if f.mode = 0 then 16 else 32)
    { c with corr := c.corr + BitVec.ofNat 32 n, errs := (now, n) :: c.errs.filter fun e => decide (now < e.1 + clocksPerSecond) }
  else { c with uncorr := c.uncorr + BitVec.ofNat 16 (v.toNat % 2) }

/-- The receiver's side of a flit: one that decodes and comes next is delivered once; one that does not decode, or comes too
early, is answered by a NAK with its number; one already taken is discarded. A number less than 2^11 past the one that is due
comes too early. Log 75 (DEDUCED), 89 (DESIGN CHOICE). -/
def Colour.receive (c : Colour) (f : Flit) : Colour :=
  if !f.good || f.mode == 3 then { c with sent := c.sent ++ [.nak f.lseq] }
  else if f.lseq = c.rxSeq then
    { c with taken := f :: c.taken, rxSeq := c.rxSeq + 1, flits := c.flits + 1,
             rxMode := if f.type = 0 then c.rxMode else f.mode }
  else if (f.lseq - c.rxSeq).toNat < 2 ^ 11 then { c with sent := c.sent ++ [.nak c.rxSeq] }
  else c

/-- The first request of a colour to stop using one. -/
def Colour.stopRequest (c : Colour) : Option (Nat × Nat) :=
  c.sent.findSome? fun m => match m with
    | .stopUsing port colour => some (port, colour)
    | _ => none

/-- A control flit from a far lane brings its request to stop using a colour (R392). -/
def State.obey (s : State) (pkg : Nat) (far : Option Lane) : State :=
  match far with
  | none => s
  | some x =>
    match (s.colourAt x).stopRequest with
    | none => s
    | some (port, colour) =>
      (s.onColour x fun c => { c with sent := c.sent.erase (.stopUsing port colour) }).onColour ⟨pkg, port, colour⟩ fun c =>
        { c with asked := true }

/-- FLIT_RECEIVE: a flit that the far end sends next arrives. -/
def execFlitReceive (l : Lane) (f : Flit) (s : State) : Host.Outcome State Fault Refusal :=
  let c := s.colourAt l
  let far := s.farLane l false
  if !c.receives || far.any fun x => !(s.colourAt x).sends f then .next s
  else
    let s := match far with
      | some x => s.onColour x (·.send f)
      | none => s
    let s := (s.onColour l fun c => (c.count f s.clock (Config.value s.free)).receive f).drawn
    .next (if f.type = 0 ∧ f.good ∧ f.lseq = c.rxSeq then s.obey l.pkg far else s)

/-- NAK: the sender replays from that flit. -/
def execNak (l : Lane) (lseq : BitVec 12) (s : State) : Host.Outcome State Fault Refusal :=
  match s.takeControl (s.farLane l true) (.nak lseq) with
  | none => .next s
  | some s => .next (s.onColour l fun c =>
      let again := c.window.dropWhile fun f => f.lseq != lseq
      if again.isEmpty then c else { c with replay := again, replays := c.replays + 1 })

/-! ### FEC modes (R389, R390) -/

/-- PROPOSE: the receiver answers every PROPOSE with an ACK. -/
def execPropose (l : Lane) (mode : BitVec 2) (epoch : BitVec 4) (s : State) : Host.Outcome State Fault Refusal :=
  if !(s.colourAt l).receives then .next s
  else
    match s.takeControl (s.farLane l false) (.propose mode epoch) with
    | none => .next s
    | some s => .next (s.onColour l fun c => { c with sent := c.sent ++ [.ack epoch] })

/-- FEC_ACK: data flits go in the new mode from here on. -/
def execFecAck (l : Lane) (epoch : BitVec 4) (s : State) : Host.Outcome State Fault Refusal :=
  match s.takeControl (s.farLane l true) (.ack epoch) with
  | none => .next s
  | some s => .next (s.onColour l fun c =>
      match c.proposal with
      | some (m, e) => if e = epoch then { c with txMode := m, proposal := none } else c
      | none => c)

/-- PROPOSE_REPEAT: no ACK has come within 1 µs, and the PROPOSE is sent again. -/
def execProposeRepeat (l : Lane) (s : State) : Host.Outcome State Fault Refusal :=
  .next (s.onColour l fun c =>
    match c.proposal with
    | some (m, e) =>
      if s.clock < c.proposedAt + clocksPerUs then c
      else { c with sent := c.sent ++ [.propose m e], proposedAt := s.clock }
    | none => c)

/-- Propose a mode for the outgoing direction. -/
def Colour.proposeMode (c : Colour) (now : Nat) (m : BitVec 2) : Colour :=
  { c with proposal := some (m, c.epoch), epoch := c.epoch + 1, sent := c.sent ++ [.propose m c.epoch], proposedAt := now }

/-- The mode wanted, held between the port plan's FLOOR and CEIL, is proposed where it is not the present one. Mode 3 is
reserved. -/
def State.tune (s : State) (l : Lane) (want : Nat) : State :=
  let q := s.planQuad l.pkg l.port 1
  let ceil := min (fieldOf q 2 2) 2
  let m := max (fieldOf q 0 2) (min ceil want)
  let c := s.colourAt l
  if c.tx = .up ∧ c.proposal.isNone ∧ m ≤ ceil ∧ m ≠ c.txMode.toNat then s.onColour l (·.proposeMode s.clock (BitVec.ofNat 2 m)) else s

/-- Corrected symbols in the millisecond that ends at a clock. -/
def Colour.rate (c : Colour) (now : Nat) : Nat :=
  (c.errs.filter fun e => decide (e.1 ≤ now ∧ now < e.1 + 1000 * clocksPerUs)).foldl (fun n e => n + e.2) 0

/-- The rate has stayed below a quarter of a threshold for a second. -/
def Colour.quiet (c : Colour) (thresh now : Nat) : Bool :=
  (c.errs.map (·.1)).all (fun at_ => decide (at_ + clocksPerSecond ≤ now) || decide (4 * c.rate at_ < thresh)) && decide (4 * c.rate now < thresh)

/-- THRESH of a port (R391). -/
def State.thresh (s : State) (l : Lane) : Nat := fieldOf (s.planQuad l.pkg l.port 1) 4 32

/-- FEC_THRESHOLD_CROSSED: the corrected-symbol rate, as the receiver counts it, passes the threshold, and a stronger mode is
proposed. Log 89 (DESIGN CHOICE). -/
def execFecThresholdCrossed (l : Lane) (s : State) : Host.Outcome State Fault Refusal :=
  let c := s.colourAt l
  let crossed := (s.farLane l true).all fun x => decide (s.thresh l < (s.colourAt x).rate s.clock)
  .next (s.tune l (c.txMode.toNat + if crossed then 1 else 0))

/-- FEC_QUIET_EXPIRY: after 1 s below a quarter of the threshold a weaker mode is proposed. -/
def execFecQuietExpiry (l : Lane) (s : State) : Host.Outcome State Fault Refusal :=
  let c := s.colourAt l
  let quiet := (s.farLane l true).all fun x =>
    decide (c.txAt + clocksPerSecond ≤ s.clock) && (s.colourAt x).quiet (s.thresh l) s.clock
  .next (s.tune l (c.txMode.toNat - if quiet then 1 else 0))

/-! ### Port plans (R391, R392) -/

/-- What a mask makes of a colour's light. One that is lit again while it drains carries on. Log 140 (DESIGN CHOICE). -/
def Light.apply (l : Light) (on : Bool) : Light :=
  if on then (match l with
    | .dark => .warming | .draining => .up | x => x)
  else (match l with
    | .up => .draining | .warming => .dark | x => x)

/-- The mask of a colour's far end; it is lit where that package is no part of the state. -/
def State.peerLit (s : State) (l : Lane) (out : Bool) : Bool :=
  (s.farLane l out).all fun x => let c := s.colourAt x; if out then c.rx.lit else c.tx.lit

/-- A pair that has a colour in use in a direction would have none under new masks of a port. Log 88 (DEDUCED). -/
def State.planBreaks (s : State) (pkg port : Nat) (tx rx : BitVec 16) : Bool :=
  (List.range 255).any fun dest =>
    [true, false].any fun out =>
      let used := fun (new : Bool) => (s.pairColours pkg dest out).any fun x =>
        let c := (s.pack pkg).colour x.1 x.2
        let now := if out then c.tx.lit else c.rx.lit
        (if new && x.1 == port then bitOf (if out then tx else rx) x.2 else now) && s.peerLit ⟨pkg, x.1, x.2⟩ out
      used false && !used true

/-- Set PLANERR of a port. -/
def State.planError (s : State) (pkg port : Nat) : State :=
  match s.blockBase pkg 2 with
  | none => s
  | some b => { s with mem := writeQuad s.mem (b + 0x380 + 8 * port) (readQuad s.mem (b + 0x380 + 8 * port) ||| 1) }

/-- The clock at which a direction was powered up, after a mask has taken effect. -/
def Light.since (l : Light) (on : Bool) (was now : Nat) : Nat := if l = .dark ∧ on then now else was

/-- The light of a direction that trains: it takes at least 15 µs (R392). Log 140 (DESIGN CHOICE). -/
def Light.train (l : Light) (since now : Nat) : Light :=
  if l = .warming ∧ since + 15 * clocksPerUs ≤ now then .up else l

/-- The new masks of a port take effect. -/
def Package.applyPlan (p : Package) (now port : Nat) (tx rx : BitVec 16) : Package :=
  (List.range 16).foldl (fun p i =>
    let c := p.colour port i
    p.setColour { c with
      tx := c.tx.apply (bitOf tx i), rx := c.rx.apply (bitOf rx i),
      txAt := c.tx.since (bitOf tx i) c.txAt now, rxAt := c.rx.since (bitOf rx i) c.rxAt now }) p

/-- A lane that is to be darkened asks its sender, on another colour of the pair, to stop using it. -/
def State.askStop (s : State) (l : Lane) : State :=
  match s.farLane l false with
  | none => s
  | some x =>
    match (s.pairColours l.pkg x.pkg true).find? (fun j => j != (l.port, l.colour) && decide (((s.pack l.pkg).colour j.1 j.2).tx = .up)) with
    | some j => s.onColour ⟨l.pkg, j.1, j.2⟩ fun c => { c with sent := c.sent ++ [.stopUsing x.port x.colour] }
    | none => s

/-- PORT_PLAN_CHANGE: changed lit masks are applied, or the plan is refused with PLANERR; modes outside FLOOR and CEIL are left. -/
def execPortPlanChange (pkg port : Nat) (s : State) : Host.Outcome State Fault Refusal :=
  let q := s.planQuad pkg port 0
  let tx : BitVec 16 := q.extractLsb' 0 16 &&& s.reach pkg port true
  let rx : BitVec 16 := q.extractLsb' 16 16 &&& s.reach pkg port false
  if 32 ≤ port ∨ (s.blockBase pkg 2).isNone then .next s
  else if s.planBreaks pkg port tx rx then .next (s.planError pkg port)
  else
    let stops := (List.range 16).filter fun i => ((s.pack pkg).colour port i).rx == .up && !bitOf rx i
    let s := s.setPack ((s.pack pkg).applyPlan s.clock port tx rx)
    let s := stops.foldl (fun s i => s.askStop ⟨pkg, port, i⟩) s
    .next ((List.range 16).foldl (fun s i => s.tune ⟨pkg, port, i⟩ ((s.pack pkg).colour port i).txMode.toNat) s)

/-- Every lit colour of one hop of a path has lost light or training. Log 73 (DEDUCED). -/
def State.pathDark (s : State) (lanes : List Lane) : Bool :=
  let lit := lanes.filter fun x => (s.colourAt x).tx.lit
  lit.any fun x => lit.all fun y => y.pkg != x.pkg || (s.colourAt y).txLost.isSome

/-- The paths from a package: those of its routing table, and those of packets already sent (R384). -/
def State.pathsFrom (s : State) (pkg : Nat) : List (Nat × List Lane) :=
  ((List.range 255).map (fun d => (d, s.pathLanes pkg d))
    ++ (s.harts.filter (·.pkg == pkg)).flatMap fun h => h.pend.filterMap fun a => match a.slice with
      | .remote p _ => some (p, a.path)
      | _ => none).eraseDups

/-- Each package's dark paths, as the light now is. -/
def State.noteDark (s : State) : State :=
  { s with pkgs := s.pkgs.map fun p =>
      let dark := (s.pathsFrom p.pkg).filter fun x => s.pathDark x.2
      { p with darkPaths := (p.darkPaths.filter fun d => dark.contains (d.dest, d.lanes))
          ++ (dark.filter fun x => !p.darkPaths.any fun d => d.dest == x.1 && d.lanes == x.2).map fun x => ⟨x.1, x.2, s.clock⟩ } }

/-- COLOUR_TRAINED: a lit colour has warmed up and trained, and carries flits; its sender has its light back, and may use it. -/
def execColourTrained (l : Lane) (s : State) : Host.Outcome State Fault Refusal :=
  let now := s.clock
  let alone := (s.farLane l true).isNone
  let s := s.onColour l fun c =>
    { c with tx := c.tx.train c.txAt now, rx := c.rx.train c.rxAt now, rxLost := none, txLost := if alone then none else c.txLost }
  let s := match s.farLane l false with
    | some x => s.onColour x fun c => { c with txLost := none, asked := c.asked && (s.colourAt l).rx != Light.up }
    | none => s
  .next ((s.noteDark).tune l (s.colourAt l).txMode.toNat)

/-- The replay window of a direction that drains is acknowledged: the receiver has taken every flit that was sent, and where
it is the receiver that darkens, the sender uses the colour no more. -/
def State.drained (s : State) (l : Lane) (out : Bool) : Bool :=
  let c := s.colourAt l
  (s.farLane l out).all fun x =>
    let d := s.colourAt x
    if out then c.replay.isEmpty && d.rxSeq == c.txSeq
    else d.replay.isEmpty && c.rxSeq == d.txSeq && (d.asked || d.tx != .up)

/-- COLOUR_DRAINED: a darkened colour's replay window is acknowledged, and it loses power. -/
def execColourDrained (l : Lane) (s : State) : Host.Outcome State Fault Refusal :=
  let tx := s.drained l true
  let rx := s.drained l false
  .next (s.onColour l fun c =>
    let c := if c.tx = .draining ∧ tx then { c with tx := .dark, window := [], replay := [] } else c
    if c.rx = .draining ∧ rx then { c with rx := .dark } else c)

/-! ### Lane remap (R397) -/

/-- LANE_REMAP: a colour moves onto the port's spare lane, if no other colour is on it. -/
def execLaneRemap (l : Lane) (s : State) : Host.Outcome State Fault Refusal :=
  let p := s.pack l.pkg
  if 32 ≤ l.port ∨ 16 ≤ l.colour ∨ p.colours.any (fun c => c.port == l.port && c.remapped) then .next s
  else
    let c := p.colour l.port l.colour
    .next (s.setPack { p.setColour { c with remapped := true, remapping := true } with remapSeq := p.remapSeq + 1 })

/-- REMAP_END: the colour resumes on the spare lane. -/
def execRemapEnd (pkg port : Nat) (s : State) : Host.Outcome State Fault Refusal :=
  let p := s.pack pkg
  .next (s.setPack { p with colours := p.colours.map fun c => if c.port = port then { c with remapping := false } else c })

/-! ### Light and paths (R385, R396) -/

/-- A hop of a circuit uses a port of a package. -/
def CircuitEntry.uses (e : CircuitEntry) (l : Lane) : Bool :=
  bitOf e.colours l.colour && (e.path.zip (List.range e.path.length)).any fun x =>
    x.1.pkg == l.pkg && ((x.2 != 0 && circuitPort x.1.inPort == l.port)
      || (x.2 + 1 != e.path.length && circuitPort x.1.outPort == l.port)
      || (x.2 == 0 && circuitPort x.1.outPort == l.port))

/-- LOSS_OF_LIGHT: a lane loses light or training, and with it its sender. The posts of a circuit through it fail; the timeout
of a path that goes dark starts. Log 73 (DEDUCED). -/
def execLossOfLight (l : Lane) (s : State) : Host.Outcome State Fault Refusal :=
  let now := s.clock
  let alone := (s.farLane l true).isNone
  let s := s.onColour l fun c =>
    { c with rxLost := some (c.rxLost.getD now), txLost := if alone then some (c.txLost.getD now) else c.txLost }
  let s := match s.farLane l false with
    | some x => s.onColour x fun c => { c with txLost := some (c.txLost.getD now) }
    | none => s
  if 24 ≤ l.port ∧ l.port < 32 ∧ !(s.pack l.pkg).trunk l.port then
    .next { s with pkgs := s.pkgs.map fun p =>
      { p with posts := p.posts.map fun x =>
          if (p.routes x.dest).any (·.uses l) then { x with cut := true } else x } }
  else .next s.noteDark

/-- The path timeout in clocks (R380). -/
def State.pathTimeout (s : State) (pkg : Nat) : Nat :=
  let t := fieldOf (s.fabricQuad pkg 0) 0 20
  (if t = 0 then 1000 else max 100 (min t 1000000)) * clocksPerUs

/-- An access goes to a package. -/
def Access.toPkg (a : Access) (dest : Nat) : Bool :=
  match a.slice with
  | .remote p _ => p == dest
  | _ => false

/-- A command reads or writes memory of a package. -/
def Cmd.touches (h : Hart) (c : Cmd) (dest : Nat) : Bool :=
  let at_ := fun (q : Quad) => decide (h.canon q < 2 ^ 62) && h.canon q / 2 ^ 53 % 256 == dest
  let on := fun (q : Stream) => at_ q.base || (decide (4 ≤ q.kind.toNat) && at_ q.stride) || (q.kind == 5 && at_ q.table2)
  match c.op with
  | .copy dst src .. => on dst || on src
  | .fuller desc _ => (List.range 6).any fun i => at_ (desc.getD (i + 1) 0)
  | .drain q .. => on q

/-- A command ends in failure: its counter advances with kstat.ERR. -/
def Hart.failCmd (h : Hart) (c : Cmd) : Hart := (h.kstatBit 1 c.k).completeCmd c none

/-- Loads that go to a package return poison: each meets its trap at the place where it would have read (R385). -/
def Hart.loseLoads (h : Hart) (dest : Nat) : Nat → Hart
  | 0 => h
  | n + 1 =>
    match h.pend.findIdx? fun a => a.toPkg dest && !a.op.writes with
    | none => h
    | some i =>
      match h.pend[i]? with
      | none => h
      | some a => (h.hitAt 0x0B i a).loseLoads dest n

/-- What a failed path does to a hart of the package: a load returns poison and traps at its element, precisely where it
is a scalar load (R328); stores and atomics are discarded and its gang aborts; commands end with ERR. Log 90 (DEDUCED). -/
def State.failAccesses (s : State) (dest : Nat) : State :=
  let h := s.hart
  let writes := h.pend.any fun a => a.toPkg dest && a.op.writes
  let s := s.mapHart fun h =>
    let h := (h.cmds.filter fun c => c.running && c.touches h dest).foldl Hart.failCmd h
    let h := h.loseLoads dest h.pend.length
    ({ h with pend := h.pend.filter fun a => !a.toPkg dest } : Hart).completeNb
  match writes, s.gangOf h with
  | true, some g => s.abortGang h.pkg g
  | _, _ => s

/-- PATH_TIMEOUT: a path has stayed dark past its timeout, and what is outstanding to its package ends in failure. -/
def execPathTimeout (pkg dest : Nat) (s : State) : Host.Outcome State Fault Refusal :=
  let p := s.pack pkg
  if !p.darkPaths.any fun d => d.dest == dest && decide (d.since + s.pathTimeout pkg < s.clock) && s.pathDark d.lanes then .next s
  else
    let s := s.setPack { p with posts := p.posts.map fun x => if x.dest = dest then { x with cut := true } else x }
    let s := ((s.harts.filter (·.pkg == pkg)).map (·.ref)).foldl (fun s r => s.withHart r fun s => s.failAccesses dest) s
    let s := (s.messages.filter fun m => m.sender.pkg == pkg && m.dst.pkg == dest && !m.whole).foldl State.refuseMessage s
    let hit := s.ops.filter fun o => o.verdict.isNone && o.parts.any (fun x => x.hart.pkg == pkg)
      && (s.treeOf o.pkg o.handle).contains dest
    .next { s with aborts := s.aborts ++ hit.map fun o => ⟨o.handle, o.seq, 3, pkg⟩ }

end Sys2Proof.Machine
end

