-- ==== Sys2Proof/Machine/Transport.lean ====
section
/-! DEFINITION. The transport over Ethernet (12 R282 to R285; 20 R398 to R401). What arrives on a port is given by
the step. Opcodes on the wire are the model's own: 0 write, 1 read, 2 fetch-add, 3 read data, 4 fetch-add
answer, 5 denial (log 91); a packet names its connection as the package that receives it does. -/

namespace Sys2Proof.Machine

/-! ### Bytes through an address -/

/-- Offsets, from `off` on, of the bytes of a physical range whose granules are poisoned (R108). -/
def State.poisonAt (s : State) (phys n off : Nat) : List Nat :=
  ((List.range n).filter fun i => s.poisoned (phys + i)).map (off + ·)

/-- n bytes through checks 1 to 9, page by page, with the offsets of the poisoned ones. Log 94 (DEDUCED). -/
def State.bytesAt (s : State) (h : Hart) (k : AccKind) : List (Nat × Nat) → Except (Fail ⊕ Fault) (List Byte × List Nat)
  | [] => .ok ([], [])
  | (a, n) :: r =>
    match s.check19 h h.asid (BitVec.ofNat 64 a) 1 k .own with
    | .error e => .error e
    | .ok l =>
      match s.bytesAt h k r with
      | .error e => .error e
      | .ok rest => .ok ((List.range n).map (fun i => readByte s.mem (l.phys + i)) ++ rest.1,
                         s.poisonAt l.phys n 0 ++ rest.2.map (n + ·))

/-- Put bytes through checks 1 to 9, page by page, with the poison of those that are poisoned; nothing where one fails. -/
def State.putBytes (s : State) (h : Hart) (bytes : List Byte) (bad : List Nat) : List (Nat × Nat) → Except (Fail ⊕ Fault) State
  | [] => .ok s
  | (a, n) :: r =>
    match s.check19 h h.asid (BitVec.ofNat 64 a) 1 .engWrite .own with
    | .error e => .error e
    | .ok l =>
      let here := ((bad.filter (decide <| · < n)).map fun i => granule (l.phys + i) - granule l.phys).eraseDups
      (s.placeBytes l.phys (bytes.take n) here).putBytes h (bytes.drop n)
        ((bad.filter (decide <| n ≤ ·)).map (· - n)) r

/-- A byte range cut at pages, from an address. -/
def rangeAt (a : Quad) (n : Nat) : List (Nat × Nat) := pieces (n / 65536 + 2) a.toNat n

/-- The eight little-endian bytes of a number. -/
def natBytes (n : Nat) : List Byte := (List.range 8).map fun i => BitVec.ofNat 8 (n / 256 ^ i)

/-! ### Work requests (R283) -/

def WorkReq.quad (w : WorkReq) (i : Nat) : Quad := w.quads.getD i 0
def WorkReq.op (w : WorkReq) : Nat := fieldOf (w.quad 0) 60 4
def WorkReq.len (w : WorkReq) : Nat := fieldOf (w.quad 0) 0 32
def WorkReq.fence (w : WorkReq) : Bool := bitOf (w.quad 0) 58
def WorkReq.sig (w : WorkReq) : Option Nat := if bitOf (w.quad 0) 59 then some (fieldOf (w.quad 5) 0 32) else none
def WorkReq.count (w : WorkReq) : Nat := fieldOf (w.quad 6) 32 16
def WorkReq.armid (w : WorkReq) : Word := (w.quad 6).setWidth 32

/-- A reserved field or value (CODE 4). -/
def WorkReq.bad (w : WorkReq) : Bool :=
  decide (3 ≤ w.op) || fieldOf (w.quad 0) 32 26 != 0 || w.len == 0 || (w.op == 2 && w.len != 8) || fieldOf (w.quad 3) 32 32 != 0
    || fieldOf (w.quad 5) 32 32 != 0 || fieldOf (w.quad 6) 48 16 != 0 || (w.armed == (w.count == 0))

/-- The local ranges of a request (R133). -/
def Hart.requestRanges (h : Hart) (quads : List Quad) (k : KReg) : List Interlock :=
  let op := fieldOf (quads.getD 0 0) 60 4
  let n := if op = 2 then 8 else fieldOf (quads.getD 0 0) 0 32
  [h.entry (quads.getD 1 0, n) (op != 0) k]

/-! ### State of the transport -/

def State.transport (s : State) (pkg : Nat) : Transport := (s.pack pkg).transport

def State.onTransport (s : State) (pkg : Nat) (f : Transport → Transport) : State :=
  let p := s.pack pkg
  s.setPack { p with transport := f p.transport }

def Transport.find (t : Transport) (conn : Nat) : Option Conn := t.conns.find? (·.conn == conn)

/-- A cached context, changed: it is the one used last. -/
def Transport.setConn (t : Transport) (c : Conn) : Transport :=
  if t.conns.any (·.conn == c.conn) then { t with conns := c :: t.conns.filter (·.conn != c.conn) } else t

def Transport.setReq (t : Transport) (w : WorkReq) : Transport :=
  { t with requests := t.requests.map fun x => if x.number = w.number then w else x }

/-- The transport runs, with a table that holds the connection (R380), and the connection is not closed (R400). -/
def State.connOpen (s : State) (pkg conn : Nat) : Bool :=
  let q := s.fabricQuad pkg 24
  let n := fieldOf q 0 5
  bitOf q 5 && decide (n ≤ 20) && decide (conn < 2 ^ n) && !(s.transport pkg).closed.contains conn

/-- A connection takes a new key. -/
def Conn.rekey (c : Conn) : Conn := { c with keyEpoch := c.keyEpoch + 1, keyPsn := c.psn }

/-- Where the context of a connection lies: CTXBASE names memory of the package or of the host (R380, R400). The table has no
asid: its address is taken as physical, or as a bus address of PF0. Log 44 (DESIGN CHOICE). -/
def State.contextAt (s : State) (pkg conn : Nat) : Nat :=
  let b := s.fabricQuad pkg 16
  if fieldOf b 61 3 = 3 then hostPhys pkg 0 (fieldOf b 0 48 + 256 * conn)
  else hbmKey pkg (fieldOf b 51 2) (fieldOf b 0 37 + 256 * conn)

/-- The context of a connection as its table holds it; none where its wrap fails. -/
def State.contextOf (s : State) (pkg conn : Nat) : Option Conn :=
  let bytes := (List.range 256).map fun i => readByte s.mem (s.contextAt pkg conn + i)
  match (s.transport pkg).stored.find? (fun x => x.2.conn == conn && x.1 == bytes) with
  | some x => some x.2
  | none => (Config.context pkg (s.pack pkg).huane.wrapKey bytes).map fun x =>
    { conn := conn, asid := x.1, peer := x.2.1, psn := x.2.2 % 2 ^ 32, keyPsn := x.2.2 % 2 ^ 32 }

/-- The asid of a connection: of its cached context, or else of the one in its table. -/
def State.connOwner (s : State) (pkg conn : Nat) : Option (BitVec 16) :=
  match (s.transport pkg).find conn with
  | some c => some c.asid
  | none => (s.contextOf pkg conn).map (·.asid)

/-- How far packet number a is past b, of 32 bits. -/
def psnPast (a b : Nat) : Nat := (a + 2 ^ 32 - b) % 2 ^ 32

/-- Put a packet on the wire, and keep it until it is acknowledged: under a new key, before the PSN has advanced by
2^31 (R399). -/
def Transport.transmit (t : Transport) (now udp : Nat) (c : Conn) (p : TPacket) : Transport :=
  let c := if 2 ^ 31 ≤ psnPast c.psn c.keyPsn + 1 then c.rekey else c
  let p := { p with conn := c.peer, psn := c.psn, udp := udp, key := c.keyEpoch }
  { t.setConn { c with psn := (c.psn + 1) % 2 ^ 32, unacked := c.unacked ++ [p], sentAt := (p.psn, now) :: c.sentAt } with
    wire := p :: t.wire }

/-- Transmit each of some packets on a connection. -/
def Transport.transmitAll (t : Transport) (now udp conn : Nat) (ps : List TPacket) : Transport :=
  ps.foldl (fun t p => match t.find conn with
    | some c => t.transmit now udp c p
    | none => t) t

/-- The UDP destination port of the transport (R380). -/
def State.udpPort (s : State) (pkg : Nat) : Nat :=
  let n := fieldOf (s.fabricQuad pkg 8) 0 16
  if n = 0 then 53664 else n

/-- A package sends packets on a connection. -/
def State.sendPackets (s : State) (pkg conn : Nat) (ps : List TPacket) : State :=
  s.onTransport pkg (·.transmitAll s.clock (s.udpPort pkg) conn ps)

/-- A packet of a request, before its numbers. Log 91 (DESIGN CHOICE). -/
def packet (op req offset total : Nat) (addr : Quad) (sig : Option Nat) (payload : List Byte) (bad : List Nat) : TPacket :=
  { conn := 0, psn := 0, op := op, req := req, offset := offset, total := total, addr := addr, sig := sig,
    payload := payload, sealOk := true, bad := bad }

/-- Payloads of at most 8,192 bytes, with their offsets. -/
def cutBytes : Nat → Nat → List Byte → List (Nat × List Byte)
  | 0, _, _ => []
  | n + 1, off, l => if l.isEmpty then [] else (off, l.take 8192) :: cutBytes n (off + 8192) (l.drop 8192)

/-- The packets of some data with its poison. -/
def dataPackets (op req total : Nat) (addr : Quad) (sig : Option Nat) (data : List Byte × List Nat) : List TPacket :=
  (cutBytes (total / 8192 + 1) 0 data.1).map fun x =>
    packet op req x.1 total addr sig x.2
      ((data.2.filter fun i => decide (x.1 ≤ i ∧ i < x.1 + x.2.length)).map (· - x.1))

/-! ### Starting requests (R284) -/

/-- The packets of a request; a code where its local buffer fails a check, which the spec does not number. The home
reports that failure (R357). Log 92 (DESIGN CHOICE). -/
def State.requestPackets (s : State) (w : WorkReq) : Except (Byte × State) (List TPacket) :=
  let total := w.len
  match w.op with
  | 0 =>
    let h := engineHart w.hart w.asid
    match s.bytesAt h .engRead (rangeAt (w.quad 1) total) with
    | .error e =>
      .error (2 + BitVec.ofNat 8 ((Config.value s.free).toNat % 3), match e with
        | .inl f => s.logFail h f false .engRead
        | .inr _ => s)
    | .ok data => .ok (dataPackets 0 w.number total (w.quad 2) w.sig data)
  | 1 => .ok [packet 1 w.number 0 total (w.quad 2) w.sig [] []]
  | _ => .ok [packet 2 w.number 0 8 (w.quad 2) w.sig (natBytes (w.quad 4).toNat) []]

/-- Start the requests of a connection, in post order, that may start. -/
def State.startGo (s : State) (pkg conn : Nat) : Nat → State
  | 0 => s
  | n + 1 =>
    let t := s.transport pkg
    let mine := t.requests.filter (·.conn == conn)
    match (t.find conn).isSome, mine.find? (fun w => !w.armed && !w.started) with
    | true, some w =>
      let earlier := mine.takeWhile (·.number != w.number)
      if w.fence && !earlier.isEmpty then s
      else
        let s := (match w.ends with
          | some _ => s.onTransport pkg (·.setReq { w with started := true })
          | none =>
            match s.requestPackets w with
            | .error (c, s) => (s.onTransport pkg (·.setReq { w with started := true, ends := some c })).drawn
            | .ok ps => (s.onTransport pkg (·.setReq { w with started := true })).sendPackets pkg conn ps)
        s.startGo pkg conn n
    | _, _ => s

def State.startRequests (s : State) (pkg conn : Nat) : State := s.startGo pkg conn (s.transport pkg).requests.length

/-! ### Triggers (R285) -/

/-- An armed request fires: it starts as a request that is posted now (R285). -/
def Transport.fire (t : Transport) (w : WorkReq) : Transport :=
  { t with requests := t.requests.filter (·.number != w.number) ++ [{ w with armed := false }] }

/-- The oldest armed request of an identifier takes an arrival, and fires at its count; else it is held. -/
def State.countArrival (s : State) (pkg : Nat) (asid : BitVec 16) (id : Word) : State :=
  let t := s.transport pkg
  match t.requests.find? fun w => w.armed && w.asid == asid && w.armid == id with
  | some w =>
    let w := { w with arrivals := w.arrivals + 1 }
    if w.arrivals < w.count then s.onTransport pkg (·.setReq w)
    else (s.onTransport pkg (·.fire w)).startRequests pkg w.conn
  | none =>
    let held := match t.arrivals.find? (fun x => x.1 == (asid, id)) with
      | some x => x.2
      | none => 0
    s.onTransport pkg fun t => { t with
      arrivals := ((asid, id), min 65535 (held + 1)) :: t.arrivals.filter (·.1 != (asid, id)) }

/-- A request that has just been armed takes held arrivals first. -/
def State.takeHeld (s : State) (pkg : Nat) (w : WorkReq) : State :=
  let t := s.transport pkg
  let held := match t.arrivals.find? (fun x => x.1 == (w.asid, w.armid)) with
    | some x => x.2
    | none => 0
  let n := min held w.count
  s.onTransport pkg fun t =>
    { t.setReq { w with arrivals := n, armed := decide (n < w.count) } with
      arrivals := t.arrivals.map fun x => if x.1 = (w.asid, w.armid) then (x.1, x.2 - n) else x }

/-! ### rpost and rarm (R282) -/

/-- rpost and rarm: the request is read when it issues. -/
def State.postRequest (s : State) (arm : Bool) (sa sb : SReg) (k : KReg) : Except Stop State := do
  let s := s.needS [sa, sb]
  let s ← s.settle (s.hart.taintS sa ||| s.hart.taintS sb)
  let h := s.hart
  let conn := (h.getS sa).toNat
  let addr := h.getS sb
  let l ← (match s.check19 s.hart s.hart.asid addr 64 .read .own with
    | .ok l => .ok l
    | .error e => .error (s.raise s.hart .read e) : Except Stop Loc)
  s.awaitTurn (h.canon addr) 64 false
  let s ← s.storesBefore addr 64 false
  if s.poisoned l.phys || s.poisoned (l.phys + 32) then .error (addrTrap s 0x0B addr) else .ok ()
  let pkg := h.pkg
  let cached := (s.transport pkg).find conn
  let owner := s.connOwner pkg conn
  if !s.connOpen pkg conn ∨ (owner.isSome ∧ owner ≠ some h.asid) then .error (openTrap s 0x09) else .ok ()
  let quads := readQuads s.mem l.phys 8
  let op := fieldOf (quads.getD 0 0) 60 4
  let s ← s.storesBefore (quads.getD 1 0) (if op = 2 then 8 else fieldOf (quads.getD 0 0) 0 32) (op != 0)
  let s ← if arm then .ok s else s.enterRanges (h.requestRanges quads k)
  let w : WorkReq := { number := s.serial, conn := conn, quads := quads, addr := addr, hart := h.ref, gang := h.csr.gangid,
                       asid := h.asid, k := k, seq := h.seq, nearest := h.rankRange (quads.getD 1 0, max 1 (fieldOf (quads.getD 0 0) 0 32)), armed := arm }
  let w := if w.bad then { w with armed := false, ends := some 4 } else w
  let s := ((s.onTransport pkg fun t => { t with
    requests := t.requests ++ [w],
    fetching := if cached.isSome ∨ t.fetching.contains conn then t.fetching else conn :: t.fetching }).nextSerial.nextSeq).drawn
  let s := if w.armed then s.takeHeld pkg w else s
  .ok (s.startRequests pkg conn)

/-- rpost. -/
def execRpost (sa sb : SReg) (k : KReg) (s : State) : Host.Outcome State Fault Refusal :=
  finish s ((s.postRequest false sa sb k).map (·.done 8))

/-- rarm. -/
def execRarm (sa sb : SReg) (k : KReg) (s : State) : Host.Outcome State Fault Refusal :=
  finish s ((s.postRequest true sa sb k).map (·.done 8))

/-! ### Packets that arrive (R399, R401) -/

/-- A hart as the transport of a package translates for an asid. -/
def portHart (pkg : Nat) (asid : BitVec 16) : Hart := engineHart ⟨pkg, 3072⟩ asid

/-- The arrival pointers of a read's entry, n bytes being placed (R134). -/
def Interlock.moved (e : Interlock) (n : Nat) : Interlock :=
  { e with arrival := arrivalOf e.limit ((List.range (min 2048 (e.limit - (e.base + n)))).map (e.base + n + ·)) }

/-- Place an answer of a request at its local buffer. -/
def State.placeAnswer (s : State) (pkg : Nat) (w : WorkReq) (p : TPacket) : Except (Fail ⊕ Fault) State :=
  match s.putBytes (engineHart w.hart w.asid) p.payload p.bad
      (rangeAt (w.quad 1 + BitVec.ofNat 64 p.offset) p.payload.length) with
  | .error e => .error e
  | .ok s =>
    let n := w.done + p.payload.length
    let move := fun (e : Interlock) => if e.seq = w.seq ∧ e.write ∧ !e.arrival.isEmpty then e.moved n else e
    .ok ((s.onTransport pkg (·.setReq { w with done := n, early := w.early.filter (·.psn != p.psn) })).onSender w.hart w.gang
      fun h => { h with interlock := h.interlock.map move })

/-- An answer cannot be placed at the local buffer: the home reports it, and the request ends as one whose buffer cannot be
read does. Log 92 (DESIGN CHOICE). -/
def State.failAnswer (s : State) (pkg : Nat) (w : WorkReq) (e : Fail ⊕ Fault) : State :=
  let s := match e with
    | .inl f => s.logFail (engineHart w.hart w.asid) f false .engWrite
    | .inr _ => s
  (s.onTransport pkg (·.setReq { w with ends := some (w.ends.getD (2 + BitVec.ofNat 8 ((Config.value s.free).toNat % 3))) })).drawn

/-- Acknowledge a packet of a connection. -/
def Transport.ack (t : Transport) (conn psn : Nat) : Transport := { t with acks := t.acks ++ [(conn, psn)] }

/-- Answers that have come early are placed as those of lower offsets are (R284). -/
def State.placeEarly (s : State) (pkg number : Nat) : Nat → State
  | 0 => s
  | n + 1 =>
    match (s.transport pkg).requests.find? (·.number == number) with
    | none => s
    | some w =>
      match w.early.find? fun p => p.offset == w.done with
      | none => s
      | some p =>
        match s.placeAnswer pkg w p with
        | .error e =>
          (s.failAnswer pkg { w with early := [] } e).onTransport pkg fun t => w.early.foldl (fun t p => t.ack w.conn p.psn) t
        | .ok s => (s.onTransport pkg (·.ack w.conn p.psn)).placeEarly pkg number n

/-- The request that a packet answers. -/
def State.answered (s : State) (pkg : Nat) (c : Conn) (p : TPacket) : Option WorkReq :=
  if p.op < 3 then none else (s.transport pkg).requests.find? fun w => w.number == p.req && w.conn == c.conn

/-- The answer of a read waits for those of lower offsets: its local buffer lies in a vault (R284). -/
def State.tooEarly (s : State) (pkg : Nat) (c : Conn) (p : TPacket) : Bool :=
  match s.answered pkg c p with
  | some w => p.op == 3 && fieldOf (w.quad 1) 61 3 == 1 && decide (w.done < p.offset)
  | none => false

/-- Apply a write, a read, a fetch-add or an answer of a connection, and say whether it could be. -/
def State.applyPacket (s : State) (pkg : Nat) (c : Conn) (p : TPacket) : Except (Fail ⊕ Fault) State :=
  let h := portHart pkg c.asid
  let at_ := p.addr + BitVec.ofNat 64 p.offset
  match p.op with
  | 0 => s.putBytes h p.payload p.bad (rangeAt at_ p.payload.length)
  | 1 =>
    match s.bytesAt h .engRead (rangeAt p.addr p.total) with
    | .error e => .error e
    | .ok data => .ok (s.sendPackets pkg c.conn (dataPackets 3 p.req p.total p.addr none data))
  | 2 =>
    match s.check h c.asid p.addr 8 .atomic .own with
    | .error e => .error e
    | .ok l =>
      let old := readN s.mem l.phys 8
      let s := s.store l.phys 8 ((old + byteNat p.payload) % 2 ^ 64) false
      .ok (s.sendPackets pkg c.conn [packet 4 p.req 0 8 p.addr none (natBytes old) []])
  | _ =>
    match s.answered pkg c p with
    | none => .ok s
    | some w =>
      if p.op = 5 then .ok (s.onTransport pkg (·.setReq { w with ends := some (w.ends.getD 2) }))
      else if s.tooEarly pkg c p then .ok (s.onTransport pkg (·.setReq { w with early := w.early ++ [p] }))
      else
        match s.placeAnswer pkg w p with
        | .error e => .ok (s.failAnswer pkg w e)
        | .ok s => .ok (s.placeEarly pkg w.number w.early.length)

/-- Bytes placed of a peer's write, whose signal counts once all are; a read's counts once its data is placed at the
peer, which acknowledges it (R285). -/
def State.countBytes (s : State) (pkg : Nat) (c : Conn) (p : TPacket) : State :=
  let n := assocGet c.got p.req 0 + p.payload.length
  let all := decide (p.op = 0) && decide (p.total ≤ n)
  let s := s.onTransport pkg fun t => match t.find c.conn with
    | some c => t.setConn { c with
        got := if all then assocDel c.got p.req else if p.op = 0 then assocSet c.got p.req n else c.got,
        sigs := match p.op, p.sig with
          | 1, some id => c.sigs ++ [(p.req, BitVec.ofNat 32 id)]
          | _, _ => c.sigs }
    | none => t
  match all, p.sig with
  | true, some id => s.countArrival pkg c.asid (BitVec.ofNat 32 id)
  | _, _ => s

/-- The access that a packet makes, as a fault record names it (R358). -/
def packetAcc (p : TPacket) : AccKind := if p.op = 1 then .engRead else if p.op = 2 then .atomic else .engWrite

/-- A packet that is not taken is answered NOTREADY, with a delay that is left open (R401). -/
def State.notReady (s : State) (pkg : Nat) (p : TPacket) : State :=
  (s.onTransport pkg fun t => { t with
    notready := t.notready ++ [(p.conn, p.psn, 1 + (Config.value s.free).toNat % 255)] }).drawn

/-- Refuse the request of a packet that cannot be applied: the home reports why, and the sender is told (R283). Log 91 (DESIGN
CHOICE). -/
def State.denyPacket (s : State) (pkg : Nat) (c : Conn) (p : TPacket) (e : Fail ⊕ Fault) : State :=
  let s := match e with
    | .inl f => s.logFail (portHart pkg c.asid) f false (packetAcc p)
    | .inr _ => s
  s.sendPackets pkg c.conn [packet 5 p.req 0 0 p.addr none [] []]

/-- A packet on a cached connection: authenticated, applied once, acknowledged when it is placed. -/
def State.takePacket (s : State) (pkg : Nat) (c : Conn) (p : TPacket) : State :=
  if !p.sealOk then s.notReady pkg p
  else if c.seen.contains (p.key, p.psn) then
    (if s.tooEarly pkg c p then s else s.onTransport pkg (·.ack c.conn p.psn))
  else
    let early := s.tooEarly pkg c p
    let taken := fun (t : Transport) =>
      let t := match t.find c.conn with
        | some c => t.setConn { c with seen := (p.key, p.psn) :: c.seen }
        | none => t
      if early then t else t.ack c.conn p.psn
    match s.applyPacket pkg c p with
    | .error e => (s.denyPacket pkg c p e).onTransport pkg taken
    | .ok s => (s.onTransport pkg taken).countBytes pkg c p

/-- A frame at an Ethernet port that no unit takes is counted (R398). -/
def State.countFrame (s : State) (pkg port : Nat) : State :=
  if port < 32 ∨ 40 ≤ port then s
  else s.onTransport pkg fun t => { t with frames := assocSet t.frames port (assocGet t.frames port 0 + 1) }

/-- A frame holds a packet of the transport: the transport runs, and takes its UDP port and its payload. -/
def State.isTransport (s : State) (pkg : Nat) (p : TPacket) : Bool :=
  bitOf (s.fabricQuad pkg 24) 5 && decide (fieldOf (s.fabricQuad pkg 24) 0 5 ≤ 20) && p.udp == s.udpPort pkg
    && decide (p.payload.length ≤ 8192)

/-- TRANSPORT_PACKET_RECEIVE: a packet is handled, or staged while its context is fetched, or answered NOTREADY; one that is
not the transport's is counted. -/
def execTransportPacketReceive (pkg : Nat) (p : TPacket) (s : State) : Host.Outcome State Fault Refusal :=
  let t := s.transport pkg
  if !s.isTransport pkg p then .next (s.countFrame pkg p.port)
  else if !s.connOpen pkg p.conn then .next (s.notReady pkg p)
  else
    match t.find p.conn with
    | some c => .next (s.takePacket pkg c p)
    | none =>
      if 256 ≤ t.staged.length ∨ 32 ≤ (t.staged.filter (·.conn == p.conn)).length then .next (s.notReady pkg p)
      else
        .next (s.onTransport pkg fun t => { t with
          staged := t.staged ++ [p],
          fetching := if t.fetching.contains p.conn then t.fetching else p.conn :: t.fetching })

/-- The cached context to evict: the least recently used one that has no packet in flight (R400). -/
def Transport.oldest (t : Transport) : Option Conn := t.conns.reverse.find? (·.unacked.isEmpty)

/-- The cache holds 8,192 contexts, each with a packet in flight: a fetch waits for a place.
Log 139 (DESIGN CHOICE). -/
def Transport.full (t : Transport) : Bool := decide (8192 ≤ t.conns.length) && t.oldest.isNone

/-- Write a context back to its table: what its bytes then say is known (R400). -/
def State.writeBack (s : State) (pkg : Nat) (c : Conn) : State :=
  let bytes := (List.range 256).map (Config.contextByte (s.pack pkg).huane.wrapKey s.free)
  ((s.placeBytes (s.contextAt pkg c.conn) bytes []).onTransport pkg fun t => { t with
    stored := (bytes, c) :: t.stored.filter (·.2.conn != c.conn) }).drawn

/-- Put a fetched context into the cache, and write the one back that makes place for it. -/
def State.cacheContext (s : State) (pkg : Nat) (c : Conn) : State :=
  let t := s.transport pkg
  match decide (8192 ≤ t.conns.length), t.oldest with
  | true, some old => (s.writeBack pkg old).onTransport pkg fun t => { t with conns := c :: t.conns.erase old }
  | _, _ => s.onTransport pkg fun t => { t with conns := c :: t.conns }

/-- CONTEXT_FETCH_COMPLETE: a context arrives; staged packets are handled in order, and requests start. A context
whose wrap fails closes the connection, and its requests end with CODE 3 (R400). -/
def execContextFetchComplete (pkg conn : Nat) (s : State) : Host.Outcome State Fault Refusal :=
  let t := s.transport pkg
  if !t.fetching.contains conn then .next s
  else
    let mine := t.staged.filter (·.conn == conn)
    let s' := s.onTransport pkg fun t => { t with
      fetching := t.fetching.erase conn, staged := t.staged.filter (·.conn != conn) }
    match s.contextOf pkg conn with
    | none =>
      let s' := s'.onTransport pkg fun t => { t with
        closed := conn :: t.closed,
        requests := t.requests.map fun w =>
          if w.conn = conn ∧ w.ends.isNone then { w with armed := false, started := true, ends := some 3 } else w }
      .next (mine.foldl (fun s p => s.notReady pkg p) s')
    | some c =>
      if t.full then .next s
      else
      let s' := mine.foldl (fun s p => match (s.transport pkg).find conn with
        | some c => s.takePacket pkg c p
        | none => s.notReady pkg p) (s'.cacheContext pkg c)
      .next (s'.startRequests pkg conn)

/-! ### Acknowledgements, retransmission, rekeying -/

/-- TRANSPORT_ACKNOWLEDGE: a cumulative and a selective acknowledgement; a write counts its bytes, and the signal of a
read whose data is all placed is counted (R285). -/
def execTransportAcknowledge (pkg conn cum : Nat) (sel : List Nat) (s : State) : Host.Outcome State Fault Refusal :=
  match (s.transport pkg).find conn with
  | none => .next s
  | some c =>
    let covers := fun (n : Nat) => decide (psnPast cum n < 2 ^ 31) || sel.contains n
    let hit := fun (p : TPacket) => covers p.psn
    let gone := c.unacked.filter hit
    let left := c.unacked.filter fun p => !hit p
    let told := c.sigs.filter fun x => !left.any fun p => p.op == 3 && p.req == x.1
    let s := s.onTransport pkg fun t =>
      let t := t.setConn { c with
        unacked := left, sentAt := c.sentAt.filter (fun x => left.any (·.psn == x.1)), resend := c.resend.filter fun p => !hit p.1, sigs := c.sigs.filter fun x => !told.contains x,
        denials := c.denials.filter fun d => !covers d.1 }
      gone.foldl (fun t p =>
        { t with requests := t.requests.map fun w =>
            if p.op = 0 ∧ w.number = p.req ∧ w.conn = conn then { w with done := w.done + p.payload.length } else w }) t
    .next (told.foldl (fun s x => s.countArrival pkg c.asid x.2) s)

/-- RETRANSMIT_TIMEOUT: the identical packet is sent again, 20 µs after it was sent or later, unless NOTREADY delays it.
Log 140 (DESIGN CHOICE). -/
def execRetransmitTimeout (pkg conn psn : Nat) (s : State) : Host.Outcome State Fault Refusal :=
  match (s.transport pkg).find conn with
  | none => .next s
  | some c =>
    match c.unacked.find? (·.psn == psn) with
    | none => .next s
    | some p =>
      if (c.resend.any fun r => r.1.psn == psn && decide (s.clock < r.2))
          ∨ s.clock < assocGet c.sentAt psn 0 + 20 * clocksPerUs then .next s
      else .next (s.onTransport pkg fun t =>
        { t.setConn { c with resend := c.resend.filter (·.1.psn != psn), sentAt := assocSet c.sentAt psn s.clock } with
          wire := p :: t.wire })

/-- NOTREADY: it delays that packet's retransmission; after 64 for one packet the request ends with CODE 3. -/
def execNotready (pkg conn psn delay : Nat) (s : State) : Host.Outcome State Fault Refusal :=
  match (s.transport pkg).find conn with
  | none => .next s
  | some c =>
    match c.unacked.find? (·.psn == psn) with
    | none => .next s
    | some p =>
      let n := assocGet c.denials psn 0 + 1
      if 64 ≤ n then
        .next (s.onTransport pkg fun t =>
          let t := t.setConn { c with unacked := c.unacked.filter (·.psn != psn), denials := assocDel c.denials psn }
          { t with requests := t.requests.map fun w =>
              if w.number = p.req ∧ w.conn = conn ∧ p.op ≤ 2 ∧ w.ends.isNone then { w with ends := some 3 } else w })
      else
        .next (s.onTransport pkg (·.setConn { c with
          denials := assocSet c.denials psn n,
          resend := (p, s.clock + delay * clocksPerUs) :: c.resend.filter (·.1.psn != psn) }))

/-- REKEY: a connection takes a new key through Huane (R399). -/
def execRekey (pkg conn : Nat) (s : State) : Host.Outcome State Fault Refusal :=
  match (s.transport pkg).find conn with
  | none => .next s
  | some c => .next (s.onTransport pkg (·.setConn c.rekey))

/-- A request may end with a code: 1 when every byte is done, 2 where the remote has denied it, 4 when a field was reserved,
and 3 where the transport fails. Log 93 (DEDUCED). -/
def WorkReq.mayEnd (w : WorkReq) (code : Nat) : Bool :=
  match w.ends with
  | some c => c.toNat == code
  | none => w.started && (if code = 1 then decide (w.len ≤ w.done) else code == 3)

/-- WORK_REQUEST_COMPLETE: quad 7 of the part's copy of the request is written before its counter advances (R284). -/
def execWorkRequestComplete (pkg req : Nat) (code : Nat) (s : State) : Host.Outcome State Fault Refusal :=
  match (s.transport pkg).requests.find? (·.number == req) with
  | none => .next s
  | some w =>
    if !w.mayEnd code then .next s
    else
      let h := engineHart w.hart w.asid
      let q : Quad := BitVec.ofNat 64 (min w.done w.len * 2 ^ 32 + fieldOf (w.quad 7) 8 24 * 256 + code % 256)
      let s := match s.check19 h w.asid (w.addr + 56) 8 .engWrite .own with
        | .ok l => { s with mem := s.put l.phys 8 q.toNat }
        | .error (.inl f) => s.logFail h f false .engWrite
        | .error (.inr _) => s
      let s := s.onTransport pkg fun t => { t with requests := t.requests.filter (·.number != req) }
      .next ((s.onSender w.hart w.gang (·.endRemote w.seq w.k (code != 1))).startRequests pkg w.conn)

/-- Neighbor Discovery and ICMPv6 echo for the port's own addresses are answered, in frames of up to 9,216 bytes with at most
one tag. -/
def frameAnswered (f : EthFrame) : Bool :=
  f.kind != .other && f.own && decide (f.size ≤ 9216) && decide (f.tags ≤ 1)

/-- ETHERNET_FRAME_RECEIVE: on an Ethernet port, what is asked of it is answered; any other frame is counted and discarded
(R398). -/
def execEthernetFrameReceive (pkg port : Nat) (f : EthFrame) (s : State) : Host.Outcome State Fault Refusal :=
  .next (if port < 32 ∨ 40 ≤ port then s
    else if frameAnswered f then s.onTransport pkg fun t => { t with replies := t.replies ++ [(port, f)] }
    else s.countFrame pkg port)

end Sys2Proof.Machine
end

