-- ==== Sys2Proof/Machine/Huane.lean ====
section
/-! DEFINITION. Reset, bring-up, the Huane mailbox, partitions, enclaves, revocation, power, errors and the host
link (21 R405 to R421), and host writes to registers (01 R4, 19 R366, R367). -/

namespace Sys2Proof.Machine

/-! ### Reset and bring-up (R405, R406, R413) -/

/-- A physical address lies in the memory of a package. -/
def inPackage (pkg a : Nat) : Bool := decide (a < 2 ^ 62) && a / 2 ^ 53 % 256 == pkg

/-- Images that Huane verifies: itself, Mucen, the die controllers (R409). -/
def images : List Nat := [0, 1, 2]

/-- What the two slots of an image hold: open where no reset has listed it. Log 101 (DESIGN CHOICE). -/
def Huane.flash (h : Huane) (free i : Nat) : Option Nat × Option Nat :=
  match h.slots.find? (·.1 == i) with
  | some x => x.2
  | none =>
    let slot := fun k => if Config.choice (free + 4 * i + k) then some (Config.value (free + 4 * i + k)).toNat else none
    (slot 0, slot 1)

/-- The slot from which an image runs: A, and else B, where the version in it is not below the least (R407). -/
def Huane.boots (h : Huane) (free i : Nat) : Option Nat :=
  let ok := fun (v : Option Nat) => v.any fun n => decide (assocGet h.least i 0 ≤ n)
  if ok (h.flash free i).1 then some 0 else if ok (h.flash free i).2 then some 1 else none

/-- What outlives a reset: fuses, counters and flash, with the slots that run now. Log 12 (DESIGN CHOICE). -/
def Huane.kept (h : Huane) (free : Nat) : Huane :=
  { lcs := h.lcs, slots := images.map fun i => (i, h.flash free i),
    active := images.map fun i => (i, (h.boots free i).getD (assocGet h.active i 0)), least := h.least, leaf := h.leaf,
    wrapKey := Config.value (free + 12) }

/-- Wipe all memory of a package (R413). -/
def State.wipePackage (s : State) (pkg : Nat) : State :=
  { s with mem := s.mem.filter fun c => !inPackage pkg c.1, poison := s.poison.filter fun g => !inPackage pkg (32 * g) }

/-- Package reset: firmware is verified first; where it is rejected STATE becomes 1, and no memory is wiped; else memory
is wiped and STATE becomes 3. The rest of the package is reset either way. Log 115 (PRESUMED). -/
def State.resetPackage (s : State) (pkg : Nat) : State :=
  let p := s.pack pkg
  let ok := images.all fun i => (p.huane.boots s.free i).isSome
  let new : Package := { pkg := pkg, resetClock := s.clock, huane := p.huane.kept s.free,
                         block := [(0, if ok then 3 else 1), (10, 800 * 2 ^ 32 + 2000)] }
  let keep := fun (h : Hart) => h.pkg != pkg
  let s := if ok then s.wipePackage pkg else s
  let s := { s with
    hart := if keep s.hart then s.hart else {}, others := s.others.filter keep,
    ended := s.ended.filter keep,
    cores := s.cores.filter (·.pkg != pkg), tlb := s.tlb.filter (·.pkg != pkg), tables := s.tables.filter (·.pkg != pkg),
    waiters := s.waiters.filter fun w => w.hart.pkg != pkg && !inPackage pkg (64 * w.line),
    messages := s.messages.filter fun m => m.sender.pkg != pkg && m.dst.pkg != pkg,
    groups := s.groups.map (fun (g : Group) => ({ g with joined := g.joined.filter fun j => j.2.pkg != pkg } : Group)),
    enclaves := s.enclaves.map (fun (e : Enclave) => ({ e with members := e.members.filter fun m => m.2.1 != pkg } : Enclave)),
    free := s.free + 13 }
  s.setPack new

/-- PACKAGE_RESET. -/
def execPackageReset (pkg : Nat) (s : State) : Host.Outcome State Fault Refusal := .next (s.resetPackage pkg).someTurn

def State.setBlock (s : State) (pkg quad : Nat) (v : Quad) : State :=
  let p := s.pack pkg
  s.setPack { p with block := assocSet p.block quad v }

/-- Alignment and length of the region of each base, quads 1 to 8. -/
def regionOf (quad : Nat) : Nat × Nat :=
  match quad with
  | 1 => (65536, 147904) | 2 => (65536, 524288) | 3 => (64, 64) | 8 => (4096, 69632) | _ => (65536, 589824)

/-- The base of a quad, as die and address. -/
def State.baseAt (s : State) (pkg quad : Nat) : Nat × Nat :=
  let q := s.block pkg quad
  (fieldOf q 37 2, fieldOf q 0 37)

/-- A base that is misaligned, outside its die's memory, or overlapping a region before it. XLATd lies on die d.
Log 98 (DEDUCED). -/
def State.baseBad (s : State) (pkg quad : Nat) : Bool :=
  let b := s.baseAt pkg quad
  let r := regionOf quad
  b.2 % r.1 != 0 || decide (Config.hbmBytes < b.2 + r.2)
    || (decide (4 ≤ quad ∧ quad ≤ 7) && b.1 != quad - 4)
    || ((List.range 9).any fun i => decide (1 ≤ i ∧ i < quad) && (s.baseAt pkg i).1 == b.1
      && decide ((s.baseAt pkg i).2 < b.2 + r.2 ∧ b.2 < (s.baseAt pkg i).2 + (regionOf i).2))

/-- GO: the bases are checked, and the part starts or reports a base error (R406). -/
def execGo (pkg : Nat) (s : State) : Host.Outcome State Fault Refusal :=
  let st := fieldOf (s.block pkg 0) 0 4
  if !bitOf (s.block pkg 9) 0 ∨ (st ≠ 3 ∧ st ≠ 5) then .next s
  else
    let bad := (List.range 9).any fun i => decide (1 ≤ i) && s.baseBad pkg i
    .next ((s.setBlock pkg 9 0).setBlock pkg 0 (if bad then 5 else 4))

/-! ### The mailbox (R408, R409) -/

/-- Ring f of the mailbox; it works while the part runs, and for FWLOAD in STATE 1. -/
def State.ringAt (s : State) (pkg ring : Nat) : Option Nat :=
  let st := fieldOf (s.block pkg 0) 0 4
  let b := s.baseAt pkg 8
  if st = 4 ∨ st = 1 then some (hbmKey pkg b.1 b.2 + 4096 * ring) else none

/-- A ring's HEAD, and the slot of a command. -/
def State.ringHead (s : State) (at_ : Nat) : Word := readWord s.mem (at_ + 8)
def slotAt (at_ : Nat) (n : Word) : Nat := at_ + 0x100 + 64 * (n.toNat % 32)

/-- The results of a command: STATUS, RESULT, the output bytes. -/
structure Reply where
  status : Nat
  result : Quad := 0
  out : List Byte := []

/-- The physical address of byte i of the buffer that a field names, host memory being reached through the ring's function;
none for reserved bits. -/
def bufferAt (pkg ring : Nat) (q : Quad) : Option (Nat → Nat) :=
  if bitOf q 63 then (if fieldOf q 48 15 ≠ 0 then none else some fun i => hostPhys pkg ring (fieldOf q 0 48 + i))
  else if fieldOf q 39 24 ≠ 0 then none
  else some fun i => hbmKey pkg (fieldOf q 37 2) (fieldOf q 0 37) + i

/-- Put the output of a command into its buffer, and clear the poison of granules that it covers. -/
def State.putOutput (s : State) (pkg ring : Nat) (q : Quad) (out : List Byte) : State :=
  match bufferAt pkg ring q with
  | none => s
  | some at_ =>
    if bitOf q 63 then (out.zip (List.range out.length)).foldl (fun s x => { s with mem := writeN s.mem (at_ x.2) 1 x.1.toNat }) s
    else s.placeBytes (at_ 0) out []

/-- The partition of a function. -/
def State.partitionOn (s : State) (pkg f : Nat) : Option Partition :=
  (s.pack pkg).huane.partitions.find? (·.function == f)

/-- Some ranges, each a base and a length, hold every number from lo to below hi. -/
def covers (rs : List (Nat × Nat)) : Nat → Nat → Nat → Bool
  | 0, lo, hi => decide (hi ≤ lo)
  | n + 1, lo, hi => decide (hi ≤ lo) || (match rs.find? fun r => decide (r.1 ≤ lo ∧ lo < r.1 + r.2) with
    | none => false
    | some r => covers rs n (r.1 + r.2) hi)

/-- A buffer may be used by a ring: a ring of a VF may name its partition's memory or host memory. -/
def State.bufferOk (s : State) (pkg ring : Nat) (q : Quad) (n : Nat) : Bool :=
  bitOf q 63 || ring == 0 || n == 0 || (match s.partitionOn pkg ring with
    | none => false
    | some p =>
      let rs := (p.resources.filter (·.type == 3)).map fun r => (r.first, r.count)
      covers rs rs.length (fieldOf q 0 39) (fieldOf q 0 39 + n))

/-- End the oldest command of a ring (R409). -/
def State.endCommand (s : State) (pkg ring : Nat) (r : Reply) : State :=
  match s.ringAt pkg ring with
  | none => s
  | some at_ =>
    let head := s.ringHead at_
    let slot := slotAt at_ head
    let q0 := readQuad s.mem slot
    let room := fieldOf (readQuad s.mem (slot + 32)) 32 32
    let r := if room < r.out.length then { r with status := 1, out := [] } else r
    let s := s.putOutput pkg ring (readQuad s.mem (slot + 40)) r.out
    let mem := writeQuad s.mem slot ((q0 &&& ~~~(0xFF#64 <<< 48)) ||| (BitVec.ofNat 64 r.status <<< 48))
    let mem := writeQuad (writeQuad mem (slot + 48) (BitVec.ofNat 64 r.out.length)) (slot + 56) r.result
    (State.wakeLine { s with mem := writeN mem (at_ + 8) 4 (head + 1).toNat } (lineOf at_) 0).1

/-- The oldest command of a ring, when Huane has seen it and no PTEAR of the ring is under way: its quads. -/
def State.command (s : State) (pkg ring : Nat) : Option (List Quad) :=
  match s.ringAt pkg ring with
  | none => none
  | some at_ =>
    let h := (s.pack pkg).huane
    let head := s.ringHead at_
    if 17 ≤ ring ∨ assocGet h.tails ring head = head ∨ h.partitions.any (·.ring == some ring) then none
    else some (readQuads s.mem (slotAt at_ head) 8)

def cmdCode (q : List Quad) : Nat := fieldOf (q.getD 0 0) 56 8

/-- Bytes of the input buffer of a command. -/
def State.inputOf (s : State) (pkg ring : Nat) (q : List Quad) : Except Nat (List Byte) :=
  let n := fieldOf (q.getD 4 0) 0 32
  match bufferAt pkg ring (q.getD 3 0), bufferAt pkg ring (q.getD 5 0) with
  | some i, some _ =>
    if !s.bufferOk pkg ring (q.getD 3 0) n || !s.bufferOk pkg ring (q.getD 5 0) (fieldOf (q.getD 4 0) 32 32) then .error 2
    else .ok ((List.range n).map fun j => readByte s.mem (i j))
  | _, _ => .error 1

/-- Run the oldest command of a ring if it has a code: reserved fields and buffers first, then the command. -/
def State.runCommand (s : State) (pkg ring code : Nat) (body : List Quad → List Byte → State × Option Reply) : State :=
  match s.command pkg ring with
  | none => s
  | some q =>
    if cmdCode q ≠ code ∨ (code ≠ 1 ∧ !s.partRuns pkg) then s
    else if fieldOf (q.getD 0 0) 32 16 ≠ 0 ∨ fieldOf (q.getD 6 0) 32 32 ≠ 0 then s.endCommand pkg ring { status := 1 }
    else
      match s.inputOf pkg ring q with
      | .error st => s.endCommand pkg ring { status := st }
      | .ok bytes =>
        let (s, r) := body q bytes
        match r with
        | some r => s.endCommand pkg ring r
        | none => s

def State.onHuane (s : State) (pkg : Nat) (f : Huane → Huane) : State :=
  let p := s.pack pkg
  s.setPack { p with huane := f p.huane }

/-- One ring of a poll: a TAIL more than 32 past HEAD is ignored, and sets BADTAIL; a command whose code is none of
R408 ends with status 1. -/
def State.pollRing (s : State) (pkg ring : Nat) : State :=
  match s.ringAt pkg ring with
  | none => s
  | some at_ =>
    let tail := readWord s.mem at_
    let s := if 32 < (tail - s.ringHead at_).toNat then { s with mem := writeQuad s.mem (at_ + 16) (readQuad s.mem (at_ + 16) ||| 1) }
      else s.onHuane pkg fun h => { h with tails := assocSet h.tails ring tail }
    match s.command pkg ring with
    | none => s
    | some q => if cmdCode q = 0 ∨ 9 ≤ cmdCode q then s.endCommand pkg ring { status := 1 } else s

/-- MAILBOX_POLL: Huane reads the TAIL of every ring. -/
def execMailboxPoll (pkg : Nat) (s : State) : Host.Outcome State Fault Refusal :=
  .next ((List.range 17).foldl (fun s r => s.pollRing pkg r) s)

/-! ### Commands -/

/-- FWLOAD: a signed image goes to the slot that does not run. The anti-rollback counter stays. Log 100 (DEDUCED), 12 (DESIGN
CHOICE). -/
def execFwload (pkg ring : Nat) (s : State) : Host.Outcome State Fault Refusal :=
  .next (s.runCommand pkg ring 1 fun q bytes =>
    let i := (q.getD 1 0).toNat
    let h := (s.pack pkg).huane
    if ring ≠ 0 then (s, some { status := 2 })
    else if 2 < i ∨ q.getD 2 0 ≠ 0 then (s, some { status := 1 })
    else
      match Config.firmware bytes with
      | none => (s, some { status := 4 })
      | some v =>
        if v < assocGet h.least i 0 then (s, some { status := 4 })
        else
          let now := match h.slots.find? (·.1 == i) with
            | some x => x.2
            | none => (none, none)
          let next := if assocGet h.active i 0 = 0 then (now.1, some v) else (some v, now.2)
          (s.onHuane pkg fun h => { h with slots := (i, next.1, next.2) :: h.slots.filter (·.1 != i) },
            some { status := 0, result := BitVec.ofNat 64 v }))

/-- A resource list (R409); none where an entry is malformed. Vault unit u of core c of die d is number
(96 d + c) 48 + u. Log 97 (PRESUMED). -/
def resourceList : Nat → List Byte → Option (List Resource)
  | 0, _ => some []
  | n + 1, l =>
    if l.isEmpty then some []
    else
      let q := byteNat (l.take 8)
      let type := q / 2 ^ 60
      let first := q % 2 ^ 60
      let count := byteNat ((l.drop 8).take 8)
      let limit := match type with
        | 0 => 65536 | 1 => 2048 | 2 => 256 | 3 => 2 ^ 39 | _ => 384 * 48
      if l.length < 16 ∨ 4 < type ∨ limit < first + count ∨ (type = 3 ∧ count % 65536 ≠ 0) then none
      else (resourceList n (l.drop 16)).map fun r => { type := type, first := first, count := count } :: r

def Resource.overlaps (a b : Resource) : Bool :=
  a.type == b.type && decide (a.first < b.first + b.count ∧ b.first < a.first + a.count)

/-- The queues of a resource list. -/
def queuesOf (rs : List Resource) : List Nat := (List.range 2048).filter (holds rs 1)

/-- Set FUNC of queues. -/
def State.setFunc (s : State) (pkg f : Nat) (qs : List Nat) : State :=
  qs.foldl (fun s q => s.setQueueQuad pkg q 1
    ((s.queueQuad pkg q 1 &&& ~~~(0x1F#64 <<< 24)) ||| (BitVec.ofNat 64 f <<< 24))) s

/-- PCREATE. Log 99 (DEDUCED). -/
def execPcreate (pkg ring : Nat) (s : State) : Host.Outcome State Fault Refusal :=
  .next (s.runCommand pkg ring 2 fun q bytes =>
    let f := (q.getD 1 0).toNat
    let h := (s.pack pkg).huane
    if ring ≠ 0 then (s, some { status := 2 })
    else if 16 < f ∨ q.getD 2 0 ≠ 0 then (s, some { status := 1 })
    else
      match resourceList (bytes.length + 1) bytes with
      | none => (s, some { status := 1 })
      | some rs =>
        if (s.partitionOn pkg f).isSome
            || h.partitions.any (fun p => p.resources.any fun a => rs.any fun b => a.overlaps b) then (s, some { status := 2 })
        else
          let p : Partition := { id := h.nextPartition, function := f, resources := rs }
          ((s.onHuane pkg fun h => { h with partitions := h.partitions ++ [p], nextPartition := h.nextPartition + 1 }).setFunc pkg f
              (queuesOf rs), some { status := 0, result := BitVec.ofNat 64 p.id }))

/-- Start the teardown of a partition: its queues stop, and its gangs take cause 0x22 (R412). -/
def State.tear (s : State) (pkg : Nat) (p : Partition) (ring : Option Nat) : State :=
  let qs := queuesOf p.resources
  let s := qs.foldl (fun s q => s.setQueueQuad pkg q 1 (s.queueQuad pkg q 1 &&& ~~~0x40#64)) s
  let gangs := (s.pack pkg).gangs.filter fun g => holds p.resources 1 g.queue
    || (s.gangHarts pkg g.gangid).any fun h => holds p.resources 0 h.asid.toNat
  let s := gangs.foldl (fun s g => s.abortGang pkg g) s
  (s.setFunc pkg 31 qs).onHuane pkg fun h => { h with
    partitions := h.partitions.map fun x => if x.id = p.id then { x with tearing := true, ring := ring } else x }

/-- PTEAR: it ends when the partition is released. -/
def execPtear (pkg ring : Nat) (s : State) : Host.Outcome State Fault Refusal :=
  .next (s.runCommand pkg ring 3 fun q _ =>
    if ring ≠ 0 then (s, some { status := 2 })
    else if q.getD 2 0 ≠ 0 then (s, some { status := 1 })
    else
      match (s.pack pkg).huane.partitions.find? (fun p => p.id == (q.getD 1 0).toNat && !p.tearing) with
      | none => (s, some { status := 2 })
      | some p => (s.tear pkg p (some ring), none))

/-- The caches of a package forget the lines of a physical range (R413). -/
def State.forgetBytes (s : State) (pkg base n : Nat) : State :=
  let out := fun (l : Nat × Nat) => !meets base n (64 * l.1) 64
  { s with cores := s.cores.map fun c =>
    if c.pkg = pkg then { c with icache := c.icache.filter out, ccache := c.ccache.filter out } else c }

/-- Wipe one resource of a partition. -/
def State.wipeResource (s : State) (pkg : Nat) (r : Resource) : State :=
  match r.type with
  | 0 =>
    let named := fun (asid : BitVec 16) => decide (r.first ≤ asid.toNat ∧ asid.toNat < r.first + r.count)
    { s with tlb := s.tlb.filter (fun e => !(e.pkg == pkg && named e.asid)),
             tables := s.tables.filter fun e => !(e.pkg == pkg && named e.asid),
             ended := s.ended.filter fun h => !(h.pkg == pkg && named h.asid) }
  | 1 =>
    let p := s.pack pkg
    s.setPack { p with waiting := p.waiting.filter fun w => !decide (r.first ≤ w.queue ∧ w.queue < r.first + r.count) }
  | 3 =>
    (List.range 4).foldl (fun s die =>
      let lo := max r.first (die * 2 ^ 37)
      let at_ := hbmKey pkg die (lo - die * 2 ^ 37)
      let n := min (r.first + r.count) ((die + 1) * 2 ^ 37) - lo
      (s.wipe at_ n).forgetBytes pkg at_ n) s
  | 4 =>
    (List.range r.count).foldl (fun s i =>
      let n := r.first + i
      let die := n / 48 / 96
      let core := n / 48 % 96
      let c := s.core pkg die core
      let at_ := vaultKey pkg die core (65536 * (n % 48))
      (((s.wipe at_ 65536).emptyEntries at_ 65536 c.sieve).forgetBytes pkg at_ 65536).setCore { c with units := c.units.filter (·.1 != n % 48) }) s
  | _ => s

/-- A hart of a partition: of one of its asids, or of a gang of one of its queues (R412). -/
def State.partitionHart (s : State) (pkg : Nat) (p : Partition) (h : Hart) : Bool :=
  h.pkg == pkg && (holds p.resources 0 h.asid.toNat || (s.gangOf h).any fun g => holds p.resources 1 g.queue)

/-- PARTITION_RELEASE: no hart of the partition is left; its keys are dropped, its resources wiped and released
(R412). -/
def execPartitionRelease (pkg part : Nat) (s : State) : Host.Outcome State Fault Refusal :=
  match (s.pack pkg).huane.partitions.find? (fun p => p.id == part && p.tearing) with
  | none => .next s
  | some p =>
    if s.harts.any (s.partitionHart pkg p) then .next s
    else
      let s := p.resources.foldl (fun s r => s.wipeResource pkg r) s
      let s := { s with enclaves := s.enclaves.map fun (e : Enclave) =>
        ({ e with members := e.members.filter fun m => !(m.2.1 == pkg && m.2.2 == part) } : Enclave) }
      let s := s.onHuane pkg fun h => { h with partitions := h.partitions.filter (·.id != part) }
      .next (match p.ring with
        | some r => s.endCommand pkg r { status := 0 }
        | none => s)

/-- Values of 64 bytes each. -/
def cut64 : Nat → List Byte → List Nat
  | 0, _ => []
  | n + 1, l => byteNat (l.take 64) :: cut64 n (l.drop 64)

/-- Life-cycle states with enclaves, and with a usable identity key (R415). -/
def lcsEnclaves (l : BitVec 4) : Bool := l == 2
def lcsKey (l : BitVec 4) : Bool := l == 1 || l == 2

/-- ECREATE. Log 99 (DEDUCED). -/
def execEcreate (pkg ring : Nat) (s : State) : Host.Outcome State Fault Refusal :=
  .next (s.runCommand pkg ring 4 fun q bytes =>
    let a := q.getD 1 0
    let n := fieldOf a 0 8
    let quorum := fieldOf a 8 8
    let m := (q.getD 2 0).toNat
    if (s.partitionOn pkg ring).isNone ∨ !lcsEnclaves (s.pack pkg).huane.lcs then (s, some { status := 2 })
    else if n = 0 ∨ 16 < n ∨ quorum = 0 ∨ n < quorum ∨ fieldOf a 17 47 ≠ 0 ∨ bytes.length ≠ 64 * (n + m) then
      (s, some { status := 1 })
    else
      let e : Enclave := { id := Config.value s.free, quorum := quorum, keys := cut64 n bytes,
                           allowed := cut64 m (bytes.drop (64 * n)), hostio := bitOf a 16 }
      (({ s with enclaves := s.enclaves ++ [e] } : State).drawn, some { status := 0, result := e.id }))

/-- A member was revoked by an order that some package has applied. -/
def State.revokedMember (s : State) (enclave : Quad) (i : Nat) : Bool :=
  s.orders.any fun o => o.enclave == enclave && o.member == i

/-- EJOIN. Whether every member's Huane verifies the reports is open. -/
def execEjoin (pkg ring : Nat) (s : State) : Host.Outcome State Fault Refusal :=
  .next (s.runCommand pkg ring 5 fun q bytes =>
    let i := (q.getD 2 0).toNat
    match s.partitionOn pkg ring, s.enclaves.find? (·.id == q.getD 1 0) with
    | some p, some e =>
      let m := Config.measure bytes
      if !lcsEnclaves (s.pack pkg).huane.lcs ∨ e.members.any (fun x => x.1 == i || x.2.1 == pkg) ∨ s.revokedMember e.id i
          ∨ !e.allowed.contains m then (s, some { status := 2 })
      else if Config.choice s.free then (s.drawn, some { status := 4 })
      else
        let s := (s.onHuane pkg fun h => { h with
          partitions := h.partitions.map fun x => if x.id = p.id then { x with measure := m } else x }).drawn
        ({ s with enclaves := s.enclaves.map fun x => if x.id = e.id then { x with members := x.members ++ [(i, pkg, p.id)] } else x },
          some { status := 0 })
    | _, _ => (s, some { status := 2 }))

def bytesOf (n x : Nat) : List Byte := (List.range n).map fun i => BitVec.ofNat 8 (x / 256 ^ i)

/-- The security version of the image that runs. -/
def Huane.version (h : Huane) (i : Nat) : Nat :=
  match h.slots.find? (·.1 == i) with
  | none => 0
  | some x => ((if assocGet h.active i 0 = 0 then x.2.1 else x.2.2).getD 0)

/-- The 512 bytes of a report (R410): the versions of the three images, 8 bytes each, and 8 zero bytes. The member index
and measurement of a report that names no enclave are open. Log 143 (DESIGN CHOICE). -/
def Huane.report (h : Huane) (id : Quad) (member measure : Nat) (nonce : List Byte) : List Byte :=
  bytesOf 8 id.toNat ++ bytesOf 2 member ++ bytesOf 2 h.lcs.toNat ++ bytesOf 4 0 ++ nonce ++ bytesOf 64 measure
    ++ images.flatMap (fun i => bytesOf 8 (h.version i)) ++ bytesOf 8 0 ++ bytesOf 8 h.leaf ++ bytesOf 360 0

/-- A report with its signature. -/
def Huane.signed (h : Huane) (pkg : Nat) (report : List Byte) : List Byte :=
  report ++ (List.range 2820).map (Config.signature pkg h.leaf report)

/-- REPORT. Log 99 (DEDUCED). -/
def execReport (pkg ring : Nat) (s : State) : Host.Outcome State Fault Refusal :=
  .next (s.runCommand pkg ring 6 fun q bytes =>
    let h := (s.pack pkg).huane
    let id := q.getD 1 0
    let part := s.partitionOn pkg ring
    let mine := match s.enclaves.find? (·.id == id), part with
      | some e, some p => (e.members.find? fun (m : Nat × Nat × Nat) => m.2.1 == pkg && m.2.2 == p.id).map fun (m : Nat × Nat × Nat) => (m.1, p.measure)
      | _, _ => none
    if bytes.length ≠ 32 ∨ fieldOf (q.getD 4 0) 32 32 < 3332 ∨ q.getD 2 0 ≠ 0 then (s, some { status := 1 })
    else if !lcsKey h.lcs ∨ (id ≠ 0 ∧ mine.isNone) then (s, some { status := 2 })
    else if 2 ^ 20 ≤ h.leaf then (s, some { status := 3 })
    else
      let open_ := fun i => (Config.value (s.free + i)).toNat
      let who := if id = 0 then (open_ 0 % 65536, open_ 1) else mine.getD (0, 0)
      let out := h.signed pkg (h.report id who.1 who.2 bytes)
      ({ s.onHuane pkg (fun h => { h with leaf := h.leaf + 1 }) with free := s.free + 2 },
        some { status := 0, result := BitVec.ofNat 64 h.leaf, out := out }))

/-! ### Revocation (R411) -/

/-- The signatures of an order: participant and bytes. -/
def orderSigs : Nat → List Byte → List (Nat × List Byte)
  | 0, _ => []
  | n + 1, l => (byteNat (l.take 8), (l.drop 8).take 2820) :: orderSigs n (l.drop 2828)

/-- EREVOKE: an order with Q valid signatures of distinct participants and a new epoch goes to every member
package. -/
def execErevoke (pkg ring : Nat) (s : State) : Host.Outcome State Fault Refusal :=
  .next (s.runCommand pkg ring 7 fun q bytes =>
    let member := byteNat (bytes.take 8)
    let epoch := byteNat ((bytes.drop 8).take 8)
    let n := byteNat ((bytes.drop 16).take 8)
    match s.enclaves.find? (·.id == q.getD 1 0) with
    | none => (s, some { status := 2 })
    | some e =>
      if !(s.partitionOn pkg ring).any (fun p => e.members.any fun m => m.2.1 == pkg && m.2.2 == p.id) then
        (s, some { status := 2 })
      else if bytes.length ≠ 24 + 2828 * n ∨ q.getD 2 0 ≠ 0 then (s, some { status := 1 })
      else
        let good := ((orderSigs n (bytes.drop 24)).filter fun x =>
          match e.keys[x.1]? with
          | some k => Config.verifies k e.id member epoch x.2
          | none => false).map (·.1)
        let old := s.orders.any fun o => o.enclave == e.id && decide (epoch ≤ o.epoch)
        if good.eraseDups.length < e.quorum ∨ old then (s, some { status := 4 })
        else ({ s with orders := s.orders ++ [⟨e.id, member, epoch⟩] }, some { status := 0 }))

/-- The harts of a partition take cause 0x21, and its teardown starts where it does not run. -/
def State.haltMember (s : State) (pkg : Nat) (enclave : Quad) (p : Partition) : State :=
  let f := fun (h : Hart) =>
    if h.pkg = pkg ∧ holds p.resources 0 h.asid.toNat then
      { h with enclave := enclave, sup := { h.sup with pend := h.sup.pend ||| 2 } } else h
  let s := ({ s with hart := f s.hart, others := s.others.map f } : State)
  if p.tearing then s else s.tear pkg p none

/-- REVOCATION_APPLY: a member package drops the member's keys, aborts its groups with cause 4, and, on the member's
own package, halts it. -/
def execRevocationApply (pkg : Nat) (enclave member epoch : Nat) (s : State) : Host.Outcome State Fault Refusal :=
  let id : Quad := BitVec.ofNat 64 enclave
  let o : Order := ⟨id, member, epoch⟩
  match s.enclaves.find? (·.id == id) with
  | none => .next s
  | some e =>
    if !s.orders.contains o ∨ !e.members.any (fun m => m.2.1 == pkg) ∨ (s.pack pkg).huane.applied.contains o then .next s
    else
      let s := s.onHuane pkg fun h => { h with applied := o :: h.applied }
      let hit := s.groups.filter fun g => g.joined.any fun j =>
        match s.findHart j.2 with
        | some h => (match s.memberOf h.pkg h.asid with
          | some x => x.1.id == id && x.2 == member
          | none => false)
        | none => false
      let s := hit.foldl (fun s g => s.abortGroup g.handle 4 pkg) s
      .next (match e.members.find? fun m => m.1 == member && m.2.1 == pkg with
        | none => s
        | some m =>
          match (s.pack pkg).huane.partitions.find? (·.id == m.2.2) with
          | some p => s.haltMember pkg id p
          | none => s)

/-- LCS: the next life-cycle state, which the command returns; the package is wiped and reset (R415). Any other
state has status 2: log 99 (DEDUCED). -/
def execLcs (pkg ring : Nat) (s : State) : Host.Outcome State Fault Refusal :=
  .next (s.runCommand pkg ring 8 fun q _ =>
    let h := (s.pack pkg).huane
    let t := (q.getD 1 0).toNat
    if ring ≠ 0 then (s, some { status := 2 })
    else if 4 < t ∨ q.getD 2 0 ≠ 0 then (s, some { status := 1 })
    else if t ≠ h.lcs.toNat + 1 then (s, some { status := 2 })
    else
      let s := (s.onHuane pkg fun h => { h with lcs := h.lcs + 1 }).endCommand pkg ring { status := 0, result := BitVec.ofNat 64 t }
      (((s.wipePackage pkg).resetPackage pkg).someTurn, none))

/-! ### Power (R416, R417) -/

def State.onPower (s : State) (pkg : Nat) (f : Power → Power) : State :=
  let p := s.pack pkg
  s.setPack { p with power := f p.power }

/-- DIECAP as it is applied: at the nearer end where it is out of range (R406). -/
def State.dieCap (s : State) (pkg : Nat) : Nat := max 200 (min 800 (fieldOf (s.block pkg 10) 32 10))

/-- PKGCAP as it is applied (R406). -/
def State.pkgCap (s : State) (pkg : Nat) : Nat := max 600 (min 2000 (fieldOf (s.block pkg 10) 0 11))

/-- The grant of a die in force: half of it after a thermal trip (R417). -/
def Power.grant (w : Power) (die : Nat) : Nat := if w.hot then w.grants.getD die 0 / 2 else w.grants.getD die 0

/-- POWER_GRANT_INTERVAL: a new grant for each die, each at most DIECAP, with an estimate of at most PKGCAP; how the arbiter
chooses is open. Log 96 (DESIGN CHOICE). -/
def execPowerGrantInterval (pkg : Nat) (demand : List Nat) (s : State) : Host.Outcome State Fault Refusal :=
  let cap := s.dieCap pkg
  let one := fun d => min (demand.getD d 0) ((Config.value (s.free + d)).toNat % (cap + 1))
  let watts := (Config.value (s.free + 4)).toNat % (s.pkgCap pkg + 1)
  .next { s.onPower pkg (fun w => { w with grants := (List.range 4).map one, estimate := watts, droop := false }) with
    free := s.free + 5 }

/-- RAIL_DROOP: matrix step rates are halved for the rest of the interval. -/
def execRailDroop (pkg : Nat) (s : State) : Host.Outcome State Fault Refusal :=
  .next (s.onPower pkg fun w => { w with droop := true })

/-- THERMAL_TRIP: grants count half. -/
def execThermalTrip (pkg : Nat) (s : State) : Host.Outcome State Fault Refusal :=
  .next (s.onPower pkg fun w => { w with hot := true })

/-- THERMAL_RECOVER: full grants return. -/
def execThermalRecover (pkg : Nat) (s : State) : Host.Outcome State Fault Refusal :=
  .next (s.onPower pkg fun w => { w with hot := false })

/-! ### Errors and the host link (R418 to R421) -/

def EccUnit.code : EccUnit → Nat
  | .hbm => 0 | .l2 => 1 | .vault => 2 | .regfile => 3 | .mucen => 4

/-- UNCORRECTABLE_ERROR: the granule is poisoned where the error lies in memory, and a machine check is logged. -/
def execUncorrectableError (pkg : Nat) (u : EccUnit) (addr : Nat) (s : State) : Host.Outcome State Fault Refusal :=
  let memory := match u with
    | .hbm | .l2 | .vault => inPackage pkg addr
    | _ => false
  let s := if memory then { s with poison := insertNat s.poison (granule addr) } else s
  .next (s.machineCheck pkg (checkAddr addr).1 1 (EccUnit.code u) 1 0)

/-- CORRECTED_SUMMARY: the record of a die; its count, and what its address and unit hold, are open.
Log 95 (DESIGN CHOICE). -/
def execCorrectedSummary (pkg die : Nat) (s : State) : Host.Outcome State Fault Refusal :=
  let x := fun i => (Config.value (s.free + i)).toNat
  .next { (if die < 4 then s.machineCheck pkg (x 0) 4 (x 1 % 256) (x 2) 0 else s) with free := s.free + 3 }

/-- HOST_LINK_TRAINING: 64 GT/s or a lower rate of the same specification; 2 stands for 2.5.
Log 16 (DESIGN CHOICE). -/
def execHostLinkTraining (pkg rate : Nat) (s : State) : Host.Outcome State Fault Refusal :=
  let p := s.pack pkg
  .next (if [64, 32, 16, 8, 5, 2].contains rate then s.setPack { p with hostRate := rate } else s)

/-! ### Host writes to registers (R4, R366, R367, R405) -/

/-- The fields of a quad of the bring-up block that a write reaches. -/
def blockMask (quad : Nat) : Quad :=
  if 1 ≤ quad ∧ quad ≤ 8 then 0x7FFFFFFFFF else if quad = 9 then 1 else if quad = 10 then 0x3FF000007FF else 0

/-- The queue at a place of a function's doorbell window. -/
def State.windowQueue (s : State) (pkg f idx : Nat) : Option Nat :=
  if 16 < f ∨ (1 ≤ f ∧ 128 ≤ idx) then none
  else ((List.range 2048).filter fun q => (s.queueDesc pkg q).func == f)[idx]?

/-- Clear the lowest bit of a quad in memory when a write has it set (W1C). -/
def State.clearBit0 (s : State) (a : Nat) (v : Quad) : State :=
  if bitOf v 0 then { s with mem := writeQuad s.mem a (readQuad s.mem a &&& ~~~1#64) } else s

/-- A write to a descriptor through a window: a VF reaches TAIL and BADTAIL alone. -/
def State.writeQueue (s : State) (pkg f q quad : Nat) (v : Quad) : State :=
  if quad = 3 then s.writeTail pkg q (v.setWidth 32)
  else if quad = 4 then (if bitOf v 0 then s.setQueueQuad pkg q 4 (s.queueQuad pkg q 4 &&& ~~~1#64) else s)
  else if f = 0 ∧ quad = 0 then s.setQueueQuad pkg q 0 v
  else if f = 0 ∧ quad = 1 then s.setQueueQuad pkg q 1 (v &&& 0x1FFFF0DF)
  else s

/-- REGISTER_WRITE: a write to a register without a row of its own, per its Access column. Log 102 (DEDUCED). -/
def execRegisterWrite (pkg : Nat) (r : RegId) (v : Quad) (s : State) : Host.Outcome State Fault Refusal :=
  .next (match r with
    | .bringUp quad =>
      if blockMask quad = 0 ∨ (1 ≤ quad ∧ quad ≤ 8 ∧ s.partRuns pkg) then s
      else s.setBlock pkg quad (v &&& blockMask quad)
    | .queue f idx quad =>
      match s.windowQueue pkg f idx with
      | some q => if s.partRuns pkg then s.writeQueue pkg f q quad v else s
      | none => s
    | .portStatus port =>
      match s.blockBase pkg 2 with
      | some b => if port < 40 then s.clearBit0 (b + 0x380 + 8 * port) v else s
      | none => s
    | .slotStatus =>
      s.setSlotStatus pkg fun q => ((q &&& ~~~1#64) ||| (v &&& 1)) &&& ~~~(v &&& 4)
    | .ringHead die =>
      if s.partRuns pkg && decide (die < 4) then { s with mem := writeN s.mem (s.xlat pkg die + 16) 4 (fieldOf v 0 32) } else s
    | .mailbox ring quad =>
      match s.ringAt pkg ring with
      | none => s
      | some at_ =>
        if 17 ≤ ring then s
        else if quad = 0 then { s with mem := writeN s.mem at_ 4 (fieldOf v 0 32) }
        else if quad = 2 then s.clearBit0 (at_ + 16) v
        else s)

end Sys2Proof.Machine
end

