-- ==== Sys2Proof/Machine/MemEvents.lean ====
section
/-! DEFINITION. Accesses that reach their homes (06 R112 to R128, R136; 02 R35; 10 R230), and the steps of the
walkers and of shoot-downs (18 R352 to R360). A step whose event is not due changes nothing. -/

namespace Sys2Proof.Machine

/-! ### Accesses -/

/-- Perform access i of the hart whose turn it is, if it is of a kind and nothing must come before it. -/
def State.performIf (s : State) (i : Nat) (is : Access → Bool) : State :=
  match s.hart.pend[i]? with
  | none => s
  | some a =>
    if is a && s.hart.mayPerform (s.hart.pend.take i) a then (s.performAt i).mapHart (·.completeNb) else s

/-- Perform the accesses that satisfy p, in order, up to the first that must wait. -/
def State.performRun (s : State) (p : Access → Bool) : Nat → State
  | 0 => s
  | n + 1 =>
    match s.hart.pend.findIdx? p with
    | none => s
    | some i =>
      match s.hart.pend[i]? with
      | none => s
      | some a => if s.hart.mayPerform (s.hart.pend.take i) a then (s.performAt i).performRun p n else s

def AccOp.isLoad : AccOp → Bool
  | .load _ | .loadConst _ | .loadWindow .. => true | _ => false
def AccOp.isAtomic : AccOp → Bool
  | .amo .. | .cas .. => true | _ => false
def AccOp.isVamo : AccOp → Bool
  | .vamo .. => true | _ => false
def Slice.isRemote : Slice → Bool
  | .remote .. => true | _ => false

/-- The element of a v register that an access delivers. -/
def Access.element (a : Access) : Option (VReg × Nat) :=
  match a.op with
  | .load (.v d e ..) | .loadConst (.v d e ..) | .loadWindow _ (.v d e ..) | .exchange _ (.v d e ..) => some (d, e)
  | .vamo _ _ ((e, _) :: _) (some d) => some (d, e)
  | _ => none

/-- ELEMENT_GROUP_ARRIVAL: element group g of a pending register arrives (R35). -/
def execElementGroupArrival (h : HartRef) (v : VReg) (g : Nat) (s : State) : Host.Outcome State Fault Refusal :=
  .next (s.withHart h fun s =>
    (s.performRun (fun a => match a.element with
      | some (d, e) => d == v && e / 8 == g
      | none => false) s.hart.pend.length).mapHart (·.completeNb))

/-- LOAD_PERFORMED: the value of load i is fixed (R114). -/
def execLoadPerformed (h : HartRef) (i : Nat) (s : State) : Host.Outcome State Fault Refusal :=
  .next (s.withHart h fun s => s.performIf i fun a => a.op.isLoad)

/-- TAG_RETIRE: a tag whose load is performed leaves every taint set (R128). -/
def execTagRetire (h : HartRef) (t : BitVec 4) (s : State) : Host.Outcome State Fault Refusal :=
  .next (s.onHart h fun h => if bitOf h.tagBusy t.toNat && !h.tagPending t then h.clearTags (tagBit t) else h)

/-- STORE_ACKNOWLEDGE: the home acknowledges scalar store i of those it has applied (R97). -/
def execStoreAcknowledge (h : HartRef) (i : Nat) (s : State) : Host.Outcome State Fault Refusal :=
  .next (s.onHart h fun h => { h with unacked := h.unacked.eraseIdx i })

/-- HOME_ACCESS: a home applies access i, which is no atomic, in its coherence order (R112, R117, R118). Log 144 (DESIGN
CHOICE). -/
def execHomeAccess (h : HartRef) (i : Nat) (s : State) : Host.Outcome State Fault Refusal :=
  .next (s.withHart h fun s => s.performIf i fun a => !a.op.isAtomic && !a.op.isVamo && a.train.isNone)

/-- ATOMIC_AT_HOME: a home applies scalar atomic i of a hart of its own package (R102). -/
def execAtomicAtHome (h : HartRef) (i : Nat) (s : State) : Host.Outcome State Fault Refusal :=
  .next (s.withHart h fun s => s.performIf i fun a => a.op.isAtomic && !a.slice.isRemote)

/-- RRU_ATOMIC: a receive reduction unit applies atomic i, which comes from another package (R102). -/
def execRruAtomic (h : HartRef) (i : Nat) (s : State) : Host.Outcome State Fault Refusal :=
  .next (s.withHart h fun s => s.performIf i fun a => (a.op.isAtomic || a.op.isVamo) && a.slice.isRemote)

/-- VECTOR_ATOMIC_UPDATE: a home applies merged update i (R235). -/
def execVectorAtomicUpdate (h : HartRef) (i : Nat) (s : State) : Host.Outcome State Fault Refusal :=
  .next (s.withHart h fun s => s.performIf i fun a => a.op.isVamo)

/-- TRAIN_APPLY: the destination die applies the elements of a train (R136): all of them, in element order. HOME_ACCESS
applies none of them. Log 137 (DESIGN CHOICE). -/
def execTrainApply (h : HartRef) (t : Nat) (s : State) : Host.Outcome State Fault Refusal :=
  .next (s.withHart h fun s => s.performRun (fun a => a.train == some t) s.hart.pend.length)

/-- TRAIN_ACKNOWLEDGE: the acknowledgement of a train that is applied whole arrives (R136). -/
def execTrainAcknowledge (h : HartRef) (t : Nat) (s : State) : Host.Outcome State Fault Refusal :=
  .next (s.onHart h fun h =>
    if h.pend.any (·.train == some t) then h
    else ({ h with trains := h.trains.filter (·.1 != t) } : Hart).completeNb)

/-- NB_COMPLETE: every access of non-blocking instruction c is performed, and its counter advances (R230). -/
def execNbComplete (h : HartRef) (c : Nat) (s : State) : Host.Outcome State Fault Refusal :=
  .next (s.onHart h fun h =>
    match h.nbs[c]? with
    | none => h
    | some o => if h.nbDone o.seq then ({ h with nbs := h.nbs.eraseIdx c } : Hart).bumpK o.k else h)

/-! ### Translation -/

/-- TLB_MISS_WALK: a walker translates an offset and fills the TLB that asked (R352, R355). An entry past the
die's memory stops it. -/
def execTlbMissWalk (w : WalkReq) (s : State) : Host.Outcome State Fault Refusal :=
  match s.walkCached w.pkg w.die w.core (BitVec.ofNat 16 w.asid) w.offset with
  | .leaf l size => .next ((s.fillTlb w l size).fillTables w)
  | .absent _ => .next s
  | .beyond a => .fault (.noMemory a)

/-- What a hint's access needs of a leaf (R353). -/
def hintKind (w : WalkReq) : AccKind := if w.atomic then .atomic else if w.write then .write else .read

/-- A stream request of the asid is on its way to the home from another die: it may carry the hint. -/
def State.hinted (s : State) (w : WalkReq) : Bool :=
  s.harts.any fun h => !(h.pkg == w.pkg && h.die == w.die) && h.asid.toNat == w.asid &&
    h.pend.any fun a => a.op.elems != [] && a.addr / 2 ^ 51 == 4 * w.pkg + w.die

/-- TRANSLATION_HINT: the home's walker fills its die TLB, or drops the hint; it makes the checks of R353, and never
reports a fault (R356). Log 84 (DESIGN CHOICE). -/
def execTranslationHint (w : WalkReq) (s : State) : Host.Outcome State Fault Refusal :=
  .next (if !s.hinted w then s
    else if Config.choice s.free then s.drawn
    else match s.walkCached w.pkg w.die none (BitVec.ofNat 16 w.asid) w.offset with
      | .leaf l size =>
        if l.chan = w.chan ∧ l.allows (hintKind w) then
          ((s.fillTlb { w with core := none } l size).fillTables { w with core := none }).drawn
        else s.drawn
      | _ => s.drawn)

/-- A page that a request names (R344). -/
def Shoot.names (x : Shoot) (asid : BitVec 16) (page size : Nat) : Bool :=
  (match x.asid with
    | some a => a == asid
    | none => true) &&
  (match x.offset with
    | some o => decide (page ≤ o ∧ o < page + size)
    | none => true)

/-- The package whose memory an access reaches through a PGAS address. -/
def Access.homePkg (a : Access) : Nat := a.addr / 2 ^ 53

/-- An access in flight that was translated through an entry that a request names (R360): one to another die is translated
when it arrives there (R349). Log 83 (DEDUCED). -/
def Shoot.covers (x : Shoot) (pkg : Nat) (h : Hart) (a : Access) : Bool :=
  match a.via with
  | some (asid, page, size) => a.homePkg == pkg && x.names asid page size && a.addr / 2 ^ 51 == 4 * h.pkg + h.die
  | none => false

/-- SHOOTDOWN_REQUEST: Mucen runs the oldest tlbinv request of a package, one at a time (R359). -/
def execShootdownRequest (pkg : Nat) (s : State) : Host.Outcome State Fault Refusal :=
  let p := s.pack pkg
  match p.shoots.find? (!·.acked) with
  | none => .next s
  | some x =>
    if x.ran.isSome then .next s
    else
      let n := p.shootdown + 1
      let waits := s.harts.flatMap fun h => (h.pend.filter (x.covers pkg h)).map fun a => (h.ref, a.seq)
      let y := { x with ran := some n, waits := waits }
      let s := s.setPack { p with shootdown := n, shoots := p.shoots.set (p.shoots.idxOf x) y }
      let clear := fun (h : Hart) =>
        if h.pkg = pkg then { h with q := h.q.map fun q => { q with prewalk := 0 } } else h
      .next { s with
        tlb := s.tlb.filter (fun e => !(e.pkg == pkg && x.names e.asid e.page e.size)),
        tables := s.tables.filter (fun e => !(e.pkg == pkg && x.names e.asid e.page e.size)),
        hart := clear s.hart, others := s.others.map clear }

/-- SHOOTDOWN_ACKNOWLEDGE: the accesses that the running request waits for are performed (R360). -/
def execShootdownAcknowledge (pkg : Nat) (s : State) : Host.Outcome State Fault Refusal :=
  let p := s.pack pkg
  match p.shoots.find? fun x => x.ran.isSome && !x.acked with
  | none => .next s
  | some x =>
    if s.harts.any fun h => h.pend.any fun a => x.covers pkg h a && x.waits.contains (h.ref, a.seq) then .next s
    else
      .next (s.setPack { p with
        shoots := (p.shoots.set (p.shoots.idxOf x) { x with acked := true }).filter fun z => !(z.acked && z.orphan) })

end Sys2Proof.Machine
end

