-- ==== Sys2Proof/Machine/ScalarFp.lean ====
section
/-! DEFINITION. The scalar floating-point instructions (08 R165 to R167). -/

namespace Sys2Proof.Machine

/-! ### Shared operations -/

/-- sd := f(mode, sources), flags to fflags, the union of the sources' taint; Illegal instruction where
the mode comes from frm and frm is reserved (R59, R165). -/
def State.fpRound (s : State) (rm : RMode) (d : SReg) (src : List SReg) (f : Rnd → Hart → FRes) :
    Host.Outcome State Fault Refusal :=
  finish s (match s.rounding rm with
    | .error e => .error e
    | .ok r => .ok (((s.needS (d :: src)).mapHart fun h =>
        let x := f r h
        (h.setS d x.1 (src.foldl (fun acc r => acc ||| h.taintS r) 0)).addFlags x.2).done 4))

/-- As `fpRound` for an instruction that takes no rounding mode. -/
def State.fpPlain (s : State) (d : SReg) (src : List SReg) (f : Hart → FRes) : Host.Outcome State Fault Refusal :=
  .next (((s.needS (d :: src)).mapHart fun h =>
    let x := f h
    (h.setS d x.1 (src.foldl (fun acc r => acc ||| h.taintS r) 0)).addFlags x.2).done 4)

/-- A comparison: 1 where the relation holds. -/
def State.fpCompare (s : State) (fmt : FFmt) (c : CmpCond) (d a b : SReg) : Host.Outcome State Fault Refusal :=
  s.fpPlain d [a, b] fun h =>
    let r := fmt.ff.cmp c (h.getS a) (h.getS b)
    (boolQuad r.1, r.2)

/-- sa with a new sign. -/
def State.fpSign (s : State) (fmt : FFmt) (f : Bool → Bool → Bool) (d a b : SReg) :
    Host.Outcome State Fault Refusal :=
  s.fpPlain d [a, b] fun h =>
    (fmt.ff.withSign (f (fmt.ff.neg (h.getS a)) (fmt.ff.neg (h.getS b))) (h.getS a), 0)

/-- The tags that a conversion code names: to, from (R143). -/
def FcvtCode.types : FcvtCode → Tag × Tag
  | .f64f32 => (.f64, .f32) | .f32f64 => (.f32, .f64) | .i64f32 => (.i64, .f32) | .n64f32 => (.n64, .f32)
  | .i64f64 => (.i64, .f64) | .n64f64 => (.n64, .f64) | .f32i64 => (.f32, .i64) | .f32n64 => (.f32, .n64)
  | .f64i64 => (.f64, .i64) | .f64n64 => (.f64, .n64) | .i32f32 => (.i32, .f32) | .n32f32 => (.n32, .f32)
  | .i32f64 => (.i32, .f64) | .n32f64 => (.n32, .f64) | .f32i32 => (.f32, .i32) | .f32n32 => (.f32, .n32)
  | .f64i32 => (.f64, .i32) | .f64n32 => (.f64, .n32)

/-- The result of fcvt: an I32 result is sign-extended (R166). -/
def fcvtResult (code : FcvtCode) (r : Rnd) (x : Quad) : FRes :=
  let t := FcvtCode.types code
  let y := convertTag t.2 t.1 r false x
  (if t.1 = .i32 then (y.1.setWidth 32).signExtend 64 else y.1, y.2)

/-- fadd (R165). -/
def execFadd (fmt : FFmt) (rm : RMode) (d a b : SReg) (s : State) : Host.Outcome State Fault Refusal :=
  s.fpRound rm d [a, b] fun r h => fmt.ff.add r false (h.getS a) (h.getS b)

/-- fsub (R165). -/
def execFsub (fmt : FFmt) (rm : RMode) (d a b : SReg) (s : State) : Host.Outcome State Fault Refusal :=
  s.fpRound rm d [a, b] fun r h => fmt.ff.sub r false (h.getS a) (h.getS b)

/-- fmul (R165). -/
def execFmul (fmt : FFmt) (rm : RMode) (d a b : SReg) (s : State) : Host.Outcome State Fault Refusal :=
  s.fpRound rm d [a, b] fun r h => fmt.ff.mul r false (h.getS a) (h.getS b)

/-- fdiv (R165). -/
def execFdiv (fmt : FFmt) (rm : RMode) (d a b : SReg) (s : State) : Host.Outcome State Fault Refusal :=
  s.fpRound rm d [a, b] fun r h => fmt.ff.div r false (h.getS a) (h.getS b)

/-- fsqrt (R165, R76). -/
def execFsqrt (fmt : FFmt) (rm : RMode) (d a : SReg) (s : State) : Host.Outcome State Fault Refusal :=
  s.fpRound rm d [a] fun r h => fmt.ff.sqrt r false (h.getS a)

/-- fmin: minimumNumber (R165). -/
def execFmin (fmt : FFmt) (d a b : SReg) (s : State) : Host.Outcome State Fault Refusal :=
  s.fpPlain d [a, b] fun h => fmt.ff.minmax false (h.getS a) (h.getS b)

/-- fmax: maximumNumber (R165). -/
def execFmax (fmt : FFmt) (d a b : SReg) (s : State) : Host.Outcome State Fault Refusal :=
  s.fpPlain d [a, b] fun h => fmt.ff.minmax true (h.getS a) (h.getS b)

/-- fcmp.eq (R165). -/
def execFcmpEq (fmt : FFmt) (d a b : SReg) (s : State) : Host.Outcome State Fault Refusal :=
  s.fpCompare fmt .eq d a b

/-- fcmp.lt (R165). -/
def execFcmpLt (fmt : FFmt) (d a b : SReg) (s : State) : Host.Outcome State Fault Refusal :=
  s.fpCompare fmt .lt d a b

/-- fcmp.le (R165). -/
def execFcmpLe (fmt : FFmt) (d a b : SReg) (s : State) : Host.Outcome State Fault Refusal :=
  s.fpCompare fmt .le d a b

/-- fcmp.uo (R165). -/
def execFcmpUo (fmt : FFmt) (d a b : SReg) (s : State) : Host.Outcome State Fault Refusal :=
  s.fpCompare fmt .uo d a b

/-- fclass: the class word (R165). -/
def execFclass (fmt : FFmt) (d a : SReg) (s : State) : Host.Outcome State Fault Refusal :=
  s.fpPlain d [a] fun h => (fmt.ff.classWord (h.getS a), 0)

/-- fsgn.j: the sign of sb (R165). -/
def execFsgnJ (fmt : FFmt) (d a b : SReg) (s : State) : Host.Outcome State Fault Refusal :=
  s.fpSign fmt (fun _ y => y) d a b

/-- fsgn.n: the opposite of the sign of sb (R165). -/
def execFsgnN (fmt : FFmt) (d a b : SReg) (s : State) : Host.Outcome State Fault Refusal :=
  s.fpSign fmt (fun _ y => !y) d a b

/-- fsgn.x: the exclusive-or of the signs (R165). -/
def execFsgnX (fmt : FFmt) (d a b : SReg) (s : State) : Host.Outcome State Fault Refusal :=
  s.fpSign fmt (fun x y => x != y) d a b

/-- fmv: the bits copied (R165). -/
def execFmv (fmt : FFmt) (d a : SReg) (s : State) : Host.Outcome State Fault Refusal :=
  s.fpPlain d [a] fun h => (fmt.ff.bits (h.getS a), 0)

/-- fcvt (R166): every form obeys R59. -/
def execFcvt (code : FcvtCode) (rm : RMode) (d a : SReg) (s : State) : Host.Outcome State Fault Refusal :=
  s.fpRound rm d [a] fun r h => fcvtResult code r (h.getS a)

/-- fmadd: one rounding (R167). -/
def execFmadd (fmt : FFmt) (rm : RMode) (d a b c : SReg) (s : State) : Host.Outcome State Fault Refusal :=
  s.fpRound rm d [a, b, c] fun r h =>
    fmt.ff.fma r false false false (h.getS a) (h.getS b) (h.getS c)

/-- fmsub: one rounding (R167). -/
def execFmsub (fmt : FFmt) (rm : RMode) (d a b c : SReg) (s : State) : Host.Outcome State Fault Refusal :=
  s.fpRound rm d [a, b, c] fun r h =>
    fmt.ff.fma r false true false (h.getS a) (h.getS b) (h.getS c)

/-- fnmadd: one rounding (R167). -/
def execFnmadd (fmt : FFmt) (rm : RMode) (d a b c : SReg) (s : State) : Host.Outcome State Fault Refusal :=
  s.fpRound rm d [a, b, c] fun r h =>
    fmt.ff.fma r false false true (h.getS a) (h.getS b) (h.getS c)

end Sys2Proof.Machine
end

