-- ==== Sys2Proof/Machine/Dispatch.lean ====
section
/-! DEFINITION. The meaning of each instruction: one arm for each constructor of `Instr`. -/

namespace Sys2Proof.Machine

/-- What an instruction, or a step of another agent, does in a state. -/
def exec (i : Instr) (s : State) : Host.Outcome State Fault Refusal :=
  match i with
  | .add d a b => Sys2Proof.Machine.execAdd d a b s
  | .sub d a b => Sys2Proof.Machine.execSub d a b s
  | .and d a b => Sys2Proof.Machine.execAnd d a b s
  | .or d a b => Sys2Proof.Machine.execOr d a b s
  | .xor d a b => Sys2Proof.Machine.execXor d a b s
  | .sll d a b => Sys2Proof.Machine.execSll d a b s
  | .srl d a b => Sys2Proof.Machine.execSrl d a b s
  | .sra d a b => Sys2Proof.Machine.execSra d a b s
  | .rotl d a b => Sys2Proof.Machine.execRotl d a b s
  | .rotr d a b => Sys2Proof.Machine.execRotr d a b s
  | .mul d a b => Sys2Proof.Machine.execMul d a b s
  | .mulh d a b => Sys2Proof.Machine.execMulh d a b s
  | .mulhN d a b => Sys2Proof.Machine.execMulhN d a b s
  | .div d a b => Sys2Proof.Machine.execDiv d a b s
  | .divN d a b => Sys2Proof.Machine.execDivN d a b s
  | .rem d a b => Sys2Proof.Machine.execRem d a b s
  | .remN d a b => Sys2Proof.Machine.execRemN d a b s
  | .min d a b => Sys2Proof.Machine.execMin d a b s
  | .max d a b => Sys2Proof.Machine.execMax d a b s
  | .minN d a b => Sys2Proof.Machine.execMinN d a b s
  | .maxN d a b => Sys2Proof.Machine.execMaxN d a b s
  | .slt d a b => Sys2Proof.Machine.execSlt d a b s
  | .sltN d a b => Sys2Proof.Machine.execSltN d a b s
  | .clz d a => Sys2Proof.Machine.execClz d a s
  | .ctz d a => Sys2Proof.Machine.execCtz d a s
  | .popc d a => Sys2Proof.Machine.execPopc d a s
  | .addi d a imm => Sys2Proof.Machine.execAddi d a imm s
  | .andi d a imm => Sys2Proof.Machine.execAndi d a imm s
  | .ori d a imm => Sys2Proof.Machine.execOri d a imm s
  | .xori d a imm => Sys2Proof.Machine.execXori d a imm s
  | .slli d a count => Sys2Proof.Machine.execSlli d a count s
  | .srli d a count => Sys2Proof.Machine.execSrli d a count s
  | .srai d a count => Sys2Proof.Machine.execSrai d a count s
  | .lih d imm => Sys2Proof.Machine.execLih d imm s
  | .adr d imm => Sys2Proof.Machine.execAdr d imm s
  | .li64 d imm => Sys2Proof.Machine.execLi64 d imm s
  | .gmk f d a b => Sys2Proof.Machine.execGmk f d a b s
  | .gfld f d a => Sys2Proof.Machine.execGfld f d a s
  | .bEq a b off => Sys2Proof.Machine.execBEq a b off s
  | .bNe a b off => Sys2Proof.Machine.execBNe a b off s
  | .bLt a b off => Sys2Proof.Machine.execBLt a b off s
  | .bGe a b off => Sys2Proof.Machine.execBGe a b off s
  | .bLtN a b off => Sys2Proof.Machine.execBLtN a b off s
  | .bGeN a b off => Sys2Proof.Machine.execBGeN a b off s
  | .j off => Sys2Proof.Machine.execJ off s
  | .jal off => Sys2Proof.Machine.execJal off s
  | .jr a => Sys2Proof.Machine.execJr a s
  | .jalr d a => Sys2Proof.Machine.execJalr d a s
  | .fadd fmt rm d a b => Sys2Proof.Machine.execFadd fmt rm d a b s
  | .fsub fmt rm d a b => Sys2Proof.Machine.execFsub fmt rm d a b s
  | .fmul fmt rm d a b => Sys2Proof.Machine.execFmul fmt rm d a b s
  | .fdiv fmt rm d a b => Sys2Proof.Machine.execFdiv fmt rm d a b s
  | .fsqrt fmt rm d a => Sys2Proof.Machine.execFsqrt fmt rm d a s
  | .fmin fmt d a b => Sys2Proof.Machine.execFmin fmt d a b s
  | .fmax fmt d a b => Sys2Proof.Machine.execFmax fmt d a b s
  | .fcmpEq fmt d a b => Sys2Proof.Machine.execFcmpEq fmt d a b s
  | .fcmpLt fmt d a b => Sys2Proof.Machine.execFcmpLt fmt d a b s
  | .fcmpLe fmt d a b => Sys2Proof.Machine.execFcmpLe fmt d a b s
  | .fcmpUo fmt d a b => Sys2Proof.Machine.execFcmpUo fmt d a b s
  | .fclass fmt d a => Sys2Proof.Machine.execFclass fmt d a s
  | .fsgnJ fmt d a b => Sys2Proof.Machine.execFsgnJ fmt d a b s
  | .fsgnN fmt d a b => Sys2Proof.Machine.execFsgnN fmt d a b s
  | .fsgnX fmt d a b => Sys2Proof.Machine.execFsgnX fmt d a b s
  | .fmv fmt d a => Sys2Proof.Machine.execFmv fmt d a s
  | .fcvt code rm d a => Sys2Proof.Machine.execFcvt code rm d a s
  | .fmadd fmt rm d a b c => Sys2Proof.Machine.execFmadd fmt rm d a b c s
  | .fmsub fmt rm d a b c => Sys2Proof.Machine.execFmsub fmt rm d a b c s
  | .fnmadd fmt rm d a b c => Sys2Proof.Machine.execFnmadd fmt rm d a b c s
  | .ldB d a imm => Sys2Proof.Machine.execLdB d a imm s
  | .ldH d a imm => Sys2Proof.Machine.execLdH d a imm s
  | .ldW d a imm => Sys2Proof.Machine.execLdW d a imm s
  | .ld d a imm => Sys2Proof.Machine.execLd d a imm s
  | .ldBi d a imm => Sys2Proof.Machine.execLdBi d a imm s
  | .ldHi d a imm => Sys2Proof.Machine.execLdHi d a imm s
  | .ldWi d a imm => Sys2Proof.Machine.execLdWi d a imm s
  | .stB d a imm => Sys2Proof.Machine.execStB d a imm s
  | .stH d a imm => Sys2Proof.Machine.execStH d a imm s
  | .stW d a imm => Sys2Proof.Machine.execStW d a imm s
  | .st d a imm => Sys2Proof.Machine.execSt d a imm s
  | .ldcB d a imm => Sys2Proof.Machine.execLdcB d a imm s
  | .ldcH d a imm => Sys2Proof.Machine.execLdcH d a imm s
  | .ldcW d a imm => Sys2Proof.Machine.execLdcW d a imm s
  | .ldc d a imm => Sys2Proof.Machine.execLdc d a imm s
  | .ldcBi d a imm => Sys2Proof.Machine.execLdcBi d a imm s
  | .ldcHi d a imm => Sys2Proof.Machine.execLdcHi d a imm s
  | .ldcWi d a imm => Sys2Proof.Machine.execLdcWi d a imm s
  | .lsync sc => Sys2Proof.Machine.execLsync sc s
  | .stRel wd sc a b => Sys2Proof.Machine.execStRel wd sc a b s
  | .amoAdd w d a b => Sys2Proof.Machine.execAmoAdd w d a b s
  | .amoAnd w d a b => Sys2Proof.Machine.execAmoAnd w d a b s
  | .amoOr w d a b => Sys2Proof.Machine.execAmoOr w d a b s
  | .amoXor w d a b => Sys2Proof.Machine.execAmoXor w d a b s
  | .amoMin w d a b => Sys2Proof.Machine.execAmoMin w d a b s
  | .amoMax w d a b => Sys2Proof.Machine.execAmoMax w d a b s
  | .amoMinN w d a b => Sys2Proof.Machine.execAmoMinN w d a b s
  | .amoMaxN w d a b => Sys2Proof.Machine.execAmoMaxN w d a b s
  | .amoSwap w d a b => Sys2Proof.Machine.execAmoSwap w d a b s
  | .amoFadd w d a b => Sys2Proof.Machine.execAmoFadd w d a b s
  | .cas w d a b => Sys2Proof.Machine.execCas w d a b s
  | .waita d a b => Sys2Proof.Machine.execWaita d a b s
  | .wakea d a b => Sys2Proof.Machine.execWakea d a b s
  | .csrr d csr => Sys2Proof.Machine.execCsrr d csr s
  | .csrw d a csr => Sys2Proof.Machine.execCsrw d a csr s
  | .csrs d a csr => Sys2Proof.Machine.execCsrs d a csr s
  | .csrc d a csr => Sys2Proof.Machine.execCsrc d a csr s
  | .tclr x => Sys2Proof.Machine.execTclr x s
  | .tget d y => Sys2Proof.Machine.execTget d y s
  | .tdep x y => Sys2Proof.Machine.execTdep x y s
  | .glaunch d a b => Sys2Proof.Machine.execGlaunch d a b s
  | .gwait d a b => Sys2Proof.Machine.execGwait d a b s
  | .vqsave d a => Sys2Proof.Machine.execVqsave d a s
  | .vqrest d a => Sys2Proof.Machine.execVqrest d a s
  | .vsave d a => Sys2Proof.Machine.execVsave d a s
  | .vrest d a => Sys2Proof.Machine.execVrest d a s
  | .hsave a => Sys2Proof.Machine.execHsave a s
  | .hrest d a => Sys2Proof.Machine.execHrest d a s
  | .tlbinv d a b => Sys2Proof.Machine.execTlbinv d a b s
  | .snap d a b => Sys2Proof.Machine.execSnap d a b s
  | .pwait d a => Sys2Proof.Machine.execPwait d a s
  | .mwipe d a b => Sys2Proof.Machine.execMwipe d a b s
  | .vcfg d nreg w64 lgreq => Sys2Proof.Machine.execVcfg d nreg w64 lgreq s
  | .vsetl d a gl tp mp => Sys2Proof.Machine.execVsetl d a gl tp mp s
  | .sloop a off => Sys2Proof.Machine.execSloop a off s
  | .sloopPar a off => Sys2Proof.Machine.execSloopPar a off s
  | .snext off => Sys2Proof.Machine.execSnext off s
  | .convoyHeader cnt units => Sys2Proof.Machine.execConvoyHeader cnt units s
  | .cAddi d imm => Sys2Proof.Machine.execCAddi d imm s
  | .cMv d a => Sys2Proof.Machine.execCMv d a s
  | .cLd d a off => Sys2Proof.Machine.execCLd d a off s
  | .cSt b a off => Sys2Proof.Machine.execCSt b a off s
  | .cBEq a off => Sys2Proof.Machine.execCBEq a off s
  | .cBNe a off => Sys2Proof.Machine.execCBNe a off s
  | .cJ off => Sys2Proof.Machine.execCJ off s
  | .cVadd vx m => Sys2Proof.Machine.execCVadd vx m s
  | .cVsub vx m => Sys2Proof.Machine.execCVsub vx m s
  | .cVmul vx m => Sys2Proof.Machine.execCVmul vx m s
  | .cVmulh vx m => Sys2Proof.Machine.execCVmulh vx m s
  | .cVdiv vx m => Sys2Proof.Machine.execCVdiv vx m s
  | .cVrem vx m => Sys2Proof.Machine.execCVrem vx m s
  | .cVmin vx m => Sys2Proof.Machine.execCVmin vx m s
  | .cVmax vx m => Sys2Proof.Machine.execCVmax vx m s
  | .cVand vx m => Sys2Proof.Machine.execCVand vx m s
  | .cVor vx m => Sys2Proof.Machine.execCVor vx m s
  | .cVxor vx m => Sys2Proof.Machine.execCVxor vx m s
  | .cVsll vx m => Sys2Proof.Machine.execCVsll vx m s
  | .cVsrl vx m => Sys2Proof.Machine.execCVsrl vx m s
  | .cVsra vx m => Sys2Proof.Machine.execCVsra vx m s
  | .vadd o => Sys2Proof.Machine.execVadd o s
  | .vsub o => Sys2Proof.Machine.execVsub o s
  | .vmul o => Sys2Proof.Machine.execVmul o s
  | .vmulh o => Sys2Proof.Machine.execVmulh o s
  | .vdiv o => Sys2Proof.Machine.execVdiv o s
  | .vrem o => Sys2Proof.Machine.execVrem o s
  | .vmin o => Sys2Proof.Machine.execVmin o s
  | .vmax o => Sys2Proof.Machine.execVmax o s
  | .vand o => Sys2Proof.Machine.execVand o s
  | .vor o => Sys2Proof.Machine.execVor o s
  | .vxor o => Sys2Proof.Machine.execVxor o s
  | .vsll o => Sys2Proof.Machine.execVsll o s
  | .vsrl o => Sys2Proof.Machine.execVsrl o s
  | .vsra o => Sys2Proof.Machine.execVsra o s
  | .vpopc o => Sys2Proof.Machine.execVpopc o s
  | .vclz o => Sys2Proof.Machine.execVclz o s
  | .vabs o => Sys2Proof.Machine.execVabs o s
  | .vneg o => Sys2Proof.Machine.execVneg o s
  | .vfma o => Sys2Proof.Machine.execVfma o s
  | .vfms o => Sys2Proof.Machine.execVfms o s
  | .vnfma o => Sys2Proof.Machine.execVnfma o s
  | .vsqrt o => Sys2Proof.Machine.execVsqrt o s
  | .vrcp o => Sys2Proof.Machine.execVrcp o s
  | .vrsqrt o => Sys2Proof.Machine.execVrsqrt o s
  | .vexp2 o => Sys2Proof.Machine.execVexp2 o s
  | .vlog2 o => Sys2Proof.Machine.execVlog2 o s
  | .vclass o => Sys2Proof.Machine.execVclass o s
  | .vcvt t o => Sys2Proof.Machine.execVcvt t o s
  | .vcmp c md va vb mask => Sys2Proof.Machine.execVcmp c md va vb mask s
  | .vsel vd va vb mask => Sys2Proof.Machine.execVsel vd va vb mask s
  | .mand md ma mb => Sys2Proof.Machine.execMand md ma mb s
  | .mor md ma mb => Sys2Proof.Machine.execMor md ma mb s
  | .mxor md ma mb => Sys2Proof.Machine.execMxor md ma mb s
  | .mandn md ma mb => Sys2Proof.Machine.execMandn md ma mb s
  | .mnot md ma => Sys2Proof.Machine.execMnot md ma s
  | .mpop sd ma mask => Sys2Proof.Machine.execMpop sd ma mask s
  | .mfirst sd ma mask => Sys2Proof.Machine.execMfirst sd ma mask s
  | .mtolist md ma => Sys2Proof.Machine.execMtolist md ma s
  | .mtobit md ma => Sys2Proof.Machine.execMtobit md ma s
  | .mfromx md va mask => Sys2Proof.Machine.execMfromx md va mask s
  | .vidx vd start stp mask => Sys2Proof.Machine.execVidx vd start stp mask s
  | .vsplat vd sa mask => Sys2Proof.Machine.execVsplat vd sa mask s
  | .vmv vd va mask => Sys2Proof.Machine.execVmv vd va mask s
  | .vtag t vd va => Sys2Proof.Machine.execVtag t vd va s
  | .vmvx sd va sb => Sys2Proof.Machine.execVmvx sd va sb s
  | .vmvs vd sa mask => Sys2Proof.Machine.execVmvs vd sa mask s
  | .vslideup vd va sb sc mask => Sys2Proof.Machine.execVslideup vd va sb sc mask s
  | .vslidedn vd va sb sc mask => Sys2Proof.Machine.execVslidedn vd va sb sc mask s
  | .vperm vd va vb mask => Sys2Proof.Machine.execVperm vd va vb mask s
  | .vcompress vd va mask => Sys2Proof.Machine.execVcompress vd va mask s
  | .vexpand vd va mask => Sys2Proof.Machine.execVexpand vd va mask s
  | .vrev vd va mask => Sys2Proof.Machine.execVrev vd va mask s
  | .vred o => Sys2Proof.Machine.execVred o s
  | .vscan o => Sys2Proof.Machine.execVscan o s
  | .vsegred op vd va mc mask rm => Sys2Proof.Machine.execVsegred op vd va mc mask rm s
  | .vld o => Sys2Proof.Machine.execVld o s
  | .vldff o => Sys2Proof.Machine.execVldff o s
  | .vst o => Sys2Proof.Machine.execVst o s
  | .vchg o => Sys2Proof.Machine.execVchg o s
  | .vamo op o => Sys2Proof.Machine.execVamo op o s
  | .vamoR op o => Sys2Proof.Machine.execVamoR op o s
  | .vwait va => Sys2Proof.Machine.execVwait va s
  | .vpres md va => Sys2Proof.Machine.execVpres md va s
  | .svins md va mask => Sys2Proof.Machine.execSvins md va mask s
  | .svlook vd mc va mask => Sys2Proof.Machine.execSvlook vd mc va mask s
  | .svacc md va vb mask => Sys2Proof.Machine.execSvacc md va vb mask s
  | .svdrn vd vb sa mask => Sys2Proof.Machine.execSvdrn vd vb sa mask s
  | .svclr sa sb => Sys2Proof.Machine.execSvclr sa sb s
  | .mshape c sd sa sb sc => Sys2Proof.Machine.execMshape c sd sa sb sc s
  | .mstep sd => Sys2Proof.Machine.execMstep sd s
  | .fmpq sd k hi => Sys2Proof.Machine.execFmpq sd k hi s
  | .mzero t => Sys2Proof.Machine.execMzero t s
  | .mop t va vb mask rm => Sys2Proof.Machine.execMop t va vb mask rm s
  | .mopn t va vb mask rm => Sys2Proof.Machine.execMopn t va vb mask rm s
  | .mrd col vd t sa mask => Sys2Proof.Machine.execMrd col vd t sa mask s
  | .mwr col t va sb mask => Sys2Proof.Machine.execMwr col t va sb mask s
  | .mst q t sa sb mask k rm sat => Sys2Proof.Machine.execMst q t sa sb mask k rm sat s
  | .vsend nb f va k => Sys2Proof.Machine.execVsend nb f va k s
  | .vrecv nb vd f k => Sys2Proof.Machine.execVrecv nb vd f k s
  | .qset fmt q sa sb scq => Sys2Proof.Machine.execQset fmt q sa sb scq s
  | .qsetx pol q vb sc => Sys2Proof.Machine.execQsetx pol q vb sc s
  | .qchain pol q sa sb => Sys2Proof.Machine.execQchain pol q sa sb s
  | .qget sd q quad => Sys2Proof.Machine.execQget sd q quad s
  | .kwait k sa => Sys2Proof.Machine.execKwait k sa s
  | .kread sd k => Sys2Proof.Machine.execKread sd k s
  | .kset k sa => Sys2Proof.Machine.execKset k sa s
  | .kadd k sa => Sys2Proof.Machine.execKadd k sa s
  | .fsbindPeer sealed f sa sb => Sys2Proof.Machine.execFsbindPeer sealed f sa sb s
  | .fsbindGroup f j => Sys2Proof.Machine.execFsbindGroup f j s
  | .fsfree f => Sys2Proof.Machine.execFsfree f s
  | .cbar sd => Sys2Proof.Machine.execCbar sd s
  | .collectiveVst o => Sys2Proof.Machine.execCollectiveVst o s
  | .collectiveVld o => Sys2Proof.Machine.execCollectiveVld o s
  | .rwo slot sa sb => Sys2Proof.Machine.execRwo slot sa sb s
  | .rwc slot => Sys2Proof.Machine.execRwc slot s
  | .cpy qa qb sa k => Sys2Proof.Machine.execCpy qa qb sa k s
  | .cpyff sd qa qb sa k => Sys2Proof.Machine.execCpyff sd qa qb sa k s
  | .fmp sa k => Sys2Proof.Machine.execFmp sa k s
  | .cgsel sd j => Sys2Proof.Machine.execCgsel sd j s
  | .cjoin sd j sa sb => Sys2Proof.Machine.execCjoin sd j sa sb s
  | .cleave j => Sys2Proof.Machine.execCleave j s
  | .cstat sd j => Sys2Proof.Machine.execCstat sd j s
  | .sqpost sd sa sb sc k => Sys2Proof.Machine.execSqpost sd sa sb sc k s
  | .sqstat sd sa => Sys2Proof.Machine.execSqstat sd sa s
  | .rpost sa sb k => Sys2Proof.Machine.execRpost sa sb k s
  | .rarm sa sb k => Sys2Proof.Machine.execRarm sa sb k s
  | .ifence => Sys2Proof.Machine.execIfence s
  | .tclrCt => Sys2Proof.Machine.execTclrCt s
  | .gtrig => Sys2Proof.Machine.execGtrig s
  | .gbar => Sys2Proof.Machine.execGbar s
  | .gyield => Sys2Proof.Machine.execGyield s
  | .gexit => Sys2Proof.Machine.execGexit s
  | .sys => Sys2Proof.Machine.execSys s
  | .brk => Sys2Proof.Machine.execBrk s
  | .sret => Sys2Proof.Machine.execSret s
  | .mwait => Sys2Proof.Machine.execMwait s
  | .cabort => Sys2Proof.Machine.execCabort s
  | .trapEntry h => Sys2Proof.Machine.execTrapEntry h s
  | .issueWaitEnd h => Sys2Proof.Machine.execIssueWaitEnd h s
  | .hartResume h => Sys2Proof.Machine.execHartResume h s
  | .gyieldExpiry h => Sys2Proof.Machine.execGyieldExpiry h s
  | .elementGroupArrival h v g => Sys2Proof.Machine.execElementGroupArrival h v g s
  | .loadPerformed h n => Sys2Proof.Machine.execLoadPerformed h n s
  | .tagRetire h t => Sys2Proof.Machine.execTagRetire h t s
  | .storeAcknowledge h n => Sys2Proof.Machine.execStoreAcknowledge h n s
  | .homeAccess h n => Sys2Proof.Machine.execHomeAccess h n s
  | .atomicAtHome h n => Sys2Proof.Machine.execAtomicAtHome h n s
  | .rruAtomic h n => Sys2Proof.Machine.execRruAtomic h n s
  | .vectorAtomicUpdate h n => Sys2Proof.Machine.execVectorAtomicUpdate h n s
  | .trainApply h t => Sys2Proof.Machine.execTrainApply h t s
  | .trainAcknowledge h t => Sys2Proof.Machine.execTrainAcknowledge h t s
  | .nbComplete h c => Sys2Proof.Machine.execNbComplete h c s
  | .copyComplete h c => Sys2Proof.Machine.execCopyComplete h c s
  | .fullerComplete h c => Sys2Proof.Machine.execFullerComplete h c s
  | .mstComplete h c => Sys2Proof.Machine.execMstComplete h c s
  | .tlbMissWalk w => Sys2Proof.Machine.execTlbMissWalk w s
  | .translationHint w => Sys2Proof.Machine.execTranslationHint w s
  | .shootdownRequest pkg => Sys2Proof.Machine.execShootdownRequest pkg s
  | .shootdownAcknowledge pkg => Sys2Proof.Machine.execShootdownAcknowledge pkg s
  | .messagePacketArrive m packet => Sys2Proof.Machine.execMessagePacketArrive m packet s
  | .collectiveContributionArrive g rank pkg => Sys2Proof.Machine.execCollectiveContributionArrive g rank pkg s
  | .collectiveCommit g => Sys2Proof.Machine.execCollectiveCommit g s
  | .abort g cause at_ => Sys2Proof.Machine.execAbort g cause at_ s
  | .lagLimitExpiry g => Sys2Proof.Machine.execLagLimitExpiry g s
  | .circuitPacketSend pkg dest => Sys2Proof.Machine.execCircuitPacketSend pkg dest s
  | .circuitPayloadPlace pkg post payload => Sys2Proof.Machine.execCircuitPayloadPlace pkg post payload s
  | .postComplete pkg post => Sys2Proof.Machine.execPostComplete pkg post s
  | .slotStart pkg slot => Sys2Proof.Machine.execSlotStart pkg slot s
  | .switchChange pkg => Sys2Proof.Machine.execSwitchChange pkg s
  | .rotstart pkg rot epoch => Sys2Proof.Machine.execRotstart pkg rot epoch s
  | .rotationTimeout pkg => Sys2Proof.Machine.execRotationTimeout pkg s
  | .setup pkg c => Sys2Proof.Machine.execSetup pkg c s
  | .circuitAck pkg num => Sys2Proof.Machine.execCircuitAck pkg num s
  | .busy pkg num => Sys2Proof.Machine.execBusy pkg num s
  | .teardown pkg num => Sys2Proof.Machine.execTeardown pkg num s
  | .setupRetry pkg num => Sys2Proof.Machine.execSetupRetry pkg num s
  | .slotTableLoad pkg => Sys2Proof.Machine.execSlotTableLoad pkg s
  | .flitReceive l f => Sys2Proof.Machine.execFlitReceive l f s
  | .nak l lseq => Sys2Proof.Machine.execNak l lseq s
  | .propose l mode epoch => Sys2Proof.Machine.execPropose l mode epoch s
  | .fecAck l epoch => Sys2Proof.Machine.execFecAck l epoch s
  | .proposeRepeat l => Sys2Proof.Machine.execProposeRepeat l s
  | .fecThresholdCrossed l => Sys2Proof.Machine.execFecThresholdCrossed l s
  | .fecQuietExpiry l => Sys2Proof.Machine.execFecQuietExpiry l s
  | .portPlanChange pkg port => Sys2Proof.Machine.execPortPlanChange pkg port s
  | .colourTrained l => Sys2Proof.Machine.execColourTrained l s
  | .colourDrained l => Sys2Proof.Machine.execColourDrained l s
  | .pathTimeout pkg dest => Sys2Proof.Machine.execPathTimeout pkg dest s
  | .laneRemap l => Sys2Proof.Machine.execLaneRemap l s
  | .transportPacketReceive pkg p => Sys2Proof.Machine.execTransportPacketReceive pkg p s
  | .transportAcknowledge pkg conn cum sel => Sys2Proof.Machine.execTransportAcknowledge pkg conn cum sel s
  | .retransmitTimeout pkg conn psn => Sys2Proof.Machine.execRetransmitTimeout pkg conn psn s
  | .notready pkg conn psn delay => Sys2Proof.Machine.execNotready pkg conn psn delay s
  | .contextFetchComplete pkg conn => Sys2Proof.Machine.execContextFetchComplete pkg conn s
  | .rekey pkg conn => Sys2Proof.Machine.execRekey pkg conn s
  | .workRequestComplete pkg req code => Sys2Proof.Machine.execWorkRequestComplete pkg req code s
  | .ethernetFrameReceive pkg port f => Sys2Proof.Machine.execEthernetFrameReceive pkg port f s
  | .recordAccept pkg q => Sys2Proof.Machine.execRecordAccept pkg q s
  | .gangPlace pkg q => Sys2Proof.Machine.execGangPlace pkg q s
  | .preemptVictims pkg q => Sys2Proof.Machine.execPreemptVictims pkg q s
  | .graceExpiry h => Sys2Proof.Machine.execGraceExpiry h s
  | .forcedHartEnd h => Sys2Proof.Machine.execForcedHartEnd h s
  | .quotaReturn pkg gang => Sys2Proof.Machine.execQuotaReturn pkg gang s
  | .gangTrigger pkg gang => Sys2Proof.Machine.execGangTrigger pkg gang s
  | .gangEnd pkg gang => Sys2Proof.Machine.execGangEnd pkg gang s
  | .queueTailWrite pkg q value => Sys2Proof.Machine.execQueueTailWrite pkg q value s
  | .sieveRecarve pkg core => Sys2Proof.Machine.execSieveRecarve pkg core s
  | .packageReset pkg => Sys2Proof.Machine.execPackageReset pkg s
  | .go pkg => Sys2Proof.Machine.execGo pkg s
  | .mailboxPoll pkg => Sys2Proof.Machine.execMailboxPoll pkg s
  | .fwload pkg ring => Sys2Proof.Machine.execFwload pkg ring s
  | .pcreate pkg ring => Sys2Proof.Machine.execPcreate pkg ring s
  | .ptear pkg ring => Sys2Proof.Machine.execPtear pkg ring s
  | .partitionRelease pkg part => Sys2Proof.Machine.execPartitionRelease pkg part s
  | .ecreate pkg ring => Sys2Proof.Machine.execEcreate pkg ring s
  | .ejoin pkg ring => Sys2Proof.Machine.execEjoin pkg ring s
  | .report pkg ring => Sys2Proof.Machine.execReport pkg ring s
  | .erevoke pkg ring => Sys2Proof.Machine.execErevoke pkg ring s
  | .revocationApply pkg enclave member epoch => Sys2Proof.Machine.execRevocationApply pkg enclave member epoch s
  | .lcs pkg ring => Sys2Proof.Machine.execLcs pkg ring s
  | .powerGrantInterval pkg demand => Sys2Proof.Machine.execPowerGrantInterval pkg demand s
  | .railDroop pkg => Sys2Proof.Machine.execRailDroop pkg s
  | .thermalTrip pkg => Sys2Proof.Machine.execThermalTrip pkg s
  | .thermalRecover pkg => Sys2Proof.Machine.execThermalRecover pkg s
  | .uncorrectableError pkg u addr => Sys2Proof.Machine.execUncorrectableError pkg u addr s
  | .correctedSummary pkg die => Sys2Proof.Machine.execCorrectedSummary pkg die s
  | .hostLinkTraining pkg rate => Sys2Proof.Machine.execHostLinkTraining pkg rate s
  | .registerWrite pkg r v => Sys2Proof.Machine.execRegisterWrite pkg r v s
  | .lossOfLight l => Sys2Proof.Machine.execLossOfLight l s
  | .remapEnd pkg port => Sys2Proof.Machine.execRemapEnd pkg port s
  | .notReadyAnswer m => Sys2Proof.Machine.execNotReadyAnswer m s
  | .rankDeparture handle rank => Sys2Proof.Machine.execRankDeparture handle rank s

end Sys2Proof.Machine
end

