-- ==== Sys2Proof/Machine/Fetch.lean ====
section
/-! DEFINITION. The turn of a hart: fetch, decode and execute (07 R139 to R141, 05 R98, 10 R170); frozen vector
instructions that go on after sret (17 R330, R336); what goes on while a hart waits; and placing an
instruction where a step fetches it. -/

namespace Sys2Proof.Machine

/-- What the decoder names, executed. `execCand_eq` says that it is `exec` of that instruction. -/
def execCand (c : Cand) (s : State) : Host.Outcome State Fault Refusal :=
  match c with
  | .i x => exec x s
  | .late (.fmp a k) => execFmp a k s
  | .late (.cgsel d j) => execCgsel d j s
  | .late (.cjoin d j a b) => execCjoin d j a b s
  | .late (.cleave j) => execCleave j s
  | .late (.cstat d j) => execCstat d j s
  | .late (.sqpost d a b c k) => execSqpost d a b c k s
  | .late (.sqstat d a) => execSqstat d a s
  | .late (.rpost a b k) => execRpost a b k s
  | .late (.rarm a b k) => execRarm a b k s

/-! ### What holds an instruction at issue -/

/-- The failure at a home that the hart takes next, at its present level: of a vector instruction, else of a scalar
load (R333). -/
def Hart.elemHit (h : Hart) : Option Hit := h.hits.find? fun x => x.level == h.level && x.elem.isSome
def Hart.scalarHit (h : Hart) : Option Hit := h.hits.find? fun x => x.level == h.level && x.elem.isNone

/-- The s register is one that the instruction names. A taint instruction names the taint set alone, and none is held
(R174); a convoy waits for what its members name (`State.settleS`). -/
def Cand.names (c : Code) (x : Cand) (d : SReg) : Bool :=
  d != 0 && match x with
    | .i (.tclr _) | .i .tclrCt | .i (.tget ..) | .i (.tdep ..) | .i (.convoyHeader ..) => false
    | .i i => if (memberRun i).isSome then (Instr.vectorSregs i).contains d else Code.mayName c d
    | .late _ => Code.mayName c d

/-- An s register that the instruction names is still to be written by a running cpyff, or by an entry of the queue: it
waits (R190, R256). Log 31 (DESIGN CHOICE). -/
def Hart.issueHeld (h : Hart) (c : Code) (x : Cand) : Bool :=
  (List.range 32).any fun d => Cand.names c x (BitVec.ofNat 5 d) && h.sPending (BitVec.ofNat 5 d)

/-- Execute what the decoder names, once every load of an s register that it names is performed: it waits while a tag holds
one (R127). Log 21 (DESIGN CHOICE). -/
def State.execNamed (s : State) (c : Code) (x : Cand) : Host.Outcome State Fault Refusal :=
  let named := fun (h : Hart) => h.pend.any fun a => a.sdst.any fun d => Cand.names c x d
  if !named s.hart then execCand x s
  else
    let s := s.drain
    match s.hart.elemHit <|> s.hart.scalarHit with
    | some x => .next (s.takeHit x)
    | none => if named s.hart then finish s (.error (.hold .presence)) else execCand x s

/-- Fetch, decode and execute the instruction at pc. An entry of the queue that holds the hart comes first
(`Instr.inStep`). -/
def State.issueNext (s : State) : Host.Outcome State Fault Refusal :=
  if s.hart.thaw && s.hart.frozen.any (fun e => (wordInstr e.word).any Instr.inStep) then finish s (.error (.hold .presence))
  else
    let s := s.mapHart fun h => { h with ir := 0 }
    match s.fetchWord s.hart.pc with
    | .error e => finish s (.error e)
    | .ok (ir, code, t) =>
      let t := t.mapHart fun h => { h.retire with ir := ir }
      match code with
      | none => finish t (.error (illegal t))
      | some c =>
        match decodeCand c with
        | .error _ => finish t (.error (illegal t))
        | .ok x => if t.hart.issueHeld c x then finish t (.error (.hold .presence)) else t.execNamed c x

/-! ### Prediction (R164) -/

/-- The registers that a conditional branch tests, its target and its length (R162). -/
def branchTest (pc : Quad) : Instr → Option (List SReg × Quad × Nat)
  | .bEq a b off | .bNe a b off | .bLt a b off | .bGe a b off | .bLtN a b off | .bGeN a b off =>
    some ([a, b], pc + 2 * off.signExtend 64, 4)
  | .cBEq a off | .cBNe a off => some ([sreg8 a], pc + 2 * off.signExtend 64, 2)
  | _ => none

/-- What the model issues past a predicted branch: loads, and what changes only registers and taint sets. -/
def goesAhead : Instr → Bool
  | .ldB .. | .ldH .. | .ldW .. | .ld .. | .ldBi .. | .ldHi .. | .ldWi .. | .cLd .. | .tclr _ | .tclrCt | .tget ..
  | .tdep .. | .add .. | .sub .. | .addi .. | .slli .. | .cAddi .. | .cMv .. => true
  | _ => false

/-- The instruction at pc, and the state that executes it. -/
def State.nextInstr (s : State) : Option (Instr × State) :=
  match s.fetchWord s.hart.pc with
  | .ok (ir, some c, t) =>
    (match decodeCand c with
      | .ok (.i x) => some (x, t.mapHart fun h => { h.retire with ir := ir })
      | _ => none)
  | _ => none

/-- The scalar loads from instruction `seq` on that may be performed now, with what each would return. -/
def State.earlyLoads (s : State) (seq : Nat) : List EarlyLoad :=
  (List.range s.hart.pend.length).filterMap fun i =>
    match s.hart.pend[i]? with
    | none => none
    | some a =>
      match a.op with
      | .load (.s d _) =>
        let t := s.performAt i
        if seq ≤ a.seq ∧ s.hart.mayPerform (s.hart.pend.take i) a ∧ t.hart.hits = s.hart.hits then
          some { seq := a.seq, pc := a.pc, addr := a.addr, dest := d, value := t.hart.getS d }
        else none
      | _ => none

/-- Run n instructions down a predicted path, as far as none needs the loads that the branch tests; the loads of the path
that may then be performed. Nothing else of this run is kept. -/
def State.runAhead (tested : List Nat) (seq : Nat) : Nat → State → List EarlyLoad
  | 0, s => s.earlyLoads seq
  | n + 1, s =>
    match s.nextInstr with
    | none => s.earlyLoads seq
    | some (x, t) =>
      if !goesAhead x then s.earlyLoads seq
      else
        match exec x t with
        | .next u =>
          if u.hart.status = .running ∧ u.hart.level = s.hart.level ∧ tested.all (fun m => u.hart.pend.any (·.seq == m)) then
            u.runAhead tested seq n
          else s.earlyLoads seq
        | _ => s.earlyLoads seq

/-- The front end predicts the branch at pc while a register that it tests is not known, once, and performs loads of the
predicted path that no tag holds: under the branch's control taint none of them, but for what tclr.ct has freed (R127,
R131). Log 110 (DESIGN CHOICE). -/
def State.lookPast (s : State) : Option State :=
  let h := s.hart
  if !h.pend.any (·.sdst.isSome) || h.early.any (·.seq == h.seq) || !Config.predicts s.free then none
  else
    match s.nextInstr with
    | none => none
    | some (x, t) =>
      match branchTest h.pc x with
      | none => none
      | some (rs, target, n) =>
        let tested := h.pend.filter fun a => a.sdst.any fun d => rs.contains d
        if tested.isEmpty then none
        else
          let goal := if Config.choice s.free then target else h.pc + BitVec.ofNat 64 n
          let taint := rs.foldl (fun acc r => acc ||| h.taintS r) 0
          let path := t.mapHart fun h => { h.addControl taint with pc := goal }
          let loads := path.runAhead (tested.map (·.seq)) h.seq ((Config.value s.free).toNat % 8)
          some (s.drawn.mapHart fun h => { h with early := some { seq := h.seq, pc := h.pc, toward := goal, loads := loads } })

/-- After an instruction, from s to t: a branch that was predicted otherwise drops the prediction, and a load that was
performed before is complete. -/
def State.takeEarly (s t : State) : State :=
  match s.hart.early with
  | none => t
  | some e =>
    if s.hart.pc = e.pc ∧ s.hart.seq = e.seq then
      if t.hart.pc = e.toward then t else t.mapHart fun h => { h with early := none }
    else
      match e.loads.find? fun x => x.seq == s.hart.seq && x.pc == s.hart.pc with
      | none => t
      | some x =>
        match t.hart.pend.findIdx? fun a => a.seq == x.seq && a.addr == x.addr && a.sdst == some x.dest with
        | none => t
        | some i => t.mapHart fun h =>
          { h with s := if x.dest = 0 then h.s else h.s.set x.dest.toNat x.value, pend := h.pend.eraseIdx i }

/-- The next instruction issues, unless the turn goes to a prediction. -/
def State.issueTurn (s : State) : Host.Outcome State Fault Refusal :=
  match s.lookPast with
  | some t => .next t
  | none =>
    match s.issueNext with
    | .next t => .next (s.takeEarly t)
    | o => o

/-! ### Entries of the vector instruction queue (R36, R330, R336) -/

/-- The hart as an entry of the queue reads it: what it captured at issue, at the element where it stands. -/
def Hart.asEntry (h : Hart) (e : Frozen) (rest : List Frozen) : Hart :=
  let v := e.env
  let bits := fun (i : Fin 8) => match e.capMask with
    | some (m, b) => if m.toNat = i.val then b else h.m[i].bits
    | none => h.m[i].bits
  { h with
    ir := e.word, pc := e.pc, seq := e.seq, joins := e.joins, par := e.strip.map (·.1),
    start := e.start, doneElems := e.doneElems, capIdx := e.capIdx, capData := e.capData, grant := some (e.tag.getD 0),
    collSeq := e.collSeq, noLanes := false, thaw := false, frozen := rest, sup := { h.sup with vown := true },
    s := v.s, st := v.st, ct := v.ct, q := v.q,
    v := Vector.ofFn fun (i : Fin 64) => { h.v[i] with tag := v.vt[i], taint := v.vx[i] },
    m := Vector.ofFn fun (i : Fin 8) => { h.m[i] with bits := bits i, taint := v.mx[i] },
    csr := { h.csr with vl := v.vl, mp := v.mp, tp := v.tp, gl := v.gl, sbase := v.sbase, frm := v.frm, cop := v.cop,
                        cstride := v.cstride, mcols := v.mcols, mMg := v.mMg, mNg := v.mNg, mclass := v.mclass,
                        strip := (e.strip.map (·.2)).getD h.csr.strip } }

/-- Accesses in the order of their instructions: those of an entry come before those that issued after it. -/
def Hart.sortPend (h : Hart) (seq : Nat) : Hart :=
  { h with pend := h.pend.filter (fun a => decide (a.seq ≤ seq)) ++ h.pend.filter fun a => !decide (a.seq ≤ seq) }

/-- The v register whose tag is known only once the instruction has executed: of a message, or of a result that may be
aborted (R266, R277). -/
def Instr.lateTag : Instr → Option VReg
  | .vrecv _ vd .. => some vd
  | .collectiveVld o => some o.reg
  | _ => none

/-- The tag and taint set that an entry has given a v register, for the hart and the entries behind it, up to the one that
writes the register next. -/
def Hart.lateTags (h ran : Hart) (e : Frozen) : Hart :=
  match (wordInstr e.word).bind Instr.lateTag with
  | none => h
  | some d =>
    let writes := fun (f : Frozen) => ((wordInstr f.word).bind (Instr.touch f.env.q)).any fun t => t.vw.contains d
    let upto := (h.frozen.find? fun f => decide (e.seq < f.seq) && writes f).map (·.seq)
    let tag := ran.v[d.toNat].tag
    let taint := ran.v[d.toNat].taint
    let behind := fun (f : Frozen) => decide (e.seq < f.seq) && upto.all fun n => decide (f.seq ≤ n)
    { h with
      v := if upto.isSome then h.v else h.v.set d.toNat { h.v[d.toNat] with tag := tag, taint := taint },
      frozen := h.frozen.map fun f => if behind f then
        { f with env := { f.env with vt := f.env.vt.set d.toNat tag, vx := f.env.vx.set d.toNat taint } } else f }

/-- The hart after an entry has run on `ran`: its own level, registers and CSRs again, but for the elements, the flags
and the status that the entry wrote; tags, taint sets and vlast are what it wrote at issue (R154). A vl that vldff has
shortened is the hart's own from here on (R225). -/
def Hart.afterEntry (h ran : Hart) (e : Frozen) (d : Option SReg) : Hart :=
  let shorter := ran.csr.vl != e.env.vl
  let came := fun (i : Nat) =>
    d == some (BitVec.ofNat 5 i) || (h.pend.any (·.sdst == some (BitVec.ofNat 5 i)) && !ran.pend.any (·.sdst == some (BitVec.ofNat 5 i)))
  let own := fun (a : Access) => a.seq == e.seq && e.tag.isNone
  let bits := fun (i : Fin 8) => match e.capMask with
    | some (m, _) => if m.toNat = i.val then h.m[i].bits else ran.m[i].bits
    | none => ran.m[i].bits
  let shorten := fun (f : Frozen) => if e.seq < f.seq then { f with env := { f.env with vl := ran.csr.vl } } else f
  let r : Hart := { ran with
    level := h.level, noLanes := h.noLanes, ir := h.ir, pc := h.pc, seq := h.seq, joins := h.joins, par := h.par,
    start := 0, doneElems := 0, capIdx := none, capData := none, grant := none, collSeq := none, sup := h.sup, q := h.q,
    ct := h.ct,
    s := Vector.ofFn fun (i : Fin 32) => if i.val != 0 && came i.val then ran.s[i] else h.s[i],
    st := Vector.ofFn fun (i : Fin 32) => if d == some (BitVec.ofNat 5 i.val) then ran.st[i] else h.st[i],
    v := Vector.ofFn fun (i : Fin 64) => { ran.v[i] with tag := h.v[i].tag, taint := h.v[i].taint },
    m := Vector.ofFn fun (i : Fin 8) => { ran.m[i] with bits := bits i, taint := h.m[i].taint },
    pend := ran.pend.map fun a => if own a then { a with tag := none } else a,
    frozen := if shorter then ran.frozen.map shorten else ran.frozen,
    csr := { ran.csr with vl := if shorter then ran.csr.vl else h.csr.vl, mp := h.csr.mp, tp := h.csr.tp, gl := h.csr.gl,
                          sbase := h.csr.sbase, frm := h.csr.frm, cop := h.csr.cop, cstride := h.csr.cstride,
                          mcols := h.csr.mcols, mMg := h.csr.mMg, mNg := h.csr.mNg, mclass := h.csr.mclass, kk := h.csr.kk,
                          strip := h.csr.strip, vlast := h.csr.vlast } }
  ((r.clearTags (h.tagBusy &&& ~~~ ran.tagBusy)).sortPend e.seq).lateTags ran e

/-- The hart with the rest of its queue, which goes on while an entry is left. -/
def Hart.withQueue (h : Hart) (q : List Frozen) : Hart := { h with frozen := q, thaw := !q.isEmpty }

/-- Entry p of the queue goes before entry e. -/
def Frozen.leads (p e : Frozen) : Bool := p.goesBefore e.word e.env.gl e.env.q

/-- Element group i of an entry may execute, as far as the entries before it go: of the instructions that go before it
each is element-wise, holds only sources of it back, and has executed the group where it writes its mask (R33, R36). -/
def Hart.groupOpen (h : Hart) (pre : List Frozen) (e : Frozen) (t : Touch) (i : Nat) : Bool :=
  t.vr.all (fun r => h.presentIn pre r e.env.vt[r.toNat].wide i) && pre.all fun p => !p.leads e ||
    (match wordInstr p.word with
      | none => false
      | some x =>
        Instr.eachwise x && (match Instr.touch p.env.q x with
          | none => false
          | some u =>
            !groupsMeet (2 ^ p.env.gl.toNat) (2 ^ e.env.gl.toNat) (u.vr ++ u.vw) t.vw
              && !t.mw.any (fun m => u.mr.contains m || u.mw.contains m)
              && (!u.mw.any t.mr.contains || p.doneElems &&& groupBits i == groupBits i)))

/-- The element groups that an element-wise entry may execute now. -/
def Hart.openGroups (h : Hart) (pre : List Frozen) (e : Frozen) (t : Touch) : List Nat :=
  (List.range ((e.env.vl.toNat + 7) / 8)).filter fun i =>
    e.doneElems &&& groupBits i != groupBits i && h.groupOpen pre e t i

/-- The entry of an element-wise instruction, between others of the queue, executes the element groups whose sources are
present (R36). A source that a blocking load writes is waited for whole. -/
def State.partEntry (s : State) (pre : List Frozen) (e : Frozen) (rest : List Frozen) (x : Instr) (m : Member) : Option State :=
  let h := s.hart
  let blocked := fun (r : VReg) =>
    h.pend.any (fun a => !a.nb && h.writesGroup a r) || h.colls.any (fun c => !c.nb && c.vd == r)
  let groups := h.openGroups pre e m.toTouch
  if groups.isEmpty || !Instr.eachwise x || m.vr.any blocked || h.awaitsColl m.vw
      || h.pend.any (fun a => m.vw.any (h.writesGroup a)) then none
  else
    let now := groups.foldl (fun acc i => acc ||| groupBits i) 0
    let t := s.still.mapHart fun g => { g.asEntry e (pre ++ rest) with doneElems := ~~~ now ||| e.doneElems }
    match m.run t with
    | .ok u =>
      let ran := { u.hart with pend := h.pend, colls := h.colls, interlock := h.interlock, cmds := h.cmds, tagBusy := h.tagBusy,
                               frozen := pre ++ rest }
      some (s.mapHart fun _ => (h.afterEntry ran e none).withQueue (pre ++ { e with doneElems := e.doneElems ||| now } :: rest))
    | .error _ => none

/-- An entry of the queue executes, once what stands before it is performed; none while it cannot. An entry that a trap
had frozen resumes so. Log 105 (DEDUCED). -/
def State.runEntry (s : State) (pre : List Frozen) (e : Frozen) (rest : List Frozen) : Option (Host.Outcome State Fault Refusal) :=
  let h := s.hart
  match wordInstr e.word with
  | none => none
  | some x =>
    let t := (s.mapHart (·.asEntry e (pre ++ rest))).prepared e.word
    match memberFor t.hart x with
    | none => none
    | some m =>
      if pre.any (·.leads e) || t.blockedVst then (s.partEntry pre e rest x m).map .next
      else
        match m.run t with
        | .ok u =>
          some (.next ((u.launched t.hart e).mapHart fun ran =>
            let g := h.afterEntry ran e (memberResult x)
            { g.withQueue g.frozen with status := if h.uninterrupted then h.status else .running }))
        | .error (.trap c u) =>
          some (finish s (.error (.trap { c with prec := false, tvpc := e.pc, tpc := some h.pc }
            (u.mapHart fun ran =>
              let g := h.afterEntry ran e none
              g.withQueue (insertEntry { e with start := ran.start, doneElems := ran.doneElems, capIdx := ran.capIdx,
                                                capData := ran.capData } g.frozen)))))
        | .error (.hold _) => (s.partEntry pre e rest x m).map .next
        | .error (.fault f) => some (.fault f)

/-- The first entry of the queue, after those of `pre`, that can execute, whole or in part, does (R36). -/
def State.runQueue (s : State) (pre : List Frozen) : List Frozen → Option (Host.Outcome State Fault Refusal)
  | [] => none
  | e :: rest =>
    match s.runEntry pre e rest with
    | some o => some o
    | none => s.runQueue (pre ++ [e]) rest

/-- The turn of the queue of the hart: none where it has no entry that can go on. -/
def State.queueTurn (s : State) : Option (Host.Outcome State Fault Refusal) :=
  match s.hart.thaw with
  | true =>
    let t := s.drain
    if t.hart.struck then none else t.runQueue [] t.hart.frozen
  | false => none

/-! ### Turns -/

/-- The boundary after which the hart takes a trap or issues: first an imprecise vector fault, then an asynchronous cause,
then the trap of a scalar load (R333); then its queue goes on, or its next instruction issues. While the hart does not
wait, which of the two is a free choice. Log 9 (DESIGN CHOICE). -/
def State.placedTurn (s : State) (waits : Bool) : Host.Outcome State Fault Refusal :=
  match s.hart.elemHit with
  | some x => .next (s.takeHit x)
  | none =>
    match s.hart.asyncCause with
    | some c => .next (s.asyncTrap c)
    | none =>
      match s.hart.scalarHit with
      | some x => .next (s.takeHit x)
      | none =>
        if s.hart.queued && (waits || Config.choice s.free) then
          match s.drawn.queueTurn with
          | some o => o
          | none => s.drawn.issueTurn
        else s.issueTurn

/-- The turn of the hart in `s.hart` (R333). The accesses of one that waits are performed first. A parked hart wakes only
for a trap. -/
def hartTurn (s : State) : Host.Outcome State Fault Refusal :=
  match s.hart.status with
  | .vacant | .parked .. => .next s.wakeTurn
  | .running => s.placedTurn false
  | .held _ => s.drain.placedTurn true

/-- The next placed hart has the turn. -/
def State.rotate (s : State) : State :=
  match s.hart.status, s.others with
  | _, [] => s
  | .vacant, h :: r => { s with hart := h, others := r }
  | _, h :: r => { s with hart := h, others := r ++ [s.hart] }

/-- What goes on beside the instructions of the hart that has the turn: an engine command, of which a running hart sees
some part; a shoot-down of its package that it waits for; and its own resumption. -/
def State.background (s : State) : Host.Outcome State Fault Refusal :=
  match s.hart.status with
  | .vacant => .next s
  | .running => s.engineTurn
  | .parked .. =>
    let r := s.hart.ref
    match execGyieldExpiry r s with
    | .next t => execHartResume r t
    | o => o
  | .held w =>
    if w = .shootdown then
      match execShootdownRequest s.hart.pkg s with
      | .next t => execShootdownAcknowledge s.hart.pkg t
      | o => o
    else
      match s.hart.cmds.findIdx? fun c => s.hart.mayRun c && (!c.isFuller || s.fullerTurn c) with
      | none => .next s
      | some i => s.commandStep i fun _ => true

/-- A step with an empty agenda: each placed hart then has one turn, the one after the last first (R45).
Log 9 (DESIGN CHOICE). -/
def State.freeTurn (s : State) : Host.Outcome State Fault Refusal :=
  let s := s.rotate
  match ({ s with agenda := s.others.map fun h => .hart h.ref } : State).background with
  | .next t => hartTurn t
  | o => o

/-! ### Placing an instruction -/

/-- The parcels of a word, at an address, for the hart whose turn it is. -/
def State.placeParcels (s : State) (a : Quad) : List Parcel → Option State
  | [] => some s
  | p :: ps =>
    match s.check s.hart s.hart.asid a 2 .fetch .any with
    | .error _ => none
    | .ok l =>
      let c := s.core s.hart.pkg s.hart.die s.hart.core
      let mem := writeN s.mem l.phys 2 p.toNat
      { s.setCore { c with icache := copyFill mem c.icache l.phys } with mem := mem }.placeParcels (a + 2) ps

/-- Package 0 as a launch finds it: the part runs, with its regions apart on each die, and gang 1 is placed. -/
def launchPackage : Package :=
  { pkg := 0,
    block := [(0, 4), (1, 0x100000), (2, 0x200000), (3, 0x300000), (4, 0), (5, 0x2000000000), (6, 0x4000000000),
              (7, 0x6000000000), (8, 0x310000)],
    gangs := [{ gangid := 1, queue := 0, seq := 1, ctx := 0, prio := 0, order := 0, size := 1,
                cores := [{ die := 0, core := 0, lanes := 1, tiles := 1 }] }],
    placements := 1, lastQueue := 0 }

/-- The hart that the launch places: level U, partition 0 of core 0 of die 0, one lane group and tile t0. -/
def launchHart : Hart :=
  { ref := ⟨0, 0⟩, status := .running, pc := 0x1FE4000000500000, g := 1, tiles := [[]], tmask := 1,
    csr := { w64 := true, nreg := 3, vlmax := 64, lgrp := 1, gangid := 1, gangsize := 1 }, sup := { asid := 1 } }

/-- The page table of asid 1: its first GiB is the first GiB of die 0 (R350, R354). -/
def launchTables (m : List Host.Cell) : List Host.Cell :=
  writeQuads (writeQuads (writeQuads m 0x10008 [0x400000]) 0x400000 [0x401001]) 0x401000 [0x803F]

/-- It stands for a launch (19 R372). -/
def State.withLaunch (s : State) : State :=
  { s with mem := launchTables s.mem, poison := [], tlb := [], tables := [], pkgs := [launchPackage], cores := [],
           hart := launchHart, others := [] }

/-- `s` with a word stored where the next step fetches: at the pc of the hart whose turn it is, or,
where no hart fetches, at the pc of a hart that a launch places. -/
def State.withFetch (s : State) (ps : List Parcel) : State :=
  let ready := s.mapHart fun h => { h with status := .running, thaw := false, frozen := [], flights := [], hits := [],
                                           colls := [], cmds := [], sup := { h.sup with pend := 0 } }
  let t := match (if s.hart.status = .vacant then none else ready.placeParcels ready.hart.pc ps) with
    | some t => t
    | none =>
      let t := s.withLaunch
      (t.placeParcels t.hart.pc ps).getD t
  { t with agenda := [.hart t.hart.ref] }

end Sys2Proof.Machine
end

