-- ==== Sys2Proof/Machine/Step.lean ====
section
/-! DEFINITION. One step of the system: the turn of a hart, or one step of another agent (spec 95). -/

namespace Sys2Proof.Machine

/-- One step: the next turn of the agenda, or, where it is empty, a turn of the next placed hart. -/
def step (s : State) : Host.Outcome State Fault Refusal :=
  let s := { s with clock := s.clock + 1 + Config.stepClocks s.free, free := s.free + 1 }
  match s.agenda with
  | [] => s.freeTurn
  | .hart r :: rest =>
    let s := { s with agenda := rest }
    if s.placed r then hartTurn (s.focus r) else .next s
  | .agent i :: rest => exec i { s with agenda := rest }

/-- `s` with the instruction whose bits are `w` stored where the next step fetches it. Log 4 (DEDUCED). -/
def State.withFetchWord (s : State) (nbits w : Nat) : State := s.withFetch (parcelsOfNat (w % 2 ^ nbits))

end Sys2Proof.Machine
end

