-- ==== Sys2Proof/Safety.lean ====
section
/-! DEFINITION. The terms in which the claims speak: the sound states, and the states after an instruction
that changes one register. -/

namespace Sys2Proof

open Machine

/-- The invariant that every step keeps: memory is in canonical form (Machine/Ops.lean). -/
def Sound (s : State) : Prop := Memory.wf s.mem = true

/-- `u` after an instruction of n bytes that changed nothing else. -/
def ran (u : State) (n : Nat) : State :=
  { u with hart := { u.hart with pc := u.hart.pc + BitVec.ofNat 64 n, status := .running } }

/-- `u` after an instruction of n bytes that wrote x with taint t to sd; s0 discards both (R46). -/
def ranS (u : State) (n : Nat) (d : SReg) (x : Quad) (t : TaintSet) : State :=
  { u with hart := { u.hart with
      pc := u.hart.pc + BitVec.ofNat 64 n, status := .running,
      s := if d = 0#5 then u.hart.s else u.hart.s.set d.toNat x,
      st := if d = 0#5 then u.hart.st else u.hart.st.set d.toNat t } }

/-- `u` after a branch or jump to `target` that added t to the control taint. -/
def went (u : State) (target : Quad) (t : TaintSet) : State :=
  { u with hart := { u.hart with pc := target, status := .running, ct := u.hart.ct ||| t } }

/-- `u` with flags added to fflags. -/
def flagged (u : State) (f : FFlags) : State :=
  { u with hart := { u.hart with csr := { u.hart.csr with fflags := u.hart.csr.fflags ||| f } } }

/-- `u` after a scalar floating-point instruction with result and flags p. -/
def ranF (u : State) (d : SReg) (p : FRes) (t : TaintSet) : State := flagged (ranS u 4 d p.1 t) p.2

/-- From `s` to `t` the hart's accesses that satisfy p are performed, the first of them each time, up to one that must wait for
an earlier access or a tag, or till none is left. -/
inductive Delivers (p : Access → Bool) : State → State → Prop
  | stop {s : State} (h : ∀ i a, s.hart.pend.findIdx? p = some i → s.hart.pend[i]? = some a →
      s.hart.mayPerform (s.hart.pend.take i) a = false) : Delivers p s s
  | step {s t : State} {i : Nat} {a : Access} (h : s.hart.pend.findIdx? p = some i) (e : s.hart.pend[i]? = some a)
      (m : s.hart.mayPerform (s.hart.pend.take i) a = true) (r : Delivers p (s.performAt i) t) : Delivers p s t

/-- The accesses of a hart once `a` is issued at `u`: it is held by its operands and the control taint (R127), and carries
the address of its instruction, the group size and the strip that it was issued with, and its path (R384). -/
def queuedWith (u : State) (h : Hart) (a : Access) : List Access :=
  h.pend ++ [{ a with held := a.held ||| h.ct, join := h.joins, pc := h.pc, span := 2 ^ h.csr.gl.toNat,
                      strip := h.par.map fun n => (n, h.csr.strip), path := u.pathOfSlice a.slice }]

/-- `u` after it issued access `a` as an instruction of n bytes that returns nothing (R127). -/
def issued (u : State) (n : Nat) (a : Access) : State :=
  { u with hart := { u.hart with
      pc := u.hart.pc + BitVec.ofNat 64 n, status := .running, seq := u.hart.seq + 1,
      pend := queuedWith u u.hart { a with seq := u.hart.seq } } }

/-- `u` after it issued access `a`, which returns a value to sd and holds the tag that R124 gives it: the tag joins
`t`, the taint of the address, as the taint set of sd (R125). -/
def issuedTo (u : State) (n : Nat) (d : SReg) (t : TaintSet) (a : Access) : State :=
  let r := u.hart.allocTag
  { u with hart := { u.hart with
      pc := u.hart.pc + BitVec.ofNat 64 n, status := .running, seq := u.hart.seq + 1,
      tagBusy := r.1.tagBusy, tag0Last := r.1.tag0Last,
      st := if d = 0#5 then u.hart.st else u.hart.st.set d.toNat (tagBit r.2 ||| t),
      pend := queuedWith u u.hart { a with seq := u.hart.seq, tag := some r.2 } } }

/-- A step from `s` is a turn of the hart of `t`, which starts in state `t`: the clock and the counter of the free values have
gone on, and the turn is the next of the agenda, or, where that is empty, the turn of the next placed hart, once what goes
on beside its instructions has gone on (R45). -/
def HasTurn (s t : State) : Prop :=
  let s0 : State := { s with clock := s.clock + 1 + Config.stepClocks s.free, free := s.free + 1 }
  (∃ r rest, s.agenda = .hart r :: rest ∧ s.placed r = true ∧ t = ({ s0 with agenda := rest } : State).focus r) ∨
  (s.agenda = [] ∧
    ({ s0.rotate with agenda := s0.rotate.others.map fun h => .hart h.ref } : State).background = .next t)

/-- A load that is not performed yet writes an s register that the instruction of the word names. -/
def NamesLoad (h : Hart) (c : Code) (x : Cand) : Prop := ∃ a ∈ h.pend, ∃ d, a.sdst = some d ∧ Cand.names c x d = true

/-- The ten checks of R88 pass for an access of the hart whose turn it is, no engine range conflicts (R134), and no earlier
entry of the queue has still to access the same bytes (R118). -/
def Reaches (u : State) (a : Quad) (n : Nat) (k : AccKind) (rule : SpaceRule) (write : Bool) (l : Loc) : Prop :=
  u.check u.hart u.hart.asid a n k rule = .ok l ∧ (u.awaitTurn (u.hart.canon a) n write).isOk = true

/-- As `Reaches`, for an access that reads: checks 1 to 9, its turn, then check 10. `v` is `u`, or, where the granule is
poisoned, `u` once the hart's accesses are performed, for an earlier one may clear the poison (R88, R110, R134). -/
def Reads (u v : State) (a : Quad) (n : Nat) (k : AccKind) (rule : SpaceRule) (write : Bool) (l : Loc) : Prop :=
  (∃ l0, u.check19 u.hart u.hart.asid a n k rule = .ok l0 ∧ v = if u.poisoned l0.phys then u.drain else u) ∧
  (u.awaitTurn (u.hart.canon a) n write).isOk = true ∧ v.check v.hart v.hart.asid a n k rule = .ok l

/-- The number of bytes that an access may write: none for a load, else its own. -/
def storedBytes (a : Access) : Nat :=
  match a.op with
  | .load _ | .loadConst _ | .loadWindow .. => 0
  | _ => a.size

/-- No access of the hart that is not performed yet stores to the byte at x, nor to the TAIL of a queue whose BADTAIL lies
there (R366), wherever memory says that it goes when it arrives at another die (R349). -/
def Untouched (s : State) (x : Nat) : Prop :=
  ∀ a ∈ s.hart.pend, 0 < a.size ∧ ∀ mem b, ({ s with mem := mem } : State).arrival a = .ok b →
    ¬(b.addr ≤ x ∧ x < b.addr + storedBytes b) ∧ ∀ d ∈ s.tailsIn b.addr (storedBytes b), x ≠ d + 32

/-- No access that is not performed yet will write one of these s registers. -/
def settled (s : State) (rs : List SReg) : Prop := s.needS rs = s

/-- `s` once the accesses whose home lies within a scope are performed, and what must come before them (R121). -/
def performed (s : State) (sc : Scope) : State :=
  if sc = .g then s.drain else s.drainUntil fun a => decide (s.hart.rankOf a.slice ≤ Scope.rank sc)

/-- An lsync of this scope does not wait: no running engine command and no send, post or request of the hart has an
access within the scope left, no message within it and, for the widest, no collective result is due, no entry of the
queue has an access within it left, and its own accesses within the scope are performed and have not failed (R121). -/
def SyncReady (s : State) (sc : Scope) : Prop :=
  (∀ c ∈ s.hart.cmds, c.stopped = true ∨ Scope.rank sc < c.nearest) ∧ s.remoteBusy (Scope.rank sc) = false ∧
  (∀ c ∈ s.hart.colls, Scope.rank sc < if c.msg.isSome then 2 else 4) ∧
  (s.hart.thaw = false ∨ ∀ e ∈ s.hart.frozen, Scope.rank sc < s.hart.entryRank e) ∧
  (∀ a ∈ (performed s sc).hart.pend, Scope.rank sc < s.hart.rankOf a.slice) ∧
  ∀ x ∈ (performed s sc).hart.hits, x.level ≠ (performed s sc).hart.level

/-- The state once an lsync that does not wait is complete. -/
def synced (s : State) (sc : Scope) : State :=
  match s.lsync sc with
  | .ok t => t
  | .error _ => s

/-- The hart's vector and matrix instructions are complete, and its accesses are performed once those that can be are: it
may be parked or reconfigured (R38, R192). -/
def Quiet (u : State) : Prop :=
  u.hart.vectorBusy = false ∧ u.drain.hart.pend = [] ∧ u.drain.hart.struck = false

/-- `u` with the hart parked: its vector registers are in its park area, its pc is where it goes on when it is woken, and
`d` receives its code (R38). -/
def parked (u : State) (why : Park) (d : SReg) (pc : Quad) : State :=
  let v := u.fillPark
  { v with hart := { v.hart with status := .parked why d none, pc := pc } }

/-- The registers that an instruction reads or writes are complete once the accesses that can be performed are: nothing
that it needs is held, and none of them has failed at its home (R33, R36, R127). -/
def Complete (s : State) (vs : List VReg) (ss : List SReg) : Prop :=
  (s.readyEach vs ss).isOk = true

/-- The hart has lane groups that it may use at its level (R23, R339), and the v registers that an instruction names are
below n and multiples of G (R26). -/
def VectorUnit (s : State) (vs : List VReg) : Prop :=
  s.hart.g ≠ 0 ∧ s.hart.noLanes = false ∧ (s.hart.level = .s → s.hart.sup.vown = true) ∧
  (∀ r ∈ vs, r.toNat < 8 * 2 ^ s.hart.csr.nreg.toNat ∧ r.toNat % 2 ^ s.hart.csr.gl.toNat = 0)

/-- The word of the hart, which each step sets to that of its instruction, is that of no vector memory instruction. -/
def PlainWord (s : State) : Prop := ∀ x ∈ wordInstr s.hart.ir, Instr.loads s.hart x = none ∧ s.prepared s.hart.ir = s

/-- A vector instruction that names these v and s registers, and is no memory instruction, executes at once: it may use
them, the queue is empty (R36), no collective is waited for (R276), and what it needs is complete. -/
def VectorReady (s : State) (vs : List VReg) (ss : List SReg := []) : Prop :=
  VectorUnit s vs ∧ s.hart.queued = false ∧ s.blockedVst = false ∧ PlainWord s ∧ Complete s vs ss

/-- Vector memory instruction i, which takes the operands o and names the registers vs besides those of its stream, begins at
`u`: the hart's word is its own; it may use its registers; the queue is empty; the loads into them are performed; and before
a walk that reads memory the hart's accesses are, so that no tag holds the walk (R127, R220, R225). -/
def Begins (s u : State) (i : Instr) (vs : List VReg) (o : VMem) : Prop :=
  let rs := vs ++ s.hart.q[o.q.toNat].vregs
  wordInstr s.hart.ir = some i ∧ VectorUnit s rs ∧ s.hart.queued = false ∧ s.blockedVst = false ∧
  ∃ t, (s.prepared s.hart.ir).ready rs [] = .ok t ∧ t.walkReady o.q o.mask.m = .ok u

/-- `s` once the loads into these registers are performed (R33, R36). -/
def complete (s : State) (vs : List VReg) (ss : List SReg) : State := (s.needV vs).needS ss

/-- `u` after a vector instruction of n bytes, which issued at `s` and left the hart as `h`. A vector load is remembered
while its reads are in flight (R330). -/
def ranV (s u : State) (n : Nat) (h : Hart) : State :=
  let v := ({ u with hart := h } : State).launched s.hart (s.hart.entryOf s.hart.ir s.hart.pc)
  { v with hart := { v.hart with pc := h.pc + BitVec.ofNat 64 n, status := .running, seq := h.seq + 1 } }

/-- The walk of the active body elements of an access through q, at the end of which the checks have all passed where
`fail` is none (R216 to R219); `st` is the state then: reads of tables and scales through a window may have filled its
buffer. -/
def walkOf (u : State) (k : AccKind) (q : Stream) (scale : Option Stream) (mask : MaskOp) : Gathered :=
  let idx := u.hart.streamIdx q u.hart.csr.vl.toNat
  gather (fun v j => v.element v.hart.asid k .read q scale v.hart.csr.sbase (fun i => idx.getD i 0) j) u
    (u.hart.todo mask)

/-- Hart `h` after it issued these accesses at `u`: its control taint holds them (R127). -/
def issuedAll (u : State) (h : Hart) (l : List Access) : Hart :=
  { h with pend := l.foldl (fun p a => queuedWith u { h with pend := p } a) h.pend }

/-- `v` differs from `s` in the records of these packages alone, as far as memory, harts and packages go. -/
def OnlyPacks (s v : State) (ps : List Nat) : Prop :=
  v.mem = s.mem ∧ v.hart = s.hart ∧ v.others = s.others ∧ ∀ p, p ∉ ps → v.pack p = s.pack p

/-- The outcome is a next state in which the record of package pkg is `p`, and memory, harts and the other packages are
as they were. -/
def ChangesPack (s : State) (pkg : Nat) (p : Package) (o : Host.Outcome State Fault Refusal) : Prop :=
  ∃ v, o = .next v ∧ OnlyPacks s v [pkg] ∧ v.pack pkg = p

/-- The outcome is a next state in which the placed hart r is changed by f, and memory and the other harts are as they
were. -/
def ChangesHart (s : State) (r : HartRef) (f : Hart → Hart) (o : Host.Outcome State Fault Refusal) : Prop :=
  ∃ v, o = .next v ∧ v.mem = s.mem ∧ (∀ h, s.findHart r = some h → v.findHart r = some (f h)) ∧
    ∀ q, q ≠ r → v.findHart q = s.findHart q

/-- The outcome is a next state in which one colour of one port is changed by f, and memory, harts, the other colours and
the other packages are as they were. -/
def ChangesColour (s : State) (l : Lane) (f : Colour → Colour) (o : Host.Outcome State Fault Refusal) : Prop :=
  ∃ v, o = .next v ∧ OnlyPacks s v [l.pkg] ∧
    (v.pack l.pkg).colour l.port l.colour = f ((s.pack l.pkg).colour l.port l.colour) ∧
    ∀ i j, (i, j) ≠ (l.port, l.colour) → (v.pack l.pkg).colour i j = (s.pack l.pkg).colour i j

/-- The oldest command of a mailbox ring, seen by Huane, has this code, quads and input bytes; its reserved fields are
zero and its buffers may be used (R408, R409). -/
def Commanded (s : State) (pkg ring code : Nat) (q : List Quad) (bytes : List Byte) : Prop :=
  s.command pkg ring = some q ∧ cmdCode q = code ∧ (code = 1 ∨ s.partRuns pkg = true) ∧
  fieldOf (q.getD 0 0) 32 16 = 0 ∧ fieldOf (q.getD 6 0) 32 32 = 0 ∧ s.inputOf pkg ring q = .ok bytes

end Sys2Proof
end

