-- ==== Sys2Proof/Certificates/Slice0/Obligations.lean ====
section
/-! DEFINITION. The statements for the provers. Each docstring names the rule of spec/ that the statement
formalises. -/

open Sys2Proof Sys2Proof.Machine

/-! ### Integer instructions -/

/-- R158: the 26 register operations. `u` is the state once the loads into the named registers are performed
(`scalarUsesWaitForLoadsRule`); sd takes the result and the union of the sources' taint, and nothing else changes but
the pc. -/
def integerRegisterOperationsRule : Prop :=
  ∀ (s : State) (d a b : SReg),
    let u := s.needS [d, a, b]
    let x := u.hart.getS a
    let y := u.hart.getS b
    let t := u.hart.taintS a ||| u.hart.taintS b
    let n := (y.extractLsb' 0 6).toNat
    exec (.add d a b) s = .next (ranS u 4 d (x + y) t) ∧
    exec (.sub d a b) s = .next (ranS u 4 d (x - y) t) ∧
    exec (.and d a b) s = .next (ranS u 4 d (x &&& y) t) ∧
    exec (.or d a b) s = .next (ranS u 4 d (x ||| y) t) ∧
    exec (.xor d a b) s = .next (ranS u 4 d (x ^^^ y) t) ∧
    exec (.sll d a b) s = .next (ranS u 4 d (x <<< n) t) ∧
    exec (.srl d a b) s = .next (ranS u 4 d (x >>> n) t) ∧
    exec (.sra d a b) s = .next (ranS u 4 d (x.sshiftRight n) t) ∧
    exec (.rotl d a b) s = .next (ranS u 4 d (x.rotateLeft n) t) ∧
    exec (.rotr d a b) s = .next (ranS u 4 d (x.rotateRight n) t) ∧
    exec (.mul d a b) s = .next (ranS u 4 d (x * y) t) ∧
    exec (.mulh d a b) s = .next (ranS u 4 d (((x.signExtend 128) * (y.signExtend 128)).extractLsb' 64 64) t) ∧
    exec (.mulhN d a b) s = .next (ranS u 4 d (((x.setWidth 128) * (y.setWidth 128)).extractLsb' 64 64) t) ∧
    exec (.min d a b) s = .next (ranS u 4 d (if x.sle y then x else y) t) ∧
    exec (.max d a b) s = .next (ranS u 4 d (if x.sle y then y else x) t) ∧
    exec (.minN d a b) s = .next (ranS u 4 d (if x.ule y then x else y) t) ∧
    exec (.maxN d a b) s = .next (ranS u 4 d (if x.ule y then y else x) t) ∧
    exec (.slt d a b) s = .next (ranS u 4 d (if x.slt y then 1 else 0) t) ∧
    exec (.sltN d a b) s = .next (ranS u 4 d (if x.ult y then 1 else 0) t)

/-- R75, R158: division. By zero the quotient is all ones and the remainder the dividend; the most negative value
over -1 wraps to itself; quotients truncate toward zero. -/
def integerDivisionRule : Prop :=
  ∀ (s : State) (d a b : SReg),
    let u := s.needS [d, a, b]
    let x := u.hart.getS a
    let y := u.hart.getS b
    let t := u.hart.taintS a ||| u.hart.taintS b
    exec (.div d a b) s = .next (ranS u 4 d (if y = 0 then BitVec.allOnes 64 else x.sdiv y) t) ∧
    exec (.divN d a b) s = .next (ranS u 4 d (if y = 0 then BitVec.allOnes 64 else x.udiv y) t) ∧
    exec (.rem d a b) s = .next (ranS u 4 d (if y = 0 then x else x.srem y) t) ∧
    exec (.remN d a b) s = .next (ranS u 4 d (if y = 0 then x else x.umod y) t)

/-- R158: clz, ctz and popc: leading zeros, trailing zeros and set bits of sa, 0 to 64. -/
def bitCountsRule : Prop :=
  ∀ (s : State) (d a : SReg),
    let u := s.needS [d, a]
    let x := u.hart.getS a
    let t := u.hart.taintS a
    (∃ n, n ≤ 64 ∧ (∀ i, i < n → x.getLsbD (63 - i) = false) ∧ (n < 64 → x.getLsbD (63 - n) = true) ∧
      exec (.clz d a) s = .next (ranS u 4 d (BitVec.ofNat 64 n) t)) ∧
    (∃ n, n ≤ 64 ∧ (∀ i, i < n → x.getLsbD i = false) ∧ (n < 64 → x.getLsbD n = true) ∧
      exec (.ctz d a) s = .next (ranS u 4 d (BitVec.ofNat 64 n) t)) ∧
    exec (.popc d a) s = .next (ranS u 4 d (BitVec.ofNat 64 ((List.range 64).countP fun i => x.getLsbD i)) t)

/-- R75, R158: the integer register operations. -/
def Obligations.IntegerOperations : Prop :=
  integerRegisterOperationsRule ∧ integerDivisionRule ∧ bitCountsRule


/-- R159, R160, R152: the immediate and constant forms, and the compact forms c.addi and c.mv. The constants have an
empty taint set. -/
def immediateAndConstantFormsRule : Prop :=
  ∀ (s : State) (d a : SReg) (imm : BitVec 15) (n : BitVec 6) (i20 : BitVec 20) (i48 : BitVec 48) (i6 : BitVec 6),
    let u := s.needS [d, a]
    let x := u.hart.getS a
    let t := u.hart.taintS a
    let v := s.needS [d]
    let w := s.needS [d, d]
    exec (.addi d a imm) s = .next (ranS u 4 d (x + imm.signExtend 64) t) ∧
    exec (.andi d a imm) s = .next (ranS u 4 d (x &&& imm.signExtend 64) t) ∧
    exec (.ori d a imm) s = .next (ranS u 4 d (x ||| imm.signExtend 64) t) ∧
    exec (.xori d a imm) s = .next (ranS u 4 d (x ^^^ imm.signExtend 64) t) ∧
    exec (.slli d a n) s = .next (ranS u 4 d (x <<< n.toNat) t) ∧
    exec (.srli d a n) s = .next (ranS u 4 d (x >>> n.toNat) t) ∧
    exec (.srai d a n) s = .next (ranS u 4 d (x.sshiftRight n.toNat) t) ∧
    exec (.lih d i20) s = .next (ranS v 4 d (i20.signExtend 64 * 2 ^ 15) 0) ∧
    exec (.adr d i20) s = .next (ranS v 4 d (s.hart.pc + i20.signExtend 64) 0) ∧
    exec (.li64 d i48) s = .next (ranS v 8 d (i48.signExtend 64) 0) ∧
    exec (.cAddi d i6) s = .next (ranS w 2 d (w.hart.getS d + i6.signExtend 64) (w.hart.taintS d)) ∧
    exec (.cMv d a) s = .next (ranS u 2 d x t)

/-- The first bit and the width of each address field (R84, R161). -/
def fieldTable : List (AddrField × Nat × Nat) :=
  [(.kind, 61, 3), (.pkg, 53, 8), (.die, 51, 2), (.chan, 42, 9), (.core, 44, 7), (.goff, 0, 42), (.voff, 0, 22),
   (.wslot, 56, 5), (.woff, 0, 56)]

/-- R161: gmk replaces a field of sa by the low bits of sb; gfld takes a field of sa, zero-extended. -/
def addressFieldFormsRule : Prop :=
  ∀ (s : State) (d a b : SReg), ∀ p ∈ fieldTable,
    let u := s.needS [d, a, b]
    let v := s.needS [d, a]
    let lo := p.2.1
    let n := p.2.2
    (∃ r : Quad, exec (.gmk p.1 d a b) s = .next (ranS u 4 d r (u.hart.taintS a ||| u.hart.taintS b)) ∧
      ∀ i, i < 64 → r.getLsbD i =
        if lo ≤ i ∧ i < lo + n then (u.hart.getS b).getLsbD (i - lo) else (u.hart.getS a).getLsbD i) ∧
    exec (.gfld p.1 d a) s =
      .next (ranS v 4 d (((v.hart.getS a).extractLsb' lo n).setWidth 64) (v.hart.taintS a))

/-- R152, R159 to R161: immediates, constants, and the fields of an address. -/
def Obligations.ImmediateConstantAndFieldForms : Prop :=
  immediateAndConstantFormsRule ∧ addressFieldFormsRule


/-! ### Branches and jumps -/

/-- R162, R126, R152: a branch goes to its address plus twice the offset where the condition holds, else to the next
instruction; the control taint gains the taint of the tested registers whether or not it is taken. -/
def Obligations.BranchOutcomes : Prop :=
  ∀ (s : State) (a b : SReg) (off : BitVec 12) (r : BitVec 3) (o7 : BitVec 7),
    let u := s.needS [a, b]
    let x := u.hart.getS a
    let y := u.hart.getS b
    let t := u.hart.taintS a ||| u.hart.taintS b
    let go := fun (taken : Bool) =>
      Host.Outcome.next (went u (if taken then s.hart.pc + 2 * off.signExtend 64 else s.hart.pc + 4) t)
    let c := (1#2 ++ r : BitVec 5)
    let v := s.needS [c]
    let cgo := fun (taken : Bool) =>
      Host.Outcome.next (went v (if taken then s.hart.pc + 2 * o7.signExtend 64 else s.hart.pc + 2) (v.hart.taintS c))
    exec (.bEq a b off) s = go (x == y) ∧ exec (.bNe a b off) s = go (x != y) ∧
    exec (.bLt a b off) s = go (x.slt y) ∧ exec (.bGe a b off) s = go (y.sle x) ∧
    exec (.bLtN a b off) s = go (x.ult y) ∧ exec (.bGeN a b off) s = go (y.ule x) ∧
    exec (.cBEq r o7) s = cgo (v.hart.getS c == 0) ∧ exec (.cBNe r o7) s = cgo (v.hart.getS c != 0)

/-- R163, R140, R152: jumps. A return address is the address after the jump, with an empty taint set; jalr reads sa
before it writes sd; a register jump goes where its register says when the target is even. -/
def jumpOutcomesRule : Prop :=
  ∀ (s : State) (d a : SReg) (off : BitVec 25) (o11 : BitVec 11),
    let u := s.needS [a]
    let v := s.needS [a, d]
    let w := s.needS [1]
    let pc := s.hart.pc
    exec (.j off) s = .next (went s (pc + 2 * off.signExtend 64) 0) ∧
    exec (.cJ o11) s = .next (went s (pc + 2 * o11.signExtend 64) 0) ∧
    exec (.jal off) s = .next (went (ranS w 4 1 (pc + 4) 0) (pc + 2 * off.signExtend 64) 0) ∧
    ((u.hart.getS a).getLsbD 0 = false → exec (.jr a) s = .next (went u (u.hart.getS a) (u.hart.taintS a))) ∧
    ((v.hart.getS a).getLsbD 0 = false →
      exec (.jalr d a) s = .next (went (ranS v 4 d (pc + 4) 0) (v.hart.getS a) (v.hart.taintS a)))

/-- R140: jr and jalr to an odd target raise a Misaligned trap (0x06) at the jump, whose tinfo is the target, and
write nothing before it. -/
def oddJumpTrapsRule : Prop :=
  ∀ (s : State) (d a : SReg),
    let u := s.needS [a]
    let v := s.needS [a, d]
    ((u.hart.getS a).getLsbD 0 = true →
      exec (.jr a) s = .next (u.takeTrap { cause := 0x06, tinfo := u.hart.getS a })) ∧
    ((v.hart.getS a).getLsbD 0 = true →
      exec (.jalr d a) s = .next (v.takeTrap { cause := 0x06, tinfo := v.hart.getS a }))

/-- R126, R140, R163: jumps, and their traps at an odd target. -/
def Obligations.Jumps : Prop :=
  jumpOutcomesRule ∧ oddJumpTrapsRule


/-! ### Scalar floating point -/

/-- R165 to R167, R59, R68: the forms that round. With a mode that is not reserved, sd takes the result, fflags gains its
flags, and nothing else changes but the pc; with a reserved frm the instruction traps (0x01). The arithmetic itself
is Machine/Flags.lean (R64 to R77). -/
def scalarFloatRoundingRule : Prop :=
  ∀ (s : State) (fmt : FFmt) (rm : RMode) (code : FcvtCode) (d a b c : SReg),
    let u := s.needS [d, a, b]
    let u1 := s.needS [d, a]
    let u3 := s.needS [d, a, b, c]
    let x := u.hart.getS a
    let y := u.hart.getS b
    let t := u.hart.taintS a ||| u.hart.taintS b
    let t3 := u3.hart.taintS a ||| u3.hart.taintS b ||| u3.hart.taintS c
    let fused := fun (r : Rnd) (negC negSum : Bool) =>
      fmt.ff.fma r false negC negSum (u3.hart.getS a) (u3.hart.getS b) (u3.hart.getS c)
    let cases := fun (i : Instr) (f : Rnd → State) =>
      match rm.resolve s.hart.csr.frm with
      | some r => exec i s = .next (f r)
      | none => exec i s = .next (s.takeTrap { cause := 0x01, tinfo := s.hart.ir })
    cases (.fadd fmt rm d a b) (fun r => ranF u d (fmt.ff.add r false x y) t) ∧
    cases (.fsub fmt rm d a b) (fun r => ranF u d (fmt.ff.sub r false x y) t) ∧
    cases (.fmul fmt rm d a b) (fun r => ranF u d (fmt.ff.mul r false x y) t) ∧
    cases (.fdiv fmt rm d a b) (fun r => ranF u d (fmt.ff.div r false x y) t) ∧
    cases (.fsqrt fmt rm d a) (fun r => ranF u1 d (fmt.ff.sqrt r false (u1.hart.getS a)) (u1.hart.taintS a)) ∧
    cases (.fcvt code rm d a) (fun r => ranF u1 d (fcvtResult code r (u1.hart.getS a)) (u1.hart.taintS a)) ∧
    cases (.fmadd fmt rm d a b c) (fun r => ranF u3 d (fused r false false) t3) ∧
    cases (.fmsub fmt rm d a b c) (fun r => ranF u3 d (fused r true false) t3) ∧
    cases (.fnmadd fmt rm d a b c) (fun r => ranF u3 d (fused r false true) t3)

/-- R165: the forms that take no rounding mode: minimum and maximum, comparisons, class, sign moves and fmv. The sign
of the result of fsgn is that of sb, its opposite, or the exclusive-or of both. -/
def scalarFloatPlainRule : Prop :=
  ∀ (s : State) (fmt : FFmt) (d a b : SReg),
    let u := s.needS [d, a, b]
    let u1 := s.needS [d, a]
    let x := u.hart.getS a
    let y := u.hart.getS b
    let t := u.hart.taintS a ||| u.hart.taintS b
    let w := match fmt with | .f32 => 32 | .f64 => 64
    let low := fun (z : Quad) => z &&& BitVec.ofNat 64 (2 ^ (w - 1) - 1)
    let sign := fun (g : Bool) => if g then BitVec.ofNat 64 (2 ^ (w - 1)) else (0 : Quad)
    let sx := x.getLsbD (w - 1)
    let sy := y.getLsbD (w - 1)
    let cmp := fun (c : CmpCond) => ((if (fmt.ff.cmp c x y).1 then 1 else 0 : Quad), (fmt.ff.cmp c x y).2)
    exec (.fmin fmt d a b) s = .next (ranF u d (fmt.ff.minmax false x y) t) ∧
    exec (.fmax fmt d a b) s = .next (ranF u d (fmt.ff.minmax true x y) t) ∧
    exec (.fcmpEq fmt d a b) s = .next (ranF u d (cmp .eq) t) ∧
    exec (.fcmpLt fmt d a b) s = .next (ranF u d (cmp .lt) t) ∧
    exec (.fcmpLe fmt d a b) s = .next (ranF u d (cmp .le) t) ∧
    exec (.fcmpUo fmt d a b) s = .next (ranF u d (cmp .uo) t) ∧
    exec (.fclass fmt d a) s = .next (ranF u1 d (fmt.ff.classWord (u1.hart.getS a), 0) (u1.hart.taintS a)) ∧
    exec (.fsgnJ fmt d a b) s = .next (ranF u d (sign sy ||| low x, 0) t) ∧
    exec (.fsgnN fmt d a b) s = .next (ranF u d (sign (!sy) ||| low x, 0) t) ∧
    exec (.fsgnX fmt d a b) s = .next (ranF u d (sign (sx != sy) ||| low x, 0) t) ∧
    exec (.fmv fmt d a) s =
      .next (ranF u1 d (u1.hart.getS a &&& BitVec.ofNat 64 (2 ^ w - 1), 0) (u1.hart.taintS a))

/-- R165 to R167: scalar floating point. -/
def Obligations.ScalarFloatingPoint : Prop :=
  scalarFloatRoundingRule ∧ scalarFloatPlainRule


/-- R70, R69: an arithmetic result with a NaN operand is the canonical NaN of the format, and a signalling NaN operand
(top fraction bit 0) raises NV and no other flag. -/
def Obligations.NanResultsAreCanonical : Prop :=
  ∀ (fmt : FFmt) (r : Rnd) (x y z : Quad),
    let f := fmt.ff
    let canon : Quad := match fmt with | .f32 => 0x7FC00000 | .f64 => 0x7FF8000000000000
    let quietBit := match fmt with | .f32 => 22 | .f64 => 51
    let snan := fun (v : Quad) => (f.val v).isNan && !v.getLsbD quietBit
    let flags := fun (b : Bool) => if b then flagNV else (0 : FFlags)
    ((f.val x).isNan ∨ (f.val y).isNan →
      f.add r false x y = (canon, flags (snan x || snan y)) ∧ f.sub r false x y = (canon, flags (snan x || snan y)) ∧
      f.mul r false x y = (canon, flags (snan x || snan y)) ∧ f.div r false x y = (canon, flags (snan x || snan y))) ∧
    ((f.val x).isNan → f.sqrt r false x = (canon, flags (snan x))) ∧
    ((f.val z).isNan → (f.fma r false false false x y z).1 = canon)

/-! ### Scalar memory instructions -/

/-- The scalar loads: instruction, bytes, sign-extended, through the constant cache (R168). -/
def loadTable : List ((SReg → SReg → BitVec 12 → Instr) × Nat × Bool × Bool) :=
  [(.ldB, 1, false, false), (.ldH, 2, false, false), (.ldW, 4, false, false), (.ld, 8, false, false),
   (.ldBi, 1, true, false), (.ldHi, 2, true, false), (.ldWi, 4, true, false),
   (.ldcB, 1, false, true), (.ldcH, 2, false, true), (.ldcW, 4, false, true), (.ldc, 8, false, true),
   (.ldcBi, 1, true, true), (.ldcHi, 2, true, true), (.ldcWi, 4, true, true)]

/-- R168, R124, R125, R127, R98, R99, R152: a scalar load whose address passes the checks of R88 issues one access of
its size for sd, which takes a tag and is held by the taint of sa; it goes through the open window for an aperture
address, and through the constant cache for ldc, which takes own-package memory only. Nothing is written but by accesses
that had to come first (`Reads`), and c.ld is ld with a scaled offset. -/
def Obligations.ScalarLoadsIssue : Prop :=
  (∀ (s v : State) (d a : SReg) (imm : BitVec 12) (l : Loc), ∀ p ∈ loadTable,
    let u := s.needS [d, a]
    let addr := u.hart.getS a + imm.signExtend 64
    let dst := LoadDst.s d p.2.2.1
    Reads u v addr p.2.1 .read (if p.2.2.2 then .own else .any) false l →
    exec (p.1 d a imm) s = .next (issuedTo v 4 d (v.hart.taintS a)
      { seq := 0, queue := 0, slice := l.slice, addr := l.phys, size := p.2.1, shown := l.shown, via := l.via, tag := none,
        held := v.hart.taintS a,
        op := match l.slot with
          | some i => .loadWindow i dst
          | none => if p.2.2.2 then .loadConst dst else .load dst })) ∧
  (∀ (s v : State) (d a : BitVec 3) (off : BitVec 5) (l : Loc),
    let sd : SReg := 1#2 ++ d
    let sa : SReg := 1#2 ++ a
    let u := s.needS [sd, sa]
    Reads u v (u.hart.getS sa + 8 * off.setWidth 64) 8 .read .any false l →
    exec (.cLd d a off) s = .next (issuedTo v 2 sd (v.hart.taintS sa)
      { seq := 0, queue := 0, slice := l.slice, addr := l.phys, size := 8, shown := l.shown, via := l.via, tag := none,
        held := v.hart.taintS sa,
        op := match l.slot with
          | some i => .loadWindow i (.s sd false)
          | none => .load (.s sd false) }))

/-- R168, R127, R97, R152: a scalar store whose address passes the checks issues one access with the low bytes of the
data register, held by the taint of both registers; no register changes, and memory changes only when the access is
performed (`accessesStoreWhereTheySayRule`). c.st is st with a scaled offset. -/
def Obligations.ScalarStoresIssue : Prop :=
  (∀ (s : State) (b a : SReg) (imm : BitVec 12) (l : Loc),
    ∀ p ∈ ([(.stB, 1), (.stH, 2), (.stW, 4), (.st, 8)] : List ((SReg → SReg → BitVec 12 → Instr) × Nat)),
    let u := s.needS [b, a]
    Reaches u (u.hart.getS a + imm.signExtend 64) p.2 .write .any true l →
    exec (p.1 b a imm) s = .next (issued u 4
      { seq := 0, queue := 0, slice := l.slice, addr := l.phys, size := p.2, shown := l.shown, via := l.via, tag := none,
        held := u.hart.taintS a ||| u.hart.taintS b, op := .store ((u.hart.getS b).toNat % 2 ^ (8 * p.2)) })) ∧
  (∀ (s : State) (b a : BitVec 3) (off : BitVec 5) (l : Loc),
    let sb : SReg := 1#2 ++ b
    let sa : SReg := 1#2 ++ a
    let u := s.needS [sb, sa]
    Reaches u (u.hart.getS sa + 8 * off.setWidth 64) 8 .write .any true l →
    exec (.cSt b a off) s = .next (issued u 2
      { seq := 0, queue := 0, slice := l.slice, addr := l.phys, size := 8, shown := l.shown, via := l.via, tag := none,
        held := u.hart.taintS sa ||| u.hart.taintS sb, op := .store (u.hart.getS sb).toNat }))

/-- The ten atomics and their operations (R171, R143). -/
def amoTable : List ((AmoWidth → SReg → SReg → SReg → Instr) × AmoOp) :=
  [(.amoAdd, .add), (.amoAnd, .and), (.amoOr, .or), (.amoXor, .xor), (.amoMin, .min), (.amoMax, .max),
   (.amoMinN, .minN), (.amoMaxN, .maxN), (.amoSwap, .swap), (.amoFadd, .fadd)]

/-- R171, R102, R124: an atomic issues one access to the address in sa, which takes a tag; amo is held by the taint of
sa and sb, and cas, which compares with sd, by that of sd too. -/
def Obligations.ScalarAtomicsIssue : Prop :=
  ∀ (s v : State) (w : AmoWidth) (d a b : SReg) (l : Loc),
    let n := match w with | .w32 => 4 | .w64 => 8
    let u := s.needS [d, a, b]
    let acc := fun (op : AccOp) (held : TaintSet) =>
      ({ seq := 0, queue := 0, slice := l.slice, addr := l.phys, size := n, shown := l.shown, via := l.via, tag := none,
         held := held, op := op } : Access)
    Reads u v (u.hart.getS a) n .atomic .any true l →
    (∀ p ∈ amoTable, exec (p.1 w d a b) s = .next (issuedTo v 4 d (v.hart.taintS a)
      (acc (.amo p.2 (v.hart.getS b) d) (v.hart.taintS a ||| v.hart.taintS b)))) ∧
    exec (.cas w d a b) s = .next (issuedTo v 4 d (v.hart.taintS a)
      (acc (.cas (v.hart.getS d) (v.hart.getS b) d) (v.hart.taintS a ||| v.hart.taintS b ||| v.hart.taintS d)))

/-- R88, R89, R331, R357: a load, a store or an atomic whose address fails a check traps precisely with the cause of
the first check that fails and the address in tinfo, and the home die records what R357 says. Check 10 of a read is made
once what goes before it is done (R109, R134). -/
def failedChecksTrapRule : Prop :=
  ∀ (s : State) (d a b : SReg) (imm : BitVec 12) (f : Fail),
    let u := s.needS [d, a]
    let v := s.needS [d, a, b]
    let addr := u.hart.getS a + imm.signExtend 64
    let trap := fun (u : State) (k : AccKind) =>
      Host.Outcome.next ((u.logFail u.hart f false k).takeTrap { cause := f.cause, tinfo := f.tinfo })
    (u.check19 u.hart u.hart.asid addr 8 .read .any = .error (.inl f) → exec (.ld d a imm) s = trap u .read) ∧
    (u.check u.hart u.hart.asid addr 8 .write .any = .error (.inl f) → exec (.st d a imm) s = trap u .write) ∧
    (v.check19 v.hart v.hart.asid (v.hart.getS a) 8 .atomic .any = .error (.inl f) →
      exec (.amoAdd .w64 d a b) s = trap v .atomic ∧ exec (.cas .w64 d a b) s = trap v .atomic) ∧
    (∀ l, u.check19 u.hart u.hart.asid addr 8 .read .any = .ok l → u.poisoned l.phys = true →
      (u.awaitTurn (u.hart.canon addr) 8 false).isOk = true →
      u.drain.check u.drain.hart u.drain.hart.asid addr 8 .read .any = .error (.inl f) →
      exec (.ld d a imm) s = trap u.drain .read) ∧
    (∀ l, v.check19 v.hart v.hart.asid (v.hart.getS a) 8 .atomic .any = .ok l → v.poisoned l.phys = true →
      (v.awaitTurn (v.hart.canon (v.hart.getS a)) 8 true).isOk = true →
      v.drain.check v.drain.hart v.drain.hart.asid (v.hart.getS a) 8 .atomic .any = .error (.inl f) →
      exec (.amoAdd .w64 d a b) s = trap v.drain .atomic ∧ exec (.cas .w64 d a b) s = trap v.drain .atomic)

/-- R84 to R89, R92, R93, R353: what a passed check says. A kind from 4 to 7 never passes; the address is a multiple of
the size; a PGAS access lies in the page that translates it and has its permission and channel; a vault access lies
in a unit that the asid holds; and a read of poisoned data does not pass (check 10), unless an earlier access of the
hart to the granule is still to be performed: its home makes check 10 then (log entry 120). -/
def checksThatPassRule : Prop :=
  ∀ (s : State) (h : Hart) (asid : BitVec 16) (a : Quad) (n : Nat) (k : AccKind) (rule : SpaceRule) (l : Loc),
    0 < n → s.check h asid a n k rule = .ok l →
    let kind := (a.extractLsb' 61 3).toNat
    kind < 4 ∧ a.toNat % n = 0 ∧
    (k = .read ∨ k = .fetch ∨ k = .atomic → s.poison.contains (l.phys / 32) = false ∨ h.touches l.phys = true) ∧
    (kind = 0 → ∃ pkg die pa page size, s.translate h pkg die asid (a.extractLsb' 0 42).toNat
        (a.extractLsb' 42 9).toNat k a = .ok (pa, page, size) ∧ l.phys = hbmKey pkg die pa ∧
        (a.extractLsb' 42 9).toNat ≤ 256 ∧ l.via = some (asid, page, size)) ∧
    (kind = 1 → ∃ pkg die core, l.phys = vaultKey pkg die core (a.extractLsb' 0 22).toNat ∧
        (a.extractLsb' 0 22).toNat < 0x300000 ∧
        (s.core pkg die core).units.any (fun p => p.1 == (a.extractLsb' 0 22).toNat / 65536 && p.2 == asid) = true) ∧
    (kind = 3 → l.phys = hostPhys h.pkg (s.functionOf h.pkg asid) (a.extractLsb' 0 48).toNat ∧ k ≠ .atomic)

/-- R84 to R93, R331, R353, R357: what a check that fails does, and what one that passes says. -/
def Obligations.AddressChecks : Prop :=
  failedChecksTrapRule ∧ checksThatPassRule


/-! ### Performing accesses -/

/-- R97, R102, R112, R235, R366: performing the accesses of a hart writes no byte outside those that they store to, and a
nibble or merged update is no exception; nor does it set a BADTAIL but by a store to its TAIL. -/
def accessesStoreWhereTheySayRule : Prop :=
  ∀ (s : State) (x : Nat), Memory.wf s.mem = true → Untouched s x →
    readByte s.drain.mem x = readByte s.mem x ∧
    (∀ rs, readByte (s.needS rs).mem x = readByte s.mem x) ∧ (∀ p, readByte (s.drainUntil p).mem x = readByte s.mem x)

/-- R33, R118 (the model performs a load of a register that an instruction uses, with what must come before it, when
that instruction issues: log entry 21): with no pending access to the registers named, nothing is performed. -/
def scalarUsesWaitForLoadsRule : Prop :=
  ∀ (s : State) (rs : List SReg),
    (∀ a ∈ s.hart.pend, ∀ d ∈ rs, d ≠ 0#5 → ∀ (g : Bool) (i : Nat) (op : AmoOp) (x y : Quad),
      a.op ≠ .load (.s d g) ∧ a.op ≠ .loadConst (.s d g) ∧ a.op ≠ .loadWindow i (.s d g) ∧ a.op ≠ .amo op x d ∧
      a.op ≠ .cas x y d) →
    settled s rs

/-- R113 to R118, R168, R171: what an access does at its home, for the hart whose turn it is. A load takes the bytes of
its home, zero- or sign-extended; a store writes its bytes (`State.put`; `registerBlocksInMemoryRule`); an atomic returns
the old value and writes its operation's result; a compare-and-swap writes only where the old value equals its operand.
R88, R109: an access that reads a poisoned granule of its home writes nothing, and its failure waits to be taken. `a` is
the access where its home has found it: one to another die is translated when it arrives there (R349). -/
def accessEffectsRule : Prop :=
  ∀ (s : State) (i : Nat) (a0 a : Access), s.hart.pend[i]? = some a0 → s.unauthentic a0 = false → s.arrival a0 = .ok a →
    forwardData (s.hart.pend.take i) a = none →
    let t := s.performAt i
    let old := readN s.mem a.addr a.size
    (a.op.reads = true → s.poison.contains (a.addr / 32) = true →
      t.mem = s.mem ∧ t.hart.s = s.hart.s ∧ t.hart.v = s.hart.v ∧
      ∃ x ∈ t.hart.hits, x.cause = 0x0B ∧ x.tinfo = a.shown ∧ x.seq = a.seq) ∧
    ((a.op.reads = true → s.poison.contains (a.addr / 32) = false) →
    t.hart.pend = s.hart.pend.eraseIdx i ∧
    (∀ d signed, a.op = .load (.s d signed) → d ≠ 0#5 →
      t.hart.getS d = (if signed then (BitVec.ofNat (8 * a.size) old).signExtend 64 else BitVec.ofNat 64 old) ∧
      t.mem = s.mem) ∧
    (∀ x, a.op = .store x → t.mem = s.put a.addr a.size x ∧ t.hart.s = s.hart.s) ∧
    (∀ op x d, a.op = .amo op x d →
      t.mem = s.put a.addr a.size (amoApply op (a.size == 8) (BitVec.ofNat 64 old) x).toNat ∧
      (d ≠ 0#5 → t.hart.getS d = BitVec.ofNat 64 old)) ∧
    (∀ e x d, a.op = .cas e x d →
      t.mem = (if old = e.toNat % 256 ^ a.size then s.put a.addr a.size x.toNat else s.mem) ∧
      (d ≠ 0#5 → t.hart.getS d = BitVec.ofNat 64 old)))

/-- R349, R353, R357: an access to another die is translated there when it arrives: it goes where the page says then, and
where the page does not permit it, it writes nothing, and its failure, with what the home die records, waits to be taken.
R411: at a package that has dropped the keys of its hart's member it fails authentication: it writes nothing, and a read
meets poison (log entry 147). -/
def accessArrivalRule : Prop :=
  ∀ (s : State) (i : Nat) (a : Access), s.hart.pend[i]? = some a →
    let t := s.performAt i
    let c := s.hart.canon a.shown
    let pkg := c / 2 ^ 53 % 256
    let die := c / 2 ^ 51 % 4
    let k : AccKind := if a.op.writes then (if a.op.reads then .atomic else .write) else .read
    let page := s.translate s.hart pkg die (a.via.elim 0 (·.1)) (c % 2 ^ 42) (c / 2 ^ 42 % 512) k a.shown
    let failed := fun (cause : Byte) (home : Option (Nat × Nat × Nat)) =>
      t.mem = s.mem ∧ t.hart.s = s.hart.s ∧ t.hart.v = s.hart.v ∧
        ∃ x ∈ t.hart.hits, x.cause = cause ∧ x.tinfo = a.shown ∧ x.seq = a.seq ∧ x.home = home
    (a.via = none ∨ (pkg = s.hart.pkg ∧ die = s.hart.die) → s.arrival a = .ok a) ∧
    (a.via ≠ none → (pkg ≠ s.hart.pkg ∨ die ≠ s.hart.die) →
      (∀ pa lo n, page = .ok (pa, lo, n) → ∃ b, s.arrival a = .ok b ∧ b.addr = hbmKey pkg die pa ∧ b.op = a.op ∧
        b.size = a.size ∧ b.shown = a.shown) ∧
      (∀ f, page = .error (.inl f) → s.unauthentic a = false → failed f.cause f.home)) ∧
    (s.unauthentic a = true → (a.op.reads = true → failed 0x0B none) ∧
      (a.op.reads = false → t.mem = s.mem ∧ t.hart.pend = s.hart.pend.eraseIdx i ∧ t.hart.hits = s.hart.hits)) ∧
    (s.unauthentic a = true ↔ ∃ p die, a.slice = .remote p die ∧
      ∃ e, s.memberOf s.hart.pkg s.hart.asid = some e ∧
        ∃ o ∈ (s.pack p).huane.applied, o.enclave = e.1.id ∧ o.member = e.2)

/-- R67, R71, R72, R118, R235, R236: what the accesses of a vector instruction do at their homes, for the hart whose turn it
is, where the granule is not poisoned. A load puts its element, converted from the memory format, into its register; a store
of a nibble leaves the other nibble of its byte; an exchange does both; a merged update applies its operands one after
another in element order, writes the last value and gives each element the value before its own. -/
def vectorAccessEffectsRule : Prop :=
  ∀ (s : State) (i : Nat) (a0 a : Access), s.hart.pend[i]? = some a0 → s.unauthentic a0 = false → s.arrival a0 = .ok a →
    forwardData (s.hart.pend.take i) a = none →
    (a.op.reads = true → s.poison.contains (a.addr / 32) = false) →
    let t := s.performAt i
    let old := readN s.mem a.addr a.size
    let nibble := fun (high : Bool) (x : Nat) => if high then old % 16 + 16 * (x % 16) else old / 16 * 16 + x % 16
    let loaded := fun (fmt : MemFmt) (high : Bool) (sc : Option Byte) (rnd : Rnd) (sat : Bool) =>
      let datum := if fmt = .e2m1 then (if high then old / 16 else old % 16) else old
      match sc with
      | none => widen fmt datum
      | some k => (widenScaled fmt datum k rnd sat).1
    (∀ d e fmt high sc rnd sat,
      let after := (s.hart.setVElem d fmt.tag.wide e (loaded fmt high sc rnd sat)).v
      (a.op = .load (.v d e fmt high sc rnd sat) → t.mem = s.mem ∧ t.hart.s = s.hart.s ∧ t.hart.v = after) ∧
      (∀ x, a.op = .exchange x (.v d e fmt high sc rnd sat) → t.hart.s = s.hart.s ∧ t.hart.v = after ∧
        t.mem = if fmt = .e2m1 then s.put a.addr 1 (nibble high x) else s.put a.addr a.size x)) ∧
    (∀ high x, a.op = .storeNibble high x → a.size = 1 → t.mem = s.put a.addr 1 (nibble high x) ∧ t.hart.s = s.hart.s ∧
      t.hart.v = s.hart.v) ∧
    (∀ op (tag : Tag) es dst, a.op = .vamo op tag es dst →
      let apply := fun (v : Quad) (p : Nat × Quad) => amoApply op tag.wide v p.2
      let before := fun k => (es.take k).foldl apply (BitVec.ofNat 64 old)
      t.mem = s.put a.addr a.size (before es.length).toNat ∧ t.hart.s = s.hart.s ∧
      t.hart.v = match dst with
        | none => s.hart.v
        | some d => ((es.zip (List.range es.length)).foldl (fun h p => h.setVElem d tag.wide p.1.1 (before p.2)) s.hart).v)

/-- R4, R358, R363, R365, R366, R380, R395, R409: what a write of n bytes does to memory. Memory that holds no register
block takes the bytes. In a block the writable bits of each byte take the written ones, a written 1 clears the bits that
say so, and every other bit stays. A TAIL that is written to a queue which glaunch feeds stays; one written to another
queue is ignored where it passes HEAD by more than the ring or goes back, and BADTAIL is set. -/
def registerBlocksInMemoryRule : Prop :=
  ∀ (s : State) (a n v : Nat), Memory.wf s.mem = true →
    ((∀ i, i < n → s.fieldsAt (a + i) = Fields.all) → s.tailsIn a n = [] → s.put a n v = writeN s.mem a n v) ∧
    (∀ x, ¬(a ≤ x ∧ x < a + n) → (∀ d ∈ s.tailsIn a n, x ≠ d + 32) → readByte (s.put a n v) x = readByte s.mem x) ∧
    (s.tailsIn a n = [] → ∀ i j, i < n → j < 8 →
      let f := s.fieldsAt (a + i)
      let bit := 8 * ((a + i) % 8) + j
      let old := (readByte s.mem (a + i)).getLsbD j
      let new := v.testBit (8 * i + j)
      (readByte (s.put a n v) (a + i)).getLsbD j =
        if f.rw.getLsbD bit then new else if f.w1c.getLsbD bit then old && !new else old) ∧
    (∀ b q d, s.blockBase (a / 2 ^ 53) 1 = some b → a < 2 ^ 61 → q < 2048 → d = b + 16832 + 64 * q → a = d + 24 → n = 4 →
      b / 2 ^ 53 = a / 2 ^ 53 → b % 65536 = 0 → s.tailsIn a n = [d] →
      (∀ i, i < 4 → s.fieldsAt (a + i) = schedFields (2104 + 8 * q + 3) ((readQuad s.mem (d + 8)).getLsbD 7)) →
      let tail := readWord s.mem a
      let new : Word := BitVec.ofNat 32 v
      let c := readQuad s.mem (d + 8)
      let ok := (new - readWord s.mem (d + 16)).toNat ≤ 2 ^ fieldOf c 0 5 ∧ (new - tail).toNat < 2 ^ 31
      (c.getLsbD 7 = true → readWord (s.put a n v) a = tail ∧ readQuad (s.put a n v) (d + 32) = readQuad s.mem (d + 32)) ∧
      (c.getLsbD 7 = false → ok → readWord (s.put a n v) a = new ∧
        readQuad (s.put a n v) (d + 32) = readQuad s.mem (d + 32)) ∧
      (c.getLsbD 7 = false → ¬ok → readWord (s.put a n v) a = tail ∧
        readQuad (s.put a n v) (d + 32) = readQuad s.mem (d + 32) ||| 1))

/-- R97, R102, R112 to R118, and R4 for the register blocks that lie in memory: performing the accesses of a hart. -/
def Obligations.PerformingAccesses : Prop :=
  accessesStoreWhereTheySayRule ∧ scalarUsesWaitForLoadsRule ∧ accessEffectsRule ∧ accessArrivalRule ∧ vectorAccessEffectsRule ∧
  registerBlocksInMemoryRule


/-! ### Ordering, and waiting on memory -/

/-- R121, R122, R169, R170: lsync completes when nothing of its scope is running, with every access whose home lies
within the scope performed and every store but those of lsync.h acknowledged; else the hart waits. st.rel is an
lsync and then a store. ifence performs the stores before it and empties the instruction L1 of the core; while a store or
an atomic before it is held it waits. -/
def orderingInstructionsRule : Prop :=
  (∀ (s : State) (sc : Scope),
    (SyncReady s sc → ∃ t, exec (.lsync sc) s = .next t ∧ t.hart.pc = s.hart.pc + 4 ∧
      t.hart.joins = s.hart.joins + 1 ∧ (∀ a ∈ t.hart.pend, Scope.rank sc < s.hart.rankOf a.slice) ∧
      (sc = .g → t.hart.pend = []) ∧ (sc ≠ .h → t.hart.unacked = []) ∧
      (∀ x, Untouched s x → Sound s → readByte t.mem x = readByte s.mem x)) ∧
    (¬SyncReady s sc → exec (.lsync sc) s = .next (s.holdHart .sync))) ∧
  (∀ (s : State) (sc : Scope) (b a : SReg) (l : Loc),
    ∀ p ∈ ([(.b, 1), (.h, 2), (.w, 4), (.q, 8)] : List (StWidth × Nat)),
    SyncReady s sc →
    let u := (synced s sc).needS [b, a]
    Reaches u (u.hart.getS a) p.2 .write .any true l →
    exec (.stRel p.1 sc a b) s = .next (issued u 4
      { seq := 0, queue := 0, slice := l.slice, addr := l.phys, size := p.2, shown := l.shown, via := l.via, tag := none,
        held := u.hart.taintS a ||| u.hart.taintS b, op := .store ((u.hart.getS b).toNat % 2 ^ (8 * p.2)) })) ∧
  (∀ s : State,
    let u := s.drainUntil (·.op.writes)
    let left := s.hart.thaw = true ∧ ∃ e ∈ s.hart.frozen, ∃ r ∈ e.ranges, r.2 = true
    ((¬left ∧ ∀ a ∈ u.hart.pend, a.op.writes = false) →
      exec .ifence s = .next (ran (u.setCore { u.core u.hart.pkg u.hart.die u.hart.core with icache := [] }) 4)) ∧
    ((left ∨ ∃ a ∈ u.hart.pend, a.op.writes = true) → exec .ifence s = .next (s.holdHart .sync)))

/-- R172, R173, R38: waita, whose own accesses are complete, answers 1 when the quad differs from sb, 2 when the wait
list of the home is full, and else enters the list and parks, once its vector instructions are complete; wakea reads no
data, waits for what holds it (R127) and for the stores and atomics before it to the line, removes the oldest waiters of the line, as many as sb says and all for 0, and
answers how many it woke. -/
def waitAndWakeRule : Prop :=
  (∀ (s : State) (d a b : SReg) (l : Loc), SyncReady s .g →
    let u := synced s .g
    let home := homeOf l.phys
    let line := l.phys / 64
    u.check u.hart u.hart.asid (u.hart.getS a) 8 .read .home = .ok l →
    (readQuad u.mem l.phys ≠ u.hart.getS b → exec (.waita d a b) s = .next (ranS u 4 d 1 0)) ∧
    (readQuad u.mem l.phys = u.hart.getS b → 32 ≤ (u.waiters.filter (·.home == home)).length →
      exec (.waita d a b) s = .next (ranS u 4 d 2 0)) ∧
    (readQuad u.mem l.phys = u.hart.getS b → (u.waiters.filter (·.home == home)).length < 32 → Quiet u →
      exec (.waita d a b) s =
        .next (parked { u.drain with waiters := u.drain.waiters ++ [⟨home, line, u.drain.hart.ref⟩] } (.waita line) d
          (u.drain.hart.pc + 4)))) ∧
  (∀ (s w : State) (d a b : SReg) (l : Loc),
    let u := s.needS [d, a, b]
    let line := l.phys / 64
    let inLine := fun (x : Access) => x.op.writes && meets (64 * line) 64 x.addr x.size
    let v := w.drainUntil inLine
    let mine := v.waiters.filter (·.line == line)
    -- the count is that of sb once its own loads are performed
    let n := (v.hart.getS b).toNat
    let woken := if n = 0 then mine else mine.take n
    u.check19 u.hart u.hart.asid (u.hart.getS a) 8 .read .home = .ok l →
    u.settle (u.hart.taintS a ||| u.hart.taintS b) = .ok w →
    v.hart.queueTouches (w.hart.canon (w.hart.getS a) / 64 * 64) 64 false = false → v.hart.pend.any inLine = false →
    ∃ t, exec (.wakea d a b) s = .next t ∧ t.mem = v.mem ∧ t.hart.pc = v.hart.pc + 4 ∧
      (d ≠ 0#5 → t.hart.getS d = BitVec.ofNat 64 woken.length) ∧
      (∀ r, r ≠ d → t.hart.getS r = v.hart.getS r) ∧
      t.waiters = v.waiters.filter fun w => !woken.any (·.hart == w.hart))

/-- R121, R122, R169, R170, R172, R173: ordering, and waiting on memory. -/
def Obligations.OrderingAndWaiting : Prop :=
  orderingInstructionsRule ∧ waitAndWakeRule


/-! ### CSRs and taint -/

/-- R58, R175, R176, R327: a CSR instruction at a level that may use its number writes sd with the old value and an
empty taint set; csrw, csrs and csrc write sa, the old value or sa, the old value and not sa; the W1C registers are
cleared where csrw or csrs writes 1, and csrc leaves them; the loop, matrix and group registers and vtype add the
taint of sa to the control taint. A number from 0x800 upward traps (0x03) at U, and a number of neither table is
illegal. -/
def Obligations.CsrInstructions : Prop :=
  ∀ (s : State) (d a : SReg) (n : BitVec 12),
    let waits := n = 0x015 ∨ n = 0x016 ∨ n = 0x018
    let w1c := n = 0x016 ∨ n = 0x017
    let tainting := n = 0x011 ∨ n = 0x020 ∨ n = 0x021 ∨ n = 0x022 ∨ n = 0x039 ∨ n = 0x040 ∨ n = 0x041 ∨ n = 0x042
    let at_ := fun (rs : List SReg) => if waits then (s.needS rs).drain else s.needS rs
    let allowed := n.toNat < 0x800 ∨ s.hart.level = .s
    let u := at_ [d]
    let v := at_ [d, a]
    let x := v.hart.getS a
    let clear := fun (t : State) => waits → t.hart.struck = false ∧ ∀ a ∈ t.hart.pend, a.queue = 0
    let ct := fun (t : State) =>
      if tainting then ({ t with hart := { t.hart with ct := t.hart.ct ||| v.hart.taintS a } } : State) else t
    (allowed → (waits → s.hart.vectorBusy = false) → clear u → clear v →
      (∀ old, u.csrGet n = some old → exec (.csrr d n) s = .next (ranS u 4 d old 0)) ∧
      (∀ old, v.csrGet n = some old →
        exec (.csrw d a n) s = .next (ranS (ct (if w1c then v.csrClear n x else v.csrPut n x)) 4 d old 0) ∧
        exec (.csrs d a n) s = .next (ranS (ct (if w1c then v.csrClear n x else v.csrPut n (old ||| x))) 4 d old 0) ∧
        exec (.csrc d a n) s = .next (ranS (ct (if w1c then v else v.csrPut n (old &&& ~~~x))) 4 d old 0)) ∧
      (u.csrGet n = none → exec (.csrr d n) s = .next (u.takeTrap { cause := 0x01, tinfo := u.hart.ir }))) ∧
    (¬allowed → exec (.csrr d n) s = .next (s.takeTrap { cause := 0x03, tinfo := s.hart.ir }) ∧
      exec (.csrw d a n) s = .next (s.takeTrap { cause := 0x03, tinfo := s.hart.ir }) ∧
      exec (.csrs d a n) s = .next (s.takeTrap { cause := 0x03, tinfo := s.hart.ir }) ∧
      exec (.csrc d a n) s = .next (s.takeTrap { cause := 0x03, tinfo := s.hart.ir })) ∧
    (allowed → waits → s.hart.vectorBusy = true ∨ ¬clear u → exec (.csrr d n) s = .next (s.holdHart .presence))

/-- The CSRs with writable bits, and those bits (R57, R58, R327). ptroot is not among them. -/
def csrWritable : List (BitVec 12 × Quad) :=
  [(0x011, 0xF), (0x015, 0x3F), (0x018, 0x1F), (0x019, 7), (0x020, BitVec.allOnes 64), (0x021, BitVec.allOnes 64),
   (0x022, BitVec.allOnes 64), (0x039, 0xFF), (0x040, 0xF), (0x041, 0xFFFFFF), (0x042, 0xFFFFFFFF), (0x044, 0xFF),
   (0x800, 7), (0x803, BitVec.allOnes 64), (0x804, BitVec.allOnes 64 <<< 1), (0x805, BitVec.allOnes 64),
   (0x806, 0xFFFF), (0x808, 0xFFFF), (0x813, BitVec.allOnes 64)]

/-- R4, R57, R58, R175, R327, R354: a write changes the writable bits of its CSR and no other; the other CSRs read as
before, but for vl and vlast at a write of vtype, cseq at a write of cgrp and ptroot at a write of asid; a register
that has no writable bit ignores a write. A write of ptroot with low six bits zero changes the root entry of the
asid in memory, and any other write of it changes nothing. A W1C register loses the bits that are 1. -/
def Obligations.CsrReadsBackItsWrites : Prop :=
  (∀ (s : State) (v old : Quad), ∀ p ∈ csrWritable, s.csrGet p.1 = some old →
    (s.csrPut p.1 v).csrGet p.1 = some ((old &&& ~~~p.2) ||| (v &&& p.2)) ∧ (s.csrPut p.1 v).mem = s.mem ∧
    (∀ m, m ≠ p.1 → ¬(p.1 = 0x011 ∧ (m = 0x010 ∨ m = 0x015)) → ¬(p.1 = 0x040 ∧ m = 0x043) →
      ¬(p.1 = 0x806 ∧ m = 0x807) → (s.csrPut p.1 v).csrGet m = s.csrGet m)) ∧
  (∀ (s : State) (n : BitVec 12) (v : Quad), (∀ p ∈ csrWritable, p.1 ≠ n) → n ≠ 0x807 → s.csrPut n v = s) ∧
  (∀ (s : State) (v : Quad), Sound s → (v.extractLsb' 0 6 = 0 → (s.csrPut 0x807 v).csrGet 0x807 = some v ∧
      (∀ x, (x < s.ownRoot ∨ s.ownRoot + 8 ≤ x) → readByte (s.csrPut 0x807 v).mem x = readByte s.mem x) ∧
      (s.csrPut 0x807 v).hart = s.hart) ∧
    (v.extractLsb' 0 6 ≠ 0 → s.csrPut 0x807 v = s)) ∧
  (∀ (s : State) (v old : Quad) (n : BitVec 12), n = 0x016 ∨ n = 0x017 → s.csrGet n = some old →
    (s.csrClear n v).csrGet n = some (old &&& ~~~v))

/-- R131, R174: tclr empties the taint set of a register, tclr.ct the control taint; tget reads a taint set as a
number; tdep adds one taint set to another. A v register that is not the first of its group makes tclr illegal. -/
def Obligations.TaintInstructions : Prop :=
  ∀ (s : State) (d : SReg) (x y : TaintReg),
    let set := fun (u : State) (t : TaintSet) => ran { u with hart := u.hart.setTaint x t } 4
    -- a load into sd that is still in flight leaves it alone
    let u : State := { s with hart := { s.hart with
      pend := if d = 0#5 then s.hart.pend else s.hart.pend.map (Access.miss d) } }
    (s.hart.midGroup x = false → exec (.tclr x) s = .next (set s 0)) ∧
    (s.hart.midGroup x = true → exec (.tclr x) s = .next (s.takeTrap { cause := 0x01, tinfo := s.hart.ir })) ∧
    exec .tclrCt s = .next (ran { s with hart := { s.hart with ct := 0 } } 4) ∧
    exec (.tget d y) s = .next (ranS u 4 d ((s.hart.taintOf y).setWidth 64) 0) ∧
    exec (.tdep x y) s = .next (set s (s.hart.taintOf x ||| s.hart.taintOf y)) ∧
    (∀ t, (∀ r, x = .s r → r ≠ 0#5) → (∀ r, x = .m r → r ≠ 0#3) → (s.hart.setTaint x t).taintOf x = t)

/-! ### Vector configuration and strip loops -/

/-- R25, R26, R192, R193: vcfg sets the register count and element width, zeroes the vector registers and masks, sets vl
and vlast to 0, records the request and answers VLMAX, once the hart's vector instructions are complete; vsetl sets vtype
and grants the smaller of s[sa] and VLMAX x G, once a waiting request for lane groups is applied (when it is: log entry
128). -/
def vectorConfigurationRule : Prop :=
  ∀ (s : State) (d a : SReg) (nreg : BitVec 2) (w64 : Bool) (lgreq : BitVec 4) (gl : BitVec 2) (tp mp : Bool),
    (Quiet s →
      let u := s.drain
      let n := 8192 * u.hart.g / (2 ^ (3 + nreg.toNat) * (if w64 then 2 else 1))
      exec (.vcfg d nreg w64 lgreq) s = .next (ranS { u with hart := { u.hart with
          v := Vector.replicate 64 {}, m := Vector.replicate 8 {},
          csr := { u.hart.csr with nreg := nreg, w64 := w64, lgreq := lgreq, vlmax := BitVec.ofNat 32 n, vl := 0,
                                   vlast := 0 } } } 4 d (BitVec.ofNat 64 n) 0)) ∧
    (let u := s.needS [d, a]
     let w := u.drain
     let v := if u.hart.csr.lgreq = 0 ∨ u.hart.vectorBusy = true then u
       else if w.hart.struck = true ∨ ∃ a ∈ w.hart.pend, a.queue ≠ 0 then w else w.applyGrant
     let x := v.hart.getS a
     let vl : Word := BitVec.ofNat 32 (min x.toNat (v.hart.csr.vlmax.toNat * 2 ^ gl.toNat))
     exec (.vsetl d a gl tp mp) s = .next (ranS { v with hart := { v.hart with
          ct := v.hart.ct ||| v.hart.taintS a,
          csr := { v.hart.csr with
            gl := gl, tp := tp, mp := mp, vl := vl,
            vlast := if v.hart.csr.vlast.toNat % 2 ^ gl.toNat ≠ 0 then 0 else v.hart.csr.vlast } } }
        4 d (vl.setWidth 64) 0))

/-- R25: a request for n lane groups gives the smaller of n and the count plus the free groups of the gang's share; it
is cleared when met in full; the groups come from those owned and the free share; a changed count sets VLMAX (R26)
and zeroes the vector registers and masks, an unchanged one leaves them. -/
def Obligations.LaneGrant : Prop :=
  ∀ s : State,
    let h := s.hart
    let t := s.applyGrant
    let n := min h.csr.lgreq.toNat (h.g + popCount s.freeShare.toNat 8)
    (h.csr.lgreq = 0 → t = s) ∧
    (h.csr.lgreq ≠ 0 → popCount h.csr.lgrp.toNat 8 = h.g → h.csr.lgrp &&& s.freeShare = 0 →
      t.hart.g = n ∧ popCount t.hart.csr.lgrp.toNat 8 = n ∧
      t.hart.csr.lgrp &&& ~~~(h.csr.lgrp ||| s.freeShare) = 0 ∧
      t.hart.csr.lgreq = (if n = h.csr.lgreq.toNat then 0 else h.csr.lgreq) ∧
      (n = h.g → t.hart.v = h.v ∧ t.hart.m = h.m ∧ t.hart.csr.vlmax = h.csr.vlmax) ∧
      (n ≠ h.g → (∀ i : Fin 64, t.hart.v[i] = {}) ∧ (∀ i : Fin 8, t.hart.m[i] = {}) ∧
        t.hart.csr.vlmax = BitVec.ofNat 32 (8192 * n / (2 ^ (3 + h.csr.nreg.toNat) * (if h.csr.w64 then 2 else 1)))) ∧
      t.mem = s.mem ∧ t.hart.s = h.s ∧ t.hart.pc = h.pc)

/-- R27, R28, R194, R56: sloop sets slen, strip and sbase and grants the first strip; snext moves to the next strip and
goes back to its target while a strip is left; each falls out when it grants nothing. The control taint gains the
taint of the length. -/
def stripLoopsRule : Prop :=
  ∀ (s : State) (a : SReg) (off : BitVec 12),
    let target := s.hart.pc + 2 * off.signExtend 64
    let u := s.needS [a]
    let c := u.hart.csr
    let most := c.vlmax.toNat * 2 ^ c.gl.toNat
    let x := u.hart.getS a
    let first : Word := BitVec.ofNat 32 (min x.toNat most)
    let old := s.hart.csr
    let sbase := old.sbase + old.vl.setWidth 64
    let next : Word := BitVec.ofNat 32 (min (old.slen.toNat - sbase.toNat) (old.vlmax.toNat * 2 ^ old.gl.toNat))
    exec (.sloop a off) s = .next { u with hart := { u.hart with
        ct := u.hart.ct ||| u.hart.taintS a, status := .running, par := none,
        csr := { c with slen := x, strip := 0, sbase := 0, vl := first },
        pc := if first = 0 then target else u.hart.pc + 4 } } ∧
    exec (.snext off) s = .next { s with hart := { s.hart with
        status := .running, par := if next = 0 then none else s.hart.par,
        csr := { old with sbase := sbase, strip := old.strip + 1, vl := next },
        pc := if next = 0 then s.hart.pc + 4 else target } }

/-- R26 to R30, R192 to R194: configuration and strip loops. -/
def Obligations.VectorConfigurationAndStrips : Prop :=
  vectorConfigurationRule ∧ stripLoopsRule


/-! ### Gangs -/

/-- R43, R178, R368: glaunch with a readable record and a queue of its own address space answers QFULL and changes
nothing else when the queue is full; else it appends the record, with quad 7 zero, to the slot of TAIL, advances
TAIL and answers the sequence number. The record's ancestors are the launching gang and its own (R375), and the launch
is remembered with the number of the instruction: the record is accepted once the writes before it are performed. -/
def gangLaunchRule : Prop :=
  ∀ (s u : State) (d a b : SReg) (l l' : Loc) (base : Nat),
    let v := (s.needS [d, a, b]).drain
    let pkg := u.hart.pkg
    let q := (u.hart.getS b).toNat
    let desc := u.queueDesc pkg q
    v.settle (v.hart.taintS a ||| v.hart.taintS b) = .ok u →
    u.check19 u.hart u.hart.asid (u.hart.getS a) 64 .read .own = .ok l →
    (u.awaitTurn (u.hart.canon (u.hart.getS a)) 64 false).isOk = true →
    (∀ x ∈ u.hart.pend, x.op.writes = true → meets l.phys 64 x.addr x.size = false) →
    u.poison.contains (l.phys / 32) = false → u.poison.contains (l.phys / 32 + 1) = false →
    q ≤ 2047 → desc.dev = true → desc.en = true → u.ctxAsid pkg desc.ctx = u.hart.asid →
    ((desc.tail - desc.head).toNat = 2 ^ desc.log2 →
      exec (.glaunch d a b) s = .next (ranS u 4 d 0xFFFFFFFFFFFFFFFF 0)) ∧
    ((desc.tail - desc.head).toNat ≠ 2 ^ desc.log2 → fieldOf desc.ring 61 3 = 0 →
      pkgOf pkg (fieldOf desc.ring 53 8) = pkg → u.check u.hart u.hart.asid (desc.slot desc.tail) 64 .write .own = .ok l' →
      u.blockBase pkg 1 = some base →
      ∃ t, exec (.glaunch d a b) s = .next t ∧ t.hart = (ranS u 4 d (desc.tail.setWidth 64) 0).hart ∧
        t.mem = writeQuad (u.putQuads l'.phys ((readQuads u.mem l.phys 8).take 7 ++ [0])).mem
          (base + 16832 + 64 * q + 24) ((desc.tail + 1).setWidth 64) ∧
        (t.pack pkg).parents = (q, desc.tail, u.lineage u.hart) :: (u.pack pkg).parents ∧
        (t.pack pkg).launches = ⟨q, desc.tail, u.hart.ref, u.hart.csr.gangid, u.hart.seq⟩ :: (u.pack pkg).launches ∧
        t.others = u.others)

/-- R38, R41, R42, R44, R179 to R183: gtrig marks the hart and goes on; gwait answers 0, 1 or 2 for a record whose gang
has ended (STATE 4, 5 or 6), 1 for a number past TAIL, 3 where the slot has been reused, and else parks; gbar waits until every hart of the gang has
arrived, and the last lets all go on; gyield parks for 1,024 to 2,048 clocks; gexit, with nothing in flight, ends
the hart. -/
def gangInstructionsRule : Prop :=
  (∀ s : State, exec .gtrig s = .next (ran { s with hart := { s.hart with
    seq := s.hart.seq + 1, triggered := some (s.hart.triggered.getD (s.hart.seq + 1)) } } 4)) ∧
  (∀ (s : State) (d a b : SReg),
    let u := s.needS [d, a, b]
    let v := synced u .g
    let pkg := v.hart.pkg
    let q := (v.hart.getS a).toNat
    let n : Word := (v.hart.getS b).setWidth 32
    let desc := v.queueDesc pkg q
    SyncReady u .g → q ≤ 2047 → (v.blockBase pkg 1).isSome = true → v.ctxAsid pkg desc.ctx = v.hart.asid →
    let waits := Quiet v → exec (.gwait d a b) s = .next (parked v.drain (.gwait q n) d v.drain.hart.pc)
    (((n - desc.tail).toNat < 2 ^ 31 → exec (.gwait d a b) s = .next (ranS v 4 d 1 0)) ∧
     ((n - desc.tail).toNat ≥ 2 ^ 31 → (n - v.nextAccept pkg q).toNat < 2 ^ 31 → waits) ∧
     ((n - desc.tail).toNat ≥ 2 ^ 31 → (n - v.nextAccept pkg q).toNat ≥ 2 ^ 31 → ∀ st,
       v.recordMark pkg q n = some (n, st) →
         (st = 4 ∨ st = 5 ∨ st = 6 → exec (.gwait d a b) s = .next (ranS v 4 d (BitVec.ofNat 64 (st - 4)) 0)) ∧
         (st = 0 → exec (.gwait d a b) s = .next (ranS v 4 d 3 0)) ∧
         (st ≠ 0 → st ≠ 4 → st ≠ 5 → st ≠ 6 → waits)) ∧
     ((n - desc.tail).toNat ≥ 2 ^ 31 → (n - v.nextAccept pkg q).toNat ≥ 2 ^ 31 → ∀ m st, m ≠ n →
       v.recordMark pkg q n = some (m, st) → exec (.gwait d a b) s = .next (ranS v 4 d 3 0)))) ∧
  (∀ s : State, SyncReady s .g →
    let v := synced s .g
    let mine := fun (h : Hart) => h.pkg = v.hart.pkg ∧ h.csr.gangid = v.hart.csr.gangid
    let arrived := ∀ h ∈ v.others, mine h → h.atBarrier = true
    (¬arrived → exec .gbar s =
      .next { v with hart := { v.hart with atBarrier := true, status := .held .gangBarrier } }) ∧
    (arrived → ∃ t, exec .gbar s = .next t ∧ t.mem = v.mem ∧
      t.hart = { v.hart with status := .running, atBarrier := false, pc := v.hart.pc + 4 } ∧
      (∀ h ∈ t.others, mine h → h.atBarrier = false ∧ h.status = .running))) ∧
  (∀ s : State, Quiet s → ∃ n, 1024 ≤ n ∧ n ≤ 2048 ∧
    exec .gyield s = .next (parked s.drain (.gyield (s.drain.clock + n)) 0 (s.drain.hart.pc + 4)).drawn) ∧
  (∀ s : State, (∀ c ∈ s.hart.cmds, c.stopped = true) → s.remoteBusy 4 = false → s.hart.colls = [] →
    s.hart.queued = false → s.drain.hart.pend = [] → s.drain.hart.struck = false →
    exec .gexit s = .next s.drain.endHart ∧ s.drain.endHart.hart.status = .vacant ∧
    s.drain.endHart.mem = s.drain.mem)

/-- R178 to R183: launching, and the other gang instructions. -/
def Obligations.Gangs : Prop :=
  gangLaunchRule ∧ gangInstructionsRule


/-! ### Traps and level S -/

/-- R130, R327, R330, R332: the state after a trap is taken. The hart runs at S at tvec with its loads performed, its
taint sets empty and its vector queue frozen, in which no entry holds a tag; tpc is the address of the instruction, or the
one that the trap names, and tvpc that of a vector instruction or engine command that traps precisely, else the one
that the trap names; SPP and SAIE hold the level and AIE before; AIE and VOWN are 0; VDIRTY tells whether the queue held an
unfinished entry; the pending bit of an asynchronous cause is cleared; and the other supervisor registers stay. -/
def Obligations.TrapEntryState : Prop :=
  ∀ (s : State) (t : Trap),
    let h := s.hart
    let g := (s.takeTrap t).hart
    g.level = .s ∧ g.status = .running ∧ g.pc = h.sup.tvec ∧ g.sup.tpc = t.tpc.getD h.pc ∧
    g.sup.tcause.extractLsb' 0 8 = t.cause ∧ g.sup.tcause.getLsbD 9 = t.prec ∧ g.sup.tcause.getLsbD 10 = t.eng ∧
    g.sup.tinfo = t.tinfo ∧ g.sup.telem = t.telem ∧ g.sup.spp = h.level ∧
    g.sup.tvpc = (if t.prec = true ∧ namesVector h.ir = true then t.tpc.getD h.pc else t.tvpc) ∧
    g.sup.saie = h.sup.aie ∧ g.sup.aie = false ∧ g.sup.vown = false ∧
    (g.sup.vdirty = true ↔ g.frozen ≠ [] ∨ ∃ c ∈ h.cmds, Cmd.isDrain c = true) ∧
    g.sup.pend = h.sup.pend &&& ~~~(if t.cause = 0x20 then 1 else if t.cause = 0x21 then 2 else
      if t.cause = 0x22 then 4 else 0) ∧
    g.sup.tvec = h.sup.tvec ∧ g.sup.tsave = h.sup.tsave ∧ g.sup.asid = h.sup.asid ∧ g.sup.preempt = h.sup.preempt ∧
    g.sup.parkbase = h.sup.parkbase ∧ g.sup.snapseq = h.sup.snapseq ∧
    g.ct = 0 ∧ g.tagBusy = 0 ∧ (∀ r, g.taintOf r = 0) ∧ g.pend = [] ∧ g.colls = [] ∧
    h.frozen.length + h.colls.length ≤ g.frozen.length ∧
    (h.flights = [] → g.frozen.length = h.frozen.length + h.colls.length) ∧
    (∀ e ∈ g.frozen, e.tag = none ∧ e.env.ct = 0 ∧ ∀ i : Fin 64, e.env.vx[i] = 0) ∧
    (∀ c ∈ g.cmds, Cmd.isDrain c = true → c.stopped = true)

/-- R184, R325, R329, R336, R339: sys and brk trap (0x10, 0x11) with tpc at the instruction; sret returns to tpc at the
level of SPP with AIE from SAIE, lets frozen entries and stopped commands go on, gives waiting commands the interlock
entries that are free, and changes nothing else; to an odd tpc it traps (0x06) there. `u` is the state once the
handler's loads are performed (log entry 134). A hart whose trap came while it was parked waits for its quota again. -/
def systemCallAndReturnRule : Prop :=
  ∀ s : State,
    let u := s.drain
    let h := u.hart
    let g := h.takeEntries h.cmds.length
    exec .sys s = .next (s.takeTrap { cause := 0x10 }) ∧ exec .brk s = .next (s.takeTrap { cause := 0x11 }) ∧
    (s.hart.level = .s → h.struck = false → h.revoked = false → h.sup.tpc.getLsbD 0 = false →
      exec .sret s = .next { u with hart := { g with
        trapSeqs := g.trapSeqs.drop 1,
        level := g.sup.spp, pc := g.sup.tpc, sup := { g.sup with aie := g.sup.saie },
        cmds := g.cmds.map fun c => { c with stopped := false },
        thaw := decide (g.frozen ≠ []),
        noLanes := g.noLanes && decide (h.noLanes = false ∨ h.sup.spp = .s),
        status := if h.noLanes = true ∧ h.sup.spp = .u then .parked (.gyield 0) 0 (some 0) else .running } }) ∧
    (s.hart.level = .s → h.struck = false → h.revoked = false → h.sup.tpc.getLsbD 0 = true →
      exec .sret s = .next (u.takeTrap { cause := 0x06, tinfo := h.sup.tpc, tpc := some h.sup.tpc })) ∧
    (s.hart.level = .s → h.struck = false → h.revoked = true → (∀ c ∈ h.cmds, c.stopped = true) → u.remoteBusy 4 = false →
      h.colls = [] → h.queued = false → u.drain.hart.pend = [] → u.drain.hart.struck = false →
      exec .sret s = .next u.drain.endHart)

/-- R184, R325: each privileged instruction traps (0x03) at U with its own word in tinfo. -/
def privilegedInstructionsTrapAtURule : Prop :=
  ∀ (s : State) (d a b : SReg), s.hart.level = .u →
    ∀ i ∈ ([.sret, .vqsave d a, .vqrest d a, .vsave d a, .vrest d a, .hsave a, .hrest d a, .tlbinv d a b, .snap d a b,
            .pwait d a, .mwipe d a b] : List Instr),
    exec i s = .next (s.takeTrap { cause := 0x03, tinfo := s.hart.ir })

/-- R184, R325, R336, R337: system call, breakpoint, return from a trap, and privilege. -/
def Obligations.SystemCallReturnAndPrivilege : Prop :=
  systemCallAndReturnRule ∧ privilegedInstructionsTrapAtURule


/-- R337 to R340: saving and restoring a context at S, at an area that passes its checks. vqsave stops the hart's work,
writes its frame, empties the queue and answers its length; the vector registers of a hart that trapped while parked are
those of its park area; vsave and vrest answer 1 while the queue holds an entry or the area is of another
shape, and else write or load the vector state; hsave and hrest write and load the rest. A restoring form answers 1
where the area holds no frame of the hart. -/
def Obligations.ContextSaveAndRestore : Prop :=
  ∀ (s : State) (d a : SReg) (ps : List (Nat × Nat)), s.hart.level = .s →
    let u := (s.needS [d, a]).drain
    let v := (s.needS [a]).drain
    let w := ((s.needS [d, a]).mapHart fun h => h.freezeColls.dropTags).drain
    let g := w.hart
    let h := u.hart
    let bytes := 64 + 32768 * h.g + 57344 + 65536 * h.tiles.length
    let held := fun (k : AccKind) => if h.noLanes = true then u.parkPieces k else none
    (w.area (g.getS a) g.vqlen 64 .write .own = .ok ps → exec (.vqsave d a) s = .next (ranS
      { w.putArea ps (frameQuads w.serial g.vqlen) with
        serial := w.serial + 1,
        vqFrames := { id := w.serial, hart := g.ref, bytes := g.vqlen, seq := g.seq, interlock := g.interlock,
                      cmds := g.cmds.map fun c => { c with stopped := true, part := none },
                      frozen := g.frozen } :: w.vqFrames,
        hart := { g with interlock := [], cmds := [], frozen := [], thaw := false, owed := g.owed ++ g.owing } } 4 d
      (BitVec.ofNat 64 g.vqlen) 0)) ∧
    ((u.area (h.getS a) 64 64 .read .own).isOk = true →
      u.matchFrame (h.getS a) (u.vqFrames.map fun f => (f.id, f.bytes, f)) = .ok none →
      exec (.vqrest d a) s = .next (ranS u 4 d 1 0)) ∧
    (∀ f, (u.area (h.getS a) 64 64 .read .own).isOk = true → u.matchFrame (h.getS a) (u.vqFrames.map fun f => (f.id, f.bytes, f)) = .ok (some f) →
      (f.hart ≠ h.ref ∨ h.queueBusy = true → exec (.vqrest d a) s = .next (ranS u 4 d 1 0)) ∧
      (f.hart = h.ref → h.queueBusy = false → exec (.vqrest d a) s =
        .next (ranS { u with hart := h.loadFrame { f with interlock := u.liveEntries f } u.free, free := u.free + 1 } 4 d 0 0))) ∧
    (u.area (h.getS a) bytes 64 .write .own = .ok ps →
      (h.queueBusy = true → exec (.vsave d a) s = .next (ranS u 4 d 1 0)) ∧
      (h.queueBusy = false → exec (.vsave d a) s = .next (ranS
        { u.putArea ps (match held .read with
            | some park => u.getArea park
            | none => h.saveArea fun i => Config.value (u.free + i)) with
          free := u.free + 8192, hart := { h with sup := { h.sup with vown := true } } } 4 d 0 0))) ∧
    (u.area (h.getS a) bytes 64 .read .own = .ok ps →
      let qs := u.getArea ps
      (headKey (qs.getD 0 0) ≠ headKey h.saveHead → exec (.vrest d a) s = .next (ranS u 4 d 1 0)) ∧
      (headKey (qs.getD 0 0) = headKey h.saveHead → held .write = none → exec (.vrest d a) s = .next (ranS
        { u with hart := h.loadArea qs (Config.value u.free), free := u.free + 1 } 4 d 0 0)) ∧
      (headKey (qs.getD 0 0) = headKey h.saveHead → ∀ park, held .write = some park →
        exec (.vrest d a) s = .next (ranS
          { u.putArea park qs with hart := { h with sup := { h.sup with vown := false } } } 4 d 0 0))) ∧
    (v.area (v.hart.getS a) 4096 64 .write .own = .ok ps → exec (.hsave a) s = .next (ran
      { v.putArea ps (frameQuads v.serial 4096) with
        serial := v.serial + 1,
        hFrames := { id := v.serial, hart := v.hart.ref, q := v.hart.q, f := v.hart.f, k := v.hart.k, csr := v.hart.csr,
                     joined := v.hart.joined, windows := v.hart.windows, records := v.hart.records } :: v.hFrames } 4)) ∧
    (u.area (h.getS a) 4096 64 .read .own = .ok ps →
      (u.matchFrame (h.getS a) (u.hFrames.map fun f => (f.id, 4096, f)) = .ok none →
        exec (.hrest d a) s = .next (ranS u 4 d 1 0)) ∧
      (∀ f, u.matchFrame (h.getS a) (u.hFrames.map fun f => (f.id, 4096, f)) = .ok (some f) →
        (f.hart ≠ h.ref → exec (.hrest d a) s = .next (ranS u 4 d 1 0)) ∧
        (f.hart = h.ref → exec (.hrest d a) s = .next (ranS { u with hart := h.loadHFrame f } 4 d 0 0))))

/-- R342, R344 to R346, R359: the other instructions of level S. tlbinv asks for a shoot-down and completes with its number
once it is acknowledged, and what a trap left behind is no request of it; snap writes the record of a port and answers the remap number; pwait answers the pending
cause, or releases the vector quota and waits; mwipe makes its range zero, but for what an Access column keeps (R4), and answers its length. -/
def Obligations.SupervisorInstructions : Prop :=
  ∀ (s : State) (d a b : SReg), s.hart.level = .s →
    let u := s.needS [d, a, b]
    let h := u.hart
    let v := u.drain
    let w := s.needS [d, a]
    let p := u.pack h.pkg
    let asid := if (h.getS a).getLsbD 63 then none else some ((h.getS a).setWidth 16)
    let off := if h.getS b = BitVec.allOnes 64 then none else some (h.getS b).toNat
    let mine := p.shoots.find? fun x => x.hart == h.ref && x.asid == asid && x.offset == off && !x.orphan
    (mine = none → exec (.tlbinv d a b) s = .next { u.setPack
        { p with shoots := p.shoots ++ [{ hart := h.ref, asid := asid, offset := off }] } with
      hart := { h with status := .held .shootdown } }) ∧
    (∀ x, mine = some x → x.acked = true → exec (.tlbinv d a b) s =
      .next (ranS (u.setPack { p with shoots := p.shoots.erase x }) 4 d ((x.ran.getD 0).setWidth 64) 0)) ∧
    (∀ ps, (v.hart.getS a).toNat ≤ 39 → v.area (v.hart.getS b) 512 8 .write .any = .ok ps →
      let p := v.pack v.hart.pkg
      (∀ c ∈ p.colours, c.remapping = false) → exec (.snap d a b) s = .next (ranS
        { v.putArea ps (p.snapRecord (v.hart.getS a).toNat (Config.mucenClock (v.clock - p.resetClock)) fun i =>
            Config.value (v.free + i)) with
          free := v.free + 52,
          hart := { v.hart with sup := { v.hart.sup with snapseq := p.remapSeq.setWidth 64 } } }
        4 d (p.remapSeq.setWidth 64) 0)) ∧
    ((w.hart.getS a).getLsbD 0 = false → w.hart.sup.pend ≠ 0 → exec (.pwait d a) s = .next (ranS w 4 d
      (if w.hart.sup.pend.getLsbD 0 then 0x20 else if w.hart.sup.pend.getLsbD 1 then 0x21 else 0x22) 0)) ∧
    ((w.hart.getS a).getLsbD 0 = true →
      let busy := w.hart.queueBusy = true ∨ ∃ c ∈ w.hart.cmds, c.stopped = false
      (busy → exec (.pwait d a) s = .next (ranS w 4 d 1 0)) ∧
      (¬busy → exec (.pwait d a) s = .next { w.drain with hart := { w.drain.hart.wipeVectors with
        tmask := 0, csr := { w.drain.hart.csr with lgrp := 0 }, graceEnd := none,
        status := .parked .released d none, pc := w.hart.pc + 4 } })) ∧
    (SyncReady u .g →
      let v := synced u .g
      let lo := (v.hart.getS a).toNat
      let n := (v.hart.getS b).toNat
      lo % 65536 = 0 → n % 65536 = 0 → n ≤ 2 ^ 30 → (v.awaitTurn (v.hart.canon (v.hart.getS a)) n true).isOk = true →
      ∀ ps, v.wipePieces ((List.range (n / 65536)).map fun i => lo + 65536 * i) = .ok ps →
        ∃ t, exec (.mwipe d a b) s = .next t ∧ t.hart = (ranS v 4 d (BitVec.ofNat 64 n) 0).hart ∧
          ((∀ p ∈ ps, p.2 = false) → Sound v → ∀ x,
            ((∃ p ∈ ps, p.1 ≤ x ∧ x < p.1 + 65536) → v.fieldsAt x = Fields.all → readByte t.mem x = 0) ∧
            ((∀ p ∈ ps, (x < p.1 ∨ p.1 + 65536 ≤ x) ∧ ∀ d ∈ v.tailsIn p.1 65536, x ≠ d + 32) →
              readByte t.mem x = readByte v.mem x)))

/-- R38, R39, R45, R182, R332 to R334, R342: the steps of a hart that no instruction names. A pending asynchronous cause
is taken in the order 0x21, 0x22, 0x20, at U always and at S while AIE is 1, but not while one of mwipe, vqsave, vqrest,
vsave, vrest, hsave and hrest waits to complete; a held hart looks at its wait again, one of those
instructions in its own turns; a
woken hart goes on with its code, with the registers of its park area, when its whole quota is free, and a hart in waita that nothing has woken may do so with
code 2; and the period of gyield ends. -/
def Obligations.HartEvents : Prop :=
  ∀ (s : State) (r : HartRef),
    let p := s.hart.sup.pend
    let cause : Option Byte := if s.hart.uninterrupted = true ∨ (s.hart.level = .s ∧ s.hart.sup.aie = false) then none
      else if p.getLsbD 1 then some 0x21 else if p.getLsbD 2 then some 0x22 else if p.getLsbD 0 then some 0x20 else none
    (s.hart.ref = r → (s.hart.status = .running ∨ ∃ w, s.hart.status = .held w) →
      exec (.trapEntry r) s = .next (match cause with
        | none => s
        | some c => s.asyncTrap c)) ∧
    exec (.issueWaitEnd r) s = .next (s.onHart r fun h => match h.status with
      | .held _ => if h.uninterrupted then h else { h with status := .running }
      | _ => h) ∧
    (∀ h, s.findHart r = some h → (∀ line d, h.status ≠ .parked (.waita line) d none) →
      (s.quotaFree h = true → exec (.hartResume r) s = .next (s.withHart r fun t => match t.hart.status with
        | .parked (.waita _) _ (some _) | .parked (.gwait ..) _ (some _) | .parked (.gyield _) _ (some _) =>
          t.emptyPark.mapHart Hart.resume
        | _ => t)) ∧
      (s.quotaFree h = false → exec (.hartResume r) s = .next s)) ∧
    (∀ h line d, s.findHart r = some h → h.status = .parked (.waita line) d none →
      exec (.hartResume r) s = .next (if Config.choice s.free then
        (({ s with waiters := s.waiters.filter (·.hart != r), free := s.free + 1 } : State).onHart r (Hart.wake 2)).goOn r
        else { s with free := s.free + 1 })) ∧
    (∀ (h : Hart) (t : Nat) (d : SReg) (c : Quad), h.status = .parked (.gyield t) d (some c) →
      h.resume.status = .running ∧ h.resume.pc = h.pc ∧ (d ≠ 0#5 → h.resume.getS d = c)) ∧
    (∀ (h : Hart) (q : Nat) (n : Word) (d : SReg) (c : Quad), h.status = .parked (.gwait q n) d (some c) →
      h.resume.status = .running ∧ h.resume.pc = h.pc + 4 ∧ (d ≠ 0#5 → h.resume.getS d = c)) ∧
    exec (.gyieldExpiry r) s = .next (s.onHart r fun h => match h.status with
      | .parked (.gyield t) d none => if t ≤ s.clock then { h with status := .parked (.gyield t) d (some 0) } else h
      | _ => h)

/-! ### Vector instructions -/

/-- The binary forms: instruction, compact form, whether it takes F tags, whether rm counts, and F(i) (R198). The
compact forms have vd = va = vlast and no saturation. -/
def binTable : List ((VBin → Instr) × (VReg → MReg → Instr) × Bool × Bool × (Tag → Rnd → Bool → Quad → Quad → FRes)) :=
  let exact := fun (f : Int → Int → Int) (t : Tag) (sat : Bool) (x y : Quad) => (t.ofInt sat (f (t.int x) (t.int y)), (0 : FFlags))
  let either := fun (ff : FF → Rnd → Bool → Quad → Quad → FRes) (f : Int → Int → Int) (t : Tag) (r : Rnd) (sat : Bool)
      (x y : Quad) => if t.isF then ff t.ff r sat x y else exact f t sat x y
  [(.vadd, .cVadd, true, true, either FF.add (· + ·)), (.vsub, .cVsub, true, true, either FF.sub (· - ·)),
   (.vmul, .cVmul, true, true, either FF.mul (· * ·)),
   (.vmulh, .cVmulh, false, false, fun t _ _ => exact (fun x y => x * y / 2 ^ t.bits) t false),
   (.vdiv, .cVdiv, true, true, fun t r sat x y => if t.isF then t.ff.div r sat x y else (t.ofInt sat (divInt t x y), 0)),
   (.vrem, .cVrem, false, false, fun t _ _ x y => (t.ofInt false (remInt t x y), 0)),
   (.vmin, .cVmin, true, false, fun t _ _ x y =>
     if t.isF then t.ff.minmax false x y else (if t.int x ≤ t.int y then x else y, 0)),
   (.vmax, .cVmax, true, false, fun t _ _ x y =>
     if t.isF then t.ff.minmax true x y else (if t.int x ≤ t.int y then y else x, 0)),
   (.vand, .cVand, false, false, fun _ _ _ x y => (x &&& y, 0)), (.vor, .cVor, false, false, fun _ _ _ x y => (x ||| y, 0)),
   (.vxor, .cVxor, false, false, fun _ _ _ x y => (x ^^^ y, 0))]

/-- R153, R185 to R188, R198: the binary forms on tags they accept. Each active element takes F of the elements of va and
vb (or of the low bits of an s register, R187), the tag is that of va, and the taint is that of the sources. The
compact forms do the same to vlast and take two bytes. -/
def vectorBinaryRule : Prop :=
  ∀ (s : State) (o : VBin) (vx : VReg) (m : MReg), ∀ p ∈ binTable,
    let c : VBin := ⟨s.hart.csr.vlast, s.hart.csr.vlast, .v vx, ⟨m, false⟩, .dyn, false⟩
    let runs := fun (i : Instr) (n : Nat) (o : VBin) =>
      let t := s.hart.tagOf o.va
      let vs := o.vd :: o.va :: vsrcVregs o.vb
      let u := complete s vs (vsrcSregs o.vb)
      let h := u.hart
      VectorReady s vs (vsrcSregs o.vb) → (t.wide = true → s.hart.csr.w64 = true) →
      (t.isF = true → p.2.2.1 = true) → (∀ r, o.vb = .v r → s.hart.tagOf r = t) →
      ∀ r, (if p.2.2.2.1 && t.isF then o.rm.resolve s.hart.csr.frm else some .rne) = some r →
        let a := h.elems o.va t h.csr.vl.toNat
        let b := h.srcElem o.vb t h.csr.vl.toNat
        exec i s = .next (ranV s u n (h.elementwise o.vd t o.mask (fun i => p.2.2.2.2 t r o.sat (a.getD i 0) (b i))
          (h.taintV o.va ||| h.taintSrc o.vb)))
    runs (p.1 o) 8 o ∧ runs (p.2.1 vx m) 2 c

/-- The shifts: instruction, compact form and F on an element and a count below its width (R199). -/
def shiftTable : List ((VBin → Instr) × (VReg → MReg → Instr) × (Tag → Quad → Nat → Quad)) :=
  [(.vsll, .cVsll, fun t x n => if t.wide then x <<< n else ((x.setWidth 32) <<< n).setWidth 64),
   (.vsrl, .cVsrl, fun t x n => if t.wide then x >>> n else ((x.setWidth 32) >>> n).setWidth 64),
   (.vsra, .cVsra, fun t x n => if t.wide then x.sshiftRight n else ((x.setWidth 32).sshiftRight n).setWidth 64)]

/-- R153, R199: the shifts on N and I tags. The count is the element of vb at its own width, modulo the width of va's
tag; vsra copies the top bit whatever the tag says of the sign. -/
def vectorShiftsRule : Prop :=
  ∀ (s : State) (o : VBin) (vx : VReg) (m : MReg), ∀ p ∈ shiftTable,
    let c : VBin := ⟨s.hart.csr.vlast, s.hart.csr.vlast, .v vx, ⟨m, false⟩, .dyn, false⟩
    let runs := fun (i : Instr) (n : Nat) (o : VBin) =>
      let t := s.hart.tagOf o.va
      let vs := o.vd :: o.va :: vsrcVregs o.vb
      let u := complete s vs (vsrcSregs o.vb)
      let h := u.hart
      VectorReady s vs (vsrcSregs o.vb) → (t.wide = true → s.hart.csr.w64 = true) →
      t.isF = false → (∀ r, o.vb = .v r → (s.hart.tagOf r).isF = false) →
        let a := h.elems o.va t h.csr.vl.toNat
        let b := h.srcElem o.vb (match o.vb with | .v r => h.tagOf r | .s _ => t) h.csr.vl.toNat
        exec i s = .next (ranV s u n (h.elementwise o.vd t o.mask
          (fun i => (p.2.2 t (a.getD i 0) ((b i).toNat % (if t.wide then 64 else 32)), 0))
          (h.taintV o.va ||| h.taintSrc o.vb)))
    runs (p.1 o) 8 o ∧ runs (p.2.1 vx m) 2 c

/-- R198, R199: the binary instructions and the shifts. -/
def Obligations.VectorBinaryAndShifts : Prop :=
  vectorBinaryRule ∧ vectorShiftsRule


/-- The unary forms: instruction, tags it takes (some true: F, some false: N and I, none: all), whether rm counts, the
tag of its result, and F(i) (R200, R202, R203). -/
def unTable : List ((VUn → Instr) × Option Bool × Bool × (Tag → Tag) × (Tag → Rnd → Bool → Quad → FRes)) :=
  let special := fun (f : FF → Rnd → Bool → Quad → FRes) (t : Tag) => f t.ff
  [(.vpopc, some false, false, id, fun t _ _ x =>
     (BitVec.ofNat 64 ((List.range t.bits).countP fun i => x.getLsbD i), 0)),
   (.vclz, some false, false, id, fun t _ _ x =>
     (BitVec.ofNat 64 ((List.range t.bits).takeWhile fun i => !x.getLsbD (t.bits - 1 - i)).length, 0)),
   (.vabs, none, false, id, fun t _ sat x =>
     if t.isF then (if t.wide then x &&& 0x7FFFFFFFFFFFFFFF else x &&& 0x7FFFFFFF, 0)
     else (t.ofInt sat (if t.int x < 0 then -t.int x else t.int x), 0)),
   (.vneg, none, false, id, fun t _ sat x =>
     if t.isF then (if t.wide then x ^^^ 0x8000000000000000 else (x ^^^ 0x80000000) &&& 0xFFFFFFFF, 0)
     else (t.ofInt sat (-t.int x), 0)),
   (.vsqrt, some true, true, id, special FF.sqrt), (.vrcp, some true, true, id, special FF.rcp),
   (.vrsqrt, some true, true, id, special FF.rsqrt), (.vexp2, some true, true, id, special FF.exp2),
   (.vlog2, some true, true, id, special FF.log2),
   (.vclass, some true, false, fun t => if t.wide then .n64 else .n32, fun t _ _ x => (t.ff.classWord x, 0))]

/-- R200 to R204: the unary and fused forms and vcvt on tags they accept. -/
def Obligations.VectorUnaryAndFused : Prop :=
  (∀ (s : State) (o : VUn), ∀ p ∈ unTable,
    let t := s.hart.tagOf o.va
    let u := complete s [o.vd, o.va] []
    let h := u.hart
    VectorReady s [o.vd, o.va] → (∀ b, p.2.1 = some b → t.isF = b) → (t.wide = true → s.hart.csr.w64 = true) →
    ∀ r, (if p.2.2.1 && t.isF then o.rm.resolve s.hart.csr.frm else some .rne) = some r →
      let a := h.elems o.va t h.csr.vl.toNat
      exec (p.1 o) s = .next (ranV s u 8 (h.elementwise o.vd (p.2.2.2.1 t) o.mask
        (fun i => p.2.2.2.2 t r o.sat (a.getD i 0)) (h.taintV o.va)))) ∧
  (∀ (s : State) (to_ : Tag) (o : VUn),
    let t := s.hart.tagOf o.va
    let u := complete s [o.vd, o.va] []
    let h := u.hart
    VectorReady s [o.vd, o.va] → (to_.wide = true → s.hart.csr.w64 = true) →
    ∀ r, (if (t.isF || to_.isF) && t != to_ then o.rm.resolve s.hart.csr.frm else some .rne) = some r →
      let a := h.elems o.va t h.csr.vl.toNat
      exec (.vcvt to_ o) s = .next (ranV s u 8 (h.elementwise o.vd to_ o.mask
        (fun i => convertTag t to_ r o.sat (a.getD i 0)) (h.taintV o.va)))) ∧
  (∀ (s : State) (o : VTern),
    let t := s.hart.tagOf o.va
    let u := complete s [o.vd, o.va, o.vb, o.vc] []
    let h := u.hart
    VectorReady s [o.vd, o.va, o.vb, o.vc] → (t.wide = true → s.hart.csr.w64 = true) → t.isF = true → s.hart.tagOf o.vb = t → s.hart.tagOf o.vc = t →
    ∀ r, o.rm.resolve s.hart.csr.frm = some r →
      let n := h.csr.vl.toNat
      let after := fun (negC negSum : Bool) => ranV s u 8 (h.elementwise o.vd t o.mask
        (fun i => t.ff.fma r o.sat negC negSum ((h.elems o.va t n).getD i 0) ((h.elems o.vb t n).getD i 0)
          ((h.elems o.vc t n).getD i 0)) (h.taintV o.va ||| h.taintV o.vb ||| h.taintV o.vc))
      exec (.vfma o) s = .next (after false false) ∧ exec (.vfms o) s = .next (after true false) ∧
      exec (.vnfma o) s = .next (after false true))

/-- R203: vclass. On an F tag each active element becomes the class word of fclass; the result tag is N of the same
width; no flag is raised; and another tag traps (0x04). -/
def Obligations.VectorClassify : Prop :=
  ∀ (s : State) (o : VUn),
    let t := s.hart.tagOf o.va
    let u := complete s [o.vd, o.va] []
    let h := u.hart
    (∃ w, encode (.vclass o) = some (.w64 w) ∧ w.extractLsb' 0 7 = 0x73#7 ∧ w.extractLsb' 7 6 = 0x13#6 ∧
      w.extractLsb' 13 6 = o.vd ∧ w.extractLsb' 19 6 = o.va) ∧
    (VectorReady s [o.vd, o.va] → (t.wide = true → s.hart.csr.w64 = true) →
      (t.isF = true →
        let a := h.elems o.va t h.csr.vl.toNat
        let after := h.elementwise o.vd (if t.wide then .n64 else .n32) o.mask (fun i => (t.ff.classWord (a.getD i 0), 0))
          (h.taintV o.va)
        exec (.vclass o) s = .next (ranV s u 8 after) ∧ after.csr.fflags = h.csr.fflags) ∧
      (t.isF = false → exec (.vclass o) s = .next (s.takeTrap { cause := 0x04, tinfo := s.hart.ir })))

/-- R34, R36, R69, R185: what an element-wise result leaves in its destination, where the tag fits the registers. Elements
that the instruction has executed before, if it resumes, stay; of the others: F where active,
zero or the old element where inactive, by MP; zero or the old element in the tail, by TP; the tag; vlast; only
active elements raise flags; and no register outside the group changes. -/
def Obligations.ElementwiseWrites : Prop :=
  ∀ (h : Hart) (vd : VReg) (t : Tag) (mask : MaskOp) (f : Nat → FRes) (src : TaintSet),
    h.regOk vd = true → (t.wide = true → h.csr.w64 = true) →
    (∀ i, t.wide = false → (f i).1.toNat < 2 ^ 32) →
    let g := h.elementwise vd t mask f src
    let n := h.csr.vl.toNat
    (∀ i, i < h.csr.vlmax.toNat * 2 ^ h.csr.gl.toNat →
      let old := elemAt (padTo (h.regWords * h.group) (h.groupData vd)) t.wide i
      elemAt (g.groupData vd) t.wide i =
        if h.doneElems.getLsbD i then old
        else if i < n then (if h.active mask i then (f i).1 else if h.csr.mp then 0 else old)
        else if h.csr.tp then 0 else old) ∧
    g.tagOf vd = t ∧ g.csr.vlast = vd ∧
    g.taintV vd = src ||| h.taintM mask.m ||| (if (!h.csr.mp && mask.m != 0) || !h.csr.tp then h.taintV vd else 0) ∧
    (∀ r : VReg, (r.toNat < vd.toNat ∨ vd.toNat + 2 ^ h.csr.gl.toNat ≤ r.toNat) → g.v[r.toNat] = h.v[r.toNat]) ∧
    (∀ b, b < 5 → g.csr.fflags.getLsbD b =
      (h.csr.fflags.getLsbD b || (List.range n).any fun i =>
        h.active mask i && !h.doneElems.getLsbD i && (f i).2.getLsbD b)) ∧
    g.s = h.s ∧ g.m = h.m ∧ g.pc = h.pc

/-- R206: vsel. The mask field selects between va and vb for every body element, m0 selecting va; MP does not apply and
the tail follows TP; the tag is that of both; sources of two tags trap (0x04). -/
def Obligations.VectorSelect : Prop :=
  ∀ (s : State) (vd va vb : VReg) (mask : MaskOp),
    let t := s.hart.tagOf va
    let u := complete s [vd, va, vb] []
    let h := u.hart
    let n := h.csr.vl.toNat
    let most := h.csr.vlmax.toNat * 2 ^ h.csr.gl.toNat
    (∃ w, encode (.vsel vd va vb mask) = some (.w64 w) ∧ w.extractLsb' 0 7 = 0x73#7 ∧ w.extractLsb' 7 6 = 0x16#6 ∧
      w.extractLsb' 13 6 = vd ∧ w.extractLsb' 19 6 = va ∧ w.extractLsb' 25 6 = vb ∧ w.extractLsb' 37 3 = mask.m ∧
      w.getLsbD 40 = mask.comp) ∧
    (VectorReady s [vd, va, vb] → (t.wide = true → s.hart.csr.w64 = true) →
      (s.hart.tagOf vb ≠ t → exec (.vsel vd va vb mask) s = .next (s.takeTrap { cause := 0x04, tinfo := s.hart.ir })) ∧
      (s.hart.tagOf vb = t → ∃ g, exec (.vsel vd va vb mask) s = .next (ranV s u 8 g) ∧ g.tagOf vd = t ∧
        g = { h with v := g.v, csr := { h.csr with vlast := vd } } ∧
        (∀ r : VReg, (r.toNat < vd.toNat ∨ vd.toNat + 2 ^ h.csr.gl.toNat ≤ r.toNat) → g.v[r.toNat] = h.v[r.toNat]) ∧
        ((t.wide = true → h.csr.w64 = true) → ∀ i, i < most →
          let read := fun (h : Hart) (r : VReg) => elemAt (padTo (h.regWords * h.group) (h.groupData r)) t.wide i
          read g vd = if h.doneElems.getLsbD i then read h vd
            else if i < n then (if (mask.m = 0#3 ∨ h.m[mask.m.toNat].bits.getLsbD i = true) ↔ mask.comp = false
              then read h va else read h vb)
            else if h.csr.tp then 0 else read h vd)))

/-- The mask logic instructions and their functions (R207). -/
def logicTable : List ((MReg → MReg → MReg → Instr) × (Bool → Bool → Bool)) :=
  [(.mand, fun x y => x && y), (.mor, fun x y => x || y), (.mxor, fun x y => x ^^ y), (.mandn, fun x y => x && !y)]

/-- R49, R189, R205, R207, R209: the instructions that write a mask register. Comparisons and mfromx write body bits as
R185 does; the logic instructions write every body bit; bits at or beyond vl stay, and at vl = 0 the register stays;
mtolist and mtobit copy a mask into a form, mtolist setting vstat bit 4 when more than 4,096 bits are true. -/
def maskInstructionsRule : Prop :=
  (∀ (s : State) (md ma mb : MReg), VectorReady s [] →
    let h := s.hart
    (∀ p ∈ logicTable, exec (p.1 md ma mb) s = .next (ranV s s 8 (h.writeMask md ⟨0, false⟩
      (fun i => p.2 (h.maskBit ma i) (h.maskBit mb i)) (h.taintM ma ||| h.taintM mb)))) ∧
    exec (.mnot md ma) s =
      .next (ranV s s 8 (h.writeMask md ⟨0, false⟩ (fun i => !h.maskBit ma i) (h.taintM ma))) ∧
    (let all : BitVec 65536 := BitVec.ofNat 65536 (2 ^ (h.csr.vlmax.toNat * 2 ^ h.csr.gl.toNat) - 1)
     let bits := (if ma = 0 then BitVec.allOnes 65536 else h.m[ma.toNat].bits)
     let whole := if ma = 0 then all else bits
     exec (.mtobit md ma) s = .next (ranV s s 8 { h with m := h.m.set md.toNat ⟨whole, false, h.taintM ma⟩ }) ∧
     exec (.mtolist md ma) s = .next (ranV s s 8
       (if 4096 < popCount (bits &&& all).toNat (h.csr.vlmax.toNat * 2 ^ h.csr.gl.toNat) then
         { h with m := h.m.set md.toNat ⟨whole, false, h.taintM ma⟩, csr := { h.csr with vstat := h.csr.vstat ||| 0x10 } }
        else { h with m := h.m.set md.toNat ⟨bits &&& all, true, h.taintM ma⟩ })))) ∧
  (∀ (s : State) (c : CmpCond) (md : MReg) (va : VReg) (vb : VSrc) (mask : MaskOp),
    let t := s.hart.tagOf va
    let u := complete s (va :: vsrcVregs vb) (vsrcSregs vb)
    let h := u.hart
    let n := h.csr.vl.toNat
    let x := fun i => (h.elems va t n).getD i 0
    let y := h.srcElem vb t n
    let r := fun i => if t.isF then t.ff.cmp c (x i) (y i) else
      (match c with
        | .eq => decide (t.int (x i) = t.int (y i)) | .ne => decide (t.int (x i) ≠ t.int (y i))
        | .lt => decide (t.int (x i) < t.int (y i)) | .ge => decide (t.int (x i) ≥ t.int (y i))
        | .le => decide (t.int (x i) ≤ t.int (y i)) | .gt => decide (t.int (x i) > t.int (y i)) | .uo => false, 0)
    VectorReady s (va :: vsrcVregs vb) (vsrcSregs vb) → (t.wide = true → s.hart.csr.w64 = true) →
      (∀ r, vb = .v r → s.hart.tagOf r = t) →
      exec (.vcmp c md va vb mask) s = .next (ranV s u 8 ((h.writeMask md mask (fun i => (r i).1)
        (h.taintV va ||| h.taintSrc vb)).addFlags
          ((List.range n).foldl (fun acc i =>
            if h.active mask i && !h.doneElems.getLsbD i then acc ||| (r i).2 else acc) 0)))) ∧
  (∀ (s : State) (md : MReg) (va : VReg) (mask : MaskOp), VectorReady s [va] →
    ((s.hart.tagOf va).wide = true → s.hart.csr.w64 = true) →
    let u := complete s [va] []
    let h := u.hart
    exec (.mfromx md va mask) s = .next (ranV s u 8 (h.writeMask md mask
      (fun i => (h.elems va (h.tagOf va) h.csr.vl.toNat).getD i 0 != 0) (h.taintV va))))

/-- R49, R125, R189: what a mask destination holds after it is written; the bits of elements that the instruction has
executed before, if it resumes, stay. -/
def maskWritesRule : Prop :=
  ∀ (h : Hart) (md : MReg) (mask : MaskOp) (f : Nat → Bool) (t : TaintSet),
    let g := h.writeMask md mask f t
    let n := h.csr.vl.toNat
    (n = 0 → g = h) ∧
    (0 < n → g.m[md.toNat].list = false ∧
      (∀ i, i < 65536 → g.m[md.toNat].bits.getLsbD i =
        if i < n then
          (if h.doneElems.getLsbD i then h.m[md.toNat].bits.getLsbD i
           else if (mask.m = 0#3 ∨ h.m[mask.m.toNat].bits.getLsbD i = true) ↔ mask.comp = false then f i
           else if h.csr.mp then false else h.m[md.toNat].bits.getLsbD i)
        else h.m[md.toNat].bits.getLsbD i) ∧
      g.m[md.toNat].taint = t ||| h.taintM mask.m |||
        (if (h.csr.mp = false ∧ mask.m ≠ 0#3) ∨ h.csr.tp = false then h.m[md.toNat].taint else 0) ∧
      (∀ m : MReg, m ≠ md → g.m[m.toNat] = h.m[m.toNat]) ∧ g.v = h.v ∧ g.s = h.s ∧ g.csr = h.csr)

/-- R49, R125, R189, R190, R207: mask instructions, and what a write of a mask leaves. -/
def Obligations.Masks : Prop :=
  maskInstructionsRule ∧ maskWritesRule


/-- R190, R195 to R197, R208: mpop and mfirst count the set of true active body bits and name its first; vidx, vsplat and
vmv are element-wise; vtag copies every container under another tag; vmvx reads an element into an s register, 0
beyond the group, sign-extended for I32; vmvs writes element 0. -/
def Obligations.VectorMoves : Prop :=
  ∀ (s : State) (sd sa sb : SReg) (vd va : VReg) (ma : MReg) (mask : MaskOp) (start : BitVec 12) (stp : BitVec 8) (t : Tag),
    (VectorReady s [] →
      let u := s.needS [sd]
      let h := u.hart
      let set := (List.range h.csr.vl.toNat).filter fun i => h.maskBit ma i && h.active mask i
      let after := fun (x : Quad) => ranV s u 8 (h.setS sd x (h.taintM ma ||| h.taintM mask.m))
      exec (.mpop sd ma mask) s = .next (after (BitVec.ofNat 64 set.length)) ∧
      exec (.mfirst sd ma mask) s =
        .next (after (if set = [] then BitVec.allOnes 64 else BitVec.ofNat 64 (set.headD 0)))) ∧
    (VectorReady s [vd] [sa] → Complete s [vd] [] →
      let u := complete s [vd] []
      let w := complete s [vd] [sa]
      let x := w.hart.getS sa
      let tv := w.hart.tagOf vd
      let live := w.hart.csr.vl ≠ 0
      exec (.vidx vd start stp mask) s = .next (ranV s u 8 (u.hart.elementwise vd .i32 mask
        (fun i => ((start.signExtend 32 + BitVec.ofNat 32 i * stp.signExtend 32).setWidth 64, 0)) 0)) ∧
      ((tv.wide = true → s.hart.csr.w64 = true) → exec (.vsplat vd sa mask) s = .next (ranV s w 8 (w.hart.elementwise vd tv mask
        (fun _ => (if tv.wide then x else x &&& 0xFFFFFFFF, 0)) (w.hart.taintS sa)))) ∧
      (∃ g, exec (.vmvs vd sa mask) s = .next (ranV s w 8 g) ∧ g.tagOf vd = tv ∧
        g = { w.hart with v := g.v, csr := { w.hart.csr with vlast := vd } } ∧
        (∀ r : VReg, r ≠ vd → g.v[r.toNat] = w.hart.v[r.toNat]) ∧
        (¬live → ∀ i : Fin 64, g.v[i].data = w.hart.v[i].data ∧ g.v[i].tag = w.hart.v[i].tag) ∧
        g.taintV vd = w.hart.taintV vd ||| w.hart.taintS sa ||| w.hart.taintM mask.m ∧
        (w.hart.csr.gl = 0 → w.hart.csr.vlmax ≠ 0 → (tv.wide = true → w.hart.csr.w64 = true) →
          (∀ i, 0 < i → elemAt g.v[vd.toNat].data tv.wide i = elemAt w.hart.v[vd.toNat].data tv.wide i) ∧
          (live → w.hart.active mask 0 = true →
            elemAt g.v[vd.toNat].data tv.wide 0 = if tv.wide then x else x &&& 0xFFFFFFFF)))) ∧
    (VectorReady s [vd, va] →
      let u := complete s [vd, va] []
      let h := u.hart
      (((s.hart.tagOf va).wide = true → s.hart.csr.w64 = true) →
        exec (.vmv vd va mask) s = .next (ranV s u 8 (h.elementwise vd (h.tagOf va) mask
          (fun i => ((h.elems va (h.tagOf va) h.csr.vl.toNat).getD i 0, 0)) (h.taintV va)))) ∧
      ((t.wide = true → s.hart.csr.w64 = true) → ∃ g, exec (.vtag t vd va) s = .next (ranV s u 8 g) ∧ g.tagOf vd = t ∧
        g.taintV vd = h.taintV va ∧ g = { h with v := g.v, csr := { h.csr with vlast := vd } } ∧
        (h.csr.gl = 0 → g.v[vd.toNat].data = h.v[va.toNat].data) ∧
        (∀ r : VReg, (r.toNat < vd.toNat ∨ vd.toNat + 2 ^ h.csr.gl.toNat ≤ r.toNat) → g.v[r.toNat] = h.v[r.toNat]))) ∧
    (VectorReady s [va] [sd, sb] →
      let u := complete s [va] [sd, sb]
      let h := u.hart
      let j := (h.getS sb).toNat
      let x := if h.csr.vlmax.toNat * 2 ^ h.csr.gl.toNat ≤ j then 0 else elemAt (h.groupData va) (h.tagOf va).wide j
      exec (.vmvx sd va sb) s = .next (ranV s u 8 (h.setS sd
        (if h.tagOf va = .i32 then (x.setWidth 32).signExtend 64 else x) (h.taintV va ||| h.taintS sb))))

/-- R210, R211: the permutes. Each body element of vd is an element of va: shifted by s[sb], with s[sc] where none comes
in; named by the element of vb, and 0 for a name outside the body; the next active one; or the mirrored one.
vcompress packs the active elements, with the rest as tail. -/
def Obligations.VectorPermutes : Prop :=
  ∀ (s : State) (vd va vb : VReg) (sb sc : SReg) (mask : MaskOp),
    let results := fun (u : State) (f : Hart → (Nat → Quad) → Nat → Quad) (taint : Hart → TaintSet) =>
      let h := u.hart
      let t := h.tagOf va
      let a := fun i => (h.elems va t h.csr.vl.toNat).getD i 0
      Host.Outcome.next (ranV s u 8 (h.elementwise vd t mask (fun i => (f h a i, 0)) (taint h)))
    let fill := fun (h : Hart) => if (h.tagOf va).wide then h.getS sc else h.getS sc &&& 0xFFFFFFFF
    let u := complete s [vd, va] []
    let us := complete s [vd, va] [sb, sc]
    let up := complete s [vd, va, vb] []
    ((s.hart.tagOf va).wide = true → s.hart.csr.w64 = true) →
    (VectorReady s [vd, va] [sb, sc] → Complete s [vd, va] [] →
      exec (.vslideup vd va sb sc mask) s = results us
        (fun h a i => if i < (h.getS sb).toNat then fill h else a (i - (h.getS sb).toNat))
        (fun h => h.taintV va ||| h.taintS sb ||| h.taintS sc) ∧
      exec (.vslidedn vd va sb sc mask) s = results us
        (fun h a i => if i + (h.getS sb).toNat < h.csr.vl.toNat then a (i + (h.getS sb).toNat) else fill h)
        (fun h => h.taintV va ||| h.taintS sb ||| h.taintS sc) ∧
      exec (.vexpand vd va mask) s = results u
        (fun h a i => a ((List.range i).countP (h.active mask))) (fun h => h.taintV va) ∧
      exec (.vrev vd va mask) s = results u (fun h a i => a (h.csr.vl.toNat - 1 - i)) (fun h => h.taintV va) ∧
      exec (.vcompress vd va mask) s = .next (ranV s u 8 (u.hart.writeV vd (u.hart.tagOf va) (fun _ => true) false
        (((List.range u.hart.csr.vl.toNat).filter (u.hart.active mask)).map fun i =>
          (u.hart.elems va (u.hart.tagOf va) u.hart.csr.vl.toNat).getD i 0)
        (u.hart.taintV va ||| u.hart.taintM mask.m ||| u.hart.keepTaint mask vd)))) ∧
    (VectorReady s [vd, va, vb] → (s.hart.tagOf vb).isF = false → exec (.vperm vd va vb mask) s = results up
      (fun h a i =>
        let j := (h.tagOf vb).int ((h.elems vb (h.tagOf vb) h.csr.vl.toNat).getD i 0)
        if 0 ≤ j ∧ j < h.csr.vl.toNat then a j.toNat else 0)
      (fun h => h.taintV va ||| h.taintV vb))

/-- R78, R79, R212 to R214: vred writes the result of the tree over the active elements to element 0, the rest being
tail; vscan writes to each active element the result over the elements up to it; vsegred packs one result for each
segment, a segment starting at element 0 and at each true bit of mc. -/
def vectorReductionsRule : Prop :=
  ∀ (s : State) (o : VRed) (vd va : VReg) (mc : MReg) (mask : MaskOp) (rm : RMode) (op : RedOp),
    let bitwise := fun (op : RedOp) => op = .and ∨ op = .or ∨ op = .xor
    let mode := fun (op : RedOp) (t : Tag) (rm : RMode) =>
      if op = .sum ∧ t.isF = true then rm.resolve s.hart.csr.frm else some .rne
    (let vs := o.vd :: o.va :: o.init.toList
     let t := s.hart.tagOf o.va
     let u := complete s vs []
     let h := u.hart
     let taint := h.taintV o.va ||| (match o.init with | some v => h.taintV v | none => 0) ||| h.taintM o.mask.m |||
       h.keepTaint o.mask o.vd
     let init := o.init.map fun v => (h.elems v t 1).getD 0 0
     let leaf := fun i => if h.active o.mask i then some ((h.elems o.va t h.csr.vl.toNat).getD i 0) else none
     let upTo := fun r n => reduceTree o.op t r init ((List.range n).map leaf)
     VectorReady s vs → (t.wide = true → s.hart.csr.w64 = true) → (bitwise o.op → t.isF = false) → (∀ v, o.init = some v → s.hart.tagOf v = t) →
     ∀ r, mode o.op t o.rm = some r →
       exec (.vred o) s = .next (ranV s u 8 ((h.writeV o.vd t (fun _ => true) false [(upTo r h.csr.vl.toNat).1] taint).addFlags
         (upTo r h.csr.vl.toNat).2)) ∧
       exec (.vscan o) s = .next (ranV s u 8 (h.elementwise o.vd t o.mask (fun i => upTo r (i + 1))
         (h.taintV o.va ||| (match o.init with | some v => h.taintV v | none => 0))))) ∧
    (let t := s.hart.tagOf va
     let u := complete s [vd, va] []
     let h := u.hart
     VectorReady s [vd, va] → (t.wide = true → s.hart.csr.w64 = true) → (bitwise op → t.isF = false) → ∀ r, mode op t rm = some r →
       let xs := (segments (h.maskBit mc) 0 (h.leaves va t mask)).map (reduceTree op t r none)
       exec (.vsegred op vd va mc mask rm) s = .next (ranV s u 8 ((h.writeV vd t (fun _ => true) false (xs.map (·.1))
         (h.taintV va ||| h.taintM mc ||| h.taintM mask.m ||| h.keepTaint mask vd)).addFlags
         (xs.foldl (fun acc x => acc ||| x.2) 0))))

/-- R78: what the tree gives where the order of combining cannot show. The sum of N and I elements is the sum of the
present ones, wrapped; an empty set gives the initial value, else the identity; one element gives itself. -/
def integerReductionsRule : Prop :=
  ∀ (t : Tag) (r : Rnd) (init : Option Quad) (l : List (Option Quad)), t.isF = false → l.length ≤ 65536 →
    let present := init.toList ++ l.filterMap id
    let value := fun (op : RedOp) => t.int (reduceTree op t r init l).1
    value .sum = t.int (t.ofInt false (present.map t.int).sum) ∧
    (∀ x, (∃ y ∈ present, t.int y = x) → value .min ≤ x ∧ x ≤ value .max) ∧
    (present ≠ [] → (∃ y ∈ present, t.int y = value .min) ∧ (∃ y ∈ present, t.int y = value .max)) ∧
    (∀ i, i < t.bits →
      ((reduceTree .and t r init l).1.getLsbD i = true ↔ ∀ y ∈ present, y.getLsbD i = true) ∧
      ((reduceTree .or t r init l).1.getLsbD i = true ↔ ∃ y ∈ present, y.getLsbD i = true) ∧
      (reduceTree .xor t r init l).1.getLsbD i = (present.countP (·.getLsbD i) % 2 == 1)) ∧
    (∀ op, (reduceTree op t r init l).2 = 0)

/-- R78, R79, R212 to R215: reductions, and what an integer reduction gives. -/
def Obligations.Reductions : Prop :=
  vectorReductionsRule ∧ integerReductionsRule


/-! ### Streams, vector memory accesses and counters -/

/-- R221, R222, R232, R233: the stream and counter instructions. qset makes a unit stream for s0 as the stride, else a
strided one; qsetx makes a unit stream indexed and qchain adds a table, innermost last; another KIND traps (0x0C);
each restarts the pre-walk. qget reads a quad; quad 7 is how many translations the part has walked ahead, 0 to 4, of pages that are valid (R356). kwait goes on once the counter has reached its value, within half the circle; kadd sets
OVF on a carry. -/
def streamAndCounterInstructionsRule : Prop :=
  ∀ (s : State) (fmt : MemFmt) (q : QReg) (a b d : SReg) (scq : Option QReg) (pol : Policy) (vb : VReg) (n : BitVec 3)
      (k : KReg),
    let set := fun (u : State) (st : Stream) => ran { u with hart := { u.hart with q := u.hart.q.set q.toNat st } } 8
    let u := s.needS [a, b]
    let v := s.needS [a]
    let w := s.needS [d]
    let stv := v.hart.q[q.toNat]
    let stu := u.hart.q[q.toNat]
    let c := w.hart.q[q.toNat]
    let count := v.hart.k[k.toNat]
    let x : Word := (v.hart.getS a).setWidth 32
    exec (.qset fmt q a b scq) s = .next (set u
      { base := u.hart.getS a, stride := u.hart.getS b, kind := if b = 0 then 1 else 2, fmt := fmt, sc := scq.isSome,
        scq := scq.getD 0, taint := u.hart.taintS a ||| u.hart.taintS b }) ∧
    ((stv.kind = 1 → exec (.qsetx pol q vb a) s = .next (set v { stv with
        idx := vb, bound1 := v.hart.getS a, pol1 := pol, kind := 3, prewalk := 0,
        taint := stv.taint ||| (v.hart.taintV vb ||| v.hart.taintS a) })) ∧
      (stv.kind ≠ 1 → exec (.qsetx pol q vb a) s = .next (v.takeTrap { cause := 0x0C, tinfo := v.hart.ir }))) ∧
    (let taint := stu.taint ||| (u.hart.taintS a ||| u.hart.taintS b)
     (stu.kind = 3 → exec (.qchain pol q a b) s = .next (set u { stu with
       stride := u.hart.getS a, bound2 := u.hart.getS b, pol2 := pol, kind := 4, prewalk := 0, taint := taint })) ∧
     (stu.kind = 4 → exec (.qchain pol q a b) s = .next (set u { stu with
       table2 := u.hart.getS a, bound3 := u.hart.getS b, pol3 := pol, kind := 5, prewalk := 0, taint := taint })) ∧
     (stu.kind ≠ 3 → stu.kind ≠ 4 →
       exec (.qchain pol q a b) s = .next (u.takeTrap { cause := 0x0C, tinfo := u.hart.ir }))) ∧
    (n ≠ 7 → exec (.qget d q n) s = .next (ranS w 8 d ([c.base, c.stride, c.table2, c.bound1, c.bound2, c.bound3,
      c.control].getD n.toNat 0) c.taint)) ∧
    (∃ (x : BitVec 3) (v : State), x.toNat ≤ 4 ∧
      v = { s with free := s.free + 1, tlb := v.tlb, tables := v.tables, hart := { s.hart with
        q := s.hart.q.set q.toNat { s.hart.q[q.toNat] with prewalk := x } } } ∧
      (0 < x.toNat → ∃ l size, (l.r = true ∨ l.w = true) ∧ s.walkCached s.hart.pkg s.hart.die (some s.hart.core) s.hart.asid
        ((fieldOf s.hart.q[q.toNat].base 0 42 / 65536 + 1) * 65536) = .leaf l size) ∧
      (s.hart.q[q.toNat].kind = 0 → x = 0) ∧
      let w := v.needS [d]
      exec (.qget d q 7) s = .next (ranS w 8 d (x.setWidth 64) (w.hart.q[q.toNat]).taint)) ∧
    ((count - x).toNat < 2 ^ 31 → exec (.kwait k a) s = .next (ran v 8)) ∧
    exec (.kread d k) s = .next (ranS w 8 d (w.hart.k[k.toNat].setWidth 64) 0) ∧
    exec (.kset k a) s = .next (ran { v with hart := { v.hart with k := v.hart.k.set k.toNat x } } 8) ∧
    exec (.kadd k a) s = .next (ran { v with hart := { v.hart with
      k := v.hart.k.set k.toNat (count + x),
      csr := { v.hart.csr with kstat := if count.toNat + x.toNat < 2 ^ 32 then v.hart.csr.kstat
                               else v.hart.csr.kstat ||| (1#24 <<< (16 + k.toNat)) } } } 8)

/-- R216, R217, R219, R222: the data index and the address of an element. KIND 1 and 2 count from sbase; KIND 3 checks the
index of the element against bound 1; KIND 4 reads the table of level 1 first, at the checked index. An index at its
bound or past it traps (0x0A) with the index in tinfo, is dropped, or is clamped to the bound less one, by the policy
of the level; a bound of 0 drops. That a level clamped is not lost where a later check of the element fails. -/
def Obligations.StreamElementAddresses : Prop :=
  ∀ (s : State) (q : Stream) (sbase : Quad) (idx : Nat → Quad) (j : Nat) (k : AccKind),
    let h := s.hart
    let index := s.dataIndex h.asid k q sbase idx j
    let check : Quad → Quad → Policy → Nat → Except ElemFail (Walked × State) := fun x b pol level =>
      if x.toNat < b.toNat then .ok (⟨some x, false, false⟩, s)
      else match pol with
        | .trap => .error ⟨.inl ⟨0x0A, x, none⟩, level, k, false⟩
        | .clamp => .ok (⟨if b = 0 then none else some (b - 1), true, false⟩, s)
        | .drop => .ok (⟨none, true, false⟩, s)
    (q.kind = 1 ∨ q.kind = 2 → index = .ok (⟨some (sbase + BitVec.ofNat 64 j), false, false⟩, s)) ∧
    (q.kind = 3 → index = check (idx j) q.bound1 q.pol1 0) ∧
    (q.kind = 4 → ∀ x l, (idx j).toNat < q.bound2.toNat → x = idx j →
      s.check19 h h.asid (q.stride + 4 * x) 4 k .any = .ok l → s.poison.contains (l.phys / 32) = false → l.slot = none →
      index = check (BitVec.ofNat 64 (readN s.mem l.phys 4)) q.bound1 q.pol1 0) ∧
    (q.kind = 4 → q.bound2.toNat ≤ (idx j).toNat → q.pol2 = .drop → index = .ok (⟨none, true, false⟩, s)) ∧
    (q.kind = 4 → q.bound2.toNat ≤ (idx j).toNat → q.pol2 = .clamp → q.bound2 ≠ 0 →
      ∀ e, index = .error e → e.clamped = true) ∧
    (q.kind = 5 → q.bound3.toNat ≤ (idx j).toNat → q.pol3 = .trap →
      index = .error ⟨.inl ⟨0x0A, idx j, none⟩, 2, k, false⟩) ∧
    (∀ d : Quad,
      (q.kind = 2 → q.address d = q.base + d * q.stride) ∧
      (q.kind ≠ 2 → q.fmt = .e2m1 → q.address d = q.base + BitVec.ofNat 64 (d.toNat / 2)) ∧
      (q.kind ≠ 2 → q.fmt ≠ .e2m1 → q.address d = q.base + d * BitVec.ofNat 64 (q.fmt.bits / 8)) ∧
      (q.kind = 2 → q.scaleAddress d = q.base + BitVec.ofNat 64 (d.toNat / 32) * q.stride) ∧
      (q.kind ≠ 2 → q.scaleAddress d = q.base + BitVec.ofNat 64 (d.toNat / 32)))

/-- R71, R124, R125, R127, R225 to R230: vld and vldff whose elements all pass their checks issue one access for each
active element that is not dropped, which takes the tag of the instruction; the destination takes the tag of the
format, dropped elements become 0 and the others follow R185. vldff that meets a missing translation after its first
active element shortens vl to that element and sets vstat bit 3. -/
def Obligations.VectorLoads : Prop :=
  ∀ (s u : State) (o : VMem) (r : Rnd) (scale : Option Stream),
    let q := s.hart.q[o.q.toNat]
    let t := q.fmt.tag
    let b := s.prepared s.hart.ir
    let g := walkOf u .read q scale o.mask
    let v := g.st
    let h := v.hart
    let taint := h.taintStream o.q ||| h.taintM o.mask.m
    let tag := h.allocTag.2
    let acc := fun (e : Elem) =>
      let dst := LoadDst.v o.dst e.j q.fmt (e.d.getLsbD 0) e.scale r o.sat
      ({ seq := h.seq, queue := 1 + e.j / 8 % h.g, slice := e.loc.slice, addr := e.loc.phys, size := q.fmt.bytes,
         op := match e.loc.slot with
           | some i => .loadWindow i dst
           | none => .load dst,
         held := taint, tag := some tag, nb := o.nb, via := e.loc.via, shown := e.loc.shown } : Access)
    s.streamOk q = .ok scale → (t.wide = true → s.hart.csr.w64 = true) →
    (if q.sc then o.rm.resolve s.hart.csr.frm else some .rne) = some r →
    u.awaitElems q scale (walkOf u.clean .read q scale o.mask).present false = .ok () →
    (g.fail = none → ∀ i ∈ ([.vld o, .vldff o] : List Instr), Begins s u i [o.dst] o →
      exec i s = .next (ranV b v 8 ((issuedAll v ((h.allocTag.1.prepare o.dst t o.mask g.dropped
        (h.csr.vlmax.toNat * 2 ^ h.csr.gl.toNat) (tagBit tag ||| taint)).clampBit g.clamped) (g.present.map acc)).addNb
          o.nb o.k))) ∧
    (∀ j f k lv c, Begins s u (.vldff o) [o.dst] o → g.fail = some (j, ⟨.inl f, lv, k, c⟩) → f.cause = 0x08 →
      (∃ i, i < j ∧ h.active o.mask i = true) → ∃ w, exec (.vldff o) s = .next w ∧
        (f.home = none → w.mem = u.mem) ∧ w.hart.csr.vstat.getLsbD 3 = true ∧ w.hart.tagOf o.dst = t ∧
        w.hart = { h with
          pc := h.pc + 8, status := .running, seq := h.seq + 1, v := w.hart.v, flights := w.hart.flights,
          tagBusy := h.allocTag.1.tagBusy, tag0Last := h.allocTag.1.tag0Last,
          csr := { h.csr with vl := BitVec.ofNat 32 j, vlast := o.dst, vstat := w.hart.csr.vstat },
          pend := (issuedAll v h (g.present.map acc)).pend })

/-- R73, R127, R136, R225, R226, R230: vst and vchg whose elements all pass issue one access for each active element that
is not dropped, in ascending order, with the element narrowed to the format; the flags of narrowing are raised; no
v register changes but the destination of vchg, which takes the tag of the format. -/
def Obligations.VectorStores : Prop :=
  ∀ (s u w : State) (o : VMem) (r : Rnd) (scale : Option Stream),
    let q := s.hart.q[o.q.toNat]
    let t := s.hart.tagOf o.data
    let b := s.prepared s.hart.ir
    let g := walkOf u .write q scale o.mask
    let gx := walkOf w .atomic q none o.mask
    let h := g.st.hart
    let x := gx.st.hart
    let taint := fun (h : Hart) => h.taintStream o.q ||| h.taintM o.mask.m ||| h.taintV o.data
    let rounding := if t.isF ∧ q.fmt ≠ .f64 ∧ ¬(t = .f32 ∧ q.fmt = .f32) then o.rm.resolve s.hart.csr.frm else some .rne
    s.streamOk q = .ok scale → q.fmt.accepts t = true → rounding = some r →
    (Begins s u (.vst o) [o.data] o → g.fail = none →
      u.awaitElems q scale (walkOf u.clean .write q scale o.mask).present true = .ok () →
      let stores := h.storeAccesses o q t r (taint h) g.present
      exec (.vst o) s = .next (ranV b g.st 8 ((issuedAll g.st ((h.clampBit g.clamped).addFlags stores.2) stores.1).addNb
        o.nb o.k)) ∧
      stores.1.map (·.addr) = g.present.map (·.loc.phys) ∧
      (∀ a ∈ stores.1, a.size = q.fmt.bytes ∧ a.seq = h.seq ∧ a.held = taint h)) ∧
    (Begins s w (.vchg o) [o.dst, o.data] o → q.sc = false → (q.fmt.tag.wide = true → s.hart.csr.w64 = true) →
      gx.fail = none → w.awaitElems q none (walkOf w.clean .atomic q none o.mask).present true = .ok () →
      ∃ v, exec (.vchg o) s = .next v ∧ v.mem = w.mem ∧ v.hart.tagOf o.dst = q.fmt.tag ∧
        v.hart = { x with
          pc := x.pc + 8, status := .running, seq := x.seq + 1, v := v.hart.v, flights := v.hart.flights,
          tagBusy := x.allocTag.1.tagBusy, tag0Last := x.allocTag.1.tag0Last, pend := v.hart.pend,
          k := v.hart.k, nbs := v.hart.nbs,
          csr := { x.csr with vlast := o.dst, vstat := v.hart.csr.vstat, fflags := v.hart.csr.fflags,
                              kstat := v.hart.csr.kstat } } ∧
        v.hart.taintV o.dst = tagBit x.allocTag.2 ||| taint x ∧
        v.hart.pend.map (·.addr) = w.hart.pend.map (·.addr) ++ gx.present.map (·.loc.phys) ∧
        (o.nb = false → v.hart.k = x.k ∧ v.hart.nbs = x.nbs ∧ v.hart.csr.kstat = x.csr.kstat))

/-- R35, R230, R231, R234 to R236: vamo and vamo.r whose elements all pass issue one update for each distinct canonical
address, with the operands of its elements in ascending order; vamo.r gives its destination the tag of the operand.
vwait goes on once its register is complete; vpres, which passes what waits in the queue, writes which element groups
are present, and gives its mask the taint of va. -/
def Obligations.VectorAtomics : Prop :=
  (∀ (s u : State) (op : AmoOp) (o : VMem) (ret : Bool),
    let q := s.hart.q[o.q.toNat]
    let t := s.hart.tagOf o.data
    let dst := if ret then [o.dst] else []
    let g := walkOf u .atomic q none o.mask
    let h := g.st.hart
    let place := fun (e : Elem) => h.canon (q.address e.d)
    Begins s u (if ret then .vamoR op o else .vamo op o) (o.data :: dst) o → s.streamOk q = .ok none → q.sc = false →
    (t.wide = true → s.hart.csr.w64 = true) →
    AmoOp.accepts op t = true → q.fmt = containerFmt t → s.hart.doneElems = 0 → s.hart.start = 0 →
    g.fail = none → u.awaitElems q none (walkOf u.clean .atomic q none o.mask).present true = .ok () →
    ∃ v new, exec (if ret then .vamoR op o else .vamo op o) s = .next v ∧ v.mem = u.mem ∧
      v.hart = { h with
        pc := h.pc + 8, status := .running, seq := h.seq + 1, v := v.hart.v, flights := v.hart.flights,
        tagBusy := v.hart.tagBusy, tag0Last := v.hart.tag0Last, pend := h.pend ++ new, k := v.hart.k, nbs := v.hart.nbs,
        csr := { h.csr with vlast := if ret then o.dst else h.csr.vlast, vstat := v.hart.csr.vstat,
                            kstat := v.hart.csr.kstat } } ∧
      (o.nb = false → v.hart.k = h.k ∧ v.hart.nbs = h.nbs ∧ v.hart.csr.kstat = h.csr.kstat) ∧
      (ret = false → v.hart.v = h.v ∧ v.hart.tagBusy = h.tagBusy) ∧ (ret = true → v.hart.tagOf o.dst = t) ∧
      -- each update has the elements of one address, in order, and each address one update
      (∀ a ∈ new, ∃ e ∈ g.present, a.addr = e.loc.phys ∧ a.size = q.fmt.bytes ∧
        a.op = .vamo op t ((g.present.filter fun x => place x == place e).map fun x =>
          (x.j, (h.elems o.data t h.csr.vl.toNat).getD x.j 0)) (if ret then some o.dst else none)) ∧
      (∀ e ∈ g.present, (new.countP fun a => match a.op with
        | .vamo _ _ l _ => l.any fun p => p.1 == e.j
        | _ => false) = 1)) ∧
  (∀ (s : State) (va : VReg) (md : MReg),
    (VectorReady s [va] → exec (.vwait va) s = .next (ranV s (complete s [va] []) 8 (complete s [va] []).hart.completeNb)) ∧
    (VectorUnit s [va] → s.blockedVst = false → PlainWord s → s.hart.queued = false ∨ s.hart.passes s.hart.ir = true →
      let g := s.hart.writeMask md ⟨0, false⟩ (fun i => s.hart.presentGroup va (i / 8)) (s.hart.taintV va)
      exec (.vpres md va) s = .next (ranV s s 8 (if s.hart.csr.vl = 0 then g
        else { g with m := g.m.set md.toNat { g.m[md.toNat] with taint := s.hart.taintV va } }))))

/-! ### Convoys, the Sieve and windows -/

/-- R29 to R32, R149, R150, R242: a convoy whose header and members pass the checks, whose members all issue, and for whose
matrix instructions the core's matrix queue has entries, runs its members
in program order and goes on after the last; a member that may execute does, with the word that it has. sloop.par
before a convoy that passes the checks of R29 does as sloop, and remembers that its strips are unordered (R30); a header
that names more than six members is an illegal convoy (0x02). -/
def Obligations.Convoys : Prop :=
  (∀ (s u w v : State) (cnt : BitVec 3) (units : BitVec 18) (ms : List (Quad × Member)) (after : Nat),
    s.checkConvoy s.hart.pc (s.hart.ir.setWidth 32) cnt units = .ok (ms, u, after) →
    u.settleS (ms.map (·.1)) = .ok w → w.issueAllOnly ms = .ok () →
    (let matrix := (ms.filter fun m => matrixWord m.1).length
     matrix = 0 ∨ w.matrixUsed w.hart + matrix ≤ 32) →
    w.runMembers s.hart.pc (s.hart.pc + BitVec.ofNat 64 (4 + 8 * ms.length)) false ms = .ok v →
    ms.length = cnt.toNat + 2 ∧ exec (.convoyHeader cnt units) s = .next (ran v (4 + 8 * ms.length))) ∧
  (∀ (s : State) (h a : Quad) (later : Bool) (w : Quad) (m : Member) (rest : List (Quad × Member)) (u : State),
    let t : State := { s with hart := { s.hart with ir := w } }
    s.runMembers h a later [] = .ok s ∧
    (t.issueVector w h a later m.run = .ok u →
      s.runMembers h a later ((w, m) :: rest) = u.runMembers h a true rest) ∧
    (s.hart.queued = false → s.blockedVst = false → let b := t.prepared w; m.run b = .ok u →
      t.issueVector w h a later m.run = .ok (u.launched b.hart (b.hart.entryOf w h)).nextSeq)) ∧
  (∀ (s : State) (cnt : BitVec 3) (units : BitVec 18), 5 ≤ cnt.toNat →
    exec (.convoyHeader cnt units) s =
      .next (s.takeTrap { cause := 0x02, tinfo := (s.hart.ir.setWidth 32).setWidth 64 })) ∧
  (∀ (s t u v : State) (a : SReg) (off : BitVec 12) (q : Quad) (c : Code) (ms : List (Quad × Member)) (after : Nat)
      (ps : List Parcel),
    let cnt : BitVec 3 := q.extractLsb' 7 3
    let units : BitVec 18 := q.extractLsb' 10 18
    let w := ps.foldr (fun (x : Parcel) acc => x.toNat + 65536 * acc) 0
    s.fetchWord (s.hart.pc + 4) = .ok (q, some c, t) → q.extractLsb' 0 7 = 0x77#7 → q.extractLsb' 28 4 = 0 →
    (Instr.convoyHeader cnt units).wellFormed = true →
    t.checkConvoy (s.hart.pc + 4) (q.setWidth 32) cnt units = .ok (ms, u, after) →
    u.fetchMore (s.hart.pc + 4 + BitVec.ofNat 64 (4 + 8 * ms.length)) 2 = .ok (ps, v) → w % 128 = 0x67 →
    w / 2 ^ 17 % 8 = 4 → parOk [] (ms.map (·.2)) = true →
    ∃ x, exec (.sloop a off) v = .next x ∧
      exec (.sloopPar a off) s = .next { x with hart := { x.hart with
        par := if x.hart.csr.vl = 0 then none else some x.hart.seq } })

/-- R105 to R107, R237 to R239: the Sieve. svins and svacc leave each key that they do not report in its set, with the
value it had, or 0, plus the operands of its elements in order; they report an empty marker and a key whose set is
full. svlook answers values without changing the Sieve; svdrn takes entries out; svclr empties entries. Keys of one
set lie in its 16 entries. `w` is the state in which the operands and the accesses that their taint sets name are performed
(R127, R225). The poison of the entries is assumed away: a poisoned set traps (R109). -/
def Obligations.SieveInstructions : Prop :=
  ∀ (s : State) (md mc : MReg) (va vb vd : VReg) (sa sb : SReg) (mask : MaskOp),
    let size := (s.core s.hart.pkg s.hart.die s.hart.core).sieve
    let addr := fun (e : Nat) => s.hart.sieveAddr size e
    let outside := fun (x : Nat) => x < addr 0 ∨ addr size ≤ x
    let empty : Quad := BitVec.allOnes 64
    s.poison = [] → size ≠ 0 → size % 16 = 0 → 16 * size ≤ 0x300000 → Sound s →
    (∀ (i : Instr) (b : Option VReg), (b = none ∧ i = .svins md va mask) ∨ (b = some vb ∧ i = .svacc md va vb mask) →
      VectorReady s (va :: b.toList) → (s.hart.tagOf va).isF = false →
      (∀ r ∈ va :: b.toList, (s.hart.tagOf r).wide = true → s.hart.csr.w64 = true) →
      let u := complete s (va :: b.toList) []
      let src := b.toList.foldl (fun acc r => acc ||| u.hart.taintV r) (u.hart.taintV va)
      ∀ w : State, u.settle (src ||| u.hart.taintM mask.m) = .ok w →
      let h := w.hart
      let key := fun j => sieveKey (h.tagOf va) ((h.streamData va (h.tagOf va) h.csr.vl.toNat).getD j 0)
      let add := fun (acc : Quad) (j : Nat) => match b with
        | none => acc
        | some b => sieveAdd (h.tagOf b) acc ((h.sieveVals b h.csr.vl.toNat).getD j 0)
      let value := fun (t : State) (j : Nat) => (t.sieveFind size (sieveSet size (key j)) (key j)).map fun e =>
        readQuad t.mem (addr e + 8)
      ∃ v, exec i s = .next v ∧ v.hart = { h with
          pc := h.pc + 8, status := .running, seq := h.seq + 1, m := v.hart.m, flights := v.hart.flights,
          tagBusy := h.allocTag.1.tagBusy, tag0Last := h.allocTag.1.tag0Last,
          csr := { h.csr with vstat := v.hart.csr.vstat } } ∧ v.hart.csr.vstat ||| 2 = h.csr.vstat ||| 2 ∧
        (∀ r : MReg, r ≠ md → v.hart.m[r.toNat] = h.m[r.toNat]) ∧
        (∀ x, outside x → readByte v.mem x = readByte w.mem x) ∧
        (∀ j ∈ h.todo mask,
          (j < 65536 → (v.hart.m[md.toNat].bits.getLsbD j = true ↔ key j = empty ∨ value v j = none)) ∧
          (key j ≠ empty → value v j ≠ none → value v j =
            some (((h.todo mask).filter fun i => key i == key j).foldl add ((value w j).getD 0)))) ∧
        (v.hart.csr.vstat.getLsbD 1 = true ↔ h.csr.vstat.getLsbD 1 = true ∨ ∃ j ∈ h.todo mask, key j = empty ∨ value v j = none)) ∧
    (VectorReady s [vd, va] → (s.hart.tagOf va).isF = false → s.hart.csr.w64 = true →
      let u := complete s [vd, va] []
      ∀ w : State, u.settle (u.hart.taintV va ||| u.hart.taintM mask.m) = .ok w →
      let h := w.hart
      let key := fun j => sieveKey (h.tagOf va) ((h.streamData va (h.tagOf va) h.csr.vl.toNat).getD j 0)
      let found := fun j => if key j = empty then none else w.sieveFind size (sieveSet size (key j)) (key j)
      ∃ v, exec (.svlook vd mc va mask) s = .next v ∧ v.mem = w.mem ∧ v.hart = { h with
          pc := h.pc + 8, status := .running, seq := h.seq + 1, v := v.hart.v, m := v.hart.m, flights := v.hart.flights,
          tagBusy := h.allocTag.1.tagBusy, tag0Last := h.allocTag.1.tag0Last, csr := { h.csr with vlast := vd } } ∧
        (∀ r : MReg, r ≠ mc ∨ mc = 0 → v.hart.m[r.toNat] = h.m[r.toNat]) ∧ v.hart.tagOf vd = .n64 ∧
        (h.csr.vl.toNat ≤ h.csr.vlmax.toNat * 2 ^ h.csr.gl.toNat → ∀ j ∈ h.todo mask,
          elemAt (v.hart.groupData vd) true j = (match found j with | some e => readQuad w.mem (addr e + 8) | none => 0) ∧
          (mc ≠ 0 → j < 65536 → v.hart.m[mc.toNat].bits.getLsbD j = (found j).isSome))) ∧
    (VectorReady s [vd, vb] [sa] → s.hart.csr.w64 = true →
      let u := complete s [vd, vb] [sa]
      ∀ w : State, u.settle (u.hart.taintS sa ||| u.hart.taintM mask.m) = .ok w →
      let h := w.hart
      let entry := fun (j : Nat) => (h.getS sa).toNat + j
      let held := fun j => entry j < size ∧ readQuad w.mem (addr (entry j)) ≠ empty
      ∃ v, exec (.svdrn vd vb sa mask) s = .next v ∧ v.hart = { h with
          pc := h.pc + 8, status := .running, seq := h.seq + 1, v := v.hart.v, flights := v.hart.flights,
          tagBusy := h.allocTag.1.tagBusy, tag0Last := h.allocTag.1.tag0Last, csr := { h.csr with vlast := vd } } ∧
        (∀ x, outside x → readByte v.mem x = readByte w.mem x) ∧
        (∀ e, e < size → readQuad v.mem (addr e) =
          if ∃ j ∈ h.todo mask, entry j = e then empty else readQuad w.mem (addr e)) ∧
        (vd ≠ vb → h.csr.vl.toNat ≤ h.csr.vlmax.toNat * 2 ^ h.csr.gl.toNat → ∀ j ∈ h.todo mask,
          (held j → elemAt (v.hart.groupData vd) true j = readQuad w.mem (addr (entry j)) ∧
            elemAt (v.hart.groupData vb) true j = readQuad w.mem (addr (entry j) + 8)) ∧
          (¬held j → elemAt (v.hart.groupData vd) true j = empty ∧ elemAt (v.hart.groupData vb) true j = 0))) ∧
    (VectorReady s [] [sa, sb] →
      let u := complete s [] [sa, sb]
      ∀ w : State, u.settle (u.hart.taintS sa ||| u.hart.taintS sb) = .ok w →
      let lo := (w.hart.getS sa).toNat
      let n := (w.hart.getS sb).toNat
      ∃ v, exec (.svclr sa sb) s = .next v ∧ v.hart = (ranV s w 8 w.hart).hart ∧
        (∀ x, outside x → readByte v.mem x = readByte w.mem x) ∧
        (∀ e, e < size → readQuad v.mem (addr e) = (if lo ≤ e ∧ e < lo + n then empty else readQuad w.mem (addr e)) ∧
          readQuad v.mem (addr e + 8) = readQuad w.mem (addr e + 8)))

/-- R99, R240, R241: rwo opens its slot on PGAS or vault memory of a length from 1 to 2^56 - 1, once no engine writes it
and the hart's accesses are performed; another source traps (0x07); rwc performs the reads through the slot and closes it,
and waits while it cannot. -/
def readOnlyWindowsRule : Prop :=
  ∀ (s : State) (slot : BitVec 5) (a b : SReg),
    let u := s.needS [a, b]
    let base := u.hart.getS a
    let len := u.hart.getS b
    let good := (base.extractLsb' 61 3).toNat ≤ 1 ∧ len ≠ 0 ∧ len.toNat < 2 ^ 56
    let mine := fun (x : Access) => match x.op with
      | .loadWindow i _ => i == slot.toNat
      | _ => false
    -- no command and no entry of the queue reads through the slot
    let free := fun (v : State) => (∀ c ∈ v.hart.cmds, c.running = true → c.through slot.toNat = false) ∧
      (v.hart.thaw = false ∨ ∀ e ∈ v.hart.frozen, quietWord e.word = true)
    let w := s.drainUntil mine
    (good → u.hart.interlocked (u.hart.canon base) len.toNat false = false → free u.drain → u.drain.hart.pend = [] →
      exec (.rwo slot a b) s = .next (ran { u.drain with hart := { u.drain.hart with
        windows := u.drain.hart.windows.set slot.toNat (some { base := base, length := len }) } } 8)) ∧
    (¬good → exec (.rwo slot a b) s = .next (u.takeTrap { cause := 0x07, tinfo := base })) ∧
    (free s → (∀ x ∈ w.hart.pend, ∀ dst, x.op ≠ .loadWindow slot.toNat dst) →
      exec (.rwc slot) s = .next (ran { w with hart := { w.hart with windows := w.hart.windows.set slot.toNat none } } 8)) ∧
    -- while one of its reads is left, rwc waits
    ((∃ x ∈ w.hart.pend, ∃ dst, x.op = .loadWindow slot.toNat dst) →
      exec (.rwc slot) s = .next { s with hart := { s.hart with status := .held .window } })

/-- R99, R221 to R223, R232, R233, R240, R241: stream configuration, counters and read-only windows. -/
def Obligations.StreamsCountersAndWindows : Prop :=
  streamAndCounterInstructionsRule ∧ readOnlyWindowsRule


/-! ### Matrix instructions -/

/-- R80, R245, R246: mshape cuts the three sizes to 32 bits, grants the smaller of the limits of the class and VLMAX x
G, starts at tile (0, 0) and answers its rows and columns; mstep goes on to the next tile, by columns and then rows,
and answers 0 past the last. Both complete in every state. -/
def matrixShapeInstructionsRule : Prop :=
  ∀ (s : State) (c : MClass) (d a b e : SReg),
    let u := s.needS [d, a, b, e]
    let h := u.hart
    let w := s.needS [d]
    let o := w.hart.csr
    let lim := match c with | .w4 => (128, 128) | .w8 => (64, 128) | .w16 => (64, 64) | .w32 => (16, 32)
    let most := h.csr.vlmax.toNat * 2 ^ h.csr.gl.toNat
    let cut := fun (x : Quad) => if x.toNat < 2 ^ 32 then (x.setWidth 32 : Word) else BitVec.allOnes 32
    let m := cut (h.getS a)
    let n := cut (h.getS b)
    let rows := min lim.1 most
    let cols := min lim.2 most
    let block := fun (rows cols : Nat) => BitVec.ofNat 64 (rows + 2 ^ 16 * cols)
    let last := o.mN.toNat ≤ o.nj.toNat + o.mNg.toNat
    let mi := if last then o.mi.toNat + o.mMg.toNat else o.mi.toNat
    let nj := if last then 0 else o.nj.toNat + o.mNg.toNat
    let done := o.mM.toNat ≤ mi ∨ o.mMg = 0
    exec (.mshape c d a b e) s = .next (ranS { u with hart := { h with
        ct := h.ct ||| (h.taintS a ||| h.taintS b ||| h.taintS e),
        csr := { h.csr with mM := m, mN := n, mK := cut (h.getS e), mclass := c.code, mMg := BitVec.ofNat 8 rows,
                            mNg := BitVec.ofNat 8 cols, mi := 0, nj := 0, kk := 0 } } } 8 d
      (if m = 0 ∨ n = 0 ∨ rows = 0 then 0 else block (min rows m.toNat) (min cols n.toNat)) 0) ∧
    exec (.mstep d) s = .next (ranS { w with hart := { w.hart with csr := { o with
        kk := 0, mi := if done then 0 else BitVec.ofNat 32 mi, nj := if done then 0 else BitVec.ofNat 32 nj } } } 8 d
      (if done then 0 else block (min o.mMg.toNat (o.mM.toNat - mi)) (min o.mNg.toNat (o.mN.toNat - nj))) 0)

/-- R247, R242, R424: mwait goes on, and changes nothing but the pc, once no matrix instruction of the hart stands in its
queue; till then the hart waits. An entry that a trap has frozen is not waited for. -/
def matrixWaitRule : Prop :=
  ∀ s : State,
    let waiting := s.hart.thaw = true ∧ ∃ e ∈ s.hart.frozen, matrixWord e.word = true
    (¬waiting → exec .mwait s = .next (ran s 8)) ∧ (waiting → exec .mwait s = .next (s.holdHart .matrix))

/-- R80, R245 to R247: the shape of a product, and waiting for the matrix instructions. -/
def Obligations.MatrixShapes : Prop :=
  matrixShapeInstructionsRule ∧ matrixWaitRule

/-- R81, R242, R249: mzero clears the granted block of a tile; mop and mopn add or subtract the product of va's row and vb's
column elements, each reduced to the precision of the class, into every active row and the first mcols columns, with one
rounding. The rest of the tile, the other tiles, the v and s registers and memory stay; mzero sets kk to 0, and mop and
mopn count their step in it. Each executes once the core's matrix queue has an entry for it, and mop and mopn once the
tags of their sources have retired (R50). -/
def matrixArithmeticRule : Prop :=
  ∀ (s u w : State) (t : TReg) (va vb : VReg) (mask : MaskOp) (rm : RMode) (r : Rnd) (i j : Nat),
    let c := complete s [va, vb] []
    let h := u.hart
    let row := (reduceOperand h.csr.precision ((h.elems va .f32 h.csr.vl.toNat).getD i 0)).1
    let col := (reduceOperand h.csr.precision ((h.elems vb .f32 h.csr.mcols.toNat).getD j 0)).1
    t.toNat < s.hart.tiles.length →
    (VectorUnit s [] → s.hart.queued = false → s.blockedVst = false → PlainWord s → s.matrixEntry = .ok w →
      w.hart = s.hart ∧ w.mem = s.mem ∧
      ∃ g, exec (.mzero t) s = .next (ranV s w 8 g) ∧
        g = { s.hart with tiles := g.tiles, csr := { s.hart.csr with kk := 0 } } ∧
        tileGet (g.tile t) i j =
          (if i < s.hart.csr.mMg.toNat ∧ j < s.hart.csr.mNg.toNat then 0 else tileGet (s.hart.tile t) i j) ∧
        (∀ t', t' ≠ t → g.tile t' = s.hart.tile t')) ∧
    (VectorReady s [va, vb] → s.hart.csr.vl.toNat ≤ s.hart.csr.mMg.toNat →
      s.hart.csr.mcols.toNat ≤ s.hart.csr.mNg.toNat → s.hart.csr.mcols.toNat ≤ s.hart.maxElems →
      s.hart.tagOf va = .f32 → s.hart.tagOf vb = .f32 → rm.resolve s.hart.csr.frm = some r →
      c.awaitTags (c.hart.taintV va ||| c.hart.taintV vb) = .ok u → u.matrixEntry = .ok w →
      w.hart = h ∧ w.mem = u.mem ∧
      ∀ p ∈ [(Instr.mop t va vb mask rm, false), (Instr.mopn t va vb mask rm, true)],
        ∃ g, exec p.1 s = .next (ranV s w 8 g) ∧
          g = { h with tiles := g.tiles, csr := { h.csr with kk := h.csr.kk + 1, fflags := g.csr.fflags } } ∧
          g.csr.fflags &&& h.csr.fflags = h.csr.fflags ∧
          tileGet (g.tile t) i j =
            (if i < h.csr.vl.toNat ∧ h.active mask i = true ∧ j < h.csr.mcols.toNat then
              ((mopStep p.2 r row col (tileGet (h.tile t) i j)).1.setWidth 32).setWidth 64
             else tileGet (h.tile t) i j) ∧
          (∀ t', t' ≠ t → g.tile t' = h.tile t'))

/-- R132, R133, R242, R251: mst takes the tile's rows, its stream and its index elements as they are when it issues, and
holds the byte range of its rows for writing, till it completes. The command stores later; registers, tiles and memory
stay. -/
def tileStoreRule : Prop :=
  ∀ (s w : State) (t : TReg) (q : QReg) (a b : SReg) (mask : MaskOp) (k : KReg) (rm : RMode) (sat : Bool) (r : Rnd),
    let st := s.hart.q[q.toNat]
    let u := complete s st.vregs [a, b]
    let h := u.hart
    let vl := h.csr.vl.toNat
    let rows := (h.getS a).toNat
    let range := h.canon (st.rowRange h.csr.sbase vl rows (h.getS b)).1
    let size := (st.rowRange h.csr.sbase vl rows (h.getS b)).2
    t.toNat < s.hart.tiles.length → VectorReady s st.vregs [a, b] → s.streamOk st = .ok none → st.sc = false →
    st.fmt.isF = true → rows ≤ 128 → vl ≤ 128 →
    (if st.fmt = .f32 ∨ st.fmt = .f64 then some .rne else rm.resolve s.hart.csr.frm) = some r →
    u.matrixEntry = .ok w → h.interlock = [] → (∀ c ∈ h.cmds, c.queued = false ∧ c.ranges = []) →
    ∃ v c, exec (.mst q t a b mask k rm sat) s = .next v ∧ v.mem = u.mem ∧ v.hart = { h with
        pc := h.pc + 8, status := .running, seq := h.seq + 1, flights := v.hart.flights, interlock := v.hart.interlock,
        cmds := h.cmds ++ [c] } ∧ c.k = k ∧ c.seq = h.seq ∧ c.stopped = false ∧
      (∃ bits : BitVec 65536, (∀ i, i < vl → i < 65536 → bits.getLsbD i = h.active mask i) ∧
        c.op = .drain st (h.streamIdx st vl).toList (h.tagOf st.idx) (h.tile t) rows (h.getS b) vl bits h.csr.sbase r sat) ∧
      (size = 0 → v.hart.interlock = []) ∧
      (0 < size → ∃ e, v.hart.interlock = [e] ∧ e.base = range ∧ e.limit = range + size ∧ e.write = true ∧ e.k = k ∧
        e.seq = h.seq)

/-- R50, R242, R250: mrd copies a row or a column of a tile into a v register under R185; mwr writes the active elements of a
v register to a row or column, once the tags of the register have retired, and leaves the rest of the tile, the other
tiles and the v and s registers. -/
def matrixRowsRule : Prop :=
  ∀ (s w : State) (col : Bool) (t : TReg) (v : VReg) (a : SReg) (mask : MaskOp) (i j : Nat),
    let u := complete s [v] [a]
    let h := u.hart
    let x := (h.getS a).toNat
    VectorReady s [v] [a] → t.toNat < s.hart.tiles.length → x ≤ 127 → h.csr.vl.toNat ≤ 128 →
    (u.matrixEntry = .ok w → w.hart = h ∧ w.mem = u.mem ∧
      exec (.mrd col v t a mask) s = .next (ranV s w 8 (h.elementwise v .f32 mask
        (fun i => (if col then tileGet (h.tile t) i x else tileGet (h.tile t) x i, 0)) (h.taintS a)))) ∧
    (∀ y : State, s.hart.tagOf v = .f32 → u.awaitTags (h.taintV v) = .ok y → y.matrixEntry = .ok w → w.mem = y.mem ∧
      let h := y.hart
      let x := (h.getS a).toNat
      ∃ g, exec (.mwr col t v a mask) s = .next (ranV s w 8 g) ∧ g = { h with tiles := g.tiles } ∧
      tileGet (g.tile t) i j =
        (let e := if col then i else j
         let line := if col then j else i
         if line = x ∧ e < h.csr.vl.toNat ∧ h.active mask e = true then
           (((h.elems v .f32 h.csr.vl.toNat).getD e 0).setWidth 32).setWidth 64 else tileGet (h.tile t) i j) ∧
      (∀ t', t' ≠ t → g.tile t' = h.tile t'))

/-- R50, R81, R242, R249 to R251: matrix arithmetic, tile stores, and moving rows. -/
def Obligations.MatrixOperations : Prop :=
  matrixArithmeticRule ∧ tileStoreRule ∧ matrixRowsRule

/-! ### Words, reset, steps -/

/-- R139, R142 to R153: the words of some instructions, written out from the encoding tables, decode to them. -/
def Obligations.WordsDecode : Prop :=
  decodeTableWord 32 0x0100003B = some (.lsync .g) ∧
  decodeTableWord 32 0xCF12C607 = some (.addi 12 12 (-6263)) ∧
  decodeTableWord 32 0x2468B61B = some (.lih 12 0x2468B) ∧
  decodeTableWord 32 0x0006A433 = some (.ld 8 10 0) ∧
  decodeTableWord 32 0x00609423 = some (.bEq 8 9 6) ∧
  decodeTableWord 32 0xFFFFFD27 = some (.j (-6)) ∧
  decodeTableWord 32 0x0010A5C3 = some (.waita 11 10 8) ∧
  decodeTableWord 32 0x00400063 = some .brk ∧
  decodeTableWord 32 0x002002E7 = some (.vcfg 5 2 false 0) ∧
  decodeTableWord 32 0x00042CF7 = some (.convoyHeader 1 0x10B) ∧
  decodeTableWord 64 0x0100020000001973 = some (.fsbindGroup 1 0) ∧
  decodeTableWord 64 0x0000000801AC507B = some (.rpost 12 13 2)

/-- R139 to R153: a well-formed instruction has a word, and decoding the bytes of that word as memory holds them gives the
instruction back, with every operand, and nothing over. -/
def Obligations.EncodeThenDecode : Prop :=
  ∀ i : Instr, i.wellFormed = true → ∃ c, encode i = some c ∧ decodeCode c = .ok i ∧ decodeBytes c.toBytes = .ok (i, [])

/-- R141: a word that decodes is the word of the instruction that it decodes to, so no two words mean the same and no
must-be-zero bit is ignored; and what decodes is well-formed. -/
def Obligations.DecodedWordsAreEncodings : Prop :=
  ∀ (c : Code) (i : Instr), decodeCode c = .ok i → encode i = some c ∧ i.wellFormed = true

/-- R5, R60, R364, R405, R406, R413: right after reset no hart is placed, every byte of memory reads zero, nothing is
poisoned, nothing is in flight, and no package has a gang. (What the spec leaves open, and the model's own fields, are
those of log entries 1, 2 and 10 to 17.) -/
def Obligations.ResetState : Prop :=
  let s := State.reset
  s.harts = [] ∧ (∀ a, readByte s.mem a = 0) ∧ Sound s ∧ s.poison = [] ∧ s.messages = [] ∧ s.ops = [] ∧ s.groups = [] ∧
  s.tlb = [] ∧ s.waiters = [] ∧ s.enclaves = [] ∧ (∀ p, (s.pack p).gangs = [] ∧ (s.pack p).posts = [] ∧
    (s.pack p).table = none ∧ (s.pack p).reservations = [] ∧ s.partRuns p = false)

/-- Every step keeps memory in its canonical form: addresses rise strictly and no listed byte is zero. -/
def Obligations.StepKeepsMemoryCanonical : Prop :=
  ∀ s t : State, Sound s → step s = .next t → Sound t

/-- R139 to R141, R98, R170: a step is the turn of the hart that has it, or of another agent. The hart's turn, where it is
running and nothing comes before its next instruction (no trap that is due, no entry of the vector queue), fetches the word
at its pc and executes what it decodes to, with the loads performed so far retired and the word in the instruction
register; where the word names an s register that a load of the hart will write, the hart's accesses are performed first
(R127); a taint instruction names none, for it takes effect at issue (R174). A word that does not decode takes the Illegal instruction trap. The parcel at an address is the two bytes of memory
there unless the instruction L1 holds an older copy. (An instruction that names the result of a running cpyff waits first:
log entry 31; when an entry of the queue goes on is the model's free choice: log entry 9. A turn in which the front end
looks past a branch changes nothing but the model's own record of it, which a branch that goes elsewhere drops: log
entry 110.) -/
def Obligations.StepRunsTheDecodedInstruction : Prop :=
  (∀ (s0 s t : State) (ir : Quad) (c : Option Code),
    HasTurn s0 s → s.hart.status = .running → s.hart.hits = [] → s.hart.asyncCause = none → s.hart.queued = false →
    s.lookPast = none → s.hart.early = none →
    ({ s with hart := { s.hart with ir := 0 } } : State).fetchWord s.hart.pc = .ok (ir, c, t) →
    let u := t.mapHart fun h => { h.retire with ir := ir }
    (∀ w x, c = some w → decodeCand w = .ok x → u.hart.issueHeld w x = false →
      decodeCode w = .ok x.toInstr ∧ (¬NamesLoad u.hart w x → step s0 = exec x.toInstr u) ∧
      (NamesLoad u.hart w x → ¬NamesLoad u.drain.hart w x → u.drain.hart.hits = [] → step s0 = exec x.toInstr u.drain)) ∧
    ((c = none ∨ ∃ w e, c = some w ∧ decodeCode w = .error e) →
      step s0 = .next (u.takeTrap { cause := 0x01, tinfo := ir }))) ∧
  (∀ (s : State) (i : Instr) (rest : List Turn), s.agenda = .agent i :: rest →
    step s = exec i
      { s with clock := s.clock + 1 + Config.stepClocks s.free, free := s.free + 1, agenda := rest }) ∧
  (∀ (s : State) (a : Quad) (l : Loc), s.check s.hart s.hart.asid a 2 .fetch .any = .ok l →
    let copy := copyRead (s.core s.hart.pkg s.hart.die s.hart.core).icache l.phys 2
    let now := readN s.mem l.phys 2
    copy = none ∨ copy = some now → ∃ t, s.fetchParcel a = .ok (BitVec.ofNat 16 now, t) ∧ t.mem = s.mem) ∧
  (∀ s : State, s.lookPast = none ∨
    ∃ e : Ahead, s.lookPast = some { s with free := s.free + 1, hart := { s.hart with early := some e } }) ∧
  (∀ (s t : State) (e : Ahead), s.hart.early = some e → s.hart.pc = e.pc → s.hart.seq = e.seq → t.hart.pc ≠ e.toward →
    s.takeEarly t = t.mapHart fun h => { h with early := none })

/-- R258: fmpq reads quad 0 of a record, or quad 1 when H = 1: the live record of the oldest command in flight that names
the counter, else the stored record of the counter. It does not wait, whatever command runs; sd takes an empty taint
set, and nothing else changes but the pc. A record's quad 0 is POISON, STATUS and DONE, and its quad 1 FIRSTP (R257); a
live one has STATUS 1 and the elements done so far. -/
def Obligations.FmpqReadsRecord : Prop :=
  ∀ (s : State) (d : SReg) (k : KReg) (hi : Bool),
    let u := s.needS [d]
    let r := match u.hart.cmds.find? fun c => c.k == k && Cmd.recorded c with
      | some c => Cmd.record c 1 c.next
      | none => u.hart.records[k.toNat]
    (∀ c, (Cmd.record c 1 c.next).status = 1 ∧ (Cmd.record c 1 c.next).done = BitVec.ofNat 32 c.next) ∧
    exec (.fmpq d k hi) s = .next (ranS u 8 d (if hi then r.firstp else
      BitVec.ofNat 64 (r.poison.toNat * 2 ^ 40 + r.status.toNat * 2 ^ 32 + r.done.toNat)) 0)

/-! ### Accesses reaching their homes, translation, completions -/

/-- R102, R112 to R118, R235: an access that its place in the queues and its taint allow is performed as
`Obligations.PerformingAccesses` says by the event of its kind: a load is fixed, a home applies an access that is no atomic and is of no
train, a home applies an atomic of its own package, a receive reduction unit one of another package, and a home a merged
update. -/
def performingEvents : Prop :=
  ∀ (s : State) (r : HartRef) (i : Nat) (a : Access), s.placed r = true →
    let u := s.focus r
    u.hart.pend[i]? = some a → u.hart.mayPerform (u.hart.pend.take i) a = true →
    let after := ((u.performAt i).mapHart (·.completeNb)).focus s.hart.ref
    (AccOp.isLoad a.op = true → exec (.loadPerformed r i) s = .next after) ∧
    (AccOp.isAtomic a.op = false → AccOp.isVamo a.op = false → a.train = none →
      exec (.homeAccess r i) s = .next after) ∧
    (AccOp.isAtomic a.op = true → Slice.isRemote a.slice = false → exec (.atomicAtHome r i) s = .next after) ∧
    (AccOp.isAtomic a.op = true ∨ AccOp.isVamo a.op = true → Slice.isRemote a.slice = true →
      exec (.rruAtomic r i) s = .next after) ∧
    (AccOp.isVamo a.op = true → exec (.vectorAtomicUpdate r i) s = .next after)

/-- R35, R136: an arriving element group performs the accesses that deliver elements 8g to 8g + 7 of the register, and a
train those that it carries: in order, up to the first that must wait. A vector load or store all of whose accesses are
then performed advances its counter (R230). The other accesses stay, in their order, where none of those performed fails at
its home. -/
def groupEvents : Prop :=
  ∀ (s : State) (r : HartRef) (v : VReg) (g t : Nat), s.placed r = true →
    let u := s.focus r
    let inGroup := fun (a : Access) => match Access.element a with
      | some (d, e) => d == v && e / 8 == g
      | none => false
    let inTrain := fun (a : Access) => a.train == some t
    (∃ w : State, Delivers inGroup u w ∧
      exec (.elementGroupArrival r v g) s = .next ((w.mapHart (·.completeNb)).focus s.hart.ref)) ∧
    (∃ w : State, Delivers inTrain u w ∧ exec (.trainApply r t) s = .next (w.focus s.hart.ref)) ∧
    (∀ (p : Access → Bool) (w : State), Delivers p u w → w.hart.hits = u.hart.hits →
      (w.hart.pend.filter fun a => !p a) = u.hart.pend.filter fun a => !p a)

/-- R97, R128, R136, R230: a tag that no load and no collective holds leaves every taint set; an acknowledged store leaves
the list of those waited for; a train that is applied whole is acknowledged; a non-blocking instruction all of whose
accesses are performed advances its counter. -/
def bookkeepingEvents : Prop :=
  ∀ (s : State) (r : HartRef) (h : Hart) (t : BitVec 4) (i c n : Nat) (o : NbOp), s.findHart r = some h →
    (bitOf h.tagBusy t.toNat = true → h.tagPending t = false →
      ChangesHart s r (fun _ => h.clearTags (tagBit t)) (exec (.tagRetire r t) s)) ∧
    ChangesHart s r (fun h => { h with unacked := h.unacked.eraseIdx i }) (exec (.storeAcknowledge r i) s) ∧
    (h.pend.any (·.train == some n) = false →
      ChangesHart s r (fun h => ({ h with trains := h.trains.filter (·.1 != n) } : Hart).completeNb)
        (exec (.trainAcknowledge r n) s)) ∧
    (h.nbs[c]? = some o → h.nbDone o.seq = true →
      ChangesHart s r (fun h => ({ h with nbs := h.nbs.eraseIdx c } : Hart).bumpK o.k) (exec (.nbComplete r c) s))

/-- R112 to R118, R128, R136, R230: the steps in which issued accesses are performed and acknowledged. -/
def Obligations.AccessEvents : Prop := performingEvents ∧ groupEvents ∧ bookkeepingEvents

/-- R54, R230: the completion counters. A counter advances by one modulo 2^32; one that wraps sets its kstat.OVF bit
and no other kstat bit changes; no other counter changes. Seen at NB_COMPLETE. -/
def counterRule : Prop :=
  ∀ (s : State) (r : HartRef) (h : Hart) (c : Nat) (o : NbOp), s.findHart r = some h → h.nbs[c]? = some o →
    h.nbDone o.seq = true → ∃ v g, exec (.nbComplete r c) s = .next v ∧ v.findHart r = some g ∧
      g.k[o.k.toNat] = h.k[o.k.toNat] + 1 ∧ (∀ k : KReg, k ≠ o.k → g.k[k.toNat] = h.k[k.toNat]) ∧
      (∀ i : Nat, i < 24 → g.csr.kstat.getLsbD i =
        (h.csr.kstat.getLsbD i || (decide (i = 16 + o.k.toNat) && decide (h.k[o.k.toNat] = 0xFFFFFFFF))))

/-- R352, R353, R355, R356: a walk that finds a leaf fills the TLB that asked, the entries of the same TLB for the same pages
going; one that finds none changes nothing; one that leaves the die's memory stops the machine by name. A walk may start at
a table that the TLBs hold; without one it is the walk of R352, and so is one that finds no leaf from there. A hint fills
the TLB of the die with the leaf or does nothing (which of the two is open, a free value of the model), does nothing where
the checks of R353 fail, or where no stream request that could carry it is on its way, and never fails itself. -/
def translationEvents : Prop :=
  ∀ (s : State) (w : WalkReq) (l : Leaf) (size a : Nat),
    let asid := BitVec.ofNat 16 w.asid
    let cached := fun (core : Option Nat) => s.walkCached w.pkg w.die core asid w.offset
    let entry := fun (core : Option Nat) => ({ pkg := w.pkg, die := w.die, core := core, asid := asid,
                                               page := w.offset - w.offset % size, size := size, leaf := l } : TlbEntry)
    (∀ core, (s.cachedTable w.pkg w.die core asid w.offset = none → cached core = s.walk w.pkg w.die asid w.offset) ∧
      ((∀ m n, cached core ≠ .leaf m n) → cached core = s.walk w.pkg w.die asid w.offset)) ∧
    (cached w.core = .leaf l size → ∃ v, exec (.tlbMissWalk w) s = .next v ∧ v.mem = s.mem ∧ v.hart = s.hart ∧
      v.others = s.others ∧ entry w.core ∈ v.tlb ∧ (∀ e ∈ v.tlb, e = entry w.core ∨ e ∈ s.tlb) ∧
      ∀ e ∈ v.tables, e ∈ s.tables ∨ (e.pkg = w.pkg ∧ e.die = w.die ∧ e.core = w.core ∧ e.asid = asid)) ∧
    ((∃ n, cached w.core = .absent n) → exec (.tlbMissWalk w) s = .next s) ∧
    (cached w.core = .beyond a → exec (.tlbMissWalk w) s = .fault (.noMemory a)) ∧
    (∃ v, exec (.translationHint w) s = .next v ∧ v.mem = s.mem ∧ v.hart = s.hart ∧ v.others = s.others ∧
      (cached none = .leaf l size → ∀ e ∈ v.tlb, e = entry none ∨ e ∈ s.tlb) ∧
      (cached none = .leaf l size → (l.chan ≠ w.chan ∨ l.allows (hintKind w) = false) → v.tlb = s.tlb) ∧
      (cached none = .leaf l size → l.chan = w.chan → l.allows (hintKind w) = true → s.hinted w = true →
        Config.choice s.free = false → entry none ∈ v.tlb) ∧
      (s.hinted w = false → v = s) ∧
      ((∀ m n, cached none ≠ .leaf m n) → v.tlb = s.tlb))

/-- R344, R359, R360: Mucen runs the oldest request that has not ended, one at a time: the counter advances, every TLB
entry of the package that the request names goes, leaf or table, and so does every pre-walked translation of its harts. A
request is acknowledged once every access of its list is performed; one whose tlbinv a trap has interrupted is then
forgotten. -/
def shootdownEvents : Prop :=
  ∀ (s : State) (pkg : Nat) (x : Shoot),
    let p := s.pack pkg
    (p.shoots.find? (!·.acked) = some x → x.ran = none →
      ∃ v, exec (.shootdownRequest pkg) s = .next v ∧ v.mem = s.mem ∧ (v.pack pkg).shootdown = p.shootdown + 1 ∧
        (∃ y ∈ (v.pack pkg).shoots, y.hart = x.hart ∧ y.asid = x.asid ∧ y.offset = x.offset ∧ y.acked = false ∧
          y.ran = some (p.shootdown + 1)) ∧
        (∀ e, e ∈ v.tlb ↔ e ∈ s.tlb ∧ ¬(e.pkg = pkg ∧ Shoot.names x e.asid e.page e.size = true)) ∧
        (∀ e, e ∈ v.tables ↔ e ∈ s.tables ∧ ¬(e.pkg = pkg ∧ Shoot.names x e.asid e.page e.size = true)) ∧
        (∀ h ∈ v.harts, h.pkg = pkg → ∀ q ∈ h.q.toList, q.prewalk = 0)) ∧
    (p.shoots.find? (fun y => y.ran.isSome && !y.acked) = some x →
      (∀ h ∈ s.harts, ∀ a ∈ h.pend, Shoot.covers x pkg h a = true → (h.ref, a.seq) ∉ x.waits) →
      ChangesPack s pkg { p with shoots :=
          (p.shoots.set (p.shoots.idxOf x) { x with acked := true }).filter fun z => !(z.acked && z.orphan) }
        (exec (.shootdownAcknowledge pkg) s))

/-- R54, R344, R352 to R360: walks, hints, shoot-downs, and the counters that completion advances. -/
def Obligations.TranslationAndCounters : Prop := translationEvents ∧ shootdownEvents ∧ counterRule

/-! ### Engine commands -/

/-- R253, R254, R259: with no interlock entry in the way a copy or a Fuller command whose operands pass the checks is
added to the commands of the hart, with what it captures, and the hart runs on; nothing is stored yet. A Fuller command
reads its descriptor when it issues, once the accesses that write it are performed. -/
def engineIssue : Prop :=
  ∀ (s : State) (d a : SReg) (qa qb : QReg) (k : KReg) (l : Loc),
    let dst := s.hart.q[qa.toNat]
    let src := s.hart.q[qb.toNat]
    (dst.sc = false → src.sc = false → s.streamOk dst = .ok none → s.streamOk src = .ok none →
      MemFmt.cls dst.fmt = MemFmt.cls src.fmt →
      ∀ p ∈ [(Instr.cpy qa qb a k, [a], none), (Instr.cpyff d qa qb a k, [a, d], some d)],
        let u := complete s (dst.vregs ++ src.vregs) p.2.1
        let n := (u.hart.getS a).toNat
        (s.ready (dst.vregs ++ src.vregs) p.2.1).isOk = true → (∀ c ∈ u.hart.cmds, c.queued = false ∧ c.ranges = []) → n < 2 ^ 32 → (3 ≤ dst.kind.toNat ∨ 3 ≤ src.kind.toNat → n ≤ u.hart.maxElems) → u.hart.interlock = [] →
        ∃ v c, exec p.1 s = .next v ∧ v.mem = u.mem ∧ v.hart = { u.hart with
            pc := u.hart.pc + 8, status := .running, seq := u.hart.seq + 1, interlock := v.hart.interlock,
            cmds := u.hart.cmds ++ [c] } ∧ c.k = k ∧ c.seq = u.hart.seq ∧ c.stopped = false ∧ c.next = 0 ∧
          c.op = .copy dst src (u.hart.streamIdx dst n).toList (u.hart.streamIdx src n).toList (u.hart.tagOf dst.idx)
            (u.hart.tagOf src.idx) n u.hart.csr.sbase p.2.2) ∧
    (let t := s.needS [a]
     let x := t.hart.getS a
     fieldOf x 61 3 = 1 → x.toNat % 64 = 0 → t.check19 t.hart t.hart.asid x 8 .read .any = .ok l →
     ∀ u : State, t.settle (t.hart.taintS a) = .ok u → (u.awaitTurn (u.hart.canon x) 64 false).isOk = true →
     let w := u.drainUntil fun y => decide (y.addr < l.phys + 64 ∧ l.phys < y.addr + y.size)
     w.poisoned l.phys = false → w.poisoned (l.phys + 32) = false → w.hart.interlock = [] →
     (∀ c ∈ w.hart.cmds, c.queued = false ∧ c.ranges = []) →
     ∃ v c, exec (.fmp a k) s = .next v ∧ v.mem = w.mem ∧ v.hart = { w.hart with
         pc := w.hart.pc + 8, status := .running, seq := w.hart.seq + 1, interlock := v.hart.interlock,
         cmds := w.hart.cmds ++ [c] } ∧ c.k = k ∧ c.seq = w.hart.seq ∧ c.stopped = false ∧ c.next = 0 ∧
       c.op = .fuller (readQuads w.mem l.phys 8) x)

/-- R111, R127, R251, R254, R257, R261, R263: a command that has its interlock entries, that no fault has stopped and
no tag holds, and that no earlier entry of the vector queue and no earlier access to what it accesses keeps waiting, and,
for a Fuller command, that is the oldest of its core, runs after the earlier accesses of its hart; where it does not fault, its record, status and counter
are as R257 says and it is gone. -/
def engineCompletion : Prop :=
  ∀ (s : State) (r : HartRef) (i : Nat) (c : Cmd), s.placed r = true →
    let u := s.focus r
    u.hart.cmds[i]? = some c → u.hart.mayRun c = true →
    let w := u.drainUntil fun a => decide (a.seq < c.seq)
    let x := w.runCmd c
    w.hart.standsBefore c = false → x.stop = none →
    let after := ((x.s.notePoison x.c).mapHart (·.completeCmd x.c none)).focus s.hart.ref
    (Cmd.isCopy c = true → exec (.copyComplete r i) s = .next after) ∧
    (Cmd.isFuller c = true → u.fullerTurn c = true → exec (.fullerComplete r i) s = .next after) ∧
    (Cmd.isDrain c = true → exec (.mstComplete r i) s = .next after)

/-- R132, R133, R257: what completion leaves: the command and its interlock entries gone (each command's entries carry its
number), its counter one higher, and, of a copy or
Fuller command, the record with the elements done and status 2, or 3 where it marked poison. -/
def engineRecords : Prop :=
  ∀ (h : Hart) (c : Cmd), (∀ x ∈ h.cmds, ∀ e ∈ x.ranges, e.seq = x.seq) →
    let g := h.completeCmd c none
    (∀ x ∈ g.cmds, x.seq ≠ c.seq) ∧ (∀ x ∈ g.interlock, x.seq ≠ c.seq) ∧
    g.k[c.k.toNat] = h.k[c.k.toNat] + 1 ∧
    (Cmd.recorded c = true → g.records[c.k.toNat].done = BitVec.ofNat 32 c.next ∧
      g.records[c.k.toNat].status = (if c.marked = [] then 2 else 3)) ∧
    g.pc = h.pc ∧ g.v = h.v ∧ g.m = h.m ∧ g.q = h.q

/-- R251 to R263: issuing, completing and recording engine commands. -/
def Obligations.EngineInstructions : Prop := engineIssue ∧ engineCompletion ∧ engineRecords

/-! ### Bindings, messages, groups, collectives -/

/-- The Fabric binding trap of an instruction of the hart whose turn it is (R264). -/
def bindingTrap (s : State) : Host.Outcome State Fault Refusal :=
  .next (s.takeTrap { cause := 0x0D, tinfo := s.hart.ir })

/-- R264, R410: fsbind.p binds f to a peer hart and a channel, with no message sent; a field out of range or an absent
package is the Fabric binding trap. A binding is sealed where the instruction says so or the hart is of an enclave (log
entry 60), and then both harts must be of it, or the trap is Permission. fsbind.g binds f to a joined group, sealed where
its descriptor says so or the hart is of an enclave, and traps where the index holds none. fsfree leaves f unbound. Each waits while an earlier fabric instruction that names f has not been
sent. -/
def bindingRules : Prop :=
  ∀ (s : State) (crypt : Bool) (f : FReg) (a b : SReg) (j : BitVec 4),
    (let u := s.needS [a, b]
     let h := u.hart
     let id := h.getS a
     let ch := h.getS b
     let field := fieldOf id 12 8
     let legal := fieldOf id 20 44 = 0 ∧ fieldOf ch 16 48 = 0 ∧ fieldOf id 0 12 ≤ 3071 ∧ u.pkgPresent h.pkg field = true
     let peer : HartRef := ⟨pkgOf h.pkg field, fieldOf id 0 12⟩
     let e := u.memberOf h.pkg h.asid
     let bound := fun (c : Bool) => ran { u with hart :=
       { h with f := h.f.set f.toNat (.peer c peer (fieldOf ch 0 16) 0 0) } } 8
     let both := ∃ x, e = some x ∧ u.peerIn x.1 peer = true
     (u.hart.sendsLeft f = false →
       (legal → both → exec (.fsbindPeer crypt f a b) s = .next (bound true)) ∧
       (legal → crypt = false → e = none → exec (.fsbindPeer crypt f a b) s = .next (bound false)) ∧
       (legal → (crypt = true ∨ e ≠ none) → ¬both → ∃ x, exec (.fsbindPeer crypt f a b) s =
         .next (u.drawn.takeTrap { cause := 0x09, tinfo := x })) ∧
       (¬legal → exec (.fsbindPeer crypt f a b) s = bindingTrap u)) ∧
     (u.hart.sendsLeft f = true → exec (.fsbindPeer crypt f a b) s = .next (u.holdHart .unbind))) ∧
    (s.hart.sendsLeft f = false →
      (∀ x, s.hart.joined[j.toNat] = some x →
        let new : Binding := .group j (bitOf (s.groupQuad s.hart.pkg x.handle 1) 43 || (s.memberOf s.hart.pkg s.hart.asid).isSome) 0 0
        exec (.fsbindGroup f j) s =
          .next (ran { s with hart := { s.hart with f := s.hart.f.set f.toNat new } } 8)) ∧
      (s.hart.joined[j.toNat] = none → exec (.fsbindGroup f j) s = bindingTrap s) ∧
      exec (.fsfree f) s =
        .next (ran { s with hart := { s.hart with f := s.hart.f.set f.toNat .unbound } } 8)) ∧
    (s.hart.sendsLeft f = true → exec (.fsbindGroup f j) s = .next (s.holdHart .unbind) ∧
      exec (.fsfree f) s = .next (s.holdHart .unbind))

/-- R265 to R267: vsend puts the body elements of va, with its tag, on the way to the bound peer, and the number of
messages sent on the binding advances; while four messages of the binding that no vrecv has taken are on the way it stands
in the vector queue and the hart goes on. vrecv takes the oldest message of its peer and channel that no vrecv has, once its header is there
(log entry 132: the header comes with packet 0), and waits before: vd takes its tag and the elements that have come, vl its
length, at most the vlmax of the level, and vstat.SHORT says that it was cut. A whole message is gone; of another the
elements that have not come are pending. -/
def messageRules : Prop :=
  ∀ (s : State) (nb : Bool) (f : FReg) (v : VReg) (k : KReg) (sealed : Bool) (peer : HartRef) (channel sent taken : Nat),
    s.hart.f[f.toNat] = .peer sealed peer channel sent taken → VectorReady s [v] →
    (let mine := s.messages.filter fun m => m.sender == s.hart.ref && m.gang == s.hart.csr.gangid && m.f == f && !s.taken m
     let u := complete s [v] []
     (mine.length < 4 → ∀ w : State, u.settle (u.hart.taintV v) = .ok w → ∃ m : Message, exec (.vsend nb f v k) s =
         .next (ranV s { w with messages := w.messages ++ [m], serial := w.serial + 1 } 8
           { w.hart with f := w.hart.f.set f.toNat (.peer sealed peer channel (sent + 1) taken) }) ∧
       m.number = w.serial ∧ m.sender = w.hart.ref ∧ m.dst = peer ∧ m.channel = channel ∧ m.seq = sent ∧ m.crypt = sealed ∧
       m.tag = w.hart.tagOf v ∧ m.elems = (w.hart.elems v (w.hart.tagOf v) w.hart.csr.vl.toNat).toList ∧ m.k = k ∧ m.nb = nb ∧
       m.arrived = [] ∧ m.admitted = false ∧ m.waiting = false) ∧
     (4 ≤ mine.length → wordInstr s.hart.ir = some (.vsend nb f v k) → s.hart.frozen = [] →
       ∀ w : State, s.settleS [s.hart.ir] = .ok w → exec (.vsend nb f v k) s = .next (ran { w with hart := { w.hart with
         frozen := [{ w.hart.entryOf s.hart.ir s.hart.pc with tag := none, collSeq := none }], thaw := true, seq := w.hart.seq + 1 } } 8))) ∧
    (let mine := fun (m : Message) => m.sender == peer && m.dst == s.hart.ref && m.channel == channel &&
       !s.hart.colls.any (·.msg == some m.number)
     (∀ m ∈ s.messages, mine m = true → m.crypt = sealed) →
     ((∀ m, s.messages.find? mine = some m → m.headed = false) → wordInstr s.hart.ir = some (.vrecv nb v f k) →
       exec (.vrecv nb v f k) s = .next (s.holdHart .header)) ∧
     (∀ m, s.messages.find? mine = some m → m.headed = true → (m.tag.wide = true → s.hart.csr.w64 = true) →
       let u := complete s [v] []
       let n := min m.elems.length u.hart.maxElems
       ∃ t, exec (.vrecv nb v f k) s = .next t ∧ t.mem = u.mem ∧ t.hart.tagOf v = m.tag ∧
         t.hart = { u.hart with
           pc := u.hart.pc + 8, status := .running, seq := u.hart.seq + 1, v := t.hart.v, colls := t.hart.colls,
           flights := t.hart.flights, tagBusy := t.hart.tagBusy, tag0Last := t.hart.tag0Last, k := t.hart.k,
           f := u.hart.f.set f.toNat (.peer sealed peer channel sent (taken + 1)),
           csr := { u.hart.csr with vl := BitVec.ofNat 32 n, vlast := v, vstat := t.hart.csr.vstat,
                                    kstat := t.hart.csr.kstat } } ∧
         (t.hart.csr.vstat.getLsbD 0 = (u.hart.csr.vstat.getLsbD 0 || decide (u.hart.maxElems < m.elems.length))) ∧
         (∀ r : VReg, t.hart.v[r.toNat].data =
           (({ u.hart with csr := { u.hart.csr with vl := BitVec.ofNat 32 n } } : Hart).writeV v m.tag
             (fun i => m.arrived.contains (m.packetOf i)) false (m.elems.take n) 0).v[r.toNat].data) ∧
         (m.whole = true → t.messages = s.messages.filter (·.number != m.number) ∧
           t.hart.colls = u.hart.colls.filter (·.msg != some m.number)) ∧
         (m.whole = false → t.messages = s.messages ∧ ∃ c : CollLoad, t.hart.colls = u.hart.colls ++ [c] ∧
           c.msg = some m.number ∧ c.len = n ∧ c.vd = v ∧ c.tag = m.tag ∧ c.got = m.arrived ∧ c.nb = nb ∧ c.k = k)))

/-- R266, R267, R380: a packet of a message that the receive area of its receiver has room for is taken, the first one
reserving the room, which meets that of no other message there, and its bytes are put there; a vrecv that waits for the message takes its elements, and with the last of them the message. Without room the
receiver answers not ready, and the sender's Mucen, taking that answer, sends again. A message that the receiver cannot
take (no room for its length at all, another sealing, a dropped key) is refused, and its sender's counter advances with
ERR. -/
def packetRules : Prop :=
  (∀ (s : State) (m packet : Nat) (x : Message), s.messages.find? (·.number == m) = some x →
    let area := s.areaBytes x.dst.pkg (HartRef.die x.dst)
    let put := fun (y : Message) =>
      ({ s with messages := s.messages.map fun z => if z.number = m then y else z } : State)
    let good := 0 < area ∧ x.bytes ≤ area ∧ s.sealDiffers x = false ∧ (x.crypt = true → s.keyDropped x.dst.pkg x.origin = false)
    let room := if x.admitted then some x.place else s.roomFor x area
    (∀ n, s.roomFor x area = some n → n + x.bytes ≤ area ∧
      ∀ z ∈ s.messages, z.dst = x.dst → z.admitted = true → z.number ≠ x.number → meets n x.bytes z.place z.bytes = false) ∧
    (x.waiting = false → packet < x.packets → packet ∉ x.arrived →
    (¬good → exec (.messagePacketArrive m packet) s = .next (s.refuseMessage x)) ∧
    (∀ n, good → room = some n →
      let y := { x with admitted := true, place := n, arrived := packet :: x.arrived }
      let at_ := hbmKey x.dst.pkg (HartRef.die x.dst) (fieldOf (s.fabricQuad x.dst.pkg (0x40 + 8 * HartRef.die x.dst)) 16 21 * 65536 +
        area * (x.dst.hid % 768)) + n + 4096 * packet
      let placed := (put y).placeBytes at_ (y.packetBytes packet) []
      (s.findHart x.dst = none → exec (.messagePacketArrive m packet) s = .next placed) ∧
      (∀ h, s.findHart x.dst = some h → h.status ≠ .vacant →
        ∃ v, exec (.messagePacketArrive m packet) s = .next v ∧ v.mem = placed.mem ∧
          (h.colls.find? (·.msg == some x.number) = none → v.messages = (put y).messages ∧ v.findHart x.dst = some h) ∧
          (∀ c, h.colls.find? (·.msg == some x.number) = some c → ∃ g, v.findHart x.dst = some g ∧
            g.v = (h.putMessage y c).v ∧ (y.whole = false → v.messages = (put y).messages) ∧
            (y.whole = true → (∀ z ∈ v.messages, z.number ≠ m) ∧ ∀ c ∈ g.colls, c.msg ≠ some m)))) ∧
    (good → room = none → exec (.messagePacketArrive m packet) s = .next (put { x with waiting := true })))) ∧
  (∀ (s : State) (m : Nat), ∃ v, exec (.notReadyAnswer m) s = .next v ∧ v.mem = s.mem ∧ v.hart = s.hart ∧
    v.others = s.others ∧ (∀ x ∈ v.messages, x.number = m → x.waiting = false) ∧
    (∀ o ∈ v.ops, ∀ p ∈ o.parts, p.number = m → p.waiting = []) ∧
    (v.messages.filter (·.number != m)) = s.messages.filter (·.number != m))

/-- R264 to R267, R380: bindings and messages. -/
def Obligations.BindingsAndMessages : Prop := bindingRules ∧ messageRules ∧ packetRules

/-- R268 to R270: the group word; joining, which answers 0, or 1 for a handle that names no group of the address space, 2
for a rank out of range or taken, 3 for an index that holds a group; and leaving, which waits for the open
operation and unbinds the registers bound to the group. -/
def membershipRules : Prop :=
  ∀ (s : State) (d a b : SReg) (j : BitVec 4),
    (let u := s.needS [d]
     ∀ x, u.hart.joined[j.toNat] = some x →
      let word : Quad := BitVec.ofNat 64 (x.abort.toNat * 2 ^ 40 + (if u.groupReady u.hart.pkg x.handle then 2 ^ 33 else 0) +
        (if bitOf (u.groupQuad u.hart.pkg x.handle 1) 43 || (u.memberOf u.hart.pkg u.hart.asid).isSome then 2 ^ 32 else 0) +
        (u.groupSize u.hart.pkg x.handle - 1) * 2 ^ 16 + x.rank % 2 ^ 16)
      exec (.cstat d j) s = .next (ranS u 8 d word 0) ∧
      exec (.cgsel d j) s =
        .next (ranS { u with hart := { u.hart with csr := { u.hart.csr with cgrp := j } } } 8 d word 0)) ∧
    (let u := s.needS [d, a, b]
     let h := u.hart
     let handle := h.getS a
     let rank := h.getS b
     let q := u.groupQuad h.pkg handle 0
     let known := (u.blockBase h.pkg 2).isSome = true ∧ fieldOf handle 32 12 = 0 ∧ fieldOf q 32 32 = fieldOf handle 0 32 ∧
       fieldOf q 16 16 = h.asid.toNat
     let free := rank.toNat < u.groupSize h.pkg handle ∧ (u.group handle).joined.any (·.1 == rank.toNat) = false
     (¬known → exec (.cjoin d j a b) s = .next (ranS u 8 d 1 0)) ∧
     (known → ¬free → exec (.cjoin d j a b) s = .next (ranS u 8 d 2 0)) ∧
     (known → free → h.joined[j.toNat] ≠ none → exec (.cjoin d j a b) s = .next (ranS u 8 d 3 0)) ∧
     (known → free → h.joined[j.toNat] = none → ∃ v, exec (.cjoin d j a b) s = .next v ∧ v.mem = u.mem ∧
       v.hart = { (ranS u 8 d 0 0).hart with
         joined := h.joined.set j.toNat (some { handle := handle, rank := rank.toNat }) } ∧
       (v.group handle).joined = (rank.toNat, h.ref) :: (u.group handle).joined)) ∧
    (∀ x, s.hart.joined[j.toNat] = some x →
      (s.collOpen x = true → exec (.cleave j) s = .next (s.holdHart .collective)) ∧
      (s.collOpen x = false → ∃ v, exec (.cleave j) s = .next v ∧ v.mem = s.mem ∧ v.hart = { s.hart with
          pc := s.hart.pc + 8, status := .running, f := v.hart.f, joined := s.hart.joined.set j.toNat none } ∧
        (∀ (i : BitVec 4) (c : Bool) (m n : Nat), Binding.group j c m n ∉ v.hart.f.toList ∧
          (i ≠ j → (Binding.group i c m n ∈ v.hart.f.toList ↔ Binding.group i c m n ∈ s.hart.f.toList))) ∧
        (v.group x.handle).joined = (s.group x.handle).joined.filter (·.1 != x.rank) ∧
        (v.group x.handle).leaving = x.rank :: (s.group x.handle).leaving)) ∧
    (s.hart.joined[j.toNat] = none → exec (.cleave j) s = bindingTrap s)

/-- R271 to R276, R279: a collective vst sends the elements of its register that the mask has active, with tag, cop and
cstride, under the next sequence number of the group, and counts it on the binding; a collective vld closes it: it takes a
tag for its register, which gets the number format of what was sent, and is
pending until the result is there. cbar sends an empty contribution and waits; it answers 0 once the operation is
committed, as far as the tree has told every package, and 1 once the abort has reached its hart. cabort sends an abort of cause 6. -/
def collectiveRules : Prop :=
  (∀ (s : State) (o : VColl) (j : BitVec 4) (sealed : Bool) (sent taken : Nat) (x : Joined),
    s.hart.f[o.f.toNat] = .group j sealed sent taken →
    s.hart.joined[j.toNat] = some x → VectorReady s [o.reg] → s.hart.collSeq = none →
    copLegal s.hart.csr.cop (s.groupSize s.hart.pkg x.handle) = true →
    (let cop := s.hart.csr.cop
     let cs := s.hart.csr.cstride.toNat
     let t := s.hart.tagOf o.reg
     let u := complete s [o.reg] []
     ∀ w : State, u.settle (u.hart.taintV o.reg ||| u.hart.taintM o.mask.m) = .ok w →
     let h := w.hart
     (t.isF = true → copPat cop ≤ 1 → copOp cop < 3) → (copPat cop ∈ [1, 2, 4] → 0 < cs) →
     (copPat cop = 2 → s.hart.csr.vl.toNat ≤ cs) →
     (copPat cop = 4 → s.hart.csr.vl.toNat ≤ s.groupSize s.hart.pkg x.handle * cs) →
     x.opened = false → x.barrier = none →
     (∀ op, w.findOp x.handle x.cseq = some op → op.told.contains x.rank = false) →
     ∃ (v : State) (p : Contribution) (op : CollOp), exec (.collectiveVst o) s = .next v ∧ v.mem = w.mem ∧
       v.hart = { h with
         pc := h.pc + 8, status := .running, seq := h.seq + 1, flights := v.hart.flights,
         joined := h.joined.set j.toNat (some { x with
           cseq := x.cseq + 1, opened := true, openSeq := x.cseq, openTag := t, barrier := none }),
         f := h.f.set o.f.toNat (.group j sealed (sent + 1) taken) } ∧ v.findOp x.handle x.cseq = some op ∧ p ∈ op.parts ∧ p.rank = x.rank ∧ p.hart = h.ref ∧
       p.body = some (t, h.csr.cop, h.csr.cstride) ∧ p.k = o.k ∧ p.nb = o.nb ∧ p.accepted = false ∧
       p.elems = (List.range h.csr.vl.toNat).map fun i =>
         if h.active o.mask i then some ((h.elems o.reg t h.csr.vl.toNat).getD i 0) else none) ∧
    (let op := s.findOp x.handle x.openSeq
     let t := x.openTag
     let v := complete s [o.reg] []
     ∀ u : State, v.settle (v.hart.taintM o.mask.m) = .ok u → x.opened = true → (t.wide = true → s.hart.csr.w64 = true) →
     ∃ (w : State) (c : CollLoad), exec (.collectiveVld o) s = .next (ranV s (w.settleColl c x.rank) 8 (w.settleColl c x.rank).hart) ∧
       w.mem = u.mem ∧ w.ops = u.ops ∧ c.handle = x.handle ∧
       c.seq = x.openSeq ∧ c.vd = o.reg ∧ c.k = o.k ∧ c.nb = o.nb ∧ w.hart.tagOf o.reg = t ∧
       w.hart = { u.hart with
         colls := u.hart.colls ++ [c], joined := u.hart.joined.set j.toNat (some { x with opened := false }),
         f := u.hart.f.set o.f.toNat (.group j sealed sent (taken + 1)), v := w.hart.v,
         tagBusy := u.hart.allocTag.1.tagBusy, tag0Last := u.hart.allocTag.1.tag0Last,
         csr := { u.hart.csr with vlast := o.reg } } ∧
       (∀ r : VReg, r ≠ o.reg → w.hart.v[r.toNat] = u.hart.v[r.toNat]) ∧
       (∀ p, op = some p → p.verdict = none → w.settleColl c x.rank = w))) ∧
  (∀ (s : State) (d : SReg),
    let u := s.needS [d]
    let j := u.hart.csr.cgrp
    ∀ x, u.hart.joined[j.toNat] = some x →
    (∀ q o, x.barrier = some q → u.findOp x.handle q = some o →
      (o.verdict = some .committed → u.isReleased o = false → exec (.cbar d) s = .next (u.holdHart .collective)) ∧
      (o.verdict = some .committed → u.isReleased o = true → ∃ v, exec (.cbar d) s = .next v ∧ v.mem = u.mem ∧
        v.hart = { (ranS u 8 d 0 0).hart with joined := u.hart.joined.set j.toNat (some { x with barrier := none }) }) ∧
      (∀ cause, o.verdict = some (.aborted cause) → o.told.contains x.rank = true →
        ∃ v, exec (.cbar d) s = .next v ∧ v.mem = u.mem ∧
          v.hart = { (ranS u 8 d 1 0).hart with
            joined := u.hart.joined.set j.toNat (some { x with barrier := none }),
            csr := { u.hart.csr with aseq := o.seq, acause := cause } }) ∧
      (o.verdict = none → exec (.cbar d) s = .next (u.holdHart .collective))) ∧
    (x.barrier = none → x.opened = false → u.hart.collSeq = none → SyncReady u .g →
      ∃ (v : State) (p : Contribution) (op : CollOp), exec (.cbar d) s = .next v ∧ v.hart.status = .held .collective ∧ v.hart.pc = u.hart.pc ∧
        v.hart.joined[j.toNat] = some { x with
          cseq := x.cseq + 1, opened := false, openSeq := x.cseq, barrier := some x.cseq } ∧
        v.findOp x.handle x.cseq = some op ∧ p ∈ op.parts ∧ p.rank = x.rank ∧ p.body = none ∧ p.elems = [])) ∧
  (∀ (s : State) (x : Joined), s.hart.joined[s.hart.csr.cgrp.toNat] = some x →
    let at_ := if x.opened = true ∨ x.barrier ≠ none ∨ s.collOpen x = true then x.cseq - 1 else x.cseq
    exec .cabort s = .next (ran { s with aborts := s.aborts ++ [⟨x.handle, at_, 6, s.hart.pkg⟩] } 8))

/-- R276 to R278, R404: in the tree. A contribution that reaches a package of the tree with room for it is taken there, its
part put into STAGE, and is accepted once every package of the tree has it. A package whose own count and whose children's
counts are complete sends its count up; the root then commits; the decision goes down from parent to child, and once every
package has it the members take their results. An abort goes up from parent to parent; one that reaches the root first
decides it, and that goes down likewise and is told to each member, whose next
sequence number it moves past the operation; the lag limit, counted from the first contribution to a group that is ready, and the departure of a
rank that has not contributed send an abort of cause 2 and of cause 1. -/
def treeRules : Prop :=
  ∀ (s : State) (g : OpRef) (o : CollOp), s.findOp g.handle (BitVec.ofNat 32 g.seq) = some o →
    (∀ (rank pkg : Nat) (p : Contribution), o.parts.find? (·.rank == rank) = some p → o.verdict = none →
      let tree := s.treeOf o.pkg o.handle
      pkg ∈ tree → pkg ∉ p.arrived → pkg ∉ p.waiting →
      (s.keyDropped pkg p.origin = true → exec (.collectiveContributionArrive g rank pkg) s =
        .next { s with aborts := s.aborts ++ [⟨o.handle, o.seq, 5, pkg⟩] }) ∧
      (s.keyDropped pkg p.origin = false → ∃ (v : State) (o' : CollOp) (q : Contribution), exec (.collectiveContributionArrive g rank pkg) s = .next v ∧
        v.mem = (if s.stageFull pkg o.handle tree then s.mem else (s.stagePart pkg o.handle tree p).mem) ∧
        v.findOp g.handle (BitVec.ofNat 32 g.seq) = some o' ∧ o'.verdict = none ∧
        o'.first = some (o.first.getD s.clock) ∧ q ∈ o'.parts ∧ q.rank = rank ∧ q.elems = p.elems ∧
        (s.stageFull pkg o.handle tree = true → q.waiting = pkg :: p.waiting ∧ q.arrived = p.arrived) ∧
        (s.stageFull pkg o.handle tree = false → q.arrived = pkg :: p.arrived ∧
          q.accepted = (p.accepted || tree.all (pkg :: p.arrived).contains)))) ∧
    (let root := s.rootOf o.pkg o.handle
     let counts := fun (p : Nat) => (∀ r < s.groupSize o.pkg o.handle, ∃ x ∈ o.parts, x.rank = r ∧ p ∈ x.arrived) ∧
       ∀ n ∈ s.treeNodes o.pkg o.handle, n.pkg = p → ∀ c ∈ n.children, c ∈ o.counted
     let goes := fun (o' : CollOp) =>
       let u := s.setOp o'
       if (u.treeOf o.pkg o.handle).all o'.reached.contains then u.settleMembers o.handle o.seq else u
     (o.verdict = none → counts root → exec (.collectiveCommit g) s =
       .next (goes { o with verdict := some .committed, reached := [root] })) ∧
     (o.verdict = none → ¬counts root → ∀ p ∈ s.treeOf o.pkg o.handle, p ≠ root → p ∉ o.counted → counts p →
       ∃ q ∈ s.treeOf o.pkg o.handle, q ≠ root ∧ q ∉ o.counted ∧ counts q ∧
         exec (.collectiveCommit g) s = .next (s.setOp { o with counted := q :: o.counted })) ∧
     (o.verdict = some .committed → ∀ p n, n ∈ s.treeNodes o.pkg o.handle → n.pkg ∈ o.reached → p ∈ n.children →
       p ∈ s.treeOf o.pkg o.handle → p ∉ o.reached →
       ∃ q n, n ∈ s.treeNodes o.pkg o.handle ∧ n.pkg ∈ o.reached ∧ q ∈ n.children ∧ q ∉ o.reached ∧
         exec (.collectiveCommit g) s = .next (goes { o with reached := q :: o.reached }))) ∧
    (∀ (cause : Nat) (pkg : Nat), cause < 256 →
      let seq := BitVec.ofNat 32 g.seq
      let msg : AbortMsg := ⟨g.handle, seq, BitVec.ofNat 8 cause, pkg⟩
      let root := s.rootOf o.pkg g.handle
      let nodes := s.treeNodes o.pkg g.handle
      let left := s.aborts.filter fun a => !(a.handle == g.handle && a.seq == seq && a.cause.toNat == cause && a.at_ == pkg)
      (msg ∈ s.aborts → pkg = root → ∃ (v : State) (o' : CollOp), exec (.abort g cause (.unit pkg)) s = .next v ∧
        v.mem = s.mem ∧ v.hart = s.hart ∧ v.aborts = left ∧ v.findOp g.handle seq = some o' ∧
        (o.verdict = none → o'.verdict = some (.aborted (BitVec.ofNat 8 cause)) ∧ o'.reached = [root]) ∧
        (o.verdict ≠ none → o' = o)) ∧
      (msg ∈ s.aborts → pkg ≠ root → exec (.abort g cause (.unit pkg)) s = .next { s with
        aborts := left ++ [⟨g.handle, seq, BitVec.ofNat 8 cause, ((nodes.find? (·.pkg == pkg)).map (·.parent)).getD root⟩] }) ∧
      (msg ∉ s.aborts → o.verdict = some (.aborted (BitVec.ofNat 8 cause)) → pkg ∉ o.reached →
        (∃ n ∈ nodes, n.pkg ∈ o.reached ∧ pkg ∈ n.children) →
        exec (.abort g cause (.unit pkg)) s = .next (s.setOp { o with reached := pkg :: o.reached }))) ∧
    (∀ (cause : Nat) (c : Byte) (r : HartRef) (j : Nat) (x : Joined), o.verdict = some (.aborted c) → s.placed r = true →
      let u := s.focus r
      j < 16 → u.hart.joined[j]! = some x → x.handle = g.handle → x.rank ∉ o.told →
      (r.pkg ∈ s.treeOf o.pkg o.handle → r.pkg ∈ o.reached) → (∀ i < j, ∀ y, u.hart.joined[i]! = some y → y.handle ≠ g.handle) →
      ∃ v : State, exec (.abort g cause (.member r)) s = .next (v.focus s.hart.ref) ∧ v.hart.ref = r ∧
        (let next := if (o.seq - x.cseq).toNat < 2 ^ 31 then o.seq + 1 else x.cseq
         v.hart.joined[j]! = some { x with cseq := next, abort := c })) ∧
    (∀ t, o.first = some t → o.verdict = none → s.groupReady o.pkg o.handle = true → s.opComplete o = false →
      max t (s.group o.handle).readyAt + fieldOf (s.groupQuad o.pkg o.handle 1) 0 20 * 1200 ≤ s.clock →
      exec (.lagLimitExpiry g) s = .next { s with aborts := s.aborts ++ [⟨o.handle, o.seq, 2, o.pkg⟩] }) ∧
    (∀ rank, rank ∈ (s.group g.handle).leaving → ∃ v, exec (.rankDeparture g.handle rank) s = .next v ∧ v.mem = s.mem ∧
      v.hart = s.hart ∧ (v.group g.handle).leaving = (s.group g.handle).leaving.erase rank ∧
      (v.group g.handle).joined = (s.group g.handle).joined ∧
      ∀ p ∈ s.ops, p.handle = g.handle → p.verdict = none → p.parts.any (·.rank == rank) = false →
        (⟨g.handle, p.seq, 1, p.pkg⟩ : AbortMsg) ∈ v.aborts)

/-- R268 to R279, R404: groups and collective operations. -/
def Obligations.GroupsAndCollectives : Prop := membershipRules ∧ collectiveRules ∧ treeRules

/-! ### Circuits -/

/-- R118, R127, R280, R321: sqpost answers 2 for a destination without a slot, 1 for a full send queue, and else 0 with the
post at the end of the queue and its interlock entry in the table; the post itself waits for the loads that its operands
depend on and for the earlier stores to its source. sqstat answers the
bytes and posts that are not sent, the free places and the slots of a destination, and traps (0x07) for a package that does
not exist. -/
def postRules : Prop :=
  ∀ (s : State) (d a b c : SReg) (k : KReg),
    (let u := s.needS [d, a, b, c]
     let t := u.hart.taintS a ||| u.hart.taintS b ||| u.hart.taintS c ||| u.hart.ct
     let w := if u.hart.pendingOf t then u.drain else u
     let src := w.hart.getS a
     let dst := w.hart.getS b
     let n := (w.hart.getS c).toNat
     let dest := pkgOf w.hart.pkg (fieldOf dst 53 8)
     let p := w.pack w.hart.pkg
     w.check17 src 64 .engRead .own = .ok () → w.check17 dst 64 .engWrite .home = .ok () →
     w.hart.struck = false → n % 64 = 0 → 64 ≤ n → n ≤ 2 ^ 32 - 64 →
     (dest = w.hart.pkg ∨ p.routes dest = [] → exec (.sqpost d a b c k) s = .next (ranS w 8 d 2 0)) ∧
     (dest ≠ w.hart.pkg → p.routes dest ≠ [] →
       (64 ≤ (p.queued dest).length → exec (.sqpost d a b c k) s = .next (ranS w 8 d 1 0)) ∧
       ((p.queued dest).length < 64 → w.hart.interlock = [] → (∀ c ∈ w.hart.cmds, c.queued = false ∧ c.ranges = []) →
         ∃ v x, exec (.sqpost d a b c k) s = .next v ∧ v.mem = w.mem ∧
           v.hart = { (ranS w 8 d 0 0).hart with interlock := v.hart.interlock, seq := w.hart.seq + 1 } ∧
           (v.pack w.hart.pkg).posts = p.posts ++ [x] ∧ x.number = w.serial ∧ x.waits = w.hart.holders t ++ w.hart.earlier src n ∧
           x.seq = w.hart.seq ∧ x.dest = dest ∧ x.src = src ∧ x.dst = dst ∧
           x.len = n ∧ x.k = k ∧ x.hart = w.hart.ref ∧ x.asid = w.hart.asid ∧ x.next = 0 ∧ x.placed = 0 ∧
           x.failed = false ∧ x.cut = false))) ∧
    (let u := s.needS [d, a]
     let n := (u.hart.getS a).toNat
     let p := u.pack u.hart.pkg
     let mine := p.queued n
     let pending := (mine.map fun x => x.len - x.next).sum
     let slots := if n = u.hart.pkg then 0 else ((p.routes n).map (·.slot)).eraseDups.length
     let known := n ≤ 254 ∧ u.routed u.hart.pkg n = true
     (known → exec (.sqstat d a) s = .next (ranS u 8 d (BitVec.ofNat 64 (min 0xFFFFFFFF pending * 2 ^ 32 + slots * 2 ^ 16 +
       (64 - mine.length) * 256 + mine.length)) 0)) ∧
     (¬known → ∃ x, exec (.sqstat d a) s = .next (u.drawn.takeTrap { cause := 0x07, tinfo := x })))

/-- R281, R318: the next payload of a send queue whose post waits for nothing, at most 4,096 bytes, leaves in a slot to its
destination, behind what the circuit's colours still send (its bytes and 64 more at 200 Gb/s a colour: `sendEnd`), if it ends before the guard, and stays
otherwise;
the destination places it by its offset; and when every byte is placed or given up, or the circuit has failed, the post
ends: its ranges clear, its counter advances, and kstat.ERR is set where a byte failed. -/
def sendRules : Prop :=
  ∀ (s : State) (pkg dest post i : Nat) (x : Post),
    let p := s.pack pkg
    (∀ e limit, p.posts.find? (fun x => x.dest == dest && decide (x.next < x.len) && !x.cut) = some x →
      p.openCircuit dest = some (e, limit) →
      let n := min 4096 (x.len - x.next)
      let unit := 125 * popCount e.colours.toNat 16
      let was := assocGet p.rotation.busy e.index (s.clock, 0)
      let now := if sendEnd e.colours was.1 was.2 ≤ unit * s.clock then (s.clock, n + 64) else (was.1, was.2 + n + 64)
      let free := s.unheld x.hart x.gang x.waits = true ∧ sendEnd e.colours was.1 was.2 < unit * (s.clock + 1) ∧ sendEnd e.colours now.1 now.2 ≤ unit * limit
      let u := s.setPack { p with rotation := { p.rotation with busy := assocSet p.rotation.busy e.index now } }
      let r := u.readPayload pkg x (pieces 3 ((x.src.toNat + x.next) % 2 ^ 64) n)
      (free → exec (.circuitPacketSend pkg dest) s = .next (r.1.setPost pkg { x with
        next := x.next + n, placed := x.placed + r.2.2,
        failed := x.failed || r.2.1.any (fun y => !y.2.2.isEmpty) || decide (r.2.2 ≠ 0), flying := x.flying ++ r.2.1 })) ∧
      (¬free → exec (.circuitPacketSend pkg dest) s = .next s)) ∧
    (p.posts.find? (·.number == post) = some x →
      (∀ off bytes bad, x.flying[i]? = some (off, bytes, bad) → x.cut = false →
        let r := s.placePayload x bytes bad off (pieces 3 ((x.dst.toNat + off) % 2 ^ 64) bytes.length)
        exec (.circuitPayloadPlace pkg post i) s = .next (r.1.setPost pkg { x with
          flying := x.flying.eraseIdx i, placed := x.placed + bytes.length, failed := x.failed || r.2 })) ∧
      (x.cut = true ∨ x.len ≤ x.placed → ∃ v, exec (.postComplete pkg post) s = .next v ∧ v.mem = s.mem ∧
        (v.pack pkg).posts = p.posts.filter (·.number != post) ∧
        (∀ h, s.findHart x.hart = some h → h.csr.gangid = x.gang →
          v.findHart x.hart = some (h.endRemote x.seq x.k (x.failed || x.cut)))))

/-- R395, R396: a slot begins on the local clock, once in a rotation, and the switches change for the next one half a guard before its end. The first ROTSTART with its number, or the master when its
rotation is over, starts a rotation, and it goes on to the neighbours along the cabling; the table that is ready and whose
rotation number is reached takes over. (That the number of the first rotation is the step's own is the model's choice: log
entry 145.) Without a
ROTSTART half a guard after its end the package goes on by itself, for four rotations, and then stops. -/
def rotationRules : Prop :=
  ∀ (s : State) (pkg : Nat) (t : SlotTable),
    let p := s.pack pkg
    let r := p.rotation
    (p.table = some t →
      (∀ slot, slot < r.begun → exec (.slotStart pkg slot) s = .next s) ∧
      (∀ slot, r.running = true → slot < t.nslot → r.begun ≤ slot → r.start + slot * t.slotlen * 12 ≤ s.clock →
        s.clock < r.start + (slot + 1) * t.slotlen * 12 →
        ChangesPack s pkg { p with rotation := { r with slot := some slot, begun := slot + 1, busy := [] } } (exec (.slotStart pkg slot) s)) ∧
      (∀ n, r.slot = some n → r.start + (n + 1) * t.slotlen * 12 ≤ s.clock + t.guard_ * 12 / 2 →
        ChangesPack s pkg { p with rotation := { r with slot := none, switches := some ((n + 1) % max 1 t.nslot) } }
          (exec (.switchChange pkg) s)) ∧
      (r.running = true → r.start + t.nslot * t.slotlen * 12 + t.guard_ * 12 / 2 ≤ s.clock →
        (4 ≤ r.own → ChangesPack s pkg { p with rotation := { r with running := false, slot := none } }
          (exec (.rotationTimeout pkg) s)) ∧
        (r.own < 4 → ∃ q, ChangesPack s pkg q (exec (.rotationTimeout pkg) s) ∧
          q.rotation = { r with number := r.number + 1, start := s.clock, slot := none, begun := 0, own := r.own + 1 } ∧
          q.table = p.table ∧ q.loaded = p.loaded))) ∧
    (∀ rot epoch, MeshPacket.rotstart rot epoch ∈ p.mesh → (∃ n, r.heard = some n ∧ rot ≤ n) →
      ChangesPack s pkg { p with mesh := p.mesh.erase (.rotstart rot epoch) } (exec (.rotstart pkg rot epoch) s)) ∧
    (∀ rot epoch, (MeshPacket.rotstart rot epoch ∈ p.mesh ∧ ∀ n, r.heard = some n → n < rot) ∨
        (MeshPacket.rotstart rot epoch ∉ p.mesh ∧ s.masterDue pkg rot epoch = true) →
      let swap := ∃ t, p.loaded = some t ∧ bitOf (s.fabricQuad pkg 0x1010) 1 = true ∧ t.actrot ≤ rot
      ∃ v, exec (.rotstart pkg rot epoch) s = .next v ∧ v.mem = s.mem ∧ v.hart = s.hart ∧ v.others = s.others ∧
        (v.pack pkg).rotation = { running := true, number := rot, heard := some rot, start := s.clock, slot := none, own := 0,
                                  switches := some 0 } ∧
        (swap → (v.pack pkg).table = p.loaded ∧ (v.pack pkg).loaded = none) ∧
        (¬swap → (v.pack pkg).table = p.table ∧ (v.pack pkg).loaded = p.loaded) ∧
        ∀ n ∈ s.meshNeighbours pkg, MeshPacket.rotstart rot epoch ∈ (v.pack n).mesh)

/-- R393 to R395: a LOAD that Mucen has not taken makes it read the table and send a SETUP for each entry that it sources. A SETUP reserves
the switch of a hop, unless the hop is a trunk or clashes, and goes on, or comes back as an ACK from the last hop; a BUSY
goes back. An ACK commits the reservation and acknowledges the entry at the source; a BUSY releases it, and the
source tries again after a delay, 16 times; a TEARDOWN releases it and goes on, and the last hop acknowledges. -/
def meshRules : Prop :=
  ∀ (s : State) (pkg num : Nat) (c : Circuit) (hop : Hop),
    let p := s.pack pkg
    let taken := fun (m : MeshPacket) => s.setPack { p with mesh := p.mesh.erase m }
    (MeshPacket.setup c ∈ p.mesh → c.path.find? (·.pkg == pkg) = some hop →
      let first := (prevHop pkg c.path).isNone
      let last := (nextHop pkg c.path).isNone
      let r : Reservation := { num := c.num, epoch := c.epoch, slot := c.slot, hop := hop, colours := c.colours,
                               first := first, last := last, committed := false }
      let blocked := s.hopTrunk hop first last = true ∨ p.reservations.any r.clash = true
      (blocked → exec (.setup pkg c) s =
        .next ((taken (.setup c)).meshSend ((prevHop pkg c.path).getD pkg) (.busy c.num pkg))) ∧
      (¬blocked → ∃ v, exec (.setup pkg c) s = .next v ∧ v.mem = s.mem ∧ v.hart = s.hart ∧
        (v.pack pkg).reservations = p.reservations ++ [r] ∧
        (∀ n, nextHop pkg c.path = some n → MeshPacket.setup c ∈ (v.pack n).mesh) ∧
        (nextHop pkg c.path = none → MeshPacket.ack c.num ∈ (v.pack pkg).mesh))) ∧
    (MeshPacket.ack num ∈ p.mesh → ∃ v, exec (.circuitAck pkg num) s = .next v ∧ v.hart = s.hart ∧
      (v.pack pkg).reservations = (p.reservations.map fun r => if r.num = num then { r with committed := true } else r) ∧
      (∀ n, prevHop pkg (s.pathOf num) = some n → v.mem = s.mem ∧ MeshPacket.ack num ∈ (v.pack n).mesh) ∧
      (∀ t, prevHop pkg (s.pathOf num) = none → (∀ e ∈ p.retired, e.num ≠ num) → p.loaded = some t → (v.pack pkg).loaded = some { t with
        entries := t.entries.map fun e => if e.num = num then { e with acked := true } else e })) ∧
    (∀ at_, p.busyFor num = some at_ → ∃ v, exec (.busy pkg num) s = .next v ∧ v.hart = s.hart ∧
      (v.pack pkg).reservations = (p.reservations.filter fun r => !(r.num == num && !r.committed)) ∧
      (∀ n, prevHop pkg (s.pathOf num) = some n → MeshPacket.busy num at_ ∈ (v.pack n).mesh) ∧
      (∀ t e, prevHop pkg (s.pathOf num) = none → p.loaded = some t → t.entries.find? (·.num == num) = some e →
        ∃ t' e', (v.pack pkg).loaded = some t' ∧ t'.entries.find? (·.num == num) = some e' ∧
          (15 ≤ e.attempts → e'.failed = true ∧ e'.retryAt = none) ∧
          (e.attempts < 15 → e'.failed = e.failed ∧ e'.attempts = e.attempts + 1 ∧
            ∃ wait, wait < 2 ^ min (e.attempts + 1) 10 ∧ e'.retryAt = some (s.clock + wait * 1200)))) ∧
    (MeshPacket.teardown num ∈ p.mesh → ∃ v, exec (.teardown pkg num) s = .next v ∧ v.mem = s.mem ∧ v.hart = s.hart ∧
      (v.pack pkg).reservations = p.reservations.filter (·.num != num) ∧
      (∀ n, nextHop pkg (s.pathOf num) = some n → MeshPacket.teardown num ∈ (v.pack n).mesh) ∧
      (nextHop pkg (s.pathOf num) = none → MeshPacket.ack num ∈ (v.pack pkg).mesh)) ∧
    (∀ t e when_, p.loaded = some t → t.entries.find? (·.num == num) = some e → e.retryAt = some when_ → when_ ≤ s.clock →
      ∃ q, ChangesPack s pkg q (exec (.setupRetry pkg num) s) ∧ q.mesh = p.mesh ++ [.setup (e.circuit t.epoch)] ∧
        q.loaded = some { t with entries := t.entries.map fun e => if e.num = num then { e with retryAt := none } else e }) ∧
    (bitOf (s.fabricQuad pkg 0x1010) 0 = false → ChangesPack s pkg { p with loadTaken := false } (exec (.slotTableLoad pkg) s)) ∧
    (bitOf (s.fabricQuad pkg 0x1010) 0 = true → p.loadTaken = true → exec (.slotTableLoad pkg) s = .next s) ∧
    (bitOf (s.fabricQuad pkg 0x1010) 0 = true → p.loadTaken = false →
      let h := s.fabricQuad pkg 0x1000
      ∃ v t, exec (.slotTableLoad pkg) s = .next v ∧ v.hart = s.hart ∧ (v.pack pkg).loaded = some t ∧
        t.epoch = p.epochs + 1 ∧ t.actrot = fieldOf h 32 32 ∧ t.master = fieldOf h 24 8 ∧ t.nslot = fieldOf h 20 4 + 1 ∧
        t.guard_ = fieldOf h 10 10 ∧ t.slotlen = fieldOf (s.fabricQuad pkg 0x1008) 0 32 ∧
        t.entries = (((List.range 256).filterMap (s.circuitEntry pkg t.epoch)).filter fun e =>
          (e.path.head?.map (·.pkg)) == some pkg) ∧
        ∀ e ∈ t.entries, MeshPacket.setup (e.circuit t.epoch) ∈ (v.pack pkg).mesh)

/-- R280, R281, R393 to R396: posts, the slot table, the control mesh and the rotations. -/
def Obligations.CircuitsAndPosts : Prop := postRules ∧ sendRules ∧ rotationRules ∧ meshRules

/-! ### Transport -/

/-- R118, R282 to R285: rpost and rarm of a connection of the hart's own address space read the 64 bytes of the request when
they issue, once the hart's earlier stores to them, and its earlier accesses to the local buffer of which one of the two
writes, are performed, and put it last on the list of the package; the hart runs on. A connection outside the table or of another address space is a Permission trap.
(Which asid owns a connection that is not cached its context in the table says, whose layout is open; log entry 44.) -/
def requestRules : Prop :=
  ∀ (s : State) (a b : SReg) (k : KReg) (l : Loc),
    let u := s.needS [a, b]
    ∀ w x : State, u.settle (u.hart.taintS a ||| u.hart.taintS b) = .ok w →
    let conn := (w.hart.getS a).toNat
    let addr := w.hart.getS b
    let pkg := w.hart.pkg
    w.check19 w.hart w.hart.asid addr 64 .read .own = .ok l → (w.awaitTurn (w.hart.canon addr) 64 false).isOk = true →
    w.storesBefore addr 64 false = .ok x → x.poisoned l.phys = false → x.poisoned (l.phys + 32) = false →
    let owner := x.connOwner pkg conn
    ((x.transport pkg).find conn = none → (x.transport pkg).stored = [] →
      owner = (Config.context pkg (x.pack pkg).huane.wrapKey
        ((List.range 256).map fun i => readByte x.mem (x.contextAt pkg conn + i))).map (·.1)) ∧
    (∀ c, (x.transport pkg).find conn = some c → owner = some c.asid) ∧
    let open_ := x.connOpen pkg conn = true ∧ (owner = none ∨ owner = some w.hart.asid)
    let quads := readQuads x.mem l.phys 8
    let op := fieldOf (quads.getD 0 0) 60 4
    let len := if op = 2 then 8 else fieldOf (quads.getD 0 0) 0 32
    ∀ p ∈ [(Instr.rpost a b k, false), (Instr.rarm a b k, true)],
      (open_ → ∀ y : State, x.storesBefore (quads.getD 1 0) len (op != 0) = .ok y →
        y.hart.interlock = [] → (∀ c ∈ y.hart.cmds, c.queued = false ∧ c.ranges = []) →
        ∃ (z : State) (r : WorkReq), exec p.1 s = .next (ran (z.startRequests pkg conn) 8) ∧ z.mem = y.mem ∧
          z.hart = { y.hart with interlock := z.hart.interlock, seq := y.hart.seq + 1 } ∧
          (ran (z.startRequests pkg conn) 8).hart = (ran z 8).hart ∧
          ((z.transport pkg).find conn = none → z.startRequests pkg conn = z) ∧ (z.transport pkg).requests.getLast? = some r ∧
          (z.transport pkg).requests.length = (y.transport pkg).requests.length + 1 ∧
          r.number = y.serial ∧ r.conn = conn ∧ r.quads = quads ∧ r.addr = addr ∧ r.hart = w.hart.ref ∧
          r.asid = w.hart.asid ∧ r.k = k ∧ r.started = false ∧ (p.2 = false → r.armed = false) ∧
          (r.ends = none ∨ r.ends = some 4)) ∧
      (¬open_ → ∃ e, exec p.1 s = .next (x.drawn.takeTrap { cause := 0x09, tinfo := e }))

/-- R108, R283 to R285, R398 to R401: a frame that is not the transport's, whose UDP port or size is another, is counted. A
packet on a connection that is not cached is staged while its context is fetched, or
answered NOTREADY with a delay of 1 to 255 microseconds (which of them is open) where there is no room, or the connection is
closed. On a cached
connection one that does not authenticate is answered so too, one already seen is acknowledged again, and a new one is applied
once and acknowledged: a write places its bytes, with the poison that they carry, a read reads them, a fetch-add adds, and
an answer fills the local buffer of its request, or ends it with code 2 where it says that the peer has denied it; the answer
of a read into a vault waits for those of lower offsets. (A packet that carries no signal starts no other request. That the
denial is a packet is the model's choice: log entry 91.) -/
def packetReceiveRules : Prop :=
  ∀ (s : State) (pkg : Nat) (p : TPacket),
    let k := s.pack pkg
    let t := k.transport
    let refused := ∃ d, 1 ≤ d ∧ d ≤ 255 ∧
      ChangesPack s pkg { k with transport := { t with notready := t.notready ++ [(p.conn, p.psn, d)] } }
        (exec (.transportPacketReceive pkg p) s)
    (s.isTransport pkg p = false → 32 ≤ p.port → p.port < 40 →
      ChangesPack s pkg { k with transport := { t with frames := assocSet t.frames p.port (assocGet t.frames p.port 0 + 1) } }
        (exec (.transportPacketReceive pkg p) s)) ∧
    (s.isTransport pkg p = true → s.connOpen pkg p.conn = false → refused) ∧
    (s.isTransport pkg p = true → s.connOpen pkg p.conn = true →
    (t.find p.conn = none →
      (t.staged.length < 256 → (t.staged.filter (·.conn == p.conn)).length < 32 →
        ∃ f, ChangesPack s pkg { k with transport := { t with staged := t.staged ++ [p], fetching := f } }
          (exec (.transportPacketReceive pkg p) s) ∧ p.conn ∈ f ∧ ∀ c ∈ f, c = p.conn ∨ c ∈ t.fetching) ∧
      (256 ≤ t.staged.length ∨ 32 ≤ (t.staged.filter (·.conn == p.conn)).length → refused)) ∧
    (∀ c, t.find p.conn = some c →
      (p.sealOk = false → refused) ∧
      (p.sealOk = true → (p.key, p.psn) ∈ c.seen → s.tooEarly pkg c p = false →
        ChangesPack s pkg { k with transport := { t with acks := t.acks ++ [(c.conn, p.psn)] } }
          (exec (.transportPacketReceive pkg p) s)) ∧
      (p.sealOk = true → (p.key, p.psn) ∉ c.seen →
        let h := engineHart ⟨pkg, 3072⟩ c.asid
        let acked := fun (v : State) => (c.conn, p.psn) ∈ (v.transport pkg).acks
        (∀ u, p.op = 0 → s.putBytes h p.payload p.bad (rangeAt (p.addr + BitVec.ofNat 64 p.offset) p.payload.length) = .ok u →
          ∃ v, exec (.transportPacketReceive pkg p) s = .next v ∧ acked v ∧ (p.sig = none → v.mem = u.mem ∧ v.hart = s.hart)) ∧
        (∀ data, p.op = 1 → s.bytesAt h .engRead (rangeAt p.addr p.total) = .ok data →
          ∃ v, exec (.transportPacketReceive pkg p) s = .next v ∧ v.mem = s.mem ∧ v.hart = s.hart ∧ acked v) ∧
        (∀ l, p.op = 2 → s.check h c.asid p.addr 8 .atomic .own = .ok l →
          ∃ v, exec (.transportPacketReceive pkg p) s = .next v ∧ v.hart = s.hart ∧ acked v ∧
            v.mem = s.put l.phys 8 ((readN s.mem l.phys 8 + byteNat p.payload) % 2 ^ 64)) ∧
        (∀ w, p.op = 5 → s.answered pkg c p = some w →
          ∃ v, exec (.transportPacketReceive pkg p) s = .next v ∧ v.mem = s.mem ∧ v.hart = s.hart ∧ acked v ∧
            ∀ x ∈ (v.transport pkg).requests, x.number = w.number → x.ends = some (w.ends.getD 2)) ∧
        (∀ w, p.op = 3 ∨ p.op = 4 → s.answered pkg c p = some w →
          (s.tooEarly pkg c p = true → ∃ v, exec (.transportPacketReceive pkg p) s = .next v ∧ v.mem = s.mem ∧
            v.hart = s.hart ∧ (v.transport pkg).acks = t.acks) ∧
          (∀ u, s.tooEarly pkg c p = false → w.early = [] →
            s.putBytes (engineHart w.hart w.asid) p.payload p.bad
              (rangeAt (w.quad 1 + BitVec.ofNat 64 p.offset) p.payload.length) = .ok u →
            ∃ v, exec (.transportPacketReceive pkg p) s = .next v ∧ v.mem = u.mem ∧ v.hart.s = s.hart.s ∧ acked v)))))

/-- R284, R285, R399 to R401: an acknowledgement removes what it covers, counts the bytes of writes, and counts the signals of
the reads whose data is then all placed at the peer; packet numbers have 32 bits, and one is covered that lies less than 2^31
before the number acknowledged. A timeout sends the
identical packet again unless NOTREADY delays it; NOTREADY delays it, and ends the request with code 3 at the 64th for one
packet; a connection takes a new key; a context that is fetched is cached, and its staged packets handled; one that
does not unwrap closes its connection, ends its requests with code 3, and its staged packets are answered NOTREADY. -/
def connectionRules : Prop :=
  ∀ (s : State) (pkg conn : Nat),
    let k := s.pack pkg
    let t := k.transport
    (∀ c, t.find conn = some c →
      (∀ cum sel,
        let hit := fun (p : TPacket) => decide ((cum + 2 ^ 32 - p.psn) % 2 ^ 32 < 2 ^ 31) || sel.contains p.psn
        let gone := c.unacked.filter hit
        let left := c.unacked.filter fun p => !hit p
        let told := c.sigs.filter fun x => !left.any fun p => p.op == 3 && p.req == x.1
        ∃ v c', exec (.transportAcknowledge pkg conn cum sel) s =
            .next (told.foldl (fun s x => s.countArrival pkg c.asid x.2) v) ∧ OnlyPacks s v [pkg] ∧
          (v.transport pkg).find conn = some c' ∧ c'.unacked = left ∧
          (v.transport pkg).requests = t.requests.map fun w => { w with done := w.done +
            ((gone.filter fun p => p.op == 0 && p.req == w.number && w.conn == conn).map (·.payload.length)).sum }) ∧
      (∀ psn p, c.unacked.find? (·.psn == psn) = some p →
        ((c.resend.any fun r => r.1.psn == psn && decide (s.clock < r.2)) = false →
          assocGet c.sentAt psn 0 + 20 * 1200 ≤ s.clock → ∃ v, exec (.retransmitTimeout pkg conn psn) s = .next v ∧ OnlyPacks s v [pkg] ∧
            (v.transport pkg).wire = p :: t.wire ∧ (v.transport pkg).requests = t.requests) ∧
        (∀ delay, assocGet c.denials psn 0 + 1 < 64 → ∃ v c', exec (.notready pkg conn psn delay) s = .next v ∧
          OnlyPacks s v [pkg] ∧ (v.transport pkg).find conn = some c' ∧ c'.unacked = c.unacked ∧
          (p, s.clock + delay * 1200) ∈ c'.resend ∧ assocGet c'.denials psn 0 = assocGet c.denials psn 0 + 1 ∧
          (v.transport pkg).requests = t.requests) ∧
        (∀ delay, 64 ≤ assocGet c.denials psn 0 + 1 → ∃ v c', exec (.notready pkg conn psn delay) s = .next v ∧
          OnlyPacks s v [pkg] ∧ (v.transport pkg).find conn = some c' ∧
          c'.unacked = c.unacked.filter (·.psn != psn) ∧
          (v.transport pkg).requests = t.requests.map fun w =>
            if w.number = p.req ∧ w.conn = conn ∧ p.op ≤ 2 ∧ w.ends.isNone then { w with ends := some 3 } else w)) ∧
      ChangesPack s pkg { k with transport := t.setConn { c with keyEpoch := c.keyEpoch + 1, keyPsn := c.psn } } (exec (.rekey pkg conn) s)) ∧
    (conn ∈ t.fetching → ∃ v, exec (.contextFetchComplete pkg conn) s = .next v ∧
      match s.contextOf pkg conn with
      | none => (∀ p ∈ (v.transport pkg).staged, p.conn ≠ conn) ∧ conn ∈ (v.transport pkg).closed ∧
        v.mem = s.mem ∧ v.hart = s.hart ∧ v.others = s.others ∧
        (∀ p ∈ t.staged, p.conn = conn → ∃ d, (conn, p.psn, d) ∈ (v.transport pkg).notready) ∧
        ∀ w ∈ (v.transport pkg).requests, w.conn = conn → w.ends.isSome = true
      | some x => t.full = false → (∀ p ∈ (v.transport pkg).staged, p.conn ≠ conn) ∧
        ∃ c, (v.transport pkg).find conn = some c ∧ c.asid = x.asid) ∧
    (t.conns.length < 8192 → t.full = false)

/-- R284, R398: a request ends with a code that it may end with: quad 7 of the request takes the bytes done and the code,
its other bits as they were when it was read, it leaves the list, and its hart's ranges clear and its counter advances, with kstat.ERR for a code other than 1.
On an Ethernet port Neighbor Discovery and echo for its own addresses, in frames of at most 9,216 bytes with at most one tag,
are answered; any other frame is counted. -/
def requestEndRules : Prop :=
  ∀ (s : State) (pkg req code port : Nat) (w : WorkReq) (l : Loc) (f : EthFrame),
    let k := s.pack pkg
    let t := k.transport
    (t.requests.find? (·.number == req) = some w →
      (w.ends = some (BitVec.ofNat 8 code) ∧ code < 256 ∨
        w.ends = none ∧ w.started = true ∧ (code = 1 ∧ w.len ≤ w.done ∨ code = 3)) →
      s.check19 (engineHart w.hart w.asid) w.asid (w.addr + 56) 8 .engWrite .own = .ok l →
      ∃ v : State, exec (.workRequestComplete pkg req code) s = .next (v.startRequests pkg w.conn) ∧
        v.mem = s.put l.phys 8 (min w.done w.len * 2 ^ 32 + fieldOf (w.quad 7) 8 24 * 256 + code % 256) ∧
        (∀ y ∈ (v.transport pkg).requests, y.number ≠ req) ∧
        (∀ h, s.findHart w.hart = some h → h.csr.gangid = w.gang →
          v.findHart w.hart = some (h.endRemote w.seq w.k (code != 1)))) ∧
    (32 ≤ port → port < 40 →
      let answers := f.kind ≠ .other ∧ f.own = true ∧ f.size ≤ 9216 ∧ f.tags ≤ 1
      (answers → ChangesPack s pkg { k with transport := { t with replies := t.replies ++ [(port, f)] } }
        (exec (.ethernetFrameReceive pkg port f) s)) ∧
      (¬answers → ∃ v, exec (.ethernetFrameReceive pkg port f) s = .next v ∧ OnlyPacks s v [pkg] ∧
        assocGet (v.transport pkg).frames port 0 = assocGet t.frames port 0 + 1 ∧ (v.transport pkg).replies = t.replies))

/-- R282 to R285, R398 to R401: the transport over Ethernet. -/
def Obligations.TransportRequestsAndPackets : Prop :=
  requestRules ∧ packetReceiveRules ∧ connectionRules ∧ requestEndRules

/-! ### Links -/

/-- R387, R389, R390, R391: on a colour that has its light and is not paused, a flit that its far end sends and that decodes and
comes next is delivered once, one that does not
decode is answered by a NAK with its number, one already taken changes nothing; the far end sends a new flit with its next
number, or the next of a replay, and keeps it; a NAK makes the sender replay from that
flit. Every PROPOSE is answered by an ACK with its epoch; the ACK of the open proposal sets the mode of the outgoing
direction; a PROPOSE without an ACK is repeated after 1 µs. A stronger mode is proposed where the rate that the far end counts
passes THRESH, a weaker one after a second below a quarter of it, and a mode outside FLOOR and CEIL is left.
(A flit that comes too early is answered by a NAK with the number that is due, and which flits are too early the number tells:
log entries 75 and 89. Where the far end's package is no part of the state, the step gives what it sends: log entry 146.) -/
def flitRules : Prop :=
  ∀ (s : State) (l : Lane) (f : Flit) (lseq : BitVec 12) (mode : BitVec 2) (epoch : BitVec 4),
    let c := s.colourAt l
    let from_ := s.farLane l false
    let toward := s.farLane l true
    let same := fun (v : State) => v.mem = s.mem ∧ v.hart = s.hart ∧ v.others = s.others
    let hears := (c.rx = .up ∨ c.rx = .draining) ∧ c.rxLost = none ∧ c.remapping = false
    let has := fun (far : Option Lane) (m : Control) => ∀ x, far = some x → x ≠ l ∧ m ∈ (s.colourAt x).sent
    let took := fun (far : Option Lane) (m : Control) (v : State) =>
      ∀ x, far = some x → (v.colourAt x).sent = (s.colourAt x).sent.erase m
    let q := s.fabricQuad l.pkg (0x100 + 16 * l.port + 8)
    let ceil := min (fieldOf q 2 2) 2
    let wanted := fun (n : Nat) => max (fieldOf q 0 2) (min ceil n)
    let on := fun (e : Instr) (g : Colour → Colour) => ChangesColour s l g (exec e s)
    let proposed := fun (m : Nat) (c : Colour) => ({ c with proposal := some (BitVec.ofNat 2 m, c.epoch), epoch := c.epoch + 1,
                                                            sent := c.sent ++ [.propose (BitVec.ofNat 2 m) c.epoch], proposedAt := s.clock } : Colour)
    (hears → (∀ x, from_ = some x → x ≠ l ∧ (s.colourAt x).sends f = true) →
      ∃ v, exec (.flitReceive l f) s = .next v ∧ same v ∧
        (let d := v.colourAt l
         (f.good = false ∨ f.mode = 3 → d.sent = c.sent ++ [.nak f.lseq] ∧ d.taken = c.taken ∧ d.rxSeq = c.rxSeq) ∧
         (f.good = true → f.mode ≠ 3 →
           (f.lseq = c.rxSeq → d.taken = f :: c.taken ∧ d.rxSeq = c.rxSeq + 1 ∧ d.flits = c.flits + 1 ∧ d.sent = c.sent ∧
             d.rxMode = if f.type = 0 then c.rxMode else f.mode) ∧
           (f.lseq ≠ c.rxSeq → d.taken = c.taken ∧ d.rxSeq = c.rxSeq ∧ d.flits = c.flits ∧
             d.sent = if (f.lseq - c.rxSeq).toNat < 2 ^ 11 then c.sent ++ [.nak c.rxSeq] else c.sent))) ∧
        (∀ x, from_ = some x → let d := v.colourAt x
          let e := s.colourAt x
          (∀ r rest, e.replay = r :: rest → f.lseq = r.lseq ∧ f.content = r.content ∧ d.replay = rest ∧ d.txSeq = e.txSeq) ∧
          (e.replay = [] → e.tx = .up ∧ f.lseq = e.txSeq ∧ d.txSeq = e.txSeq + 1 ∧
            d.window.getLast? = some { f with good := true }))) ∧
    (hears → has from_ (.propose mode epoch) → ∃ v, exec (.propose l mode epoch) s = .next v ∧ same v ∧
      (v.colourAt l).sent = c.sent ++ [.ack epoch] ∧ took from_ (.propose mode epoch) v) ∧
    (∀ x ∈ c.window, x.lseq = lseq → has toward (.nak lseq) → ∃ v pre again, exec (.nak l lseq) s = .next v ∧ same v ∧
      c.window = pre ++ again ∧ (∀ y ∈ pre, y.lseq ≠ lseq) ∧ again.head?.map (·.lseq) = some lseq ∧
      v.colourAt l = { c with replay := again, replays := c.replays + 1 } ∧ took toward (.nak lseq) v) ∧
    (∀ m, c.proposal = some (m, epoch) →
      (has toward (.ack epoch) → ∃ v, exec (.fecAck l epoch) s = .next v ∧ same v ∧
        v.colourAt l = { c with txMode := m, proposal := none } ∧ took toward (.ack epoch) v) ∧
      (s.clock < c.proposedAt + clocksPerUs → on (.proposeRepeat l) id) ∧
      (c.proposedAt + clocksPerUs ≤ s.clock →
        on (.proposeRepeat l) fun c => { c with sent := c.sent ++ [.propose m epoch], proposedAt := s.clock })) ∧
    (c.tx = .up → c.proposal = none → fieldOf q 0 2 ≤ ceil →
      let crossed := toward.all fun x => decide (fieldOf q 4 32 < (s.colourAt x).rate s.clock)
      let quiet := toward.all fun x => decide (c.txAt + clocksPerSecond ≤ s.clock) && (s.colourAt x).quiet (fieldOf q 4 32) s.clock
      let up := wanted (c.txMode.toNat + if crossed then 1 else 0)
      let down := wanted (c.txMode.toNat - if quiet then 1 else 0)
      on (.fecThresholdCrossed l) (if up = c.txMode.toNat then id else proposed up) ∧
      on (.fecQuietExpiry l) (if down = c.txMode.toNat then id else proposed down))

/-- R382, R383, R391, R392, R397: the colours of a port plan that reach no package stay dark (which positions hold one the
routing table says: log entry 141). A plan that would leave a pair without a colour in a direction sets PLANERR and changes no mask;
another one takes effect: a dark colour that is lit warms up, a lit one that is darkened drains, and its sender is asked on
another colour of the pair to stop using it; a colour that has
trained, 15 µs after it was lit or later, carries flits; one that has drained, everything that was sent on it being taken,
loses its light. A colour moves to the spare lane if no other of its port
is there, and then resumes. -/
def planRules : Prop :=
  ∀ (s : State) (l : Lane) (pkg port base : Nat),
    let p := s.pack pkg
    let q := s.fabricQuad pkg (0x100 + 16 * port)
    let tx : BitVec 16 := q.extractLsb' 0 16 &&& s.reach pkg port true
    let rx : BitVec 16 := q.extractLsb' 16 16 &&& s.reach pkg port false
    let c := s.colourAt l
    (port < 32 → s.blockBase pkg 2 = some base →
      (let at_ := base + 0x380 + 8 * port
       s.planBreaks pkg port tx rx = true → exec (.portPlanChange pkg port) s =
         .next { s with mem := writeQuad s.mem at_ (readQuad s.mem at_ ||| 1) }) ∧
      (s.planBreaks pkg port tx rx = false → ∃ v, exec (.portPlanChange pkg port) s = .next v ∧ OnlyPacks s v [pkg] ∧
        (∀ i, i < 16 →
          ((v.pack pkg).colour port i).tx = Light.apply ((p.colour port i).tx) (bitOf tx i) ∧
          ((v.pack pkg).colour port i).rx = Light.apply ((p.colour port i).rx) (bitOf rx i) ∧
          ((p.colour port i).tx = .dark → bitOf tx i = true → ((v.pack pkg).colour port i).txAt = s.clock) ∧
          ((p.colour port i).rx = .dark → bitOf rx i = true → ((v.pack pkg).colour port i).rxAt = s.clock)) ∧
        (∀ i, i < 16 → port < 24 → 378 ≤ 16 * port + i → ((v.pack pkg).colour port i).tx = Light.apply ((p.colour port i).tx) false) ∧
        (let lit := s.setPack (p.applyPlan s.clock port tx rx)
         ∀ i x j, i < 16 → (p.colour port i).rx = .up → bitOf rx i = false → lit.farLane ⟨pkg, port, i⟩ false = some x →
           (lit.pairColours pkg x.pkg true).find? (fun j => j != (port, i) && decide (((lit.pack pkg).colour j.1 j.2).tx = .up)) =
             some j → .stopUsing x.port x.colour ∈ ((v.pack pkg).colour j.1 j.2).sent) ∧
        (∀ i j, j ≠ port → ((v.pack pkg).colour j i).tx = (p.colour j i).tx ∧ ((v.pack pkg).colour j i).rx = (p.colour j i).rx))) ∧
    (∃ v, exec (.colourTrained l) s = .next v ∧ v.mem = s.mem ∧ v.hart = s.hart ∧ v.others = s.others ∧
      (let d := v.colourAt l
       let due := fun (since : Nat) => since + 15 * clocksPerUs ≤ s.clock
       d.tx = (if c.tx = .warming ∧ due c.txAt then .up else c.tx) ∧ d.rx = (if c.rx = .warming ∧ due c.rxAt then .up else c.rx) ∧
       d.rxLost = none) ∧
      ∀ x, s.farLane l false = some x → (v.colourAt x).txLost = none) ∧
    (let sent := ∀ x, s.farLane l true = some x → c.replay = [] ∧ (s.colourAt x).rxSeq = c.txSeq
     let taken := ∀ x, s.farLane l false = some x → (s.colourAt x).replay = [] ∧ c.rxSeq = (s.colourAt x).txSeq ∧
       ((s.colourAt x).asked = true ∨ (s.colourAt x).tx ≠ .up)
     ∃ v, exec (.colourDrained l) s = .next v ∧ OnlyPacks s v [l.pkg] ∧
      (let d := v.colourAt l
       (c.tx = .draining → sent → d.tx = .dark ∧ d.window = [] ∧ d.replay = []) ∧ (¬sent ∨ c.tx ≠ .draining → d.tx = c.tx) ∧
       (c.rx = .draining → taken → d.rx = .dark) ∧ (¬taken ∨ c.rx ≠ .draining → d.rx = c.rx))) ∧
    (l.port < 32 → l.colour < 16 → (s.pack l.pkg).colours.any (fun c => c.port == l.port && c.remapped) = false →
      ∃ v, exec (.laneRemap l) s = .next v ∧ OnlyPacks s v [l.pkg] ∧
        v.colourAt l = { c with remapped := true, remapping := true } ∧
        (v.pack l.pkg).remapSeq = (s.pack l.pkg).remapSeq + 1) ∧
    (∃ v, exec (.remapEnd pkg port) s = .next v ∧ OnlyPacks s v [pkg] ∧
      (∀ i, (v.pack pkg).colour port i = { p.colour port i with remapping := false }) ∧
      (∀ i j, j ≠ port → (v.pack pkg).colour j i = p.colour j i))

/-- R384, R385, R396: losing the light of a circuit colour cuts the posts whose circuits use it (log entry 73); losing that of
another colour, which its sender sees too, starts the timeout of each path, of the routing table or of a packet sent, of which
every lit colour of a hop is dark. A path that stays dark past its
timeout is given up: posts to its package are cut, and no hart of the package has an access to it left. -/
def lightRules : Prop :=
  ∀ (s : State) (l : Lane) (pkg dest : Nat),
    let same := fun (v : State) => v.mem = s.mem ∧ v.hart = s.hart ∧ v.others = s.others
    let circuit := 24 ≤ l.port ∧ l.port < 32 ∧ (s.pack l.pkg).trunk l.port = false
    (∃ v, exec (.lossOfLight l) s = .next v ∧ same v ∧ (v.colourAt l).rxLost.isSome = true ∧
      (∀ x, s.farLane l false = some x → (v.colourAt x).txLost.isSome = true) ∧
      (circuit → ∀ n, ∀ x ∈ (v.pack n).posts, ((s.pack n).routes x.dest).any (·.uses l) = true → x.cut = true) ∧
      (¬circuit → ∀ n ∈ v.pkgs, (∀ x ∈ v.pathsFrom n.pkg, v.pathDark x.2 = true → ∃ since, ⟨x.1, x.2, since⟩ ∈ n.darkPaths) ∧
        ∀ d ∈ n.darkPaths, v.pathDark d.lanes = true)) ∧
    (∀ d ∈ (s.pack pkg).darkPaths, d.dest = dest → d.since + s.pathTimeout pkg < s.clock → s.pathDark d.lanes = true →
      ∃ v, exec (.pathTimeout pkg dest) s = .next v ∧
        (∀ x ∈ (v.pack pkg).posts, x.dest = dest → x.cut = true) ∧
        (∀ r h, v.findHart r = some h → r.pkg = pkg → ∀ a ∈ h.pend, a.toPkg dest = false))

/-- R384 to R392, R396, R397: flits, modes, plans and paths. -/
def Obligations.LinkEvents : Prop := flitRules ∧ planRules ∧ lightRules

/-! ### The scheduler -/

/-- R178, R357, R371, R376: the oldest record of a queue that is neither placed nor waiting is read and checked, once what
its glaunch must see written is written. One that passes waits; one that fails is rejected with the reason of the first check
that fails; one that cannot be read is rejected with reason 9; a waiting one is rejected with reason 7 when a gang it depends
on has been. A rejected record is waiting no more, and its queue goes on with the next. (`noteGroups` and `noteMark` log the
faults of a group list and of the records that it depends on.) -/
def acceptRules : Prop :=
  ∀ (s : State) (pkg q : Nat),
    let d := s.queueDesc pkg q
    let p := s.pack pkg
    let n := s.nextAccept pkg q
    let asid := s.ctxAsid pkg d.ctx
    (∀ w, p.waiting.find? (·.queue == q) = some w → (∃ e ∈ w.deps, s.depState pkg e = .fails) →
      exec (.recordAccept pkg q) s = .next (s.reject pkg q w.asid w.seq 7)) ∧
    (p.waiting.find? (·.queue == q) = none → s.schedEn pkg = true → d.en = true → n ≠ d.tail →
      s.launchEarly pkg q n = false →
      (∀ f, s.check (agentHart pkg asid) asid (d.slot n) 64 .read .own = .error (.inl f) →
        exec (.recordAccept pkg q) s =
          .next ((s.logFail (agentHart pkg asid) f false .read).reject pkg q asid n 9)) ∧
      (∀ l, s.check (agentHart pkg asid) asid (d.slot n) 64 .read .own = .ok l →
        (s.poisoned (l.phys + 32) = true → exec (.recordAccept pkg q) s = .next (s.reject pkg q asid n 9)) ∧
        (s.poisoned (l.phys + 32) = false →
          let noted := s.markRecord pkg q asid n 0 1
          let quads := readQuads s.mem l.phys 8
          let list := quads.getD 2 0 &&& ~~~63#64
          let count := fieldOf (quads.getD 2 0) 0 5
          let groups := noted.groupList pkg asid list count
          let taken := noted.setPack { p with parents := p.parents.filter (fun x => !(x.1 == q && x.2.1 == n)),
                                              launches := p.launches.filter fun x => !(x.queue == q && x.seq == n) }
          ∃ w : Waiting, w.queue = q ∧ w.seq = n ∧ w.quads = quads ∧ w.asid = asid ∧ w.dies = d.dies ∧ w.ctx = d.ctx ∧
            let t := w.deps.foldl (fun s d => s.noteMark pkg d.2.1 d.2.2)
              (if groups = none then taken.noteGroups pkg asid list count else taken)
            (t.reasonOf pkg w groups ≠ 0 →
              exec (.recordAccept pkg q) s = .next (t.reject pkg q asid n (t.reasonOf pkg w groups))) ∧
            (t.reasonOf pkg w groups = 0 → ∃ v, exec (.recordAccept pkg q) s = .next v ∧ v.mem = t.mem ∧
              v.hart = t.hart ∧ v.others = t.others ∧ (v.pack pkg).gangs = p.gangs ∧
              (v.pack pkg).waiting = p.waiting ++ [{ w with groups := groups.getD [] }] ∧ v.nextAccept pkg q = n + 1)))) ∧
    (∀ (a : BitVec 16) (seq : Word) (reason : Nat), let v := s.reject pkg q a seq reason
      (v.pack pkg).waiting = (p.waiting.filter fun w => !(w.queue == q && w.seq == seq)) ∧
      (v.pack pkg).gangs = p.gangs ∧ assocGet (v.pack pkg).nexts q 0 = seq + 1)

/-- R61, R326, R373, R374, R377, R378: a placeable record that no other precedes is placed whole: a gang with its number,
queue and priority, harts that start at the entry with the argument in s3, in the address space of the queue's context,
and every hart that was there; its record takes STATE 2, and the first hart gets the turn where none has it. A waiting record of higher priority pre-empts the victims that make room for it: PEND
bit 8 rises at every hart of theirs. -/
def placeRules : Prop :=
  ∀ (s : State) (pkg q : Nat) (w : Waiting),
    let p := s.pack pkg
    p.waiting.find? (·.queue == q) = some w →
    (∀ cores, s.placeable pkg w = true → s.fit pkg w [] = some cores →
      (∀ x ∈ p.waiting, x.queue ≠ q → s.placeable pkg x = true →
        x.prio ≤ w.prio ∧ (x.prio = w.prio → p.turn q ≤ p.turn x.queue)) →
      ∃ (v : State) (g : Gang), exec (.gangPlace pkg q) s = .next (v.markRecord pkg w.queue w.asid w.seq 0 2).someTurn ∧
        (v.pack pkg).gangs = p.gangs ++ [g] ∧ g.gangid = w.gangid ∧
        g.queue = w.queue ∧ g.seq = w.seq ∧ g.prio = w.prio ∧ g.size = w.size ∧ g.cores = cores ∧ g.aborted = false ∧
        g.preempted = false ∧ (v.pack pkg).lastQueue = w.queue ∧
        (v.pack pkg).waiting = (p.waiting.filter fun x => !(x.queue == w.queue && x.seq == w.seq)) ∧
        v.hart = s.hart ∧ (∀ h ∈ s.harts, h ∈ v.harts) ∧
        (∀ h ∈ v.harts, h ∈ s.harts ∨ (h.pkg = pkg ∧ h.status = .running ∧ h.pc = w.quad 0 ∧ h.getS 3 = w.quad 1 ∧
          h.csr.gangid = w.gangid ∧ h.g = w.lg ∧ h.sup.asid = w.asid ∧ h.csr.nreg = w.nreg ∧ h.csr.w64 = w.w64 ∧
          h.tiles.length = w.tl))) ∧
    (let going := (p.gangs.filter (·.preempted)).map (·.gangid)
     let eligible := p.gangs.filter fun g => decide (g.prio < w.prio) && !g.preempted &&
       fieldOf (s.ctxQuad pkg g.ctx 3) 0 16 != 0 && g.cores.any fun c => w.dies.testBit c.die
     ∀ all, s.schedEn pkg = true → (s.queueDesc pkg q).en = true → s.depsMet pkg w = true →
       s.victims pkg w (eligible.foldr insertVictim []) going = some all →
       ∃ v, exec (.preemptVictims pkg q) s = .next v ∧ v.mem = s.mem ∧
         ∀ g ∈ p.gangs, g.preempted = false → g.gangid ∈ all →
           (∀ x ∈ (v.pack pkg).gangs, x.gangid = g.gangid → x.preempted = true) ∧
           ∀ h ∈ v.harts, h.pkg = pkg → h.csr.gangid = g.gangid → h.sup.pend.getLsbD 0 = true)

/-- R343, R376 to R379: a victim that has not reached pwait in its grace makes its gang abort, and PEND bit 10 rises at
its harts; a hart that is still placed a grace later is ended. A pre-empted gang of which every hart has released its
quota gets it back, if no other comes first, and its harts run on. A gang all of whose harts are marked takes STATE 3; one
without a hart ends. -/
def gangRules : Prop :=
  ∀ (s : State) (pkg gang : Nat) (r : HartRef) (x : Hart) (g : Gang) (n : Nat),
    (s.findHart r = some x → s.gangOf x = some g →
      (x.graceEnd = some n → n ≤ s.clock → ∃ v, exec (.graceExpiry r) s = .next v ∧ v.mem = s.mem ∧
        (∃ y ∈ (v.pack r.pkg).gangs, y.gangid = g.gangid ∧ y.aborted = true) ∧
        (g.aborted = false → ∀ h ∈ v.harts, h.pkg = r.pkg → h.csr.gangid = g.gangid → h.sup.pend.getLsbD 2 = true)) ∧
      (g.abortAt = some n → n + x.sup.preempt.toNat * 1024 ≤ s.clock →
        ∃ v, exec (.forcedHartEnd r) s = .next v ∧ v.harts.length < s.harts.length ∧ ∀ y ∈ v.ended, y.ref ≠ r)) ∧
    (let p := s.pack pkg
     p.gangs.find? (·.gangid.toNat == gang) = some g →
     (s.released pkg g = true →
       (∀ y ∈ p.gangs, y.gangid ≠ g.gangid → s.released pkg y = true →
         y.prio ≤ g.prio ∧ (y.prio = g.prio → g.order ≤ y.order)) →
       (∀ c ∈ g.cores, s.blocked pkg c.die g.prio = false ∧ (s.coreReturn pkg g c).isSome = true) →
       ∃ v, exec (.quotaReturn pkg gang) s = .next v ∧ v.mem = s.mem ∧
         (∀ y ∈ (v.pack pkg).gangs, y.gangid = g.gangid → y.preempted = false) ∧
         (∀ h ∈ s.gangHarts pkg g.gangid, s.findHart h.ref = some h →
           (∃ c ∈ g.cores, c.die = h.die ∧ c.core = h.core) →
           ∃ h', v.findHart h.ref = some h' ∧ h'.status = .running ∧ h'.v = h.v ∧ h'.pc = h.pc)) ∧
     (∀ l, let t := s.setGang pkg { g with triggered := true }
       g.triggered = false → s.gangHarts pkg g.gangid ≠ [] → (∀ h ∈ s.gangHarts pkg g.gangid, s.marked h = true) →
       t.check19 (agentHart pkg (s.ctxAsid pkg g.ctx)) (s.ctxAsid pkg g.ctx) ((t.queueDesc pkg g.queue).slot g.seq) 64
         .read .own = .ok l →
       ∃ v, exec (.gangTrigger pkg gang) s = .next v ∧ v.hart = s.hart ∧ v.others = s.others ∧
         v.mem = writeQuad s.mem (l.phys + 56) (BitVec.ofNat 64 (g.seq.toNat * 2 ^ 32 + 3)) ∧
         ∀ y ∈ (v.pack pkg).gangs, y.gangid = g.gangid → y.triggered = true) ∧
     (s.gangHarts pkg g.gangid = [] →
       let t := s.setPack { p with gangs := p.gangs.filter (·.gangid != g.gangid) }
       exec (.gangEnd pkg gang) s = .next (((t.markRecord pkg g.queue (s.ctxAsid pkg g.ctx) g.seq 0
         (if g.aborted then 6 else 4)).wakeGwait pkg g.queue g.seq (if g.aborted then 2 else 0)).advanceHead pkg g.queue)))

/-- R105, R364, R366: a TAIL write within the ring is taken and one outside it sets BADTAIL; a queue of the device takes
none, and one without a place in a doorbell window (R367) is not reached. A core without harts takes the Sieve that its table entry asks for, and its last units with it. -/
def tableRules : Prop :=
  ∀ (s : State) (pkg q core : Nat) (value : Word) (base : Nat),
    (s.windowed pkg q = false → exec (.queueTailWrite pkg q value) s = .next s) ∧
    (s.windowed pkg q = true →
      let d := s.queueDesc pkg q
      let outside := 2 ^ d.log2 < (value - d.head).toNat ∨ 2 ^ 31 ≤ (value - d.tail).toNat
      (d.dev = true → exec (.queueTailWrite pkg q value) s = .next s) ∧
      (d.dev = false → outside →
        exec (.queueTailWrite pkg q value) s = .next (s.setQueueQuad pkg q 4 (s.queueQuad pkg q 4 ||| 1))) ∧
      (d.dev = false → ¬outside →
        exec (.queueTailWrite pkg q value) s = .next (s.setQueueQuad pkg q 3 (value.setWidth 64)))) ∧
    (let die := core / 96
     let n := core % 96
     let size := s.sieveWanted pkg core
     core < 384 → s.blockBase pkg 1 = some base → (s.core pkg die n).sieve ≠ size →
     (∀ h ∈ s.harts, ¬(h.pkg = pkg ∧ h.die = die ∧ h.core = n)) →
     ∃ v, exec (.sieveRecarve pkg core) s = .next v ∧ v.hart = s.hart ∧ v.others = s.others ∧
       (v.core pkg die n).sieve = size ∧
       ∀ u ∈ (v.core pkg die n).units, u.1 + (v.core pkg die n).sieveUnits < 48)

/-- R363 to R379: the gang scheduler. -/
def Obligations.SchedulerEvents : Prop := acceptRules ∧ placeRules ∧ gangRules ∧ tableRules

/-! ### Reset, Huane, power, errors -/

/-- R405 to R407, R413: a package reset leaves no hart of the package, none of its gangs and records, the life-cycle state
as it was, in LCS too, and DIECAP and PKGCAP of 800 and 2,000. Where each image has a version that is not below the least in
slot A or else B, that slot runs, STATE is 3 and every byte of the package's memory is zero; else STATE is 1. The memory of
other packages stays. GO with bases that pass sets STATE 4, and with one that is misaligned,
outside memory or overlapping STATE 5; either clears GO. While the part does not run, a write to a base is taken. -/
def bringUpRules : Prop :=
  ∀ (s : State) (pkg quad : Nat) (value : Quad),
    (∃ v, exec (.packageReset pkg) s = .next v ∧ (∀ h ∈ v.harts, h.pkg ≠ pkg) ∧
      (∀ h ∈ v.ended, h.pkg ≠ pkg) ∧ (∀ c ∈ s.mem, inPackage pkg c.1 = false → c ∈ v.mem) ∧
      (let h := (s.pack pkg).huane
       let ok := ∀ i < 3, (h.boots s.free i).isSome = true
       (ok → fieldOf (v.block pkg 0) 0 4 = 3 ∧ (∀ c ∈ v.mem, inPackage pkg c.1 = false) ∧
         (∀ g ∈ v.poison, inPackage pkg (32 * g) = false) ∧
         ∀ i < 3, some (assocGet (v.pack pkg).huane.active i 0) = h.boots s.free i) ∧
       (¬ok → fieldOf (v.block pkg 0) 0 4 = 1) ∧
       (∀ i a b, h.slots.find? (·.1 == i) = some (i, a, b) →
         let good := fun (x : Option Nat) => ∃ n, x = some n ∧ assocGet h.least i 0 ≤ n
         (good a → h.boots s.free i = some 0) ∧ (¬good a → good b → h.boots s.free i = some 1) ∧
         (¬good a → ¬good b → h.boots s.free i = none))) ∧
      fieldOf (v.block pkg 0) 4 4 = (s.pack pkg).huane.lcs.toNat ∧ v.block pkg 10 = 800 * 2 ^ 32 + 2000 ∧
      (v.pack pkg).huane.lcs = (s.pack pkg).huane.lcs ∧ (v.pack pkg).gangs = [] ∧ (v.pack pkg).waiting = []) ∧
    (bitOf (s.block pkg 9) 0 = true → fieldOf (s.block pkg 0) 0 4 = 3 ∨ fieldOf (s.block pkg 0) 0 4 = 5 →
      let bad := ∃ i, 1 ≤ i ∧ i ≤ 8 ∧ s.baseBad pkg i = true
      ∃ v, exec (.go pkg) s = .next v ∧ OnlyPacks s v [pkg] ∧ v.block pkg 9 = 0 ∧
        (bad → fieldOf (v.block pkg 0) 0 4 = 5) ∧ (¬bad → fieldOf (v.block pkg 0) 0 4 = 4)) ∧
    (1 ≤ quad → quad ≤ 8 → s.partRuns pkg = false → ∃ v, exec (.registerWrite pkg (.bringUp quad) value) s = .next v ∧
      OnlyPacks s v [pkg] ∧ v.block pkg quad = value &&& 0x7FFFFFFFFF ∧
      ∀ i, i ≠ quad → v.block pkg i = s.block pkg i)

/-- R4, R358, R367, R409: the other registers that a write reaches. A quad of a queue through a doorbell window is written
as writeQueue does; PLANERR of a port and BADTAIL of a mailbox ring are cleared by writing 1; LOAD of the slot table is
written and FAIL cleared by writing 1; HEAD of a fault ring and TAIL of a mailbox ring are written. -/
def registerRules : Prop :=
  ∀ (s : State) (pkg : Nat) (v : Quad),
    (∀ f idx quad q, s.windowQueue pkg f idx = some q → s.partRuns pkg = true →
      exec (.registerWrite pkg (.queue f idx quad) v) s = .next (s.writeQueue pkg f q quad v)) ∧
    (∀ port b, port < 40 → s.blockBase pkg 2 = some b →
      exec (.registerWrite pkg (.portStatus port) v) s = .next (if v.getLsbD 0 then
        { s with mem := writeQuad s.mem (b + 0x380 + 8 * port) (readQuad s.mem (b + 0x380 + 8 * port) &&& ~~~1#64) }
        else s)) ∧
    (∀ b, s.blockBase pkg 2 = some b → exec (.registerWrite pkg .slotStatus v) s = .next { s with
      mem := writeQuad s.mem (b + 0x1010)
        (((readQuad s.mem (b + 0x1010) &&& ~~~1#64) ||| (v &&& 1)) &&& ~~~(v &&& 4)) }) ∧
    (∀ die, die < 4 → s.partRuns pkg = true → exec (.registerWrite pkg (.ringHead die) v) s = .next { s with
      mem := writeN s.mem (s.xlat pkg die + 16) 4 (fieldOf v 0 32) }) ∧
    (∀ ring a, ring < 17 → s.ringAt pkg ring = some a →
      exec (.registerWrite pkg (.mailbox ring 0) v) s = .next { s with mem := writeN s.mem a 4 (fieldOf v 0 32) } ∧
      exec (.registerWrite pkg (.mailbox ring 2) v) s = .next (if v.getLsbD 0 then
        { s with mem := writeQuad s.mem (a + 16) (readQuad s.mem (a + 16) &&& ~~~1#64) } else s))

/-- R408, R409, R412: a poll of rings whose TAILs are in range and whose oldest commands have codes of R408 makes Huane
see each TAIL. FWLOAD of an image that verifies, at a version that is allowed, fills the slot that does not run, and
ends with status 4 otherwise; PCREATE makes a partition of resources that no other holds; PTEAR starts a teardown.
Once no hart of the partition is left, by asid or by queue, the release wipes its HBM4E regions, in caches too, drops its memberships and the partition,
and ends the PTEAR that asked for it with status 0. -/
def mailboxRules : Prop :=
  ∀ (s : State) (pkg ring : Nat) (q : List Quad) (bytes : List Byte),
    let h := (s.pack pkg).huane
    let arg := q.getD 1 0
    (s.partRuns pkg = true →
      (∀ r, r < 17 → ∀ a, s.ringAt pkg r = some a → (readWord s.mem a - s.ringHead a).toNat ≤ 32 ∧
        (readWord s.mem a ≠ s.ringHead a → let c := cmdCode (readQuads s.mem (slotAt a (s.ringHead a)) 8)
          1 ≤ c ∧ c ≤ 8)) →
      ∃ v, exec (.mailboxPoll pkg) s = .next v ∧ OnlyPacks s v [pkg] ∧ ∀ r, r < 17 → ∀ a, s.ringAt pkg r = some a →
        assocGet (v.pack pkg).huane.tails r 0 = readWord s.mem a) ∧
    (Commanded s pkg ring 1 q bytes → ring = 0 → arg.toNat ≤ 2 → q.getD 2 0 = 0 →
      match Config.firmware bytes with
      | none => exec (.fwload pkg ring) s = .next (s.endCommand pkg ring { status := 4 })
      | some version =>
        (version < assocGet h.least arg.toNat 0 →
          exec (.fwload pkg ring) s = .next (s.endCommand pkg ring { status := 4 })) ∧
        (assocGet h.least arg.toNat 0 ≤ version → ∃ x, exec (.fwload pkg ring) s = .next
            ((s.onHuane pkg fun h => { h with slots := (arg.toNat, x) :: h.slots.filter (·.1 != arg.toNat) }).endCommand
              pkg ring { status := 0, result := BitVec.ofNat 64 version }) ∧
          (assocGet h.active arg.toNat 0 = 0 → x.2 = some version) ∧
          (assocGet h.active arg.toNat 0 ≠ 0 → x.1 = some version))) ∧
    (∀ rs, Commanded s pkg ring 2 q bytes → ring = 0 → arg.toNat ≤ 16 → q.getD 2 0 = 0 →
      resourceList (bytes.length + 1) bytes = some rs → s.partitionOn pkg arg.toNat = none →
      (∀ p ∈ h.partitions, ∀ a ∈ p.resources, ∀ b ∈ rs, a.overlaps b = false) →
      exec (.pcreate pkg ring) s = .next (((s.onHuane pkg fun h => { h with
        partitions := h.partitions ++ [{ id := h.nextPartition, function := arg.toNat, resources := rs }],
        nextPartition := h.nextPartition + 1 }).setFunc pkg arg.toNat (queuesOf rs)).endCommand pkg ring
          { status := 0, result := BitVec.ofNat 64 h.nextPartition })) ∧
    (∀ p, Commanded s pkg ring 3 q bytes → ring = 0 → q.getD 2 0 = 0 →
      h.partitions.find? (fun p => p.id == arg.toNat && !p.tearing) = some p →
      ∃ v, exec (.ptear pkg ring) s = .next v ∧
        ∀ x ∈ (v.pack pkg).huane.partitions, x.id = p.id → x.tearing = true ∧ x.ring = some ring) ∧
    (∀ part p, h.partitions.find? (fun p => p.id == part && p.tearing) = some p →
      (∀ x ∈ s.harts, x.pkg = pkg → holds p.resources 0 x.asid.toNat = false ∧
        ∀ g, s.gangOf x = some g → holds p.resources 1 g.queue = false) →
      ∃ t, exec (.partitionRelease pkg part) s = .next (match p.ring with
          | some r => t.endCommand pkg r { status := 0 }
          | none => t) ∧ t.hart = s.hart ∧ t.others = s.others ∧
        (t.pack pkg).huane.partitions = h.partitions.filter (·.id != part) ∧
        (∀ r ∈ p.resources, r.type = 3 → ∀ die < 4, ∀ k < 2 ^ 37, r.first ≤ die * 2 ^ 37 + k →
          die * 2 ^ 37 + k < r.first + r.count → t.fieldsAt (hbmKey pkg die k) = Fields.all →
            readByte t.mem (hbmKey pkg die k) = 0 ∧ ∀ c ∈ t.cores, c.pkg = pkg →
              ∀ x ∈ c.icache ++ c.ccache, x.1 ≠ hbmKey pkg die k / 64) ∧
        (∀ e ∈ t.enclaves, ∀ m ∈ e.members, ¬(m.2.1 = pkg ∧ m.2.2 = part)))

/-- R408, R410, R411, R415: ECREATE makes an enclave without members, with an identifier that is open; EJOIN admits a
member whose measurement is allowed (whether every other member verifies it is open); REPORT, for no enclave or for
one in which the caller's partition is a member, uses the next leaf and returns 3,332 bytes, with the nonce in place and signed whole, or
ends with status 3 once every leaf is used; EREVOKE of a member with a quorum of valid signatures and a new epoch sends an order,
and ends with status 4 otherwise; a member package applies an order once, and the harts of the revoked member's
partition there have cause 0x21 pending; LCS takes the next life-cycle state, and the package is reset. -/
def enclaveRules : Prop :=
  ∀ (s : State) (pkg ring : Nat) (q : List Quad) (bytes : List Byte),
    let h := (s.pack pkg).huane
    let arg := q.getD 1 0
    let i := (q.getD 2 0).toNat
    (let n := fieldOf arg 0 8
     let quorum := fieldOf arg 8 8
     Commanded s pkg ring 4 q bytes → (s.partitionOn pkg ring).isSome = true → h.lcs = 2 → 1 ≤ n → n ≤ 16 →
     1 ≤ quorum → quorum ≤ n → fieldOf arg 17 47 = 0 → bytes.length = 64 * (n + i) →
     ∃ (t : State) (e : Enclave), exec (.ecreate pkg ring) s =
         .next (t.endCommand pkg ring { status := 0, result := e.id }) ∧ t.mem = s.mem ∧ t.hart = s.hart ∧
       t.enclaves = s.enclaves ++ [e] ∧ e.quorum = quorum ∧ e.members = [] ∧ e.keys = cut64 n bytes ∧
       e.allowed = cut64 i (bytes.drop (64 * n)) ∧ e.hostio = bitOf arg 16) ∧
    (∀ p e, Commanded s pkg ring 5 q bytes → s.partitionOn pkg ring = some p → s.enclaves.find? (·.id == arg) = some e →
      h.lcs = 2 → (∀ x ∈ e.members, x.1 ≠ i ∧ x.2.1 ≠ pkg) → s.revokedMember e.id i = false →
      Config.measure bytes ∈ e.allowed →
      ∃ t : State, (exec (.ejoin pkg ring) s = .next (t.endCommand pkg ring { status := 4 }) ∧ t.enclaves = s.enclaves) ∨
        (exec (.ejoin pkg ring) s = .next (t.endCommand pkg ring { status := 0 }) ∧ t.mem = s.mem ∧ t.hart = s.hart ∧
          t.enclaves = s.enclaves.map fun x =>
            if x.id = e.id then { x with members := x.members ++ [(i, pkg, p.id)] } else x)) ∧
    (Commanded s pkg ring 6 q bytes → bytes.length = 32 → 3332 ≤ fieldOf (q.getD 4 0) 32 32 → i = 0 →
      (arg = 0 ∨ ∃ e p, s.enclaves.find? (·.id == arg) = some e ∧ s.partitionOn pkg ring = some p ∧
        ∃ m ∈ e.members, m.2.1 = pkg ∧ m.2.2 = p.id) →
      h.lcs = 1 ∨ h.lcs = 2 →
      (2 ^ 20 ≤ h.leaf → exec (.report pkg ring) s = .next (s.endCommand pkg ring { status := 3 })) ∧
      (h.leaf < 2 ^ 20 → ∃ (t : State) (out : List Byte), exec (.report pkg ring) s = .next (t.endCommand pkg ring
          { status := 0, result := BitVec.ofNat 64 h.leaf, out := out }) ∧ t.mem = s.mem ∧ t.hart = s.hart ∧
        (t.pack pkg).huane = { h with leaf := h.leaf + 1 } ∧ out.length = 3332 ∧
        (out.drop 16).take 32 = bytes ∧
        out.drop 512 = (List.range 2820).map (Config.signature pkg h.leaf (out.take 512)))) ∧
    (∀ e, let member := byteNat (bytes.take 8)
      let epoch := byteNat ((bytes.drop 8).take 8)
      let n := byteNat ((bytes.drop 16).take 8)
      let good := ((orderSigs n (bytes.drop 24)).filter fun x => match e.keys[x.1]? with
        | some k => Config.verifies k e.id member epoch x.2
        | none => false).map (·.1)
      Commanded s pkg ring 7 q bytes → s.enclaves.find? (·.id == arg) = some e →
      (∃ p, s.partitionOn pkg ring = some p ∧ ∃ m ∈ e.members, m.2.1 = pkg ∧ m.2.2 = p.id) →
      bytes.length = 24 + 2828 * n → i = 0 →
      let fresh := ∀ o ∈ s.orders, o.enclave = e.id → o.epoch < epoch
      (fresh → e.quorum ≤ good.eraseDups.length → exec (.erevoke pkg ring) s =
        .next (({ s with orders := s.orders ++ [⟨e.id, member, epoch⟩] } : State).endCommand pkg ring { status := 0 })) ∧
      (¬fresh ∨ good.eraseDups.length < e.quorum →
        exec (.erevoke pkg ring) s = .next (s.endCommand pkg ring { status := 4 }))) ∧
    (∀ enclave member epoch e, let o : Order := ⟨BitVec.ofNat 64 enclave, member, epoch⟩
      s.enclaves.find? (·.id == BitVec.ofNat 64 enclave) = some e → o ∈ s.orders → (∃ m ∈ e.members, m.2.1 = pkg) →
      o ∉ h.applied → ∃ v, exec (.revocationApply pkg enclave member epoch) s = .next v ∧
        (v.pack pkg).huane.applied = o :: h.applied ∧
        (∀ m p, e.members.find? (fun m => m.1 == member && m.2.1 == pkg) = some m →
          h.partitions.find? (·.id == m.2.2) = some p →
          ∀ x ∈ v.harts, x.pkg = pkg → holds p.resources 0 x.asid.toNat = true → x.sup.pend.getLsbD 1 = true)) ∧
    (Commanded s pkg ring 8 q bytes → ring = 0 → q.getD 2 0 = 0 → arg.toNat ≤ 4 → arg.toNat = h.lcs.toNat + 1 →
      ∃ v, exec (.lcs pkg ring) s = .next v ∧ (v.pack pkg).huane.lcs = h.lcs + 1 ∧
        (fieldOf (v.block pkg 0) 0 4 = 3 ∨ fieldOf (v.block pkg 0) 0 4 = 1) ∧
        fieldOf (v.block pkg 0) 4 4 = h.lcs.toNat + 1 ∧ (∀ x ∈ v.harts, x.pkg ≠ pkg) ∧ ∀ c ∈ v.mem, inPackage pkg c.1 = false)

/-- R416 to R421: each interval the arbiter gives each die a grant of at most DIECAP as it is applied, and no more than the
die asks for (which one is open), with an estimate of at most PKGCAP, and droop ends; while a trip lasts half of each grant
is in force; droop, a trip and recovery set and clear their marks. An uncorrectable
error in memory poisons its granule and is logged with kind 1; the summary of corrected errors of a die with kind 4 (its
other fields are open). Training sets the rate of the host link. -/
def powerAndErrorRules : Prop :=
  ∀ (s : State) (pkg die rate addr : Nat) (demand : List Nat) (u : EccUnit),
    let p := s.pack pkg
    let cap := max 200 (min 800 (fieldOf (s.block pkg 10) 32 10))
    (∃ v, exec (.powerGrantInterval pkg demand) s = .next v ∧ OnlyPacks s v [pkg] ∧
      (v.pack pkg).power.grants.length = 4 ∧
      (∀ d, d < 4 → (v.pack pkg).power.grants.getD d 0 ≤ cap ∧ (v.pack pkg).power.grants.getD d 0 ≤ demand.getD d 0) ∧
      (v.pack pkg).power.estimate ≤ max 600 (min 2000 (fieldOf (s.block pkg 10) 0 11)) ∧
      (v.pack pkg).power.droop = false ∧ (v.pack pkg).power.hot = p.power.hot ∧
      ∀ d, d < 4 → (v.pack pkg).power.grant d = (if p.power.hot then (v.pack pkg).power.grants.getD d 0 / 2 else
        (v.pack pkg).power.grants.getD d 0)) ∧
    ChangesPack s pkg { p with power := { p.power with droop := true } } (exec (.railDroop pkg) s) ∧
    ChangesPack s pkg { p with power := { p.power with hot := true } } (exec (.thermalTrip pkg) s) ∧
    ChangesPack s pkg { p with power := { p.power with hot := false } } (exec (.thermalRecover pkg) s) ∧
    (let t := if (u = .hbm ∨ u = .l2 ∨ u = .vault) ∧ inPackage pkg addr = true then
         { s with poison := insertNat s.poison (addr / 32) } else s
     exec (.uncorrectableError pkg u addr) s =
       .next (t.machineCheck pkg (checkAddr addr).1 1 (EccUnit.code u) 1 0)) ∧
    (die < 4 → ∃ a unit count, unit < 256 ∧ exec (.correctedSummary pkg die) s =
      .next { s.machineCheck pkg a 4 unit count 0 with free := s.free + 3 }) ∧
    (rate ∈ [64, 32, 16, 8, 5, 2] → ChangesPack s pkg { p with hostRate := rate } (exec (.hostLinkTraining pkg rate) s))

/-- R405 to R412, R415: bring-up, registers, the mailbox and its commands. -/
def Obligations.HuaneCommands : Prop := bringUpRules ∧ registerRules ∧ mailboxRules ∧ enclaveRules

/-- R416 to R421. -/
def Obligations.PowerAndErrors : Prop := powerAndErrorRules
end

