-- ==== Sys2Proof/Laws/Memory.lean ====
section
/-! SUPPORT. Memory: every operation keeps the canonical form, and what a read gives after a write. -/

namespace Sys2Proof.Machine

/-! ### The canonical form -/

theorem wfFrom_mono {m : List Host.Cell} {lo lo' : Nat} (h : lo' ≤ lo) (w : wfFrom lo m = true) : wfFrom lo' m = true := by
  cases m with
  | nil => rfl
  | cons c r =>
    simp only [wfFrom, Bool.and_eq_true, decide_eq_true_eq] at w ⊢
    exact ⟨⟨by omega, w.1.2⟩, w.2⟩

theorem wfFrom_cons {lo a : Nat} {b : Byte} {r : List Host.Cell} :
    wfFrom lo ((a, b) :: r) = true ↔ lo ≤ a ∧ b ≠ 0 ∧ wfFrom (a + 1) r = true := by
  simp [wfFrom, and_assoc]

theorem wfFrom_writeByte (b : Byte) : ∀ (m : List Host.Cell) (lo x : Nat), lo ≤ x → wfFrom lo m = true →
    wfFrom lo (writeByte m x b) = true
  | [], lo, x, h, _ => by
    by_cases hb : b = 0
    · rw [writeByte, if_pos hb]; rfl
    · rw [writeByte, if_neg hb]; exact wfFrom_cons.2 ⟨h, hb, rfl⟩
  | (a, c) :: r, lo, x, h, w => by
    obtain ⟨ha, hc, hr⟩ := wfFrom_cons.1 w
    rw [writeByte]
    split
    · split
      · exact wfFrom_mono (by omega) hr
      · next hb => subst_vars; exact wfFrom_cons.2 ⟨h, hb, hr⟩
    · split
      · split
        · exact w
        · next hb => exact wfFrom_cons.2 ⟨h, hb, wfFrom_cons.2 ⟨by omega, hc, hr⟩⟩
      · exact wfFrom_cons.2 ⟨ha, hc, wfFrom_writeByte b r (a + 1) x (by omega) hr⟩

@[simp] theorem Memory.wf_writeByte {m : List Host.Cell} (x : Nat) (b : Byte) (w : Memory.wf m = true) :
    Memory.wf (writeByte m x b) = true := wfFrom_writeByte b m 0 x (Nat.zero_le _) w

@[simp] theorem Memory.wf_writeN : ∀ (n : Nat) {m : List Host.Cell} (a v : Nat), Memory.wf m = true →
    Memory.wf (writeN m a n v) = true
  | 0, _, _, _, w => w
  | n + 1, _, a, _, w => Memory.wf_writeN n (a + 1) _ (Memory.wf_writeByte _ _ w)

@[simp] theorem Memory.wf_writeQuad {m : List Host.Cell} (a : Nat) (v : Quad) (w : Memory.wf m = true) :
    Memory.wf (writeQuad m a v) = true := Memory.wf_writeN 8 a _ w

@[simp] theorem Memory.wf_writeQuads : ∀ (qs : List Quad) {m : List Host.Cell} (a : Nat), Memory.wf m = true →
    Memory.wf (writeQuads m a qs) = true
  | [], _, _, w => w
  | q :: r, _, a, w => Memory.wf_writeQuads r (a + 8) (Memory.wf_writeQuad a q w)

theorem wfFrom_filter (p : Host.Cell → Bool) : ∀ (m : List Host.Cell) (lo : Nat), wfFrom lo m = true →
    wfFrom lo (m.filter p) = true
  | [], _, _ => rfl
  | (a, b) :: r, lo, w => by
    obtain ⟨ha, hb, hr⟩ := wfFrom_cons.1 w
    rw [List.filter_cons]
    split
    · exact wfFrom_cons.2 ⟨ha, hb, wfFrom_filter p r (a + 1) hr⟩
    · exact wfFrom_mono (by omega) (wfFrom_filter p r (a + 1) hr)

@[simp] theorem Memory.wf_wipeRange {m : List Host.Cell} (lo n : Nat) (w : Memory.wf m = true) :
    Memory.wf (wipeRange m lo n) = true := wfFrom_filter _ m 0 w

/-! ### Writes that reach register blocks -/

@[simp] theorem State.tailWritten_wf (s : State) {m : List Host.Cell} (d : Nat) (w : Memory.wf m = true) :
    Memory.wf (s.tailWritten m d) = true := by
  unfold State.tailWritten; dsimp only; split
  · exact w
  · exact Memory.wf_writeQuad _ _ (Memory.wf_writeN _ _ _ w)

theorem State.tailsWritten_wf (s : State) : ∀ (l : List Nat) {m : List Host.Cell}, Memory.wf m = true →
    Memory.wf (l.foldl s.tailWritten m) = true
  | [], _, w => w
  | d :: r, _, w => State.tailsWritten_wf s r (State.tailWritten_wf s d w)

@[simp] theorem State.put_wf {s : State} (a n v : Nat) (w : Memory.wf s.mem = true) : Memory.wf (s.put a n v) = true :=
  State.tailsWritten_wf _ _ (Memory.wf_writeN _ _ _ w)

@[simp] theorem State.putQuads_wf : ∀ (qs : List Quad) {s : State} (a : Nat), Memory.wf s.mem = true →
    Memory.wf (s.putQuads a qs).mem = true
  | [], _, _, w => w
  | q :: r, _, a, w => State.putQuads_wf r (a + 8) (State.put_wf a 8 q.toNat w)

theorem wfFrom_filterMap {f : Host.Cell → Option Host.Cell}
    (hf : ∀ c d, f c = some d → c.2 ≠ 0 → d.1 = c.1 ∧ d.2 ≠ 0) : ∀ (m : List Host.Cell) (lo : Nat), wfFrom lo m = true →
    wfFrom lo (m.filterMap f) = true
  | [], _, _ => rfl
  | (a, b) :: r, lo, w => by
    obtain ⟨ha, hb, hr⟩ := wfFrom_cons.1 w
    have ih := wfFrom_filterMap hf r (a + 1) hr
    rw [List.filterMap_cons]
    split
    · exact wfFrom_mono (by omega) ih
    · next d e =>
      obtain ⟨h1, h2⟩ := hf _ _ e hb
      obtain ⟨x, y⟩ := d
      subst h1
      exact wfFrom_cons.2 ⟨ha, h2, ih⟩

@[simp] theorem State.zeroed_wf {s : State} (lo n : Nat) (w : Memory.wf s.mem = true) : Memory.wf (s.zeroed lo n) = true := by
  refine State.tailsWritten_wf _ _ (wfFrom_filterMap ?_ _ _ w)
  intro c d e hc
  split at e
  · cases e; exact ⟨rfl, hc⟩
  · dsimp only at e; split at e
    · cases e
    · next h => cases e; exact ⟨rfl, h⟩

/-! ### Reading -/

/-- No byte below the least listed address is listed. -/
theorem readByte_below : ∀ {m : List Host.Cell} {lo x : Nat}, wfFrom lo m = true → x < lo → readByte m x = 0
  | [], _, _, _, _ => rfl
  | (a, b) :: r, lo, x, w, h => by
    obtain ⟨ha, _, _⟩ := wfFrom_cons.1 w
    rw [readByte, if_neg (by omega), if_pos (by omega)]

theorem readByte_cons {a : Nat} {b : Byte} {r : List Host.Cell} {y : Nat} (w : wfFrom (a + 1) r = true) :
    readByte ((a, b) :: r) y = if y = a then b else readByte r y := by
  rw [readByte]
  by_cases h : a = y
  · simp [h]
  · rw [if_neg h, if_neg (Ne.symm h)]
    split
    · next hlt => rw [readByte_below w (by omega)]
    · rfl

theorem readByte_writeByte_from (b : Byte) : ∀ (m : List Host.Cell) (lo x y : Nat), wfFrom lo m = true →
    readByte (writeByte m x b) y = if y = x then b else readByte m y
  | [], lo, x, y, _ => by
    rw [writeByte]
    split
    · next hb => simp [readByte, hb]
    · rw [readByte_cons rfl]
  | (a, c) :: r, lo, x, y, w => by
    obtain ⟨ha, hc, hr⟩ := wfFrom_cons.1 w
    rw [writeByte, readByte_cons hr]
    by_cases h1 : a = x
    · subst h1
      rw [if_pos rfl]
      split
      · next hb =>
        by_cases hy : y = a
        · subst hy; rw [if_pos rfl, hb]; exact readByte_below hr (by omega)
        · simp [hy]
      · rw [readByte_cons hr]; by_cases hy : y = a <;> simp [hy]
    · rw [if_neg h1]
      split
      · next hlt =>
        split
        · next hb =>
          rw [readByte_cons hr]
          by_cases hy : y = x
          · subst hy; rw [if_pos rfl, if_neg (Ne.symm h1), hb]; exact readByte_below hr (by omega)
          · simp [hy]
        · rw [readByte_cons (wfFrom_cons.2 ⟨by omega, hc, hr⟩), readByte_cons hr]
      · next hge =>
        rw [readByte_cons (wfFrom_writeByte b r (a + 1) x (by omega) hr), readByte_writeByte_from b r (a + 1) x y hr]
        by_cases hy : y = a
        · subst hy; rw [if_pos rfl, if_neg h1]; simp
        · simp [hy]

/-- A byte that is written is read back, and every other byte is as it was. -/
theorem readByte_writeByte {m : List Host.Cell} (w : Memory.wf m = true) (x y : Nat) (b : Byte) :
    readByte (writeByte m x b) y = if y = x then b else readByte m y := readByte_writeByte_from b m 0 x y w

/-- Byte i of n bytes written is byte i of the value; every other byte is as it was (R2). -/
theorem readByte_writeN : ∀ (n : Nat) {m : List Host.Cell} (a v y : Nat), Memory.wf m = true →
    readByte (writeN m a n v) y = if a ≤ y ∧ y < a + n then BitVec.ofNat 8 (v / 256 ^ (y - a)) else readByte m y
  | 0, m, a, v, y, _ => by rw [writeN, if_neg (by omega)]
  | n + 1, m, a, v, y, w => by
    rw [writeN, readByte_writeN n (a + 1) _ y (Memory.wf_writeByte _ _ w), readByte_writeByte w]
    by_cases h : y = a
    · subst h; rw [if_neg (by omega), if_pos rfl, if_pos (by omega)]; simp
    · by_cases h2 : a + 1 ≤ y ∧ y < a + 1 + n
      · rw [if_pos h2, if_pos (by omega), Nat.div_div_eq_div_mul,
          show y - a = (y - (a + 1)) + 1 by omega, Nat.pow_succ, Nat.mul_comm]
      · rw [if_neg h2, if_neg h, if_neg (by omega)]

/-- A quad that is written leaves every byte outside its eight as it was. -/
theorem readByte_writeQuad {m : List Host.Cell} (w : Memory.wf m = true) (a : Nat) (v : Quad) (y : Nat)
    (h : y < a ∨ a + 8 ≤ y) : readByte (writeQuad m a v) y = readByte m y := by
  rw [writeQuad, readByte_writeN 8 a _ y w, if_neg (by omega)]

theorem readByte_writeQuads : ∀ (qs : List Quad) {m : List Host.Cell} (a y : Nat), Memory.wf m = true →
    (y < a ∨ a + 8 * qs.length ≤ y) → readByte (writeQuads m a qs) y = readByte m y
  | [], _, _, _, _, _ => rfl
  | q :: r, m, a, y, w, h => by
    simp only [List.length_cons] at h
    rw [writeQuads, readByte_writeQuads r (a + 8) y (Memory.wf_writeQuad a q w) (by omega),
      readByte_writeQuad w a q y (by omega)]

/-- n bytes that were written are read back. -/
theorem readN_eq_of_bytes (m : List Host.Cell) : ∀ (n a v : Nat), v < 256 ^ n →
    (∀ y, a ≤ y → y < a + n → readByte m y = BitVec.ofNat 8 (v / 256 ^ (y - a))) → readN m a n = v
  | 0, _, v, hv, _ => by simp at hv; simp [readN, hv]
  | n + 1, a, v, hv, h => by
    have h0 := h a (by omega) (by omega)
    have ih := readN_eq_of_bytes m n (a + 1) (v / 256)
      (by rw [Nat.div_lt_iff_lt_mul (by decide)]; rwa [Nat.pow_succ] at hv)
      (fun y hy hy' => by
        rw [h y (by omega) (by omega), Nat.div_div_eq_div_mul, show y - a = (y - (a + 1)) + 1 by omega, Nat.pow_succ,
          Nat.mul_comm])
    rw [readN, h0, ih]; simp; omega

theorem readN_writeN {m : List Host.Cell} (w : Memory.wf m = true) (a n v : Nat) (hv : v < 256 ^ n) :
    readN (writeN m a n v) a n = v :=
  readN_eq_of_bytes _ n a v hv fun y h h' => by rw [readByte_writeN n a v y w, if_pos ⟨h, h'⟩]

theorem readQuad_writeQuad {m : List Host.Cell} (w : Memory.wf m = true) (a : Nat) (v : Quad) :
    readQuad (writeQuad m a v) a = v := by
  rw [readQuad, writeQuad, readN_writeN w a 8 _ (by have := v.isLt; omega)]; simp

/-- Reads depend on the bytes alone. -/
theorem readN_congr {m m' : List Host.Cell} : ∀ (n a : Nat), (∀ y, a ≤ y → y < a + n → readByte m y = readByte m' y) →
    readN m a n = readN m' a n
  | 0, _, _ => rfl
  | n + 1, a, h => by
    rw [readN, readN, h a (by omega) (by omega), readN_congr n (a + 1) fun y hy hy' => h y (by omega) (by omega)]

theorem readQuad_congr {m m' : List Host.Cell} (a : Nat)
    (h : ∀ y, a ≤ y → y < a + 8 → readByte m y = readByte m' y) : readQuad m a = readQuad m' a := by
  rw [readQuad, readQuad, readN_congr 8 a h]

theorem readQuads_succ (m : List Host.Cell) (a n : Nat) :
    readQuads m a (n + 1) = readQuad m a :: readQuads m (a + 8) n := by
  simp only [readQuads, List.range_succ_eq_map, List.map_cons, List.map_map, Nat.mul_zero, Nat.add_zero]
  refine congrArg _ (List.map_congr_left fun i _ => ?_)
  rw [Function.comp, show a + 8 * Nat.succ i = a + 8 + 8 * i by omega]

/-- Quads that were written are read back. -/
theorem readQuads_writeQuads : ∀ (qs : List Quad) {m : List Host.Cell} (a : Nat), Memory.wf m = true →
    readQuads (writeQuads m a qs) a qs.length = qs
  | [], _, _, _ => rfl
  | q :: r, m, a, w => by
    rw [List.length_cons, readQuads_succ, writeQuads, readQuads_writeQuads r (a + 8) (Memory.wf_writeQuad a q w),
      readQuad_congr (m' := writeQuad m a q) a fun y _ _ =>
        readByte_writeQuads r (a + 8) y (Memory.wf_writeQuad a q w) (by omega), readQuad_writeQuad w]

/-- A read outside the bytes written is as it was. -/
theorem readN_writeN_other {m : List Host.Cell} (w : Memory.wf m = true) {a n v x k : Nat}
    (h : x + k ≤ a ∨ a + n ≤ x) : readN (writeN m a n v) x k = readN m x k :=
  readN_congr k x fun y hy hy' => by rw [readByte_writeN n a v y w, if_neg (by omega)]

/-- A wiped range reads zero, and every other byte is as it was. -/
theorem readByte_wipeRange_from (lo n : Nat) : ∀ (m : List Host.Cell) (k y : Nat), wfFrom k m = true →
    readByte (wipeRange m lo n) y = if lo ≤ y ∧ y < lo + n then 0 else readByte m y
  | [], _, y, _ => by simp [wipeRange, readByte]
  | (a, b) :: r, k, y, w => by
    obtain ⟨_, hb, hr⟩ := wfFrom_cons.1 w
    have ih := readByte_wipeRange_from lo n r (a + 1) y hr
    rw [readByte_cons hr]
    by_cases h : a < lo ∨ lo + n ≤ a
    · have e : wipeRange ((a, b) :: r) lo n = (a, b) :: wipeRange r lo n := by simp [wipeRange, h]
      rw [e, readByte_cons (show wfFrom (a + 1) (wipeRange r lo n) = true from wfFrom_filter _ r _ hr), ih]
      by_cases hy : y = a
      · subst hy; simp; omega
      · simp [hy]
    · have e : wipeRange ((a, b) :: r) lo n = wipeRange r lo n := by simp [wipeRange, h]
      rw [e, ih]
      by_cases hy : y = a
      · subst hy; rw [if_pos (by omega), if_pos (by omega)]
      · simp [hy]

theorem readByte_wipeRange {m : List Host.Cell} (w : Memory.wf m = true) (lo n y : Nat) :
    readByte (wipeRange m lo n) y = if lo ≤ y ∧ y < lo + n then 0 else readByte m y :=
  readByte_wipeRange_from lo n m 0 y w

/-- Equal memories are equal data. -/
theorem eq_of_readByte_from : ∀ (m m' : List Host.Cell) (lo : Nat), wfFrom lo m = true → wfFrom lo m' = true →
    (∀ y, lo ≤ y → readByte m y = readByte m' y) → m = m'
  | [], [], _, _, _, _ => rfl
  | [], (a, b) :: r, lo, _, w, h => by
    obtain ⟨ha, hb, _⟩ := wfFrom_cons.1 w
    have := h a ha; simp [readByte] at this; exact absurd this.symm hb
  | (a, b) :: r, [], lo, w, _, h => by
    obtain ⟨ha, hb, _⟩ := wfFrom_cons.1 w
    have := h a ha; simp [readByte] at this; exact absurd this hb
  | (a, b) :: r, (a', b') :: r', lo, w, w', h => by
    obtain ⟨ha, hb, hr⟩ := wfFrom_cons.1 w
    obtain ⟨ha', hb', hr'⟩ := wfFrom_cons.1 w'
    have hab : a = a' := by
      by_contra hne
      by_cases hlt : a < a'
      · have := h a ha; rw [readByte_cons hr, if_pos rfl, readByte_cons hr', if_neg hne, readByte_below hr' (by omega)] at this
        exact hb this
      · have := h a' ha'
        rw [readByte_cons hr, if_neg (Ne.symm hne), readByte_below hr (by omega), readByte_cons hr', if_pos rfl] at this
        exact hb' this.symm
    subst hab
    have hbb := h a ha
    rw [readByte_cons hr, readByte_cons hr', if_pos rfl, if_pos rfl] at hbb
    subst hbb
    congr 1
    refine eq_of_readByte_from r r' (a + 1) hr hr' fun y hy => ?_
    have := h y (by omega)
    rwa [readByte_cons hr, readByte_cons hr', if_neg (by omega), if_neg (by omega)] at this

/-- Two memories in canonical form that read the same are the same. -/
theorem Memory.ext {m m' : List Host.Cell} (w : Memory.wf m = true) (w' : Memory.wf m' = true)
    (h : ∀ y, readByte m y = readByte m' y) : m = m' := eq_of_readByte_from m m' 0 w w' fun y _ => h y

end Sys2Proof.Machine
end

