-- ==== Sys2Proof/Laws/State.lean ====
section
/-! SUPPORT. What each update of the state and of a hart does to each field. -/

namespace Sys2Proof.Machine

/-! ### Updates of the state -/

@[simp] theorem State.mapHart_hart (s : State) (f : Hart → Hart) : (s.mapHart f).hart = f s.hart := rfl
@[simp] theorem State.setHart_hart (s : State) (h : Hart) : (s.setHart h).hart = h := rfl
@[simp] theorem State.drawn_free (s : State) : s.drawn.free = s.free + 1 := rfl
@[simp] theorem State.done_hart (s : State) (n : Nat) : (s.done n).hart = { s.hart.advance n with status := .running } := rfl
@[simp] theorem State.holdHart_hart (s : State) (w : Wait) : (s.holdHart w).hart = { s.hart with status := .held w } := rfl
@[simp] theorem State.nextSeq_hart (s : State) : s.nextSeq.hart = { s.hart with seq := s.hart.seq + 1 } := rfl
@[simp] theorem State.issue_hart (s : State) (a : Access) : (s.issue a).hart = { s.hart with pend := s.hart.pend ++ [{ a with held := a.held ||| s.hart.ct, join := s.hart.joins, pc := s.hart.pc, span := s.hart.group, strip := s.hart.par.map fun n => (n, s.hart.csr.strip), path := s.pathOfSlice a.slice }] } := rfl
@[simp] theorem State.mapHart_mem (s : State) (f : Hart → Hart) : (s.mapHart f).mem = s.mem := rfl
@[simp] theorem State.setHart_mem (s : State) (h : Hart) : (s.setHart h).mem = s.mem := rfl
@[simp] theorem State.done_mem (s : State) (n : Nat) : (s.done n).mem = s.mem := rfl
@[simp] theorem State.holdHart_mem (s : State) (w : Wait) : (s.holdHart w).mem = s.mem := rfl
@[simp] theorem State.nextSeq_mem (s : State) : s.nextSeq.mem = s.mem := rfl
@[simp] theorem State.issue_mem (s : State) (a : Access) : (s.issue a).mem = s.mem := rfl
@[simp] theorem State.drawn_mem (s : State) : s.drawn.mem = s.mem := rfl
@[simp] theorem State.setCore_mem (s : State) (c : Core) : (s.setCore c).mem = s.mem := rfl
@[simp] theorem State.setPack_mem (s : State) (p : Package) : (s.setPack p).mem = s.mem := rfl
@[simp] theorem State.mapHart_poison (s : State) (f : Hart → Hart) : (s.mapHart f).poison = s.poison := rfl
@[simp] theorem State.setHart_poison (s : State) (h : Hart) : (s.setHart h).poison = s.poison := rfl
@[simp] theorem State.done_poison (s : State) (n : Nat) : (s.done n).poison = s.poison := rfl
@[simp] theorem State.holdHart_poison (s : State) (w : Wait) : (s.holdHart w).poison = s.poison := rfl
@[simp] theorem State.nextSeq_poison (s : State) : s.nextSeq.poison = s.poison := rfl
@[simp] theorem State.issue_poison (s : State) (a : Access) : (s.issue a).poison = s.poison := rfl
@[simp] theorem State.drawn_poison (s : State) : s.drawn.poison = s.poison := rfl
@[simp] theorem State.setCore_poison (s : State) (c : Core) : (s.setCore c).poison = s.poison := rfl
@[simp] theorem State.setPack_poison (s : State) (p : Package) : (s.setPack p).poison = s.poison := rfl
@[simp] theorem State.drawn_hart (s : State) : s.drawn.hart = s.hart := rfl
@[simp] theorem State.setCore_hart (s : State) (c : Core) : (s.setCore c).hart = s.hart := rfl
@[simp] theorem State.setPack_hart (s : State) (p : Package) : (s.setPack p).hart = s.hart := rfl
@[simp] theorem State.mapHart_others (s : State) (f : Hart → Hart) : (s.mapHart f).others = s.others := rfl
@[simp] theorem State.setHart_others (s : State) (h : Hart) : (s.setHart h).others = s.others := rfl
@[simp] theorem State.done_others (s : State) (n : Nat) : (s.done n).others = s.others := rfl
@[simp] theorem State.holdHart_others (s : State) (w : Wait) : (s.holdHart w).others = s.others := rfl
@[simp] theorem State.nextSeq_others (s : State) : s.nextSeq.others = s.others := rfl
@[simp] theorem State.issue_others (s : State) (a : Access) : (s.issue a).others = s.others := rfl
@[simp] theorem State.drawn_others (s : State) : s.drawn.others = s.others := rfl
@[simp] theorem State.setCore_others (s : State) (c : Core) : (s.setCore c).others = s.others := rfl
@[simp] theorem State.setPack_others (s : State) (p : Package) : (s.setPack p).others = s.others := rfl
@[simp] theorem State.mapHart_cores (s : State) (f : Hart → Hart) : (s.mapHart f).cores = s.cores := rfl
@[simp] theorem State.setHart_cores (s : State) (h : Hart) : (s.setHart h).cores = s.cores := rfl
@[simp] theorem State.done_cores (s : State) (n : Nat) : (s.done n).cores = s.cores := rfl
@[simp] theorem State.holdHart_cores (s : State) (w : Wait) : (s.holdHart w).cores = s.cores := rfl
@[simp] theorem State.nextSeq_cores (s : State) : s.nextSeq.cores = s.cores := rfl
@[simp] theorem State.issue_cores (s : State) (a : Access) : (s.issue a).cores = s.cores := rfl
@[simp] theorem State.drawn_cores (s : State) : s.drawn.cores = s.cores := rfl
@[simp] theorem State.setPack_cores (s : State) (p : Package) : (s.setPack p).cores = s.cores := rfl
@[simp] theorem State.mapHart_pkgs (s : State) (f : Hart → Hart) : (s.mapHart f).pkgs = s.pkgs := rfl
@[simp] theorem State.setHart_pkgs (s : State) (h : Hart) : (s.setHart h).pkgs = s.pkgs := rfl
@[simp] theorem State.done_pkgs (s : State) (n : Nat) : (s.done n).pkgs = s.pkgs := rfl
@[simp] theorem State.holdHart_pkgs (s : State) (w : Wait) : (s.holdHart w).pkgs = s.pkgs := rfl
@[simp] theorem State.nextSeq_pkgs (s : State) : s.nextSeq.pkgs = s.pkgs := rfl
@[simp] theorem State.issue_pkgs (s : State) (a : Access) : (s.issue a).pkgs = s.pkgs := rfl
@[simp] theorem State.drawn_pkgs (s : State) : s.drawn.pkgs = s.pkgs := rfl
@[simp] theorem State.setCore_pkgs (s : State) (c : Core) : (s.setCore c).pkgs = s.pkgs := rfl
@[simp] theorem State.mapHart_tlb (s : State) (f : Hart → Hart) : (s.mapHart f).tlb = s.tlb := rfl
@[simp] theorem State.setHart_tlb (s : State) (h : Hart) : (s.setHart h).tlb = s.tlb := rfl
@[simp] theorem State.done_tlb (s : State) (n : Nat) : (s.done n).tlb = s.tlb := rfl
@[simp] theorem State.holdHart_tlb (s : State) (w : Wait) : (s.holdHart w).tlb = s.tlb := rfl
@[simp] theorem State.nextSeq_tlb (s : State) : s.nextSeq.tlb = s.tlb := rfl
@[simp] theorem State.issue_tlb (s : State) (a : Access) : (s.issue a).tlb = s.tlb := rfl
@[simp] theorem State.drawn_tlb (s : State) : s.drawn.tlb = s.tlb := rfl
@[simp] theorem State.setCore_tlb (s : State) (c : Core) : (s.setCore c).tlb = s.tlb := rfl
@[simp] theorem State.setPack_tlb (s : State) (p : Package) : (s.setPack p).tlb = s.tlb := rfl
@[simp] theorem State.mapHart_waiters (s : State) (f : Hart → Hart) : (s.mapHart f).waiters = s.waiters := rfl
@[simp] theorem State.setHart_waiters (s : State) (h : Hart) : (s.setHart h).waiters = s.waiters := rfl
@[simp] theorem State.done_waiters (s : State) (n : Nat) : (s.done n).waiters = s.waiters := rfl
@[simp] theorem State.holdHart_waiters (s : State) (w : Wait) : (s.holdHart w).waiters = s.waiters := rfl
@[simp] theorem State.nextSeq_waiters (s : State) : s.nextSeq.waiters = s.waiters := rfl
@[simp] theorem State.issue_waiters (s : State) (a : Access) : (s.issue a).waiters = s.waiters := rfl
@[simp] theorem State.drawn_waiters (s : State) : s.drawn.waiters = s.waiters := rfl
@[simp] theorem State.setCore_waiters (s : State) (c : Core) : (s.setCore c).waiters = s.waiters := rfl
@[simp] theorem State.setPack_waiters (s : State) (p : Package) : (s.setPack p).waiters = s.waiters := rfl
@[simp] theorem State.mapHart_messages (s : State) (f : Hart → Hart) : (s.mapHart f).messages = s.messages := rfl
@[simp] theorem State.setHart_messages (s : State) (h : Hart) : (s.setHart h).messages = s.messages := rfl
@[simp] theorem State.done_messages (s : State) (n : Nat) : (s.done n).messages = s.messages := rfl
@[simp] theorem State.holdHart_messages (s : State) (w : Wait) : (s.holdHart w).messages = s.messages := rfl
@[simp] theorem State.nextSeq_messages (s : State) : s.nextSeq.messages = s.messages := rfl
@[simp] theorem State.issue_messages (s : State) (a : Access) : (s.issue a).messages = s.messages := rfl
@[simp] theorem State.drawn_messages (s : State) : s.drawn.messages = s.messages := rfl
@[simp] theorem State.setCore_messages (s : State) (c : Core) : (s.setCore c).messages = s.messages := rfl
@[simp] theorem State.setPack_messages (s : State) (p : Package) : (s.setPack p).messages = s.messages := rfl
@[simp] theorem State.mapHart_groups (s : State) (f : Hart → Hart) : (s.mapHart f).groups = s.groups := rfl
@[simp] theorem State.setHart_groups (s : State) (h : Hart) : (s.setHart h).groups = s.groups := rfl
@[simp] theorem State.done_groups (s : State) (n : Nat) : (s.done n).groups = s.groups := rfl
@[simp] theorem State.holdHart_groups (s : State) (w : Wait) : (s.holdHart w).groups = s.groups := rfl
@[simp] theorem State.nextSeq_groups (s : State) : s.nextSeq.groups = s.groups := rfl
@[simp] theorem State.issue_groups (s : State) (a : Access) : (s.issue a).groups = s.groups := rfl
@[simp] theorem State.drawn_groups (s : State) : s.drawn.groups = s.groups := rfl
@[simp] theorem State.setCore_groups (s : State) (c : Core) : (s.setCore c).groups = s.groups := rfl
@[simp] theorem State.setPack_groups (s : State) (p : Package) : (s.setPack p).groups = s.groups := rfl
@[simp] theorem State.mapHart_ops (s : State) (f : Hart → Hart) : (s.mapHart f).ops = s.ops := rfl
@[simp] theorem State.setHart_ops (s : State) (h : Hart) : (s.setHart h).ops = s.ops := rfl
@[simp] theorem State.done_ops (s : State) (n : Nat) : (s.done n).ops = s.ops := rfl
@[simp] theorem State.holdHart_ops (s : State) (w : Wait) : (s.holdHart w).ops = s.ops := rfl
@[simp] theorem State.nextSeq_ops (s : State) : s.nextSeq.ops = s.ops := rfl
@[simp] theorem State.issue_ops (s : State) (a : Access) : (s.issue a).ops = s.ops := rfl
@[simp] theorem State.drawn_ops (s : State) : s.drawn.ops = s.ops := rfl
@[simp] theorem State.setCore_ops (s : State) (c : Core) : (s.setCore c).ops = s.ops := rfl
@[simp] theorem State.setPack_ops (s : State) (p : Package) : (s.setPack p).ops = s.ops := rfl
@[simp] theorem State.mapHart_aborts (s : State) (f : Hart → Hart) : (s.mapHart f).aborts = s.aborts := rfl
@[simp] theorem State.setHart_aborts (s : State) (h : Hart) : (s.setHart h).aborts = s.aborts := rfl
@[simp] theorem State.done_aborts (s : State) (n : Nat) : (s.done n).aborts = s.aborts := rfl
@[simp] theorem State.holdHart_aborts (s : State) (w : Wait) : (s.holdHart w).aborts = s.aborts := rfl
@[simp] theorem State.nextSeq_aborts (s : State) : s.nextSeq.aborts = s.aborts := rfl
@[simp] theorem State.issue_aborts (s : State) (a : Access) : (s.issue a).aborts = s.aborts := rfl
@[simp] theorem State.drawn_aborts (s : State) : s.drawn.aborts = s.aborts := rfl
@[simp] theorem State.setCore_aborts (s : State) (c : Core) : (s.setCore c).aborts = s.aborts := rfl
@[simp] theorem State.setPack_aborts (s : State) (p : Package) : (s.setPack p).aborts = s.aborts := rfl
@[simp] theorem State.mapHart_enclaves (s : State) (f : Hart → Hart) : (s.mapHart f).enclaves = s.enclaves := rfl
@[simp] theorem State.setHart_enclaves (s : State) (h : Hart) : (s.setHart h).enclaves = s.enclaves := rfl
@[simp] theorem State.done_enclaves (s : State) (n : Nat) : (s.done n).enclaves = s.enclaves := rfl
@[simp] theorem State.holdHart_enclaves (s : State) (w : Wait) : (s.holdHart w).enclaves = s.enclaves := rfl
@[simp] theorem State.nextSeq_enclaves (s : State) : s.nextSeq.enclaves = s.enclaves := rfl
@[simp] theorem State.issue_enclaves (s : State) (a : Access) : (s.issue a).enclaves = s.enclaves := rfl
@[simp] theorem State.drawn_enclaves (s : State) : s.drawn.enclaves = s.enclaves := rfl
@[simp] theorem State.setCore_enclaves (s : State) (c : Core) : (s.setCore c).enclaves = s.enclaves := rfl
@[simp] theorem State.setPack_enclaves (s : State) (p : Package) : (s.setPack p).enclaves = s.enclaves := rfl
@[simp] theorem State.mapHart_orders (s : State) (f : Hart → Hart) : (s.mapHart f).orders = s.orders := rfl
@[simp] theorem State.setHart_orders (s : State) (h : Hart) : (s.setHart h).orders = s.orders := rfl
@[simp] theorem State.done_orders (s : State) (n : Nat) : (s.done n).orders = s.orders := rfl
@[simp] theorem State.holdHart_orders (s : State) (w : Wait) : (s.holdHart w).orders = s.orders := rfl
@[simp] theorem State.nextSeq_orders (s : State) : s.nextSeq.orders = s.orders := rfl
@[simp] theorem State.issue_orders (s : State) (a : Access) : (s.issue a).orders = s.orders := rfl
@[simp] theorem State.drawn_orders (s : State) : s.drawn.orders = s.orders := rfl
@[simp] theorem State.setCore_orders (s : State) (c : Core) : (s.setCore c).orders = s.orders := rfl
@[simp] theorem State.setPack_orders (s : State) (p : Package) : (s.setPack p).orders = s.orders := rfl
@[simp] theorem State.mapHart_serial (s : State) (f : Hart → Hart) : (s.mapHart f).serial = s.serial := rfl
@[simp] theorem State.setHart_serial (s : State) (h : Hart) : (s.setHart h).serial = s.serial := rfl
@[simp] theorem State.done_serial (s : State) (n : Nat) : (s.done n).serial = s.serial := rfl
@[simp] theorem State.holdHart_serial (s : State) (w : Wait) : (s.holdHart w).serial = s.serial := rfl
@[simp] theorem State.nextSeq_serial (s : State) : s.nextSeq.serial = s.serial := rfl
@[simp] theorem State.issue_serial (s : State) (a : Access) : (s.issue a).serial = s.serial := rfl
@[simp] theorem State.drawn_serial (s : State) : s.drawn.serial = s.serial := rfl
@[simp] theorem State.setCore_serial (s : State) (c : Core) : (s.setCore c).serial = s.serial := rfl
@[simp] theorem State.setPack_serial (s : State) (p : Package) : (s.setPack p).serial = s.serial := rfl
@[simp] theorem State.mapHart_vqFrames (s : State) (f : Hart → Hart) : (s.mapHart f).vqFrames = s.vqFrames := rfl
@[simp] theorem State.setHart_vqFrames (s : State) (h : Hart) : (s.setHart h).vqFrames = s.vqFrames := rfl
@[simp] theorem State.done_vqFrames (s : State) (n : Nat) : (s.done n).vqFrames = s.vqFrames := rfl
@[simp] theorem State.holdHart_vqFrames (s : State) (w : Wait) : (s.holdHart w).vqFrames = s.vqFrames := rfl
@[simp] theorem State.nextSeq_vqFrames (s : State) : s.nextSeq.vqFrames = s.vqFrames := rfl
@[simp] theorem State.issue_vqFrames (s : State) (a : Access) : (s.issue a).vqFrames = s.vqFrames := rfl
@[simp] theorem State.drawn_vqFrames (s : State) : s.drawn.vqFrames = s.vqFrames := rfl
@[simp] theorem State.setCore_vqFrames (s : State) (c : Core) : (s.setCore c).vqFrames = s.vqFrames := rfl
@[simp] theorem State.setPack_vqFrames (s : State) (p : Package) : (s.setPack p).vqFrames = s.vqFrames := rfl
@[simp] theorem State.mapHart_hFrames (s : State) (f : Hart → Hart) : (s.mapHart f).hFrames = s.hFrames := rfl
@[simp] theorem State.setHart_hFrames (s : State) (h : Hart) : (s.setHart h).hFrames = s.hFrames := rfl
@[simp] theorem State.done_hFrames (s : State) (n : Nat) : (s.done n).hFrames = s.hFrames := rfl
@[simp] theorem State.holdHart_hFrames (s : State) (w : Wait) : (s.holdHart w).hFrames = s.hFrames := rfl
@[simp] theorem State.nextSeq_hFrames (s : State) : s.nextSeq.hFrames = s.hFrames := rfl
@[simp] theorem State.issue_hFrames (s : State) (a : Access) : (s.issue a).hFrames = s.hFrames := rfl
@[simp] theorem State.drawn_hFrames (s : State) : s.drawn.hFrames = s.hFrames := rfl
@[simp] theorem State.setCore_hFrames (s : State) (c : Core) : (s.setCore c).hFrames = s.hFrames := rfl
@[simp] theorem State.setPack_hFrames (s : State) (p : Package) : (s.setPack p).hFrames = s.hFrames := rfl
@[simp] theorem State.mapHart_agenda (s : State) (f : Hart → Hart) : (s.mapHart f).agenda = s.agenda := rfl
@[simp] theorem State.setHart_agenda (s : State) (h : Hart) : (s.setHart h).agenda = s.agenda := rfl
@[simp] theorem State.done_agenda (s : State) (n : Nat) : (s.done n).agenda = s.agenda := rfl
@[simp] theorem State.holdHart_agenda (s : State) (w : Wait) : (s.holdHart w).agenda = s.agenda := rfl
@[simp] theorem State.nextSeq_agenda (s : State) : s.nextSeq.agenda = s.agenda := rfl
@[simp] theorem State.issue_agenda (s : State) (a : Access) : (s.issue a).agenda = s.agenda := rfl
@[simp] theorem State.drawn_agenda (s : State) : s.drawn.agenda = s.agenda := rfl
@[simp] theorem State.setCore_agenda (s : State) (c : Core) : (s.setCore c).agenda = s.agenda := rfl
@[simp] theorem State.setPack_agenda (s : State) (p : Package) : (s.setPack p).agenda = s.agenda := rfl
@[simp] theorem State.mapHart_clock (s : State) (f : Hart → Hart) : (s.mapHart f).clock = s.clock := rfl
@[simp] theorem State.setHart_clock (s : State) (h : Hart) : (s.setHart h).clock = s.clock := rfl
@[simp] theorem State.done_clock (s : State) (n : Nat) : (s.done n).clock = s.clock := rfl
@[simp] theorem State.holdHart_clock (s : State) (w : Wait) : (s.holdHart w).clock = s.clock := rfl
@[simp] theorem State.nextSeq_clock (s : State) : s.nextSeq.clock = s.clock := rfl
@[simp] theorem State.issue_clock (s : State) (a : Access) : (s.issue a).clock = s.clock := rfl
@[simp] theorem State.drawn_clock (s : State) : s.drawn.clock = s.clock := rfl
@[simp] theorem State.setCore_clock (s : State) (c : Core) : (s.setCore c).clock = s.clock := rfl
@[simp] theorem State.setPack_clock (s : State) (p : Package) : (s.setPack p).clock = s.clock := rfl
@[simp] theorem State.mapHart_free (s : State) (f : Hart → Hart) : (s.mapHart f).free = s.free := rfl
@[simp] theorem State.setHart_free (s : State) (h : Hart) : (s.setHart h).free = s.free := rfl
@[simp] theorem State.done_free (s : State) (n : Nat) : (s.done n).free = s.free := rfl
@[simp] theorem State.holdHart_free (s : State) (w : Wait) : (s.holdHart w).free = s.free := rfl
@[simp] theorem State.nextSeq_free (s : State) : s.nextSeq.free = s.free := rfl
@[simp] theorem State.issue_free (s : State) (a : Access) : (s.issue a).free = s.free := rfl
@[simp] theorem State.setCore_free (s : State) (c : Core) : (s.setCore c).free = s.free := rfl
@[simp] theorem State.setPack_free (s : State) (p : Package) : (s.setPack p).free = s.free := rfl

/-! ### Updates of a hart -/

@[simp] theorem Hart.setS_zero (h : Hart) (v : Quad) (t : TaintSet) : h.setS 0#5 v t = h := rfl
theorem Hart.setS_of_ne (h : Hart) {d : SReg} (v : Quad) (t : TaintSet) (hd : d ≠ 0#5) :
    h.setS d v t = { h with s := h.s.set d.toNat v, st := h.st.set d.toNat t } := if_neg hd
@[simp] theorem Hart.getS_zero (h : Hart) : h.getS 0#5 = 0 := rfl
@[simp] theorem Hart.taintS_zero (h : Hart) : h.taintS 0#5 = 0 := rfl
theorem Hart.getS_of_ne (h : Hart) {r : SReg} (hr : r ≠ 0#5) : h.getS r = h.s[r.toNat] := if_neg hr
theorem Hart.taintS_of_ne (h : Hart) {r : SReg} (hr : r ≠ 0#5) : h.taintS r = h.st[r.toNat] := if_neg hr

theorem SReg.toNat_ne {d r : SReg} (h : r ≠ d) : d.toNat ≠ r.toNat := fun e => h (BitVec.eq_of_toNat_eq e.symm)

/-- A write of sd is read back, but s0 reads zero (R46). -/
theorem Hart.getS_setS (h : Hart) (d r : SReg) (v : Quad) (t : TaintSet) :
    (h.setS d v t).getS r = if r = d ∧ d ≠ 0#5 then v else h.getS r := by
  by_cases hd : d = 0#5
  · simp [hd]
  · by_cases hr : r = 0#5
    · rw [if_neg (by rintro ⟨rfl, h⟩; exact h hr), hr]; rfl
    · rw [Hart.getS_of_ne _ hr, Hart.getS_of_ne _ hr, Hart.setS_of_ne h v t hd]
      by_cases he : r = d
      · subst he; simp [hr]
      · simp [he, Vector.getElem_set_ne, SReg.toNat_ne he]

/-- So is its taint set; that of s0 stays empty. -/
theorem Hart.taintS_setS (h : Hart) (d r : SReg) (v : Quad) (t : TaintSet) :
    (h.setS d v t).taintS r = if r = d ∧ d ≠ 0#5 then t else h.taintS r := by
  by_cases hd : d = 0#5
  · simp [hd]
  · by_cases hr : r = 0#5
    · rw [if_neg (by rintro ⟨rfl, h⟩; exact h hr), hr]; rfl
    · rw [Hart.taintS_of_ne _ hr, Hart.taintS_of_ne _ hr, Hart.setS_of_ne h v t hd]
      by_cases he : r = d
      · subst he; simp [hr]
      · simp [he, Vector.getElem_set_ne, SReg.toNat_ne he]

@[simp] theorem Hart.addControl_ct (h : Hart) (t : TaintSet) : (h.addControl t).ct = h.ct ||| t := rfl
@[simp] theorem Hart.advance_pc (h : Hart) (n : Nat) : (h.advance n).pc = h.pc + BitVec.ofNat 64 n := rfl
@[simp] theorem Hart.addFlags_csr (h : Hart) (f : FFlags) : (h.addFlags f).csr = { h.csr with fflags := h.csr.fflags ||| f } := rfl
@[simp] theorem Hart.setS_ref (h : Hart) (d : SReg) (v : Quad) (t : TaintSet) : (h.setS d v t).ref = h.ref := by
  unfold Hart.setS; split <;> rfl
@[simp] theorem Hart.addControl_ref (h : Hart) (t : TaintSet) : (h.addControl t).ref = h.ref := rfl
@[simp] theorem Hart.advance_ref (h : Hart) (n : Nat) : (h.advance n).ref = h.ref := rfl
@[simp] theorem Hart.addFlags_ref (h : Hart) (f : FFlags) : (h.addFlags f).ref = h.ref := rfl
@[simp] theorem Hart.setS_status (h : Hart) (d : SReg) (v : Quad) (t : TaintSet) : (h.setS d v t).status = h.status := by
  unfold Hart.setS; split <;> rfl
@[simp] theorem Hart.addControl_status (h : Hart) (t : TaintSet) : (h.addControl t).status = h.status := rfl
@[simp] theorem Hart.advance_status (h : Hart) (n : Nat) : (h.advance n).status = h.status := rfl
@[simp] theorem Hart.addFlags_status (h : Hart) (f : FFlags) : (h.addFlags f).status = h.status := rfl
@[simp] theorem Hart.setS_level (h : Hart) (d : SReg) (v : Quad) (t : TaintSet) : (h.setS d v t).level = h.level := by
  unfold Hart.setS; split <;> rfl
@[simp] theorem Hart.addControl_level (h : Hart) (t : TaintSet) : (h.addControl t).level = h.level := rfl
@[simp] theorem Hart.advance_level (h : Hart) (n : Nat) : (h.advance n).level = h.level := rfl
@[simp] theorem Hart.addFlags_level (h : Hart) (f : FFlags) : (h.addFlags f).level = h.level := rfl
@[simp] theorem Hart.setS_pc (h : Hart) (d : SReg) (v : Quad) (t : TaintSet) : (h.setS d v t).pc = h.pc := by
  unfold Hart.setS; split <;> rfl
@[simp] theorem Hart.addControl_pc (h : Hart) (t : TaintSet) : (h.addControl t).pc = h.pc := rfl
@[simp] theorem Hart.addFlags_pc (h : Hart) (f : FFlags) : (h.addFlags f).pc = h.pc := rfl
@[simp] theorem Hart.setS_ir (h : Hart) (d : SReg) (v : Quad) (t : TaintSet) : (h.setS d v t).ir = h.ir := by
  unfold Hart.setS; split <;> rfl
@[simp] theorem Hart.addControl_ir (h : Hart) (t : TaintSet) : (h.addControl t).ir = h.ir := rfl
@[simp] theorem Hart.advance_ir (h : Hart) (n : Nat) : (h.advance n).ir = h.ir := rfl
@[simp] theorem Hart.addFlags_ir (h : Hart) (f : FFlags) : (h.addFlags f).ir = h.ir := rfl
@[simp] theorem Hart.addControl_s (h : Hart) (t : TaintSet) : (h.addControl t).s = h.s := rfl
@[simp] theorem Hart.advance_s (h : Hart) (n : Nat) : (h.advance n).s = h.s := rfl
@[simp] theorem Hart.addFlags_s (h : Hart) (f : FFlags) : (h.addFlags f).s = h.s := rfl
@[simp] theorem Hart.addControl_st (h : Hart) (t : TaintSet) : (h.addControl t).st = h.st := rfl
@[simp] theorem Hart.advance_st (h : Hart) (n : Nat) : (h.advance n).st = h.st := rfl
@[simp] theorem Hart.addFlags_st (h : Hart) (f : FFlags) : (h.addFlags f).st = h.st := rfl
@[simp] theorem Hart.setS_ct (h : Hart) (d : SReg) (v : Quad) (t : TaintSet) : (h.setS d v t).ct = h.ct := by
  unfold Hart.setS; split <;> rfl
@[simp] theorem Hart.advance_ct (h : Hart) (n : Nat) : (h.advance n).ct = h.ct := rfl
@[simp] theorem Hart.addFlags_ct (h : Hart) (f : FFlags) : (h.addFlags f).ct = h.ct := rfl
@[simp] theorem Hart.setS_v (h : Hart) (d : SReg) (v : Quad) (t : TaintSet) : (h.setS d v t).v = h.v := by
  unfold Hart.setS; split <;> rfl
@[simp] theorem Hart.addControl_v (h : Hart) (t : TaintSet) : (h.addControl t).v = h.v := rfl
@[simp] theorem Hart.advance_v (h : Hart) (n : Nat) : (h.advance n).v = h.v := rfl
@[simp] theorem Hart.addFlags_v (h : Hart) (f : FFlags) : (h.addFlags f).v = h.v := rfl
@[simp] theorem Hart.setS_m (h : Hart) (d : SReg) (v : Quad) (t : TaintSet) : (h.setS d v t).m = h.m := by
  unfold Hart.setS; split <;> rfl
@[simp] theorem Hart.addControl_m (h : Hart) (t : TaintSet) : (h.addControl t).m = h.m := rfl
@[simp] theorem Hart.advance_m (h : Hart) (n : Nat) : (h.advance n).m = h.m := rfl
@[simp] theorem Hart.addFlags_m (h : Hart) (f : FFlags) : (h.addFlags f).m = h.m := rfl
@[simp] theorem Hart.setS_g (h : Hart) (d : SReg) (v : Quad) (t : TaintSet) : (h.setS d v t).g = h.g := by
  unfold Hart.setS; split <;> rfl
@[simp] theorem Hart.addControl_g (h : Hart) (t : TaintSet) : (h.addControl t).g = h.g := rfl
@[simp] theorem Hart.advance_g (h : Hart) (n : Nat) : (h.advance n).g = h.g := rfl
@[simp] theorem Hart.addFlags_g (h : Hart) (f : FFlags) : (h.addFlags f).g = h.g := rfl
@[simp] theorem Hart.setS_tiles (h : Hart) (d : SReg) (v : Quad) (t : TaintSet) : (h.setS d v t).tiles = h.tiles := by
  unfold Hart.setS; split <;> rfl
@[simp] theorem Hart.addControl_tiles (h : Hart) (t : TaintSet) : (h.addControl t).tiles = h.tiles := rfl
@[simp] theorem Hart.advance_tiles (h : Hart) (n : Nat) : (h.advance n).tiles = h.tiles := rfl
@[simp] theorem Hart.addFlags_tiles (h : Hart) (f : FFlags) : (h.addFlags f).tiles = h.tiles := rfl
@[simp] theorem Hart.setS_tmask (h : Hart) (d : SReg) (v : Quad) (t : TaintSet) : (h.setS d v t).tmask = h.tmask := by
  unfold Hart.setS; split <;> rfl
@[simp] theorem Hart.addControl_tmask (h : Hart) (t : TaintSet) : (h.addControl t).tmask = h.tmask := rfl
@[simp] theorem Hart.advance_tmask (h : Hart) (n : Nat) : (h.advance n).tmask = h.tmask := rfl
@[simp] theorem Hart.addFlags_tmask (h : Hart) (f : FFlags) : (h.addFlags f).tmask = h.tmask := rfl
@[simp] theorem Hart.setS_q (h : Hart) (d : SReg) (v : Quad) (t : TaintSet) : (h.setS d v t).q = h.q := by
  unfold Hart.setS; split <;> rfl
@[simp] theorem Hart.addControl_q (h : Hart) (t : TaintSet) : (h.addControl t).q = h.q := rfl
@[simp] theorem Hart.advance_q (h : Hart) (n : Nat) : (h.advance n).q = h.q := rfl
@[simp] theorem Hart.addFlags_q (h : Hart) (f : FFlags) : (h.addFlags f).q = h.q := rfl
@[simp] theorem Hart.setS_f (h : Hart) (d : SReg) (v : Quad) (t : TaintSet) : (h.setS d v t).f = h.f := by
  unfold Hart.setS; split <;> rfl
@[simp] theorem Hart.addControl_f (h : Hart) (t : TaintSet) : (h.addControl t).f = h.f := rfl
@[simp] theorem Hart.advance_f (h : Hart) (n : Nat) : (h.advance n).f = h.f := rfl
@[simp] theorem Hart.addFlags_f (h : Hart) (f : FFlags) : (h.addFlags f).f = h.f := rfl
@[simp] theorem Hart.setS_k (h : Hart) (d : SReg) (v : Quad) (t : TaintSet) : (h.setS d v t).k = h.k := by
  unfold Hart.setS; split <;> rfl
@[simp] theorem Hart.addControl_k (h : Hart) (t : TaintSet) : (h.addControl t).k = h.k := rfl
@[simp] theorem Hart.advance_k (h : Hart) (n : Nat) : (h.advance n).k = h.k := rfl
@[simp] theorem Hart.addFlags_k (h : Hart) (f : FFlags) : (h.addFlags f).k = h.k := rfl
@[simp] theorem Hart.setS_csr (h : Hart) (d : SReg) (v : Quad) (t : TaintSet) : (h.setS d v t).csr = h.csr := by
  unfold Hart.setS; split <;> rfl
@[simp] theorem Hart.addControl_csr (h : Hart) (t : TaintSet) : (h.addControl t).csr = h.csr := rfl
@[simp] theorem Hart.advance_csr (h : Hart) (n : Nat) : (h.advance n).csr = h.csr := rfl
@[simp] theorem Hart.setS_sup (h : Hart) (d : SReg) (v : Quad) (t : TaintSet) : (h.setS d v t).sup = h.sup := by
  unfold Hart.setS; split <;> rfl
@[simp] theorem Hart.addControl_sup (h : Hart) (t : TaintSet) : (h.addControl t).sup = h.sup := rfl
@[simp] theorem Hart.advance_sup (h : Hart) (n : Nat) : (h.advance n).sup = h.sup := rfl
@[simp] theorem Hart.addFlags_sup (h : Hart) (f : FFlags) : (h.addFlags f).sup = h.sup := rfl
@[simp] theorem Hart.setS_joined (h : Hart) (d : SReg) (v : Quad) (t : TaintSet) : (h.setS d v t).joined = h.joined := by
  unfold Hart.setS; split <;> rfl
@[simp] theorem Hart.addControl_joined (h : Hart) (t : TaintSet) : (h.addControl t).joined = h.joined := rfl
@[simp] theorem Hart.advance_joined (h : Hart) (n : Nat) : (h.advance n).joined = h.joined := rfl
@[simp] theorem Hart.addFlags_joined (h : Hart) (f : FFlags) : (h.addFlags f).joined = h.joined := rfl
@[simp] theorem Hart.setS_windows (h : Hart) (d : SReg) (v : Quad) (t : TaintSet) : (h.setS d v t).windows = h.windows := by
  unfold Hart.setS; split <;> rfl
@[simp] theorem Hart.addControl_windows (h : Hart) (t : TaintSet) : (h.addControl t).windows = h.windows := rfl
@[simp] theorem Hart.advance_windows (h : Hart) (n : Nat) : (h.advance n).windows = h.windows := rfl
@[simp] theorem Hart.addFlags_windows (h : Hart) (f : FFlags) : (h.addFlags f).windows = h.windows := rfl
@[simp] theorem Hart.setS_records (h : Hart) (d : SReg) (v : Quad) (t : TaintSet) : (h.setS d v t).records = h.records := by
  unfold Hart.setS; split <;> rfl
@[simp] theorem Hart.addControl_records (h : Hart) (t : TaintSet) : (h.addControl t).records = h.records := rfl
@[simp] theorem Hart.advance_records (h : Hart) (n : Nat) : (h.advance n).records = h.records := rfl
@[simp] theorem Hart.addFlags_records (h : Hart) (f : FFlags) : (h.addFlags f).records = h.records := rfl
@[simp] theorem Hart.setS_interlock (h : Hart) (d : SReg) (v : Quad) (t : TaintSet) : (h.setS d v t).interlock = h.interlock := by
  unfold Hart.setS; split <;> rfl
@[simp] theorem Hart.addControl_interlock (h : Hart) (t : TaintSet) : (h.addControl t).interlock = h.interlock := rfl
@[simp] theorem Hart.advance_interlock (h : Hart) (n : Nat) : (h.advance n).interlock = h.interlock := rfl
@[simp] theorem Hart.addFlags_interlock (h : Hart) (f : FFlags) : (h.addFlags f).interlock = h.interlock := rfl
@[simp] theorem Hart.setS_tagBusy (h : Hart) (d : SReg) (v : Quad) (t : TaintSet) : (h.setS d v t).tagBusy = h.tagBusy := by
  unfold Hart.setS; split <;> rfl
@[simp] theorem Hart.addControl_tagBusy (h : Hart) (t : TaintSet) : (h.addControl t).tagBusy = h.tagBusy := rfl
@[simp] theorem Hart.advance_tagBusy (h : Hart) (n : Nat) : (h.advance n).tagBusy = h.tagBusy := rfl
@[simp] theorem Hart.addFlags_tagBusy (h : Hart) (f : FFlags) : (h.addFlags f).tagBusy = h.tagBusy := rfl
@[simp] theorem Hart.setS_tag0Last (h : Hart) (d : SReg) (v : Quad) (t : TaintSet) : (h.setS d v t).tag0Last = h.tag0Last := by
  unfold Hart.setS; split <;> rfl
@[simp] theorem Hart.addControl_tag0Last (h : Hart) (t : TaintSet) : (h.addControl t).tag0Last = h.tag0Last := rfl
@[simp] theorem Hart.advance_tag0Last (h : Hart) (n : Nat) : (h.advance n).tag0Last = h.tag0Last := rfl
@[simp] theorem Hart.addFlags_tag0Last (h : Hart) (f : FFlags) : (h.addFlags f).tag0Last = h.tag0Last := rfl
@[simp] theorem Hart.setS_joins (h : Hart) (d : SReg) (v : Quad) (t : TaintSet) : (h.setS d v t).joins = h.joins := by
  unfold Hart.setS; split <;> rfl
@[simp] theorem Hart.addControl_joins (h : Hart) (t : TaintSet) : (h.addControl t).joins = h.joins := rfl
@[simp] theorem Hart.advance_joins (h : Hart) (n : Nat) : (h.advance n).joins = h.joins := rfl
@[simp] theorem Hart.addFlags_joins (h : Hart) (f : FFlags) : (h.addFlags f).joins = h.joins := rfl
@[simp] theorem Hart.setS_seq (h : Hart) (d : SReg) (v : Quad) (t : TaintSet) : (h.setS d v t).seq = h.seq := by
  unfold Hart.setS; split <;> rfl
@[simp] theorem Hart.addControl_seq (h : Hart) (t : TaintSet) : (h.addControl t).seq = h.seq := rfl
@[simp] theorem Hart.advance_seq (h : Hart) (n : Nat) : (h.advance n).seq = h.seq := rfl
@[simp] theorem Hart.addFlags_seq (h : Hart) (f : FFlags) : (h.addFlags f).seq = h.seq := rfl
@[simp] theorem Hart.setS_pend (h : Hart) (d : SReg) (v : Quad) (t : TaintSet) : (h.setS d v t).pend = h.pend := by
  unfold Hart.setS; split <;> rfl
@[simp] theorem Hart.addControl_pend (h : Hart) (t : TaintSet) : (h.addControl t).pend = h.pend := rfl
@[simp] theorem Hart.advance_pend (h : Hart) (n : Nat) : (h.advance n).pend = h.pend := rfl
@[simp] theorem Hart.addFlags_pend (h : Hart) (f : FFlags) : (h.addFlags f).pend = h.pend := rfl
@[simp] theorem Hart.setS_nbs (h : Hart) (d : SReg) (v : Quad) (t : TaintSet) : (h.setS d v t).nbs = h.nbs := by
  unfold Hart.setS; split <;> rfl
@[simp] theorem Hart.addControl_nbs (h : Hart) (t : TaintSet) : (h.addControl t).nbs = h.nbs := rfl
@[simp] theorem Hart.advance_nbs (h : Hart) (n : Nat) : (h.advance n).nbs = h.nbs := rfl
@[simp] theorem Hart.addFlags_nbs (h : Hart) (f : FFlags) : (h.addFlags f).nbs = h.nbs := rfl
@[simp] theorem Hart.setS_unacked (h : Hart) (d : SReg) (v : Quad) (t : TaintSet) : (h.setS d v t).unacked = h.unacked := by
  unfold Hart.setS; split <;> rfl
@[simp] theorem Hart.addControl_unacked (h : Hart) (t : TaintSet) : (h.addControl t).unacked = h.unacked := rfl
@[simp] theorem Hart.advance_unacked (h : Hart) (n : Nat) : (h.advance n).unacked = h.unacked := rfl
@[simp] theorem Hart.addFlags_unacked (h : Hart) (f : FFlags) : (h.addFlags f).unacked = h.unacked := rfl
@[simp] theorem Hart.setS_trains (h : Hart) (d : SReg) (v : Quad) (t : TaintSet) : (h.setS d v t).trains = h.trains := by
  unfold Hart.setS; split <;> rfl
@[simp] theorem Hart.addControl_trains (h : Hart) (t : TaintSet) : (h.addControl t).trains = h.trains := rfl
@[simp] theorem Hart.advance_trains (h : Hart) (n : Nat) : (h.advance n).trains = h.trains := rfl
@[simp] theorem Hart.addFlags_trains (h : Hart) (f : FFlags) : (h.addFlags f).trains = h.trains := rfl
@[simp] theorem Hart.setS_cmds (h : Hart) (d : SReg) (v : Quad) (t : TaintSet) : (h.setS d v t).cmds = h.cmds := by
  unfold Hart.setS; split <;> rfl
@[simp] theorem Hart.addControl_cmds (h : Hart) (t : TaintSet) : (h.addControl t).cmds = h.cmds := rfl
@[simp] theorem Hart.advance_cmds (h : Hart) (n : Nat) : (h.advance n).cmds = h.cmds := rfl
@[simp] theorem Hart.addFlags_cmds (h : Hart) (f : FFlags) : (h.addFlags f).cmds = h.cmds := rfl
@[simp] theorem Hart.setS_frozen (h : Hart) (d : SReg) (v : Quad) (t : TaintSet) : (h.setS d v t).frozen = h.frozen := by
  unfold Hart.setS; split <;> rfl
@[simp] theorem Hart.addControl_frozen (h : Hart) (t : TaintSet) : (h.addControl t).frozen = h.frozen := rfl
@[simp] theorem Hart.advance_frozen (h : Hart) (n : Nat) : (h.advance n).frozen = h.frozen := rfl
@[simp] theorem Hart.addFlags_frozen (h : Hart) (f : FFlags) : (h.addFlags f).frozen = h.frozen := rfl
@[simp] theorem Hart.setS_colls (h : Hart) (d : SReg) (v : Quad) (t : TaintSet) : (h.setS d v t).colls = h.colls := by
  unfold Hart.setS; split <;> rfl
@[simp] theorem Hart.addControl_colls (h : Hart) (t : TaintSet) : (h.addControl t).colls = h.colls := rfl
@[simp] theorem Hart.advance_colls (h : Hart) (n : Nat) : (h.advance n).colls = h.colls := rfl
@[simp] theorem Hart.addFlags_colls (h : Hart) (f : FFlags) : (h.addFlags f).colls = h.colls := rfl
@[simp] theorem Hart.setS_vqDraw (h : Hart) (d : SReg) (v : Quad) (t : TaintSet) : (h.setS d v t).vqDraw = h.vqDraw := by
  unfold Hart.setS; split <;> rfl
@[simp] theorem Hart.addControl_vqDraw (h : Hart) (t : TaintSet) : (h.addControl t).vqDraw = h.vqDraw := rfl
@[simp] theorem Hart.advance_vqDraw (h : Hart) (n : Nat) : (h.advance n).vqDraw = h.vqDraw := rfl
@[simp] theorem Hart.addFlags_vqDraw (h : Hart) (f : FFlags) : (h.addFlags f).vqDraw = h.vqDraw := rfl
@[simp] theorem Hart.setS_start (h : Hart) (d : SReg) (v : Quad) (t : TaintSet) : (h.setS d v t).start = h.start := by
  unfold Hart.setS; split <;> rfl
@[simp] theorem Hart.addControl_start (h : Hart) (t : TaintSet) : (h.addControl t).start = h.start := rfl
@[simp] theorem Hart.advance_start (h : Hart) (n : Nat) : (h.advance n).start = h.start := rfl
@[simp] theorem Hart.addFlags_start (h : Hart) (f : FFlags) : (h.addFlags f).start = h.start := rfl
@[simp] theorem Hart.setS_doneElems (h : Hart) (d : SReg) (v : Quad) (t : TaintSet) : (h.setS d v t).doneElems = h.doneElems := by
  unfold Hart.setS; split <;> rfl
@[simp] theorem Hart.addControl_doneElems (h : Hart) (t : TaintSet) : (h.addControl t).doneElems = h.doneElems := rfl
@[simp] theorem Hart.advance_doneElems (h : Hart) (n : Nat) : (h.advance n).doneElems = h.doneElems := rfl
@[simp] theorem Hart.addFlags_doneElems (h : Hart) (f : FFlags) : (h.addFlags f).doneElems = h.doneElems := rfl
@[simp] theorem Hart.setS_triggered (h : Hart) (d : SReg) (v : Quad) (t : TaintSet) : (h.setS d v t).triggered = h.triggered := by
  unfold Hart.setS; split <;> rfl
@[simp] theorem Hart.addControl_triggered (h : Hart) (t : TaintSet) : (h.addControl t).triggered = h.triggered := rfl
@[simp] theorem Hart.advance_triggered (h : Hart) (n : Nat) : (h.advance n).triggered = h.triggered := rfl
@[simp] theorem Hart.addFlags_triggered (h : Hart) (f : FFlags) : (h.addFlags f).triggered = h.triggered := rfl
@[simp] theorem Hart.setS_atBarrier (h : Hart) (d : SReg) (v : Quad) (t : TaintSet) : (h.setS d v t).atBarrier = h.atBarrier := by
  unfold Hart.setS; split <;> rfl
@[simp] theorem Hart.addControl_atBarrier (h : Hart) (t : TaintSet) : (h.addControl t).atBarrier = h.atBarrier := rfl
@[simp] theorem Hart.advance_atBarrier (h : Hart) (n : Nat) : (h.advance n).atBarrier = h.atBarrier := rfl
@[simp] theorem Hart.addFlags_atBarrier (h : Hart) (f : FFlags) : (h.addFlags f).atBarrier = h.atBarrier := rfl
@[simp] theorem Hart.setS_revoked (h : Hart) (d : SReg) (v : Quad) (t : TaintSet) : (h.setS d v t).revoked = h.revoked := by
  unfold Hart.setS; split <;> rfl
@[simp] theorem Hart.addControl_revoked (h : Hart) (t : TaintSet) : (h.addControl t).revoked = h.revoked := rfl
@[simp] theorem Hart.advance_revoked (h : Hart) (n : Nat) : (h.advance n).revoked = h.revoked := rfl
@[simp] theorem Hart.addFlags_revoked (h : Hart) (f : FFlags) : (h.addFlags f).revoked = h.revoked := rfl
@[simp] theorem Hart.setS_enclave (h : Hart) (d : SReg) (v : Quad) (t : TaintSet) : (h.setS d v t).enclave = h.enclave := by
  unfold Hart.setS; split <;> rfl
@[simp] theorem Hart.addControl_enclave (h : Hart) (t : TaintSet) : (h.addControl t).enclave = h.enclave := rfl
@[simp] theorem Hart.advance_enclave (h : Hart) (n : Nat) : (h.advance n).enclave = h.enclave := rfl
@[simp] theorem Hart.addFlags_enclave (h : Hart) (f : FFlags) : (h.addFlags f).enclave = h.enclave := rfl
@[simp] theorem Hart.setS_thaw (h : Hart) (d : SReg) (v : Quad) (t : TaintSet) : (h.setS d v t).thaw = h.thaw := by
  unfold Hart.setS; split <;> rfl
@[simp] theorem Hart.addControl_thaw (h : Hart) (t : TaintSet) : (h.addControl t).thaw = h.thaw := rfl
@[simp] theorem Hart.advance_thaw (h : Hart) (n : Nat) : (h.advance n).thaw = h.thaw := rfl
@[simp] theorem Hart.addFlags_thaw (h : Hart) (f : FFlags) : (h.addFlags f).thaw = h.thaw := rfl
@[simp] theorem Hart.setS_noLanes (h : Hart) (d : SReg) (v : Quad) (t : TaintSet) : (h.setS d v t).noLanes = h.noLanes := by
  unfold Hart.setS; split <;> rfl
@[simp] theorem Hart.addControl_noLanes (h : Hart) (t : TaintSet) : (h.addControl t).noLanes = h.noLanes := rfl
@[simp] theorem Hart.advance_noLanes (h : Hart) (n : Nat) : (h.advance n).noLanes = h.noLanes := rfl
@[simp] theorem Hart.addFlags_noLanes (h : Hart) (f : FFlags) : (h.addFlags f).noLanes = h.noLanes := rfl
@[simp] theorem Hart.setS_graceEnd (h : Hart) (d : SReg) (v : Quad) (t : TaintSet) : (h.setS d v t).graceEnd = h.graceEnd := by
  unfold Hart.setS; split <;> rfl
@[simp] theorem Hart.addControl_graceEnd (h : Hart) (t : TaintSet) : (h.addControl t).graceEnd = h.graceEnd := rfl
@[simp] theorem Hart.advance_graceEnd (h : Hart) (n : Nat) : (h.advance n).graceEnd = h.graceEnd := rfl
@[simp] theorem Hart.addFlags_graceEnd (h : Hart) (f : FFlags) : (h.addFlags f).graceEnd = h.graceEnd := rfl

@[simp] theorem Hart.setS_grant (h : Hart) (d : SReg) (v : Quad) (t : TaintSet) : (h.setS d v t).grant = h.grant := by
  unfold Hart.setS; split <;> rfl
@[simp] theorem Hart.addControl_grant (h : Hart) (t : TaintSet) : (h.addControl t).grant = h.grant := rfl
@[simp] theorem Hart.advance_grant (h : Hart) (n : Nat) : (h.advance n).grant = h.grant := rfl
@[simp] theorem Hart.addFlags_grant (h : Hart) (f : FFlags) : (h.addFlags f).grant = h.grant := rfl
@[simp] theorem Hart.setS_capIdx (h : Hart) (d : SReg) (v : Quad) (t : TaintSet) : (h.setS d v t).capIdx = h.capIdx := by
  unfold Hart.setS; split <;> rfl
@[simp] theorem Hart.addControl_capIdx (h : Hart) (t : TaintSet) : (h.addControl t).capIdx = h.capIdx := rfl
@[simp] theorem Hart.advance_capIdx (h : Hart) (n : Nat) : (h.advance n).capIdx = h.capIdx := rfl
@[simp] theorem Hart.addFlags_capIdx (h : Hart) (f : FFlags) : (h.addFlags f).capIdx = h.capIdx := rfl
@[simp] theorem Hart.setS_capData (h : Hart) (d : SReg) (v : Quad) (t : TaintSet) : (h.setS d v t).capData = h.capData := by
  unfold Hart.setS; split <;> rfl
@[simp] theorem Hart.addControl_capData (h : Hart) (t : TaintSet) : (h.addControl t).capData = h.capData := rfl
@[simp] theorem Hart.advance_capData (h : Hart) (n : Nat) : (h.advance n).capData = h.capData := rfl
@[simp] theorem Hart.addFlags_capData (h : Hart) (f : FFlags) : (h.addFlags f).capData = h.capData := rfl
@[simp] theorem Hart.setS_flights (h : Hart) (d : SReg) (v : Quad) (t : TaintSet) : (h.setS d v t).flights = h.flights := by
  unfold Hart.setS; split <;> rfl
@[simp] theorem Hart.addControl_flights (h : Hart) (t : TaintSet) : (h.addControl t).flights = h.flights := rfl
@[simp] theorem Hart.advance_flights (h : Hart) (n : Nat) : (h.advance n).flights = h.flights := rfl
@[simp] theorem Hart.addFlags_flights (h : Hart) (f : FFlags) : (h.addFlags f).flights = h.flights := rfl
@[simp] theorem Hart.setS_hits (h : Hart) (d : SReg) (v : Quad) (t : TaintSet) : (h.setS d v t).hits = h.hits := by
  unfold Hart.setS; split <;> rfl
@[simp] theorem Hart.addControl_hits (h : Hart) (t : TaintSet) : (h.addControl t).hits = h.hits := rfl
@[simp] theorem Hart.advance_hits (h : Hart) (n : Nat) : (h.advance n).hits = h.hits := rfl
@[simp] theorem Hart.addFlags_hits (h : Hart) (f : FFlags) : (h.addFlags f).hits = h.hits := rfl
@[simp] theorem Hart.setS_early (h : Hart) (d : SReg) (v : Quad) (t : TaintSet) : (h.setS d v t).early = h.early := by
  unfold Hart.setS; split <;> rfl
@[simp] theorem Hart.addControl_early (h : Hart) (t : TaintSet) : (h.addControl t).early = h.early := rfl
@[simp] theorem Hart.advance_early (h : Hart) (n : Nat) : (h.advance n).early = h.early := rfl
@[simp] theorem Hart.addFlags_early (h : Hart) (f : FFlags) : (h.addFlags f).early = h.early := rfl
@[simp] theorem Hart.setS_par (h : Hart) (d : SReg) (v : Quad) (t : TaintSet) : (h.setS d v t).par = h.par := by
  unfold Hart.setS; split <;> rfl
@[simp] theorem Hart.addControl_par (h : Hart) (t : TaintSet) : (h.addControl t).par = h.par := rfl
@[simp] theorem Hart.advance_par (h : Hart) (n : Nat) : (h.advance n).par = h.par := rfl
@[simp] theorem Hart.addFlags_par (h : Hart) (f : FFlags) : (h.addFlags f).par = h.par := rfl
@[simp] theorem Hart.setS_trapSeqs (h : Hart) (d : SReg) (v : Quad) (t : TaintSet) : (h.setS d v t).trapSeqs = h.trapSeqs := by
  unfold Hart.setS; split <;> rfl
@[simp] theorem Hart.addControl_trapSeqs (h : Hart) (t : TaintSet) : (h.addControl t).trapSeqs = h.trapSeqs := rfl
@[simp] theorem Hart.advance_trapSeqs (h : Hart) (n : Nat) : (h.advance n).trapSeqs = h.trapSeqs := rfl
@[simp] theorem Hart.addFlags_trapSeqs (h : Hart) (f : FFlags) : (h.addFlags f).trapSeqs = h.trapSeqs := rfl
@[simp] theorem Hart.setS_owed (h : Hart) (d : SReg) (v : Quad) (t : TaintSet) : (h.setS d v t).owed = h.owed := by
  unfold Hart.setS; split <;> rfl
@[simp] theorem Hart.addControl_owed (h : Hart) (t : TaintSet) : (h.addControl t).owed = h.owed := rfl
@[simp] theorem Hart.advance_owed (h : Hart) (n : Nat) : (h.advance n).owed = h.owed := rfl
@[simp] theorem Hart.addFlags_owed (h : Hart) (f : FFlags) : (h.addFlags f).owed = h.owed := rfl
@[simp] theorem State.mapHart_ended (s : State) (f : Hart → Hart) : (s.mapHart f).ended = s.ended := rfl
@[simp] theorem State.setHart_ended (s : State) (h : Hart) : (s.setHart h).ended = s.ended := rfl
@[simp] theorem State.done_ended (s : State) (n : Nat) : (s.done n).ended = s.ended := rfl
@[simp] theorem State.holdHart_ended (s : State) (w : Wait) : (s.holdHart w).ended = s.ended := rfl
@[simp] theorem State.nextSeq_ended (s : State) : s.nextSeq.ended = s.ended := rfl
@[simp] theorem State.issue_ended (s : State) (a : Access) : (s.issue a).ended = s.ended := rfl
@[simp] theorem State.drawn_ended (s : State) : s.drawn.ended = s.ended := rfl
@[simp] theorem State.setCore_ended (s : State) (c : Core) : (s.setCore c).ended = s.ended := rfl
@[simp] theorem State.setPack_ended (s : State) (p : Package) : (s.setPack p).ended = s.ended := rfl
@[simp] theorem State.mapHart_tables (s : State) (f : Hart → Hart) : (s.mapHart f).tables = s.tables := rfl
@[simp] theorem State.setHart_tables (s : State) (h : Hart) : (s.setHart h).tables = s.tables := rfl
@[simp] theorem State.done_tables (s : State) (n : Nat) : (s.done n).tables = s.tables := rfl
@[simp] theorem State.holdHart_tables (s : State) (w : Wait) : (s.holdHart w).tables = s.tables := rfl
@[simp] theorem State.nextSeq_tables (s : State) : s.nextSeq.tables = s.tables := rfl
@[simp] theorem State.issue_tables (s : State) (a : Access) : (s.issue a).tables = s.tables := rfl
@[simp] theorem State.drawn_tables (s : State) : s.drawn.tables = s.tables := rfl
@[simp] theorem State.setCore_tables (s : State) (c : Core) : (s.setCore c).tables = s.tables := rfl
@[simp] theorem State.setPack_tables (s : State) (p : Package) : (s.setPack p).tables = s.tables := rfl

end Sys2Proof.Machine
end

