-- ==== Sys2Proof/Laws/Drain.lean ====
section
/-! SUPPORT. What performing the accesses of a hart leaves alone: everything but the registers that loads write,
memory, counters, flags, tags and taints. -/

namespace Sys2Proof.Machine

/-- The part of the user CSRs that no access changes. -/
def UserCsr.steady (c : UserCsr) : UserCsr := { c with fflags := 0, kstat := 0 }

/-- The part of a queue entry's environment that no access changes. -/
def VecEnv.steady (e : VecEnv) : VecEnv := 
  { e with ct := 0, q := e.q.map (fun r => { r with taint := 0 }), st := e.st.map fun _ => 0, vx := e.vx.map fun _ => 0,
           mx := e.mx.map fun _ => 0 }

/-- The part of a hart that performing accesses does not change. -/
def Hart.steady (h : Hart) : Hart :=
  { h with
    s := Vector.replicate 32 0, st := Vector.replicate 32 0, ct := 0,
    v := h.v.map (fun r => { tag := r.tag }), m := h.m.map (fun r => { r with taint := 0 }),
    q := h.q.map (fun r => { r with taint := 0 }), k := Vector.replicate 8 0, csr := h.csr.steady,
    windows := h.windows.map (fun w => w.map fun w => { w with buf := [] }), tagBusy := 0, pend := [], nbs := [],
    unacked := [], trains := [], cmds := h.cmds.map (fun c => { c with held := 0 }),
    frozen := h.frozen.map (fun e => { e with env := e.env.steady }),
    colls := h.colls.map (fun c => { c with env := c.env.steady }), flights := [], hits := [] }

/-- The part of the state that performing accesses does not change. -/
def State.steady (s : State) : State :=
  { s with mem := [], poison := [], hart := s.hart.steady, cores := [], free := 0 }

/-! ### Harts -/

theorem Hart.steady_tag_set (h : Hart) (j : Nat) (d : List Word) :
    (h.v.set! j { h.v[j]! with data := d }).map (fun r => ({ tag := r.tag } : VecReg))
      = h.v.map (fun r => ({ tag := r.tag } : VecReg)) := by
  apply Vector.ext; intro i hi
  simp only [Vector.getElem_map, Vector.set!_eq_setIfInBounds, Vector.getElem_setIfInBounds]
  split
  · next he => subst he; rw [getElem!_pos h.v j hi]
  · rfl

theorem Hart.setVElem_steady (h : Hart) (r : VReg) (w : Bool) (i : Nat) (x : Quad) :
    (h.setVElem r w i x).steady = h.steady := by
  simp only [Hart.setVElem, Hart.steady, Hart.steady_tag_set]

theorem Hart.setVElems_steady (r : VReg) (w : Bool) : ∀ (l : List (Nat × Quad)) (h : Hart),
    (l.foldl (fun h p => h.setVElem r w p.1 p.2) h).steady = h.steady
  | [], _ => rfl
  | p :: l, h => by rw [List.foldl_cons, Hart.setVElems_steady r w l, Hart.setVElem_steady]

theorem Hart.addFlags_steady (h : Hart) (f : FFlags) : (h.addFlags f).steady = h.steady := rfl

theorem Hart.deliver_steady (h : Hart) (dst : LoadDst) (n x : Nat) : (h.deliver dst n x).steady = h.steady := by
  cases dst with
  | s d signed => unfold Hart.deliver; dsimp only; split <;> rfl
  | v d i fmt high scale rnd sat =>
    unfold Hart.deliver
    cases scale with
    | none => exact Hart.setVElem_steady ..
    | some b => dsimp only; rw [Hart.addFlags_steady, Hart.setVElem_steady]

theorem Hart.window_steady (h : Hart) (slot : Nat) (w : Window) (b : List (Nat × Nat)) (hw : h.windows[slot]! = some w) :
    ({ h with windows := h.windows.set! slot (some { w with buf := b }) } : Hart).steady = h.steady := by
  have e : (h.windows.set! slot (some { w with buf := b })).map (fun w => w.map fun w => { w with buf := [] })
      = h.windows.map (fun w => w.map fun w => ({ w with buf := [] } : Window)) := by
    apply Vector.ext; intro i hi
    simp only [Vector.getElem_map, Vector.set!_eq_setIfInBounds, Vector.getElem_setIfInBounds]
    split
    · next he => subst he; rw [getElem!_pos h.windows slot hi] at hw; rw [hw]; rfl
    · rfl
  simp only [Hart.steady, e]

theorem Hart.afterAccess_steady (h : Hart) (a : Access) : (h.afterAccess a).steady = h.steady := by
  unfold Hart.afterAccess
  split
  · split <;> rfl
  · split
    · split <;> rfl
    · rfl

theorem Hart.bumpK_steady (h : Hart) (k : KReg) : (h.bumpK k).steady = h.steady := by
  unfold Hart.bumpK; dsimp only; split <;> rfl

theorem Hart.completeNb_steady (h : Hart) : h.completeNb.steady = h.steady := by
  have go : ∀ (l : List NbOp) (h : Hart), (l.foldl (fun h o => h.bumpK o.k) h).steady = h.steady := by
    intro l
    induction l with
    | nil => intro h; rfl
    | cons o r ih => intro h; rw [List.foldl_cons, ih, Hart.bumpK_steady]
  unfold Hart.completeNb; dsimp only; rw [go]; rfl

theorem Hart.clearTags_steady (h : Hart) (g : TaintSet) : (h.clearTags g).steady = h.steady := by
  simp only [Hart.clearTags, Hart.steady, VecEnv.clear, VecEnv.steady, Vector.map_map, List.map_map, Function.comp_def]

theorem Hart.retire_steady (h : Hart) : h.retire.steady = h.steady := by
  unfold Hart.retire; dsimp only; split
  · rfl
  · exact Hart.clearTags_steady ..

/-! ### The state -/

theorem State.steady_mapHart {s : State} {f : Hart → Hart} (h : (f s.hart).steady = s.hart.steady) :
    (s.mapHart f).steady = s.steady := by
  unfold State.mapHart State.steady; dsimp only; rw [h]

theorem State.steady_setHart {s : State} {h : Hart} (e : h.steady = s.hart.steady) :
    (s.setHart h).steady = s.steady := by
  unfold State.setHart State.steady; dsimp only; rw [e]

theorem State.store_steady (s : State) (a n x : Nat) (c : Bool) : (s.store a n x c).steady = s.steady := rfl
theorem State.drawn_steady (s : State) : s.drawn.steady = s.steady := rfl
theorem State.setCore_steady (s : State) (c : Core) : (s.setCore c).steady = s.steady := rfl

theorem State.applyAccess_steady (s : State) (a : Access) (fwd : Option Nat) :
    (s.applyAccess a fwd).steady = s.steady := by
  unfold State.applyAccess
  dsimp only
  split
  · exact State.steady_setHart (Hart.deliver_steady ..)
  · rw [State.drawn_steady]; exact State.steady_setHart (Hart.deliver_steady ..)
  · split
    · exact State.steady_setHart (Hart.deliver_steady ..)
    · next hw =>
      rw [State.drawn_steady]
      exact State.steady_setHart ((Hart.deliver_steady ..).trans (Hart.window_steady _ _ _ _ hw))
  · rfl
  · rfl
  · exact State.steady_setHart (Hart.deliver_steady ..)
  · split <;> exact State.steady_setHart (Hart.deliver_steady ..)
  · split
    · exact State.steady_setHart (Hart.deliver_steady ..)
    · exact State.steady_setHart (Hart.deliver_steady ..)
  · split
    · rfl
    · exact State.steady_setHart (Hart.setVElems_steady ..)

theorem State.performAt_steady (s : State) (i : Nat) : (s.performAt i).steady = s.steady := by
  unfold State.performAt
  split
  · rfl
  · split
    · refine State.steady_mapHart ?_
      split
      · rfl
      · exact Hart.afterAccess_steady ..
    · split
      · exact State.steady_mapHart rfl
      · dsimp only
        split
        · exact State.steady_mapHart rfl
        · rw [State.steady_mapHart (Hart.afterAccess_steady ..)]
          exact State.applyAccess_steady ..

theorem drainUntilGo_steady (p : Access → Bool) : ∀ (n : Nat) (s : State), (drainUntilGo p n s).steady = s.steady
  | 0, _ => rfl
  | n + 1, s => by
    unfold drainUntilGo; split
    · split
      · rw [drainUntilGo_steady, State.performAt_steady]
      · rfl
    · rfl

theorem State.drainUntil_steady (s : State) (p : Access → Bool) : (s.drainUntil p).steady = s.steady :=
  drainUntilGo_steady ..

/-- Performing and acknowledging every access leaves the rest of the machine alone. -/
theorem State.drain_steady (s : State) : s.drain.steady = s.steady := by
  unfold State.drain
  split
  · rfl
  · rw [State.steady_mapHart, State.drainUntil_steady]
    rw [Hart.retire_steady, Hart.completeNb_steady]; rfl

theorem State.needS_steady (s : State) (rs : List SReg) : (s.needS rs).steady = s.steady := by
  unfold State.needS; split
  · exact State.drain_steady s
  · rfl

theorem State.needV_steady (s : State) (rs : List VReg) : (s.needV rs).steady = s.steady := by
  unfold State.needV; split
  · exact State.drain_steady s
  · rfl

theorem State.settle_steady {s w : State} {t : TaintSet} (h : s.settle t = .ok w) : w.steady = s.steady := by
  unfold State.settle at h; split at h
  · cases h; rfl
  · dsimp only at h; split at h
    · cases h
    · cases h; exact State.drain_steady s

/-! ### What follows -/

section
variable {s t : State} (e : t.steady = s.steady)
include e
theorem State.pc_of_steady : t.hart.pc = s.hart.pc := congrArg (·.hart.pc) e
theorem State.ref_of_steady : t.hart.ref = s.hart.ref := congrArg (·.hart.ref) e
theorem State.status_of_steady : t.hart.status = s.hart.status := congrArg (·.hart.status) e
theorem State.level_of_steady : t.hart.level = s.hart.level := congrArg (·.hart.level) e
theorem State.sup_of_steady : t.hart.sup = s.hart.sup := congrArg (·.hart.sup) e
theorem State.ir_of_steady : t.hart.ir = s.hart.ir := congrArg (·.hart.ir) e
theorem State.seq_of_steady : t.hart.seq = s.hart.seq := congrArg (·.hart.seq) e
theorem State.g_of_steady : t.hart.g = s.hart.g := congrArg (·.hart.g) e
theorem State.joined_of_steady : t.hart.joined = s.hart.joined := congrArg (·.hart.joined) e
theorem State.interlock_of_steady : t.hart.interlock = s.hart.interlock := congrArg (·.hart.interlock) e
theorem State.tiles_of_steady : t.hart.tiles = s.hart.tiles := congrArg (·.hart.tiles) e
theorem State.csr_of_steady : t.hart.csr.steady = s.hart.csr.steady := congrArg (·.hart.csr) e
theorem State.others_of_steady : t.others = s.others := congrArg (·.others) e
theorem State.pkgs_of_steady : t.pkgs = s.pkgs := congrArg (·.pkgs) e
theorem State.ops_of_steady : t.ops = s.ops := congrArg (·.ops) e
theorem State.tlb_of_steady : t.tlb = s.tlb := congrArg (·.tlb) e
theorem State.clock_of_steady : t.clock = s.clock := congrArg (·.clock) e
end

end Sys2Proof.Machine
end

