-- ==== Sys2Proof/Laws/Encoding.lean ====
section
/-! SUPPORT. The fields of a packed word are the fields that were packed. -/

namespace Sys2Proof

theorem extract_append_hi {n m k w : Nat} (x : BitVec n) (y : BitVec m) (h : m ≤ k) :
    (x ++ y).extractLsb' k w = x.extractLsb' (k - m) w := by
  apply BitVec.eq_of_getLsbD_eq; intro i hi
  simp only [BitVec.getLsbD_extractLsb', BitVec.getLsbD_append, hi]
  rw [if_neg (by omega)]; simp; congr 1; omega

theorem extract_append_lo {n m k w : Nat} (x : BitVec n) (y : BitVec m) (h : k + w ≤ m) :
    (x ++ y).extractLsb' k w = y.extractLsb' k w := by
  apply BitVec.eq_of_getLsbD_eq; intro i hi
  simp only [BitVec.getLsbD_extractLsb', BitVec.getLsbD_append, hi]
  rw [if_pos (by omega)]

theorem extract_self {n : Nat} (x : BitVec n) : x.extractLsb' 0 n = x := by
  apply BitVec.eq_of_getLsbD_eq; intro i hi; simp [hi]

theorem extract_setWidth {n v k w : Nat} (x : BitVec n) (h : k + w ≤ v) :
    (x.setWidth v).extractLsb' k w = x.extractLsb' k w := by
  apply BitVec.eq_of_getLsbD_eq; intro i hi; simp [hi]; intro; omega

theorem bitOf_eq_extract {n : Nat} (x : BitVec n) (i : Nat) :
    bitOf x i = (x.extractLsb' i 1 == 1#1) := by
  simp only [bitOf]
  rw [Bool.eq_iff_iff, beq_iff_eq]
  constructor
  · intro h; apply BitVec.eq_of_getLsbD_eq; intro j hj
    obtain rfl : j = 0 := by omega
    simp [h]
  · intro h
    simpa using congrArg (·.getLsbD 0) h

@[simp] theorem RMode.ofCode_code (r : RMode) : RMode.ofCode r.code = r := by cases r <;> rfl
@[simp] theorem FFmt.ofCode_code (f : FFmt) : FFmt.ofCode f.code = f := by cases f <;> rfl
@[simp] theorem AddrField.ofCode_code (f : AddrField) : AddrField.ofCode f.code = some f := by cases f <;> rfl
@[simp] theorem FcvtCode.ofCode_code (f : FcvtCode) : FcvtCode.ofCode f.code = some f := by cases f <;> rfl
@[simp] theorem Scope.ofCode_code (s : Scope) : Scope.ofCode s.code = some s := by cases s <;> rfl
@[simp] theorem StWidth.ofCode_code (s : StWidth) : StWidth.ofCode s.code = s := by cases s <;> rfl
@[simp] theorem AmoWidth.ofCode_code (s : AmoWidth) : AmoWidth.ofCode s.code = some s := by cases s <;> rfl
@[simp] theorem Tag.ofCode_code (t : Tag) : Tag.ofCode t.code = some t := by cases t <;> rfl
@[simp] theorem MemFmt.ofCode_code (f : MemFmt) : MemFmt.ofCode f.code = some f := by cases f <;> rfl
@[simp] theorem Policy.ofCode_code (p : Policy) : Policy.ofCode p.code = some p := by cases p <;> rfl
@[simp] theorem CmpCond.ofCode_code (c : CmpCond) : CmpCond.ofCode c.code = some c := by cases c <;> rfl
@[simp] theorem RedOp.ofCode_code (o : RedOp) : RedOp.ofCode o.code = some o := by cases o <;> rfl
@[simp] theorem AmoOp.ofCode_code (o : AmoOp) : AmoOp.ofCode o.code = some o := by cases o <;> rfl
@[simp] theorem MClass.ofCode_code (c : MClass) : MClass.ofCode c.code = c := by cases c <;> rfl
theorem bit1_eq (b : Bool) : (bit1 b == 1#1) = b := by cases b <;> rfl

@[simp] theorem SWord.unpack_pack (w : SWord) : SWord.unpack w.pack = w := by
  cases w
  simp (disch := omega) only [SWord.unpack, SWord.pack, extract_append_hi, extract_append_lo,
    extract_self, extract_setWidth, Nat.reduceSub, Nat.sub_self]

@[simp] theorem VWord.unpack_pack (w : VWord) : VWord.unpack w.pack = w := by
  cases w
  simp (disch := omega) only [VWord.unpack, VWord.pack, extract_append_hi, extract_append_lo,
    extract_self, extract_setWidth, Nat.reduceSub, Nat.sub_self, bitOf_eq_extract, bit1_eq,
    RMode.ofCode_code]

@[simp] theorem LWord.unpack_pack (w : LWord) : LWord.unpack w.pack = w := by
  cases w
  simp (disch := omega) only [LWord.unpack, LWord.pack, extract_append_hi, extract_append_lo,
    extract_self, extract_setWidth, Nat.reduceSub, Nat.sub_self]

/-! ### Lengths and majors -/

/-- Parcel 0 of a word. -/
def Code.first : Code → Parcel
  | .w16 w => w | .w32 w => w.extractLsb' 0 16 | .w64 w => w.extractLsb' 0 16

/-- Parcel 0 declares the number of parcels of the word (R139). -/
def Code.Declares (c : Code) : Prop := lengthOf c.first = some (c.bytes / 2)

theorem extract_extract {n k m lo w : Nat} (x : BitVec n) (h : lo + w ≤ m) :
    (x.extractLsb' k m).extractLsb' lo w = x.extractLsb' (k + lo) w := by
  apply BitVec.eq_of_getLsbD_eq; intro i hi
  simp only [BitVec.getLsbD_extractLsb', hi, decide_true, Bool.true_and]
  rw [decide_eq_true (by omega), Bool.true_and]; congr 1; omega

@[simp] theorem extract_low_append {n m k : Nat} (x : BitVec n) (y : BitVec m) (h : m = k := by rfl) :
    (x ++ y).extractLsb' 0 k = y.setWidth k := by
  subst h; rw [extract_append_lo _ _ (by omega), extract_self]; simp

theorem SWord.major_at (w : SWord) : w.pack.extractLsb' 2 5 = w.major :=
  congrArg SWord.major (SWord.unpack_pack w)

theorem SWord.page (w : SWord) : w.pack.extractLsb' 0 2 = 3#2 := by
  simp (disch := omega) only [SWord.pack, extract_append_lo, extract_self, extract_setWidth]

theorem VWord.page (w : VWord) : w.pack.extractLsb' 0 7 = 0x73#7 := by
  simp (disch := omega) only [VWord.pack, extract_append_lo, extract_self, extract_setWidth]

theorem LWord.page (w : LWord) : w.pack.extractLsb' 0 7 = 0x7B#7 := by
  simp (disch := omega) only [LWord.pack, extract_append_lo, extract_self, extract_setWidth]

theorem VWord.major_at (w : VWord) : w.pack.extractLsb' 2 5 = 0x1C#5 := by
  have h := (congrArg (fun x : BitVec 7 => x.extractLsb' 2 5) w.page).trans (b := (0x73#7).extractLsb' 2 5) (by decide : _ = 0x1C#5)
  simpa only [extract_extract w.pack (show 2 + 5 ≤ 7 by omega), Nat.zero_add] using h

theorem LWord.major_at (w : LWord) : w.pack.extractLsb' 2 5 = 0x1E#5 := by
  have h := (congrArg (fun x : BitVec 7 => x.extractLsb' 2 5) w.page).trans (b := (0x7B#7).extractLsb' 2 5) (by decide : _ = 0x1E#5)
  simpa only [extract_extract w.pack (show 2 + 5 ≤ 7 by omega), Nat.zero_add] using h

/-- A 32-bit scalar word is read by the scalar major map. -/
theorem candidate_s (w : SWord) (h : w.major ≠ 0x1D#5) : candidate (.s w) = candS w := by
  simp [candidate, Code.s, SWord.major_at, h]

/-- A vector word is read by the vector major map. -/
theorem candidate_v (w : VWord) : candidate (.v w) = candV w := by simp [candidate, Code.v, VWord.major_at]

/-- A long form is read by its operation code. -/
theorem candidate_l (w : LWord) : candidate (.l w) = candL w.pack := by simp [candidate, Code.l, LWord.major_at]

theorem SWord.declares (w : SWord) (h : w.major.toNat ≤ 0x19) : Code.Declares (.s w) := by
  simp only [Code.Declares, Code.s, Code.first, Code.bytes, lengthOf,
    extract_extract w.pack (show 0 + 2 ≤ 16 by omega), extract_extract w.pack (show 2 + 5 ≤ 16 by omega), Nat.zero_add,
    SWord.page, SWord.major_at, h, if_true, Nat.reduceDiv]

theorem VWord.declares (w : VWord) : Code.Declares (.v w) := by
  have h : w.pack.extractLsb' 0 2 = 3#2 := by
    have h := (congrArg (fun x : BitVec 7 => x.extractLsb' 0 2) w.page).trans (b := (0x73#7).extractLsb' 0 2) (by decide : _ = 3#2)
    simpa only [extract_extract w.pack (show 0 + 2 ≤ 7 by omega), Nat.zero_add] using h
  simp [Code.Declares, Code.v, Code.first, Code.bytes, lengthOf,
    extract_extract w.pack (show 0 + 2 ≤ 16 by omega), extract_extract w.pack (show 2 + 5 ≤ 16 by omega), h,
    VWord.major_at]

theorem LWord.declares (w : LWord) : Code.Declares (.l w) := by
  have h : w.pack.extractLsb' 0 2 = 3#2 := by
    have h := (congrArg (fun x : BitVec 7 => x.extractLsb' 0 2) w.page).trans (b := (0x7B#7).extractLsb' 0 2) (by decide : _ = 3#2)
    simpa only [extract_extract w.pack (show 0 + 2 ≤ 7 by omega), Nat.zero_add] using h
  simp [Code.Declares, Code.l, Code.first, Code.bytes, lengthOf,
    extract_extract w.pack (show 0 + 2 ≤ 16 by omega), extract_extract w.pack (show 2 + 5 ≤ 16 by omega), h,
    LWord.major_at]

/-- A compact word, and a word whose low seven bits say a convoy header or a long form. -/
theorem compact_declares (w : BitVec 16) (h : w.extractLsb' 0 2 ≠ 3#2) : Code.Declares (.w16 w) := by
  simp [Code.Declares, Code.first, Code.bytes, lengthOf, h]

theorem page_declares32 (w : BitVec 32) (h : w.extractLsb' 0 7 = 0x77#7) : Code.Declares (.w32 w) := by
  have a := congrArg (fun x : BitVec 7 => x.extractLsb' 0 2) h
  have b := congrArg (fun x : BitVec 7 => x.extractLsb' 2 5) h
  simp only [extract_extract w (show 0 + 2 ≤ 7 by omega), extract_extract w (show 2 + 5 ≤ 7 by omega), Nat.zero_add] at a b
  simp [Code.Declares, Code.first, Code.bytes, lengthOf, extract_extract w (show 0 + 2 ≤ 16 by omega),
    extract_extract w (show 2 + 5 ≤ 16 by omega), a, b]

theorem page_declares64 (w : BitVec 64) (h : w.extractLsb' 0 7 = 0x7B#7) : Code.Declares (.w64 w) := by
  have a := congrArg (fun x : BitVec 7 => x.extractLsb' 0 2) h
  have b := congrArg (fun x : BitVec 7 => x.extractLsb' 2 5) h
  simp only [extract_extract w (show 0 + 2 ≤ 7 by omega), extract_extract w (show 2 + 5 ≤ 7 by omega), Nat.zero_add] at a b
  simp [Code.Declares, Code.first, Code.bytes, lengthOf, extract_extract w (show 0 + 2 ≤ 16 by omega),
    extract_extract w (show 2 + 5 ≤ 16 by omega), a, b]

/-- The low bits of a packed word that ends in a field of those bits. -/
theorem low_bits {n m v : Nat} (x : BitVec n) (y : BitVec m) (h : m ≤ v) :
    ((x ++ y).setWidth v).extractLsb' 0 m = y := by
  rw [extract_setWidth _ (by omega), extract_append_lo _ _ (by omega), extract_self]

end Sys2Proof
end

