-- ==== Sys2Proof/Laws/Packages.lean ====
section
/-! SUPPORT. What a change of one package, of one hart or of one colour leaves as it was: once for each shared
operation. -/

namespace Sys2Proof.Machine

/-! ### Packages -/

@[simp] theorem State.pack_pkg (s : State) (pkg : Nat) : (s.pack pkg).pkg = pkg := by
  unfold State.pack
  split
  · next p h => simpa using List.find?_some h
  · rfl

theorem find_filter_ne (l : List Package) (a b : Nat) (h : a ≠ b) :
    (l.filter (·.pkg != a)).find? (·.pkg == b) = l.find? (·.pkg == b) := by
  induction l with
  | nil => rfl
  | cons p r ih =>
    by_cases ha : p.pkg = a
    · simp [ha, ih, h]
    · simp only [List.filter_cons, bne_iff_ne, ne_eq, ha, not_false_eq_true, if_true, List.find?_cons, ih]

@[simp] theorem State.pack_setPack (s : State) (p : Package) : (s.setPack p).pack p.pkg = p := by
  simp [State.pack, State.setPack]

theorem State.pack_setPack_eq (s : State) {p : Package} {pkg : Nat} (h : p.pkg = pkg) : (s.setPack p).pack pkg = p := by
  subst h; exact s.pack_setPack p

theorem State.pack_setPack_ne (s : State) {p : Package} {q : Nat} (h : q ≠ p.pkg) : (s.setPack p).pack q = s.pack q := by
  unfold State.pack State.setPack
  simp only [List.find?_cons, beq_eq_false_iff_ne.mpr (Ne.symm h)]
  rw [find_filter_ne _ _ _ (Ne.symm h)]

@[simp] theorem State.setPack_harts (s : State) (p : Package) : (s.setPack p).harts = s.harts := rfl
@[simp] theorem State.setPack_findHart (s : State) (p : Package) (r : HartRef) :
    (s.setPack p).findHart r = s.findHart r := rfl

theorem State.onlyPacks_setPack (s : State) {p : Package} {pkg : Nat} (h : p.pkg = pkg) :
    OnlyPacks s (s.setPack p) [pkg] :=
  ⟨rfl, rfl, rfl, fun q hq => s.pack_setPack_ne (by subst h; simpa using hq)⟩

theorem changesPack_setPack (s : State) {p : Package} {pkg : Nat} (h : p.pkg = pkg) :
    ChangesPack s pkg p (.next (s.setPack p)) :=
  ⟨_, rfl, s.onlyPacks_setPack h, s.pack_setPack_eq h⟩

/-! ### Harts -/

theorem find_map_ref (l : List Hart) (r q : HartRef) (f : Hart → Hart) (hf : ∀ h, (f h).ref = h.ref) :
    (l.map fun h => if h.ref = r then f h else h).find? (·.ref == q) =
      (l.find? (·.ref == q)).map fun h => if h.ref = r then f h else h := by
  induction l with
  | nil => rfl
  | cons a l ih =>
    have e : (if a.ref = r then f a else a).ref = a.ref := by split <;> simp [hf]
    simp only [List.map_cons, List.find?_cons, e, ih]
    cases a.ref == q <;> rfl

/-- A change of the hart r that keeps its name and leaves it placed is seen at r alone. -/
theorem changesHart_onHart (s : State) (r : HartRef) (f : Hart → Hart) (hf : ∀ h, (f h).ref = h.ref)
    (hv : ∀ h, (f h).status = h.status) : ChangesHart s r f (.next (s.onHart r f)) := by
  refine ⟨_, rfl, by unfold State.onHart; split <;> rfl, ?_, ?_⟩
  · intro h hh
    unfold State.onHart
    by_cases c : s.hart.ref = r ∧ s.hart.status ≠ .vacant
    · rw [if_pos c]
      unfold State.findHart State.harts at hh ⊢
      simp only [if_neg c.2, List.find?_cons, c.1, beq_self_eq_true, Option.some.injEq] at hh
      have : (f s.hart).status ≠ .vacant := hv s.hart ▸ c.2
      rw [← hh]; simp only [if_neg this, List.find?_cons, hf, c.1, beq_self_eq_true]
    · rw [if_neg c]
      unfold State.findHart State.harts at hh ⊢
      by_cases v : s.hart.status = .vacant
      · simp only [if_pos v] at hh ⊢
        rw [find_map_ref _ _ _ _ hf, hh]
        have := List.find?_some hh
        simp at this; simp [this]
      · have n : s.hart.ref ≠ r := fun e => c ⟨e, v⟩
        simp only [if_neg v, List.find?_cons, beq_eq_false_iff_ne.mpr n] at hh ⊢
        rw [find_map_ref _ _ _ _ hf, hh]
        have := List.find?_some hh
        simp at this; simp [this]
  · intro q hq
    have key : ∀ l : List Hart, (l.find? (·.ref == q)).map (fun h => if h.ref = r then f h else h) = l.find? (·.ref == q) := by
      intro l
      cases e : l.find? (·.ref == q) with
      | none => rfl
      | some h =>
        have := List.find?_some e
        simp only [beq_iff_eq] at this
        have n : h.ref ≠ r := fun e' => hq (this.symm.trans e')
        simp [n]
    unfold State.onHart
    by_cases c : s.hart.ref = r ∧ s.hart.status ≠ .vacant
    · rw [if_pos c]
      have : (f s.hart).status ≠ .vacant := hv s.hart ▸ c.2
      have n : ¬ r = q := fun e => hq e.symm
      simp [State.findHart, State.harts, if_neg c.2, if_neg this, hf, c.1, beq_eq_false_iff_ne.mpr n]
    · rw [if_neg c]
      unfold State.findHart State.harts
      split
      · rw [find_map_ref _ _ _ _ hf, key]
      · simp only [List.find?_cons]
        cases s.hart.ref == q
        · simp only []; rw [find_map_ref _ _ _ _ hf, key]
        · rfl

/-! ### Colours -/

@[simp] theorem Package.colour_port (p : Package) (i j : Nat) : (p.colour i j).port = i := by
  unfold Package.colour
  split
  · next h => have := List.find?_some h; simp at this; exact this.1
  · rfl

@[simp] theorem Package.colour_colour (p : Package) (i j : Nat) : (p.colour i j).colour = j := by
  unfold Package.colour
  split
  · next h => have := List.find?_some h; simp at this; exact this.2
  · rfl

theorem Package.colour_setColour (p : Package) (c : Colour) : (p.setColour c).colour c.port c.colour = c := by
  simp [Package.colour, Package.setColour]

theorem Package.colour_setColour_ne (p : Package) (c : Colour) {i j : Nat} (h : (i, j) ≠ (c.port, c.colour)) :
    (p.setColour c).colour i j = p.colour i j := by
  have h' : ¬ (c.port = i ∧ c.colour = j) := fun e => h (by simp [e.1, e.2])
  have key : ∀ l : List Colour, (l.filter fun x => !(x.port == c.port && x.colour == c.colour)).find?
      (fun x => x.port == i && x.colour == j) = l.find? fun x => x.port == i && x.colour == j := by
    intro l
    induction l with
    | nil => rfl
    | cons x r ih =>
      by_cases hx : x.port = c.port ∧ x.colour = c.colour
      · have : (x.port == i && x.colour == j) = false := by
          rw [hx.1, hx.2]; simpa using fun a b => h' ⟨a, b⟩
        have e : (x.port == c.port && x.colour == c.colour) = true := by simp [hx.1, hx.2]
        simp only [List.filter_cons, e, Bool.not_true, Bool.false_eq_true, if_false, List.find?_cons, this, ih]
      · have : (x.port == c.port && x.colour == c.colour) = false := by simpa using fun a b => hx ⟨a, b⟩
        simp only [List.filter_cons, this, Bool.not_false, if_true, List.find?_cons, ih]
  unfold Package.colour Package.setColour
  have h0 : (c.port == i && c.colour == j) = false := by simpa using fun a b => h' ⟨a, b⟩
  simp only [List.find?_cons, h0, key]

/-- A change of a colour that keeps its place is seen at that colour alone. -/
theorem changesColour_onColour (s : State) (l : Lane) (f : Colour → Colour)
    (hf : ∀ c, (f c).port = c.port ∧ (f c).colour = c.colour) : ChangesColour s l f (.next (s.onColour l f)) := by
  have e : ((s.pack l.pkg).setColour (f ((s.pack l.pkg).colour l.port l.colour))).pkg = l.pkg := by
    simp [Package.setColour]
  have hp := (hf ((s.pack l.pkg).colour l.port l.colour)).1.trans (Package.colour_port _ _ _)
  have hc := (hf ((s.pack l.pkg).colour l.port l.colour)).2.trans (Package.colour_colour _ _ _)
  refine ⟨_, rfl, s.onlyPacks_setPack e, ?_, ?_⟩
  · show ((s.setPack _).pack l.pkg).colour l.port l.colour = _
    rw [s.pack_setPack_eq e]
    have := Package.colour_setColour (s.pack l.pkg) (f ((s.pack l.pkg).colour l.port l.colour))
    rwa [hp, hc] at this
  · intro i j h
    show ((s.setPack _).pack l.pkg).colour i j = _
    rw [s.pack_setPack_eq e]
    exact Package.colour_setColour_ne _ _ (by rwa [hp, hc])

end Sys2Proof.Machine
end

