-- ==== Sys2Proof/Laws/PerInstr.lean ====
section
/-! SUPPORT. The family Word: every well-formed instruction has a word, and its first parcel declares the
word's length. One lemma for each constructor of `Instr`. -/

namespace Sys2Proof.Laws.Word

/-- A well-formed instruction has a word, whose first parcel declares its length (R139). -/
def Statement (i : Instr) : Prop := i.wellFormed = true → ∃ c, encode i = some c ∧ Code.Declares c

theorem add : ∀ d a b, Statement (.add d a b) := fun _ _ _ _ => ⟨_, rfl, SWord.declares _ (Nat.le_of_ble_eq_true rfl)⟩
theorem sub : ∀ d a b, Statement (.sub d a b) := fun _ _ _ _ => ⟨_, rfl, SWord.declares _ (Nat.le_of_ble_eq_true rfl)⟩
theorem and : ∀ d a b, Statement (.and d a b) := fun _ _ _ _ => ⟨_, rfl, SWord.declares _ (Nat.le_of_ble_eq_true rfl)⟩
theorem or : ∀ d a b, Statement (.or d a b) := fun _ _ _ _ => ⟨_, rfl, SWord.declares _ (Nat.le_of_ble_eq_true rfl)⟩
theorem xor : ∀ d a b, Statement (.xor d a b) := fun _ _ _ _ => ⟨_, rfl, SWord.declares _ (Nat.le_of_ble_eq_true rfl)⟩
theorem sll : ∀ d a b, Statement (.sll d a b) := fun _ _ _ _ => ⟨_, rfl, SWord.declares _ (Nat.le_of_ble_eq_true rfl)⟩
theorem srl : ∀ d a b, Statement (.srl d a b) := fun _ _ _ _ => ⟨_, rfl, SWord.declares _ (Nat.le_of_ble_eq_true rfl)⟩
theorem sra : ∀ d a b, Statement (.sra d a b) := fun _ _ _ _ => ⟨_, rfl, SWord.declares _ (Nat.le_of_ble_eq_true rfl)⟩
theorem rotl : ∀ d a b, Statement (.rotl d a b) := fun _ _ _ _ => ⟨_, rfl, SWord.declares _ (Nat.le_of_ble_eq_true rfl)⟩
theorem rotr : ∀ d a b, Statement (.rotr d a b) := fun _ _ _ _ => ⟨_, rfl, SWord.declares _ (Nat.le_of_ble_eq_true rfl)⟩
theorem mul : ∀ d a b, Statement (.mul d a b) := fun _ _ _ _ => ⟨_, rfl, SWord.declares _ (Nat.le_of_ble_eq_true rfl)⟩
theorem mulh : ∀ d a b, Statement (.mulh d a b) := fun _ _ _ _ => ⟨_, rfl, SWord.declares _ (Nat.le_of_ble_eq_true rfl)⟩
theorem mulhN : ∀ d a b, Statement (.mulhN d a b) := fun _ _ _ _ => ⟨_, rfl, SWord.declares _ (Nat.le_of_ble_eq_true rfl)⟩
theorem div : ∀ d a b, Statement (.div d a b) := fun _ _ _ _ => ⟨_, rfl, SWord.declares _ (Nat.le_of_ble_eq_true rfl)⟩
theorem divN : ∀ d a b, Statement (.divN d a b) := fun _ _ _ _ => ⟨_, rfl, SWord.declares _ (Nat.le_of_ble_eq_true rfl)⟩
theorem rem : ∀ d a b, Statement (.rem d a b) := fun _ _ _ _ => ⟨_, rfl, SWord.declares _ (Nat.le_of_ble_eq_true rfl)⟩
theorem remN : ∀ d a b, Statement (.remN d a b) := fun _ _ _ _ => ⟨_, rfl, SWord.declares _ (Nat.le_of_ble_eq_true rfl)⟩
theorem min : ∀ d a b, Statement (.min d a b) := fun _ _ _ _ => ⟨_, rfl, SWord.declares _ (Nat.le_of_ble_eq_true rfl)⟩
theorem max : ∀ d a b, Statement (.max d a b) := fun _ _ _ _ => ⟨_, rfl, SWord.declares _ (Nat.le_of_ble_eq_true rfl)⟩
theorem minN : ∀ d a b, Statement (.minN d a b) := fun _ _ _ _ => ⟨_, rfl, SWord.declares _ (Nat.le_of_ble_eq_true rfl)⟩
theorem maxN : ∀ d a b, Statement (.maxN d a b) := fun _ _ _ _ => ⟨_, rfl, SWord.declares _ (Nat.le_of_ble_eq_true rfl)⟩
theorem slt : ∀ d a b, Statement (.slt d a b) := fun _ _ _ _ => ⟨_, rfl, SWord.declares _ (Nat.le_of_ble_eq_true rfl)⟩
theorem sltN : ∀ d a b, Statement (.sltN d a b) := fun _ _ _ _ => ⟨_, rfl, SWord.declares _ (Nat.le_of_ble_eq_true rfl)⟩
theorem clz : ∀ d a, Statement (.clz d a) := fun _ _ _ => ⟨_, rfl, SWord.declares _ (Nat.le_of_ble_eq_true rfl)⟩
theorem ctz : ∀ d a, Statement (.ctz d a) := fun _ _ _ => ⟨_, rfl, SWord.declares _ (Nat.le_of_ble_eq_true rfl)⟩
theorem popc : ∀ d a, Statement (.popc d a) := fun _ _ _ => ⟨_, rfl, SWord.declares _ (Nat.le_of_ble_eq_true rfl)⟩
theorem addi : ∀ d a imm, Statement (.addi d a imm) := fun _ _ _ _ => ⟨_, rfl, SWord.declares _ (Nat.le_of_ble_eq_true rfl)⟩
theorem andi : ∀ d a imm, Statement (.andi d a imm) := fun _ _ _ _ => ⟨_, rfl, SWord.declares _ (Nat.le_of_ble_eq_true rfl)⟩
theorem ori : ∀ d a imm, Statement (.ori d a imm) := fun _ _ _ _ => ⟨_, rfl, SWord.declares _ (Nat.le_of_ble_eq_true rfl)⟩
theorem xori : ∀ d a imm, Statement (.xori d a imm) := fun _ _ _ _ => ⟨_, rfl, SWord.declares _ (Nat.le_of_ble_eq_true rfl)⟩
theorem slli : ∀ d a count, Statement (.slli d a count) := fun _ _ _ _ => ⟨_, rfl, SWord.declares _ (Nat.le_of_ble_eq_true rfl)⟩
theorem srli : ∀ d a count, Statement (.srli d a count) := fun _ _ _ _ => ⟨_, rfl, SWord.declares _ (Nat.le_of_ble_eq_true rfl)⟩
theorem srai : ∀ d a count, Statement (.srai d a count) := fun _ _ _ _ => ⟨_, rfl, SWord.declares _ (Nat.le_of_ble_eq_true rfl)⟩
theorem lih : ∀ d imm, Statement (.lih d imm) := fun _ _ _ => ⟨_, rfl, SWord.declares _ (Nat.le_of_ble_eq_true rfl)⟩
theorem adr : ∀ d imm, Statement (.adr d imm) := fun _ _ _ => ⟨_, rfl, SWord.declares _ (Nat.le_of_ble_eq_true rfl)⟩
theorem li64 : ∀ d imm, Statement (.li64 d imm) := fun _ _ _ => ⟨_, rfl, page_declares64 _ (low_bits _ _ (by omega))⟩
theorem gmk : ∀ f d a b, Statement (.gmk f d a b) := fun _ _ _ _ _ => ⟨_, rfl, SWord.declares _ (Nat.le_of_ble_eq_true rfl)⟩
theorem gfld : ∀ f d a, Statement (.gfld f d a) := fun _ _ _ _ => ⟨_, rfl, SWord.declares _ (Nat.le_of_ble_eq_true rfl)⟩
theorem bEq : ∀ a b off, Statement (.bEq a b off) := fun _ _ _ _ => ⟨_, rfl, SWord.declares _ (Nat.le_of_ble_eq_true rfl)⟩
theorem bNe : ∀ a b off, Statement (.bNe a b off) := fun _ _ _ _ => ⟨_, rfl, SWord.declares _ (Nat.le_of_ble_eq_true rfl)⟩
theorem bLt : ∀ a b off, Statement (.bLt a b off) := fun _ _ _ _ => ⟨_, rfl, SWord.declares _ (Nat.le_of_ble_eq_true rfl)⟩
theorem bGe : ∀ a b off, Statement (.bGe a b off) := fun _ _ _ _ => ⟨_, rfl, SWord.declares _ (Nat.le_of_ble_eq_true rfl)⟩
theorem bLtN : ∀ a b off, Statement (.bLtN a b off) := fun _ _ _ _ => ⟨_, rfl, SWord.declares _ (Nat.le_of_ble_eq_true rfl)⟩
theorem bGeN : ∀ a b off, Statement (.bGeN a b off) := fun _ _ _ _ => ⟨_, rfl, SWord.declares _ (Nat.le_of_ble_eq_true rfl)⟩
theorem j : ∀ off, Statement (.j off) := fun _ _ => ⟨_, rfl, SWord.declares _ (Nat.le_of_ble_eq_true rfl)⟩
theorem jal : ∀ off, Statement (.jal off) := fun _ _ => ⟨_, rfl, SWord.declares _ (Nat.le_of_ble_eq_true rfl)⟩
theorem jr : ∀ a, Statement (.jr a) := fun _ _ => ⟨_, rfl, SWord.declares _ (Nat.le_of_ble_eq_true rfl)⟩
theorem jalr : ∀ d a, Statement (.jalr d a) := fun _ _ _ => ⟨_, rfl, SWord.declares _ (Nat.le_of_ble_eq_true rfl)⟩
theorem fadd : ∀ fmt rm d a b, Statement (.fadd fmt rm d a b) := fun _ _ _ _ _ _ => ⟨_, rfl, SWord.declares _ (Nat.le_of_ble_eq_true rfl)⟩
theorem fsub : ∀ fmt rm d a b, Statement (.fsub fmt rm d a b) := fun _ _ _ _ _ _ => ⟨_, rfl, SWord.declares _ (Nat.le_of_ble_eq_true rfl)⟩
theorem fmul : ∀ fmt rm d a b, Statement (.fmul fmt rm d a b) := fun _ _ _ _ _ _ => ⟨_, rfl, SWord.declares _ (Nat.le_of_ble_eq_true rfl)⟩
theorem fdiv : ∀ fmt rm d a b, Statement (.fdiv fmt rm d a b) := fun _ _ _ _ _ _ => ⟨_, rfl, SWord.declares _ (Nat.le_of_ble_eq_true rfl)⟩
theorem fsqrt : ∀ fmt rm d a, Statement (.fsqrt fmt rm d a) := fun _ _ _ _ _ => ⟨_, rfl, SWord.declares _ (Nat.le_of_ble_eq_true rfl)⟩
theorem fmin : ∀ fmt d a b, Statement (.fmin fmt d a b) := fun _ _ _ _ _ => ⟨_, rfl, SWord.declares _ (Nat.le_of_ble_eq_true rfl)⟩
theorem fmax : ∀ fmt d a b, Statement (.fmax fmt d a b) := fun _ _ _ _ _ => ⟨_, rfl, SWord.declares _ (Nat.le_of_ble_eq_true rfl)⟩
theorem fcmpEq : ∀ fmt d a b, Statement (.fcmpEq fmt d a b) := fun _ _ _ _ _ => ⟨_, rfl, SWord.declares _ (Nat.le_of_ble_eq_true rfl)⟩
theorem fcmpLt : ∀ fmt d a b, Statement (.fcmpLt fmt d a b) := fun _ _ _ _ _ => ⟨_, rfl, SWord.declares _ (Nat.le_of_ble_eq_true rfl)⟩
theorem fcmpLe : ∀ fmt d a b, Statement (.fcmpLe fmt d a b) := fun _ _ _ _ _ => ⟨_, rfl, SWord.declares _ (Nat.le_of_ble_eq_true rfl)⟩
theorem fcmpUo : ∀ fmt d a b, Statement (.fcmpUo fmt d a b) := fun _ _ _ _ _ => ⟨_, rfl, SWord.declares _ (Nat.le_of_ble_eq_true rfl)⟩
theorem fclass : ∀ fmt d a, Statement (.fclass fmt d a) := fun _ _ _ _ => ⟨_, rfl, SWord.declares _ (Nat.le_of_ble_eq_true rfl)⟩
theorem fsgnJ : ∀ fmt d a b, Statement (.fsgnJ fmt d a b) := fun _ _ _ _ _ => ⟨_, rfl, SWord.declares _ (Nat.le_of_ble_eq_true rfl)⟩
theorem fsgnN : ∀ fmt d a b, Statement (.fsgnN fmt d a b) := fun _ _ _ _ _ => ⟨_, rfl, SWord.declares _ (Nat.le_of_ble_eq_true rfl)⟩
theorem fsgnX : ∀ fmt d a b, Statement (.fsgnX fmt d a b) := fun _ _ _ _ _ => ⟨_, rfl, SWord.declares _ (Nat.le_of_ble_eq_true rfl)⟩
theorem fmv : ∀ fmt d a, Statement (.fmv fmt d a) := fun _ _ _ _ => ⟨_, rfl, SWord.declares _ (Nat.le_of_ble_eq_true rfl)⟩
theorem fcvt : ∀ code rm d a, Statement (.fcvt code rm d a) := fun _ _ _ _ _ => ⟨_, rfl, SWord.declares _ (Nat.le_of_ble_eq_true rfl)⟩
theorem fmadd : ∀ fmt rm d a b c, Statement (.fmadd fmt rm d a b c) := fun _ _ _ _ _ _ _ => ⟨_, rfl, SWord.declares _ (Nat.le_of_ble_eq_true rfl)⟩
theorem fmsub : ∀ fmt rm d a b c, Statement (.fmsub fmt rm d a b c) := fun _ _ _ _ _ _ _ => ⟨_, rfl, SWord.declares _ (Nat.le_of_ble_eq_true rfl)⟩
theorem fnmadd : ∀ fmt rm d a b c, Statement (.fnmadd fmt rm d a b c) := fun _ _ _ _ _ _ _ => ⟨_, rfl, SWord.declares _ (Nat.le_of_ble_eq_true rfl)⟩
theorem ldB : ∀ d a imm, Statement (.ldB d a imm) := fun _ _ _ _ => ⟨_, rfl, SWord.declares _ (Nat.le_of_ble_eq_true rfl)⟩
theorem ldH : ∀ d a imm, Statement (.ldH d a imm) := fun _ _ _ _ => ⟨_, rfl, SWord.declares _ (Nat.le_of_ble_eq_true rfl)⟩
theorem ldW : ∀ d a imm, Statement (.ldW d a imm) := fun _ _ _ _ => ⟨_, rfl, SWord.declares _ (Nat.le_of_ble_eq_true rfl)⟩
theorem ld : ∀ d a imm, Statement (.ld d a imm) := fun _ _ _ _ => ⟨_, rfl, SWord.declares _ (Nat.le_of_ble_eq_true rfl)⟩
theorem ldBi : ∀ d a imm, Statement (.ldBi d a imm) := fun _ _ _ _ => ⟨_, rfl, SWord.declares _ (Nat.le_of_ble_eq_true rfl)⟩
theorem ldHi : ∀ d a imm, Statement (.ldHi d a imm) := fun _ _ _ _ => ⟨_, rfl, SWord.declares _ (Nat.le_of_ble_eq_true rfl)⟩
theorem ldWi : ∀ d a imm, Statement (.ldWi d a imm) := fun _ _ _ _ => ⟨_, rfl, SWord.declares _ (Nat.le_of_ble_eq_true rfl)⟩
theorem stB : ∀ d a imm, Statement (.stB d a imm) := fun _ _ _ _ => ⟨_, rfl, SWord.declares _ (Nat.le_of_ble_eq_true rfl)⟩
theorem stH : ∀ d a imm, Statement (.stH d a imm) := fun _ _ _ _ => ⟨_, rfl, SWord.declares _ (Nat.le_of_ble_eq_true rfl)⟩
theorem stW : ∀ d a imm, Statement (.stW d a imm) := fun _ _ _ _ => ⟨_, rfl, SWord.declares _ (Nat.le_of_ble_eq_true rfl)⟩
theorem st : ∀ d a imm, Statement (.st d a imm) := fun _ _ _ _ => ⟨_, rfl, SWord.declares _ (Nat.le_of_ble_eq_true rfl)⟩
theorem ldcB : ∀ d a imm, Statement (.ldcB d a imm) := fun _ _ _ _ => ⟨_, rfl, SWord.declares _ (Nat.le_of_ble_eq_true rfl)⟩
theorem ldcH : ∀ d a imm, Statement (.ldcH d a imm) := fun _ _ _ _ => ⟨_, rfl, SWord.declares _ (Nat.le_of_ble_eq_true rfl)⟩
theorem ldcW : ∀ d a imm, Statement (.ldcW d a imm) := fun _ _ _ _ => ⟨_, rfl, SWord.declares _ (Nat.le_of_ble_eq_true rfl)⟩
theorem ldc : ∀ d a imm, Statement (.ldc d a imm) := fun _ _ _ _ => ⟨_, rfl, SWord.declares _ (Nat.le_of_ble_eq_true rfl)⟩
theorem ldcBi : ∀ d a imm, Statement (.ldcBi d a imm) := fun _ _ _ _ => ⟨_, rfl, SWord.declares _ (Nat.le_of_ble_eq_true rfl)⟩
theorem ldcHi : ∀ d a imm, Statement (.ldcHi d a imm) := fun _ _ _ _ => ⟨_, rfl, SWord.declares _ (Nat.le_of_ble_eq_true rfl)⟩
theorem ldcWi : ∀ d a imm, Statement (.ldcWi d a imm) := fun _ _ _ _ => ⟨_, rfl, SWord.declares _ (Nat.le_of_ble_eq_true rfl)⟩
theorem lsync : ∀ sc, Statement (.lsync sc) := fun _ _ => ⟨_, rfl, SWord.declares _ (Nat.le_of_ble_eq_true rfl)⟩
theorem stRel : ∀ wd sc a b, Statement (.stRel wd sc a b) := fun _ _ _ _ _ => ⟨_, rfl, SWord.declares _ (Nat.le_of_ble_eq_true rfl)⟩
theorem amoAdd : ∀ w d a b, Statement (.amoAdd w d a b) := fun _ _ _ _ _ => ⟨_, rfl, SWord.declares _ (Nat.le_of_ble_eq_true rfl)⟩
theorem amoAnd : ∀ w d a b, Statement (.amoAnd w d a b) := fun _ _ _ _ _ => ⟨_, rfl, SWord.declares _ (Nat.le_of_ble_eq_true rfl)⟩
theorem amoOr : ∀ w d a b, Statement (.amoOr w d a b) := fun _ _ _ _ _ => ⟨_, rfl, SWord.declares _ (Nat.le_of_ble_eq_true rfl)⟩
theorem amoXor : ∀ w d a b, Statement (.amoXor w d a b) := fun _ _ _ _ _ => ⟨_, rfl, SWord.declares _ (Nat.le_of_ble_eq_true rfl)⟩
theorem amoMin : ∀ w d a b, Statement (.amoMin w d a b) := fun _ _ _ _ _ => ⟨_, rfl, SWord.declares _ (Nat.le_of_ble_eq_true rfl)⟩
theorem amoMax : ∀ w d a b, Statement (.amoMax w d a b) := fun _ _ _ _ _ => ⟨_, rfl, SWord.declares _ (Nat.le_of_ble_eq_true rfl)⟩
theorem amoMinN : ∀ w d a b, Statement (.amoMinN w d a b) := fun _ _ _ _ _ => ⟨_, rfl, SWord.declares _ (Nat.le_of_ble_eq_true rfl)⟩
theorem amoMaxN : ∀ w d a b, Statement (.amoMaxN w d a b) := fun _ _ _ _ _ => ⟨_, rfl, SWord.declares _ (Nat.le_of_ble_eq_true rfl)⟩
theorem amoSwap : ∀ w d a b, Statement (.amoSwap w d a b) := fun _ _ _ _ _ => ⟨_, rfl, SWord.declares _ (Nat.le_of_ble_eq_true rfl)⟩
theorem amoFadd : ∀ w d a b, Statement (.amoFadd w d a b) := fun _ _ _ _ _ => ⟨_, rfl, SWord.declares _ (Nat.le_of_ble_eq_true rfl)⟩
theorem cas : ∀ w d a b, Statement (.cas w d a b) := fun _ _ _ _ _ => ⟨_, rfl, SWord.declares _ (Nat.le_of_ble_eq_true rfl)⟩
theorem waita : ∀ d a b, Statement (.waita d a b) := fun _ _ _ _ => ⟨_, rfl, SWord.declares _ (Nat.le_of_ble_eq_true rfl)⟩
theorem wakea : ∀ d a b, Statement (.wakea d a b) := fun _ _ _ _ => ⟨_, rfl, SWord.declares _ (Nat.le_of_ble_eq_true rfl)⟩
theorem csrr : ∀ d csr, Statement (.csrr d csr) := fun _ _ _ => ⟨_, rfl, SWord.declares _ (Nat.le_of_ble_eq_true rfl)⟩
theorem csrw : ∀ d a csr, Statement (.csrw d a csr) := fun _ _ _ _ => ⟨_, rfl, SWord.declares _ (Nat.le_of_ble_eq_true rfl)⟩
theorem csrs : ∀ d a csr, Statement (.csrs d a csr) := fun _ _ _ _ => ⟨_, rfl, SWord.declares _ (Nat.le_of_ble_eq_true rfl)⟩
theorem csrc : ∀ d a csr, Statement (.csrc d a csr) := fun _ _ _ _ => ⟨_, rfl, SWord.declares _ (Nat.le_of_ble_eq_true rfl)⟩
theorem tclr : ∀ x, Statement (.tclr x) := fun _ _ => ⟨_, rfl, SWord.declares _ (Nat.le_of_ble_eq_true rfl)⟩
theorem tget : ∀ d y, Statement (.tget d y) := fun _ _ _ => ⟨_, rfl, SWord.declares _ (Nat.le_of_ble_eq_true rfl)⟩
theorem tdep : ∀ x y, Statement (.tdep x y) := fun _ _ _ => ⟨_, rfl, SWord.declares _ (Nat.le_of_ble_eq_true rfl)⟩
theorem glaunch : ∀ d a b, Statement (.glaunch d a b) := fun _ _ _ _ => ⟨_, rfl, SWord.declares _ (Nat.le_of_ble_eq_true rfl)⟩
theorem gwait : ∀ d a b, Statement (.gwait d a b) := fun _ _ _ _ => ⟨_, rfl, SWord.declares _ (Nat.le_of_ble_eq_true rfl)⟩
theorem vqsave : ∀ d a, Statement (.vqsave d a) := fun _ _ _ => ⟨_, rfl, SWord.declares _ (Nat.le_of_ble_eq_true rfl)⟩
theorem vqrest : ∀ d a, Statement (.vqrest d a) := fun _ _ _ => ⟨_, rfl, SWord.declares _ (Nat.le_of_ble_eq_true rfl)⟩
theorem vsave : ∀ d a, Statement (.vsave d a) := fun _ _ _ => ⟨_, rfl, SWord.declares _ (Nat.le_of_ble_eq_true rfl)⟩
theorem vrest : ∀ d a, Statement (.vrest d a) := fun _ _ _ => ⟨_, rfl, SWord.declares _ (Nat.le_of_ble_eq_true rfl)⟩
theorem hsave : ∀ a, Statement (.hsave a) := fun _ _ => ⟨_, rfl, SWord.declares _ (Nat.le_of_ble_eq_true rfl)⟩
theorem hrest : ∀ d a, Statement (.hrest d a) := fun _ _ _ => ⟨_, rfl, SWord.declares _ (Nat.le_of_ble_eq_true rfl)⟩
theorem tlbinv : ∀ d a b, Statement (.tlbinv d a b) := fun _ _ _ _ => ⟨_, rfl, SWord.declares _ (Nat.le_of_ble_eq_true rfl)⟩
theorem snap : ∀ d a b, Statement (.snap d a b) := fun _ _ _ _ => ⟨_, rfl, SWord.declares _ (Nat.le_of_ble_eq_true rfl)⟩
theorem pwait : ∀ d a, Statement (.pwait d a) := fun _ _ _ => ⟨_, rfl, SWord.declares _ (Nat.le_of_ble_eq_true rfl)⟩
theorem mwipe : ∀ d a b, Statement (.mwipe d a b) := fun _ _ _ _ => ⟨_, rfl, SWord.declares _ (Nat.le_of_ble_eq_true rfl)⟩
theorem vcfg : ∀ d nreg w64 lgreq, Statement (.vcfg d nreg w64 lgreq) := fun _ _ _ _ _ => ⟨_, rfl, SWord.declares _ (Nat.le_of_ble_eq_true rfl)⟩
theorem vsetl : ∀ d a gl tp mp, Statement (.vsetl d a gl tp mp) := fun _ _ _ _ _ _ => ⟨_, rfl, SWord.declares _ (Nat.le_of_ble_eq_true rfl)⟩
theorem sloop : ∀ a off, Statement (.sloop a off) := fun _ _ _ => ⟨_, rfl, SWord.declares _ (Nat.le_of_ble_eq_true rfl)⟩
theorem sloopPar : ∀ a off, Statement (.sloopPar a off) := fun _ _ _ => ⟨_, rfl, SWord.declares _ (Nat.le_of_ble_eq_true rfl)⟩
theorem snext : ∀ off, Statement (.snext off) := fun _ _ => ⟨_, rfl, SWord.declares _ (Nat.le_of_ble_eq_true rfl)⟩
theorem convoyHeader : ∀ cnt units, Statement (.convoyHeader cnt units) := fun _ _ _ => ⟨_, rfl, page_declares32 _ (low_bits _ _ (by omega))⟩
theorem cAddi : ∀ d imm, Statement (.cAddi d imm) := fun _ _ _ => ⟨_, rfl, compact_declares _ (by rw [low_bits _ _ (by omega)]; decide)⟩
theorem cMv : ∀ d a, Statement (.cMv d a) := fun _ _ _ => ⟨_, rfl, compact_declares _ (by rw [low_bits _ _ (by omega)]; decide)⟩
theorem cLd : ∀ d a off, Statement (.cLd d a off) := fun _ _ _ _ => ⟨_, rfl, compact_declares _ (by rw [low_bits _ _ (by omega)]; decide)⟩
theorem cSt : ∀ b a off, Statement (.cSt b a off) := fun _ _ _ _ => ⟨_, rfl, compact_declares _ (by rw [low_bits _ _ (by omega)]; decide)⟩
theorem cBEq : ∀ a off, Statement (.cBEq a off) := fun _ _ _ => ⟨_, rfl, compact_declares _ (by rw [low_bits _ _ (by omega)]; decide)⟩
theorem cBNe : ∀ a off, Statement (.cBNe a off) := fun _ _ _ => ⟨_, rfl, compact_declares _ (by rw [low_bits _ _ (by omega)]; decide)⟩
theorem cJ : ∀ off, Statement (.cJ off) := fun _ _ => ⟨_, rfl, compact_declares _ (by rw [low_bits _ _ (by omega)]; decide)⟩
theorem cVadd : ∀ vx m, Statement (.cVadd vx m) := fun _ _ _ => ⟨_, rfl, compact_declares _ (by unfold cvWord; rw [low_bits _ _ (by omega)]; decide)⟩
theorem cVsub : ∀ vx m, Statement (.cVsub vx m) := fun _ _ _ => ⟨_, rfl, compact_declares _ (by unfold cvWord; rw [low_bits _ _ (by omega)]; decide)⟩
theorem cVmul : ∀ vx m, Statement (.cVmul vx m) := fun _ _ _ => ⟨_, rfl, compact_declares _ (by unfold cvWord; rw [low_bits _ _ (by omega)]; decide)⟩
theorem cVmulh : ∀ vx m, Statement (.cVmulh vx m) := fun _ _ _ => ⟨_, rfl, compact_declares _ (by unfold cvWord; rw [low_bits _ _ (by omega)]; decide)⟩
theorem cVdiv : ∀ vx m, Statement (.cVdiv vx m) := fun _ _ _ => ⟨_, rfl, compact_declares _ (by unfold cvWord; rw [low_bits _ _ (by omega)]; decide)⟩
theorem cVrem : ∀ vx m, Statement (.cVrem vx m) := fun _ _ _ => ⟨_, rfl, compact_declares _ (by unfold cvWord; rw [low_bits _ _ (by omega)]; decide)⟩
theorem cVmin : ∀ vx m, Statement (.cVmin vx m) := fun _ _ _ => ⟨_, rfl, compact_declares _ (by unfold cvWord; rw [low_bits _ _ (by omega)]; decide)⟩
theorem cVmax : ∀ vx m, Statement (.cVmax vx m) := fun _ _ _ => ⟨_, rfl, compact_declares _ (by unfold cvWord; rw [low_bits _ _ (by omega)]; decide)⟩
theorem cVand : ∀ vx m, Statement (.cVand vx m) := fun _ _ _ => ⟨_, rfl, compact_declares _ (by unfold cvWord; rw [low_bits _ _ (by omega)]; decide)⟩
theorem cVor : ∀ vx m, Statement (.cVor vx m) := fun _ _ _ => ⟨_, rfl, compact_declares _ (by unfold cvWord; rw [low_bits _ _ (by omega)]; decide)⟩
theorem cVxor : ∀ vx m, Statement (.cVxor vx m) := fun _ _ _ => ⟨_, rfl, compact_declares _ (by unfold cvWord; rw [low_bits _ _ (by omega)]; decide)⟩
theorem cVsll : ∀ vx m, Statement (.cVsll vx m) := fun _ _ _ => ⟨_, rfl, compact_declares _ (by unfold cvWord; rw [low_bits _ _ (by omega)]; decide)⟩
theorem cVsrl : ∀ vx m, Statement (.cVsrl vx m) := fun _ _ _ => ⟨_, rfl, compact_declares _ (by unfold cvWord; rw [low_bits _ _ (by omega)]; decide)⟩
theorem cVsra : ∀ vx m, Statement (.cVsra vx m) := fun _ _ _ => ⟨_, rfl, compact_declares _ (by unfold cvWord; rw [low_bits _ _ (by omega)]; decide)⟩
theorem vadd : ∀ o, Statement (.vadd o) := fun _ _ => ⟨_, rfl, VWord.declares _⟩
theorem vsub : ∀ o, Statement (.vsub o) := fun _ _ => ⟨_, rfl, VWord.declares _⟩
theorem vmul : ∀ o, Statement (.vmul o) := fun _ _ => ⟨_, rfl, VWord.declares _⟩
theorem vmulh : ∀ o, Statement (.vmulh o) := fun _ _ => ⟨_, rfl, VWord.declares _⟩
theorem vdiv : ∀ o, Statement (.vdiv o) := fun _ _ => ⟨_, rfl, VWord.declares _⟩
theorem vrem : ∀ o, Statement (.vrem o) := fun _ _ => ⟨_, rfl, VWord.declares _⟩
theorem vmin : ∀ o, Statement (.vmin o) := fun _ _ => ⟨_, rfl, VWord.declares _⟩
theorem vmax : ∀ o, Statement (.vmax o) := fun _ _ => ⟨_, rfl, VWord.declares _⟩
theorem vand : ∀ o, Statement (.vand o) := fun _ _ => ⟨_, rfl, VWord.declares _⟩
theorem vor : ∀ o, Statement (.vor o) := fun _ _ => ⟨_, rfl, VWord.declares _⟩
theorem vxor : ∀ o, Statement (.vxor o) := fun _ _ => ⟨_, rfl, VWord.declares _⟩
theorem vsll : ∀ o, Statement (.vsll o) := fun _ _ => ⟨_, rfl, VWord.declares _⟩
theorem vsrl : ∀ o, Statement (.vsrl o) := fun _ _ => ⟨_, rfl, VWord.declares _⟩
theorem vsra : ∀ o, Statement (.vsra o) := fun _ _ => ⟨_, rfl, VWord.declares _⟩
theorem vpopc : ∀ o, Statement (.vpopc o) := fun _ _ => ⟨_, rfl, VWord.declares _⟩
theorem vclz : ∀ o, Statement (.vclz o) := fun _ _ => ⟨_, rfl, VWord.declares _⟩
theorem vabs : ∀ o, Statement (.vabs o) := fun _ _ => ⟨_, rfl, VWord.declares _⟩
theorem vneg : ∀ o, Statement (.vneg o) := fun _ _ => ⟨_, rfl, VWord.declares _⟩
theorem vfma : ∀ o, Statement (.vfma o) := fun _ _ => ⟨_, rfl, VWord.declares _⟩
theorem vfms : ∀ o, Statement (.vfms o) := fun _ _ => ⟨_, rfl, VWord.declares _⟩
theorem vnfma : ∀ o, Statement (.vnfma o) := fun _ _ => ⟨_, rfl, VWord.declares _⟩
theorem vsqrt : ∀ o, Statement (.vsqrt o) := fun _ _ => ⟨_, rfl, VWord.declares _⟩
theorem vrcp : ∀ o, Statement (.vrcp o) := fun _ _ => ⟨_, rfl, VWord.declares _⟩
theorem vrsqrt : ∀ o, Statement (.vrsqrt o) := fun _ _ => ⟨_, rfl, VWord.declares _⟩
theorem vexp2 : ∀ o, Statement (.vexp2 o) := fun _ _ => ⟨_, rfl, VWord.declares _⟩
theorem vlog2 : ∀ o, Statement (.vlog2 o) := fun _ _ => ⟨_, rfl, VWord.declares _⟩
theorem vclass : ∀ o, Statement (.vclass o) := fun _ _ => ⟨_, rfl, VWord.declares _⟩
theorem vcvt : ∀ t o, Statement (.vcvt t o) := fun _ _ _ => ⟨_, rfl, VWord.declares _⟩
theorem vcmp : ∀ c md va vb mask, Statement (.vcmp c md va vb mask) := fun _ _ _ _ _ _ => ⟨_, rfl, VWord.declares _⟩
theorem vsel : ∀ vd va vb mask, Statement (.vsel vd va vb mask) := fun _ _ _ _ _ => ⟨_, rfl, VWord.declares _⟩
theorem mand : ∀ md ma mb, Statement (.mand md ma mb) := fun _ _ _ _ => ⟨_, rfl, VWord.declares _⟩
theorem mor : ∀ md ma mb, Statement (.mor md ma mb) := fun _ _ _ _ => ⟨_, rfl, VWord.declares _⟩
theorem mxor : ∀ md ma mb, Statement (.mxor md ma mb) := fun _ _ _ _ => ⟨_, rfl, VWord.declares _⟩
theorem mandn : ∀ md ma mb, Statement (.mandn md ma mb) := fun _ _ _ _ => ⟨_, rfl, VWord.declares _⟩
theorem mnot : ∀ md ma, Statement (.mnot md ma) := fun _ _ _ => ⟨_, rfl, VWord.declares _⟩
theorem mpop : ∀ sd ma mask, Statement (.mpop sd ma mask) := fun _ _ _ _ => ⟨_, rfl, VWord.declares _⟩
theorem mfirst : ∀ sd ma mask, Statement (.mfirst sd ma mask) := fun _ _ _ _ => ⟨_, rfl, VWord.declares _⟩
theorem mtolist : ∀ md ma, Statement (.mtolist md ma) := fun _ _ _ => ⟨_, rfl, VWord.declares _⟩
theorem mtobit : ∀ md ma, Statement (.mtobit md ma) := fun _ _ _ => ⟨_, rfl, VWord.declares _⟩
theorem mfromx : ∀ md va mask, Statement (.mfromx md va mask) := fun _ _ _ _ => ⟨_, rfl, VWord.declares _⟩
theorem vidx : ∀ vd start stp mask, Statement (.vidx vd start stp mask) := fun _ _ _ _ _ => ⟨_, rfl, VWord.declares _⟩
theorem vsplat : ∀ vd sa mask, Statement (.vsplat vd sa mask) := fun _ _ _ _ => ⟨_, rfl, VWord.declares _⟩
theorem vmv : ∀ vd va mask, Statement (.vmv vd va mask) := fun _ _ _ _ => ⟨_, rfl, VWord.declares _⟩
theorem vtag : ∀ t vd va, Statement (.vtag t vd va) := fun _ _ _ _ => ⟨_, rfl, VWord.declares _⟩
theorem vmvx : ∀ sd va sb, Statement (.vmvx sd va sb) := fun _ _ _ _ => ⟨_, rfl, VWord.declares _⟩
theorem vmvs : ∀ vd sa mask, Statement (.vmvs vd sa mask) := fun _ _ _ _ => ⟨_, rfl, VWord.declares _⟩
theorem vslideup : ∀ vd va sb sc mask, Statement (.vslideup vd va sb sc mask) := fun _ _ _ _ _ _ => ⟨_, rfl, VWord.declares _⟩
theorem vslidedn : ∀ vd va sb sc mask, Statement (.vslidedn vd va sb sc mask) := fun _ _ _ _ _ _ => ⟨_, rfl, VWord.declares _⟩
theorem vperm : ∀ vd va vb mask, Statement (.vperm vd va vb mask) := fun _ _ _ _ _ => ⟨_, rfl, VWord.declares _⟩
theorem vcompress : ∀ vd va mask, Statement (.vcompress vd va mask) := fun _ _ _ _ => ⟨_, rfl, VWord.declares _⟩
theorem vexpand : ∀ vd va mask, Statement (.vexpand vd va mask) := fun _ _ _ _ => ⟨_, rfl, VWord.declares _⟩
theorem vrev : ∀ vd va mask, Statement (.vrev vd va mask) := fun _ _ _ _ => ⟨_, rfl, VWord.declares _⟩
theorem vred : ∀ o, Statement (.vred o) := fun _ _ => ⟨_, rfl, VWord.declares _⟩
theorem vscan : ∀ o, Statement (.vscan o) := fun _ _ => ⟨_, rfl, VWord.declares _⟩
theorem vsegred : ∀ op vd va mc mask rm, Statement (.vsegred op vd va mc mask rm) := fun _ _ _ _ _ _ _ => ⟨_, rfl, VWord.declares _⟩
theorem vld : ∀ o, Statement (.vld o) := fun _ _ => ⟨_, rfl, VWord.declares _⟩
theorem vldff : ∀ o, Statement (.vldff o) := fun _ _ => ⟨_, rfl, VWord.declares _⟩
theorem vst : ∀ o, Statement (.vst o) := fun _ _ => ⟨_, rfl, VWord.declares _⟩
theorem vchg : ∀ o, Statement (.vchg o) := fun _ _ => ⟨_, rfl, VWord.declares _⟩
theorem vamo : ∀ op o, Statement (.vamo op o) := fun _ _ _ => ⟨_, rfl, VWord.declares _⟩
theorem vamoR : ∀ op o, Statement (.vamoR op o) := fun _ _ _ => ⟨_, rfl, VWord.declares _⟩
theorem vwait : ∀ va, Statement (.vwait va) := fun _ _ => ⟨_, rfl, VWord.declares _⟩
theorem vpres : ∀ md va, Statement (.vpres md va) := fun _ _ _ => ⟨_, rfl, VWord.declares _⟩
theorem svins : ∀ md va mask, Statement (.svins md va mask) := fun _ _ _ _ => ⟨_, rfl, VWord.declares _⟩
theorem svlook : ∀ vd mc va mask, Statement (.svlook vd mc va mask) := fun _ _ _ _ _ => ⟨_, rfl, VWord.declares _⟩
theorem svacc : ∀ md va vb mask, Statement (.svacc md va vb mask) := fun _ _ _ _ _ => ⟨_, rfl, VWord.declares _⟩
theorem svdrn : ∀ vd vb sa mask, Statement (.svdrn vd vb sa mask) := fun _ _ _ _ _ => ⟨_, rfl, VWord.declares _⟩
theorem svclr : ∀ sa sb, Statement (.svclr sa sb) := fun _ _ _ => ⟨_, rfl, VWord.declares _⟩
theorem mshape : ∀ c sd sa sb sc, Statement (.mshape c sd sa sb sc) := fun _ _ _ _ _ _ => ⟨_, rfl, VWord.declares _⟩
theorem mstep : ∀ sd, Statement (.mstep sd) := fun _ _ => ⟨_, rfl, VWord.declares _⟩
theorem fmpq : ∀ sd k hi, Statement (.fmpq sd k hi) := fun _ _ _ _ => ⟨_, rfl, VWord.declares _⟩
theorem mzero : ∀ t, Statement (.mzero t) := fun _ _ => ⟨_, rfl, VWord.declares _⟩
theorem mop : ∀ t va vb mask rm, Statement (.mop t va vb mask rm) := fun _ _ _ _ _ _ => ⟨_, rfl, VWord.declares _⟩
theorem mopn : ∀ t va vb mask rm, Statement (.mopn t va vb mask rm) := fun _ _ _ _ _ _ => ⟨_, rfl, VWord.declares _⟩
theorem mrd : ∀ col vd t sa mask, Statement (.mrd col vd t sa mask) := fun _ _ _ _ _ _ => ⟨_, rfl, VWord.declares _⟩
theorem mwr : ∀ col t va sb mask, Statement (.mwr col t va sb mask) := fun _ _ _ _ _ _ => ⟨_, rfl, VWord.declares _⟩
theorem mst : ∀ q t sa sb mask k rm sat, Statement (.mst q t sa sb mask k rm sat) := fun _ _ _ _ _ _ _ _ _ => ⟨_, rfl, VWord.declares _⟩
theorem vsend : ∀ nb f va k, Statement (.vsend nb f va k) := fun _ _ _ _ _ => ⟨_, rfl, VWord.declares _⟩
theorem vrecv : ∀ nb vd f k, Statement (.vrecv nb vd f k) := fun _ _ _ _ _ => ⟨_, rfl, VWord.declares _⟩
theorem qset : ∀ fmt q sa sb scq, Statement (.qset fmt q sa sb scq) := fun _ _ _ _ _ _ => ⟨_, rfl, VWord.declares _⟩
theorem qsetx : ∀ pol q vb sc, Statement (.qsetx pol q vb sc) := fun _ _ _ _ _ => ⟨_, rfl, VWord.declares _⟩
theorem qchain : ∀ pol q sa sb, Statement (.qchain pol q sa sb) := fun _ _ _ _ _ => ⟨_, rfl, VWord.declares _⟩
theorem qget : ∀ sd q quad, Statement (.qget sd q quad) := fun _ _ _ _ => ⟨_, rfl, VWord.declares _⟩
theorem kwait : ∀ k sa, Statement (.kwait k sa) := fun _ _ _ => ⟨_, rfl, VWord.declares _⟩
theorem kread : ∀ sd k, Statement (.kread sd k) := fun _ _ _ => ⟨_, rfl, VWord.declares _⟩
theorem kset : ∀ k sa, Statement (.kset k sa) := fun _ _ _ => ⟨_, rfl, VWord.declares _⟩
theorem kadd : ∀ k sa, Statement (.kadd k sa) := fun _ _ _ => ⟨_, rfl, VWord.declares _⟩
theorem fsbindPeer : ∀ sealed f sa sb, Statement (.fsbindPeer sealed f sa sb) := fun _ _ _ _ _ => ⟨_, rfl, VWord.declares _⟩
theorem fsbindGroup : ∀ f j, Statement (.fsbindGroup f j) := fun _ _ _ => ⟨_, rfl, VWord.declares _⟩
theorem fsfree : ∀ f, Statement (.fsfree f) := fun _ _ => ⟨_, rfl, VWord.declares _⟩
theorem cbar : ∀ sd, Statement (.cbar sd) := fun _ _ => ⟨_, rfl, VWord.declares _⟩
theorem collectiveVst : ∀ o, Statement (.collectiveVst o) := fun _ _ => ⟨_, rfl, VWord.declares _⟩
theorem collectiveVld : ∀ o, Statement (.collectiveVld o) := fun _ _ => ⟨_, rfl, VWord.declares _⟩
theorem rwo : ∀ slot sa sb, Statement (.rwo slot sa sb) := fun _ _ _ _ => ⟨_, rfl, LWord.declares _⟩
theorem rwc : ∀ slot, Statement (.rwc slot) := fun _ _ => ⟨_, rfl, VWord.declares _⟩
theorem cpy : ∀ qa qb sa k, Statement (.cpy qa qb sa k) := fun _ _ _ _ _ => ⟨_, rfl, LWord.declares _⟩
theorem cpyff : ∀ sd qa qb sa k, Statement (.cpyff sd qa qb sa k) := fun _ _ _ _ _ _ => ⟨_, rfl, LWord.declares _⟩
theorem fmp : ∀ sa k, Statement (.fmp sa k) := fun _ _ _ => ⟨_, rfl, LWord.declares _⟩
theorem cgsel : ∀ sd j, Statement (.cgsel sd j) := fun _ _ _ => ⟨_, rfl, VWord.declares _⟩
theorem cjoin : ∀ sd j sa sb, Statement (.cjoin sd j sa sb) := fun _ _ _ _ _ => ⟨_, rfl, VWord.declares _⟩
theorem cleave : ∀ j, Statement (.cleave j) := fun _ _ => ⟨_, rfl, VWord.declares _⟩
theorem cstat : ∀ sd j, Statement (.cstat sd j) := fun _ _ _ => ⟨_, rfl, VWord.declares _⟩
theorem sqpost : ∀ sd sa sb sc k, Statement (.sqpost sd sa sb sc k) := fun _ _ _ _ _ _ => ⟨_, rfl, VWord.declares _⟩
theorem sqstat : ∀ sd sa, Statement (.sqstat sd sa) := fun _ _ _ => ⟨_, rfl, VWord.declares _⟩
theorem rpost : ∀ sa sb k, Statement (.rpost sa sb k) := fun _ _ _ _ => ⟨_, rfl, LWord.declares _⟩
theorem rarm : ∀ sa sb k, Statement (.rarm sa sb k) := fun _ _ _ _ => ⟨_, rfl, LWord.declares _⟩
theorem ifence : Statement .ifence := fun _ => ⟨_, rfl, SWord.declares _ (Nat.le_of_ble_eq_true rfl)⟩
theorem tclrCt : Statement .tclrCt := fun _ => ⟨_, rfl, SWord.declares _ (Nat.le_of_ble_eq_true rfl)⟩
theorem gtrig : Statement .gtrig := fun _ => ⟨_, rfl, SWord.declares _ (Nat.le_of_ble_eq_true rfl)⟩
theorem gbar : Statement .gbar := fun _ => ⟨_, rfl, SWord.declares _ (Nat.le_of_ble_eq_true rfl)⟩
theorem gyield : Statement .gyield := fun _ => ⟨_, rfl, SWord.declares _ (Nat.le_of_ble_eq_true rfl)⟩
theorem gexit : Statement .gexit := fun _ => ⟨_, rfl, SWord.declares _ (Nat.le_of_ble_eq_true rfl)⟩
theorem sys : Statement .sys := fun _ => ⟨_, rfl, SWord.declares _ (Nat.le_of_ble_eq_true rfl)⟩
theorem brk : Statement .brk := fun _ => ⟨_, rfl, SWord.declares _ (Nat.le_of_ble_eq_true rfl)⟩
theorem sret : Statement .sret := fun _ => ⟨_, rfl, SWord.declares _ (Nat.le_of_ble_eq_true rfl)⟩
theorem mwait : Statement .mwait := fun _ => ⟨_, rfl, VWord.declares _⟩
theorem cabort : Statement .cabort := fun _ => ⟨_, rfl, VWord.declares _⟩
theorem trapEntry : ∀ h, Statement (.trapEntry h) := fun _ h => nomatch h
theorem issueWaitEnd : ∀ h, Statement (.issueWaitEnd h) := fun _ h => nomatch h
theorem hartResume : ∀ h, Statement (.hartResume h) := fun _ h => nomatch h
theorem gyieldExpiry : ∀ h, Statement (.gyieldExpiry h) := fun _ h => nomatch h
theorem elementGroupArrival : ∀ h v g, Statement (.elementGroupArrival h v g) := fun _ _ _ h => nomatch h
theorem loadPerformed : ∀ h i, Statement (.loadPerformed h i) := fun _ _ h => nomatch h
theorem tagRetire : ∀ h t, Statement (.tagRetire h t) := fun _ _ h => nomatch h
theorem storeAcknowledge : ∀ h i, Statement (.storeAcknowledge h i) := fun _ _ h => nomatch h
theorem homeAccess : ∀ h i, Statement (.homeAccess h i) := fun _ _ h => nomatch h
theorem atomicAtHome : ∀ h i, Statement (.atomicAtHome h i) := fun _ _ h => nomatch h
theorem rruAtomic : ∀ h i, Statement (.rruAtomic h i) := fun _ _ h => nomatch h
theorem vectorAtomicUpdate : ∀ h i, Statement (.vectorAtomicUpdate h i) := fun _ _ h => nomatch h
theorem trainApply : ∀ h t, Statement (.trainApply h t) := fun _ _ h => nomatch h
theorem trainAcknowledge : ∀ h t, Statement (.trainAcknowledge h t) := fun _ _ h => nomatch h
theorem nbComplete : ∀ h c, Statement (.nbComplete h c) := fun _ _ h => nomatch h
theorem copyComplete : ∀ h c, Statement (.copyComplete h c) := fun _ _ h => nomatch h
theorem fullerComplete : ∀ h c, Statement (.fullerComplete h c) := fun _ _ h => nomatch h
theorem mstComplete : ∀ h c, Statement (.mstComplete h c) := fun _ _ h => nomatch h
theorem tlbMissWalk : ∀ w, Statement (.tlbMissWalk w) := fun _ h => nomatch h
theorem translationHint : ∀ w, Statement (.translationHint w) := fun _ h => nomatch h
theorem shootdownRequest : ∀ pkg, Statement (.shootdownRequest pkg) := fun _ h => nomatch h
theorem shootdownAcknowledge : ∀ pkg, Statement (.shootdownAcknowledge pkg) := fun _ h => nomatch h
theorem messagePacketArrive : ∀ m packet, Statement (.messagePacketArrive m packet) := fun _ _ h => nomatch h
theorem collectiveContributionArrive : ∀ g rank pkg, Statement (.collectiveContributionArrive g rank pkg) := fun _ _ _ h => nomatch h
theorem collectiveCommit : ∀ g, Statement (.collectiveCommit g) := fun _ h => nomatch h
theorem abort : ∀ g cause at_, Statement (.abort g cause at_) := fun _ _ _ h => nomatch h
theorem lagLimitExpiry : ∀ g, Statement (.lagLimitExpiry g) := fun _ h => nomatch h
theorem circuitPacketSend : ∀ pkg dest, Statement (.circuitPacketSend pkg dest) := fun _ _ h => nomatch h
theorem circuitPayloadPlace : ∀ pkg post payload, Statement (.circuitPayloadPlace pkg post payload) := fun _ _ _ h => nomatch h
theorem postComplete : ∀ pkg post, Statement (.postComplete pkg post) := fun _ _ h => nomatch h
theorem slotStart : ∀ pkg slot, Statement (.slotStart pkg slot) := fun _ _ h => nomatch h
theorem switchChange : ∀ pkg, Statement (.switchChange pkg) := fun _ h => nomatch h
theorem rotstart : ∀ pkg rot epoch, Statement (.rotstart pkg rot epoch) := fun _ _ _ h => nomatch h
theorem rotationTimeout : ∀ pkg, Statement (.rotationTimeout pkg) := fun _ h => nomatch h
theorem setup : ∀ pkg c, Statement (.setup pkg c) := fun _ _ h => nomatch h
theorem circuitAck : ∀ pkg num, Statement (.circuitAck pkg num) := fun _ _ h => nomatch h
theorem busy : ∀ pkg num, Statement (.busy pkg num) := fun _ _ h => nomatch h
theorem teardown : ∀ pkg num, Statement (.teardown pkg num) := fun _ _ h => nomatch h
theorem setupRetry : ∀ pkg num, Statement (.setupRetry pkg num) := fun _ _ h => nomatch h
theorem slotTableLoad : ∀ pkg, Statement (.slotTableLoad pkg) := fun _ h => nomatch h
theorem flitReceive : ∀ l f, Statement (.flitReceive l f) := fun _ _ h => nomatch h
theorem nak : ∀ l lseq, Statement (.nak l lseq) := fun _ _ h => nomatch h
theorem propose : ∀ l mode epoch, Statement (.propose l mode epoch) := fun _ _ _ h => nomatch h
theorem fecAck : ∀ l epoch, Statement (.fecAck l epoch) := fun _ _ h => nomatch h
theorem proposeRepeat : ∀ l, Statement (.proposeRepeat l) := fun _ h => nomatch h
theorem fecThresholdCrossed : ∀ l, Statement (.fecThresholdCrossed l) := fun _ h => nomatch h
theorem fecQuietExpiry : ∀ l, Statement (.fecQuietExpiry l) := fun _ h => nomatch h
theorem portPlanChange : ∀ pkg port, Statement (.portPlanChange pkg port) := fun _ _ h => nomatch h
theorem colourTrained : ∀ l, Statement (.colourTrained l) := fun _ h => nomatch h
theorem colourDrained : ∀ l, Statement (.colourDrained l) := fun _ h => nomatch h
theorem pathTimeout : ∀ pkg dest, Statement (.pathTimeout pkg dest) := fun _ _ h => nomatch h
theorem laneRemap : ∀ l, Statement (.laneRemap l) := fun _ h => nomatch h
theorem transportPacketReceive : ∀ pkg p, Statement (.transportPacketReceive pkg p) := fun _ _ h => nomatch h
theorem transportAcknowledge : ∀ pkg conn cum sel, Statement (.transportAcknowledge pkg conn cum sel) := fun _ _ _ _ h => nomatch h
theorem retransmitTimeout : ∀ pkg conn psn, Statement (.retransmitTimeout pkg conn psn) := fun _ _ _ h => nomatch h
theorem notready : ∀ pkg conn psn delay, Statement (.notready pkg conn psn delay) := fun _ _ _ _ h => nomatch h
theorem contextFetchComplete : ∀ pkg conn, Statement (.contextFetchComplete pkg conn) := fun _ _ h => nomatch h
theorem rekey : ∀ pkg conn, Statement (.rekey pkg conn) := fun _ _ h => nomatch h
theorem workRequestComplete : ∀ pkg req code, Statement (.workRequestComplete pkg req code) := fun _ _ _ h => nomatch h
theorem ethernetFrameReceive : ∀ pkg port f, Statement (.ethernetFrameReceive pkg port f) := fun _ _ _ h => nomatch h
theorem recordAccept : ∀ pkg q, Statement (.recordAccept pkg q) := fun _ _ h => nomatch h
theorem gangPlace : ∀ pkg q, Statement (.gangPlace pkg q) := fun _ _ h => nomatch h
theorem preemptVictims : ∀ pkg q, Statement (.preemptVictims pkg q) := fun _ _ h => nomatch h
theorem graceExpiry : ∀ h, Statement (.graceExpiry h) := fun _ h => nomatch h
theorem forcedHartEnd : ∀ h, Statement (.forcedHartEnd h) := fun _ h => nomatch h
theorem quotaReturn : ∀ pkg gang, Statement (.quotaReturn pkg gang) := fun _ _ h => nomatch h
theorem gangTrigger : ∀ pkg gang, Statement (.gangTrigger pkg gang) := fun _ _ h => nomatch h
theorem gangEnd : ∀ pkg gang, Statement (.gangEnd pkg gang) := fun _ _ h => nomatch h
theorem queueTailWrite : ∀ pkg q value, Statement (.queueTailWrite pkg q value) := fun _ _ _ h => nomatch h
theorem sieveRecarve : ∀ pkg core, Statement (.sieveRecarve pkg core) := fun _ _ h => nomatch h
theorem packageReset : ∀ pkg, Statement (.packageReset pkg) := fun _ h => nomatch h
theorem go : ∀ pkg, Statement (.go pkg) := fun _ h => nomatch h
theorem mailboxPoll : ∀ pkg, Statement (.mailboxPoll pkg) := fun _ h => nomatch h
theorem fwload : ∀ pkg ring, Statement (.fwload pkg ring) := fun _ _ h => nomatch h
theorem pcreate : ∀ pkg ring, Statement (.pcreate pkg ring) := fun _ _ h => nomatch h
theorem ptear : ∀ pkg ring, Statement (.ptear pkg ring) := fun _ _ h => nomatch h
theorem partitionRelease : ∀ pkg part, Statement (.partitionRelease pkg part) := fun _ _ h => nomatch h
theorem ecreate : ∀ pkg ring, Statement (.ecreate pkg ring) := fun _ _ h => nomatch h
theorem ejoin : ∀ pkg ring, Statement (.ejoin pkg ring) := fun _ _ h => nomatch h
theorem report : ∀ pkg ring, Statement (.report pkg ring) := fun _ _ h => nomatch h
theorem erevoke : ∀ pkg ring, Statement (.erevoke pkg ring) := fun _ _ h => nomatch h
theorem revocationApply : ∀ pkg enclave member epoch, Statement (.revocationApply pkg enclave member epoch) := fun _ _ _ _ h => nomatch h
theorem lcs : ∀ pkg ring, Statement (.lcs pkg ring) := fun _ _ h => nomatch h
theorem powerGrantInterval : ∀ pkg demand, Statement (.powerGrantInterval pkg demand) := fun _ _ h => nomatch h
theorem railDroop : ∀ pkg, Statement (.railDroop pkg) := fun _ h => nomatch h
theorem thermalTrip : ∀ pkg, Statement (.thermalTrip pkg) := fun _ h => nomatch h
theorem thermalRecover : ∀ pkg, Statement (.thermalRecover pkg) := fun _ h => nomatch h
theorem uncorrectableError : ∀ pkg u addr, Statement (.uncorrectableError pkg u addr) := fun _ _ _ h => nomatch h
theorem correctedSummary : ∀ pkg die, Statement (.correctedSummary pkg die) := fun _ _ h => nomatch h
theorem hostLinkTraining : ∀ pkg rate, Statement (.hostLinkTraining pkg rate) := fun _ _ h => nomatch h
theorem registerWrite : ∀ pkg r v, Statement (.registerWrite pkg r v) := fun _ _ _ h => nomatch h
theorem lossOfLight : ∀ l, Statement (.lossOfLight l) := fun _ h => nomatch h
theorem remapEnd : ∀ pkg port, Statement (.remapEnd pkg port) := fun _ _ h => nomatch h
theorem notReadyAnswer : ∀ m, Statement (.notReadyAnswer m) := fun _ h => nomatch h
theorem rankDeparture : ∀ handle rank, Statement (.rankDeparture handle rank) := fun _ _ h => nomatch h

end Sys2Proof.Laws.Word
end

