-- ==== Sys2Proof/Laws/Sound.lean ====
section
/-! SUPPORT. The shared operations keep memory in its canonical form: one lemma for each. A result that stops holds a
state too, the one in which its trap is taken. -/

namespace Sys2Proof.Machine

/-- The state that a stop carries has its memory in canonical form. -/
def Stop.Keeps : Stop → Prop
  | .trap _ s => Memory.wf s.mem = true
  | .hold _ | .fault _ => True

/-- The memory in a result, which `f` finds, is in canonical form. -/
def Keeps {α : Type} (f : α → List Host.Cell) : Except Stop α → Prop
  | .ok x => Memory.wf (f x) = true
  | .error e => e.Keeps

/-- The next state of an outcome has its memory in canonical form. -/
def OutKeeps : Host.Outcome State Fault Refusal → Prop
  | .next t => Memory.wf t.mem = true
  | _ => True

@[simp] theorem Stop.keeps_hold (w : Wait) : (Stop.hold w).Keeps := trivial
@[simp] theorem Stop.keeps_fault (x : Fault) : (Stop.fault x).Keeps := trivial
@[simp] theorem Stop.keeps_trap (t : Trap) (s : State) : (Stop.trap t s).Keeps ↔ Memory.wf s.mem = true := Iff.rfl
@[simp] theorem keeps_ok {α : Type} (f : α → List Host.Cell) (x : α) : Keeps f (.ok x) ↔ Memory.wf (f x) = true := Iff.rfl
@[simp] theorem keeps_error {α : Type} (f : α → List Host.Cell) (e : Stop) : Keeps f (.error e) ↔ e.Keeps := Iff.rfl
@[simp] theorem outKeeps_next (t : State) : OutKeeps (.next t) ↔ Memory.wf t.mem = true := Iff.rfl
@[simp] theorem outKeeps_fault (x : Fault) : OutKeeps (.fault x) := trivial
@[simp] theorem outKeeps_refused (x : Refusal) : OutKeeps (.refused x) := trivial

/-- Sequencing: the second part is given a state whose memory is in canonical form. -/
theorem Keeps.bind {α β : Type} {f : α → List Host.Cell} {g : β → List Host.Cell} {r : Except Stop α} {k : α → Except Stop β}
    (h : Keeps f r) (hk : ∀ x, r = .ok x → Memory.wf (f x) = true → Keeps g (k x)) : Keeps g (r >>= k) := by
  cases r with
  | error e => exact h
  | ok x => exact hk x rfl h

/-! ### Named operations (Machine/Ops.lean) -/

variable {s : State}

@[simp] theorem State.onHart_mem (s : State) (r : HartRef) (f : Hart → Hart) : (s.onHart r f).mem = s.mem := by
  unfold State.onHart; split <;> rfl

@[simp] theorem State.focus_mem (s : State) (r : HartRef) : (s.focus r).mem = s.mem := by
  unfold State.focus; split
  · rfl
  · split <;> rfl

theorem State.withHart_wf (w : Memory.wf s.mem = true) (r : HartRef) {f : State → State}
    (hf : ∀ t : State, Memory.wf t.mem = true → Memory.wf (f t).mem = true) : Memory.wf (s.withHart r f).mem = true := by
  unfold State.withHart; split
  · exact w
  · rw [State.focus_mem]; exact hf _ (by rwa [State.focus_mem])

theorem foldl_onHart_mem (c : Quad) : ∀ (l : List Waiter) (s : State),
    (l.foldl (fun t w => t.onHart w.hart (Hart.wake c)) s).mem = s.mem
  | [], _ => rfl
  | _ :: r, _ => (foldl_onHart_mem c r _).trans (State.onHart_mem ..)

@[simp] theorem State.wakeLine_mem (s : State) (line n : Nat) : (s.wakeLine line n).1.mem = s.mem := foldl_onHart_mem ..

@[simp] theorem State.ringAppend_wf (w : Memory.wf s.mem = true) (blk base lo hi : Nat) (r : List Quad) :
    Memory.wf (s.ringAppend blk base lo hi r).mem = true := by
  unfold State.ringAppend; dsimp only; split
  · exact w
  · rw [State.wakeLine_mem]; dsimp only; split <;> simp [w]

@[simp] theorem State.logFail_wf (w : Memory.wf s.mem = true) (h : Hart) (f : Fail) (p : Bool) (k : AccKind) :
    Memory.wf (s.logFail h f p k).mem = true := by
  unfold State.logFail; split
  · exact w
  · split
    · exact w
    · exact State.ringAppend_wf w ..

@[simp] theorem State.raise_keeps (w : Memory.wf s.mem = true) (h : Hart) (k : AccKind) (e : Fail ⊕ Fault) :
    (s.raise h k e).Keeps := by
  unfold State.raise; split
  · trivial
  · exact State.logFail_wf w ..

/-- A failed check leaves memory canonical. -/
theorem State.resolve_error (w : Memory.wf s.mem = true) {a : Quad} {n : Nat} {k : AccKind} {r : SpaceRule} {e : Stop}
    (h : s.resolve a n k r = .error e) : e.Keeps := by
  unfold State.resolve at h; split at h
  · cases h
  · cases h; exact State.raise_keeps w ..

@[simp] theorem insnTrap_keeps (w : Memory.wf s.mem = true) (c : Byte) : (insnTrap s c).Keeps := w
@[simp] theorem addrTrap_keeps (w : Memory.wf s.mem = true) (c : Byte) (a : Quad) : (addrTrap s c a).Keeps := w
@[simp] theorem illegal_keeps (w : Memory.wf s.mem = true) : (illegal s).Keeps := w

@[simp] theorem State.store_wf (w : Memory.wf s.mem = true) (a n x : Nat) (c : Bool) : Memory.wf (s.store a n x c).mem = true :=
  State.put_wf _ _ _ w

@[simp] theorem State.applyAccess_wf (w : Memory.wf s.mem = true) (a : Access) (fwd : Option Nat) :
    Memory.wf (s.applyAccess a fwd).mem = true := by
  unfold State.applyAccess; dsimp only
  split
  · exact w
  · exact w
  · split <;> exact w
  · exact State.store_wf w ..
  · exact State.store_wf w ..
  · exact State.store_wf w _ _ _ false
  · rw [State.setHart_mem]; split
    · exact State.store_wf w ..
    · exact w
  · split <;> exact State.store_wf w _ _ _ false
  · split <;> exact State.store_wf w _ _ _ false

@[simp] theorem State.performAt_wf (w : Memory.wf s.mem = true) (i : Nat) : Memory.wf (s.performAt i).mem = true := by
  unfold State.performAt; split
  · exact w
  · split
    · exact w
    · split
      · exact w
      · dsimp only; split
        · exact w
        · exact State.applyAccess_wf w ..

theorem drainUntilGo_wf (p : Access → Bool) : ∀ (n : Nat) {s : State}, Memory.wf s.mem = true →
    Memory.wf (drainUntilGo p n s).mem = true
  | 0, _, w => w
  | n + 1, s, w => by
    unfold drainUntilGo; split
    · split
      · exact drainUntilGo_wf p n (State.performAt_wf w _)
      · exact w
    · exact w

@[simp] theorem State.drain_wf (w : Memory.wf s.mem = true) : Memory.wf s.drain.mem = true := by
  unfold State.drain; split; exact w; exact drainUntilGo_wf _ _ w
@[simp] theorem State.drainUntil_wf (w : Memory.wf s.mem = true) (p : Access → Bool) : Memory.wf (s.drainUntil p).mem = true :=
  drainUntilGo_wf p _ w
@[simp] theorem State.needS_wf (w : Memory.wf s.mem = true) (rs : List SReg) : Memory.wf (s.needS rs).mem = true := by
  unfold State.needS; split; exact State.drain_wf w; exact w
@[simp] theorem State.needV_wf (w : Memory.wf s.mem = true) (rs : List VReg) : Memory.wf (s.needV rs).mem = true := by
  unfold State.needV; split; exact State.drain_wf w; exact w
@[simp] theorem State.settle_keeps (w : Memory.wf s.mem = true) (t : TaintSet) : Keeps State.mem (s.settle t) := by
  unfold State.settle; split
  · exact w
  · dsimp only; split
    · trivial
    · exact State.drain_wf w

@[simp] theorem State.lsync_keeps (w : Memory.wf s.mem = true) (sc : Scope) : Keeps State.mem (s.lsync sc) := by
  have k : Memory.wf (if sc = .g then s.drain else s.drainUntil fun a => decide (s.hart.rankOf a.slice ≤ Scope.rank sc)).mem
      = true := by
    split
    · exact State.drain_wf w
    · exact State.drainUntil_wf w _
  unfold State.lsync; dsimp only; split
  · trivial
  · refine iteInduction (fun _ => trivial) fun _ => k

@[simp] theorem State.unpark_mem (s : State) : s.unpark.mem = s.mem := by unfold State.unpark; split <;> rfl

@[simp] theorem State.orphanShoots_mem (s : State) : s.orphanShoots.mem = s.mem := by
  unfold State.orphanShoots; dsimp only; split <;> rfl

@[simp] theorem State.machineCheck_wf (w : Memory.wf s.mem = true) (pkg addr kind unit count : Nat) (asid : BitVec 16) :
    Memory.wf (s.machineCheck pkg addr kind unit count asid).mem = true := by
  unfold State.machineCheck; split
  · exact w
  · exact State.ringAppend_wf w ..

@[simp] theorem State.noteTrap_wf (w : Memory.wf s.mem = true) (t : Trap) : Memory.wf (s.noteTrap t).mem = true := by
  unfold State.noteTrap; split
  · exact w
  · split
    · exact State.machineCheck_wf w ..
    · exact w

/-- Taking a trap (R330). -/
@[simp] theorem State.takeTrap_wf (w : Memory.wf s.mem = true) (t : Trap) : Memory.wf (s.takeTrap t).mem = true := by
  unfold State.takeTrap
  exact State.drain_wf (by rw [State.mapHart_mem, State.orphanShoots_mem, State.unpark_mem]; exact State.noteTrap_wf w t)

/-- The outcome of an instruction. -/
theorem finish_keeps (w : Memory.wf s.mem = true) {r : Except Stop State} (h : Keeps State.mem r) : OutKeeps (finish s r) := by
  unfold finish; split
  · exact h
  · exact State.takeTrap_wf h _
  · exact w
  · trivial

end Sys2Proof.Machine
end

