-- ==== Sys2Proof/Laws/SoundOps.lean ====
section
/-! SUPPORT. The shared operations of the instruction families and of the other agents keep memory in its canonical
form: one lemma for each. -/

namespace Sys2Proof.Machine
variable {s : State}

/-! ### Scalar instructions -/

theorem Keeps.ite {α : Type} {f : α → List Host.Cell} {c : Prop} [Decidable c] {x y : Except Stop α} (hx : Keeps f x)
    (hy : Keeps f y) : Keeps f (if c then x else y) := by split <;> assumption

theorem State.scalar_keeps (w : Memory.wf s.mem = true) (n : Nat) (rs : List SReg) (f : Hart → Hart) : OutKeeps (s.scalar n rs f) :=
  State.needS_wf w rs
theorem State.op2_keeps (w : Memory.wf s.mem = true) (n : Nat) (f : Quad → Quad → Quad) (d a b : SReg) :
    OutKeeps (s.op2 n f d a b) := State.scalar_keeps w ..
theorem State.op1_keeps (w : Memory.wf s.mem = true) (n : Nat) (f : Quad → Quad) (d a : SReg) : OutKeeps (s.op1 n f d a) :=
  State.scalar_keeps w ..
theorem State.op0_keeps (w : Memory.wf s.mem = true) (n : Nat) (f : Hart → Quad) (d : SReg) : OutKeeps (s.op0 n f d) :=
  State.scalar_keeps w ..
theorem State.branch_keeps (w : Memory.wf s.mem = true) (n : Nat) (rs : List SReg) (t : Quad) (f : Hart → Bool) :
    OutKeeps (s.branch n rs t f) := State.needS_wf w rs
theorem State.jumpReg_keeps (w : Memory.wf s.mem = true) (a : SReg) (l : Option SReg) : OutKeeps (s.jumpReg a l) := by
  unfold State.jumpReg; dsimp only; split
  · exact State.takeTrap_wf (State.needS_wf w _) _
  · exact State.needS_wf w _
theorem State.jump_keeps (w : Memory.wf s.mem = true) (t : Quad) (l : Bool) : OutKeeps (s.jump t l) := by
  unfold State.jump; dsimp only; split
  · exact State.needS_wf w _
  · exact w

@[simp] theorem State.rounding_keeps (w : Memory.wf s.mem = true) (rm : RMode) : Keeps (fun _ => s.mem) (s.rounding rm) := by
  unfold State.rounding; split <;> exact w
@[simp] theorem State.roundingFor_keeps (w : Memory.wf s.mem = true) (t : Tag) (rm : RMode) :
    Keeps (fun _ => s.mem) (s.roundingFor t rm) := by unfold State.roundingFor; split; exact State.rounding_keeps w rm; exact w
@[simp] theorem State.storeRounding_keeps (w : Memory.wf s.mem = true) (t : Tag) (m : MemFmt) (rm : RMode) :
    Keeps (fun _ => s.mem) (s.storeRounding t m rm) := by unfold State.storeRounding; split; exact State.rounding_keeps w rm; exact w

theorem State.fpRound_keeps (w : Memory.wf s.mem = true) (rm : RMode) (d : SReg) (l : List SReg) (f : Rnd → Hart → FRes) :
    OutKeeps (s.fpRound rm d l f) := by
  refine finish_keeps w ?_
  have h := State.rounding_keeps w rm
  revert h; cases s.rounding rm with
  | error e => exact id
  | ok r => intro _; exact State.needS_wf w _
theorem State.fpPlain_keeps (w : Memory.wf s.mem = true) (d : SReg) (l : List SReg) (f : Hart → FRes) : OutKeeps (s.fpPlain d l f) :=
  State.needS_wf w _

/-! ### Memory instructions -/

@[simp] theorem State.issueTagged_mem (s : State) (l : Loc) (n : Nat) (op : AccOp) (d : SReg) (a b : TaintSet) :
    (s.issueTagged l n op d a b).mem = s.mem := rfl

@[simp] theorem State.awaitRange_keeps (w : Memory.wf s.mem = true) (a n : Nat) (b : Bool) :
    Keeps (fun _ => s.mem) (s.awaitRange a n b) := by
  unfold State.awaitRange; split
  · trivial
  · exact w
@[simp] theorem State.awaitTurn_keeps (w : Memory.wf s.mem = true) (a n : Nat) (b : Bool) :
    Keeps (fun _ => s.mem) (s.awaitTurn a n b) := by
  unfold State.awaitTurn; split
  · trivial
  · exact State.awaitRange_keeps w ..

/-- A check of an address, and what follows it. -/
theorem resolve_bind (w : Memory.wf s.mem = true) {α : Type} {g : α → List Host.Cell} {a : Quad} {n : Nat} {k : AccKind}
    {r : SpaceRule} {f : Loc → Except Stop α} (hf : ∀ l, Keeps g (f l)) :
    Keeps g (match s.resolve a n k r with
      | .error e => .error e
      | .ok l => f l) := by
  split
  · next h => exact State.resolve_error w h
  · exact hf _

/-- A check of an address that is read, and what follows it. -/
theorem resolveRead_bind (w : Memory.wf s.mem = true) {α : Type} {g : α → List Host.Cell} {a : Quad} {n : Nat} {k : AccKind}
    {r : SpaceRule} {f : Loc → State → Except Stop α} (hf : ∀ l (t : State), Memory.wf t.mem = true → Keeps g (f l t)) :
    Keeps g (match s.resolveRead a n k r with
      | .error e => .error e
      | .ok (l, t) => f l t) := by
  unfold State.resolveRead
  cases s.check19 s.hart s.hart.asid a n k r with
  | error e => exact State.raise_keeps w ..
  | ok l =>
    dsimp only
    have ht := State.awaitTurn_keeps w (s.hart.canon a) n (k == .atomic)
    revert ht; cases s.awaitTurn (s.hart.canon a) n (k == .atomic) with
    | error e => exact id
    | ok _ =>
      intro _; dsimp only
      cases s.poisoned l.phys with
      | false => exact hf _ _ w
      | true =>
        rw [if_neg (by simp)]
        cases hd : s.drain.resolve a n k r with
        | error e => exact State.resolve_error (State.drain_wf w) hd
        | ok l' => exact hf _ _ (State.drain_wf w)

theorem await_bind (w : Memory.wf s.mem = true) {α : Type} {g : α → List Host.Cell} {a n : Nat} {b : Bool} {r : Except Stop α}
    (hr : Keeps g r) : Keeps g (match s.awaitTurn a n b with
      | .error e => .error e
      | .ok _ => r) := by
  have h := State.awaitTurn_keeps w a n b
  revert h; cases s.awaitTurn a n b with
  | error e => exact id
  | ok _ => exact fun _ => hr

theorem State.load_keeps (w : Memory.wf s.mem = true) (len n : Nat) (sg c : Bool) (d a : SReg) (off : Quad) :
    OutKeeps (s.load len n sg c d a off) := by
  have w' := State.needS_wf w [d, a]
  exact finish_keeps w' (resolveRead_bind w' fun l t h => h)
theorem State.storeReg_keeps (w : Memory.wf s.mem = true) (len n : Nat) (d a : SReg) (off : Quad) :
    OutKeeps (s.storeReg len n d a off) := by
  have w' := State.needS_wf w [d, a]
  refine finish_keeps w' (resolve_bind w' fun l => await_bind w' ?_)
  exact w'
theorem State.atomic_keeps (w : Memory.wf s.mem = true) (wd : AmoWidth) (d a b : SReg) (op : Hart → AccOp) (held : Hart → TaintSet) :
    OutKeeps (s.atomic wd d a b op held) := by
  have w' := State.needS_wf w [d, a, b]
  exact finish_keeps w' (resolveRead_bind w' fun l t h => h)
theorem State.amo_keeps (w : Memory.wf s.mem = true) (op : AmoOp) (wd : AmoWidth) (d a b : SReg) : OutKeeps (s.amo op wd d a b) :=
  State.atomic_keeps w ..

/-! ### CSRs -/

@[simp] theorem State.csrPut_wf (w : Memory.wf s.mem = true) (n : BitVec 12) (v : Quad) : Memory.wf (s.csrPut n v).mem = true := by
  unfold State.csrPut; dsimp only; split <;> try exact w
  split
  · exact Memory.wf_writeQuad _ _ w
  · exact w
@[simp] theorem State.csrClear_mem (s : State) (n : BitVec 12) (v : Quad) : (s.csrClear n v).mem = s.mem := by
  unfold State.csrClear; split <;> rfl
theorem State.csr_keeps (w : Memory.wf s.mem = true) (d : SReg) (n : BitVec 12) (op : Option (CsrOp × SReg)) :
    OutKeeps (s.csr d n op) := by
  refine finish_keeps w ?_
  split
  · exact w
  · split
    · trivial
    · dsimp only
      have w' : Memory.wf (if csrWaits n then (s.needS (d :: (op.map (·.2)).toList)).drain
          else s.needS (d :: (op.map (·.2)).toList)).mem = true := by
        split
        · exact State.drain_wf (State.needS_wf w _)
        · exact State.needS_wf w _
      revert w'; generalize (if csrWaits n then (s.needS (d :: (op.map (·.2)).toList)).drain
          else s.needS (d :: (op.map (·.2)).toList)) = u
      intro w'; split
      · trivial
      · split
        · exact w'
        · simp only [keeps_ok, State.done_mem, State.mapHart_mem]
          split
          · exact w'
          · have h : ∀ (b : Bool) (f : State → State) (x : State), Memory.wf x.mem = true → (∀ y : State, (f y).mem = y.mem) →
                Memory.wf (if b then f x else x).mem = true := by
              intro b f x hx hf; cases b
              · exact hx
              · simpa [hf] using hx
            apply h (csrTaints n) (fun y => y.mapHart _) _ _ (fun _ => rfl)
            split
            · split
              · exact w'
              · simpa using w'
            · exact State.csrPut_wf w' ..

/-! ### Operand forms -/

@[simp] theorem State.vecUnit_keeps (w : Memory.wf s.mem = true) : Keeps (fun _ => s.mem) s.vecUnit := by
  unfold State.vecUnit; split
  · exact w
  · split <;> exact w
@[simp] theorem State.matrixUnit_keeps (w : Memory.wf s.mem = true) : Keeps (fun _ => s.mem) s.matrixUnit := by
  unfold State.matrixUnit; split <;> exact w
@[simp] theorem State.vecRegs_keeps (w : Memory.wf s.mem = true) (rs : List VReg) : Keeps (fun _ => s.mem) (s.vecRegs rs) := by
  unfold State.vecRegs
  have h := State.vecUnit_keeps w
  revert h; cases s.vecUnit with
  | error e => exact id
  | ok _ => intro _; dsimp only; split <;> exact w
@[simp] theorem State.tagOk_keeps (w : Memory.wf s.mem = true) (c : Bool) : Keeps (fun _ => s.mem) (s.tagOk c) := by
  unfold State.tagOk; split <;> exact w
@[simp] theorem State.shapeOk_keeps (w : Memory.wf s.mem = true) (t : Tag) : Keeps (fun _ => s.mem) (s.shapeOk t) := by
  unfold State.shapeOk; split <;> exact w
@[simp] theorem State.ready_keeps (w : Memory.wf s.mem = true) (vs : List VReg) (ss : List SReg) :
    Keeps State.mem (s.ready vs ss) := by
  unfold State.ready; split
  · trivial
  · dsimp only; split
    · trivial
    · exact State.needS_wf (State.needV_wf w _) _
@[simp] theorem State.readyEach_keeps (w : Memory.wf s.mem = true) (vs : List VReg) (ss : List SReg) :
    Keeps State.mem (s.readyEach vs ss) := by
  unfold State.readyEach; split
  · trivial
  · exact State.ready_keeps w ..
@[simp] theorem State.checks6_keeps (w : Memory.wf s.mem = true) (rs : List VReg) (ts : List Tag) {r : Except Stop Rnd}
    (h : Keeps (fun _ => s.mem) r) : Keeps (fun _ => s.mem) (s.checks6 rs ts r) := by
  unfold State.checks6
  have k := State.vecRegs_keeps w rs
  revert k; cases s.vecRegs rs with
  | error e => exact id
  | ok _ => intro _; dsimp only; split; exact w; exact h
@[simp] theorem State.streamOk_keeps (w : Memory.wf s.mem = true) (q : Stream) : Keeps (fun _ => s.mem) (s.streamOk q) := by
  unfold State.streamOk; dsimp only
  split
  · exact w
  · split
    · exact w
    · split
      · exact w
      · split
        · split <;> exact w
        · exact w

@[simp] theorem freeze_keeps {e : Stop} (h : e.Keeps) (x : Frozen) (after : Quad) : (freeze x after e).Keeps := by
  unfold freeze; split
  · split <;> exact h
  · exact h

@[simp] theorem State.settleS_keeps (w : Memory.wf s.mem = true) (ws : List Quad) : Keeps State.mem (s.settleS ws) := by
  unfold State.settleS; dsimp only; split
  · trivial
  · exact State.needS_wf w _

@[simp] theorem State.issuedAs_mem (s : State) (u : Hart) : (s.issuedAs u).st.mem = s.mem := State.mapHart_mem ..
@[simp] theorem State.issuedBlind_mem (s : State) : s.issuedBlind.mem = s.mem := by unfold State.issuedBlind; split <;> rfl

@[simp] theorem State.issueOnly_keeps (w : Memory.wf s.mem = true) {f : State → Except Stop State} (_hf : Keeps State.mem (f s.still)) :
    Keeps (fun p => p.st.mem) (s.issueOnly f) := by
  unfold State.issueOnly; split
  · rw [keeps_ok, State.issuedAs_mem]; exact w
  · split
    · exact (keeps_error ..).2 w
    · rw [keeps_ok, State.issuedAs_mem]; exact w
  · split
    · exact (keeps_error ..).2 trivial
    · rw [keeps_ok, State.issuedBlind_mem]; exact w
  · exact (keeps_error ..).2 trivial

theorem State.enqueue_keeps (w : Memory.wf s.mem = true) (word pc : Quad) {f : State → Except Stop State}
    (hf : ∀ t : State, Memory.wf t.mem = true → Keeps State.mem (f t)) : Keeps State.mem (s.enqueue word pc f) := by
  unfold State.enqueue
  have h := State.settleS_keeps w [word]
  revert h; cases s.settleS [word] with
  | error e => exact id
  | ok u =>
    intro h
    have k := State.issueOnly_keeps h (hf u.still h)
    revert k; dsimp only; cases u.issueOnly f with
    | error e => exact id
    | ok p => exact id

@[simp] theorem State.matrixEntry_keeps (w : Memory.wf s.mem = true) : Keeps State.mem s.matrixEntry := by
  unfold State.matrixEntry; dsimp only
  exact Keeps.ite w (Keeps.ite trivial (Keeps.ite w w))

@[simp] theorem State.prepared_wf (w : Memory.wf s.mem = true) (word : Quad) : Memory.wf (s.prepared word).mem = true := by
  unfold State.prepared; dsimp only
  have k : ∀ (b : Bool) (rs : List VReg), Memory.wf (if b then (s.needV rs).drain else s.needV rs).mem = true := by
    intro b rs; split
    · exact State.drain_wf (State.needV_wf w _)
    · exact State.needV_wf w _
  split <;> first | exact k _ _ | exact w

@[simp] theorem State.launched_mem (s : State) (h : Hart) (e : Frozen) : (s.launched h e).mem = s.mem := by
  unfold State.launched; split
  · rfl
  · split <;> rfl

theorem State.issueVector_keeps (w : Memory.wf s.mem = true) (word pc after : Quad) (later : Bool)
    {f : State → Except Stop State} (hf : ∀ t : State, Memory.wf t.mem = true → Keeps State.mem (f t)) :
    Keeps State.mem (s.issueVector word pc after later f) := by
  have q : ∀ t : State, Memory.wf t.mem = true → Keeps State.mem (match t.enqueue word pc f with
      | .ok t => .ok t.nextSeq
      | .error e => .error e) := by
    intro t wt
    have h := State.enqueue_keeps wt word pc hf
    revert h; cases t.enqueue word pc f with
    | error e => exact id
    | ok t => exact id
  have qm : Keeps State.mem (match (if matrixWord word && !later then s.matrixEntry else .ok s) with
      | .error e => .error e
      | .ok s => match s.enqueue word pc f with
        | .ok t => .ok t.nextSeq
        | .error e => .error e) := by
    have k : Keeps State.mem (if matrixWord word && !later then s.matrixEntry else .ok s) := Keeps.ite (State.matrixEntry_keeps w) w
    revert k; cases (if matrixWord word && !later then s.matrixEntry else .ok s) with
    | error e => exact id
    | ok t => exact q t
  unfold State.issueVector; dsimp only
  refine Keeps.ite (Keeps.ite qm trivial) (Keeps.ite (Keeps.ite qm trivial) ?_)
  have h := hf _ (State.prepared_wf w word)
  revert h; cases f (s.prepared word) with
  | ok u => intro h; simpa using h
  | error e =>
    cases e with
    | hold x => intro _; exact Keeps.ite qm trivial
    | trap t u => intro h; exact freeze_keeps ((keeps_error State.mem _).1 h) _ _
    | fault x => intro _; trivial

/-- A vector instruction on its own: what its body does, then the next address. -/
theorem State.vectorN_keeps (w : Memory.wf s.mem = true) (n : Nat) (word : Quad) {f : State → Except Stop State}
    (hf : ∀ t : State, Memory.wf t.mem = true → Keeps State.mem (f t)) : OutKeeps (s.vectorN n word f) := by
  refine finish_keeps w ?_
  have h := State.issueVector_keeps w word s.hart.pc (s.hart.pc + BitVec.ofNat 64 n) false hf
  revert h; cases s.issueVector word s.hart.pc (s.hart.pc + BitVec.ofNat 64 n) false f with
  | error e => exact id
  | ok t => exact id
theorem State.vector_keeps (w : Memory.wf s.mem = true) {f : State → Except Stop State}
    (hf : ∀ t : State, Memory.wf t.mem = true → Keeps State.mem (f t)) : OutKeeps (s.vector f) := State.vectorN_keeps w 8 _ hf

/-! ### Vector instructions -/

/-- A check that holds no state, then the rest. -/
theorem Keeps.check {α β : Type} {g : β → List Host.Cell} {m : List Host.Cell} {r : Except Stop α} {k : α → Except Stop β}
    (h : Keeps (fun _ => m) r) (hk : ∀ x, Keeps g (k x)) : Keeps g (r >>= k) := h.bind fun x _ _ => hk x

/-- Waiting until registers are complete, then the rest. -/
theorem Keeps.ready (w : Memory.wf s.mem = true) {vs : List VReg} {ss : List SReg} {β : Type} {g : β → List Host.Cell}
    {k : State → Except Stop β} (hk : ∀ t : State, Memory.wf t.mem = true → Keeps g (k t)) : Keeps g (s.ready vs ss >>= k) :=
  (State.ready_keeps w vs ss).bind fun t _ h => hk t h

theorem Keeps.readyEach (w : Memory.wf s.mem = true) {vs : List VReg} {ss : List SReg} {β : Type} {g : β → List Host.Cell}
    {k : State → Except Stop β} (hk : ∀ t : State, Memory.wf t.mem = true → Keeps g (k t)) : Keeps g (s.readyEach vs ss >>= k) :=
  (State.readyEach_keeps w vs ss).bind fun t _ h => hk t h

theorem keeps_rne (m : List Host.Cell) (w : Memory.wf m = true) : Keeps (fun _ => m) (.ok Rnd.rne) := w

@[simp] theorem State.preBin_keeps (w : Memory.wf s.mem = true) (o : VBin) (r : Bool) : Keeps (fun _ => s.mem) (s.preBin o r) := by
  refine State.checks6_keeps w _ _ ?_
  split
  · exact State.roundingFor_keeps w ..
  · exact w
@[simp] theorem State.preUn_keeps (w : Memory.wf s.mem = true) (o : VUn) (r : Tag → Bool) (t : Tag → Tag) :
    Keeps (fun _ => s.mem) (s.preUn o r t) := by
  refine State.checks6_keeps w _ _ ?_
  split
  · exact State.rounding_keeps w ..
  · exact w
@[simp] theorem State.preTern_keeps (w : Memory.wf s.mem = true) (o : VTern) : Keeps (fun _ => s.mem) (s.preTern o) :=
  State.checks6_keeps w _ _ (State.roundingFor_keeps w ..)
@[simp] theorem State.preRegs_keeps (w : Memory.wf s.mem = true) (rs : List VReg) (t : Option Tag) :
    Keeps (fun _ => s.mem) (s.preRegs rs t) := State.checks6_keeps w _ _ (keeps_rne _ w)

@[simp] theorem State.vbinary_keeps (w : Memory.wf s.mem = true) (o : VBin) (a : Tag → Bool) (r : Bool) (f : Arith) :
    Keeps State.mem (s.vbinary o a r f) :=
  (State.preBin_keeps w _ _).check fun _ => (State.tagOk_keeps w _).check fun _ => Keeps.readyEach w fun _ h => h
@[simp] theorem State.vshift_keeps (w : Memory.wf s.mem = true) (o : VBin) (f : Tag → Quad → Nat → Quad) :
    Keeps State.mem (s.vshift o f) :=
  (State.preBin_keeps w _ _).check fun _ => (State.tagOk_keeps w _).check fun _ => Keeps.readyEach w fun _ h => h
@[simp] theorem State.vunary_keeps (w : Memory.wf s.mem = true) (o : VUn) (a r : Tag → Bool) (t : Tag → Tag)
    (f : Tag → Rnd → Bool → Quad → FRes) : Keeps State.mem (s.vunary o a r t f) :=
  (State.preUn_keeps w _ _ _).check fun _ => (State.tagOk_keeps w _).check fun _ => Keeps.readyEach w fun _ h => h
@[simp] theorem State.vfused_keeps (w : Memory.wf s.mem = true) (o : VTern) (a b : Bool) : Keeps State.mem (s.vfused o a b) :=
  (State.preTern_keeps w _).check fun _ => (State.tagOk_keeps w _).check fun _ => Keeps.readyEach w fun _ h => h
@[simp] theorem State.vspecial_keeps (w : Memory.wf s.mem = true) (o : VUn) (f : FF → Rnd → Bool → Quad → FRes) :
    Keeps State.mem (s.vspecial o f) := State.vunary_keeps w ..
@[simp] theorem State.mlogic_keeps (w : Memory.wf s.mem = true) (d a b : MReg) (f : Bool → Bool → Bool) :
    Keeps State.mem (s.mlogic d a b f) := (State.vecUnit_keeps w).check fun _ => w
@[simp] theorem State.mcount_keeps (w : Memory.wf s.mem = true) (d : SReg) (a : MReg) (k : MaskOp) (f : List Nat → Quad) :
    Keeps State.mem (s.mcount d a k f) := (State.vecUnit_keeps w).check fun _ => State.needS_wf w _
@[simp] theorem State.permute_keeps (w : Memory.wf s.mem = true) (d a : VReg) (k : MaskOp) (l : List VReg) (ss : List SReg)
    (ok : State → Bool) (f : Hart → Array Quad → Tag → Nat → Quad) : Keeps State.mem (s.permute d a k l ss ok f) :=
  (State.preRegs_keeps w _ _).check fun _ => (State.tagOk_keeps w _).check fun _ => Keeps.ready w fun _ h => h

@[simp] theorem State.redRounding_keeps (w : Memory.wf s.mem = true) (op : RedOp) (t : Tag) (rm : RMode) :
    Keeps (fun _ => s.mem) (s.redRounding op t rm) := by
  unfold State.redRounding; split
  · exact State.roundingFor_keeps w ..
  · exact w
@[simp] theorem State.redChecks_keeps (w : Memory.wf s.mem = true) (o : VRed) : Keeps (fun _ => s.mem) (s.redChecks o) := by
  refine Keeps.check (m := s.mem) (State.checks6_keeps w _ _ (State.redRounding_keeps w _ _ _)) fun _ => ?_
  exact (State.tagOk_keeps w _).check fun _ => w

/-! ### Vector memory instructions -/

@[simp] theorem State.raiseElem_keeps (w : Memory.wf s.mem = true) (e : ElemFail) (b : Bool) (r j : Nat) :
    (s.raiseElem e b r j).Keeps := by
  unfold State.raiseElem; split
  · trivial
  · exact State.logFail_wf w ..
@[simp] theorem State.awaitElems_keeps (w : Memory.wf s.mem = true) (q : Stream) (c : Option Stream) (es : List Elem) (b : Bool) :
    Keeps (fun _ => s.mem) (s.awaitElems q c es b) := by
  unfold State.awaitElems; exact Keeps.ite w (Keeps.ite trivial w)
theorem foldl_issue_mem (mk : Elem → Access) : ∀ (es : List Elem) (s : State), (es.foldl (fun s e => s.issue (mk e)) s).mem = s.mem
  | [], _ => rfl
  | _ :: r, _ => foldl_issue_mem mk r _
@[simp] theorem State.issueAll_mem (s : State) (mk : Elem → Access) (es : List Elem) : (s.issueAll mk es).mem = s.mem :=
  foldl_issue_mem mk es s
@[simp] theorem State.loadRounding_keeps (w : Memory.wf s.mem = true) (q : Stream) (rm : RMode) :
    Keeps (fun _ => s.mem) (s.loadRounding q rm) := Keeps.ite (State.rounding_keeps w rm) (keeps_ok _ Rnd.rne |>.2 w)

@[simp] theorem State.walkReady_keeps (w : Memory.wf s.mem = true) (q : QReg) (m : MReg) : Keeps State.mem (s.walkReady q m) := by
  unfold State.walkReady; dsimp only
  exact Keeps.ite w (Keeps.ite trivial (Keeps.ite trivial (State.drain_wf w)))

@[simp] theorem State.readAt_mem (s : State) (l : Loc) (n : Nat) : (s.readAt l n).2.mem = s.mem := by
  unfold State.readAt; split
  · rfl
  · split <;> rfl

theorem State.readAux_mem {a : BitVec 16} {x : Quad} {n l : Nat} {k : AccKind} {r : Nat × Bool × State}
    (h : s.readAux a x n l k = .ok r) : r.2.2.mem = s.mem := by
  unfold State.readAux at h; split at h
  · cases h
  · split at h
    · cases h
    · cases h; exact State.readAt_mem ..

theorem State.walkLevel_mem {a : BitVec 16} {k : AccKind} {x b : Quad} {p : Policy} {t : Option Quad} {l : Nat}
    {r : Walked × State} (h : s.walkLevel a k x b p t l = .ok r) : r.2.mem = s.mem := by
  unfold State.walkLevel at h; split at h
  · cases h
  · cases h; rfl
  · split at h
    · cases h; rfl
    · split at h
      · cases h
      · next hr => cases h; exact State.readAux_mem hr

theorem Walked.andThen_mem {w : Walked} {f : State → Quad → Except ElemFail (Walked × State)} {r : Walked × State}
    (hf : ∀ (t : State) x v, f t x = .ok v → v.2.mem = t.mem) (h : w.andThen s f = .ok r) : r.2.mem = s.mem := by
  unfold Walked.andThen at h; split at h
  · cases h; rfl
  · split at h
    · cases h
    · next hr => cases h; have k := hf _ _ _ hr; exact k

theorem State.dataIndex_mem {a : BitVec 16} {k : AccKind} {q : Stream} {b : Quad} {idx : Nat → Quad} {j : Nat}
    {r : Walked × State} (h : s.dataIndex a k q b idx j = .ok r) : r.2.mem = s.mem := by
  unfold State.dataIndex at h; split at h
  · cases h; rfl
  · have h1 : ∀ (t : State) x v, t.walkLevel a k x q.bound1 q.pol1 none 0 = .ok v → v.2.mem = t.mem :=
      fun _ _ _ => State.walkLevel_mem
    have h2 : ∀ (t : State) x v, (match t.walkLevel a k x q.bound2 q.pol2 (some q.stride) 1 with
        | .error e => (.error e : Except ElemFail (Walked × State))
        | .ok (w, s) => w.andThen s fun s x => s.walkLevel a k x q.bound1 q.pol1 none 0) = .ok v → v.2.mem = t.mem := by
      intro t x v h; split at h
      · cases h
      · next hr => exact (Walked.andThen_mem h1 h).trans (State.walkLevel_mem hr)
    dsimp only at h; split at h
    · exact h1 _ _ _ h
    · split at h
      · exact h2 _ _ _ h
      · split at h
        · cases h
        · next hr => exact (Walked.andThen_mem h2 h).trans (State.walkLevel_mem hr)

theorem State.element_mem {a : BitVec 16} {k x : AccKind} {q : Stream} {sc : Option Stream} {b : Quad} {idx : Nat → Quad}
    {j : Nat} {r : Option Elem × Bool × State} (h : s.element a k x q sc b idx j = .ok r) : r.2.2.mem = s.mem := by
  unfold State.element at h; split at h
  · cases h
  · next hd => cases h; exact State.dataIndex_mem hd
  · next hd =>
    have hm := State.dataIndex_mem hd
    split at h
    · cases h
    · next hs =>
      split at h
      · cases h
      · cases h
        refine Eq.trans ?_ hm
        unfold State.readScale at hs; split at hs
        · cases hs; rfl
        · split at hs
          · cases hs
          · next hr => cases hs; exact State.readAux_mem hr

theorem gather_mem {f : State → Nat → Except ElemFail (Option Elem × Bool × State)}
    (hf : ∀ (t : State) j r, f t j = .ok r → r.2.2.mem = t.mem) : ∀ (l : List Nat) (s : State), (gather f s l).st.mem = s.mem
  | [], _ => rfl
  | j :: r, s => by
    unfold gather; split
    · rfl
    · next h => exact (gather_mem hf r _).trans (hf _ _ _ h)

theorem gatherAll_mem {f : State → Nat → Except ElemFail (Option Elem × Bool × State)}
    (hf : ∀ (t : State) j r, f t j = .ok r → r.2.2.mem = t.mem) : ∀ (l : List Nat) (s : State), (gatherAll f s l).st.mem = s.mem
  | [], _ => rfl
  | j :: r, s => by
    unfold gatherAll; split
    · exact gatherAll_mem hf r s
    · next h => exact (gatherAll_mem hf r _).trans (hf _ _ _ h)

theorem foldl_mem {α : Type} {f : State → α → State} (hf : ∀ t x, (f t x).mem = t.mem) :
    ∀ (l : List α) (s : State), (l.foldl f s).mem = s.mem
  | [], _ => rfl
  | x :: r, s => (foldl_mem hf r _).trans (hf s x)

@[simp] theorem State.vload_keeps (w : Memory.wf s.mem = true) (o : VMem) (ff : Bool) : Keeps State.mem (s.vload o ff) := by
  refine Keeps.check (m := s.mem) (State.checks6_keeps w _ _ (State.loadRounding_keeps w _ _)) fun r =>
    (State.streamOk_keeps w _).check fun sc => Keeps.ready w fun t h =>
    (State.walkReady_keeps h _ _).bind fun u _ h' => ?_
  refine (State.awaitElems_keeps h' _ _ _ _).check fun _ => ?_
  dsimp only
  generalize hg : gather _ u _ = g
  have hm : Memory.wf g.st.mem = true := by
    rw [← hg, gather_mem fun _ _ _ => State.element_mem]; exact h'
  clear hg
  split
  · simpa using hm
  · next j e _ =>
    refine Keeps.ite ?_ (State.raiseElem_keeps (by simpa using hm) ..)
    split
    · exact State.logFail_wf (by simpa using hm) ..
    · simpa using hm

/-- A fold of operations each of which keeps the form. -/
theorem foldl_wf {α : Type} {f : State → α → State} (hf : ∀ (t : State) (x : α), Memory.wf t.mem = true → Memory.wf (f t x).mem = true) :
    ∀ (l : List α) {s : State}, Memory.wf s.mem = true → Memory.wf (l.foldl f s).mem = true
  | [], _, w => w
  | x :: r, s, w => foldl_wf hf r (hf s x w)

@[simp] theorem vecVst_keeps (w : Memory.wf s.mem = true) (o : VMem) : Keeps State.mem (vecVst o s) := by
  refine Keeps.check (m := s.mem) (State.checks6_keeps w _ _ (State.storeRounding_keeps w _ _ _)) fun r =>
    (State.streamOk_keeps w _).check fun sc => (State.tagOk_keeps w _).check fun _ => Keeps.ready w fun t h =>
    (State.walkReady_keeps h _ _).bind fun u _ h' => ?_
  refine (State.awaitElems_keeps h' _ _ _ _).check fun _ => ?_
  dsimp only
  generalize hg : gather _ u _ = g
  have hm : Memory.wf g.st.mem = true := by
    rw [← hg, gather_mem fun _ _ _ => State.element_mem]; exact h'
  clear hg
  have hi : ∀ (l : List Access) (v : State), (l.foldl State.issue v).mem = v.mem := foldl_mem fun _ _ => rfl
  split
  · simpa [hi] using hm
  · exact State.raiseElem_keeps (by simpa [hi] using hm) ..

@[simp] theorem vecVchg_keeps (w : Memory.wf s.mem = true) (o : VMem) : Keeps State.mem (vecVchg o s) := by
  refine Keeps.check (m := s.mem) (State.checks6_keeps w _ _ (State.storeRounding_keeps w _ _ _)) fun r => ?_
  dsimp only
  refine Keeps.ite (show (insnTrap s 0x0C).Keeps from w) (Keeps.check (m := s.mem) (r := Except.ok ()) w fun _ => ?_)
  refine (State.streamOk_keeps w _).check fun _ =>
    (State.tagOk_keeps w _).check fun _ => Keeps.ready w fun t h =>
    (State.walkReady_keeps h _ _).bind fun u _ h' => ?_
  refine (State.awaitElems_keeps h' _ _ _ _).check fun _ => ?_
  generalize hg : gather _ u _ = g
  have hm : Memory.wf g.st.mem = true := by
    rw [← hg, gather_mem fun _ _ _ => State.element_mem]; exact h'
  clear hg
  split
  · rw [keeps_ok, State.mapHart_mem, foldl_mem]
    · exact hm
    · intro _ _; rfl
  · refine State.raiseElem_keeps ?_ ..
    rw [State.mapHart_mem, foldl_mem]
    · exact hm
    · intro _ _; rfl

/-- A walk that ends well, or stops at an element. -/
theorem keepsFail {α : Type} {f : α → List Host.Cell} {p : Option (Nat × ElemFail)} {x : Except Stop α}
    {y : Nat → ElemFail → Except Stop α} (hx : Keeps f x) (hy : ∀ j e, Keeps f (y j e)) :
    Keeps f (match p with
      | none => x
      | some (j, e) => y j e) := by
  cases p with
  | none => exact hx
  | some q => exact hy q.1 q.2

@[simp] theorem State.vatomic_keeps (w : Memory.wf s.mem = true) (op : AmoOp) (o : VMem) (d : Option VReg) :
    Keeps State.mem (s.vatomic op o d) := by
  refine Keeps.check (m := s.mem) (State.checks6_keeps w _ _ (keeps_rne _ w)) fun r => ?_
  dsimp only
  refine Keeps.ite (show (insnTrap s 0x0C).Keeps from w) (Keeps.check (m := s.mem) (r := Except.ok ()) w fun _ => ?_)
  refine (State.streamOk_keeps w _).check fun _ =>
    (State.tagOk_keeps w _).check fun _ => Keeps.ready w fun t h =>
    (State.walkReady_keeps h _ _).bind fun u _ h' => ?_
  refine (State.awaitElems_keeps h' _ _ _ _).check fun _ => ?_
  have hm : ∀ (l : List Nat), Memory.wf (gatherAll (fun s1 j => s1.element s1.hart.asid .atomic .read (s.hart.q[o.q.toNat]) none
      s1.hart.csr.sbase (fun i => (u.hart.streamIdx (s.hart.q[o.q.toNat]) u.hart.vl).getD i 0) j) u l).st.mem = true := by
    intro l; rw [gatherAll_mem fun _ _ _ => State.element_mem]; exact h'
  refine keepsFail ?_ fun j e => ?_
  · rw [keeps_ok, State.mapHart_mem, foldl_mem]
    · exact hm _
    · intro t x; cases x <;> rfl
  · refine State.raiseElem_keeps ?_ ..
    rw [State.mapHart_mem, foldl_mem]
    · exact hm _
    · intro t x; cases x <;> rfl

/-! ### Scheduler tables and gangs -/

theorem Memory.wf_filter {m : List Host.Cell} (w : Memory.wf m = true) (p : Host.Cell → Bool) : Memory.wf (m.filter p) = true :=
  wfFrom_filter p m 0 w

@[simp] theorem State.setSchedQuad_wf (w : Memory.wf s.mem = true) (pkg off : Nat) (v : Quad) :
    Memory.wf (s.setSchedQuad pkg off v).mem = true := by
  unfold State.setSchedQuad; split
  · exact w
  · exact Memory.wf_writeQuad _ _ w
@[simp] theorem State.setQueueQuad_wf (w : Memory.wf s.mem = true) (pkg q i : Nat) (v : Quad) :
    Memory.wf (s.setQueueQuad pkg q i v).mem = true := State.setSchedQuad_wf w ..
@[simp] theorem State.markRecord_wf (w : Memory.wf s.mem = true) (pkg q : Nat) (a : BitVec 16) (n : Word) (r t : Nat) :
    Memory.wf (s.markRecord pkg q a n r t).mem = true := by
  unfold State.markRecord; split
  · exact Memory.wf_writeQuad _ _ w
  · exact State.logFail_wf w ..
  · exact w
@[simp] theorem State.advanceHead_wf (w : Memory.wf s.mem = true) (pkg q : Nat) : Memory.wf (s.advanceHead pkg q).mem = true := by
  unfold State.advanceHead; dsimp only; split
  · exact w
  · exact State.setQueueQuad_wf w ..
@[simp] theorem State.wakeGwait_mem (s : State) (pkg q : Nat) (n : Word) (c : Quad) : (s.wakeGwait pkg q n c).mem = s.mem := rfl
@[simp] theorem State.reject_wf (w : Memory.wf s.mem = true) (pkg q : Nat) (a : BitVec 16) (n : Word) (r : Nat) :
    Memory.wf (s.reject pkg q a n r).mem = true := by
  unfold State.reject
  exact State.advanceHead_wf (by rw [State.wakeGwait_mem, State.setPack_mem]; exact State.markRecord_wf w ..) ..
@[simp] theorem State.wipe_wf (w : Memory.wf s.mem = true) (a n : Nat) : Memory.wf (s.wipe a n).mem = true :=
  State.zeroed_wf _ _ w
@[simp] theorem State.giveUnits_wf (w : Memory.wf s.mem = true) (pkg : Nat) (c : GangCore) (a : BitVec 16) :
    Memory.wf (s.giveUnits pkg c a).mem = true := by
  refine foldl_wf (fun t i h => ?_) _ w
  rw [State.setCore_mem]; split
  · exact h
  · exact State.wipe_wf h ..
@[simp] theorem State.placeRoot_wf (w : Memory.wf s.mem = true) (pkg die : Nat) (a : BitVec 16) (r : Quad) :
    Memory.wf (s.placeRoot pkg die a r).mem = true := by
  unfold State.placeRoot; split
  · exact w
  · exact Memory.wf_writeQuad _ _ w
@[simp] theorem State.joinRank_mem (s : State) (h : Quad) (n : Nat) (r : HartRef) : (s.joinRank h n r).mem = s.mem := by
  unfold State.joinRank; dsimp only; split <;> rfl
@[simp] theorem State.leaveRank_mem (s : State) (j : Joined) : (s.leaveRank j).mem = s.mem := rfl
@[simp] theorem State.someTurn_mem (s : State) : s.someTurn.mem = s.mem := by unfold State.someTurn; split <;> rfl
@[simp] theorem State.startCore_wf (w : Memory.wf s.mem = true) (pkg : Nat) (x : Waiting) (i : Nat) (c : GangCore) :
    Memory.wf (s.startCore pkg x i c).mem = true := by
  unfold State.startCore; dsimp only
  refine foldl_wf ?_ _ ?_
  · intro t h k
    refine foldl_wf ?_ _ k
    intro u j m; cases j
    · exact m
    · rw [State.joinRank_mem]; exact m
  · rw [State.setCore_mem]; exact State.placeRoot_wf (State.giveUnits_wf w ..) ..
@[simp] theorem State.placeGang_wf (w : Memory.wf s.mem = true) (pkg : Nat) (x : Waiting) (cs : List GangCore) :
    Memory.wf (s.placeGang pkg x cs).mem = true := by
  unfold State.placeGang; dsimp only
  rw [State.someTurn_mem]
  refine State.markRecord_wf ?_ ..
  rw [State.setPack_mem]
  refine foldl_wf ?_ _ w
  intro t y h; exact State.startCore_wf h ..
@[simp] theorem State.setGang_mem (s : State) (pkg : Nat) (g : Gang) : (s.setGang pkg g).mem = s.mem := rfl
@[simp] theorem State.pendGang_mem (s : State) (pkg : Nat) (g : Word) (b : BitVec 3) : (s.pendGang pkg g b).mem = s.mem := rfl
@[simp] theorem State.abortGang_mem (s : State) (pkg : Nat) (g : Gang) : (s.abortGang pkg g).mem = s.mem := by
  unfold State.abortGang; split <;> rfl
@[simp] theorem State.handBack_mem (c : GangCore) : ∀ (l : List Hart) (s : State) (a : Byte) (b : BitVec 4),
    (s.handBack c l a b).mem = s.mem
  | [], _, _, _ => rfl
  | h :: r, s, a, b => by
    unfold State.handBack; dsimp only; split
    · rw [State.handBack_mem c r, State.onHart_mem]
    · rw [State.handBack_mem c r]
@[simp] theorem State.writeTail_wf (w : Memory.wf s.mem = true) (pkg q : Nat) (v : Word) :
    Memory.wf (s.writeTail pkg q v).mem = true := by
  unfold State.writeTail; dsimp only; split
  · exact w
  · split <;> exact State.setQueueQuad_wf w ..
@[simp] theorem State.releaseBarrier_mem (s : State) (pkg : Nat) (g : Word) : (s.releaseBarrier pkg g).mem = s.mem := by
  unfold State.releaseBarrier; dsimp only; split <;> rfl
@[simp] theorem State.releaseCore_mem (s : State) (h : Hart) : (s.releaseCore h).mem = s.mem := by
  unfold State.releaseCore; split <;> rfl
@[simp] theorem State.endHart_mem (s : State) : s.endHart.mem = s.mem := by
  unfold State.endHart; dsimp only
  rw [State.releaseBarrier_mem]; dsimp only
  rw [foldl_mem, State.releaseCore_mem]; intro u j; cases j <;> rfl
@[simp] theorem State.exitGang_keeps (w : Memory.wf s.mem = true) : Keeps State.mem s.exitGang := by
  unfold State.exitGang; split
  · trivial
  · dsimp only; split
    · rw [keeps_ok, State.endHart_mem]; exact State.drain_wf w
    · trivial
@[simp] theorem State.applyGrant_mem (s : State) : s.applyGrant.mem = s.mem := by
  unfold State.applyGrant; dsimp only; split <;> rfl
@[simp] theorem State.startLoop_wf (w : Memory.wf s.mem = true) (a : SReg) (o : BitVec 12) : Memory.wf (s.startLoop a o).mem = true :=
  State.needS_wf w _

/-! ### Areas of level S -/

theorem State.privileged_keeps (w : Memory.wf s.mem = true) {f : State → Except Stop State} (hf : Keeps State.mem (f s)) :
    OutKeeps (s.privileged f) := finish_keeps w (Keeps.ite w hf)
theorem State.areaGo_error (w : Memory.wf s.mem = true) (n : Nat) (k : AccKind) (r : SpaceRule) : ∀ (l : List (Nat × Nat)),
    Keeps (fun _ => s.mem) (s.areaGo n k r l)
  | [] => w
  | (a, m) :: l => by
    unfold State.areaGo
    refine resolve_bind w fun x => ?_
    split
    · exact w
    · have h := State.areaGo_error w n k r l
      revert h; cases s.areaGo n k r l with
      | error e => exact id
      | ok _ => exact fun _ => w
@[simp] theorem State.area_keeps (w : Memory.wf s.mem = true) (a : Quad) (n m : Nat) (k : AccKind) (r : SpaceRule) :
    Keeps (fun _ => s.mem) (s.area a n m k r) := by
  unfold State.area
  exact await_bind w (State.areaGo_error w m k r _)
@[simp] theorem State.clearPoison_mem (s : State) (a n : Nat) : (s.clearPoison a n).mem = s.mem := rfl
@[simp] theorem State.putArea_wf : ∀ (l : List (Nat × Nat)) (qs : List Quad) {s : State}, Memory.wf s.mem = true →
    Memory.wf (s.putArea l qs).mem = true
  | [], _, _, w => w
  | (_, _) :: r, _, _, w => State.putArea_wf r _ (State.putQuads_wf _ _ w)
@[simp] theorem State.parkFault_wf (w : Memory.wf s.mem = true) (k : AccKind) : Memory.wf (s.parkFault k).mem = true := by
  unfold State.parkFault; split
  · exact w
  · have h := State.areaGo_error w 64 k .own (pieces 10 s.hart.sup.parkbase.toNat s.hart.saveBytes)
    revert h; cases s.areaGo 64 k .own (pieces 10 s.hart.sup.parkbase.toNat s.hart.saveBytes) with
    | ok _ => exact fun _ => w
    | error e => cases e with
      | trap t u => exact id
      | hold _ => exact fun _ => w
      | fault _ => exact fun _ => w
@[simp] theorem State.fillPark_wf (w : Memory.wf s.mem = true) : Memory.wf s.fillPark.mem = true := by
  unfold State.fillPark; split
  · exact State.parkFault_wf w _
  · exact State.putArea_wf _ _ w
@[simp] theorem State.park_wf (w : Memory.wf s.mem = true) (p : Park) (d : SReg) (n : Quad) : Memory.wf (s.park p d n).mem = true :=
  State.fillPark_wf w
@[simp] theorem State.emptyPark_wf (w : Memory.wf s.mem = true) : Memory.wf s.emptyPark.mem = true := by
  unfold State.emptyPark; split
  · exact State.parkFault_wf w _
  · rw [State.drawn_mem, State.mapHart_mem]; exact w
@[simp] theorem State.answer_mem (s : State) (d : SReg) (x : Quad) : (s.answer d x).mem = s.mem := rfl
@[simp] theorem State.emptyEntries_wf (w : Memory.wf s.mem = true) (a n m : Nat) : Memory.wf (s.emptyEntries a n m).mem = true := by
  refine foldl_wf (fun t i h => ?_) _ w
  dsimp only; split
  · exact Memory.wf_writeQuad _ _ h
  · exact h

/-! ### Huane, circuits, transport -/

@[simp] theorem State.placeBytes_wf (w : Memory.wf s.mem = true) (a : Nat) (bs : List Byte) (bad : List Nat) :
    Memory.wf (s.placeBytes a bs bad).mem = true := State.put_wf _ _ _ w
@[simp] theorem State.wipePackage_wf (w : Memory.wf s.mem = true) (pkg : Nat) : Memory.wf (s.wipePackage pkg).mem = true :=
  Memory.wf_filter w _
@[simp] theorem State.resetPackage_wf (w : Memory.wf s.mem = true) (pkg : Nat) : Memory.wf (s.resetPackage pkg).mem = true := by
  unfold State.resetPackage; dsimp only
  rw [State.setPack_mem]; dsimp only; split
  · exact State.wipePackage_wf w _
  · exact w
@[simp] theorem State.putOutput_wf (w : Memory.wf s.mem = true) (pkg ring : Nat) (q : Quad) (l : List Byte) :
    Memory.wf (s.putOutput pkg ring q l).mem = true := by
  unfold State.putOutput; split
  · exact w
  · split
    · exact foldl_wf (fun _ _ h => Memory.wf_writeN _ _ _ h) _ w
    · exact State.placeBytes_wf w ..
@[simp] theorem State.forgetBytes_mem (s : State) (pkg a n : Nat) : (s.forgetBytes pkg a n).mem = s.mem := rfl
@[simp] theorem State.setBlock_mem (s : State) (pkg q : Nat) (v : Quad) : (s.setBlock pkg q v).mem = s.mem := rfl
@[simp] theorem State.onHuane_mem (s : State) (pkg : Nat) (f : Huane → Huane) : (s.onHuane pkg f).mem = s.mem := rfl
@[simp] theorem State.onPower_mem (s : State) (pkg : Nat) (f : Power → Power) : (s.onPower pkg f).mem = s.mem := rfl
theorem Keeps.iteWf {c : Prop} [Decidable c] {x y : State} (hx : Memory.wf x.mem = true) (hy : Memory.wf y.mem = true) :
    Memory.wf (if c then x else y).mem = true := by split <;> assumption
@[simp] theorem State.endCommand_wf (w : Memory.wf s.mem = true) (pkg ring : Nat) (r : Reply) :
    Memory.wf (s.endCommand pkg ring r).mem = true := by
  unfold State.endCommand; split
  · exact w
  · simp only [State.wakeLine_mem]
    exact Memory.wf_writeN _ _ _ (Memory.wf_writeQuad _ _ (Memory.wf_writeQuad _ _ (Memory.wf_writeQuad _ _
      (State.putOutput_wf w ..))))
theorem State.runCommand_wf (w : Memory.wf s.mem = true) (pkg ring code : Nat) {f : List Quad → List Byte → State × Option Reply}
    (hf : ∀ q b, Memory.wf (f q b).1.mem = true) : Memory.wf (s.runCommand pkg ring code f).mem = true := by
  unfold State.runCommand
  cases s.command pkg ring with
  | none => exact w
  | some q =>
    refine Keeps.iteWf w (Keeps.iteWf (State.endCommand_wf w ..) ?_)
    cases s.inputOf pkg ring q with
    | error e => exact State.endCommand_wf w ..
    | ok b =>
      have h := hf q b
      revert h; dsimp only
      cases (f q b).2 with
      | none => exact id
      | some r => exact fun h => State.endCommand_wf h ..
@[simp] theorem State.pollRing_wf (w : Memory.wf s.mem = true) (pkg ring : Nat) : Memory.wf (s.pollRing pkg ring).mem = true := by
  unfold State.pollRing; split
  · exact w
  · next a _ =>
    have h : Memory.wf (if 32 < (readWord s.mem a - s.ringHead a).toNat then
        ({ s with mem := writeQuad s.mem (a + 16) (readQuad s.mem (a + 16) ||| 1) } : State)
        else s.onHuane pkg fun h => { h with tails := assocSet h.tails ring (readWord s.mem a) }).mem = true := by
      split
      · exact Memory.wf_writeQuad _ _ w
      · exact w
    dsimp only; split
    · exact h
    · split
      · exact State.endCommand_wf h ..
      · exact h
@[simp] theorem State.setFunc_wf (w : Memory.wf s.mem = true) (pkg f : Nat) (qs : List Nat) : Memory.wf (s.setFunc pkg f qs).mem = true :=
  foldl_wf (fun _ _ h => State.setQueueQuad_wf h ..) _ w
@[simp] theorem State.tear_wf (w : Memory.wf s.mem = true) (pkg : Nat) (p : Partition) (r : Option Nat) :
    Memory.wf (s.tear pkg p r).mem = true := by
  unfold State.tear; dsimp only
  rw [State.onHuane_mem]
  refine State.setFunc_wf ?_ ..
  rw [foldl_mem (fun t g => State.abortGang_mem t pkg g)]
  exact foldl_wf (fun _ _ h => State.setQueueQuad_wf h ..) _ w
@[simp] theorem State.haltMember_wf (w : Memory.wf s.mem = true) (pkg : Nat) (e : Quad) (p : Partition) :
    Memory.wf (s.haltMember pkg e p).mem = true := by
  unfold State.haltMember; dsimp only; split
  · exact w
  · exact State.tear_wf (by exact w) ..
@[simp] theorem State.wipeResource_wf (w : Memory.wf s.mem = true) (pkg : Nat) (r : Resource) :
    Memory.wf (s.wipeResource pkg r).mem = true := by
  unfold State.wipeResource; split
  · exact w
  · exact w
  · refine foldl_wf (fun _ _ h => ?_) _ w
    dsimp only; rw [State.forgetBytes_mem]; exact State.wipe_wf h ..
  · refine foldl_wf (fun _ _ h => ?_) _ w
    dsimp only; rw [State.setCore_mem, State.forgetBytes_mem]; exact State.emptyEntries_wf (State.wipe_wf h ..) ..
  · exact w
@[simp] theorem State.clearBit0_wf (w : Memory.wf s.mem = true) (a : Nat) (v : Quad) : Memory.wf (s.clearBit0 a v).mem = true := by
  unfold State.clearBit0; split
  · exact Memory.wf_writeQuad _ _ w
  · exact w
@[simp] theorem State.writeQueue_wf (w : Memory.wf s.mem = true) (pkg f q i : Nat) (v : Quad) :
    Memory.wf (s.writeQueue pkg f q i v).mem = true := by
  unfold State.writeQueue; split
  · exact State.writeTail_wf w ..
  · split
    · split
      · exact State.setQueueQuad_wf w ..
      · exact w
    · split
      · exact State.setQueueQuad_wf w ..
      · split
        · exact State.setQueueQuad_wf w ..
        · exact w
@[simp] theorem State.checkGranule_wf (w : Memory.wf s.mem = true) (pkg k a : Nat) (i : BitVec 16) :
    Memory.wf (s.checkGranule pkg k a i).mem = true := State.machineCheck_wf w ..
@[simp] theorem State.enterRanges_keeps (w : Memory.wf s.mem = true) (es : List Interlock) : Keeps State.mem (s.enterRanges es) :=
  Keeps.ite trivial w
@[simp] theorem State.movePointers_mem (s : State) (n : Nat) : (s.movePointers n).mem = s.mem := by
  unfold State.movePointers; split
  · rfl
  · exact State.mapHart_mem ..
@[simp] theorem State.issueCmd_keeps (w : Memory.wf s.mem = true) (es : List Interlock) (c : Cmd) : Keeps State.mem (s.issueCmd es c) :=
  Keeps.ite trivial (by rw [keeps_ok, State.movePointers_mem, State.mapHart_mem]; exact w)
@[simp] theorem State.setSlotStatus_wf (w : Memory.wf s.mem = true) (pkg : Nat) (f : Quad → Quad) :
    Memory.wf (s.setSlotStatus pkg f).mem = true := by
  unfold State.setSlotStatus; split
  · exact w
  · exact Memory.wf_writeQuad _ _ w
@[simp] theorem State.planError_wf (w : Memory.wf s.mem = true) (pkg port : Nat) : Memory.wf (s.planError pkg port).mem = true := by
  unfold State.planError; split
  · exact w
  · exact Memory.wf_writeQuad _ _ w
@[simp] theorem State.meshSend_mem (s : State) (pkg : Nat) (m : MeshPacket) : (s.meshSend pkg m).mem = s.mem := rfl
@[simp] theorem State.setEntry_mem (s : State) (pkg n : Nat) (f : CircuitEntry → CircuitEntry) : (s.setEntry pkg n f).mem = s.mem := by
  unfold State.setEntry; dsimp only; split <;> rfl
@[simp] theorem State.failEntry_wf (w : Memory.wf s.mem = true) (pkg n : Nat) : Memory.wf (s.failEntry pkg n).mem = true :=
  State.setSlotStatus_wf (by rwa [State.setEntry_mem]) ..
@[simp] theorem State.newTrunks_mem (s : State) (pkg : Nat) : (s.newTrunks pkg).mem = s.mem := rfl
@[simp] theorem State.tearDown_mem (s : State) (pkg : Nat) (es : List CircuitEntry) : (s.tearDown pkg es).mem = s.mem := by
  unfold State.tearDown; dsimp only
  rw [foldl_mem fun t (e : CircuitEntry) => State.meshSend_mem t pkg (.teardown e.num)]; rfl
@[simp] theorem State.startRotation_mem (s : State) (pkg r : Nat) : (s.startRotation pkg r).mem = s.mem := by
  unfold State.startRotation; dsimp only
  rw [State.newTrunks_mem, State.tearDown_mem]; rfl
@[simp] theorem State.onColour_mem (s : State) (l : Lane) (f : Colour → Colour) : (s.onColour l f).mem = s.mem := rfl
@[simp] theorem State.onTransport_mem (s : State) (pkg : Nat) (f : Transport → Transport) : (s.onTransport pkg f).mem = s.mem := rfl

/-! ### Messages and collective operations -/

@[simp] theorem State.nextSerial_mem (s : State) : s.nextSerial.mem = s.mem := rfl
@[simp] theorem State.onSender_mem (s : State) (r : HartRef) (g : Word) (f : Hart → Hart) : (s.onSender r g f).mem = s.mem := by
  unfold State.onSender; split
  · exact State.onHart_mem ..
  · rfl
@[simp] theorem State.setGroup_mem (s : State) (g : Group) : (s.setGroup g).mem = s.mem := rfl
@[simp] theorem State.setOp_mem (s : State) (o : CollOp) : (s.setOp o).mem = s.mem := rfl
@[simp] theorem State.dropOp_mem (s : State) (o : CollOp) : (s.dropOp o).mem = s.mem := rfl
@[simp] theorem State.contribute_mem (s : State) (j : BitVec 4) (x : Joined) (b : Option (Tag × BitVec 24 × Word))
    (l : List (Option Quad)) (k : KReg) (nb : Bool) : (s.contribute j x b l k nb).mem = s.mem := rfl
@[simp] theorem State.closeOp_mem (s : State) (o : CollOp) (r : Nat) : (s.closeOp o r).mem = s.mem := by
  unfold State.closeOp; dsimp only; split <;> rfl
@[simp] theorem State.deliverColl_mem (s : State) (c : CollLoad) (o : CollOp) (r : Nat) : (s.deliverColl c o r).mem = s.mem := by
  unfold State.deliverColl; dsimp only; rw [State.closeOp_mem]; rfl
@[simp] theorem State.abortColl_mem (s : State) (c : CollLoad) (o : CollOp) (r : Nat) (x : Byte) : (s.abortColl c o r x).mem = s.mem := by
  unfold State.abortColl; rw [State.closeOp_mem]; rfl
@[simp] theorem State.settleColl_mem (s : State) (c : CollLoad) (r : Nat) : (s.settleColl c r).mem = s.mem := by
  unfold State.settleColl; split
  · rfl
  · split
    · rfl
    · split
      · exact State.deliverColl_mem ..
      · rfl
    · split
      · exact State.abortColl_mem ..
      · rfl
@[simp] theorem State.abortGroup_mem (s : State) (h : Quad) (c : Byte) (p : Nat) : (s.abortGroup h c p).mem = s.mem := rfl
@[simp] theorem State.refuseMessage_mem (s : State) (m : Message) : (s.refuseMessage m).mem = s.mem := State.onSender_mem ..

/-! ### The Sieve and the engines -/

@[simp] theorem State.sieveSize_keeps (w : Memory.wf s.mem = true) : Keeps (fun _ => s.mem) s.sieveSize := by
  unfold State.sieveSize; dsimp only; split <;> exact w
@[simp] theorem State.sieveInsert_wf (w : Memory.wf s.mem = true) (n : Nat) (k : Quad) (f : Quad → Quad) {t : State}
    (h : s.sieveInsert n k f = some t) : Memory.wf t.mem = true := by
  unfold State.sieveInsert at h; dsimp only at h
  split at h
  · cases h
  · split at h
    · cases h; exact Memory.wf_writeQuads _ _ w
    · split at h
      · cases h; exact Memory.wf_writeQuads _ _ w
      · cases h
theorem sieveEach_wf {p : State → Nat → Option Nat} {f : State → Nat → State × Bool × Quad × Quad}
    (hf : ∀ (t : State) j, Memory.wf t.mem = true → Memory.wf (f t j).1.mem = true) : ∀ (l : List Nat) {s : State},
    Memory.wf s.mem = true → Memory.wf (sieveEach s p f l).state.mem = true
  | [], _, w => w
  | j :: r, s, w => by
    unfold sieveEach; split
    · exact w
    · exact sieveEach_wf hf r (hf s j w)
@[simp] theorem State.engineWrite_wf (w : Memory.wf s.mem = true) (c : Cmd) (j a n x p : Nat) (b : Bool) (o : Int) :
    Memory.wf (s.engineWrite c j a n x p b o).1.mem = true := by
  unfold State.engineWrite; dsimp only; split
  · exact State.put_wf _ _ _ w
  · split
    · split <;> exact State.put_wf _ _ _ w
    · exact State.put_wf _ _ _ w
@[simp] theorem State.copyRead_mem (s : State) (c : Cmd) (l : Loc) (n : Nat) : (s.copyRead c l n).2.mem = s.mem := by
  unfold State.copyRead; split
  · rfl
  · exact State.readAt_mem ..
@[simp] theorem State.copyElem_wf (w : Memory.wf s.mem = true) (c : Cmd) (a b : Stream) (f g : Nat → Quad) (x : Quad) (j : Nat) :
    Memory.wf (s.copyElem c a b f g x j).s.mem = true := by
  unfold State.copyElem; dsimp only; split
  · exact w
  · next h1 =>
    have m1 := State.dataIndex_mem h1
    split
    · show Memory.wf _ = true; rw [State.mapHart_mem, m1]; exact w
    · next h2 =>
      have m2 := (State.dataIndex_mem h2).trans m1
      split
      · split
        · show Memory.wf _ = true; rw [State.mapHart_mem, m2]; exact w
        · split
          · show Memory.wf _ = true; rw [State.mapHart_mem, m2]; exact w
          · refine State.engineWrite_wf ?_ ..
            rw [State.copyRead_mem, State.mapHart_mem, m2]; exact w
      · show Memory.wf _ = true; rw [State.mapHart_mem, m2]; exact w
@[simp] theorem State.copyRun_wf (a b : Stream) (f g : Nat → Quad) (x : Quad) : ∀ (n j : Nat) {c : Cmd} {s : State},
    Memory.wf s.mem = true → Memory.wf (s.copyRun c a b f g x n j).s.mem = true
  | 0, _, _, _, w => w
  | n + 1, j, c', s, w => by
    unfold State.copyRun; dsimp only
    have h := State.copyElem_wf w c' a b f g x j
    split
    · exact h
    · exact State.copyRun_wf a b f g x n _ h
@[simp] theorem State.notePoison_wf (w : Memory.wf s.mem = true) (c : Cmd) : Memory.wf (s.notePoison c).mem = true := by
  unfold State.notePoison; split
  · exact w
  · exact State.machineCheck_wf w ..
theorem State.engineFault_keeps (w : Memory.wf s.mem = true) (c : Cmd) (e : EngineStop) : OutKeeps (s.engineFault c e) := by
  unfold State.engineFault; dsimp only; split
  · exact State.takeTrap_wf (by exact w) _
  · split
    · trivial
    · exact State.takeTrap_wf (State.logFail_wf (by exact w) ..) _

/-! ### Steps of the homes -/

@[simp] theorem State.performIf_wf (w : Memory.wf s.mem = true) (i : Nat) (f : Access → Bool) :
    Memory.wf (s.performIf i f).mem = true := by
  unfold State.performIf; split
  · exact w
  · split
    · exact State.performAt_wf w _
    · exact w
@[simp] theorem State.performRun_wf (p : Access → Bool) : ∀ (n : Nat) {s : State}, Memory.wf s.mem = true →
    Memory.wf (s.performRun p n).mem = true
  | 0, _, w => w
  | n + 1, s, w => by
    unfold State.performRun; split
    · exact w
    · split
      · exact w
      · split
        · exact State.performRun_wf p n (State.performAt_wf w _)
        · exact w
@[simp] theorem State.fillTlb_mem (s : State) (x : WalkReq) (l : Leaf) (n : Nat) : (s.fillTlb x l n).mem = s.mem := rfl

/-- A step of an agent on one hart. -/
theorem onHartOutcome_keeps (w : Memory.wf s.mem = true) (r : HartRef) {f : State → Host.Outcome State Fault Refusal}
    (hf : ∀ t : State, Memory.wf t.mem = true → OutKeeps (f t)) : OutKeeps (onHartOutcome s r f) := by
  unfold onHartOutcome; split
  · have h := hf (s.focus r) (by rwa [State.focus_mem])
    revert h; cases f (s.focus r) with
    | next t => intro h; rw [outKeeps_next] at h; show Memory.wf (t.focus _).mem = true; rwa [State.focus_mem]
    | fault _ => exact id
    | refused _ => exact id
  · exact w

end Sys2Proof.Machine
end

