-- ==== Sys2Proof/Tests/Slice0.lean ====
section
/-! SUPPORT. Tests. The expected words and values come from the encoding tables, the worked programs and the rules of
spec/, by hand. Each witness names a state and operands that meet the hypotheses of a statement of Obligations.lean
together. -/

namespace Sys2Proof.Tests

open Machine

set_option Elab.async false

/-! ### Ill-formed terms (R141, R144, R148, R152, R188, R192, R224) -/

theorem test_vcfg_nine_groups_ill_formed : (Instr.vcfg 5 2 false 9).wellFormed = false := by decide
theorem test_header_spare_unit_ill_formed : (Instr.convoyHeader 0 0x3FFFF).wellFormed = false := by decide
theorem test_cAddi_s0_ill_formed : (Instr.cAddi 0 1).wellFormed = false := by decide
theorem test_masked_m0_complement_ill_formed :
    (Instr.vadd ⟨1, 2, .v 3, ⟨0, true⟩, .dyn, false⟩).wellFormed = false := by decide
theorem test_vand_rounding_ill_formed : (Instr.vand ⟨1, 2, .v 3, ⟨0, false⟩, .rne, false⟩).wellFormed = false := by decide
theorem test_vand_sat_ill_formed : (Instr.vand ⟨1, 2, .v 3, ⟨0, false⟩, .dyn, true⟩).wellFormed = false := by decide
theorem test_vneg_rounding_ill_formed : (Instr.vneg ⟨1, 2, ⟨0, false⟩, .rne, false⟩).wellFormed = false := by decide
theorem test_vclass_sat_ill_formed : (Instr.vclass ⟨1, 2, ⟨0, false⟩, .dyn, true⟩).wellFormed = false := by decide
theorem test_mask_destination_m0_ill_formed : (Instr.mand 0 1 2).wellFormed = false := by decide
theorem test_reduction_max_rounding_ill_formed :
    (Instr.vred ⟨.max, 1, 2, none, ⟨0, false⟩, .rne⟩).wellFormed = false := by decide
theorem test_load_counter_without_nb_ill_formed :
    (Instr.vld ⟨1, 0, 2, ⟨0, false⟩, false, 3, .dyn, false⟩).wellFormed = false := by decide
theorem test_load_data_register_ill_formed :
    (Instr.vld ⟨1, 4, 2, ⟨0, false⟩, false, 0, .dyn, false⟩).wellFormed = false := by decide
theorem test_fault_first_nb_ill_formed :
    (Instr.vldff ⟨1, 0, 2, ⟨0, false⟩, true, 0, .dyn, false⟩).wellFormed = false := by decide
theorem test_store_destination_ill_formed :
    (Instr.vst ⟨1, 4, 2, ⟨0, false⟩, false, 0, .dyn, false⟩).wellFormed = false := by decide
theorem test_atomic_rounding_ill_formed :
    (Instr.vamo .add ⟨0, 4, 2, ⟨0, false⟩, false, 0, .rne, false⟩).wellFormed = false := by decide
theorem test_collective_counter_ill_formed :
    (Instr.collectiveVst ⟨1, 2, ⟨0, false⟩, false, 3, .dyn, false⟩).wellFormed = false := by decide
theorem test_drain_same_register_ill_formed : (Instr.svdrn 5 5 6 ⟨0, false⟩).wellFormed = false := by decide
theorem test_agent_step_ill_formed : (Instr.go 0).wellFormed = false := by decide

/-! ### Words, written out from the encoding tables of spec 07 and the listings of spec 14 to 16 -/

/-- lsync.g: SUB 2 of major 0x0E, scope g = 1 in [27:24] (R143, R169). -/
theorem test_word_lsync : decodeTableWord 32 0x0100003B = some (.lsync .g) := by decide +kernel
/-- addi s12, s12, -6263: imm15 in [31:17], sa in [16:12], sd in [11:7], major 0x01 (R142). -/
theorem test_word_addi : decodeTableWord 32 0xCF12C607 = some (.addi 12 12 (-6263)) := by decide +kernel
theorem test_word_lih : decodeTableWord 32 0x2468B61B = some (.lih 12 0x2468B) := by decide +kernel
theorem test_word_ld : decodeTableWord 32 0x0006A433 = some (.ld 8 10 0) := by decide +kernel
theorem test_word_branch : decodeTableWord 32 0x00609423 = some (.bEq 8 9 6) := by decide +kernel
theorem test_word_jump : decodeTableWord 32 0xFFFFFD27 = some (.j (-6)) := by decide +kernel
theorem test_word_waita : decodeTableWord 32 0x0010A5C3 = some (.waita 11 10 8) := by decide +kernel
theorem test_word_brk : decodeTableWord 32 0x00400063 = some .brk := by decide +kernel
theorem test_word_sret : decodeTableWord 32 0x00800063 = some .sret := by decide +kernel
theorem test_word_vcfg : decodeTableWord 32 0x002002E7 = some (.vcfg 5 2 false 0) := by decide +kernel
theorem test_word_vsetl : decodeTableWord 32 0x00427367 = some (.vsetl 6 7 0 true false) := by decide +kernel
theorem test_word_header : decodeTableWord 32 0x00042CF7 = some (.convoyHeader 1 0x10B) := by decide +kernel
theorem test_word_vld :
    decodeTableWord 64 0x30F3 = some (.vld ⟨1, 0, 0, ⟨0, false⟩, false, 0, .dyn, false⟩) := by decide +kernel
theorem test_word_vfma :
    decodeTableWord 64 0x00000001840867F3 = some (.vfma ⟨3, 1, 2, 3, ⟨0, false⟩, .dyn, false⟩) := by decide +kernel
theorem test_word_fsbind : decodeTableWord 64 0x0100020000001973 = some (.fsbindGroup 1 0) := by decide +kernel
theorem test_word_cgsel : decodeTableWord 64 0x002000000000D973 = some (.cgsel 6 0) := by decide +kernel
theorem test_word_rpost : decodeTableWord 64 0x0000000801AC507B = some (.rpost 12 13 2) := by decide +kernel
/-- The worked words of spec 07, 14 and 15. -/
theorem test_words_of_spec :
    decodeTableWord 32 0x000653B3 = some (.ld 7 5 0) ∧ decodeTableWord 32 0x000E53B3 = none ∧
    decodeTableWord 32 0xFFE003A3 = some (.bEq 7 0 (-2)) ∧ decodeTableWord 32 0x00020307 = some (.addi 6 0 1) ∧
    decodeTableWord 32 0x0C26A4BF = some (.amoAdd .w64 9 10 19) ∧ decodeTableWord 32 0x1ADAF03B = some (.stRel .q .p 15 13) ∧
    decodeTableWord 32 0x0040F043 = some (.wakea 0 15 0) ∧ decodeTableWord 32 0x100127DB = some (.ldcB 15 18 0x100) := by decide +kernel
theorem test_compact_words_of_spec :
    decodeTableWord 16 0x05F4 = some (.cAddi 5 (-3)) ∧ decodeTableWord 16 0x4282 = some (.cVadd 5 2) := by decide +kernel
theorem test_vector_words_of_spec :
    decodeTableWord 64 0x0010020F06001873 = some (.qsetx .trap 1 3 30) ∧
    decodeTableWord 64 0x1100000000082AF3 = some (.vcmp .ne 1 1 (.s 0) ⟨0, false⟩) ∧
    decodeTableWord 64 0x0000002000106FF3 = some (.vscan ⟨.sum, 3, 2, none, ⟨1, false⟩, .dyn⟩) ∧
    decodeTableWord 64 0x00000220002011F3 = some (.vst ⟨0, 4, 1, ⟨1, false⟩, false, 0, .dyn, false⟩) := by decide +kernel
/-- fadd.d s3, s4, s5; fnmadd.s.rtz; csrs s3, s4, 0x019; tdep v33, q2; gtrig (R142, R143). -/
theorem test_scalar_words :
    decodeTableWord 32 0x200A41C7 = some (.fadd .f64 .dyn 3 4 5) ∧ decodeTableWord 32 0x518A41CB = some (.fnmadd .f32 .rtz 3 4 5 6) ∧
    decodeTableWord 32 0x019441CF = some (.csrs 3 4 0x019) ∧ decodeTableWord 32 0x1DC020D3 = some (.tdep (.v 33) (.q 2)) ∧
    decodeTableWord 32 0x00400057 = some .gtrig := by decide +kernel
/-- kadd k2, s6; svclr s5, s6; mwait; cpy q1, q2, s6, k3; rwo 7, s5, s6 (R144, R145, R151). -/
theorem test_control_words :
    decodeTableWord 64 0x00304000003018F3 = some (.kadd 2 6) ∧ decodeTableWord 64 0x004000000C281473 = some (.svclr 5 6) ∧
    decodeTableWord 64 0x00200000000014F3 = some .mwait ∧ decodeTableWord 64 0x0000000C8406107B = some (.cpy 1 2 6 3) ∧
    decodeTableWord 64 0x0000000000C543FB = some (.rwo 7 5 6) := by decide +kernel
/-- Major 0x1B is reserved (R139, R140). -/
theorem test_word_reserved_major : decodeTableWord 32 0x0000006F = none := by decide +kernel

/-! ### States -/

/-- One hart at level U on package 0, whose addresses 0x1FE4_0000_0000_0000 + x name byte x of die 0, with the unit
core of vault channel 0 there. -/
def base : State := { State.reset.withLaunch with cores := [{ pkg := 0, die := 0, core := 0, units := [(0, 1)] }] }

def baseWith (f : Hart → Hart) : State := base.mapHart f

/-- `base` with these s registers. -/
def regs (l : List (Nat × Quad)) : State := baseWith fun h => { h with s := l.foldl (fun v p => v.set! p.1 p.2) h.s }

/-- An address of the vault storage of core 0 of die 0, and where it lies. -/
def spot : Quad := 0x3FE7F00000000000

def spotLoc : Loc :=
  { phys := 0x2000000000000000, shown := spot, slice := .vault 0 0, slot := none, via := none }

/-- s5 holds `spot`, s10 too, s6 holds 7. -/
def here : State := regs [(5, spot), (10, spot), (6, 7), (8, spot + 1)]

/-- A load of s3 waits in the queue while an instruction uses s5: the hypotheses of PerformingAccesses. -/
def busy (op : AccOp) : State := baseWith fun h =>
  { h with pend := [{ seq := 1, queue := 0, slice := .vault 0 0, addr := 0x2000000000000000, size := 8, op := op, held := 0, tag := none, via := none }] }

def kernel : State := baseWith fun h => { h with
  level := .s, s := h.s.set! 5 spot, sup := { h.sup with vown := true } }

/-- A pending collective result for v3. -/
def due (h : Hart) : Hart := { h with
  colls := [{ handle := 1, seq := 0, j := 0, vd := 3, oldTag := .n32, act := 0, env := h.env,
              ltag := 1, k := 0, nb := false, word := 0, pc := 0 }] }

/-- Lane groups 0 and 1 are the share of the gang, and the hart asks for two. -/
def asking : State := { base with
  pkgs := [{ launchPackage with gangs := [{ gangid := 1, queue := 0, seq := 1, ctx := 0, prio := 0, order := 0, size := 1, cores := [{ die := 0, core := 0, lanes := 3, tiles := 1 }] }] }],
  hart := { base.hart with csr := { base.hart.csr with lgreq := 2 } } }

theorem ok_exists {ε α : Type} (r : Except ε α) (h : (match r with | .ok _ => true | .error _ => false) = true) : ∃ x, r = .ok x := by
  cases r with
  | ok x => exact ⟨x, rfl⟩
  | error _ => simp at h

/-- Queue 2 of package 0 is a device queue of 16 slots, of context 3, whose ring lies in die 0; `tail` records have been
given to it. -/
def queued (tail : Quad) : State := { here with
  mem := writeQuads (writeQuads here.mem (0x100000 + 16832 + 128) [0x1FE4000000700000, 0x300C4, 0, tail]) (0x100000 + 448 + 192 + 8) [1],
  hart := { here.hart with s := here.hart.s.set! 6 2 } }

/-- A second hart of the gang. -/
def pair : State := { here with others := [{ here.hart with ref := ⟨0, 1⟩ }] }

/-- Level S, with sixteen units of vault behind `spot`. -/
def saving : State := { kernel with cores := [{ pkg := 0, die := 0, core := 0, units := (List.range 16).map fun i => (i, 1) }] }

/-- An engine command of the hart that still runs. -/
def running (h : Hart) : Hart := { h with cmds := [{ seq := 1, k := 0, pc := 0, op := .fuller [] 0, held := 0, nearest := 0 }] }

/-- Ten elements: v4, v5 and v6 hold binary32 numbers, v7 integers. -/
def vec : State := baseWith fun h => { h with
  s := h.s.set! 5 spot, csr := { h.csr with vl := 10 },
  v := (((h.v.set! 4 { tag := .f32, data := [0x3F800000, 0x40000000] }).set! 5 { tag := .f32, data := [0x40000000] }).set! 6 { tag := .f32 }).set! 7
    { tag := .i32, data := [5, 0xFFFFFFFF] } }

/-- Gang 2, placed into the quota of gang 1, holds the lane group of its parked hart. -/
def crowded : State := { here with
  pkgs := [{ launchPackage with gangs := launchPackage.gangs ++ [{ gangid := 2, queue := 1, seq := 1, ctx := 0, prio := 0, order := 1, size := 1, cores := [{ die := 0, core := 0, lanes := 1, tiles := 0 }], ancestors := [1] }] }],
  hart := { here.hart with status := .parked (.gyield 0) 7 (some 0) },
  others := [{ here.hart with ref := ⟨0, 1⟩, csr := { here.hart.csr with gangid := 2 } }] }

/-- `vec` with streams: q1 is a unit stream of binary32 at `spot`, q2 strided, q3 indexed by v7 below 8, q4 and q5 with
tables. -/
def streamed : State := vec.mapHart fun h => { h with
  q := ((((h.q.set! 1 { base := spot, kind := 1, fmt := .f32 }).set! 2 { base := spot, stride := 4, kind := 2, fmt := .f32 }).set! 3
    { base := spot, kind := 3, idx := 7, bound1 := 8, fmt := .n32 }).set! 4 { base := spot, kind := 4, idx := 7, stride := spot, bound1 := 8, bound2 := 8, fmt := .n32 }).set! 5
    { base := spot, kind := 5, idx := 7, bound1 := 8, bound2 := 8, bound3 := 8, fmt := .n32 } }

/-- A Sieve of 16 entries, all empty, with the keys 5 and 2^32 - 1 in v7. -/
def sieved : State := { (vec.mapHart fun h => { h with csr := { h.csr with vl := 2 } }) with
  cores := [{ pkg := 0, die := 0, core := 0, sieve := 16 }],
  mem := writeQuads vec.mem (vec.hart.sieveAddr 16 0) ((List.replicate 16 [BitVec.allOnes 64, (0 : Quad)]).flatten) }

/-- Before `vec` lie a sloop.par, a convoy of vadd v1, v4, v5 and vst q1, v4, and a snext. -/
def convoy : State := { streamed with
  mem := writeN (writeN (writeQuad (writeQuad streamed.mem 0x500008 169877619) 0x500010 2199025357299) 0x500004 4 0x8077) 0x500018 4 0x00080067 }

/-- exec gives a next state of which p holds. -/
def after (i : Instr) (s : State) (p : State → Bool) : Bool :=
  match exec i s with
  | .next t => p t
  | _ => false

/-- `vec` where a load of s3 from `spot` is issued. -/
def loading (op : AccOp) (slice : Slice) (train : Option Nat) : State := vec.mapHart fun h => { h with
  pend := [{ seq := 1, queue := 0, slice := slice, addr := 0x2000000000000000, size := 8, op := op, held := 0, tag := none, train := train }],
  nbs := [{ seq := 0, k := 2 }], tagBusy := 2, unacked := [7] }

/-- A hart whose addsi s12, s12, -6263 lies at its pc. -/
def fetching : State := State.reset.withFetchWord 32 0xCF12C607

/-- Package 0 with these shoot-down requests. -/
def shooting (l : List Shoot) : State := base.setPack { launchPackage with shoots := l }

def crash : Shoot := { hart := ⟨0, 0⟩, asid := some 1, offset := none }

/-- A command of the hart that copies two elements from `spot` + 64 to `spot`. -/
def copying : State := vec.mapHart fun h => { h with
  s := h.s.set! 6 2,
  q := (h.q.set! 1 { base := spot, kind := 1, fmt := .f32 }).set! 2 { base := spot + 64, kind := 1, fmt := .f32 } }

def aCopy (k : KReg) : Cmd := { seq := 4, k := k, pc := 0, op := .copy { base := spot, kind := 1, fmt := .f32 } { base := spot + 64, kind := 1, fmt := .f32 } [] [] .n32 .n32 2 0 none, held := 0, asid := 1 }

/-- Two harts of one gang that are each other's peers on channel 5, with these messages on their way. -/
def peers (l : List Message) : State := { vec with
  hart := { vec.hart with s := (vec.hart.s.set! 8 0xFF001).set! 9 5, f := vec.hart.f.set! 2 (.peer false ⟨0, 1⟩ 5 0 0), joined := vec.hart.joined.set! 3 (some { handle := 7, rank := 0 }) },
  others := [{ vec.hart with ref := ⟨0, 1⟩ }], messages := l, mem := writeQuad vec.mem 0x210008 0 }

def note (n : Nat) (sender dst : HartRef) : Message :=
  { number := n, sender := sender, gang := 1, instr := 1, f := 2, dst := dst, channel := 5, seq := 0, crypt := false, tag := .i32, elems := [7, 8], k := 0, nb := false }

/-- Group 7 of two ranks, of asid 1; `all` says that rank 1 has joined too. The hart has rank 0 at index 3, bound to f2,
and the operations of the group are these. -/
def grouped (all : Bool) (x : Joined) (ops : List CollOp) : State := { vec with
  mem := writeQuads vec.mem 0x204000 [0x0000000700010001, 5, 0, 0x500000, 0, 0x1000],
  groups := [{ handle := 7, joined := if all then [(0, ⟨0, 0⟩), (1, ⟨0, 1⟩)] else [(0, ⟨0, 0⟩)], leaving := [1] }],
  ops := ops, aborts := [⟨7, 0, 6, 0⟩],
  hart := { vec.hart with s := (vec.hart.s.set! 8 7).set! 9 1, csr := { vec.hart.csr with cgrp := 3 },
                          f := vec.hart.f.set! 2 (.group 3 false 0 0), joined := vec.hart.joined.set! 3 (some x) } }

def rank0 : Joined := { handle := 7, rank := 0 }

def part (rank : Nat) (accepted : Bool) : Contribution :=
  { number := 1, rank := rank, hart := ⟨0, rank⟩, gang := 1, body := some (.i32, 0, 0), elems := [some 4], k := 0, nb := false, accepted := accepted, arrived := if accepted then [0] else [] }

def anOp (parts : List Contribution) (v : Option Verdict) : CollOp := { handle := 7, seq := 0, pkg := 0, parts := parts, first := some 0, verdict := v }

/-- Package 0 as `f` leaves it, with these quads of its fabric block, by offset. -/
def net (f : Package → Package) (quads : List (Nat × Quad)) : State :=
  { vec.setPack (f launchPackage) with mem := quads.foldl (fun m q => writeQuad m (0x200000 + q.1) q.2) vec.mem }

def toPkg5 : CircuitEntry := { index := 0, slot := 0, num := 0, dest := 5, colours := 1, path := [⟨0, 0, 1⟩, ⟨5, 1, 0⟩], acked := true }

def slots : SlotTable := { epoch := 1, actrot := 1, master := 0, nslot := 2, guard_ := 1, slotlen := 1000, entries := [toPkg5] }

def aPost : Post := { number := 9, dest := 5, src := spot, dst := spot, len := 64, hart := ⟨0, 0⟩, gang := 1, asid := 1, k := 0, seq := 1, nearest := 4 }

def aPacket : TPacket := { conn := 1, psn := 3, op := 0, req := 7, offset := 0, total := 8, addr := spot, sig := none, payload := [1], sealOk := true }

def aConn : Conn := { conn := 1, asid := 1, peer := 2, psn := 4, unacked := [aPacket] }

def aRequest : WorkReq := { number := 7, conn := 1, quads := [0, 8], addr := spot, hart := ⟨0, 0⟩, gang := 1, asid := 1, k := 0, seq := 1, nearest := 4, armed := false, ends := some 3 }

/-- The transport of package 0 holds this; connections 0 to 15 are open. -/
def wired (t : Transport) : State := net (fun p => { p with transport := t }) [(24, 0x24)]

/-- Package 0 schedules: queue 2 takes records on die 0 in context 3, and its ring holds one good record. -/
def sched (f : Package → Package) (h : Hart) : State := { here with
  mem := [(0x100000, 8), (0x100000 + 16832 + 128, 0x1FE4000000700000), (0x100000 + 16832 + 136, 0x310C4), (0x100000 + 16832 + 152, 1),
          (0x100000 + 448 + 192 + 8, 1), (0x100000 + 448 + 192 + 24, 1), (0x100000 + 448 + 192 + 40, 1),
          (0x700000, 0x1FE4000000500000), (0x700018, 0x100000000000)].foldl (fun (m : List Host.Cell) (q : Nat × Quad) => writeQuad m q.1 q.2) here.mem,
  pkgs := [f { launchPackage with gangs := [] }], hart := h }

def aRecord : Waiting := { queue := 2, seq := 0, quads := [0x1FE4000000500000, 0, 0, 0x100000000000, 0, 0, 0, 0], ctx := 3, asid := 1, dies := 1, groups := [], ancestors := [] }

def aGang : Gang := { gangid := 1, queue := 2, seq := 0, ctx := 3, prio := 0, order := 0, size := 1, cores := [{ die := 0, core := 0, lanes := 1, tiles := 0 }] }

/-- Huane of package 0 sees one command of ring 0, with these quads. -/
def mailed (f : Huane → Huane) (ring : Nat) (quads : List Quad) : State := { vec with
  mem := writeQuads (writeN vec.mem (0x310000 + 4096 * ring) 4 1) (0x310000 + 4096 * ring + 0x100) quads,
  pkgs := [{ launchPackage with huane := f { launchPackage.huane with lcs := 2, tails := [(ring, 1)] } }] }
/-! ### Integers, branches, jumps -/

theorem test_div_by_zero : ∃ t, exec (.div 7 6 0) here = .next t ∧ t.hart.getS 7 = 0xFFFFFFFFFFFFFFFF := ⟨_, rfl, by decide +kernel⟩
theorem test_sll_uses_six_bits :
    ∃ t, exec (.sll 7 6 9) (regs [(6, 3), (9, 65)]) = .next t ∧ t.hart.getS 7 = 6 := ⟨_, rfl, by decide +kernel⟩
theorem test_s0_discards : ∃ t, exec (.addi 0 6 1) here = .next t ∧ t.hart.getS 0 = 0 := ⟨_, rfl, by decide +kernel⟩
theorem test_lih : ∃ t, exec (.lih 12 0x2468B) here = .next t ∧ t.hart.getS 12 = 0x123458000 := ⟨_, rfl, by decide +kernel⟩
theorem witness_fields : (.wslot, 56, 5) ∈ fieldTable := by decide
theorem witness_jumps : ((here.needS [5]).hart.getS 5).getLsbD 0 = false ∧ ((here.needS [5, 7]).hart.getS 5).getLsbD 0 = false := by decide +kernel
theorem witness_odd_jumps : ((here.needS [8]).hart.getS 8).getLsbD 0 = true ∧ ((here.needS [8, 7]).hart.getS 8).getLsbD 0 = true := by decide +kernel

/-! ### Floating point -/

theorem witness_nan : (FFmt.f32.ff.val 0x7F800001).isNan ∧ (FFmt.f64.ff.val 0x7FF8000000000000).isNan := by decide +kernel
theorem test_add_f32 : (FFmt.f32.ff.add .rne false 0x3F800000 0x40000000).1 = 0x40400000 := by decide +kernel
theorem test_div_zero_f32 : FFmt.f32.ff.div .rne false 0x3F800000 0 = (0x7F800000, flagDZ) := by decide +kernel

/-! ### Scalar memory -/

theorem reads_of {u : State} {a : Quad} {n : Nat} {k : AccKind} {r : SpaceRule} {w : Bool} {l : Loc}
    (c : u.check19 u.hart u.hart.asid a n k r = .ok l) (p : u.poisoned l.phys = false) (h : Reaches u a n k r w l) :
    Reads u u a n k r w l := ⟨⟨l, c, by rw [p]; rfl⟩, h.2, h.1⟩
theorem witness_loads : Reads (here.needS [7, 5]) (here.needS [7, 5]) ((here.needS [7, 5]).hart.getS 5 + (0 : BitVec 12).signExtend 64) 8 .read .any false spotLoc :=
  reads_of (by decide +kernel) (by decide +kernel) (by unfold Reaches; decide +kernel)
theorem witness_compact_load : Reads (here.needS [9, 10]) (here.needS [9, 10]) ((here.needS [9, 10]).hart.getS 10 + 8 * (0 : BitVec 5).setWidth 64) 8 .read .any false spotLoc :=
  reads_of (by decide +kernel) (by decide +kernel) (by unfold Reaches; decide +kernel)
theorem witness_constant_load : Reads (here.needS [7, 5]) (here.needS [7, 5]) ((here.needS [7, 5]).hart.getS 5 + (0 : BitVec 12).signExtend 64) 4 .read .own false spotLoc :=
  reads_of (by decide +kernel) (by decide +kernel) (by unfold Reaches; decide +kernel)
theorem witness_stores : Reaches (here.needS [7, 5]) ((here.needS [7, 5]).hart.getS 5 + (0 : BitVec 12).signExtend 64) 8 .write .any true spotLoc := by
  unfold Reaches; decide +kernel
theorem witness_compact_store : Reaches (here.needS [9, 10]) ((here.needS [9, 10]).hart.getS 10 + 8 * (0 : BitVec 5).setWidth 64) 8 .write .any true spotLoc := by
  unfold Reaches; decide +kernel
theorem witness_atomics : Reads (here.needS [7, 5, 6]) (here.needS [7, 5, 6]) ((here.needS [7, 5, 6]).hart.getS 5) 8 .atomic .any true spotLoc :=
  reads_of (by decide +kernel) (by decide +kernel) (by unfold Reaches; decide +kernel)
theorem witness_failed_checks :
    (here.needS [7, 8]).check (here.needS [7, 8]).hart (here.needS [7, 8]).hart.asid ((here.needS [7, 8]).hart.getS 8 + (0 : BitVec 12).signExtend 64) 8 .read .any =
      .error (.inl { cause := 0x06, tinfo := spot + 1 }) ∧
    (here.needS [7, 8]).check (here.needS [7, 8]).hart (here.needS [7, 8]).hart.asid ((here.needS [7, 8]).hart.getS 8 + (0 : BitVec 12).signExtend 64) 8 .write .any =
      .error (.inl { cause := 0x06, tinfo := spot + 1 }) ∧
    (here.needS [7, 8, 6]).check (here.needS [7, 8, 6]).hart (here.needS [7, 8, 6]).hart.asid ((here.needS [7, 8, 6]).hart.getS 8) 8 .atomic .any =
      .error (.inl { cause := 0x06, tinfo := spot + 1 }) := by decide +kernel
theorem witness_checks_that_pass : here.check here.hart here.hart.asid spot 8 .read .any = .ok spotLoc := by decide +kernel
theorem witness_pending_elsewhere : Memory.wf (busy (.store 5)).mem = true ∧ Untouched (busy (.store 5)) 0x1000 := by
  refine ⟨by decide +kernel, fun a ha => ?_⟩
  rw [show (busy (.store 5)).hart.pend = [_] from rfl, List.mem_singleton] at ha
  subst ha
  refine ⟨by decide, fun mem b hb => ?_⟩
  cases (Except.ok.inj hb : _ = b)
  exact ⟨by decide +kernel, by decide +kernel⟩
/-- The pages of `s` map the bytes of another die, and it has dropped no key. -/
theorem witness_arrival : (let s := busy (.store 5)
    let far := fun (a : Access) => { a with shown := 0x1FEC000000000000, via := some (1, 0, 0), slice := .remote 0 1 }
    s.unauthentic s.hart.pend[0]! = false ∧
    (s.translate s.hart 0 1 1 0 (s.hart.canon 0x1FEC000000000000 / 2 ^ 42 % 512) .write 0x1FEC000000000000).isOk = false ∧
    (far s.hart.pend[0]!).via ≠ none ∧ s.hart.die ≠ 1) := by decide +kernel
theorem witness_register_tail : (let s := sched id here.hart
    let b := 0x100000
    let d := b + 16832 + 64 * 2
    let a := d + 24
    s.blockBase (a / 2 ^ 53) 1 = some b ∧ b % 65536 = 0 ∧ s.tailsIn a 4 = [d] ∧ Memory.wf s.mem = true ∧
    (∀ i, i < 4 → s.fieldsAt (a + i) = schedFields (2104 + 8 * 2 + 3) ((readQuad s.mem (d + 8)).getLsbD 7)) ∧
    s.tailsIn 0x600000 8 = [] ∧ ∀ i, i < 8 → s.fieldsAt (0x600000 + i) = Fields.all) := by decide +kernel
theorem witness_unrelated_load (a : Access) (h : a ∈ (busy (.load (.s 3 false))).hart.pend) (g : Bool) (i : Nat) (op : AmoOp) (x y : Quad) :
    a.op ≠ .load (.s 5 g) ∧ a.op ≠ .loadConst (.s 5 g) ∧ a.op ≠ .loadWindow i (.s 5 g) ∧ a.op ≠ .amo op x 5 ∧ a.op ≠ .cas x y 5 := by
  simp [busy, baseWith, base, State.withLaunch, State.mapHart] at h; subst h; simp
theorem witness_performing (op : AccOp) :
    ∃ a, (busy op).hart.pend[0]? = some a ∧ a.op = op ∧ forwardData ((busy op).hart.pend.take 0) a = none ∧
      (busy op).poison.contains (a.addr / 32) = false := ⟨_, rfl, rfl, rfl, rfl⟩
theorem witness_performing_poisoned : (let s := { busy (.load (.s 3 false)) with poison := [0x2000000000000000 / 32] }
    (match s.hart.pend[0]? with
      | some a => a.op.reads && s.poison.contains (a.addr / 32) && (forwardData [] a).isNone
      | none => false) = true) := by decide +kernel
theorem witness_nibble : (AccOp.storeNibble true 3).reads = false ∧
    (({ seq := 1, queue := 0, slice := .vault 0 0, addr := 0x2000000000000000, size := 1, op := .storeNibble true 3, held := 0, tag := none,
        via := none } : Access)).size = 1 := by decide
theorem test_amo_add : amoApply .add true 7 9 = 16 := by decide +kernel
theorem test_cas_writes : readByte ((busy (.cas 0 9 3)).performAt 0).mem 0x2000000000000000 = 9 := by decide +kernel
theorem test_cas_differs : readByte ((busy (.cas 1 9 3)).performAt 0).mem 0x2000000000000000 = 0 := by decide +kernel

/-! ### Ordering, and waiting on memory -/

theorem witness_sync_ready : SyncReady here .g ∧ SyncReady here .h := by unfold SyncReady; decide +kernel
theorem witness_sync_waits : ¬SyncReady (base.mapHart running) .g := by unfold SyncReady; decide +kernel
theorem witness_store_release : SyncReady here .g ∧ Reaches ((synced here .g).needS [6, 5]) (((synced here .g).needS [6, 5]).hart.getS 5) 8 .write .any true spotLoc := by
  unfold SyncReady Reaches; decide +kernel
/-- An entry of the queue, a vst, waits to execute. -/
def waiting (h : Hart) : Hart := { h with thaw := true, frozen := [{ word := 0x220002011F3, pc := 0, start := 0, doneElems := 0, env := h.env }] }
theorem witness_ifence : (base.hart.loudQueue = false ∧ base.drain.hart.pend = []) ∧ (base.mapHart waiting).hart.loudQueue = true := by decide +kernel
theorem witness_waita : SyncReady here .g ∧ ((synced here .g).check (synced here .g).hart (synced here .g).hart.asid ((synced here .g).hart.getS 5) 8 .read .home = .ok spotLoc) ∧
    readQuad (synced here .g).mem spotLoc.phys ≠ (synced here .g).hart.getS 6 ∧ readQuad (synced here .g).mem spotLoc.phys = (synced here .g).hart.getS 7 ∧
    ((synced here .g).waiters.filter (·.home == homeOf spotLoc.phys)).length < 32 ∧ Quiet (synced here .g) ∧
    32 ≤ ((List.replicate 32 (⟨homeOf spotLoc.phys, 0, ⟨0, 1⟩⟩ : Waiter)).filter (·.home == homeOf spotLoc.phys)).length := by
  unfold SyncReady Quiet; decide +kernel
theorem witness_wakea : ((here.needS [7, 5, 6]).check19 (here.needS [7, 5, 6]).hart (here.needS [7, 5, 6]).hart.asid ((here.needS [7, 5, 6]).hart.getS 5) 8 .read .home = .ok spotLoc) ∧
    (match (here.needS [7, 5, 6]).settle ((here.needS [7, 5, 6]).hart.taintS 5 ||| (here.needS [7, 5, 6]).hart.taintS 6) with
      | .ok w => let inLine := fun (x : Access) => x.op.writes && meets (64 * (spotLoc.phys / 64)) 64 x.addr x.size
        let v := w.drainUntil inLine
        !v.hart.queueTouches (w.hart.canon (w.hart.getS 5) / 64 * 64) 64 false && !v.hart.pend.any inLine
      | .error _ => false) = true := by decide +kernel

/-! ### CSRs and taint -/

theorem witness_csr_low : (0x010 : BitVec 12).toNat < 0x800 ∧ here.csrGet 0x010 = some 0 ∧ here.csrGet 0x7FF = none := by decide +kernel
theorem witness_csr_high : ¬((0x800 : BitVec 12).toNat < 0x800 ∨ here.hart.level = .s) := by decide +kernel
theorem witness_csr_privileged : kernel.hart.level = .s ∧ (kernel.csrGet 0x806).isSome = true := by decide +kernel
theorem witness_csr_waits : ((0x015 : BitVec 12) = 0x015 ∧ (0x015 : BitVec 12).toNat < 0x800) ∧ (base.mapHart due).hart.vectorBusy = true ∧
    base.hart.vectorBusy = false ∧ (base.needS [7, 6]).drain.hart.struck = false ∧ (base.needS [7, 6]).drain.hart.pend = [] ∧
    (base.needS [7]).drain.hart.struck = false ∧ (base.needS [7]).drain.hart.pend = [] := by decide +kernel
theorem witness_csr_writable : (0x044, 0xFF) ∈ csrWritable ∧ (kernel.csrGet 0x044).isSome = true := by decide +kernel
theorem witness_csr_fixed : ∀ p ∈ csrWritable, p.1 ≠ (0x030 : BitVec 12) := by simp [csrWritable]
theorem witness_root : (0x1000 : Quad).extractLsb' 0 6 = 0 ∧ (1 : Quad).extractLsb' 0 6 ≠ 0 := by decide
theorem witness_csr_clears : Sound here ∧ (kernel.csrGet 0x017).isSome = true := by unfold Sound; decide +kernel
theorem test_csrw_frm : ∃ t, exec (.csrw 7 6 0x019) here = .next t ∧ t.hart.csr.frm = 7 := ⟨_, rfl, by decide +kernel⟩
theorem test_csr_trap_at_u : ∃ t, exec (.csrr 7 0x800) here = .next t ∧ t.hart.sup.tcause.extractLsb' 0 8 = 0x03 := ⟨_, rfl, by decide +kernel⟩

theorem witness_taint : here.hart.midGroup (.s 5) = false ∧
    (baseWith fun h => { h with csr := { h.csr with gl := 1 } }).hart.midGroup (.v 1) = true ∧
    (5 : SReg) ≠ 0 := by decide +kernel

/-! ### Vector configuration, grants, gangs -/

theorem witness_vcfg : Quiet here := by unfold Quiet; decide +kernel
theorem witness_grant : asking.hart.csr.lgreq ≠ 0 ∧ popCount asking.hart.csr.lgrp.toNat 8 = asking.hart.g ∧
    asking.hart.csr.lgrp &&& asking.freeShare = 0 := by decide +kernel
theorem witness_grant_changes : min asking.hart.csr.lgreq.toNat (asking.hart.g + popCount asking.freeShare.toNat 8) ≠ asking.hart.g := by
  decide +kernel
theorem test_vcfg_vlmax : ∃ t, exec (.vcfg 5 2 false 0) base = .next t ∧ t.hart.getS 5 = 256 := ⟨_, rfl, by decide +kernel⟩
theorem test_vsetl : ∃ t, exec (.vsetl 7 6 1 false false) (regs [(6, 1000)]) = .next t ∧ t.hart.getS 7 = 128 := ⟨_, rfl, by decide +kernel⟩
theorem test_sloop_empty : ∃ t, exec (.sloop 6 8) (regs [(6, 0)]) = .next t ∧ t.hart.pc = 0x1FE4000000500010 := ⟨_, rfl, by decide +kernel⟩

theorem witness_glaunch_full : (let v := ((queued 16).needS [7, 5, 6]).drain
    match v.settle (v.hart.taintS 5 ||| v.hart.taintS 6) with
    | .ok u => let d := u.queueDesc 0 2
      (match u.check19 u.hart u.hart.asid (u.hart.getS 5) 64 .read .own with | .ok l => decide (l = spotLoc) | .error _ => false) &&
      (u.awaitTurn (u.hart.canon (u.hart.getS 5)) 64 false).isOk && u.hart.pend.isEmpty && u.poison.isEmpty &&
      d.dev && d.en && u.ctxAsid 0 d.ctx == u.hart.asid && decide ((d.tail - d.head).toNat = 2 ^ d.log2)
    | .error _ => false) = true := by decide +kernel
theorem witness_glaunch_appends : (let v := ((queued 15).needS [7, 5, 6]).drain
    match v.settle (v.hart.taintS 5 ||| v.hart.taintS 6) with
    | .ok u => let d := u.queueDesc 0 2
      decide ((d.tail - d.head).toNat ≠ 2 ^ d.log2) && decide (fieldOf d.ring 61 3 = 0) && decide (pkgOf 0 (fieldOf d.ring 53 8) = 0) &&
      decide (u.blockBase 0 1 = some 0x100000) && (u.check u.hart u.hart.asid (d.slot d.tail) 64 .write .own).isOk
    | .error _ => false) = true := by decide +kernel
theorem witness_gwait : (let v := fun (tail : Quad) => synced ((queued tail).needS [7, 6, 6]) .g
    SyncReady ((queued 3).needS [7, 6, 6]) .g ∧ ((v 3).blockBase 0 1).isSome = true ∧
    (v 3).ctxAsid 0 ((v 3).queueDesc 0 2).ctx = (v 3).hart.asid ∧ Quiet (v 3) ∧
    ((2 : Word) - ((v 1).queueDesc 0 2).tail).toNat < 2 ^ 31 ∧ ((2 : Word) - ((v 3).queueDesc 0 2).tail).toNat ≥ 2 ^ 31 ∧
    ((2 : Word) - (v 3).nextAccept 0 2).toNat < 2 ^ 31) := by unfold SyncReady Quiet; decide +kernel
/-- Queue 2 of `queued`, whose three records are accepted; quad 7 of record 2 is this. -/
def marked (mark : Quad) : State := (queued 3).setPack { (queued 3).pack 0 with nexts := [(2, 3)] } |> fun s =>
  { s with mem := writeQuad s.mem (0x700000 + 64 * 2 + 56) mark }
theorem witness_gwait_marked : (let v := fun (mark : Quad) => synced ((marked mark).needS [7, 6, 6]) .g
    SyncReady ((marked 0).needS [7, 6, 6]) .g ∧ Quiet (v 0) ∧ ((2 : Word) - (v 0).nextAccept 0 2).toNat ≥ 2 ^ 31 ∧
    (v 0x200000004).recordMark 0 2 2 = some (2, 4) ∧ (v 0x200000001).recordMark 0 2 2 = some (2, 1) ∧
    (v 0).recordMark 0 2 2 = some (0, 0)) := by unfold SyncReady Quiet; decide +kernel

theorem witness_gbar : SyncReady pair .g ∧
    (¬∀ h ∈ (synced pair .g).others, h.pkg = pair.hart.pkg ∧ h.csr.gangid = pair.hart.csr.gangid → h.atBarrier = true) ∧
    (∀ h ∈ (synced here .g).others, h.pkg = here.hart.pkg ∧ h.csr.gangid = here.hart.csr.gangid → h.atBarrier = true) := by
  unfold SyncReady; decide +kernel
theorem witness_gexit : Quiet here ∧ (∀ c ∈ here.hart.cmds, c.stopped = true) ∧ here.remoteBusy 4 = false ∧ here.hart.colls = [] ∧
    here.hart.queued = false ∧ here.drain.hart.pend = [] ∧ here.drain.hart.struck = false := by unfold Quiet; decide +kernel
/-- One vector instruction waits in the frozen queue. -/
theorem witness_trap_entry : base.hart.flights = [] ∧ (base.mapHart waiting).hart.frozen ≠ [] := by decide

/-! ### Traps and level S -/

theorem witness_sret : kernel.hart.level = .s ∧ kernel.drain.hart.struck = false ∧ kernel.drain.hart.revoked = false ∧
    kernel.drain.hart.sup.tpc.getLsbD 0 = false := by decide +kernel
theorem witness_sret_odd : (let s := kernel.mapHart fun h => { h with sup := { h.sup with tpc := 7 } }
    s.hart.level = .s ∧ s.drain.hart.struck = false ∧ s.drain.hart.revoked = false ∧ s.drain.hart.sup.tpc.getLsbD 0 = true) := by
  decide +kernel
theorem witness_sret_revoked : (let s := kernel.mapHart fun h => { h with revoked := true }
    let u := s.drain
    s.hart.level = .s ∧ u.hart.struck = false ∧ u.hart.revoked = true ∧ (∀ c ∈ u.hart.cmds, c.stopped = true) ∧
    u.remoteBusy 4 = false ∧ u.hart.colls = [] ∧ u.hart.queued = false ∧ u.drain.hart.pend = [] ∧ u.drain.hart.struck = false) := by
  decide +kernel
theorem witness_at_u : here.hart.level = .u := by decide
theorem test_sys : ∃ t, exec .sys here = .next t ∧ t.hart.sup.tcause.extractLsb' 0 8 = 0x10 ∧ t.hart.sup.tpc = here.hart.pc := ⟨_, rfl, by decide +kernel⟩

theorem witness_vqsave : (let w := ((saving.needS [7, 5]).mapHart fun h => h.freezeColls.dropTags).drain
    (w.area (w.hart.getS 5) w.hart.vqlen 64 .write .own).isOk = true) := by decide +kernel
theorem ok_of {ε α : Type} [DecidableEq α] {r : Except ε α} {x : α}
    (h : (match r with | .ok y => decide (y = x) | .error _ => false) = true) : r = .ok x := by
  cases r with
  | ok y => exact congrArg _ (of_decide_eq_true h)
  | error _ => cases h

/-- What is written to an area is read back, whatever the frame holds. -/
theorem saved_quads {s : State} (w : Memory.wf s.mem = true) (a id n : Nat) :
    ({ s with mem := writeQuads s.mem a (frameQuads id n) } : State).getArea [(a, n)] = frameQuads id n := by
  have h := readQuads_writeQuads (frameQuads id n) a w
  rw [frameQuads, List.length_map, List.length_range] at h
  rw [State.getArea, List.flatMap_singleton, frameQuads]; exact h

/-- `saving` with a frame of the queue of a hart at `spot`. -/
def framed (r : HartRef) : State := { saving with
  mem := writeQuads saving.mem 0x2000000000000000 (frameQuads 5 64),
  vqFrames := [{ id := 5, hart := r, bytes := 64, seq := 0, interlock := [], cmds := [], frozen := [] }] }
theorem framed_calm (r : HartRef) : ((framed r).needS [7, 5]).drain = framed r := rfl
theorem framed_area : (framed ⟨0, 0⟩).area spot 64 64 .read .own = .ok [(0x2000000000000000, 64)] ∧
    (framed ⟨0, 1⟩).area spot 64 64 .read .own = .ok [(0x2000000000000000, 64)] :=
  ⟨ok_of (by decide +kernel), ok_of (by decide +kernel)⟩
theorem framed_matches (r : HartRef) (h : (framed r).area spot 64 64 .read .own = .ok [(0x2000000000000000, 64)]) :
    (framed r).matchFrame spot ((framed r).vqFrames.map fun f => (f.id, f.bytes, f)) = .ok (framed r).vqFrames.head? := by
  have q : (framed r).getArea [(0x2000000000000000, 64)] = frameQuads 5 64 :=
    saved_quads (s := { saving with vqFrames := (framed r).vqFrames }) (show Memory.wf saving.mem = true by decide +kernel) _ 5 64
  rw [show (framed r).vqFrames = [_] from rfl, List.map_singleton, State.matchFrame]
  simp only [h, q, ne_eq, not_true_eq_false, if_false, if_true, List.head?_cons]
theorem witness_vqrest : ((framed ⟨0, 0⟩).hart.getS 5 = spot ∧ ((framed ⟨0, 0⟩).area spot 64 64 .read .own).isOk = true ∧
      (framed ⟨0, 0⟩).hart.queueBusy = false ∧ (framed ⟨0, 0⟩).vqFrames.map (·.hart) = [(framed ⟨0, 0⟩).hart.ref] ∧
      (framed ⟨0, 1⟩).vqFrames.map (·.hart) ≠ [(framed ⟨0, 1⟩).hart.ref]) ∧
    (framed ⟨0, 0⟩).matchFrame spot ((framed ⟨0, 0⟩).vqFrames.map fun f => (f.id, f.bytes, f)) = .ok (framed ⟨0, 0⟩).vqFrames.head? ∧
    (framed ⟨0, 1⟩).matchFrame spot ((framed ⟨0, 1⟩).vqFrames.map fun f => (f.id, f.bytes, f)) = .ok (framed ⟨0, 1⟩).vqFrames.head? ∧
    saving.matchFrame spot (saving.vqFrames.map fun f => (f.id, f.bytes, f)) = .ok none :=
  ⟨by decide +kernel, framed_matches _ framed_area.1, framed_matches _ framed_area.2, rfl⟩
theorem witness_vsave : (let u := (saving.needS [7, 5]).drain
    u.hart.queueBusy = false ∧ u.hart.noLanes = false ∧
    (u.area (u.hart.getS 5) (64 + 32768 * u.hart.g + 57344 + 65536 * u.hart.tiles.length) 64 .write .own).isOk = true) := by decide +kernel
/-- `saving`, whose trap came while the hart was parked: its registers lie in its park area, half a MiB past `spot`. -/
def parkedTrap : State := saving.mapHart fun h => { h with noLanes := true, sup := { h.sup with parkbase := spot + 0x80000 } }
theorem witness_park_area : (parkedTrap.parkPieces .read).isSome = true ∧ (parkedTrap.parkPieces .write).isSome = true := by decide +kernel
theorem witness_vsave_busy : (saving.mapHart due).hart.queueBusy = true := by decide +kernel
theorem witness_vrest : (let shape := fun (s : State) => match s.area spot 155712 64 .read .own with
      | .ok ps => decide (headKey ((s.getArea (ps.take 1)).getD 0 0) = headKey s.hart.saveHead)
      | .error _ => true
    shape saving = false ∧ shape { saving with mem := writeQuad saving.mem 0x2000000000000000 saving.hart.saveHead } = true ∧
    shape { parkedTrap with mem := writeQuad saving.mem 0x2000000000000000 parkedTrap.hart.saveHead } = true) := by decide +kernel
theorem witness_hsave : (let u := (saving.needS [7, 5]).drain
    (u.area (u.hart.getS 5) 4096 64 .write .own).isOk = true ∧ (u.area (u.hart.getS 5) 4096 64 .read .own).isOk = true) := by decide +kernel
/-- `saving` with a frame of its registers at `spot`. -/
def registersSaved : State := { saving with
  mem := writeQuads saving.mem 0x2000000000000000 (frameQuads 5 4096),
  hFrames := [{ id := 5, hart := ⟨0, 0⟩, q := saving.hart.q, f := saving.hart.f, k := saving.hart.k, csr := saving.hart.csr,
                joined := saving.hart.joined, windows := saving.hart.windows, records := saving.hart.records }] }
theorem witness_hrest : (∃ ps, registersSaved.area spot 64 64 .read .own = .ok ps ∧ ps.length = 1) ∧
    registersSaved.hart.level = .s ∧ registersSaved.hFrames.map (·.hart) = [registersSaved.hart.ref] ∧
    (registersSaved.area spot 4096 64 .read .own).isOk = true ∧
    registersSaved.getArea [(0x2000000000000000, 4096)] = frameQuads 5 4096 :=
  ⟨⟨_, ok_of (x := [(0x2000000000000000, 64)]) (by decide +kernel), rfl⟩, rfl, rfl, by decide +kernel,
   saved_quads (s := { saving with hFrames := registersSaved.hFrames }) (show Memory.wf saving.mem = true by decide +kernel) _ 5 4096⟩

/-! ### Hart events and the other instructions of level S -/

theorem witness_supervisor : kernel.hart.level = .s ∧
    (kernel.pack 0).shoots.find? (fun x => x.hart == kernel.hart.ref && x.asid == none && x.offset == none && !x.orphan) = none ∧
    (∀ c ∈ (kernel.drain.pack 0).colours, c.remapping = false) := by decide +kernel
theorem witness_tlbinv_done : (let k := kernel.setPack { kernel.pack 0 with shoots := [{ hart := ⟨0, 0⟩, asid := some 0, offset := none, ran := some 3, acked := true }] }
    ((k.pack 0).shoots.find? (fun x => x.hart == k.hart.ref && x.asid == some 0 && x.offset == none && !x.orphan)).any (·.acked)) = true := by decide +kernel
theorem witness_snap : (39 : Quad).toNat ≤ 39 ∧ ∃ ps, kernel.area spot 512 8 .write .any = .ok ps := ⟨by decide, ok_exists _ (by decide +kernel)⟩
theorem witness_pwait : (here.hart.getS 7).getLsbD 0 = false ∧ ({ kernel.hart with sup := { kernel.hart.sup with pend := 2 } } : Hart).sup.pend ≠ 0 ∧
    (here.hart.getS 6).getLsbD 0 = true ∧ here.hart.queueBusy = false ∧ (here.mapHart due).hart.queueBusy = true := by decide +kernel
theorem witness_mwipe : (let s := saving.mapHart fun h => { h with s := h.s.set! 6 65536 }
    let v := synced (s.needS [7, 5, 6]) .g
    SyncReady (s.needS [7, 5, 6]) .g ∧ (v.hart.getS 5).toNat % 65536 = 0 ∧ (v.hart.getS 6).toNat = 65536 ∧ Sound v ∧
    (v.awaitTurn (v.hart.canon (v.hart.getS 5)) 65536 true).isOk = true ∧
    (match v.wipePieces ((List.range (65536 / 65536)).map fun i => (v.hart.getS 5).toNat + 65536 * i) with
      | .ok ps => ps.all fun p => !p.2
      | .error _ => false) = true ∧ v.fieldsAt 0x2000000000000000 = Fields.all) := by unfold SyncReady Sound; decide +kernel

/-- Parked by gyield and by gwait, with a code to go on with. -/
def woken (why : Park) : Hart := { here.hart with status := .parked why 7 (some 2) }
theorem witness_running : here.hart.ref = ⟨0, 0⟩ ∧ here.hart.status = .running ∧ here.findHart ⟨0, 0⟩ = some here.hart ∧
    here.hart.uninterrupted = false := by decide +kernel
/-- Parked by waita, with nothing to go on with yet. -/
theorem witness_spurious : (let s := here.mapHart fun h => { h with status := .parked (.waita 5) 7 none }
    s.findHart ⟨0, 0⟩ = some s.hart ∧ s.hart.status = .parked (.waita 5) 7 none) := by decide +kernel
theorem witness_quota : here.quotaFree (woken (.gyield 0)) = true ∧
    crowded.quotaFree crowded.hart = false ∧ crowded.findHart ⟨0, 0⟩ = some crowded.hart := by decide +kernel
theorem witness_woken : (woken (.gyield 5)).status = .parked (.gyield 5) 7 (some 2) ∧ (woken (.gwait 2 1)).status = .parked (.gwait 2 1) 7 (some 2) := by decide
theorem test_trap_order : ∃ t, exec (.trapEntry ⟨0, 0⟩) (baseWith fun h => { h with sup := { h.sup with pend := 7 } }) = .next t ∧
    t.hart.sup.tcause.extractLsb' 0 8 = 0x21 ∧ t.hart.sup.pend = 5 := ⟨_, rfl, by decide +kernel⟩

/-! ### Vector instructions -/

theorem witness_vectors : VectorReady vec [1, 2, 3, 4, 5, 6, 7] [5, 6, 9] ∧ VectorReady vec [1, 4, 5] ∧ VectorReady vec [] ∧ Complete vec [1] [] ∧
    vec.hart.tagOf 4 = .f32 ∧ vec.hart.tagOf 5 = .f32 ∧ vec.hart.tagOf 6 = .f32 ∧
    vec.hart.tagOf 7 = .i32 ∧ vec.hart.csr.w64 = true ∧ (RMode.dyn.resolve vec.hart.csr.frm).isSome = true := by
  unfold VectorReady VectorUnit PlainWord Complete; decide +kernel
theorem witness_binary : (Instr.vadd, Instr.cVadd, true, true) ∈ binTable.map (fun p => (p.1, p.2.1, p.2.2.1, p.2.2.2.1)) := List.mem_cons_self ..
theorem witness_sources : (∀ r, VSrc.v 5 = .v r → vec.hart.tagOf r = vec.hart.tagOf 4) ∧ (∀ r, VSrc.s 5 = .v r → vec.hart.tagOf r = vec.hart.tagOf 4) :=
  ⟨fun r h => by cases h; decide +kernel, fun r h => by cases h⟩
theorem witness_group : vec.hart.regOk 4 = true ∧ (vec.hart.csr.vlmax.toNat = 64 ∧ vec.hart.csr.vl = 10 ∧ vec.hart.csr.gl = 0) ∧
    vec.hart.active ⟨0, false⟩ 0 = true := by decide +kernel
theorem witness_two_tags : vec.hart.tagOf 7 ≠ vec.hart.tagOf 4 ∧ (vec.hart.tagOf 7).isF = false := by decide +kernel
theorem witness_empty_body : base.hart.csr.vl.toNat = 0 ∧ 0 < vec.hart.csr.vl.toNat := by decide
theorem test_vadd : ∃ t, exec (.vadd ⟨1, 4, .v 5, ⟨0, false⟩, .dyn, false⟩) vec = .next t ∧
    elemAt (t.hart.groupData 1) false 0 = 0x40400000 ∧ elemAt (t.hart.groupData 1) false 1 = 0x40000000 := ⟨_, rfl, by decide +kernel⟩
theorem test_vmax_scalar : ∃ t, exec (.vmax ⟨1, 7, .s 0, ⟨0, false⟩, .dyn, false⟩) vec = .next t ∧
    elemAt (t.hart.groupData 1) false 0 = 5 ∧ elemAt (t.hart.groupData 1) false 1 = 0 := ⟨_, rfl, by decide +kernel⟩
theorem test_vsrl_source_width : ∃ t, exec (.vsrl ⟨1, 7, .s 5, ⟨0, false⟩, .dyn, false⟩) (vec.mapHart fun h => { h with s := h.s.set! 5 33 }) = .next t ∧
    elemAt (t.hart.groupData 1) false 1 = 0x7FFFFFFF := ⟨_, rfl, by decide +kernel⟩
theorem test_vclass : ∃ t, exec (.vclass ⟨1, 6, ⟨0, false⟩, .dyn, false⟩) vec = .next t ∧
    elemAt (t.hart.groupData 1) false 0 = 1 := ⟨_, rfl, by decide +kernel⟩
theorem test_mixed_tags_trap : ∃ t, exec (.vadd ⟨1, 4, .v 7, ⟨0, false⟩, .dyn, false⟩) vec = .next t ∧
    t.hart.sup.tcause.extractLsb' 0 8 = 0x04 := ⟨_, rfl, by decide +kernel⟩
theorem test_mask_compare : ∃ t, exec (.vcmp .lt 1 7 (.s 0) ⟨0, false⟩) vec = .next t ∧
    t.hart.m[1].bits.getLsbD 1 = true ∧ t.hart.m[1].bits.getLsbD 0 = false := ⟨_, rfl, by decide +kernel⟩
theorem test_mpop_m0 : ∃ t, exec (.mpop 9 0 ⟨0, false⟩) vec = .next t ∧ t.hart.getS 9 = 10 := ⟨_, rfl, by decide +kernel⟩
theorem test_vidx : ∃ t, exec (.vidx 1 (-1) 3 ⟨0, false⟩) vec = .next t ∧ elemAt (t.hart.groupData 1) false 2 = 5 := ⟨_, rfl, by decide +kernel⟩
theorem test_vmvx_sign : ∃ t, exec (.vmvx 9 7 6) (vec.mapHart fun h => { h with s := h.s.set! 6 1 }) = .next t ∧ t.hart.getS 9 = BitVec.allOnes 64 := ⟨_, rfl, by decide +kernel⟩

theorem witness_reduction : ¬(RedOp.sum = .and ∨ RedOp.sum = .or ∨ RedOp.sum = .xor) ∧ (Tag.i32).isF = false ∧
    ([some 3, none] : List (Option Quad)).length ≤ 65536 ∧ ([(5 : Quad)] ++ [some (3 : Quad), none].filterMap id) ≠ [] := by decide
theorem test_vred_sum : ∃ t, exec (.vred ⟨.sum, 1, 7, none, ⟨0, false⟩, .dyn⟩) vec = .next t ∧ elemAt (t.hart.groupData 1) false 0 = 4 := ⟨_, rfl, by decide +kernel⟩
theorem test_vslide : ∃ t, exec (.vslideup 1 7 6 9 ⟨0, false⟩) (vec.mapHart fun h => { h with s := (h.s.set! 6 1).set! 9 8 }) = .next t ∧
    elemAt (t.hart.groupData 1) false 0 = 8 ∧ elemAt (t.hart.groupData 1) false 1 = 5 := ⟨_, rfl, by decide +kernel⟩
theorem test_vcompress_tail : ∃ t, exec (.vcompress 1 7 ⟨0, false⟩) vec = .next t ∧ elemAt (t.hart.groupData 1) false 1 = 0xFFFFFFFF := ⟨_, rfl, by decide +kernel⟩

/-! ### Streams, vector memory, counters -/

theorem witness_streams : streamed.hart.q[1].kind = 1 ∧ streamed.hart.q[2].kind = 2 ∧ streamed.hart.q[3].kind = 3 ∧ streamed.hart.q[4].kind = 4 ∧
    streamed.hart.q[5].kind = 5 := by decide +kernel
theorem witness_counter : (streamed.hart.k[0] - (0 : Word)).toNat < 2 ^ 31 ∧ (5 : BitVec 3) ≠ 7 := by decide +kernel
theorem witness_bounds : (7 : Quad).toNat < (8 : Quad).toNat ∧ streamed.hart.q[4].bound2.toNat ≤ (8 : Quad).toNat ∧
    ({ streamed.hart.q[4] with pol2 := .drop } : Stream).pol2 = .drop ∧ ({ streamed.hart.q[4] with pol2 := .clamp } : Stream).bound2 ≠ 0 ∧
    streamed.hart.q[5].pol3 = .trap ∧
    streamed.check19 streamed.hart streamed.hart.asid (streamed.hart.q[4].stride + 4 * 0) 4 .read .any = .ok spotLoc ∧
    streamed.poison.contains (spotLoc.phys / 32) = false ∧ spotLoc.slot = none := by decide +kernel
theorem witness_addresses : streamed.hart.q[1].fmt ≠ .e2m1 ∧ ({ streamed.hart.q[1] with fmt := .e2m1 } : Stream).fmt = .e2m1 := by decide +kernel
/-- The word of i is in the instruction register. -/
def coded (i : Instr) (s : State) : State := s.mapHart fun h => { h with ir := match encode i with | some (.w64 w) => w | _ => 0 }
/-- The vector memory instruction i begins at a state of which p holds. -/
def Begun (s : State) (i : Instr) (vs : List VReg) (o : VMem) (p : State → Bool) : Prop := ∃ u, Begins s u i vs o ∧ p u = true
theorem begun_of {s : State} {i : Instr} {vs : List VReg} {o : VMem} {p : State → Bool}
    (h : wordInstr s.hart.ir = some i ∧ VectorUnit s (vs ++ s.hart.q[o.q.toNat].vregs) ∧ s.hart.queued = false ∧ s.blockedVst = false)
    (b : (match (s.prepared s.hart.ir).ready (vs ++ s.hart.q[o.q.toNat].vregs) [] with
      | .ok t => (match t.walkReady o.q o.mask.m with | .ok u => p u | .error _ => false)
      | .error _ => false) = true) : Begun s i vs o p := by
  split at b
  · next t ht =>
    split at b
    · next u hu => exact ⟨u, ⟨h.1, h.2.1, h.2.2.1, h.2.2.2, t, ht, hu⟩, b⟩
    · cases b
  · cases b
/-- The walk of o at u passes its checks, and no engine command holds it. -/
def passes (k : AccKind) (o : VMem) (u : State) : Bool :=
  let q := u.hart.q[o.q.toNat]
  (walkOf u k q none o.mask).fail.isNone && (u.awaitElems q none (walkOf u.clean k q none o.mask).present (k != .read)).isOk
def loadArgs : VMem := ⟨1, 0, 1, ⟨0, false⟩, false, 0, .dyn, false⟩
def storeArgs : VMem := ⟨0, 4, 1, ⟨0, false⟩, false, 0, .dyn, false⟩
def swapArgs : VMem := ⟨1, 4, 1, ⟨0, false⟩, false, 0, .dyn, false⟩
theorem witness_vector_load : Begun (coded (.vld loadArgs) streamed) (.vld loadArgs) [1] loadArgs (passes .read loadArgs) ∧
    Begun (coded (.vldff loadArgs) streamed) (.vldff loadArgs) [1] loadArgs (passes .read loadArgs) ∧
    (match streamed.streamOk streamed.hart.q[1] with | .ok none => true | _ => false) = true ∧ streamed.hart.q[1].fmt.tag.wide = false ∧
    streamed.hart.q[1].sc = false :=
  ⟨begun_of (by unfold VectorUnit; decide +kernel) (by decide +kernel), begun_of (by unfold VectorUnit; decide +kernel) (by decide +kernel),
    by decide +kernel, by decide +kernel, by decide +kernel⟩
/-- q2 steps from mapped memory of the hart's die to what is not mapped, after the first element. -/
def shortened : State := streamed.mapHart fun h => { h with
  q := h.q.set! 2 { base := 0x1FE4000000500000, stride := 0x40000000, kind := 2, fmt := .f32 } }
def shortArgs : VMem := ⟨1, 0, 2, ⟨0, false⟩, false, 0, .dyn, false⟩
theorem witness_shortened : Begun (coded (.vldff shortArgs) shortened) (.vldff shortArgs) [1] shortArgs (fun u =>
      let g := walkOf u .read u.hart.q[2] none ⟨0, false⟩
      (match g.fail with | some (j, ⟨.inl f, _, _, _⟩) => j == 1 && f.cause == 0x08 | _ => false) &&
      g.st.hart.active ⟨0, false⟩ 0 && (u.awaitElems u.hart.q[2] none (walkOf u.clean .read u.hart.q[2] none ⟨0, false⟩).present false).isOk) ∧
    (match shortened.streamOk shortened.hart.q[2] with | .ok none => true | _ => false) = true :=
  ⟨begun_of (by unfold VectorUnit; decide +kernel) (by decide +kernel), by decide +kernel⟩

theorem witness_vector_store : Begun (coded (.vst storeArgs) streamed) (.vst storeArgs) [4] storeArgs (passes .write storeArgs) ∧
    Begun (coded (.vchg swapArgs) streamed) (.vchg swapArgs) [1, 4] swapArgs (passes .atomic swapArgs) ∧
    streamed.hart.q[1].fmt.accepts (streamed.hart.tagOf 4) = true :=
  ⟨begun_of (by unfold VectorUnit; decide +kernel) (by decide +kernel), begun_of (by unfold VectorUnit; decide +kernel) (by decide +kernel),
    by decide +kernel⟩
/-- q6 is a unit stream of I32 at `spot`. -/
def summing : State := streamed.mapHart fun h => { h with q := h.q.set! 6 { base := spot, kind := 1, fmt := .i32 } }
def sumArgs (d : VReg) : VMem := ⟨d, 7, 6, ⟨0, false⟩, false, 0, .dyn, false⟩
theorem witness_vector_atomic : Begun (coded (.vamo .add (sumArgs 0)) summing) (.vamo .add (sumArgs 0)) [7] (sumArgs 0) (passes .atomic (sumArgs 0)) ∧
    Begun (coded (.vamoR .add (sumArgs 1)) summing) (.vamoR .add (sumArgs 1)) [7, 1] (sumArgs 1) (passes .atomic (sumArgs 1)) ∧
    (match summing.streamOk summing.hart.q[6] with | .ok none => true | _ => false) = true ∧ AmoOp.accepts .add (summing.hart.tagOf 7) = true ∧
    summing.hart.q[6].sc = false ∧ summing.hart.q[6].fmt = containerFmt (summing.hart.tagOf 7) ∧ summing.hart.doneElems = 0 ∧ summing.hart.start = 0 :=
  ⟨begun_of (by unfold VectorUnit; decide +kernel) (by decide +kernel), begun_of (by unfold VectorUnit; decide +kernel) (by decide +kernel),
    by decide +kernel, by decide +kernel, by decide +kernel, by decide +kernel, by decide +kernel, by decide +kernel⟩
/-- vpres md, va passes what waits in the queue. -/
theorem witness_vwait : VectorReady streamed [4] ∧ VectorUnit streamed [4] ∧ streamed.blockedVst = false ∧ streamed.hart.queued = false ∧
    (match encode (.vpres 4 1) with | some (.w64 w) => (streamed.mapHart waiting).hart.queued && (streamed.mapHart waiting).hart.passes w | _ => false) = true := by
  unfold VectorReady VectorUnit PlainWord Complete; decide +kernel
theorem test_qset_unit : ∃ t, exec (.qset .f32 1 5 0 none) vec = .next t ∧ t.hart.q[1].kind = 1 ∧ t.hart.q[1].base = spot := ⟨_, rfl, by decide +kernel⟩
theorem test_kadd_carry : ∃ t, exec (.kadd 2 6) (baseWith fun h => { h with s := h.s.set! 6 1, k := h.k.set! 2 0xFFFFFFFF }) = .next t ∧
    t.hart.k[2] = 0 ∧ t.hart.csr.kstat.getLsbD 18 = true := ⟨_, rfl, by decide +kernel⟩
theorem test_vld_issues : ∃ t, exec (.vld ⟨1, 0, 1, ⟨0, false⟩, false, 0, .dyn, false⟩) streamed = .next t ∧ t.hart.pend.length = 10 ∧ t.hart.csr.vlast = 1 :=
  ⟨_, rfl, by decide +kernel⟩
theorem test_vst_flags_none : ∃ t, exec (.vst ⟨0, 4, 1, ⟨0, false⟩, false, 0, .dyn, false⟩) streamed = .next t ∧
    (t.hart.pend.map (·.addr)).take 2 = [0x2000000000000000, 0x2000000000000004] := ⟨_, rfl, by decide +kernel⟩

/-! ### Convoys, the Sieve, windows -/

theorem witness_convoy : (match convoy.checkConvoy (convoy.hart.pc + 4) 0x8077 0 0x20 with
    | .ok (ms, u, _) => match u.settleS (ms.map (·.1)) with
      | .ok w => (w.issueAllOnly ms).isOk && (ms.filter fun m => matrixWord m.1).isEmpty && (w.runMembers convoy.hart.pc (convoy.hart.pc + 20) false ms).isOk
      | .error _ => false
    | .error _ => false) = true := by decide +kernel
theorem witness_loop_convoy : (match convoy.fetchWord (convoy.hart.pc + 4) with
    | .ok (q, some _, t) => q.extractLsb' 0 7 == 0x77#7 && q.extractLsb' 28 4 == 0 && (Instr.convoyHeader (q.extractLsb' 7 3) (q.extractLsb' 10 18)).wellFormed &&
      (match t.checkConvoy (convoy.hart.pc + 4) (q.setWidth 32) (q.extractLsb' 7 3) (q.extractLsb' 10 18) with
        | .ok (ms, u, _) => parOk [] (ms.map (·.2)) &&
          (match u.fetchMore (convoy.hart.pc + 4 + BitVec.ofNat 64 (4 + 8 * ms.length)) 2 with
            | .ok (ps, _) => let w := ps.foldr (fun (x : Parcel) acc => x.toNat + 65536 * acc) 0
              w % 128 == 0x67 && w / 2 ^ 17 % 8 == 4
            | .error _ => false)
        | .error _ => false)
    | _ => false) = true := by decide +kernel
theorem test_convoy_runs : after (.convoyHeader 0 0x20) (convoy.mapHart fun h => { h with pc := h.pc + 4, ir := 0x8077 })
    (fun t => t.hart.pc == 0x1FE4000000500018 && t.hart.pend.length == 10 && t.hart.csr.vlast == 1) = true := by decide +kernel
theorem test_convoy_of_seven : ∃ t, exec (.convoyHeader 5 0x3FFFF) base = .next t ∧ t.hart.sup.tcause.extractLsb' 0 8 = 0x02 := ⟨_, rfl, by decide +kernel⟩

theorem witness_sieve : sieved.poison = [] ∧ (sieved.core 0 0 0).sieve = 16 ∧ 16 * 16 ≤ 0x300000 ∧ Memory.wf sieved.mem = true ∧
    (sieved.hart.tagOf 7).isF = false ∧ sieved.hart.csr.w64 = true ∧
    sieved.hart.csr.vl.toNat ≤ sieved.hart.csr.vlmax.toNat * 2 ^ sieved.hart.csr.gl.toNat := by decide +kernel
theorem witness_sieve_ready : VectorReady sieved [7] ∧ VectorReady sieved [7, 2] ∧ VectorReady sieved [1, 7] ∧ VectorReady sieved [1, 2] [6] ∧
    VectorReady sieved [] [5, 6] := by
  refine ⟨?_, ?_, ?_, ?_, ?_⟩ <;> (unfold VectorReady VectorUnit PlainWord Complete; decide +kernel)
theorem witness_sieve_settles :
    (let u := complete sieved [7, 2] []; (u.settle (u.hart.taintV 7 ||| u.hart.taintV 2 ||| u.hart.taintM 0)).isOk = true) ∧
    (let u := complete sieved [1, 7] []; (u.settle (u.hart.taintV 7 ||| u.hart.taintM 0)).isOk = true) ∧
    (let u := complete sieved [1, 2] [6]; (u.settle (u.hart.taintS 6 ||| u.hart.taintM 0)).isOk = true) ∧
    (let u := complete sieved [] [5, 6]; (u.settle (u.hart.taintS 5 ||| u.hart.taintS 6)).isOk = true) := by decide +kernel
theorem test_svins_then_found : after (.svins 1 7 ⟨0, false⟩) sieved
    (fun t => !t.hart.m[1].bits.getLsbD 0 && (t.sieveFind 16 0 5).isSome) = true := by decide +kernel
theorem witness_window : (let u := here.needS [5, 6]
    ((u.hart.getS 5).extractLsb' 61 3).toNat ≤ 1 ∧ (u.hart.getS 6) ≠ 0 ∧ (u.hart.getS 6).toNat < 2 ^ 56 ∧
    u.hart.interlocked (u.hart.canon (u.hart.getS 5)) 7 false = false ∧ u.drain.hart.pend = [] ∧
    u.drain.hart.cmds = [] ∧ u.drain.hart.thaw = false ∧ here.hart.cmds = [] ∧ here.hart.thaw = false) := by decide +kernel
/-- A read through the slot that a pending collective result holds cannot be performed. -/
theorem witness_window_waits : (let s := here.mapHart fun h => { due h with
      tagBusy := 2,
      pend := [{ seq := 1, queue := 0, slice := .vault 0 0, addr := 0x2000000000000000, size := 8, op := .loadWindow 3 (.s 9 false), held := 2, tag := none }] }
    ∃ x ∈ (s.drainUntil fun x => match x.op with | .loadWindow i _ => i == 3 | _ => false).hart.pend, ∃ dst, x.op = .loadWindow 3 dst) :=
  ⟨_, by rw [show _ = [_] from rfl]; exact List.mem_singleton.2 rfl, _, rfl⟩
theorem witness_window_refused : ¬(((here.hart.getS 5).extractLsb' 61 3).toNat ≤ 1 ∧ here.hart.getS 7 ≠ 0 ∧ (here.hart.getS 7).toNat < 2 ^ 56) := by decide +kernel

/-! ### Matrix instructions -/

theorem witness_tile : (0 : TReg).toNat < vec.hart.tiles.length ∧ VectorReady vec [4, 5] ∧ VectorUnit vec [] ∧ VectorReady vec [4] [6] ∧
    vec.hart.queued = false ∧ vec.blockedVst = false ∧ vec.matrixEntry.isOk = true ∧ (complete vec [4, 5] []).matrixEntry.isOk = true ∧
    (complete vec [4] [6]).matrixEntry.isOk = true ∧
    (vec.hart.getS 6).toNat ≤ 127 ∧ vec.hart.csr.vl.toNat ≤ 128 := by unfold VectorReady VectorUnit PlainWord Complete; decide +kernel
theorem witness_mop : (let h := { vec.hart with csr := { vec.hart.csr with mMg := 16, mNg := 16, mcols := 8 } }
    h.csr.vl.toNat ≤ h.csr.mMg.toNat ∧ h.csr.mcols.toNat ≤ h.csr.mNg.toNat ∧ h.csr.mcols.toNat ≤ h.maxElems) ∧
    vec.hart.tagOf 4 = .f32 ∧ vec.hart.tagOf 5 = .f32 := by decide +kernel
theorem witness_mst : (let u := complete streamed streamed.hart.q[1].vregs [6, 9]
    (0 : TReg).toNat < streamed.hart.tiles.length ∧ VectorReady streamed streamed.hart.q[1].vregs [6, 9] ∧
    (match streamed.streamOk streamed.hart.q[1] with | .ok none => true | _ => false) = true ∧
    streamed.hart.q[1].sc = false ∧ streamed.hart.q[1].fmt.isF = true ∧ (u.hart.getS 6).toNat ≤ 128 ∧ u.hart.csr.vl.toNat ≤ 128 ∧
    u.matrixEntry.isOk = true ∧ u.hart.interlock = [] ∧ u.hart.cmds = []) := by
  unfold VectorReady VectorUnit PlainWord Complete; decide +kernel
/-- A mop stands in the queue. -/
theorem witness_matrix_wait : (let s := vec.mapHart fun h =>
      { h with thaw := true, frozen := [h.entryOf (match encode (.mop 0 4 5 ⟨0, false⟩ .dyn) with | some (.w64 w) => w | _ => 0) 0] }
    s.hart.thaw = true ∧ ∃ e ∈ s.hart.frozen, matrixWord e.word = true) ∧ vec.hart.thaw = false := by decide +kernel
theorem witness_matrix_tags : (let c := complete vec [4, 5] []
    match c.awaitTags (c.hart.taintV 4 ||| c.hart.taintV 5) with
    | .ok u => u.matrixEntry.isOk
    | .error _ => false) = true ∧ (let c := complete vec [4] [6]
    match c.awaitTags (c.hart.taintV 4) with
    | .ok u => u.matrixEntry.isOk
    | .error _ => false) = true := by decide +kernel
theorem witness_next_tile : (0 : Nat) < 2 ^ 32 := by decide
theorem test_mshape : after (.mshape .w32 9 6 6 6) (regs [(6, 20)]) (fun t => t.hart.getS 9 == 16 + 20 * 65536) = true := by decide +kernel
theorem test_mstep_row : after (.mstep 9) (baseWith fun h => { h with csr := { h.csr with mM := 20, mN := 32, mMg := 16, mNg := 32 } })
    (fun t => t.hart.getS 9 == 4 + 32 * 65536 && t.hart.csr.mi == 16) = true := by decide +kernel
theorem test_mop : after (.mop 0 4 5 ⟨0, false⟩ .dyn) (vec.mapHart fun h => { h with csr := { h.csr with mMg := 16, mNg := 16, mcols := 1 } })
    (fun t => tileGet (t.hart.tile 0) 1 0 == 0x40800000 && tileGet (t.hart.tile 0) 1 1 == 0) = true := by decide +kernel

/-! ### Steps -/

theorem witness_round_trip : (Instr.lsync .g).wellFormed = true ∧ ∃ c, decodeCode c = .ok (Instr.lsync .g) :=
  ⟨by decide, .w32 0x0100003B, by decide +kernel⟩
theorem witness_sound : Memory.wf fetching.mem = true := by decide +kernel
/-- The turn is the hart's. -/
def turned : State := { fetching with agenda := [.hart ⟨0, 0⟩] }
def turnOf (s : State) (r : HartRef) (rest : List Turn) : State :=
  ({ s with clock := s.clock + 1 + Config.stepClocks s.free, free := s.free + 1, agenda := rest } : State).focus r
theorem hasTurn_of (s : State) (r : HartRef) (rest : List Turn) (h : s.agenda = .hart r :: rest) (p : s.placed r = true) :
    HasTurn s (turnOf s r rest) := Or.inl ⟨r, rest, h, p, rfl⟩
def turn : State := turnOf turned ⟨0, 0⟩ []
theorem witness_step : HasTurn turned turn ∧ turn.hart.status = .running ∧ turn.hart.hits = [] ∧ turn.hart.asyncCause = none ∧ turn.hart.queued = false ∧
    turn.lookPast = none ∧ turn.hart.early = none ∧
    (match ({ turn with hart := { turn.hart with ir := 0 } } : State).fetchWord turn.hart.pc with
      | .ok (ir, some c, t) => ir == 0xCF12C607 && (match decodeCand c with
        | .ok x => decide (x.toInstr = .addi 12 12 (-6263)) && !(t.mapHart fun h => { h.retire with ir := ir }).hart.issueHeld c x
        | .error _ => false) && t.hart.pend.isEmpty
      | _ => false) = true :=
  ⟨hasTurn_of _ _ _ rfl (by decide +kernel), by decide +kernel, by decide +kernel, by decide +kernel, by decide +kernel, by decide +kernel,
    by decide +kernel, by decide +kernel⟩
/-- A word that is no conditional branch is not looked past. -/
theorem lookPast_none {s : State} {p : Instr × State} (h : s.nextInstr = some p) (b : branchTest s.hart.pc p.1 = none) : s.lookPast = none := by
  unfold State.lookPast
  simp only [h]
  split
  · rfl
  · simp [b]
/-- addi s12, s12 names the destination of a load that is not performed yet, and drain performs it. -/
theorem witness_step_load : (let s := busy (.load (.s 12 false))
    s.hart.pend.any (fun a => a.sdst == some 12 && Code.mayName (.w32 0xCF12C607) 12) && s.drain.hart.pend.isEmpty && s.drain.hart.hits.isEmpty) = true := by
  decide +kernel
theorem witness_step_load_addi : (fetching.mapHart fun h => { h with pend := (busy (.load (.s 12 false))).hart.pend }).lookPast = none :=
  lookPast_none (p := (fetching.mapHart fun h => { h with pend := (busy (.load (.s 12 false))).hart.pend }).nextInstr.get (by decide +kernel))
    (Option.some_get _).symm (by decide +kernel)
/-- R300: s21 is being loaded, and b.eq s21, s0 stands before these words; [s19 + 0x180] holds 77. -/
def spinning (ws : List Nat) : State :=
  let s := (regs [(19, spot)]).mapHart fun h => { h with
    pend := [{ seq := 1, queue := 0, slice := .l2 0 3, addr := 0x2000000000000200, size := 8, op := .load (.s 21 false),
               held := 0, tag := some 1, shown := spot + 0x200 }], seq := 2, tagBusy := 2, st := h.st.set! 21 2 }
  let s := (s.placeParcels s.hart.pc ((0xFFE00AA3 :: ws).flatMap fun w => [BitVec.ofNat 16 w, BitVec.ofNat 16 (w / 65536)])).getD s
  { s with mem := writeQuad s.mem 0x2000000000000180 77 }
def aheadOf (s : State) : List EarlyLoad := (s.mapHart fun h => { h.addControl 2 with pc := h.pc + 4 }).runAhead [1] 2 3
/-- R300, R131, R127: ld s22 after tclr.ct may be performed before the branch, and without tclr.ct it may not. -/
theorem test_tclr_ct_frees_early_load :
    (aheadOf (spinning [0x00400053, 0x18073B33])).map (fun e => (e.seq, e.dest, e.value)) = [(2, 22, 77)] ∧
    (aheadOf (spinning [0x18073B33])).length = 0 := by decide +kernel
/-- R300: the flag and x change after that, and the hart reads the new flag and the old x. -/
theorem test_old_x_with_new_flag : (let s := spinning [0x00400053, 0x18073B33]
    let e := aheadOf s
    let s := s.mapHart fun h => { h with early := some { seq := 2, pc := h.pc, toward := h.pc + 4, loads := e } }
    let s := { s with mem := writeQuad (writeQuad s.mem 0x2000000000000180 99) 0x2000000000000200 1 }
    match s.issueTurn with
    | .next a => (match a.issueTurn with
      | .next b => (match b.issueTurn with
        | .next c => a.hart.pc == s.hart.pc + 4 && a.hart.getS 21 == 1 && c.hart.getS 22 == 77 && c.hart.pend.isEmpty
        | _ => false)
      | _ => false)
    | _ => false) = true := by decide +kernel
theorem witness_prediction_dropped : (let s := (spinning []).mapHart fun h => { h with early := some { seq := 2, pc := h.pc, toward := h.pc, loads := [] } }
    s.hart.pc = s.hart.pc ∧ s.hart.seq = 2 ∧ (s.mapHart fun h => { h with pc := h.pc + 4 }).hart.pc ≠ s.hart.pc) := by decide +kernel
theorem witness_reserved_word : decodeCode (.w32 0x0000006F) = .error .reserved := by decide +kernel
theorem witness_agent_turn : ({ base with agenda := [.agent .gtrig, .hart ⟨0, 0⟩] } : State).agenda = .agent .gtrig :: [.hart ⟨0, 0⟩] := rfl
theorem witness_fetch : ∃ l, fetching.check fetching.hart fetching.hart.asid fetching.hart.pc 2 .fetch .any = .ok l := ok_exists _ (by decide +kernel)
theorem witness_copy : copyRead (base.core 0 0 0).icache 0x500000 2 = none ∧
    copyRead (fetching.core 0 0 0).icache 0x500000 2 = some (readN fetching.mem 0x500000 2) := by decide +kernel

/-! ### Accesses, translation, counters -/

theorem witness_load_event : (loading (.load (.s 3 false)) (.vault 0 0) none).placed ⟨0, 0⟩ = true ∧
    (let u := (loading (.load (.s 3 false)) (.vault 0 0) none).focus ⟨0, 0⟩
     u.hart.pend.head?.isSome && u.hart.mayPerform [] (u.hart.pend.headD default)) = true := by decide +kernel
theorem witness_kinds : AccOp.isLoad (.load (.s 3 false)) = true ∧ AccOp.isAtomic (.store 3) = false ∧ AccOp.isVamo (.store 3) = false ∧
    AccOp.isAtomic (.cas 0 1 3) = true ∧ Slice.isRemote (.vault 0 0) = false ∧ Slice.isRemote (.remote 1 0) = true ∧
    AccOp.isVamo (.vamo .add .i32 [] none) = true := by decide
theorem witness_first_of_train : (loading (.store 3) (.remote 1 0) (some 4)).hart.pend.findIdx? (fun a => a.train == some 4) = some 0 := by decide +kernel
theorem witness_bookkeeping : (loading (.store 3) (.vault 0 0) none).findHart ⟨0, 0⟩ = some (loading (.store 3) (.vault 0 0) none).hart ∧
    bitOf (loading (.store 3) (.vault 0 0) none).hart.tagBusy 1 = true ∧ (loading (.store 3) (.vault 0 0) none).hart.tagPending 1 = false ∧
    (loading (.store 3) (.vault 0 0) none).hart.pend.any (·.train == some 4) = false ∧
    (loading (.store 3) (.vault 0 0) none).hart.nbs[0]? = some { seq := 0, k := 2 } ∧
    (loading (.store 3) (.vault 0 0) none).hart.nbDone 0 = true := by decide +kernel

theorem witness_walks :
    (match base.walk 0 0 1 0 with | .leaf _ n => n == 0x40000000 | _ => false) = true ∧
    (match base.walk 0 0 1 0x40000000 with | .absent _ => true | _ => false) = true ∧
    (match ({ base with mem := writeQuad base.mem 0x10008 0x7FFFFFFFFFC0 } : State).walk 0 0 1 0 with | .beyond _ => true | _ => false) = true := by
  decide +kernel
theorem witness_shootdown : ((shooting [crash]).pack 0).shoots.find? (!·.acked) = some crash ∧ crash.ran = none ∧
    ((shooting [{ crash with ran := some 1 }]).pack 0).shoots.find? (fun y => y.ran.isSome && !y.acked) = some { crash with ran := some 1 } ∧
    (∀ h ∈ (shooting [{ crash with ran := some 1 }]).harts, h.pend = []) := by decide +kernel
theorem witness_counter_wraps : ({ vec.hart with k := vec.hart.k.set! 2 0xFFFFFFFF } : Hart).k[2] = 0xFFFFFFFF := by decide +kernel

/-! ### Engine commands -/

theorem witness_copy_issues : copying.hart.q[1].sc = false ∧ copying.hart.q[2].sc = false ∧
    (match copying.streamOk copying.hart.q[1], copying.streamOk copying.hart.q[2] with | .ok none, .ok none => true | _, _ => false) = true ∧
    MemFmt.cls copying.hart.q[1].fmt = MemFmt.cls copying.hart.q[2].fmt ∧
    (copying.ready (copying.hart.q[1].vregs ++ copying.hart.q[2].vregs) [6]).isOk = true ∧
    (copying.ready (copying.hart.q[1].vregs ++ copying.hart.q[2].vregs) [6, 9]).isOk = true ∧
    (let u := complete copying (copying.hart.q[1].vregs ++ copying.hart.q[2].vregs) [6]
     u.hart.cmds = [] ∧ u.hart.interlock = [] ∧ (u.hart.getS 6).toNat < 2 ^ 32) := by decide +kernel
theorem witness_fuller_issues : (let t := here.needS [5]
    fieldOf (t.hart.getS 5) 61 3 = 1 ∧ (t.hart.getS 5).toNat % 64 = 0 ∧
    t.check19 t.hart t.hart.asid (t.hart.getS 5) 8 .read .any = .ok spotLoc ∧
    (match t.settle (t.hart.taintS 5) with
      | .ok u => (u.awaitTurn (u.hart.canon (t.hart.getS 5)) 64 false).isOk &&
        (let w := u.drainUntil fun y => decide (y.addr < spotLoc.phys + 64 ∧ spotLoc.phys < y.addr + y.size)
         !w.poisoned spotLoc.phys && !w.poisoned (spotLoc.phys + 32) && w.hart.interlock.isEmpty && w.hart.cmds.isEmpty)
      | .error _ => false) = true) := by decide +kernel
theorem witness_copy_completes :
    (let s := copying.mapHart fun h => { h with cmds := [aCopy 1] }
     let u := s.focus ⟨0, 0⟩
     s.placed ⟨0, 0⟩ && u.hart.mayRun (aCopy 1) && ((u.drainUntil fun a => decide (a.seq < (aCopy 1).seq)).runCmd (aCopy 1)).stop.isNone &&
     s.hart.cmds.all (fun x => x.ranges.all (·.seq == x.seq))) = true ∧
    Cmd.isCopy (aCopy 1) = true ∧ Cmd.recorded (aCopy 1) = true := by decide +kernel
theorem witness_fuller_turn : (let c : Cmd := { aCopy 1 with op := .fuller [0x2, 0, 0, 0, 0, 0, 0, 0] spot }
    Cmd.isFuller c && (copying.mapHart fun h => { h with cmds := [c] }).fullerTurn c) = true := by decide +kernel
theorem test_cpy_records : after (.copyComplete ⟨0, 0⟩ 0) (copying.mapHart fun h => { h with cmds := [aCopy 1] })
    (fun t => t.hart.cmds.isEmpty && t.hart.k[1] == 1 && t.hart.records[1].done == 2 && t.hart.records[1].status == 2) = true := by decide +kernel

/-! ### Bindings and messages -/

theorem witness_binding : (let u := (peers []).needS [8, 9]
    fieldOf (u.hart.getS 8) 20 44 = 0 ∧ fieldOf (u.hart.getS 9) 16 48 = 0 ∧ fieldOf (u.hart.getS 8) 0 12 ≤ 3071 ∧
    u.pkgPresent 0 (fieldOf (u.hart.getS 8) 12 8) = true ∧ u.memberOf 0 u.hart.asid = none ∧ u.hart.sendsLeft 2 = false) ∧
    ((peers []).hart.joined[3]).isSome = true ∧ (peers []).hart.joined[4] = none ∧
    (match encode (.vsend false 2 7 0) with
      | some (.w64 w) => ((peers []).mapHart fun h => { waiting h with frozen := [h.entryOf w 0] }).hart.sendsLeft 2
      | _ => false) = true := by decide +kernel
theorem witness_unlawful_binding : ¬(fieldOf spot 20 44 = 0) := by decide
/-- vsend f2, v7 is in the instruction register. -/
def sending (l : List Message) : State := (peers l).mapHart fun h => { h with
  ir := match encode (.vsend false 2 7 0) with | some (.w64 w) => w | _ => 0 }
theorem witness_vsend : (peers []).hart.f[2] = .peer false ⟨0, 1⟩ 5 0 0 ∧ VectorReady (peers []) [7] ∧
    (let u := complete (peers []) [7] []; (u.settle (u.hart.taintV 7)).isOk = true) ∧
    (let s := sending (List.replicate 4 (note 1 ⟨0, 0⟩ ⟨0, 1⟩))
     VectorReady s [7] ∧ wordInstr s.hart.ir = some (.vsend false 2 7 0) ∧ s.hart.frozen = [] ∧ (s.settleS [s.hart.ir]).isOk = true ∧
     4 ≤ (s.messages.filter fun m => m.sender == s.hart.ref && m.gang == s.hart.csr.gangid && m.f == 2).length) := by
  unfold VectorReady VectorUnit PlainWord Complete; decide +kernel
/-- A message for the hart, whole and not. -/
theorem witness_vrecv : (let m := { note 3 ⟨0, 1⟩ ⟨0, 0⟩ with arrived := [0] }
    let mine := fun (s : State) (m : Message) => m.sender == ⟨0, 1⟩ && m.dst == ⟨0, 0⟩ && m.channel == 5 && !s.hart.colls.any (·.msg == some m.number)
    (peers [m]).messages.find? (mine (peers [m])) = some m ∧ m.headed = true ∧ m.whole = true ∧ m.crypt = false ∧
    ({ m with elems := List.replicate 1025 7 } : Message).whole = false ∧ (note 3 ⟨0, 1⟩ ⟨0, 0⟩).headed = false ∧
    (m.tag.wide = true → (peers [m]).hart.csr.w64 = true)) := by decide +kernel
theorem witness_vrecv_word : (match encode (.vrecv false 1 2 0) with | some (.w64 w) => decide (wordInstr w = some (.vrecv false 1 2 0)) | _ => false) = true := by
  decide +kernel
/-- `peers` with receive areas of one unit a hart on die 0. -/
def roomy (l : List Message) : State := { peers l with mem := writeQuad (writeQuad (peers l).mem 0x200020 1) 0x200040 0x10000 }
theorem witness_packet : (let m := note 3 ⟨0, 1⟩ ⟨0, 0⟩
    let s := roomy [m]
    s.messages.find? (·.number == 3) = some m ∧ m.waiting = false ∧ 0 < m.packets ∧ 0 ∉ m.arrived ∧ s.sealDiffers m = false ∧
    0 < s.areaBytes 0 0 ∧ m.bytes ≤ s.areaBytes 0 0 ∧ m.crypt = false ∧ s.findHart ⟨0, 0⟩ = some s.hart ∧ s.hart.status ≠ .vacant ∧
    s.findHart ⟨0, 7⟩ = none ∧ (peers [m]).areaBytes 0 0 = 0) := by decide +kernel
theorem witness_full_area : (let m := note 3 ⟨0, 1⟩ ⟨0, 0⟩
    let s := roomy [{ note 4 ⟨0, 1⟩ ⟨0, 0⟩ with admitted := true, elems := List.replicate 16384 7 }, m]
    s.messages.find? (·.number == 3) = some m ∧ m.admitted = false ∧
    s.areaBytes 0 0 < (s.messages.filter fun y => y.dst == m.dst && y.admitted).foldl (fun n y => n + y.bytes) 0 + m.bytes) := by decide +kernel
theorem test_vsend_elems : after (.vsend false 2 7 0) (peers []) (fun t => t.messages.map (·.elems.take 2) == [[5, 0xFFFFFFFF]]) = true := by decide +kernel
theorem witness_room : 0 < (grouped true rank0 []).groupSize 0 7 ∧ (5 : Nat) ≤ 65536 := by decide +kernel

/-! ### Groups and collectives -/

theorem witness_joined : (grouped false rank0 []).hart.joined[3] = some rank0 ∧ (grouped false rank0 []).hart.joined[4] = none := by decide +kernel
theorem witness_cjoin : (let u := grouped false rank0 []
    (u.blockBase 0 2).isSome = true ∧ fieldOf (u.hart.getS 8) 32 12 = 0 ∧ fieldOf (u.groupQuad 0 (u.hart.getS 8) 0) 32 32 = fieldOf (u.hart.getS 8) 0 32 ∧
    fieldOf (u.groupQuad 0 (u.hart.getS 8) 0) 16 16 = u.hart.asid.toNat ∧ (u.hart.getS 9).toNat < u.groupSize 0 (u.hart.getS 8) ∧
    (u.group (u.hart.getS 8)).joined.any (·.1 == (u.hart.getS 9).toNat) = false) := by decide +kernel
theorem witness_cjoin_refused : ¬(fieldOf ((grouped false rank0 []).groupQuad 0 8 0) 32 32 = fieldOf (8 : Quad) 0 32) ∧
    ((grouped true rank0 []).group 7).joined.any (·.1 == 1) = true := by decide +kernel
theorem witness_cleave : (grouped true rank0 []).collOpen rank0 = false ∧ (grouped true rank0 [anOp [part 0 false] none]).collOpen rank0 = true := by decide +kernel
theorem witness_collective : (let s := grouped true rank0 []
    s.hart.f[2] = .group 3 false 0 0 ∧ VectorReady s [7] ∧ copLegal s.hart.csr.cop (s.groupSize 0 7) = true ∧ (s.hart.tagOf 7).isF = false ∧
    copPat s.hart.csr.cop = 0 ∧
    (let u := complete s [7] []; (u.settle (u.hart.taintV 7 ||| u.hart.taintM 0)).isOk = true)) := by
  unfold VectorReady VectorUnit PlainWord Complete; decide +kernel
theorem witness_collective_vld : (let x : Joined := { rank0 with cseq := 1, opened := true }
    let s := grouped true x [anOp [part 0 true] none]
    s.findOp 7 x.openSeq = some (anOp [part 0 true] none) ∧ VectorReady s [7] ∧
    (let v := complete s [7] []; (v.settle (v.hart.taintM 0)).isOk = true)) := by
  unfold VectorReady VectorUnit PlainWord Complete; decide +kernel
theorem witness_barrier : (grouped true { rank0 with cseq := 1, barrier := some 0 } [anOp [part 0 true] (some .committed)]).findOp 7 0 =
    some (anOp [part 0 true] (some .committed)) ∧ SyncReady ((grouped true rank0 []).needS [9]) .g ∧
    ((grouped true rank0 []).needS [9]).hart.csr.cgrp = 3 := by unfold SyncReady; decide +kernel
theorem witness_barrier_released : (let o := fun (l : List Nat) => ({ anOp [part 0 true] (some .committed) with reached := l } : CollOp)
    (grouped true rank0 []).isReleased (o [0]) = true ∧ (grouped true rank0 []).isReleased (o []) = false) := by decide +kernel
theorem witness_barrier_aborted : ({ anOp [part 0 true] (some (.aborted 2)) with told := [0] } : CollOp).told.contains 0 = true := by decide
theorem witness_tree : (let s := grouped true rank0 [anOp [part 0 false] none]
    s.findOp 7 0 = some (anOp [part 0 false] none) ∧ s.treeOf 0 7 = [0] ∧
    (anOp [part 0 false] none).parts.find? (·.rank == 0) = some (part 0 false) ∧ s.keyDropped 0 none = false ∧
    s.stageFull 0 7 [0] = false ∧ 0 ∉ (part 0 false).arrived ∧ 0 ∉ (part 0 false).waiting) := by decide +kernel
theorem witness_commit : (let o := anOp [part 0 true, part 1 true] none
    let s := grouped true rank0 [o]
    s.findOp 7 0 = some o ∧ s.groupReady 0 7 = true ∧ s.opComplete o = true ∧ s.rootOf 0 7 = 0 ∧
    (∀ r < s.groupSize 0 7, ∃ x ∈ o.parts, x.rank = r ∧ 0 ∈ x.arrived) ∧ ∀ n ∈ s.treeNodes 0 7, n.children = []) := by decide +kernel
/-- Package 1 is a child of the root, package 0; its count is complete, and the decision has not come to it. -/
theorem witness_tree_down : (let s := { grouped true rank0 [] with
      mem := writeN (writeQuads (grouped true rank0 []).mem 0x204000 [0x0000000700010001, 0x100005, 0, 0x500000]) 0x500000 64 (0x01010000 + 0x0001 * 2 ^ 256) }
    let part := fun r => { part r true with arrived := [0, 1] }
    let o : CollOp := { anOp [part 0, part 1] (some .committed) with reached := [0] }
    s.treeOf 0 7 = [0, 1] ∧ s.rootOf 0 7 = 0 ∧ (s.treeNodes 0 7).map (·.children) = [[1], []] ∧ 0 ∈ o.reached ∧ 1 ∉ o.reached ∧
    ∀ r < s.groupSize 0 7, ∃ x ∈ o.parts, x.rank = r ∧ 1 ∈ x.arrived) := by decide +kernel
theorem witness_abort : (⟨7, 0, 6, 0⟩ : AbortMsg) ∈ (grouped true rank0 []).aborts ∧ (6 : Nat) < 256 ∧
    (grouped true rank0 []).placed ⟨0, 0⟩ = true ∧ ((grouped true rank0 []).focus ⟨0, 0⟩).hart.joined[3]! = some rank0 ∧
    (∀ i < 3, ((grouped true rank0 []).focus ⟨0, 0⟩).hart.joined[i]! = none) := by decide +kernel
theorem witness_lag : (let o := anOp [part 0 false] none
    let s := { grouped true rank0 [o] with clock := 6000 }
    s.findOp 7 0 = some o ∧ o.first = some 0 ∧ s.groupReady 0 7 = true ∧ s.opComplete o = false ∧
    max 0 (s.group 7).readyAt + fieldOf (s.groupQuad 0 7 1) 0 20 * 1200 ≤ s.clock) := by decide +kernel
theorem witness_departure : 1 ∈ ((grouped true rank0 []).group 7).leaving := by decide +kernel
theorem test_cjoin_taken : after (.cjoin 10 4 8 9) (grouped true rank0 []) (fun t => t.hart.getS 10 == 2) = true := by decide +kernel
theorem test_commit_sum : after (.collectiveCommit ⟨7, 0⟩) (grouped true rank0 [anOp [part 0 true, part 1 true] none])
    (fun t => (t.findOp 7 0).any (·.verdict == some .committed)) = true := by decide +kernel

/-! ### Circuits and posts -/

def circuits (l : List Post) : State := net (fun p => { p with table := some slots, posts := l, rotation := { running := true, number := 3, heard := some 3, start := 0, slot := some 0, begun := 1 } }) []

theorem witness_sqpost : (let u := (circuits []).needS [7, 5, 5, 5]
    match u.settle (u.hart.taintS 5) with
    | .ok w => (w.check17 spot 64 .engRead .own).isOk && (w.check17 spot 64 .engWrite .home).isOk &&
      !((w.pack 0).routes 5).isEmpty && decide (((w.pack 0).queued 5).length < 64) && ((w.pack 0).routes 6).isEmpty &&
      w.hart.interlock.isEmpty && w.hart.cmds.isEmpty && !w.hart.struck
    | .error _ => false) = true := by decide +kernel
theorem witness_full_queue : 64 ≤ (((circuits (List.replicate 64 aPost)).pack 0).queued 5).length := by decide +kernel
theorem witness_sqstat : (5 : Nat) ≤ 254 ∧ (net id [(0x800 + 40, 1)]).routed 0 5 = true := by decide +kernel
theorem witness_send : (let p := (circuits [aPost]).pack 0
    p.posts.find? (fun x => x.dest == 5 && decide (x.next < x.len) && !x.cut) = some aPost ∧
    p.openCircuit 5 = some (toPkg5, 0 + ((0 + 1) * 1000 - 1) * 12) ∧ (circuits [aPost]).unheld aPost.hart aPost.gang aPost.waits = true ∧
    (circuits [aPost]).clock = 0 ∧ sendEnd 1 0 0 < 125 * popCount 1 16 * 1 ∧
    sendEnd 1 0 (64 + 64) ≤ 125 * popCount 1 16 * (((0 + 1) * 1000 - 1) * 12) ∧
    ¬sendEnd 1 0 (4096 + 64) ≤ 125 * popCount 1 16 * 100) := by decide +kernel
theorem witness_place : (let x := { aPost with flying := [(0, [1, 2], [])] }
    ((circuits [x]).pack 0).posts.find? (·.number == 9) = some x ∧ x.flying[0]? = some (0, [1, 2], []) ∧ x.cut = false) := by decide +kernel
theorem witness_post_ends : (let x := { aPost with placed := 64 }
    x.len ≤ x.placed ∧ (circuits [x]).findHart x.hart = some (circuits [x]).hart ∧ (circuits [x]).hart.csr.gangid = x.gang) := by decide +kernel
theorem witness_slot : (let s := { circuits [] with clock := 12000 }
    (s.pack 0).table = some slots ∧ 1 < slots.nslot ∧ (s.pack 0).rotation.begun = 1 ∧ 0 + 1 * slots.slotlen * 12 ≤ s.clock ∧
    s.clock < 0 + (1 + 1) * slots.slotlen * 12 ∧
    (s.pack 0).rotation.slot = some 0 ∧ 0 + (0 + 1) * slots.slotlen * 12 ≤ s.clock + slots.guard_ * 12 / 2) := by decide +kernel
theorem witness_rotation_timeout : (let s := { circuits [] with clock := 24006 }
    (s.pack 0).rotation.running = true ∧ 0 + slots.nslot * slots.slotlen * 12 + slots.guard_ * 12 / 2 ≤ s.clock ∧ (s.pack 0).rotation.own < 4) ∧
    4 ≤ ({ (circuits []).pack 0 with rotation := { own := 4 } } : Package).rotation.own := by decide +kernel
theorem witness_rotstart : (let s := net (fun p => { p with mesh := [.rotstart 4 1, .rotstart 3 1], rotation := { number := 5, heard := some 3 } }) []
    MeshPacket.rotstart 4 1 ∈ (s.pack 0).mesh ∧ MeshPacket.rotstart 3 1 ∈ (s.pack 0).mesh ∧ (s.pack 0).rotation.heard = some 3) ∧
    State.masterDue { circuits [] with clock := 24000 } 0 4 1 = true := by decide +kernel
theorem witness_swap : (let s := net (fun p => { p with loaded := some slots }) [(0x1010, 2)]
    (s.pack 0).loaded = some slots ∧ bitOf (s.fabricQuad 0 0x1010) 1 = true ∧ slots.actrot ≤ 1) := by decide +kernel
def aCircuit : Circuit := { epoch := 1, slot := 0, num := 0, colours := 1, path := toPkg5.path }
theorem witness_setup : (let s := net (fun p => { p with mesh := [.setup aCircuit, .ack 0, .busy 0 5, .teardown 0], loaded := some { slots with entries := [{ toPkg5 with acked := false, retryAt := some 0 }] } }) [(0x1010, 1)]
    MeshPacket.setup aCircuit ∈ (s.pack 0).mesh ∧ aCircuit.path.find? (·.pkg == 0) = some ⟨0, 0, 1⟩ ∧ s.hopTrunk ⟨0, 0, 1⟩ true false = false ∧
    MeshPacket.ack 0 ∈ (s.pack 0).mesh ∧ (s.pack 0).busyFor 0 = some 5 ∧ (s.pack 0).loadTaken = false ∧ MeshPacket.teardown 0 ∈ (s.pack 0).mesh ∧
    slots.entries.find? (·.num == 0) = some toPkg5 ∧ toPkg5.attempts < 15 ∧ (0 : Nat) ≤ s.clock ∧ bitOf (s.fabricQuad 0 0x1010) 0 = true) := by decide +kernel
theorem witness_clash : (let r : Reservation := { num := 0, epoch := 1, slot := 0, hop := ⟨0, 0, 1⟩, colours := 1, first := true, last := false, committed := false }
    ([{ r with num := 7, committed := true }] : List Reservation).any r.clash = true) := by decide +kernel

/-! ### Transport -/

theorem witness_rpost : (let u := ((wired { conns := [aConn] }).mapHart fun h => { h with s := h.s.set! 6 1 }).needS [6, 5]
    match u.settle (u.hart.taintS 6 ||| u.hart.taintS 5) with
    | .ok w => (match w.check19 w.hart w.hart.asid spot 64 .read .own with | .ok l => decide (l = spotLoc) | .error _ => false) &&
      decide ((w.hart.getS 6).toNat = 1) && (w.awaitTurn (w.hart.canon spot) 64 false).isOk &&
      (match w.storesBefore spot 64 false with
        | .ok x => !x.poisoned spotLoc.phys && !x.poisoned (spotLoc.phys + 32) && x.connOpen 0 1 &&
          decide (((x.transport 0).find 1).map (·.asid) = some w.hart.asid) &&
          (match x.storesBefore 0 0 false with
            | .ok y => y.hart.interlock.isEmpty && y.hart.cmds.isEmpty
            | .error _ => false)
        | .error _ => false)
    | .error _ => false) = true := by decide +kernel
theorem witness_staged : ((wired {}).transport 0).find 1 = none ∧ (({} : Transport).staged.length < 256) ∧
    256 ≤ ({ staged := List.replicate 256 aPacket } : Transport).staged.length := by decide +kernel
theorem witness_received : ((wired { conns := [aConn] }).transport 0).find aPacket.conn = some aConn ∧ aPacket.sealOk = true ∧ (aPacket.key, aPacket.psn) ∉ aConn.seen ∧
    (aPacket.key, aPacket.psn) ∈ ({ aConn with seen := [(0, 3)] } : Conn).seen ∧ (wired { conns := [aConn] }).isTransport 0 aPacket = true ∧
    (wired { conns := [aConn] }).connOpen 0 1 = true ∧ (wired {}).connOpen 0 99 = false ∧ (wired {}).isTransport 0 { aPacket with udp := 7 } = false ∧
    ((wired { conns := [aConn], requests := [aRequest] }).answered 0 aConn { aPacket with op := 5 }) = some aRequest ∧
    (match (wired {}).putBytes (engineHart ⟨0, 3072⟩ 1) [1] [] (rangeAt 0x1FE4000000700000 1) with | .ok _ => true | .error _ => false) = true ∧
    (match (wired {}).bytesAt (engineHart ⟨0, 3072⟩ 1) .engRead (rangeAt 0x1FE4000000700000 8) with | .ok _ => true | .error _ => false) = true := by decide +kernel
theorem witness_connection : aConn.unacked.find? (·.psn == 3) = some aPacket ∧ assocGet aConn.denials 3 0 + 1 < 64 ∧
    64 ≤ assocGet ({ aConn with denials := [(3, 63)] } : Conn).denials 3 0 + 1 ∧ (aConn.resend.any fun r => r.1.psn == 3 && decide (0 < r.2)) = false ∧
    assocGet aConn.sentAt 3 0 + 20 * 1200 ≤ 24000 ∧ ({ fetching := [1] } : Transport).full = false ∧
    1 ∈ ((wired { fetching := [1] }).transport 0).fetching := by decide +kernel
theorem witness_request_ends : (let s := wired { conns := [aConn], requests := [aRequest] }
    (s.transport 0).requests.find? (·.number == 7) = some aRequest ∧ aRequest.ends = some (BitVec.ofNat 8 3) ∧
    (match s.check19 (engineHart aRequest.hart aRequest.asid) aRequest.asid (aRequest.addr + 56) 8 .engWrite .own with | .ok _ => true | .error _ => false) = true ∧
    s.findHart aRequest.hart = some s.hart ∧ s.hart.csr.gangid = aRequest.gang) := by decide +kernel

/-! ### Links -/

/-- Colour 0 of port 0, as `c` has it. -/
def lit (c : Colour) : State := net (fun p => { p with colours := [c] }) [(0x108, 8)]
def lane0 : Lane := ⟨0, 0, 0⟩
def colour0 : Colour := { port := 0, colour := 0, tx := .up, rx := .up, txMode := 1, rxSeq := 5, window := [⟨0, 0, 7, true, []⟩, ⟨0, 0, 8, true, []⟩] }
theorem witness_flit : ((lit colour0).pack 0).colour 0 0 = colour0 ∧ (⟨0, 0, 5, true, []⟩ : Flit).lseq = colour0.rxSeq ∧
    2 ^ 11 ≤ ((4 : BitVec 12) - colour0.rxSeq).toNat ∧ ((6 : BitVec 12) - colour0.rxSeq).toNat < 2 ^ 11 := by decide +kernel
theorem witness_nak : (⟨0, 0, 8, true, []⟩ : Flit) ∈ colour0.window := by decide
theorem witness_proposal : ({ colour0 with proposal := some (2, 1) } : Colour).proposal = some (2, 1) ∧
    (colour0.rx = .up ∧ colour0.rxLost = none ∧ colour0.remapping = false) ∧ (lit colour0).farLane lane0 false = none ∧
    (lit colour0).clock < colour0.proposedAt + clocksPerUs ∧ colour0.proposedAt + clocksPerUs ≤ ({ lit colour0 with clock := 1200 } : State).clock ∧ colour0.proposal = none ∧
    colour0.txMode.toNat < min (fieldOf ((lit colour0).fabricQuad 0 0x108) 2 2) 2 ∧ fieldOf ((lit colour0).fabricQuad 0 0x108) 0 2 < colour0.txMode.toNat := by decide +kernel
/-- 20 R383, worked example: position 5 sends to 6 on (P0, 0) and (P3, 15), and receives from it on (P3, 14). -/
theorem test_pair_colours : (let s := net id [(0x800, 5 * 4 + 1), (0x808, 6 * 4 + 2)]
    s.reach 0 0 true = 1 ∧ s.reach 0 3 true = 0x8000 ∧ s.reach 0 3 false = 0x4000) := by decide +kernel
theorem witness_plan : (net id [(0x100, 0x00010001)]).planBreaks 0 0 1 1 = false ∧ (lit colour0).blockBase 0 2 = some 0x200000 := by decide +kernel
theorem witness_drained : ({ colour0 with tx := .draining } : Colour).tx = .draining ∧ ((lit colour0).pack 0).colours.any (fun c => c.port == 0 && c.remapped) = false := by decide +kernel
theorem witness_dark_path : (let s := { net (fun p => { p with darkPaths := [⟨5, [lane0], 0⟩], colours := [{ colour0 with txLost := some 0 }] }) [] with clock := 10 ^ 12 }
    (s.pack 0).darkPaths = [⟨5, [lane0], 0⟩] ∧ 0 + s.pathTimeout 0 < s.clock ∧ s.pathDark [lane0] = true) := by decide +kernel
theorem witness_circuit_port : 24 ≤ 24 ∧ 24 < 32 ∧ ((lit colour0).pack 0).trunk 24 = false := by decide +kernel

/-! ### The scheduler -/

theorem witness_accept : (let s := sched id here.hart
    let d := s.queueDesc 0 2
    (s.pack 0).waiting.find? (·.queue == 2) = none ∧ s.schedEn 0 = true ∧ d.en = true ∧ s.nextAccept 0 2 ≠ d.tail ∧
    s.launchEarly 0 2 (s.nextAccept 0 2) = false ∧
    (match s.check (agentHart 0 1) 1 (d.slot 0) 64 .read .own with
      | .ok l => decide (l.phys = 0x700000) && !s.poisoned (l.phys + 32)
      | .error _ => false) = true) := by decide +kernel
theorem witness_accepted : (sched id here.hart).reasonOf 0 aRecord (some []) = 0 ∧
    (sched id here.hart).reasonOf 0 { aRecord with quads := [1, 0, 0, (1 : Quad) <<< 44, 0, 0, 0, 0] } (some []) = 4 := by decide +kernel
theorem witness_failing_dependence : (let w := { aRecord with quads := [0, 0, 0, 0, 0x8000000200000000, 0, 0, 0] }
    w.deps = [(false, 2, 0)]) := by decide +kernel
theorem witness_placeable : (let s := sched (fun p => { p with waiting := [aRecord] }) {}
    (s.pack 0).waiting.find? (·.queue == 2) = some aRecord ∧ s.placeable 0 aRecord = true ∧ (s.fit 0 aRecord []).isSome = true ∧
    (∀ x ∈ (s.pack 0).waiting, x.queue = 2)) := by decide +kernel
theorem witness_victims : (let w := { aRecord with quads := [0x1FE4000000500000, 0, 0, (1 : Quad) <<< 44 ||| (1 : Quad) <<< 31, 0, 0, 0, 0] }
    let s := sched (fun p => { p with waiting := [w], gangs := [aGang] }) here.hart
    s.schedEn 0 = true ∧ (s.queueDesc 0 2).en = true ∧ s.depsMet 0 w = true ∧ (s.victims 0 w [aGang] []).isSome = true ∧
    aGang.prio < w.prio ∧ fieldOf (s.ctxQuad 0 3 3) 0 16 ≠ 0) := by decide +kernel
theorem witness_grace : (let h := { here.hart with graceEnd := some 0 }
    let s := sched (fun p => { p with gangs := [{ aGang with abortAt := some 0 }] }) h
    s.findHart ⟨0, 0⟩ = some h ∧ s.gangOf h = some { aGang with abortAt := some 0 } ∧ (0 : Nat) ≤ s.clock ∧
    0 + h.sup.preempt.toNat * 1024 ≤ ({ s with clock := 65536 } : State).clock) := by decide +kernel
theorem witness_quota_return : (let g := { aGang with preempted := true }
    let s := sched (fun p => { p with gangs := [g] }) { here.hart with status := .parked .released 7 none }
    s.released 0 g = true ∧ (∀ c ∈ g.cores, s.blocked 0 c.die g.prio = false ∧ (s.coreReturn 0 g c).isSome = true) ∧
    (s.pack 0).gangs.find? (·.gangid.toNat == 1) = some g ∧ s.gangHarts 0 1 ≠ []) := by decide +kernel
theorem witness_trigger : (let s := sched (fun p => { p with gangs := [aGang] }) { here.hart with triggered := some 1 }
    aGang.triggered = false ∧ (∀ h ∈ s.gangHarts 0 aGang.gangid, s.marked h = true) ∧
    (match s.check19 (agentHart 0 1) 1 ((s.queueDesc 0 2).slot 0) 64 .read .own with | .ok _ => true | .error _ => false) = true) := by decide +kernel
theorem witness_gang_ends : (sched (fun p => { p with gangs := [aGang] }) {}).gangHarts 0 aGang.gangid = [] := by decide +kernel
theorem witness_tail : (let s := { sched id here.hart with mem := writeQuad (sched id here.hart).mem (0x100000 + 16832 + 136) 0x31044 }
    let d := s.queueDesc 0 2
    d.dev = false ∧ (2 ^ d.log2 < ((17 : Word) - d.head).toNat) ∧ ¬(2 ^ d.log2 < ((16 : Word) - d.head).toNat ∨ 2 ^ 31 ≤ ((16 : Word) - d.tail).toNat) ∧
    s.windowed 0 2 = true ∧ s.windowed 0 2048 = false ∧ ((sched id here.hart).queueDesc 0 2).dev = true ∧ (sched id here.hart).windowed 0 2 = true) := by decide +kernel
theorem witness_recarve : (let s := { sched id {} with mem := writeQuad (sched id {}).mem (0x100000 + 64) 8 }
    s.sieveWanted 0 0 = 256 ∧ (s.core 0 0 0).sieve ≠ 256 ∧ s.harts = []) := by decide +kernel
theorem test_place : after (.gangPlace 0 2) (sched (fun p => { p with waiting := [aRecord] }) {}) (fun t => t.harts.map (·.pc) == [0x1FE4000000500000]) = true := by
  decide +kernel

/-! ### Huane -/

theorem witness_go : (let s := ({ base with pkgs := [{ launchPackage with block := [(0, 3), (9, 1)] }] } : State)
    bitOf (s.block 0 9) 0 = true ∧ fieldOf (s.block 0 0) 0 4 = 3 ∧ s.partRuns 0 = false ∧ s.baseBad 0 2 = true) := by decide +kernel
theorem witness_good_bases : (List.range 8).all (fun i => !base.baseBad 0 (i + 1)) = true := by decide +kernel
theorem witness_window_queue : ((sched id here.hart).queueDesc 0 2).func = 0 ∧ (sched id here.hart).partRuns 0 = true := by decide +kernel
theorem witness_ring : base.ringAt 0 0 = some 0x310000 ∧ base.blockBase 0 2 = some 0x200000 ∧
    (readWord base.mem 0x310000 - base.ringHead 0x310000).toNat ≤ 32 := by decide +kernel
/-- A command with no input buffer. -/
theorem witness_command : (let q : List Quad := [0x0300000000000000, 1, 0, 0, 0, 0, 0, 0]
    Commanded (mailed (fun h => { h with partitions := [{ id := 1, function := 2, resources := [] }] }) 0 q) 0 0 3 q []) := by
  unfold Commanded; refine ⟨by decide +kernel, by decide +kernel, by decide +kernel, by decide +kernel, by decide +kernel, ?_⟩; rfl
theorem witness_poll : base.partRuns 0 = true ∧ (List.range 17).all (fun r => (base.ringAt 0 r).isSome) = true := by decide +kernel
theorem witness_torn : (let h := (mailed (fun h => { h with partitions := [{ id := 1, function := 2, resources := [] }] }) 0 []).pack 0 |>.huane
    h.partitions.find? (fun p => p.id == 1 && !p.tearing) = some { id := 1, function := 2, resources := [] }) := by decide +kernel
/-- A region of HBM4E, torn down for the PTEAR of ring 0 or by a revocation; no hart of the partition is left. -/
theorem witness_release : (let p : Partition := { id := 1, function := 2, resources := [⟨0, 5, 1⟩, ⟨3, 0x600000, 65536⟩], tearing := true }
    ([p] : List Partition).find? (fun p => p.id == 1 && p.tearing) = some p ∧ p.ring = none ∧ ({ p with ring := some 0 } : Partition).ring = some 0 ∧
    (∀ x ∈ vec.harts, x.pkg = 0 → holds p.resources 0 x.asid.toNat = false ∧ ∀ g ∈ vec.gangOf x, holds p.resources 1 g.queue = false) ∧ vec.fieldsAt (hbmKey 0 0 0x600000) = Fields.all) := by decide +kernel
theorem witness_resources : (resourceList 17 ((List.replicate 8 0) ++ [1, 0, 0, 0, 0, 0, 0, 0])).isSome = true ∧ (5 : Quad).toNat ≤ 16 ∧
    (mailed id 0 []).partitionOn 0 5 = none := by decide +kernel
/-- Quads 1 and 2 of an ECREATE of one key with quorum 1, and of an EJOIN as member 0. -/
theorem witness_ecreate : fieldOf (0x101 : Quad) 0 8 = 1 ∧ fieldOf (0x101 : Quad) 8 8 = 1 ∧ fieldOf (0x101 : Quad) 17 47 = 0 ∧
    ((mailed (fun h => { h with partitions := [{ id := 1, function := 2, resources := [] }] }) 2 []).partitionOn 0 2).isSome = true ∧
    ((mailed id 2 []).pack 0).huane.lcs = 2 := by decide +kernel
theorem witness_ejoin (bytes : List Byte) : Config.measure bytes ∈ ({ id := 9, quorum := 1, keys := [], allowed := [Config.measure bytes], hostio := false } : Enclave).allowed := by
  simp
theorem witness_report : 3332 ≤ fieldOf ((3332 : Quad) <<< 32) 32 32 ∧ ((mailed id 0 []).pack 0).huane.leaf < 2 ^ 20 := by decide +kernel
theorem witness_revoke : (let e : Enclave := { id := 9, quorum := 1, keys := [], allowed := [], hostio := false, members := [(0, 0, 1)] }
    let s : State := { mailed id 0 [] with enclaves := [e], orders := [⟨9, 0, 1⟩] }
    ((mailed (fun h => { h with partitions := [{ id := 1, function := 2, resources := [] }] }) 2 []).partitionOn 0 2).map (·.id) = some 1 ∧
    s.enclaves.find? (·.id == 9) = some e ∧ (⟨9, 0, 1⟩ : Order) ∈ s.orders ∧ (∃ m ∈ e.members, m.2.1 = 0) ∧
    (⟨9, 0, 1⟩ : Order) ∉ (s.pack 0).huane.applied ∧ (∀ o ∈ s.orders, o.enclave = 9 → o.epoch < 2)) := by decide +kernel
theorem witness_lcs : (3 : Quad).toNat ≤ 4 ∧ (3 : Quad).toNat = (((mailed id 0 []).pack 0).huane.lcs).toNat + 1 := by decide +kernel
/-- 21 R407: slot B runs where the version in slot A is below the least. 21 R405: LCS stands in bits [7:4]. -/
theorem test_boot_slot : (let h : Huane := { least := [(1, 5)], slots := [(1, some 4, some 7)] }
    h.boots 0 1 = some 1 ∧ (h.kept 0).active.contains (1, 1) = true) ∧ fieldOf ((mailed id 0 []).block 0 0) 4 4 = 2 := by decide +kernel
theorem test_reset_state : after (.packageReset 0) (base.setPack { base.pack 0 with huane := { (base.pack 0).huane with slots := images.map fun i => (i, some 0, none) } }) (fun t => t.block 0 10 == 800 * 2 ^ 32 + 2000 && t.harts.isEmpty) = true := by decide +kernel
theorem test_ptear_status : after (.ptear 0 0) (mailed id 0 [0x0300000000000000, 1, 0, 0, 0, 0, 0, 0]) (fun t => readWord t.mem 0x310008 == 1) = true := by decide +kernel

/-! ### Power and errors -/

theorem witness_summary : (3 : Nat) < 4 ∧ (32 : Nat) ∈ ([64, 32, 16, 8, 5, 2] : List Nat) := by decide
theorem test_uncorrectable : after (.uncorrectableError 0 .hbm 0x600000) base (fun t => t.poison == [0x600000 / 32]) = true := by decide +kernel



end Sys2Proof.Tests
end

section
/-! SUPPORT. Vector instructions, the matrix engine, messages and the Sieve keep memory in its canonical form (R2). -/

namespace Sys2Proof.Machine
variable {s : State}

/-! ### Vector instructions -/

/-- A check that an instruction makes in line, then the rest: a stop where the condition holds. -/
theorem Keeps.unless {c : Prop} [Decidable c] {e : Stop} {β : Type} {g : β → List Host.Cell} {k : Unit → Except Stop β}
    (he : e.Keeps) (hk : Keeps g (k ())) :
    Keeps g (if c then (.error e : Except Stop Unit) >>= k else (.ok () : Except Stop Unit) >>= k) := Keeps.ite he hk

/-- The same, with a stop where the condition does not hold. -/
theorem Keeps.provided {c : Prop} [Decidable c] {e : Stop} {β : Type} {g : β → List Host.Cell} {k : Unit → Except Stop β}
    (he : e.Keeps) (hk : Keeps g (k ())) :
    Keeps g (if c then (.ok () : Except Stop Unit) >>= k else (.error e : Except Stop Unit) >>= k) := Keeps.ite hk he

theorem State.preRed_keeps (w : Memory.wf s.mem = true) (op : RedOp) (va : VReg) (rs : List VReg) (rm : RMode) :
    Keeps (fun _ => s.mem) (s.preRed op va rs rm) := State.checks6_keeps w _ _ (State.redRounding_keeps w ..)

theorem vecVcmp_keeps (w : Memory.wf s.mem = true) (c : CmpCond) (md : MReg) (va : VReg) (vb : VSrc) (k : MaskOp) :
    Keeps State.mem (vecVcmp c md va vb k s) :=
  (State.preRegs_keeps w _ _).check fun _ => (State.tagOk_keeps w _).check fun _ => Keeps.readyEach w fun _ h => h
theorem vecVsel_keeps (w : Memory.wf s.mem = true) (vd va vb : VReg) (k : MaskOp) : Keeps State.mem (vecVsel vd va vb k s) :=
  (State.preRegs_keeps w _ _).check fun _ => (State.tagOk_keeps w _).check fun _ => Keeps.readyEach w fun _ h => h
theorem vecMtolist_keeps (w : Memory.wf s.mem = true) (md ma : MReg) : Keeps State.mem (vecMtolist md ma s) :=
  (State.vecUnit_keeps w).check fun _ => w
theorem vecMtobit_keeps (w : Memory.wf s.mem = true) (md ma : MReg) : Keeps State.mem (vecMtobit md ma s) :=
  (State.vecUnit_keeps w).check fun _ => w
theorem vecMfromx_keeps (w : Memory.wf s.mem = true) (md : MReg) (va : VReg) (k : MaskOp) :
    Keeps State.mem (vecMfromx md va k s) :=
  (State.preRegs_keeps w _ _).check fun _ => Keeps.ready w fun _ h => h
theorem vecVidx_keeps (w : Memory.wf s.mem = true) (vd : VReg) (a : BitVec 12) (b : BitVec 8) (k : MaskOp) :
    Keeps State.mem (vecVidx vd a b k s) :=
  (State.vecRegs_keeps w _).check fun _ => Keeps.ready w fun _ h => h
theorem vecVsplat_keeps (w : Memory.wf s.mem = true) (vd : VReg) (sa : SReg) (k : MaskOp) :
    Keeps State.mem (vecVsplat vd sa k s) :=
  (State.preRegs_keeps w _ _).check fun _ => Keeps.ready w fun _ h => h
theorem vecVtag_keeps (w : Memory.wf s.mem = true) (t : Tag) (vd va : VReg) : Keeps State.mem (vecVtag t vd va s) :=
  (State.preRegs_keeps w _ _).check fun _ => Keeps.ready w fun _ h => h
theorem vecVmvx_keeps (w : Memory.wf s.mem = true) (sd : SReg) (va : VReg) (sb : SReg) :
    Keeps State.mem (vecVmvx sd va sb s) :=
  (State.vecRegs_keeps w _).check fun _ => Keeps.ready w fun _ h => h
theorem vecVmvs_keeps (w : Memory.wf s.mem = true) (vd : VReg) (sa : SReg) (k : MaskOp) :
    Keeps State.mem (vecVmvs vd sa k s) :=
  (State.vecRegs_keeps w _).check fun _ => Keeps.ready w fun _ h => h
theorem vecVcompress_keeps (w : Memory.wf s.mem = true) (vd va : VReg) (k : MaskOp) :
    Keeps State.mem (vecVcompress vd va k s) :=
  (State.preRegs_keeps w _ _).check fun _ => Keeps.ready w fun _ h => h
theorem vecVred_keeps (w : Memory.wf s.mem = true) (o : VRed) : Keeps State.mem (vecVred o s) :=
  (State.redChecks_keeps w o).check fun _ => Keeps.ready w fun _ h => h
theorem vecVscan_keeps (w : Memory.wf s.mem = true) (o : VRed) : Keeps State.mem (vecVscan o s) :=
  (State.redChecks_keeps w o).check fun _ => Keeps.ready w fun _ h => h
theorem vecVsegred_keeps (w : Memory.wf s.mem = true) (op : RedOp) (vd va : VReg) (mc : MReg) (k : MaskOp) (rm : RMode) :
    Keeps State.mem (vecVsegred op vd va mc k rm s) :=
  (State.preRed_keeps w ..).check fun _ => (State.tagOk_keeps w _).check fun _ => Keeps.ready w fun _ h => h
theorem vecVwait_keeps (w : Memory.wf s.mem = true) (va : VReg) : Keeps State.mem (vecVwait va s) :=
  (State.preRegs_keeps w _ _).check fun _ => Keeps.ready w fun _ h => h
theorem vecVpres_keeps (w : Memory.wf s.mem = true) (md : MReg) (va : VReg) : Keeps State.mem (vecVpres md va s) :=
  (State.preRegs_keeps w _ _).check fun _ => w

/-! ### The matrix engine -/

theorem State.tileOk_keeps (w : Memory.wf s.mem = true) (t : TReg) : Keeps (fun _ => s.mem) (s.tileOk t) := Keeps.ite w w
theorem State.limitOk_keeps (w : Memory.wf s.mem = true) (c : Bool) : Keeps (fun _ => s.mem) (s.limitOk c) := Keeps.ite w w
theorem State.awaitTags_keeps (w : Memory.wf s.mem = true) (t : TaintSet) : Keeps State.mem (s.awaitTags t) :=
  Keeps.ite w (Keeps.ite trivial (State.drain_wf w))

theorem State.mopBody_keeps (w : Memory.wf s.mem = true) (n : Bool) (t : TReg) (va vb : VReg) (k : MaskOp) (rm : RMode) :
    Keeps State.mem (s.mopBody n t va vb k rm) :=
  (State.checks6_keeps w _ _ (State.rounding_keeps w rm)).check fun _ => (State.tileOk_keeps w t).check fun _ =>
    (State.limitOk_keeps w _).check fun _ => (State.tagOk_keeps w _).check fun _ => Keeps.ready w fun _ h1 =>
    (State.awaitTags_keeps h1 _).bind fun _ _ h2 => (State.matrixEntry_keeps h2).bind fun _ _ h3 => h3
theorem vecMzero_keeps (w : Memory.wf s.mem = true) (t : TReg) : Keeps State.mem (vecMzero t s) :=
  (State.vecUnit_keeps w).check fun _ => (State.tileOk_keeps w t).check fun _ =>
    (State.matrixEntry_keeps w).bind fun _ _ h => h
theorem vecMrd_keeps (w : Memory.wf s.mem = true) (c : Bool) (vd : VReg) (t : TReg) (sa : SReg) (k : MaskOp) :
    Keeps State.mem (vecMrd c vd t sa k s) :=
  (State.preRegs_keeps w _ _).check fun _ => (State.tileOk_keeps w t).check fun _ => Keeps.ready w fun _ h1 =>
    (State.limitOk_keeps h1 _).check fun _ => (State.matrixEntry_keeps h1).bind fun _ _ h => h
theorem vecMwr_keeps (w : Memory.wf s.mem = true) (c : Bool) (t : TReg) (va : VReg) (sb : SReg) (k : MaskOp) :
    Keeps State.mem (vecMwr c t va sb k s) :=
  (State.preRegs_keeps w _ _).check fun _ => (State.tileOk_keeps w t).check fun _ => Keeps.ready w fun _ h1 =>
    (State.limitOk_keeps h1 _).check fun _ => (State.tagOk_keeps h1 _).check fun _ =>
    (State.awaitTags_keeps h1 _).bind fun _ _ h2 => (State.matrixEntry_keeps h2).bind fun _ _ h => h
theorem vecMst_keeps (w : Memory.wf s.mem = true) (q : QReg) (t : TReg) (sa sb : SReg) (m : MaskOp) (k : KReg) (rm : RMode)
    (sat : Bool) : Keeps State.mem (vecMst q t sa sb m k rm sat s) :=
  (State.checks6_keeps w _ _ (State.storeRounding_keeps w ..)).check fun _ => (State.tileOk_keeps w t).check fun _ =>
    Keeps.unless (insnTrap_keeps w _) ((State.tagOk_keeps w _).check fun _ =>
    (State.streamOk_keeps w _).check fun _ => Keeps.ready w fun _ h1 => (State.limitOk_keeps h1 _).check fun _ =>
    (State.matrixEntry_keeps h1).bind fun _ _ h => State.issueCmd_keeps h ..)

/-! ### Messages and collective operations as members of a convoy -/

theorem bindTrap_keeps (w : Memory.wf s.mem = true) : (bindTrap s).Keeps := w
theorem openTrap_keeps (w : Memory.wf s.mem = true) (c : Byte) : (openTrap s c).Keeps := w

theorem State.takeMessage_mem (s : State) (m : Message) (c : CollLoad) : (s.takeMessage m c).mem = s.mem :=
  State.onSender_mem ..
theorem State.receive_mem (s : State) (m : Message) (c : CollLoad) : (s.receive m c).mem = s.mem := by
  unfold State.receive; dsimp only; split
  · exact State.takeMessage_mem ..
  · rfl

theorem State.groupOf_keeps (w : Memory.wf s.mem = true) (f : FReg) : Keeps (fun _ => s.mem) (s.groupOf f) := by
  unfold State.groupOf; split
  · split <;> exact w
  · exact w

theorem vecVsend_keeps (w : Memory.wf s.mem = true) (nb : Bool) (f : FReg) (va : VReg) (k : KReg) :
    Keeps State.mem (vecVsend nb f va k s) := by
  refine (State.checks6_keeps w _ _ (keeps_rne _ w)).check fun _ => ?_
  cases s.hart.f[f.toNat] with
  | peer full p ch seq taken =>
    exact Keeps.ite trivial (Keeps.ready w fun _ h => (State.settle_keeps h _).bind fun _ _ h' => h')
  | unbound => exact bindTrap_keeps w
  | group j b x y => exact bindTrap_keeps w

theorem vecVrecv_keeps (w : Memory.wf s.mem = true) (nb : Bool) (vd : VReg) (f : FReg) (k : KReg) :
    Keeps State.mem (vecVrecv nb vd f k s) := by
  refine (State.checks6_keeps w _ _ (keeps_rne _ w)).check fun _ => ?_
  cases s.hart.f[f.toNat] with
  | unbound => exact bindTrap_keeps w
  | group j b x y => exact bindTrap_keeps w
  | peer full p ch seq taken =>
    dsimp only
    generalize hu : List.foldl State.refuseMessage s _ = u
    have wu : Memory.wf u.mem = true := by rw [← hu, foldl_mem State.refuseMessage_mem]; exact w
    split
    · trivial
    · refine Keeps.ite trivial ((State.shapeOk_keeps wu _).check fun _ => Keeps.ready wu fun t h => ?_)
      rw [keeps_ok]; refine Keeps.iteWf ?_ h
      rw [State.takeMessage_mem]; exact h

theorem vecCollectiveVst_keeps (w : Memory.wf s.mem = true) (o : VColl) : Keeps State.mem (vecCollectiveVst o s) :=
  (State.checks6_keeps w _ _ (keeps_rne _ w)).check fun _ => (State.groupOf_keeps w _).check fun _ =>
    Keeps.unless (illegal_keeps w) ((State.tagOk_keeps w _).check fun _ => (State.limitOk_keeps w _).check fun _ =>
    Keeps.unless (Stop.keeps_hold _) (Keeps.ready w fun _ h => (State.settle_keeps h _).bind fun _ _ h' => h'))

theorem vecCollectiveVld_keeps (w : Memory.wf s.mem = true) (o : VColl) : Keeps State.mem (vecCollectiveVld o s) :=
  (State.checks6_keeps w _ _ (keeps_rne _ w)).check fun _ => (State.groupOf_keeps w _).check fun _ =>
    Keeps.provided (bindTrap_keeps w) (Keeps.provided (illegal_keeps w) ((State.shapeOk_keeps w _).check fun _ =>
    Keeps.ready w fun _ h => (State.settle_keeps h _).bind fun t _ h' => by
      rw [keeps_ok, State.settleColl_mem]; exact h'))

/-! ### The Sieve and windows -/

theorem vecSvlook_keeps (w : Memory.wf s.mem = true) (vd : VReg) (mc : MReg) (va : VReg) (k : MaskOp) :
    Keeps State.mem (vecSvlook vd mc va k s) := by
  refine (State.checks6_keeps w _ _ (keeps_rne _ w)).check fun _ => (State.sieveSize_keeps w).check fun size =>
    (State.tagOk_keeps w _).check fun _ => Keeps.ready w fun _ h => (State.settle_keeps h _).bind fun t _ h' => ?_
  dsimp only
  generalize hr : sieveEach t _ _ _ = r
  have hw : Memory.wf r.state.mem = true := by
    rw [← hr]; refine sieveEach_wf (fun u j hu => ?_) _ h'
    split
    · exact hu
    · split <;> exact hu
  split <;> exact hw

theorem vecSvdrn_keeps (w : Memory.wf s.mem = true) (vd vb : VReg) (sa : SReg) (k : MaskOp) :
    Keeps State.mem (vecSvdrn vd vb sa k s) := by
  refine (State.checks6_keeps w _ _ (keeps_rne _ w)).check fun _ => (State.sieveSize_keeps w).check fun size =>
    Keeps.ready w fun _ h => (State.settle_keeps h _).bind fun t _ h' => ?_
  dsimp only
  generalize hr : sieveEach t _ _ _ = r
  have hw : Memory.wf r.state.mem = true := by
    rw [← hr]; refine sieveEach_wf (fun u j hu => ?_) _ h'
    split
    · exact hu
    · exact Memory.wf_writeQuad _ _ hu
  split <;> exact hw

theorem State.sieveUpdate_keeps (w : Memory.wf s.mem = true) (md : MReg) (va : VReg) (vb : Option VReg) (k : MaskOp) :
    Keeps State.mem (s.sieveUpdate md va vb k) := by
  refine (State.checks6_keeps w _ _ (keeps_rne _ w)).check fun _ => (State.sieveSize_keeps w).check fun size =>
    (State.tagOk_keeps w _).check fun _ => Keeps.ready w fun _ h => (State.settle_keeps h _).bind fun t _ h' => ?_
  dsimp only
  generalize hr : sieveEach t _ _ _ = r
  have hw : Memory.wf r.state.mem = true := by
    rw [← hr]; refine sieveEach_wf (fun u j hu => ?_) _ h'
    split
    · next hi => exact State.sieveInsert_wf hu _ _ _ hi
    · exact hu
  split <;> exact hw

theorem vecSvclr_keeps (w : Memory.wf s.mem = true) (sa sb : SReg) : Keeps State.mem (vecSvclr sa sb s) :=
  (State.vecUnit_keeps w).check fun _ => (State.sieveSize_keeps w).check fun _ => Keeps.ready w fun _ h =>
    (State.settle_keeps h _).bind fun _ _ h' => foldl_wf (fun _ _ hu => Memory.wf_writeQuad _ _ hu) _ h'

theorem State.closeSlot_keeps (w : Memory.wf s.mem = true) (slot : Nat) : Keeps State.mem (s.closeSlot slot) :=
  Keeps.ite trivial (Keeps.ite trivial (State.drainUntil_wf w _))

theorem execRwo_keeps (w : Memory.wf s.mem = true) (slot : BitVec 5) (sa sb : SReg) : OutKeeps (execRwo slot sa sb s) := by
  have w1 := State.needS_wf w [sa, sb]
  refine finish_keeps w1 (Keeps.ite w1 (Keeps.ite trivial ?_))
  have hc := State.closeSlot_keeps (State.drain_wf w1) slot.toNat
  revert hc; cases (s.needS [sa, sb]).drain.closeSlot slot.toNat with
  | error e => exact id
  | ok t => exact fun h => Keeps.ite trivial h

theorem execRwc_keeps (w : Memory.wf s.mem = true) (slot : BitVec 5) : OutKeeps (execRwc slot s) := by
  refine finish_keeps w ?_
  have hc := State.closeSlot_keeps w slot.toNat
  revert hc; cases s.closeSlot slot.toNat with
  | error e => exact id
  | ok t => exact id

/-! ### Fetching -/

theorem State.fetchParcel_keeps (w : Memory.wf s.mem = true) (a : Quad) : Keeps (fun p => p.2.mem) (s.fetchParcel a) :=
  resolve_bind w fun _ => w

theorem State.fetchMore_keeps : ∀ (n : Nat) {s : State} (a : Quad), Memory.wf s.mem = true →
    Keeps (fun p => p.2.mem) (s.fetchMore a n)
  | 0, _, _, w => w
  | n + 1, s, a, w => by
    unfold State.fetchMore
    have h := State.fetchParcel_keeps w a
    revert h; cases s.fetchParcel a with
    | error e => exact id
    | ok p =>
      intro h; dsimp only
      have k := State.fetchMore_keeps n (a + 2) h
      revert k; cases p.2.fetchMore (a + 2) n with
      | error e => exact id
      | ok q => exact id

theorem State.fetchWord_keeps (w : Memory.wf s.mem = true) (a : Quad) : Keeps (fun p => p.2.2.mem) (s.fetchWord a) := by
  unfold State.fetchWord
  have h := State.fetchParcel_keeps w a
  revert h; cases s.fetchParcel a with
  | error e => exact id
  | ok p =>
    intro h; dsimp only
    split
    · exact h
    · next n _ =>
      have k := State.fetchMore_keeps (n - 1) (a + 2) h
      revert k; cases p.2.fetchMore (a + 2) (n - 1) with
      | error e => exact id
      | ok q => intro k; dsimp only; split <;> exact k

/-! ### Members of a convoy -/

/-- What a convoy member does keeps memory in its canonical form. -/
theorem memberRun_keeps (w : Memory.wf s.mem = true) {x : Instr} {r : State → Except Stop State}
    (e : memberRun x = some r) : Keeps State.mem (r s) := by
  cases x with
  | vadd | vsub | vmul | vmulh | vdiv | vrem | vmin | vmax | vand | vor | vxor => cases e; exact (State.vbinary_keeps
    w ..)
  | vsll | vsrl | vsra => cases e; exact (State.vshift_keeps w ..)
  | vpopc | vclz | vabs | vneg | vclass | vcvt => cases e; exact (State.vunary_keeps w ..)
  | vsqrt | vrcp | vrsqrt | vexp2 | vlog2 => cases e; exact (State.vspecial_keeps w ..)
  | vfma | vfms | vnfma => cases e; exact (State.vfused_keeps w ..)
  | vcmp => cases e; exact (vecVcmp_keeps w ..)
  | vsel => cases e; exact (vecVsel_keeps w ..)
  | mand | mor | mxor | mandn | mnot => cases e; exact (State.mlogic_keeps w ..)
  | mpop | mfirst => cases e; exact (State.mcount_keeps w ..)
  | mtolist => cases e; exact (vecMtolist_keeps w ..)
  | mtobit => cases e; exact (vecMtobit_keeps w ..)
  | mfromx => cases e; exact (vecMfromx_keeps w ..)
  | vidx => cases e; exact (vecVidx_keeps w ..)
  | vsplat => cases e; exact (vecVsplat_keeps w ..)
  | vmv | vslideup | vslidedn | vperm | vexpand | vrev => cases e; exact (State.permute_keeps w ..)
  | vtag => cases e; exact (vecVtag_keeps w ..)
  | vmvx => cases e; exact (vecVmvx_keeps w ..)
  | vmvs => cases e; exact (vecVmvs_keeps w ..)
  | vcompress => cases e; exact (vecVcompress_keeps w ..)
  | vred => cases e; exact (vecVred_keeps w ..)
  | vscan => cases e; exact (vecVscan_keeps w ..)
  | vsegred => cases e; exact (vecVsegred_keeps w ..)
  | vld | vldff => cases e; exact (State.vload_keeps w ..)
  | vst => cases e; exact (vecVst_keeps w ..)
  | vchg => cases e; exact (vecVchg_keeps w ..)
  | vamo | vamoR => cases e; exact (State.vatomic_keeps w ..)
  | vwait => cases e; exact (vecVwait_keeps w ..)
  | vpres => cases e; exact (vecVpres_keeps w ..)
  | svins | svacc => cases e; exact (State.sieveUpdate_keeps w ..)
  | svlook => cases e; exact (vecSvlook_keeps w ..)
  | svdrn => cases e; exact (vecSvdrn_keeps w ..)
  | svclr => cases e; exact (vecSvclr_keeps w ..)
  | mzero => cases e; exact (vecMzero_keeps w ..)
  | mop | mopn => cases e; exact (State.mopBody_keeps w ..)
  | mrd => cases e; exact (vecMrd_keeps w ..)
  | mwr => cases e; exact (vecMwr_keeps w ..)
  | mst => cases e; exact (vecMst_keeps w ..)
  | vsend => cases e; exact (vecVsend_keeps w ..)
  | vrecv => cases e; exact (vecVrecv_keeps w ..)
  | collectiveVst => cases e; exact (vecCollectiveVst_keeps w ..)
  | collectiveVld => cases e; exact (vecCollectiveVld_keeps w ..)
  | _ => cases e
end Sys2Proof.Machine
end

section
/-! SUPPORT. Convoys keep memory in its canonical form. -/

namespace Sys2Proof.Machine
variable {s : State}

/-! ### Convoys -/

/-- A member whose effect keeps memory in its canonical form. -/
def Member.Keeps (m : Member) : Prop := ∀ t : State, Memory.wf t.mem = true → Machine.Keeps State.mem (m.run t)

theorem memberFor_keeps {h : Hart} {x : Instr} {m : Member} (e : memberFor h x = some m) : m.Keeps := by
  unfold memberFor at e; split at e
  · next hr => cases e; exact fun _ w => memberRun_keeps w hr
  · cases e

/-- The same check on a member holds the state of the hart that checks it, with the word as its own. -/
theorem State.checkMember_ok {w : Quad} {m : Member} (e : s.checkMember w = .ok m) : m.Keeps := by
  unfold State.checkMember at e; dsimp only at e
  split at e
  · split at e
    · cases e
    · next hm =>
      split at e
      · cases e
      · cases e; exact memberFor_keeps hm
  · cases e

theorem State.checkMembers_ok : ∀ (ws : List Quad) {s : State} {ms : List (Quad × Member)}, s.checkMembers ws = .ok ms →
    ∀ p ∈ ms, p.2.Keeps
  | [], _, _, e => by cases e; simp
  | w :: ws, s, ms, e => by
    unfold State.checkMembers at e; split at e
    · cases e
    · next hm =>
      dsimp only at e; split at e
      · cases e
      · next hms =>
        cases e
        exact List.forall_mem_cons.2 ⟨State.checkMember_ok hm, State.checkMembers_ok ws hms⟩

theorem Stop.within_keeps (w : Memory.wf s.mem = true) (e : Stop) : (e.within s).Keeps := by
  cases e with
  | trap t u => exact w
  | hold x => trivial
  | fault x => trivial

theorem State.fetchMembers_keeps (h : Word) (u : BitVec 18) : ∀ (n i : Nat) (a : Quad) (after : Nat) {s : State},
    Memory.wf s.mem = true → Machine.Keeps (fun p => p.2.1.mem) (s.fetchMembers h u n i a after)
  | 0, _, _, _, _, w => w
  | n + 1, i, a, after, s, w => by
    unfold State.fetchMembers
    have h1 := State.fetchParcel_keeps w a
    revert h1; cases s.fetchParcel a with
    | error e => exact id
    | ok p =>
      intro h1; dsimp only
      refine Keeps.ite h1 ?_
      have h2 := State.fetchMore_keeps 3 (a + 2) h1
      revert h2; cases p.2.fetchMore (a + 2) 3 with
      | error e => exact id
      | ok q =>
        intro h2; dsimp only
        refine Keeps.ite ?_ h2
        generalize hr : State.fetchMembers _ _ _ n _ _ _ = r
        have h3 : Machine.Keeps (fun p => p.2.1.mem) r := hr ▸ State.fetchMembers_keeps h u n _ _ _ h2
        revert h3; cases r with
        | error e => exact id
        | ok x => exact id

/-- A convoy that passes its checks has members that keep memory canonical, in a state whose memory is canonical. -/
theorem State.checkConvoy_keeps (w : Memory.wf s.mem = true) (a : Quad) (h : Word) (cnt : BitVec 3) (u : BitVec 18) :
    Machine.Keeps (fun p => p.2.1.mem) (s.checkConvoy a h cnt u) := by
  unfold State.checkConvoy; dsimp only
  refine Keeps.ite w (Keeps.ite w ?_)
  have h1 := State.fetchMembers_keeps h u (cnt.toNat + 2) 0 (a + 4) 0 w
  revert h1; cases s.fetchMembers h u (cnt.toNat + 2) 0 (a + 4) 0 with
  | error e => exact id
  | ok p =>
    intro h1; dsimp only
    split
    · exact Stop.within_keeps h1 _
    · exact h1

theorem State.checkConvoy_ok {a : Quad} {h : Word} {cnt : BitVec 3} {u : BitVec 18} {p : List (Quad × Member) × State × Nat}
    (e : s.checkConvoy a h cnt u = .ok p) : ∀ m ∈ p.1, m.2.Keeps := by
  unfold State.checkConvoy at e; dsimp only at e
  split at e
  · cases e
  · split at e
    · cases e
    · split at e
      · cases e
      · split at e
        · cases e
        · next hms => cases e; exact State.checkMembers_ok _ hms

/-- Issuing alone changes no memory. -/
theorem State.issueOnly_mem {f : State → Except Stop State} {x : Issue} (e : s.issueOnly f = .ok x) : x.st.mem = s.mem := by
  unfold State.issueOnly at e; split at e
  · cases e; exact State.issuedAs_mem ..
  · split at e
    · cases e
    · cases e; exact State.issuedAs_mem ..
  · split at e
    · cases e
    · cases e; exact State.issuedBlind_mem ..
  · cases e

theorem wf_of_ok {α : Type} {f : α → List Host.Cell} {r : Except Stop α} {x : α} (e : r = .ok x) (h : Keeps f r) :
    Memory.wf (f x) = true := by rw [e] at h; exact h
theorem keeps_of_error {α : Type} {f : α → List Host.Cell} {r : Except Stop α} {x : Stop} (e : r = .error x) (h : Keeps f r) :
    x.Keeps := by rw [e] at h; exact h

theorem State.partMember_wf (w : Memory.wf s.mem = true) (h : Quad) (n : Nat) (x : Quad) {m : Member} (hm : m.Keeps) :
    Memory.wf (s.partMember h n x m).1.mem = true := by
  unfold State.partMember
  extract_lets u entry put none_
  have wu : Memory.wf u.mem = true := w
  have hn : Memory.wf none_.1.mem = true := by
    simp only [none_]; split
    · next e => exact (State.issueOnly_mem e).symm ▸ wu
    · exact wu
  split
  · split
    · exact hn
    · dsimp only; split
      · next e => have k := wf_of_ok e (vecVst_keeps (by exact wu) _); exact k
      · exact hn
  · split
    · exact hn
    · split
      · next e => have k := wf_of_ok e (hm _ (by exact wu)); exact k
      · exact hn
  · exact hn

theorem State.partMembers_wf (h : Quad) : ∀ (ms : List (Quad × Member)) (b : List (Quad × Touch × Nat)) {s : State},
    Memory.wf s.mem = true → (∀ p ∈ ms, p.2.Keeps) → Memory.wf (s.partMembers h b ms).mem = true
  | [], _, _, w, _ => w
  | (x, m) :: rest, b, s, w, hms => by
    obtain ⟨hm, hrest⟩ := List.forall_mem_cons.1 hms
    exact State.partMembers_wf h rest _ (State.partMember_wf (s := s.drawn) w h _ x hm) hrest

theorem State.runMembers_keeps (h after : Quad) : ∀ (ms : List (Quad × Member)) (later : Bool) {s : State},
    Memory.wf s.mem = true → (∀ p ∈ ms, p.2.Keeps) → Machine.Keeps State.mem (s.runMembers h after later ms)
  | [], _, _, w, _ => w
  | (x, m) :: rest, later, s, w, hms => by
    obtain ⟨hm, hrest⟩ := List.forall_mem_cons.1 hms
    unfold State.runMembers; extract_lets u
    have hi := State.issueVector_keeps (s := u) w x h after later hm
    split
    · next e => exact State.runMembers_keeps h after rest true (wf_of_ok e hi) hrest
    · next e =>
      have ht := keeps_of_error e hi
      split
      · exact ht
      · exact State.partMembers_wf h rest _ ht hrest
    · next e _ => exact keeps_of_error (by assumption) hi

/-- A convoy (R31, R149, R150). -/
theorem execConvoyHeader_keeps (w : Memory.wf s.mem = true) (cnt : BitVec 3) (u : BitVec 18) :
    OutKeeps (execConvoyHeader cnt u s) := by
  unfold execConvoyHeader; dsimp only
  have hc := State.checkConvoy_keeps w s.hart.pc (s.hart.ir.setWidth 32) cnt u
  split
  · next e => exact finish_keeps w (keeps_of_error e hc)
  · next ms t n e =>
    have wt := wf_of_ok e hc
    have hms := State.checkConvoy_ok e
    refine finish_keeps wt ?_
    have hs := State.settleS_keeps wt (ms.map (·.1))
    split
    · next e => exact keeps_of_error e hs
    · next v e =>
      have wv := wf_of_ok e hs
      split
      · exact Stop.within_keeps wv _
      · refine Keeps.ite trivial ?_
        have hr := State.runMembers_keeps s.hart.pc (s.hart.pc + BitVec.ofNat 64 (4 + 8 * ms.length)) ms false wv hms
        split
        · next e => have k := wf_of_ok e hr; exact k
        · next e =>
          rw [keeps_error, Stop.keeps_trap]; exact Keeps.iteWf wv (keeps_of_error e hr)
        · next e _ => exact keeps_of_error (by assumption) hr

theorem execSloopPar_keeps (w : Memory.wf s.mem = true) (a : SReg) (off : BitVec 12) : OutKeeps (execSloopPar a off s) := by
  unfold execSloopPar; dsimp only
  refine finish_keeps w ?_
  have hf := State.fetchWord_keeps w (s.hart.pc + 4)
  split
  · next e => exact keeps_of_error e hf
  · next q code t e =>
    have wt := wf_of_ok e hf
    refine Keeps.ite (illegal_keeps wt) (Keeps.ite wt ?_)
    have hc := State.checkConvoy_keeps wt (s.hart.pc + 4) (q.setWidth 32) (q.extractLsb' 7 3) (q.extractLsb' 10 18)
    split
    · next e => exact keeps_of_error e hc
    · next ms v after e =>
      have wv := wf_of_ok e hc
      have hm := State.fetchMore_keeps 2 (s.hart.pc + 4 + BitVec.ofNat 64 (4 + 8 * ms.length)) wv
      split
      · next e => exact keeps_of_error e hm
      · next e =>
        have wx := wf_of_ok e hm
        exact Keeps.ite (illegal_keeps wx) (Keeps.ite wx (State.startLoop_wf wx a off))
end Sys2Proof.Machine
end

section
/-! SUPPORT. Streams, the copy engine and the graph engine keep memory in its canonical form. -/

namespace Sys2Proof.Machine
variable {s : State}

/-- An outcome that is a next state, and what follows it. -/
theorem OutKeeps.andThen {o : Host.Outcome State Fault Refusal} (h : OutKeeps o) {f : State → Host.Outcome State Fault Refusal}
    (hf : ∀ t : State, Memory.wf t.mem = true → OutKeeps (f t)) :
    OutKeeps (match (generalizing := false) o with | .next t => f t | o => o) := by
  cases o with
  | next t => exact hf t h
  | fault x => trivial
  | refused x => trivial

/-! ### Streams and counters -/

theorem State.extend_keeps (w : Memory.wf s.mem = true) (q : QReg) (ss : List SReg) (t : Hart → TaintSet)
    (f : Hart → Stream → Option Stream) : OutKeeps (s.extend q ss t f) := by
  have w' := State.needS_wf w ss
  refine finish_keeps w' ?_
  split <;> exact w'

theorem State.walkAhead_mem (q : QReg) (base : Nat) : ∀ (fuel n : Nat) (s : State), (s.walkAhead q base fuel n).mem = s.mem
  | 0, _, _ => rfl
  | fuel + 1, n, s => by
    unfold State.walkAhead; dsimp only
    split
    · split
      · rw [State.walkAhead_mem q base fuel]; rfl
      · rfl
    · rfl

theorem State.lookAhead_mem (s : State) (q : QReg) : (s.lookAhead q).mem = s.mem := by
  unfold State.lookAhead; dsimp only; split
  · exact State.walkAhead_mem ..
  · rfl

theorem execQget_keeps (w : Memory.wf s.mem = true) (d : SReg) (q : QReg) (n : BitVec 3) : OutKeeps (execQget d q n s) := by
  refine State.needS_wf (Keeps.iteWf ?_ w) _
  rw [State.lookAhead_mem]; exact w

theorem execKwait_keeps (w : Memory.wf s.mem = true) (k : KReg) (a : SReg) : OutKeeps (execKwait k a s) := by
  have w1 := State.needS_wf w [a]
  unfold execKwait; extract_lets u v
  have w2 : Memory.wf v.mem = true := Keeps.iteWf w1 (State.drain_wf w1)
  split <;> exact w2

/-! ### Lane groups -/

theorem State.quiesce_keeps (w : Memory.wf s.mem = true) : Keeps State.mem s.quiesce :=
  Keeps.ite trivial (Keeps.ite (State.drain_wf w) trivial)

theorem execVcfg_keeps (w : Memory.wf s.mem = true) (d : SReg) (n : BitVec 2) (b : Bool) (l : BitVec 4) :
    OutKeeps (execVcfg d n b l s) := by
  refine finish_keeps w ?_
  have h := State.quiesce_keeps w
  revert h; cases s.quiesce with
  | error e => exact id
  | ok t => exact id

theorem State.tryGrant_wf (w : Memory.wf s.mem = true) : Memory.wf s.tryGrant.mem = true := by
  refine Keeps.iteWf w (Keeps.iteWf (State.drain_wf w) ?_)
  rw [State.applyGrant_mem]; exact State.drain_wf w

/-! ### Engine commands -/

theorem Keeps.map {α : Type} {f : α → List Host.Cell} {r : Except Stop α} {g : State → List Host.Cell} {k : α → State}
    (h : Keeps f r) (hk : ∀ x, g (k x) = f x) : Keeps g (r.map k) := by
  cases r with
  | error e => exact h
  | ok x => show Memory.wf (g (k x)) = true; rw [hk]; exact h

theorem State.copy_keeps (w : Memory.wf s.mem = true) (ff : Option SReg) (qa qb : QReg) (sa : SReg) (k : KReg) :
    Keeps State.mem (s.copy ff qa qb sa k) :=
  Keeps.unless (insnTrap_keeps w _) ((State.streamOk_keeps w _).check fun _ => (State.streamOk_keeps w _).check fun _ =>
    (State.tagOk_keeps w _).check fun _ => Keeps.ready w fun _ h => (State.limitOk_keeps h _).check fun _ =>
    State.issueCmd_keeps (s := State.nextSeq _) h ..)

theorem execCpy_keeps (w : Memory.wf s.mem = true) (qa qb : QReg) (sa : SReg) (k : KReg) : OutKeeps (execCpy qa qb sa k s) :=
  finish_keeps w ((State.copy_keeps w ..).map fun _ => rfl)
theorem execCpyff_keeps (w : Memory.wf s.mem = true) (sd : SReg) (qa qb : QReg) (sa : SReg) (k : KReg) :
    OutKeeps (execCpyff sd qa qb sa k s) := finish_keeps w ((State.copy_keeps w ..).map fun _ => rfl)

theorem State.fuller_keeps (w : Memory.wf s.mem = true) (sa : SReg) (k : KReg) : Keeps State.mem (s.fuller sa k) := by
  have w1 := State.needS_wf w [sa]
  have hc : Keeps (fun _ => (s.needS [sa]).mem) (match (s.needS [sa]).check19 (s.needS [sa]).hart (s.needS [sa]).hart.asid
      ((s.needS [sa]).hart.getS sa) 8 .read .any with
    | .ok l => .ok l
    | .error e => .error ((s.needS [sa]).raise (s.needS [sa]).hart .read e) : Except Stop Loc) := by
    split
    · exact w1
    · exact State.raise_keeps w1 ..
  refine Keeps.unless w1 (Keeps.unless w1 (hc.check fun l => (State.settle_keeps w1 _).bind fun t _ h =>
    (State.awaitTurn_keeps h _ _ _).check fun _ => ?_))
  have hd := State.drainUntil_wf h fun x => decide (x.addr < l.phys + 64 ∧ l.phys < x.addr + x.size)
  exact Keeps.unless hd (Keeps.unless trivial (State.issueCmd_keeps (s := State.nextSeq _) hd ..))

theorem execFmp_keeps (w : Memory.wf s.mem = true) (sa : SReg) (k : KReg) : OutKeeps (execFmp sa k s) :=
  finish_keeps w ((State.fuller_keeps w ..).map fun _ => rfl)

theorem State.copyDown_wf (a b : Stream) (f g : Nat → Quad) (x : Quad) : ∀ (n : Nat) {c : Cmd} {s t : State} {d : Cmd},
    Memory.wf s.mem = true → s.copyDown c a b f g x n = some (t, d) → Memory.wf t.mem = true
  | 0, _, _, _, _, w, e => by cases e; exact w
  | n + 1, c, s, t, d, w, e => by
    unfold State.copyDown at e; dsimp only at e; split at e
    · cases e
    · exact State.copyDown_wf a b f g x n (State.copyElem_wf w ..) e

theorem State.copyAll_wf (w : Memory.wf s.mem = true) (c : Cmd) (a b : Stream) (f g : Nat → Quad) (x : Quad) (n k : Nat) :
    Memory.wf (s.copyAll c a b f g x n k).s.mem = true := by
  unfold State.copyAll; dsimp only
  split
  · split
    · split
      · next e => exact State.copyDown_wf (s := s.drawn) _ _ _ _ _ _ w e
      · exact State.copyRun_wf _ _ _ _ _ _ _ (s := s.drawn) w
    · exact State.copyRun_wf _ _ _ _ _ _ _ (s := s.drawn) w
  · exact State.copyRun_wf _ _ _ _ _ _ _ w

theorem State.copyAbove_wf (a b : Stream) (f g : Nat → Quad) (x : Quad) : ∀ (n j : Nat) {c : Cmd} {s : State},
    Memory.wf s.mem = true → Memory.wf (s.copyAbove c a b f g x n j).1.mem = true
  | 0, _, _, _, w => w
  | n + 1, j, c, s, w => by
    unfold State.copyAbove; dsimp only
    refine State.copyAbove_wf a b f g x n (j + 1) ?_
    split
    · split
      · exact State.copyElem_wf (s := s.drawn) w ..
      · exact w
    · exact w

theorem State.drainElem_wf (w : Memory.wf s.mem = true) (c : Cmd) (q : Stream) (idx : Nat → Quad) (t : Tile) (p : Quad)
    (n : Nat) (m : BitVec 65536) (b : Quad) (r : Rnd) (sat : Bool) (i : Nat) :
    Memory.wf (s.drainElem c q idx t p n m b r sat i).s.mem = true := by
  unfold State.drainElem; dsimp only
  split
  · exact w
  · split
    · exact w
    · next he => have k := State.element_mem he; dsimp only at k ⊢; rw [State.mapHart_mem, k]; exact w
    · next he =>
      have k := State.element_mem he
      dsimp only at k ⊢; rw [State.mapHart_mem]; exact State.engineWrite_wf (by rw [k]; exact w) ..

theorem State.drainRun_wf (q : Stream) (idx : Nat → Quad) (t : Tile) (p : Quad) (m : Nat) (k : BitVec 65536) (b : Quad)
    (r : Rnd) (sat : Bool) : ∀ (n i : Nat) {c : Cmd} {s : State}, Memory.wf s.mem = true →
    Memory.wf (s.drainRun c q idx t p m k b r sat n i).s.mem = true
  | 0, _, _, _, w => w
  | n + 1, i, c, s, w => by
    unfold State.drainRun; dsimp only
    have h := State.drainElem_wf w c q idx t p m k b r sat i
    split
    · exact h
    · exact State.drainRun_wf q idx t p m k b r sat n (i + 1) h

theorem State.freshWindows_mem (s : State) (d : Desc) : (s.freshWindows d).mem = s.mem := State.mapHart_mem ..

theorem State.fullerVertex_wf (w : Memory.wf s.mem = true) (c : Cmd) (d : Desc) (k : Nat) :
    Memory.wf (s.fullerVertex c d k).s.mem = true := by
  have wf : Memory.wf (s.freshWindows d).mem = true := by rw [State.freshWindows_mem]; exact w
  unfold State.fullerVertex; extract_lets u
  split
  · exact wf
  · split
    · exact wf
    · exact List.foldlRecOn (motive := fun p : State × Cmd => Memory.wf p.1.mem = true) _ _ wf
        fun p hp o _ => State.engineWrite_wf hp ..

theorem State.fullerRun_wf (d : Desc) : ∀ (n k : Nat) {c : Cmd} {s : State}, Memory.wf s.mem = true →
    Memory.wf (s.fullerRun c d n k).s.mem = true
  | 0, _, _, _, w => w
  | n + 1, k, c, s, w => by
    unfold State.fullerRun; dsimp only
    have h := State.fullerVertex_wf w c d k
    split
    · exact h
    · exact State.fullerRun_wf d n (k + 1) h

/-- Some part of a command, whichever engine runs it. -/
theorem State.runFor_wf (w : Memory.wf s.mem = true) (c : Cmd) (n : Nat) : Memory.wf (s.runFor c n).s.mem = true := by
  unfold State.runFor
  split
  · exact State.copyAll_wf w ..
  · exact State.drainRun_wf _ _ _ _ _ _ _ _ _ _ _ w
  · dsimp only; split
    · exact w
    · exact State.fullerRun_wf _ _ _ w

theorem Run.spill_wf {r : Run} (w : Memory.wf r.s.mem = true) : Memory.wf r.spill.s.mem = true := by
  unfold Run.spill; split
  · exact State.copyAbove_wf _ _ _ _ _ _ _ w
  · exact w

theorem Run.outcome_keeps {r : Run} (w : Memory.wf r.s.mem = true) (s : State) : OutKeeps (r.outcome s) := by
  unfold Run.outcome; split
  · split
    · exact State.notePoison_wf w _
    · exact w
  · have h := Run.spill_wf w
    dsimp only; split
    · split
      · exact State.logFail_wf (State.notePoison_wf h _) ..
      · trivial
    · exact State.engineFault_keeps h ..

theorem State.commandStep_keeps (w : Memory.wf s.mem = true) (i : Nat) (is : Cmd → Bool) : OutKeeps (s.commandStep i is) := by
  unfold State.commandStep; split
  · exact w
  · next c _ =>
    dsimp only; split
    · exact w
    · have h := State.drainUntil_wf w fun a => decide (a.seq < c.seq)
      split
      · exact h
      · exact Run.outcome_keeps (State.runFor_wf h c _) _

theorem State.engineTurn_keeps (w : Memory.wf s.mem = true) : OutKeeps s.engineTurn := by
  unfold State.engineTurn; split
  · exact w
  · next c _ =>
    have h := State.drainUntil_wf (s := s.drawn) w fun a => decide (a.seq < c.seq)
    dsimp only; split
    · exact h
    · split
      · split <;> exact h
      · split
        · exact h
        · exact (Run.outcome_keeps (State.runFor_wf h c _) _).andThen fun t ht => by
            rw [outKeeps_next, State.movePointers_mem]; exact ht
end Sys2Proof.Machine
end

section
/-! SUPPORT. Bindings, collective operations and ordering keep memory in its canonical form. -/

namespace Sys2Proof.Machine
variable {s : State}

/-! ### Bindings and messages -/

theorem execFsbindPeer_keeps (w : Memory.wf s.mem = true) (c : Bool) (f : FReg) (a b : SReg) :
    OutKeeps (execFsbindPeer c f a b s) := by
  have w' := State.needS_wf w [a, b]
  refine finish_keeps w' (Keeps.ite trivial (Keeps.ite w' (Keeps.ite w' w')))

theorem execFsbindGroup_keeps (w : Memory.wf s.mem = true) (f : FReg) (j : BitVec 4) : OutKeeps (execFsbindGroup f j s) := by
  unfold execFsbindGroup; split
  · exact w
  · refine finish_keeps w ?_
    split <;> exact w

theorem execFsfree_keeps (w : Memory.wf s.mem = true) (f : FReg) : OutKeeps (execFsfree f s) :=
  finish_keeps w (Keeps.ite trivial w)

theorem execMessagePacketArrive_keeps (w : Memory.wf s.mem = true) (m p : Nat) : OutKeeps (execMessagePacketArrive m p s) := by
  unfold execMessagePacketArrive; split
  · exact w
  · dsimp only; split
    · exact w
    · split
      · rw [outKeeps_next, State.refuseMessage_mem]; exact w
      · split
        · exact w
        · refine State.withHart_wf (State.placeBytes_wf (by exact w) ..) _ fun t ht => ?_
          split
          · exact ht
          · rw [State.receive_mem]; exact ht

/-! ### Groups and collective operations -/

theorem execCgsel_keeps (w : Memory.wf s.mem = true) (d : SReg) (j : BitVec 4) : OutKeeps (execCgsel d j s) := by
  have w' := State.needS_wf w [d]
  refine finish_keeps w' ?_
  split <;> exact w'
theorem execCstat_keeps (w : Memory.wf s.mem = true) (d : SReg) (j : BitVec 4) : OutKeeps (execCstat d j s) := by
  have w' := State.needS_wf w [d]
  refine finish_keeps w' ?_
  split <;> exact w'
theorem execCjoin_keeps (w : Memory.wf s.mem = true) (d : SReg) (j : BitVec 4) (a b : SReg) : OutKeeps (execCjoin d j a b s) := by
  have w' := State.needS_wf w [d, a, b]
  refine Keeps.iteWf w' ?_
  rw [State.mapHart_mem, State.joinRank_mem]; exact w'
theorem execCleave_keeps (w : Memory.wf s.mem = true) (j : BitVec 4) : OutKeeps (execCleave j s) := by
  refine finish_keeps w ?_
  split
  · exact w
  · exact Keeps.ite trivial w

theorem State.endBarrier_mem (s : State) (d : SReg) (j : BitVec 4) (x : Joined) (o : CollOp) (c : Option Byte) :
    (s.endBarrier d j x o c).mem = s.mem := by
  unfold State.endBarrier; rw [State.done_mem, State.closeOp_mem]; rfl

theorem execCbar_keeps (w : Memory.wf s.mem = true) (d : SReg) : OutKeeps (execCbar d s) := by
  have w' := State.needS_wf w [d]
  unfold execCbar; extract_lets u j
  split
  · exact State.takeTrap_wf w' _
  · split
    · split
      · exact w'
      · split
        · exact Keeps.iteWf (by rw [State.endBarrier_mem]; exact w') w'
        · split
          · rw [outKeeps_next, State.endBarrier_mem]; exact w'
          · exact w'
        · exact w'
    · have h := State.lsync_keeps w' .g
      split
      · next e => exact finish_keeps w' (keeps_of_error e h)
      · next e => have k := wf_of_ok e h; split <;> exact k

theorem execCabort_keeps (w : Memory.wf s.mem = true) : OutKeeps (execCabort s) := by
  refine finish_keeps w ?_
  split <;> exact w

theorem State.stagePart_wf (w : Memory.wf s.mem = true) (pkg : Nat) (h : Quad) (t : List Nat) (p : Contribution) :
    Memory.wf (s.stagePart pkg h t p).mem = true := State.placeBytes_wf w ..

theorem execCollectiveContributionArrive_keeps (w : Memory.wf s.mem = true) (g : OpRef) (r p : Nat) :
    OutKeeps (execCollectiveContributionArrive g r p s) := by
  unfold execCollectiveContributionArrive; split
  · exact w
  · split
    · exact w
    · dsimp only; split
      · exact w
      · split
        · exact w
        · split
          · exact w
          · next o _ _ q _ _ _ _ =>
            have h := State.stagePart_wf w p o.handle (s.treeOf o.pkg o.handle) q
            split
            · rw [outKeeps_next, State.onSender_mem]; exact h
            · exact h

theorem State.settleMembers_wf (w : Memory.wf s.mem = true) (h : Quad) (q : Word) : Memory.wf (s.settleMembers h q).mem = true := by
  refine foldl_wf (fun t m ht => State.withHart_wf ht _ fun u hu => ?_) _ w
  split
  · exact hu
  · rw [State.settleColl_mem]; exact hu

theorem State.commitAt_wf (w : Memory.wf s.mem = true) (o : CollOp) : Memory.wf (s.commitAt o).mem = true :=
  Keeps.iteWf (State.settleMembers_wf (s := s.setOp o) w ..) w

theorem execCollectiveCommit_keeps (w : Memory.wf s.mem = true) (g : OpRef) : OutKeeps (execCollectiveCommit g s) := by
  unfold execCollectiveCommit; split
  · exact w
  · dsimp only; split
    · exact w
    · split
      · exact State.commitAt_wf w _
      · exact w
    · split
      · exact State.commitAt_wf w _
      · split <;> exact w

theorem State.abortAtUnit_mem (s : State) (g : OpRef) (c p : Nat) : (s.abortAtUnit g c p).mem = s.mem := by
  unfold State.abortAtUnit; dsimp only
  split
  · split
    · split <;> rfl
    · rfl
  · split
    · split <;> rfl
    · rfl

theorem State.abortAtMember_mem (s : State) (o : CollOp) (c : Byte) (j : Nat) (x : Joined) :
    (s.abortAtMember o c j x).mem = s.mem := by
  unfold State.abortAtMember; dsimp only
  split
  · exact State.closeOp_mem ..
  · split
    · rfl
    · rw [State.settleColl_mem]; rfl

theorem execAbort_keeps (w : Memory.wf s.mem = true) (g : OpRef) (c : Nat) (a : AbortAt) : OutKeeps (execAbort g c a s) := by
  unfold execAbort; split
  · rw [outKeeps_next, State.abortAtUnit_mem]; exact w
  · split
    · exact w
    · split
      · refine State.withHart_wf w _ fun t ht => ?_
        split
        · exact ht
        · split
          · exact ht
          · split
            · exact ht
            · rw [State.abortAtMember_mem]; exact ht
      · exact w

theorem execLagLimitExpiry_keeps (w : Memory.wf s.mem = true) (g : OpRef) : OutKeeps (execLagLimitExpiry g s) := by
  unfold execLagLimitExpiry; split
  · exact w
  · split
    · exact w
    · dsimp only; split <;> exact w

theorem execRankDeparture_keeps (w : Memory.wf s.mem = true) (h : Quad) (r : Nat) : OutKeeps (execRankDeparture h r s) := by
  unfold execRankDeparture; dsimp only; split <;> exact w

/-! ### Ordering, and waiting on memory -/

theorem execLsync_keeps (w : Memory.wf s.mem = true) (sc : Scope) : OutKeeps (execLsync sc s) := by
  refine finish_keeps w ?_
  have h := State.lsync_keeps w sc
  revert h; cases s.lsync sc with
  | error e => exact id
  | ok t => exact id

theorem execStRel_keeps (w : Memory.wf s.mem = true) (wd : StWidth) (sc : Scope) (a b : SReg) :
    OutKeeps (execStRel wd sc a b s) := by
  have h := State.lsync_keeps w sc
  unfold execStRel; split
  · next e => exact finish_keeps w (keeps_of_error e h)
  · next e => exact State.storeReg_keeps (wf_of_ok e h) ..

theorem execIfence_keeps (w : Memory.wf s.mem = true) : OutKeeps (execIfence s) := by
  unfold execIfence; dsimp only; split
  · exact w
  · exact State.drainUntil_wf w _

theorem execWaita_keeps (w : Memory.wf s.mem = true) (d a b : SReg) : OutKeeps (execWaita d a b s) := by
  have h := State.lsync_keeps w .g
  unfold execWaita; split
  · next e => exact finish_keeps w (keeps_of_error e h)
  · next t e =>
    have wt : Memory.wf t.mem = true := wf_of_ok e h
    extract_lets addr answer
    have ha : ∀ c, Keeps State.mem (answer c) := fun _ => wt
    refine finish_keeps wt ?_
    cases e : t.resolve addr 8 .read .home with
    | error e' => exact State.resolve_error wt e
    | ok l =>
      dsimp only; generalize readQuad t.mem l.phys = now
      refine Keeps.ite (ha 1) (Keeps.ite (ha 2) ?_)
      have hq := State.quiesce_keeps wt
      cases e : t.quiesce with
      | error e' => exact keeps_of_error e hq
      | ok u =>
        have wu : Memory.wf u.mem = true := wf_of_ok e hq
        exact State.park_wf (s := { u with waiters := u.waiters ++ [⟨homeOf l.phys, lineOf l.phys, u.hart.ref⟩] }) wu _ _ _

theorem execWakea_keeps (w : Memory.wf s.mem = true) (d a b : SReg) : OutKeeps (execWakea d a b s) := by
  have w1 := State.needS_wf w [d, a, b]
  refine finish_keeps w1 ?_
  split
  · exact State.raise_keeps w1 ..
  · next l _ =>
    have hs := State.settle_keeps w1 ((s.needS [d, a, b]).hart.taintS a ||| (s.needS [d, a, b]).hart.taintS b)
    split
    · next e => exact keeps_of_error e hs
    · next u e =>
      have wu := wf_of_ok e hs
      refine Keeps.ite trivial ?_
      rw [keeps_ok, State.done_mem, State.mapHart_mem, State.wakeLine_mem]
      exact State.drainUntil_wf wu _
end Sys2Proof.Machine
end

section
/-! SUPPORT. Gangs: launching one keeps memory in its canonical form. -/

namespace Sys2Proof.Machine
variable {s : State}

/-! ### Gangs -/

/-- The record that glaunch reads: as checks 1 to 9 find it. -/
theorem State.checked_keeps (w : Memory.wf s.mem = true) (h : Hart) (a : Quad) :
    Keeps (fun _ => s.mem) (match s.check19 h h.asid a 64 .read .own with
      | .ok l => .ok l
      | .error e => .error (s.raise h .read e) : Except Stop Loc) := by
  split
  · exact w
  · exact State.raise_keeps w ..

theorem State.resolve_keeps (w : Memory.wf s.mem = true) (a : Quad) (n : Nat) (k : AccKind) (r : SpaceRule) :
    Keeps (fun _ => s.mem) (s.resolve a n k r) := by
  have b := resolve_bind (f := Except.ok) (g := fun _ => s.mem) (a := a) (n := n) (k := k) (r := r) w fun _ => w
  revert b; cases s.resolve a n k r with
  | error e => exact id
  | ok l => exact id

theorem execGlaunch_keeps (w : Memory.wf s.mem = true) (d a b : SReg) : OutKeeps (execGlaunch d a b s) := by
  have w1 := State.drain_wf (State.needS_wf w [d, a, b])
  refine finish_keeps w1 ((State.settle_keeps w1 _).bind fun t _ h => ?_)
  refine Keeps.check (State.checked_keeps h ..) fun l => ?_
  refine (State.awaitTurn_keeps h _ _ _).check fun _ => ?_
  refine Keeps.unless trivial ?_
  refine Keeps.unless (addrTrap_keeps h ..) ?_
  refine Keeps.unless (openTrap_keeps h _) ?_
  refine Keeps.ite h ?_
  refine Keeps.unless (addrTrap_keeps h ..) ?_
  refine (State.resolve_keeps h ..).check fun x => ?_
  rw [keeps_ok, State.done_mem, State.mapHart_mem]
  refine State.setQueueQuad_wf ?_ _ _ _ _
  exact State.putQuads_wf _ _ h
end Sys2Proof.Machine
end

section
/-! SUPPORT. Gangs and level S keep memory in its canonical form. -/

namespace Sys2Proof.Machine
variable {s : State}

theorem State.noteMark_wf (w : Memory.wf s.mem = true) (pkg q : Nat) (n : Word) : Memory.wf (s.noteMark pkg q n).mem = true := by
  unfold State.noteMark; dsimp only; split
  · exact State.logFail_wf w ..
  · exact w

theorem execGwait_keeps (w : Memory.wf s.mem = true) (d a b : SReg) : OutKeeps (execGwait d a b s) := by
  have w1 := State.needS_wf w [d, a, b]
  have hl := State.lsync_keeps w1 .g
  unfold execGwait; extract_lets u
  split
  · next e => exact finish_keeps w1 (keeps_of_error e hl)
  · next t e =>
    have wt : Memory.wf t.mem = true := wf_of_ok e hl
    extract_lets pkg q n code v
    have wv : Memory.wf v.mem = true := Keeps.iteWf (State.noteMark_wf wt ..) wt
    split
    · exact finish_keeps wt (openTrap_keeps wt 0x09)
    · clear_value v code
      cases code with
      | some c => exact wv
      | none =>
        have hq := State.quiesce_keeps wv
        dsimp only; split
        · next e => exact finish_keeps wv (keeps_of_error e hq)
        · next x e =>
          have wx : Memory.wf x.mem = true := wf_of_ok e hq
          exact (State.park_wf wx (.gwait q n) d x.hart.pc)

theorem execGbar_keeps (w : Memory.wf s.mem = true) : OutKeeps (execGbar s) := by
  have hl := State.lsync_keeps w .g
  unfold execGbar; split
  · next e => exact finish_keeps w (keeps_of_error e hl)
  · next t e =>
    have wt : Memory.wf t.mem = true := wf_of_ok e hl
    rw [outKeeps_next, State.releaseBarrier_mem]; exact wt

theorem execGyield_keeps (w : Memory.wf s.mem = true) : OutKeeps (execGyield s) := by
  have hq := State.quiesce_keeps w
  unfold execGyield; split
  · next e => exact finish_keeps w (keeps_of_error e hq)
  · next t e => have wt : Memory.wf t.mem = true := wf_of_ok e hq; rw [outKeeps_next, State.drawn_mem]; exact State.park_wf wt ..

/-! ### Level S -/

theorem execSret_keeps (w : Memory.wf s.mem = true) : OutKeeps (execSret s) := by
  have wd := State.drain_wf w
  exact State.privileged_keeps w (Keeps.ite trivial (Keeps.ite (State.exitGang_keeps wd) (Keeps.ite wd wd)))

theorem State.matchFrame_keeps {α : Type} (w : Memory.wf s.mem = true) (a : Quad) : ∀ (l : List (Nat × Nat × α)),
    Keeps (fun _ => s.mem) (s.matchFrame a l)
  | [] => w
  | (id, n, x) :: r => by
    unfold State.matchFrame
    split
    · next e => exact keeps_of_error e (State.area_keeps w ..)
    refine Keeps.ite (State.matchFrame_keeps w a r) ?_
    split
    · next e => exact keeps_of_error e (State.area_keeps w ..)
    exact Keeps.ite w (State.matchFrame_keeps w a r)

theorem execVqsave_keeps (w : Memory.wf s.mem = true) (d a : SReg) : OutKeeps (execVqsave d a s) := by
  refine State.privileged_keeps w ?_
  extract_lets u n
  have wu : Memory.wf u.mem = true := State.drain_wf (s := State.mapHart _ _) (State.needS_wf w [d, a])
  split
  · next e => exact keeps_of_error e (State.area_keeps wu ..)
  exact State.putArea_wf _ _ wu

theorem execVqrest_keeps (w : Memory.wf s.mem = true) (d a : SReg) : OutKeeps (execVqrest d a s) := by
  refine State.privileged_keeps w ?_
  extract_lets u
  have wu : Memory.wf u.mem = true := State.drain_wf (State.needS_wf w [d, a])
  split
  · next e => exact keeps_of_error e (State.area_keeps wu ..)
  have h := State.matchFrame_keeps wu (u.hart.getS a) (u.vqFrames.map fun f => (f.id, f.bytes, f))
  split
  · next e => exact keeps_of_error e h
  · exact wu
  · exact Keeps.ite wu wu

theorem execVsave_keeps (w : Memory.wf s.mem = true) (d a : SReg) : OutKeeps (execVsave d a s) := by
  have wu := State.drain_wf (State.needS_wf w [d, a])
  refine State.privileged_keeps w ?_
  dsimp only; split
  · next e => exact keeps_of_error e (State.area_keeps wu ..)
  exact Keeps.ite wu (State.putArea_wf _ _ wu)

theorem execVrest_keeps (w : Memory.wf s.mem = true) (d a : SReg) : OutKeeps (execVrest d a s) := by
  have wu := State.drain_wf (State.needS_wf w [d, a])
  refine State.privileged_keeps w ?_
  dsimp only; split
  · next e => exact keeps_of_error e (State.area_keeps wu ..)
  refine Keeps.ite wu ?_
  split
  · exact State.putArea_wf _ _ wu
  · rw [keeps_ok, State.answer_mem, State.drawn_mem, State.mapHart_mem]; exact wu

theorem execHsave_keeps (w : Memory.wf s.mem = true) (a : SReg) : OutKeeps (execHsave a s) := by
  have wu := State.drain_wf (State.needS_wf w [a])
  refine State.privileged_keeps w ?_
  dsimp only; split
  · next e => exact keeps_of_error e (State.area_keeps wu ..)
  exact State.putArea_wf _ _ wu

theorem execHrest_keeps (w : Memory.wf s.mem = true) (d a : SReg) : OutKeeps (execHrest d a s) := by
  refine State.privileged_keeps w ?_
  extract_lets u
  have wu : Memory.wf u.mem = true := State.drain_wf (State.needS_wf w [d, a])
  split
  · next e => exact keeps_of_error e (State.area_keeps wu ..)
  have h := State.matchFrame_keeps wu (u.hart.getS a) (u.hFrames.map fun f => (f.id, 4096, f))
  split
  · next e => exact keeps_of_error e h
  · exact wu
  · exact Keeps.ite wu wu

theorem execTlbinv_keeps (w : Memory.wf s.mem = true) (d a b : SReg) : OutKeeps (execTlbinv d a b s) := by
  have wu := State.needS_wf w [d, a, b]
  refine State.privileged_keeps w ?_
  dsimp only; split
  · exact wu
  · exact Keeps.ite trivial wu

theorem execSnap_keeps (w : Memory.wf s.mem = true) (d a b : SReg) : OutKeeps (execSnap d a b s) := by
  have wu := State.drain_wf (State.needS_wf w [d, a, b])
  refine State.privileged_keeps w (Keeps.ite (illegal_keeps wu) ?_)
  dsimp only; split
  · next e => exact keeps_of_error e (State.area_keeps wu ..)
  exact Keeps.ite trivial (State.putArea_wf _ _ wu)

theorem execPwait_keeps (w : Memory.wf s.mem = true) (d a : SReg) : OutKeeps (execPwait d a s) := by
  have wu := State.needS_wf w [d, a]
  exact State.privileged_keeps w (Keeps.ite (Keeps.ite wu (State.drain_wf wu)) (Keeps.ite trivial wu))

theorem State.wipePiece_keeps (w : Memory.wf s.mem = true) (a : Nat) : Keeps (fun _ => s.mem) (s.wipePiece a) := by
  unfold State.wipePiece; extract_lets q
  split
  · exact w
  · next t e =>
    have wt : Memory.wf t.mem = true := State.resolve_error w e
    exact Keeps.ite (Keeps.ite w wt) wt
  · next e => exact State.resolve_error w e

theorem State.wipePieces_keeps (w : Memory.wf s.mem = true) : ∀ (l : List Nat), Keeps (fun _ => s.mem) (s.wipePieces l)
  | [] => w
  | a :: r => by
    unfold State.wipePieces
    split
    · next e => exact keeps_of_error e (State.wipePiece_keeps w a)
    split
    · next e => exact keeps_of_error e (State.wipePieces_keeps w r)
    exact w

theorem execMwipe_keeps (w : Memory.wf s.mem = true) (d a b : SReg) : OutKeeps (execMwipe d a b s) := by
  have wu := State.needS_wf w [d, a, b]
  refine State.privileged_keeps w ?_
  dsimp only; split
  · next e => exact keeps_of_error e (State.lsync_keeps wu .g)
  rename_i t e
  have wt : Memory.wf t.mem = true := wf_of_ok e (State.lsync_keeps wu .g)
  refine Keeps.ite (insnTrap_keeps wt 0x05) ?_
  split
  · next e => exact keeps_of_error e (State.wipePieces_keeps wt _)
  split
  · next e => exact keeps_of_error e (State.awaitTurn_keeps wt _ _ _)
  rw [keeps_ok, State.answer_mem]
  refine foldl_wf (fun v p hv => ?_) _ wt
  exact Keeps.iteWf (State.emptyEntries_wf (State.wipe_wf hv ..) ..) (State.wipe_wf hv ..)

/-! ### Steps of a hart -/

theorem State.asyncTrap_wf (w : Memory.wf s.mem = true) (c : Byte) : Memory.wf (s.asyncTrap c).mem = true := by
  unfold State.asyncTrap
  refine Keeps.iteWf ?_ (State.takeTrap_wf w _)
  rw [State.mapHart_mem]
  exact State.takeTrap_wf (s := s.mapHart Hart.discardWork) w _

theorem State.wakeTurn_wf (w : Memory.wf s.mem = true) : Memory.wf s.wakeTurn.mem = true := by
  unfold State.wakeTurn; split
  · exact w
  · exact Keeps.iteWf w w
  · split
    · exact State.asyncTrap_wf w _
    · exact w

theorem State.goOn_wf (w : Memory.wf s.mem = true) (h : HartRef) : Memory.wf (s.goOn h).mem = true := by
  unfold State.goOn; split
  · exact w
  · refine Keeps.iteWf (State.withHart_wf w _ fun t ht => ?_) w
    split
    · exact State.emptyPark_wf ht
    · exact State.emptyPark_wf ht
    · exact State.emptyPark_wf ht
    · exact ht

theorem execHartResume_keeps (w : Memory.wf s.mem = true) (h : HartRef) : OutKeeps (execHartResume h s) := by
  unfold execHartResume; rw [outKeeps_next]; split
  · exact w
  · split
    · refine Keeps.iteWf (State.goOn_wf ?_ _) w
      rw [State.wakeSpurious, State.drawn_mem, State.onHart_mem]; exact w
    · exact State.goOn_wf w _

theorem execOnHart_keeps (w : Memory.wf s.mem = true) (h : HartRef) (f : Hart → Hart) : OutKeeps (.next (s.onHart h f)) := by
  rw [outKeeps_next, State.onHart_mem]; exact w
end Sys2Proof.Machine
end

section
/-! SUPPORT. The scheduler and circuits keep memory in its canonical form. -/

namespace Sys2Proof.Machine
variable {s : State}

theorem OutKeeps.ite {c : Prop} [Decidable c] {x y : Host.Outcome State Fault Refusal} (hx : OutKeeps x) (hy : OutKeeps y) :
    OutKeeps (if c then x else y) := iteInduction (fun _ => hx) fun _ => hy

/-! ### The gang scheduler -/

theorem State.noteGroups_wf (w : Memory.wf s.mem = true) (pkg : Nat) (asid : BitVec 16) : ∀ (n : Nat) (a : Quad),
    Memory.wf (s.noteGroups pkg asid a n).mem = true
  | 0, _ => w
  | n + 1, a => by
    unfold State.noteGroups; split
    · exact State.logFail_wf w ..
    · exact w
    · exact State.noteGroups_wf w pkg asid n (a + 16)

theorem execRecordAccept_keeps (w : Memory.wf s.mem = true) (pkg q : Nat) : OutKeeps (execRecordAccept pkg q s) := by
  unfold execRecordAccept; extract_lets d p n asid a s1 anc s2; split
  · exact Keeps.iteWf (State.reject_wf w ..) w
  · refine OutKeeps.ite w ?_
    split
    · trivial
    · exact State.reject_wf (State.logFail_wf w ..) ..
    · refine OutKeeps.ite (State.reject_wf w ..) ?_
      extract_lets quads x at_ groups s3 s4
      have w1 : Memory.wf s1.mem = true := State.markRecord_wf w ..
      have w3 : Memory.wf s3.mem = true := Keeps.iteWf (State.noteGroups_wf (s := s2) w1 ..) w1
      have w4 : Memory.wf s4.mem = true := foldl_wf (fun t d ht => State.noteMark_wf ht ..) _ w3
      split
      · exact w4
      · exact State.reject_wf w4 ..

theorem execGangPlace_keeps (w : Memory.wf s.mem = true) (pkg q : Nat) : OutKeeps (execGangPlace pkg q s) := by
  unfold execGangPlace; extract_lets p; split
  · exact w
  · extract_lets ahead
    refine OutKeeps.ite w ?_
    split
    · exact w
    · exact State.placeGang_wf w ..

theorem execPreemptVictims_keeps (w : Memory.wf s.mem = true) (pkg q : Nat) : OutKeeps (execPreemptVictims pkg q s) := by
  unfold execPreemptVictims; extract_lets p; split
  · exact w
  · refine OutKeeps.ite w ?_
    extract_lets
    split
    · exact w
    · rw [outKeeps_next, foldl_mem (fun _ _ => by rw [State.pendGang_mem, State.setGang_mem])]; exact w

theorem execGraceExpiry_keeps (w : Memory.wf s.mem = true) (h : HartRef) : OutKeeps (execGraceExpiry h s) := by
  unfold execGraceExpiry; split
  · exact w
  · split
    · refine OutKeeps.ite ?_ w
      rw [outKeeps_next, State.abortGang_mem, State.onHart_mem]; exact w
    · exact w

theorem execForcedHartEnd_keeps (w : Memory.wf s.mem = true) (h : HartRef) : OutKeeps (execForcedHartEnd h s) := by
  unfold execForcedHartEnd; split
  · exact w
  · split
    · exact w
    · split
      · exact w
      · refine OutKeeps.ite w ?_
        rw [outKeeps_next, State.someTurn_mem]
        refine State.withHart_wf w _ fun t ht => ?_
        rw [State.endHart_mem]
        exact State.drain_wf (s := t.mapHart Hart.discardWork) ht

theorem execQuotaReturn_keeps (w : Memory.wf s.mem = true) (pkg gang : Nat) : OutKeeps (execQuotaReturn pkg gang s) := by
  unfold execQuotaReturn; extract_lets p; split
  · exact w
  · extract_lets first blocked
    refine OutKeeps.ite w ?_
    extract_lets
    refine OutKeeps.ite w ?_
    rw [outKeeps_next, foldl_mem (fun _ _ => State.handBack_mem ..), State.setGang_mem]; exact w

theorem execGangTrigger_keeps (w : Memory.wf s.mem = true) (pkg gang : Nat) : OutKeeps (execGangTrigger pkg gang s) := by
  unfold execGangTrigger; split
  · exact w
  · refine OutKeeps.ite w (State.markRecord_wf (s := s.setGang _ _) w ..)

theorem execGangEnd_keeps (w : Memory.wf s.mem = true) (pkg gang : Nat) : OutKeeps (execGangEnd pkg gang s) := by
  unfold execGangEnd; extract_lets p; split
  · exact w
  · refine OutKeeps.ite w ?_
    refine State.advanceHead_wf ?_ _ _
    rw [State.wakeGwait_mem]
    exact State.markRecord_wf (s := s.setPack _) w ..

theorem execQueueTailWrite_keeps (w : Memory.wf s.mem = true) (pkg q : Nat) (v : Word) :
    OutKeeps (execQueueTailWrite pkg q v s) := Keeps.iteWf (State.writeTail_wf w ..) w

theorem execSieveRecarve_keeps (w : Memory.wf s.mem = true) (pkg core : Nat) : OutKeeps (execSieveRecarve pkg core s) :=
  OutKeeps.ite w (State.emptyEntries_wf (State.wipe_wf (s := s.setCore _) w ..) ..)

/-! ### Circuits -/

theorem State.check17_keeps (w : Memory.wf s.mem = true) (a : Quad) (n : Nat) (k : AccKind) (r : SpaceRule) :
    Keeps (fun _ => s.mem) (s.check17 a n k r) := by
  unfold State.check17; split
  · exact w
  · exact Keeps.ite (State.raise_keeps w ..) w

theorem State.storesBefore_keeps (w : Memory.wf s.mem = true) (a : Quad) (n : Nat) (b : Bool) :
    Keeps State.mem (s.storesBefore a n b) := by
  refine Keeps.ite trivial (Keeps.ite w ?_)
  exact Keeps.ite trivial (State.drain_wf w)

theorem execSqpost_keeps (w : Memory.wf s.mem = true) (d a b c : SReg) (k : KReg) : OutKeeps (execSqpost d a b c k s) := by
  have w1 := State.needS_wf w [d, a, b, c]
  unfold execSqpost; extract_lets s1 t s2
  have w2 : Memory.wf s2.mem = true := Keeps.iteWf (State.drain_wf w1) w1
  refine finish_keeps w2 (Keeps.unless trivial ?_)
  extract_lets
  refine (State.check17_keeps w2 ..).check fun _ => ?_
  refine (State.check17_keeps w2 ..).check fun _ => ?_
  refine Keeps.unless (insnTrap_keeps w2 _) ?_
  refine Keeps.ite w2 (Keeps.ite w2 ?_)
  exact (State.enterRanges_keeps w2 _).bind fun _ _ h => h

theorem execSqstat_keeps (w : Memory.wf s.mem = true) (d a : SReg) : OutKeeps (execSqstat d a s) := by
  have w1 := State.needS_wf w [d, a]
  exact finish_keeps w1 (Keeps.ite (openTrap_keeps w1 0x07) w1)

theorem State.readPayload_wf (pkg : Nat) (x : Post) : ∀ (l : List (Nat × Nat)) {s : State}, Memory.wf s.mem = true →
    Memory.wf (s.readPayload pkg x l).1.mem = true
  | [], _, w => w
  | (a, n) :: r, s, w => by
    unfold State.readPayload; extract_lets h off; split
    · exact State.readPayload_wf pkg x r (State.logFail_wf w ..)
    · exact State.readPayload_wf pkg x r w
    · exact State.readPayload_wf pkg x r (foldl_wf (fun t i ht => State.checkGranule_wf ht ..) _ w)

theorem execCircuitPacketSend_keeps (w : Memory.wf s.mem = true) (pkg d : Nat) : OutKeeps (execCircuitPacketSend pkg d s) := by
  unfold execCircuitPacketSend; extract_lets p; split
  · refine OutKeeps.ite w ?_
    extract_lets n unit was idle now
    refine OutKeeps.ite w ?_
    exact State.readPayload_wf pkg _ _ (s := s.setPack _) w
  · exact w

theorem State.placePayload_wf (x : Post) (bytes : List Byte) (bad : List Nat) (first : Nat) :
    ∀ (l : List (Nat × Nat)) {s : State}, Memory.wf s.mem = true →
    Memory.wf (s.placePayload x bytes bad first l).1.mem = true
  | [], _, w => w
  | (a, n) :: r, s, w => by
    unfold State.placePayload; extract_lets h at_; split
    · exact State.placePayload_wf x bytes bad first r (State.logFail_wf w ..)
    · exact State.placePayload_wf x bytes bad first r w
    · exact State.placePayload_wf x bytes bad first r (State.placeBytes_wf w ..)

theorem execCircuitPayloadPlace_keeps (w : Memory.wf s.mem = true) (pkg n m : Nat) :
    OutKeeps (execCircuitPayloadPlace pkg n m s) := by
  unfold execCircuitPayloadPlace; split
  · exact w
  · split
    · exact w
    · exact OutKeeps.ite w (State.placePayload_wf _ _ _ _ _ w)

theorem execPostComplete_keeps (w : Memory.wf s.mem = true) (pkg n : Nat) : OutKeeps (execPostComplete pkg n s) := by
  unfold execPostComplete; extract_lets p; split
  · exact w
  · refine OutKeeps.ite w ?_
    rw [outKeeps_next, State.onSender_mem]; exact w

theorem State.slotReady_wf (w : Memory.wf s.mem = true) (pkg : Nat) : Memory.wf (s.slotReady pkg).mem = true := by
  unfold State.slotReady; split
  · exact w
  · exact Keeps.iteWf (State.setSlotStatus_wf (s := s.setPack _) w ..) w

theorem execSlotTableLoad_keeps (w : Memory.wf s.mem = true) (pkg : Nat) : OutKeeps (execSlotTableLoad pkg s) := by
  refine OutKeeps.ite w (OutKeeps.ite w ?_)
  refine State.slotReady_wf ?_ _
  rw [foldl_mem (fun _ _ => State.meshSend_mem ..), State.tearDown_mem]
  exact State.setSlotStatus_wf (s := s.setPack _) w ..

/-! ### The control mesh and rotations -/

theorem State.meshTake_mem {pkg : Nat} {m : MeshPacket} {t : State} (e : s.meshTake pkg m = some t) : t.mem = s.mem := by
  unfold State.meshTake at e; dsimp only at e; split at e
  · cases e; rfl
  · cases e

theorem execSetup_keeps (w : Memory.wf s.mem = true) (pkg : Nat) (c : Circuit) : OutKeeps (execSetup pkg c s) := by
  unfold execSetup; split
  · next t hop e _ =>
    have wt : Memory.wf t.mem = true := by rw [State.meshTake_mem e]; exact w
    refine OutKeeps.ite wt ?_
    dsimp only; split <;> exact wt
  · exact w

theorem execCircuitAck_keeps (w : Memory.wf s.mem = true) (pkg n : Nat) : OutKeeps (execCircuitAck pkg n s) := by
  unfold execCircuitAck; split
  · exact w
  · next t e =>
    have wt : Memory.wf t.mem = true := by rw [State.meshTake_mem e]; exact w
    dsimp only; split
    · exact wt
    · refine Keeps.iteWf wt (State.slotReady_wf ?_ _)
      rw [State.setEntry_mem]; exact wt

theorem execBusy_keeps (w : Memory.wf s.mem = true) (pkg n : Nat) : OutKeeps (execBusy pkg n s) := by
  unfold execBusy; extract_lets hop; split
  · exact w
  · next t e =>
    have wt : Memory.wf t.mem = true := by rw [State.meshTake_mem e]; exact w
    extract_lets p u attempts
    split
    · exact wt
    · refine OutKeeps.ite (State.failEntry_wf (s := u) wt ..) ?_
      rw [outKeeps_next, State.drawn_mem, State.setEntry_mem]; exact wt

theorem execSetupRetry_keeps (w : Memory.wf s.mem = true) (pkg n : Nat) : OutKeeps (execSetupRetry pkg n s) := by
  unfold execSetupRetry; split
  · exact w
  · split
    · exact w
    · split
      · exact w
      · refine OutKeeps.ite w ?_
        rw [outKeeps_next, State.meshSend_mem, State.setEntry_mem]; exact w

theorem execTeardown_keeps (w : Memory.wf s.mem = true) (pkg n : Nat) : OutKeeps (execTeardown pkg n s) := by
  unfold execTeardown; split
  · exact w
  · next t e =>
    have wt : Memory.wf t.mem = true := by rw [State.meshTake_mem e]; exact w
    dsimp only; split <;> exact wt

theorem execSlotStart_keeps (w : Memory.wf s.mem = true) (pkg n : Nat) : OutKeeps (execSlotStart pkg n s) := by
  unfold execSlotStart; dsimp only; split
  · exact w
  · exact OutKeeps.ite w w

theorem execSwitchChange_keeps (w : Memory.wf s.mem = true) (pkg : Nat) : OutKeeps (execSwitchChange pkg s) := by
  unfold execSwitchChange; dsimp only; split
  · exact OutKeeps.ite w w
  · exact w

theorem State.flood_mem (s : State) (pkg r e : Nat) : (s.flood pkg r e).mem = s.mem := by
  unfold State.flood
  rw [foldl_mem (fun _ _ => State.meshSend_mem ..), State.startRotation_mem]

theorem execRotstart_keeps (w : Memory.wf s.mem = true) (pkg r n : Nat) : OutKeeps (execRotstart pkg r n s) := by
  unfold execRotstart; split
  · next t e =>
    have wt : Memory.wf t.mem = true := by rw [State.meshTake_mem e]; exact w
    exact Keeps.iteWf wt (by rw [State.flood_mem]; exact wt)
  · exact Keeps.iteWf (by rw [State.flood_mem]; exact w) w

theorem execRotationTimeout_keeps (w : Memory.wf s.mem = true) (pkg : Nat) : OutKeeps (execRotationTimeout pkg s) := by
  unfold execRotationTimeout; dsimp only; split
  · exact w
  · exact OutKeeps.ite w (OutKeeps.ite w w)
end Sys2Proof.Machine
end

section
/-! SUPPORT. Links and the transport keep memory in its canonical form. -/

namespace Sys2Proof.Machine
variable {s : State}

/-! ### Links -/

theorem State.takeControl_mem {far : Option Lane} {m : Control} {t : State} (e : s.takeControl far m = some t) :
    t.mem = s.mem := by
  unfold State.takeControl at e; split at e
  · cases e; rfl
  · split at e
    · cases e; exact State.onColour_mem ..
    · cases e

theorem State.obey_mem (s : State) (pkg : Nat) (far : Option Lane) : (s.obey pkg far).mem = s.mem := by
  unfold State.obey; split
  · rfl
  · split <;> rfl

theorem execFlitReceive_keeps (w : Memory.wf s.mem = true) (l : Lane) (f : Flit) : OutKeeps (execFlitReceive l f s) := by
  unfold execFlitReceive; extract_lets c far u v
  have wu : Memory.wf u.mem = true := by dsimp only [u, far]; split <;> exact w
  refine OutKeeps.ite w (Keeps.iteWf ?_ wu)
  rw [State.obey_mem]; exact wu

theorem execNak_keeps (w : Memory.wf s.mem = true) (l : Lane) (n : BitVec 12) : OutKeeps (execNak l n s) := by
  unfold execNak; split
  · exact w
  · next t e => rw [outKeeps_next, State.onColour_mem, State.takeControl_mem e]; exact w

theorem execPropose_keeps (w : Memory.wf s.mem = true) (l : Lane) (m : BitVec 2) (n : BitVec 4) :
    OutKeeps (execPropose l m n s) := by
  refine OutKeeps.ite w ?_
  split
  · exact w
  · next t e => rw [outKeeps_next, State.onColour_mem, State.takeControl_mem e]; exact w

theorem execFecAck_keeps (w : Memory.wf s.mem = true) (l : Lane) (n : BitVec 4) : OutKeeps (execFecAck l n s) := by
  unfold execFecAck; split
  · exact w
  · next t e => rw [outKeeps_next, State.onColour_mem, State.takeControl_mem e]; exact w

theorem execProposeRepeat_keeps (w : Memory.wf s.mem = true) (l : Lane) : OutKeeps (execProposeRepeat l s) := by
  unfold execProposeRepeat; rw [outKeeps_next, State.onColour_mem]; exact w

theorem State.tune_mem (s : State) (l : Lane) (n : Nat) : (s.tune l n).mem = s.mem := by
  unfold State.tune; extract_lets; split <;> rfl

theorem State.askStop_mem (s : State) (l : Lane) : (s.askStop l).mem = s.mem := by
  unfold State.askStop; split
  · rfl
  · split <;> rfl

theorem execTune_keeps (w : Memory.wf s.mem = true) (l : Lane) (n : Nat) : OutKeeps (.next (s.tune l n)) := by
  rw [outKeeps_next, State.tune_mem]; exact w

theorem execPortPlanChange_keeps (w : Memory.wf s.mem = true) (pkg port : Nat) : OutKeeps (execPortPlanChange pkg port s) := by
  refine OutKeeps.ite w (OutKeeps.ite (State.planError_wf w ..) ?_)
  rw [outKeeps_next, foldl_mem (fun _ _ => State.tune_mem ..), foldl_mem (fun _ _ => State.askStop_mem ..)]
  exact w

theorem State.noteDark_mem (s : State) : s.noteDark.mem = s.mem := rfl

theorem execColourTrained_keeps (w : Memory.wf s.mem = true) (l : Lane) : OutKeeps (execColourTrained l s) := by
  unfold execColourTrained; extract_lets now alone t u
  have wu : Memory.wf u.mem = true := by dsimp only [u]; split <;> exact w
  rw [outKeeps_next, State.tune_mem, State.noteDark_mem]; exact wu

theorem execColourDrained_keeps (w : Memory.wf s.mem = true) (l : Lane) : OutKeeps (execColourDrained l s) := by
  unfold execColourDrained; dsimp only; rw [outKeeps_next, State.onColour_mem]; exact w

theorem execLaneRemap_keeps (w : Memory.wf s.mem = true) (l : Lane) : OutKeeps (execLaneRemap l s) := OutKeeps.ite w w

theorem execRemapEnd_keeps (w : Memory.wf s.mem = true) (pkg port : Nat) : OutKeeps (execRemapEnd pkg port s) := w

theorem execLossOfLight_keeps (w : Memory.wf s.mem = true) (l : Lane) : OutKeeps (execLossOfLight l s) := by
  unfold execLossOfLight; extract_lets now alone t u
  have wu : Memory.wf u.mem = true := by dsimp only [u]; split <;> exact w
  exact OutKeeps.ite wu wu

theorem State.failAccesses_mem (s : State) (d : Nat) : (s.failAccesses d).mem = s.mem := by
  unfold State.failAccesses; extract_lets h writes u
  split
  · exact State.abortGang_mem ..
  · rfl

theorem execPathTimeout_keeps (w : Memory.wf s.mem = true) (pkg d : Nat) : OutKeeps (execPathTimeout pkg d s) := by
  unfold execPathTimeout; extract_lets p t u v hit
  have wu : Memory.wf u.mem = true := foldl_wf (fun x r hx => State.withHart_wf hx _ fun y hy => by
    rw [State.failAccesses_mem]; exact hy) _ (s := t) w
  have wv : Memory.wf v.mem = true := by
    dsimp only [v]; rw [foldl_mem (fun _ _ => State.refuseMessage_mem ..)]; exact wu
  exact OutKeeps.ite w wv

/-! ### The transport -/

theorem State.putBytes_wf (h : Hart) : ∀ (l : List (Nat × Nat)) (bytes : List Byte) (bad : List Nat) {s t : State},
    Memory.wf s.mem = true → s.putBytes h bytes bad l = .ok t → Memory.wf t.mem = true
  | [], _, _, _, _, w, e => by cases e; exact w
  | (a, n) :: r, bytes, bad, s, t, w, e => by
    unfold State.putBytes at e; split at e
    · cases e
    · exact State.putBytes_wf h r _ _ (State.placeBytes_wf w ..) e

theorem State.sendPackets_mem (s : State) (pkg n : Nat) (ps : List TPacket) : (s.sendPackets pkg n ps).mem = s.mem := rfl

theorem State.requestPackets_wf (w : Memory.wf s.mem = true) {x : WorkReq} {c : Byte} {t : State}
    (e : s.requestPackets x = .error (c, t)) : Memory.wf t.mem = true := by
  unfold State.requestPackets at e; extract_lets total h at e
  split at e
  · split at e
    · simp only [Except.error.injEq, Prod.mk.injEq] at e
      obtain ⟨_, rfl⟩ := e
      split
      · exact State.logFail_wf w ..
      · exact w
    · cases e
  · cases e
  · cases e

theorem State.startGo_wf (pkg conn : Nat) : ∀ (n : Nat) {s : State}, Memory.wf s.mem = true →
    Memory.wf (s.startGo pkg conn n).mem = true
  | 0, _, w => w
  | n + 1, s, w => by
    unfold State.startGo; extract_lets t mine; split
    · refine Keeps.iteWf w (State.startGo_wf pkg conn n ?_)
      split
      · exact w
      · split
        · next e => have k := State.requestPackets_wf w e; exact k
        · exact w
    · exact w

theorem State.startRequests_wf (w : Memory.wf s.mem = true) (pkg conn : Nat) :
    Memory.wf (s.startRequests pkg conn).mem = true := State.startGo_wf pkg conn _ w

theorem State.countArrival_wf (w : Memory.wf s.mem = true) (pkg : Nat) (a : BitVec 16) (i : Word) :
    Memory.wf (s.countArrival pkg a i).mem = true := by
  unfold State.countArrival; extract_lets t; split
  · exact Keeps.iteWf w (State.startRequests_wf (s := s.onTransport _ _) w ..)
  · exact w

theorem State.takeHeld_mem (s : State) (pkg : Nat) (x : WorkReq) : (s.takeHeld pkg x).mem = s.mem := rfl

theorem State.postRequest_keeps (w : Memory.wf s.mem = true) (arm : Bool) (a b : SReg) (k : KReg) :
    Keeps State.mem (s.postRequest arm a b k) := by
  have w1 := State.needS_wf w [a, b]
  refine (State.settle_keeps w1 _).bind fun t _ wt => ?_
  refine (State.checked_keeps wt ..).check fun l => ?_
  refine (State.awaitTurn_keeps wt _ _ _).check fun _ => ?_
  refine (State.storesBefore_keeps wt ..).bind fun u _ wu => ?_
  refine Keeps.unless (addrTrap_keeps wu ..) (Keeps.unless (openTrap_keeps wu _) ?_)
  refine (State.storesBefore_keeps wu ..).bind fun v _ wv => ?_
  extract_lets go
  have hgo : ∀ x : State, Memory.wf x.mem = true → Keeps State.mem (go x) := fun x wx => by
    dsimp -zeta only [go]; extract_lets r0 r1 y z
    have wz : Memory.wf z.mem = true := Keeps.iteWf (by rw [State.takeHeld_mem]; exact wx) wx
    exact State.startRequests_wf wz ..
  exact Keeps.ite (hgo v wv) ((State.enterRanges_keeps wv _).bind fun x _ wx => hgo x wx)

theorem execRpost_keeps (w : Memory.wf s.mem = true) (a b : SReg) (k : KReg) : OutKeeps (execRpost a b k s) :=
  finish_keeps w ((State.postRequest_keeps w ..).map fun _ => rfl)
theorem execRarm_keeps (w : Memory.wf s.mem = true) (a b : SReg) (k : KReg) : OutKeeps (execRarm a b k s) :=
  finish_keeps w ((State.postRequest_keeps w ..).map fun _ => rfl)

theorem State.placeAnswer_wf (w : Memory.wf s.mem = true) {pkg : Nat} {x : WorkReq} {p : TPacket} {t : State}
    (e : s.placeAnswer pkg x p = .ok t) : Memory.wf t.mem = true := by
  unfold State.placeAnswer at e; split at e
  · cases e
  · next u eu =>
    have wu := State.putBytes_wf _ _ _ _ w eu
    cases e
    rw [State.onSender_mem]; exact wu

theorem State.failAnswer_wf (w : Memory.wf s.mem = true) (pkg : Nat) (x : WorkReq) (e : Fail ⊕ Fault) :
    Memory.wf (s.failAnswer pkg x e).mem = true := by
  unfold State.failAnswer; extract_lets u
  show Memory.wf u.mem = true
  dsimp only [u]; split
  · exact State.logFail_wf w ..
  · exact w

theorem State.placeEarly_wf (pkg m : Nat) : ∀ (n : Nat) {s : State}, Memory.wf s.mem = true →
    Memory.wf (s.placeEarly pkg m n).mem = true
  | 0, _, w => w
  | n + 1, s, w => by
    unfold State.placeEarly; split
    · exact w
    · split
      · exact w
      · split
        · have k := State.failAnswer_wf w pkg; exact k _ _
        · next e => have k := State.placeAnswer_wf w e; exact State.placeEarly_wf pkg m n k

theorem State.applyPacket_wf (w : Memory.wf s.mem = true) {pkg : Nat} {c : Conn} {p : TPacket} {t : State}
    (e : s.applyPacket pkg c p = .ok t) : Memory.wf t.mem = true := by
  unfold State.applyPacket at e; extract_lets h at_ at e; split at e
  · exact State.putBytes_wf _ _ _ _ w e
  · split at e
    · cases e
    · cases e; exact w
  · split at e
    · cases e
    · cases e; exact State.store_wf w _ _ _ false
  · split at e
    · cases e; exact w
    · split at e
      · cases e; exact w
      · split at e
        · cases e; exact w
        · split at e
          · cases e; exact State.failAnswer_wf w ..
          · next eu => cases e; exact State.placeEarly_wf pkg _ _ (State.placeAnswer_wf w eu)

theorem State.countBytes_wf (w : Memory.wf s.mem = true) (pkg : Nat) (c : Conn) (p : TPacket) :
    Memory.wf (s.countBytes pkg c p).mem = true := by
  unfold State.countBytes; extract_lets n all u; split
  · exact State.countArrival_wf (s := u) w ..
  · exact w

theorem State.denyPacket_wf (w : Memory.wf s.mem = true) (pkg : Nat) (c : Conn) (p : TPacket) (e : Fail ⊕ Fault) :
    Memory.wf (s.denyPacket pkg c p e).mem = true := by
  unfold State.denyPacket; extract_lets u
  show Memory.wf u.mem = true
  dsimp only [u]; split
  · exact State.logFail_wf w ..
  · exact w

theorem State.takePacket_wf (w : Memory.wf s.mem = true) (pkg : Nat) (c : Conn) (p : TPacket) :
    Memory.wf (s.takePacket pkg c p).mem = true := by
  refine Keeps.iteWf w (Keeps.iteWf (Keeps.iteWf w w) ?_)
  dsimp only; split
  · exact State.denyPacket_wf w ..
  · next e => have k := State.applyPacket_wf w e; exact State.countBytes_wf (s := State.onTransport _ _ _) k ..

theorem State.countFrame_mem (s : State) (pkg port : Nat) : (s.countFrame pkg port).mem = s.mem := by
  unfold State.countFrame; split <;> rfl

theorem State.notReady_mem (s : State) (pkg : Nat) (p : TPacket) : (s.notReady pkg p).mem = s.mem := rfl

theorem execTransportPacketReceive_keeps (w : Memory.wf s.mem = true) (pkg : Nat) (p : TPacket) :
    OutKeeps (execTransportPacketReceive pkg p s) := by
  unfold execTransportPacketReceive; extract_lets t
  refine OutKeeps.ite (by rw [outKeeps_next, State.countFrame_mem]; exact w) (OutKeeps.ite w ?_)
  split
  · exact State.takePacket_wf w ..
  · exact OutKeeps.ite w w

theorem State.cacheContext_wf (w : Memory.wf s.mem = true) (pkg : Nat) (c : Conn) :
    Memory.wf (s.cacheContext pkg c).mem = true := by
  unfold State.cacheContext; extract_lets t; split
  · exact State.placeBytes_wf w _ _ []
  · exact w

theorem execContextFetchComplete_keeps (w : Memory.wf s.mem = true) (pkg n : Nat) :
    OutKeeps (execContextFetchComplete pkg n s) := by
  unfold execContextFetchComplete; extract_lets t mine u v
  refine OutKeeps.ite w ?_
  split
  · rw [outKeeps_next, foldl_mem (fun _ _ => State.notReady_mem ..)]; exact w
  · refine OutKeeps.ite w ?_
    refine State.startRequests_wf (foldl_wf (fun t p ht => ?_) _ (State.cacheContext_wf (s := u) w ..)) ..
    split
    · exact State.takePacket_wf ht ..
    · exact ht

theorem execTransportAcknowledge_keeps (w : Memory.wf s.mem = true) (pkg n m : Nat) (l : List Nat) :
    OutKeeps (execTransportAcknowledge pkg n m l s) := by
  unfold execTransportAcknowledge; split
  · exact w
  · exact foldl_wf (fun t x ht => State.countArrival_wf ht ..) _ (s := State.onTransport s _ _) w

theorem execRetransmitTimeout_keeps (w : Memory.wf s.mem = true) (pkg n m : Nat) :
    OutKeeps (execRetransmitTimeout pkg n m s) := by
  unfold execRetransmitTimeout; split
  · exact w
  · split
    · exact w
    · exact OutKeeps.ite w w

theorem execNotready_keeps (w : Memory.wf s.mem = true) (pkg n m d : Nat) : OutKeeps (execNotready pkg n m d s) := by
  unfold execNotready; split
  · exact w
  · split
    · exact w
    · exact OutKeeps.ite w w

theorem execRekey_keeps (w : Memory.wf s.mem = true) (pkg n : Nat) : OutKeeps (execRekey pkg n s) := by
  unfold execRekey; split <;> exact w

theorem execWorkRequestComplete_keeps (w : Memory.wf s.mem = true) (pkg n c : Nat) :
    OutKeeps (execWorkRequestComplete pkg n c s) := by
  unfold execWorkRequestComplete; split
  · exact w
  · refine OutKeeps.ite w ?_
    extract_lets h q t u
    refine State.startRequests_wf ?_ _ _
    rw [State.onSender_mem]
    show Memory.wf t.mem = true
    dsimp only [t]; split
    · exact State.put_wf _ _ _ w
    · exact State.logFail_wf w ..
    · exact w

theorem execEthernetFrameReceive_keeps (w : Memory.wf s.mem = true) (pkg port : Nat) (f : EthFrame) :
    OutKeeps (execEthernetFrameReceive pkg port f s) :=
  Keeps.iteWf w (Keeps.iteWf w (by rw [State.countFrame_mem]; exact w))
end Sys2Proof.Machine
end

section
/-! SUPPORT. Huane, host writes, homes and walkers keep memory in its canonical form. -/

namespace Sys2Proof.Machine
variable {s : State}

/-! ### Huane -/

theorem execPackageReset_keeps (w : Memory.wf s.mem = true) (pkg : Nat) : OutKeeps (execPackageReset pkg s) := by
  rw [execPackageReset, outKeeps_next, State.someTurn_mem]; exact State.resetPackage_wf w _

theorem execGo_keeps (w : Memory.wf s.mem = true) (pkg : Nat) : OutKeeps (execGo pkg s) := OutKeeps.ite w w

theorem execMailboxPoll_keeps (w : Memory.wf s.mem = true) (pkg : Nat) : OutKeeps (execMailboxPoll pkg s) :=
  foldl_wf (fun _ _ h => State.pollRing_wf h ..) _ w

/-- What a command answers, chosen by a check. -/
theorem wf_ite_fst {c : Prop} [Decidable c] {x y : State × Option Reply} (hx : Memory.wf x.1.mem = true)
    (hy : Memory.wf y.1.mem = true) : Memory.wf (if c then x else y).1.mem = true := by split <;> assumption

theorem execFwload_keeps (w : Memory.wf s.mem = true) (pkg ring : Nat) : OutKeeps (execFwload pkg ring s) := by
  refine State.runCommand_wf w _ _ _ fun q b => wf_ite_fst w (wf_ite_fst w ?_)
  split
  · exact w
  · exact wf_ite_fst w w

theorem execPcreate_keeps (w : Memory.wf s.mem = true) (pkg ring : Nat) : OutKeeps (execPcreate pkg ring s) := by
  refine State.runCommand_wf w _ _ _ fun q b => wf_ite_fst w (wf_ite_fst w ?_)
  split
  · exact w
  · exact wf_ite_fst w (State.setFunc_wf (s := s.onHuane _ _) w ..)

theorem execPtear_keeps (w : Memory.wf s.mem = true) (pkg ring : Nat) : OutKeeps (execPtear pkg ring s) := by
  refine State.runCommand_wf w _ _ _ fun q b => wf_ite_fst w (wf_ite_fst w ?_)
  split
  · exact w
  · exact State.tear_wf w ..

theorem execPartitionRelease_keeps (w : Memory.wf s.mem = true) (pkg n : Nat) : OutKeeps (execPartitionRelease pkg n s) := by
  unfold execPartitionRelease; split
  · exact w
  · refine OutKeeps.ite w ?_
    extract_lets t u v
    have wv : Memory.wf v.mem = true := foldl_wf (fun _ _ h => State.wipeResource_wf h ..) _ w
    split
    · exact State.endCommand_wf wv ..
    · exact wv

theorem execEcreate_keeps (w : Memory.wf s.mem = true) (pkg ring : Nat) : OutKeeps (execEcreate pkg ring s) :=
  State.runCommand_wf w _ _ _ fun _ _ => wf_ite_fst w (wf_ite_fst w w)

theorem execEjoin_keeps (w : Memory.wf s.mem = true) (pkg ring : Nat) : OutKeeps (execEjoin pkg ring s) := by
  refine State.runCommand_wf w _ _ _ fun q b => ?_
  dsimp only; split
  · exact wf_ite_fst w (wf_ite_fst w w)
  · exact w

theorem execReport_keeps (w : Memory.wf s.mem = true) (pkg ring : Nat) : OutKeeps (execReport pkg ring s) :=
  State.runCommand_wf w _ _ _ fun _ _ => wf_ite_fst w (wf_ite_fst w (wf_ite_fst w w))

theorem execErevoke_keeps (w : Memory.wf s.mem = true) (pkg ring : Nat) : OutKeeps (execErevoke pkg ring s) := by
  refine State.runCommand_wf w _ _ _ fun q b => ?_
  dsimp only; split
  · exact w
  · exact wf_ite_fst w (wf_ite_fst w (wf_ite_fst w w))

theorem execRevocationApply_keeps (w : Memory.wf s.mem = true) (pkg : Nat) (e m n : Nat) :
    OutKeeps (execRevocationApply pkg e m n s) := by
  unfold execRevocationApply; extract_lets id o t hit u; split
  · exact w
  · refine OutKeeps.ite w ?_
    have wu : Memory.wf u.mem = true := by
      dsimp only [u]; rw [foldl_mem (fun _ _ => State.abortGroup_mem ..)]; exact w
    split
    · exact wu
    · split
      · exact State.haltMember_wf wu ..
      · exact wu

theorem execLcs_keeps (w : Memory.wf s.mem = true) (pkg ring : Nat) : OutKeeps (execLcs pkg ring s) := by
  refine State.runCommand_wf w _ _ _ fun q b => wf_ite_fst w (wf_ite_fst w (wf_ite_fst w ?_))
  dsimp only
  rw [State.someTurn_mem]
  exact State.resetPackage_wf (State.wipePackage_wf (State.endCommand_wf (s := s.onHuane _ _) w ..) _) _

/-! ### Errors, the host link and host writes -/

theorem execUncorrectableError_keeps (w : Memory.wf s.mem = true) (pkg : Nat) (u : EccUnit) (a : Nat) :
    OutKeeps (execUncorrectableError pkg u a s) := by
  unfold execUncorrectableError; extract_lets memory t
  have wt : Memory.wf t.mem = true := Keeps.iteWf w w
  exact State.machineCheck_wf wt ..

theorem execCorrectedSummary_keeps (w : Memory.wf s.mem = true) (pkg die : Nat) : OutKeeps (execCorrectedSummary pkg die s) :=
  Keeps.iteWf (State.machineCheck_wf w ..) w

theorem execHostLinkTraining_keeps (w : Memory.wf s.mem = true) (pkg n : Nat) : OutKeeps (execHostLinkTraining pkg n s) :=
  Keeps.iteWf w w

theorem execRegisterWrite_keeps (w : Memory.wf s.mem = true) (pkg : Nat) (r : RegId) (v : Quad) :
    OutKeeps (execRegisterWrite pkg r v s) := by
  unfold execRegisterWrite; rw [outKeeps_next]
  cases r with
  | bringUp quad => exact Keeps.iteWf w w
  | queue f i quad =>
    dsimp only; split
    · exact Keeps.iteWf (State.writeQueue_wf w ..) w
    · exact w
  | portStatus port =>
    dsimp only; split
    · exact Keeps.iteWf (State.clearBit0_wf w ..) w
    · exact w
  | slotStatus => exact State.setSlotStatus_wf w ..
  | ringHead die => exact Keeps.iteWf (Memory.wf_writeN _ _ _ w) w
  | mailbox ring quad =>
    dsimp only; split
    · exact w
    · exact Keeps.iteWf w (Keeps.iteWf (Memory.wf_writeN _ _ _ w) (Keeps.iteWf (State.clearBit0_wf w ..) w))

/-! ### Homes, walkers and shoot-downs -/

theorem execHomeStep_keeps (w : Memory.wf s.mem = true) (h : HartRef) {f : State → State}
    (hf : ∀ t : State, Memory.wf t.mem = true → Memory.wf (f t).mem = true) : OutKeeps (.next (s.withHart h f)) :=
  State.withHart_wf w h hf

theorem execElementGroupArrival_keeps (w : Memory.wf s.mem = true) (h : HartRef) (v : VReg) (g : Nat) :
    OutKeeps (execElementGroupArrival h v g s) := execHomeStep_keeps w h fun _ ht => State.performRun_wf _ _ ht

theorem execTrainApply_keeps (w : Memory.wf s.mem = true) (h : HartRef) (t : Nat) : OutKeeps (execTrainApply h t s) :=
  execHomeStep_keeps w h fun _ ht => State.performRun_wf _ _ ht

theorem execPerformIf_keeps (w : Memory.wf s.mem = true) (h : HartRef) (i : Nat) (p : Access → Bool) :
    OutKeeps (.next (s.withHart h fun t => t.performIf i p)) := execHomeStep_keeps w h fun _ ht => State.performIf_wf ht ..

theorem State.fillTables_mem (s : State) (x : WalkReq) : (s.fillTables x).mem = s.mem := rfl

theorem execTlbMissWalk_keeps (w : Memory.wf s.mem = true) (x : WalkReq) : OutKeeps (execTlbMissWalk x s) := by
  unfold execTlbMissWalk; split
  · rw [outKeeps_next, State.fillTables_mem, State.fillTlb_mem]; exact w
  · exact w
  · trivial

theorem execTranslationHint_keeps (w : Memory.wf s.mem = true) (x : WalkReq) : OutKeeps (execTranslationHint x s) := by
  refine Keeps.iteWf w (Keeps.iteWf w ?_)
  split
  · refine Keeps.iteWf ?_ w
    rw [State.drawn_mem, State.fillTables_mem, State.fillTlb_mem]; exact w
  · exact w

theorem execShootdownRequest_keeps (w : Memory.wf s.mem = true) (pkg : Nat) : OutKeeps (execShootdownRequest pkg s) := by
  unfold execShootdownRequest; dsimp only; split
  · exact w
  · exact OutKeeps.ite w w

theorem execShootdownAcknowledge_keeps (w : Memory.wf s.mem = true) (pkg : Nat) :
    OutKeeps (execShootdownAcknowledge pkg s) := by
  unfold execShootdownAcknowledge; dsimp only; split
  · exact w
  · exact OutKeeps.ite w w
end Sys2Proof.Machine
end

section
/-! SUPPORT. Every instruction keeps memory in its canonical form. -/

namespace Sys2Proof.Machine
variable {s : State}

/-! ### Every instruction and every step of an agent -/

/-- A vector instruction outside a convoy does what it does as a member of one. -/
theorem exec_of_memberRun {i : Instr} {r : State → Except Stop State} (e : memberRun i = some r) :
    exec i s = s.vector r := by
  cases i <;> cases e <;> rfl

theorem exec_keeps (w : Memory.wf s.mem = true) (i : Instr) : OutKeeps (exec i s) := by
  cases hm : memberRun i with
  | some r => rw [exec_of_memberRun hm]; exact State.vector_keeps w fun _ h => memberRun_keeps h hm
  | none =>
    unfold exec
    cases i with
    | vadd | vsub | vmul | vmulh | vdiv | vrem | vmin | vmax | vand | vor | vxor | vsll | vsrl | vsra | vpopc | vclz |
      vabs | vneg | vfma | vfms | vnfma | vsqrt | vrcp | vrsqrt | vexp2 | vlog2 | vclass | vcvt | vcmp | vsel | mand |
      mor | mxor | mandn | mnot | mpop | mfirst | mtolist | mtobit | mfromx | vidx | vsplat | vmv | vtag | vmvx | vmvs
      | vslideup | vslidedn | vperm | vcompress | vexpand | vrev | vred | vscan | vsegred | vld | vldff | vst | vchg |
      vamo | vamoR | vwait | vpres | svins | svlook | svacc | svdrn | svclr | mzero | mop | mopn | mrd | mwr | mst |
      vsend | vrecv | collectiveVst | collectiveVld =>
      exact (nomatch hm)
    | cVadd vx m =>
      exact State.vectorN_keeps w _ _ fun _ h => memberRun_keeps h (x := .vadd (s.hart.compact vx m)) rfl
    | cVsub vx m =>
      exact State.vectorN_keeps w _ _ fun _ h => memberRun_keeps h (x := .vsub (s.hart.compact vx m)) rfl
    | cVmul vx m =>
      exact State.vectorN_keeps w _ _ fun _ h => memberRun_keeps h (x := .vmul (s.hart.compact vx m)) rfl
    | cVmulh vx m =>
      exact State.vectorN_keeps w _ _ fun _ h => memberRun_keeps h (x := .vmulh (s.hart.compact vx m)) rfl
    | cVdiv vx m =>
      exact State.vectorN_keeps w _ _ fun _ h => memberRun_keeps h (x := .vdiv (s.hart.compact vx m)) rfl
    | cVrem vx m =>
      exact State.vectorN_keeps w _ _ fun _ h => memberRun_keeps h (x := .vrem (s.hart.compact vx m)) rfl
    | cVmin vx m =>
      exact State.vectorN_keeps w _ _ fun _ h => memberRun_keeps h (x := .vmin (s.hart.compact vx m)) rfl
    | cVmax vx m =>
      exact State.vectorN_keeps w _ _ fun _ h => memberRun_keeps h (x := .vmax (s.hart.compact vx m)) rfl
    | cVand vx m =>
      exact State.vectorN_keeps w _ _ fun _ h => memberRun_keeps h (x := .vand (s.hart.compact vx m)) rfl
    | cVor vx m => exact State.vectorN_keeps w _ _ fun _ h => memberRun_keeps h (x := .vor (s.hart.compact vx m)) rfl
    | cVxor vx m =>
      exact State.vectorN_keeps w _ _ fun _ h => memberRun_keeps h (x := .vxor (s.hart.compact vx m)) rfl
    | cVsll vx m =>
      exact State.vectorN_keeps w _ _ fun _ h => memberRun_keeps h (x := .vsll (s.hart.compact vx m)) rfl
    | cVsrl vx m =>
      exact State.vectorN_keeps w _ _ fun _ h => memberRun_keeps h (x := .vsrl (s.hart.compact vx m)) rfl
    | cVsra vx m =>
      exact State.vectorN_keeps w _ _ fun _ h => memberRun_keeps h (x := .vsra (s.hart.compact vx m)) rfl
    | add | sub | and | or | xor | sll | srl | sra | rotl | rotr | mul | mulh | mulhN | div | divN | rem | remN | min
      | max | minN | maxN | slt | sltN | gmk =>
      exact (State.op2_keeps w ..)
    | clz | ctz | popc | addi | andi | ori | xori | slli | srli | srai | gfld | cAddi | cMv =>
      exact (State.op1_keeps w ..)
    | lih | adr | li64 => exact (State.op0_keeps w ..)
    | bEq | bNe | bLt | bGe | bLtN | bGeN | cBEq | cBNe => exact (State.branch_keeps w ..)
    | j | jal | cJ => exact (State.jump_keeps w ..)
    | jr | jalr => exact (State.jumpReg_keeps w ..)
    | fadd | fsub | fmul | fdiv | fsqrt | fcvt | fmadd | fmsub | fnmadd => exact (State.fpRound_keeps w ..)
    | fmin | fmax | fcmpEq | fcmpLt | fcmpLe | fcmpUo | fclass | fsgnJ | fsgnN | fsgnX | fmv =>
      exact (State.fpPlain_keeps w ..)
    | ldB | ldH | ldW | ld | ldBi | ldHi | ldWi | ldcB | ldcH | ldcW | ldc | ldcBi | ldcHi | ldcWi | cLd =>
      exact (State.load_keeps w ..)
    | stB | stH | stW | st | cSt => exact (State.storeReg_keeps w ..)
    | lsync => exact (execLsync_keeps w ..)
    | stRel => exact (execStRel_keeps w ..)
    | amoAdd | amoAnd | amoOr | amoXor | amoMin | amoMax | amoMinN | amoMaxN | amoSwap | amoFadd =>
      exact (State.amo_keeps w ..)
    | cas => exact (State.atomic_keeps w ..)
    | waita => exact (execWaita_keeps w ..)
    | wakea => exact (execWakea_keeps w ..)
    | csrr | csrw | csrs | csrc => exact (State.csr_keeps w ..)
    | tclr => exact (finish_keeps w (Keeps.ite w w))
    | tget | tdep | snext | tclrCt | gtrig | powerGrantInterval | railDroop | thermalTrip | thermalRecover |
      notReadyAnswer =>
      exact w
    | glaunch => exact (execGlaunch_keeps w ..)
    | gwait => exact (execGwait_keeps w ..)
    | vqsave => exact (execVqsave_keeps w ..)
    | vqrest => exact (execVqrest_keeps w ..)
    | vsave => exact (execVsave_keeps w ..)
    | vrest => exact (execVrest_keeps w ..)
    | hsave => exact (execHsave_keeps w ..)
    | hrest => exact (execHrest_keeps w ..)
    | tlbinv => exact (execTlbinv_keeps w ..)
    | snap => exact (execSnap_keeps w ..)
    | pwait => exact (execPwait_keeps w ..)
    | mwipe => exact (execMwipe_keeps w ..)
    | vcfg => exact (execVcfg_keeps w ..)
    | vsetl => exact (State.tryGrant_wf (State.needS_wf w _))
    | sloop => exact (State.startLoop_wf w ..)
    | sloopPar => exact (execSloopPar_keeps w ..)
    | convoyHeader => exact (execConvoyHeader_keeps w ..)
    | mshape | mstep | fmpq | qset | kread | kset | kadd => exact (State.needS_wf w _)
    | qsetx | qchain => exact (State.extend_keeps w ..)
    | qget => exact (execQget_keeps w ..)
    | kwait => exact (execKwait_keeps w ..)
    | fsbindPeer => exact (execFsbindPeer_keeps w ..)
    | fsbindGroup => exact (execFsbindGroup_keeps w ..)
    | fsfree => exact (execFsfree_keeps w ..)
    | cbar => exact (execCbar_keeps w ..)
    | rwo => exact (execRwo_keeps w ..)
    | rwc => exact (execRwc_keeps w ..)
    | cpy => exact (execCpy_keeps w ..)
    | cpyff => exact (execCpyff_keeps w ..)
    | fmp => exact (execFmp_keeps w ..)
    | cgsel => exact (execCgsel_keeps w ..)
    | cjoin => exact (execCjoin_keeps w ..)
    | cleave => exact (execCleave_keeps w ..)
    | cstat => exact (execCstat_keeps w ..)
    | sqpost => exact (execSqpost_keeps w ..)
    | sqstat => exact (execSqstat_keeps w ..)
    | rpost => exact (execRpost_keeps w ..)
    | rarm => exact (execRarm_keeps w ..)
    | ifence => exact (execIfence_keeps w)
    | gbar => exact (execGbar_keeps w)
    | gyield => exact (execGyield_keeps w)
    | gexit => exact (finish_keeps w (State.exitGang_keeps w))
    | sys | brk => exact (finish_keeps w w)
    | sret => exact (execSret_keeps w)
    | mwait => exact (OutKeeps.ite w w)
    | cabort => exact (execCabort_keeps w)
    | trapEntry => exact (State.withHart_wf w _ fun _ h => State.wakeTurn_wf h)
    | issueWaitEnd | gyieldExpiry | tagRetire | storeAcknowledge | trainAcknowledge | nbComplete =>
      exact (execOnHart_keeps w ..)
    | hartResume => exact (execHartResume_keeps w ..)
    | elementGroupArrival => exact (execElementGroupArrival_keeps w ..)
    | loadPerformed | homeAccess | atomicAtHome | rruAtomic | vectorAtomicUpdate => exact (execPerformIf_keeps w ..)
    | trainApply => exact (execTrainApply_keeps w ..)
    | copyComplete | fullerComplete | mstComplete =>
      exact (onHartOutcome_keeps w _ fun _ h => State.commandStep_keeps h ..)
    | tlbMissWalk => exact (execTlbMissWalk_keeps w ..)
    | translationHint => exact (execTranslationHint_keeps w ..)
    | shootdownRequest => exact (execShootdownRequest_keeps w ..)
    | shootdownAcknowledge => exact (execShootdownAcknowledge_keeps w ..)
    | messagePacketArrive => exact (execMessagePacketArrive_keeps w ..)
    | collectiveContributionArrive => exact (execCollectiveContributionArrive_keeps w ..)
    | collectiveCommit => exact (execCollectiveCommit_keeps w ..)
    | abort => exact (execAbort_keeps w ..)
    | lagLimitExpiry => exact (execLagLimitExpiry_keeps w ..)
    | circuitPacketSend => exact (execCircuitPacketSend_keeps w ..)
    | circuitPayloadPlace => exact (execCircuitPayloadPlace_keeps w ..)
    | postComplete => exact (execPostComplete_keeps w ..)
    | slotStart => exact (execSlotStart_keeps w ..)
    | switchChange => exact (execSwitchChange_keeps w ..)
    | rotstart => exact (execRotstart_keeps w ..)
    | rotationTimeout => exact (execRotationTimeout_keeps w ..)
    | setup => exact (execSetup_keeps w ..)
    | circuitAck => exact (execCircuitAck_keeps w ..)
    | busy => exact (execBusy_keeps w ..)
    | teardown => exact (execTeardown_keeps w ..)
    | setupRetry => exact (execSetupRetry_keeps w ..)
    | slotTableLoad => exact (execSlotTableLoad_keeps w ..)
    | flitReceive => exact (execFlitReceive_keeps w ..)
    | nak => exact (execNak_keeps w ..)
    | propose => exact (execPropose_keeps w ..)
    | fecAck => exact (execFecAck_keeps w ..)
    | proposeRepeat => exact (execProposeRepeat_keeps w ..)
    | fecThresholdCrossed | fecQuietExpiry => exact (execTune_keeps w ..)
    | portPlanChange => exact (execPortPlanChange_keeps w ..)
    | colourTrained => exact (execColourTrained_keeps w ..)
    | colourDrained => exact (execColourDrained_keeps w ..)
    | pathTimeout => exact (execPathTimeout_keeps w ..)
    | laneRemap => exact (execLaneRemap_keeps w ..)
    | transportPacketReceive => exact (execTransportPacketReceive_keeps w ..)
    | transportAcknowledge => exact (execTransportAcknowledge_keeps w ..)
    | retransmitTimeout => exact (execRetransmitTimeout_keeps w ..)
    | notready => exact (execNotready_keeps w ..)
    | contextFetchComplete => exact (execContextFetchComplete_keeps w ..)
    | rekey => exact (execRekey_keeps w ..)
    | workRequestComplete => exact (execWorkRequestComplete_keeps w ..)
    | ethernetFrameReceive => exact (execEthernetFrameReceive_keeps w ..)
    | recordAccept => exact (execRecordAccept_keeps w ..)
    | gangPlace => exact (execGangPlace_keeps w ..)
    | preemptVictims => exact (execPreemptVictims_keeps w ..)
    | graceExpiry => exact (execGraceExpiry_keeps w ..)
    | forcedHartEnd => exact (execForcedHartEnd_keeps w ..)
    | quotaReturn => exact (execQuotaReturn_keeps w ..)
    | gangTrigger => exact (execGangTrigger_keeps w ..)
    | gangEnd => exact (execGangEnd_keeps w ..)
    | queueTailWrite => exact (execQueueTailWrite_keeps w ..)
    | sieveRecarve => exact (execSieveRecarve_keeps w ..)
    | packageReset => exact (execPackageReset_keeps w ..)
    | go => exact (execGo_keeps w ..)
    | mailboxPoll => exact (execMailboxPoll_keeps w ..)
    | fwload => exact (execFwload_keeps w ..)
    | pcreate => exact (execPcreate_keeps w ..)
    | ptear => exact (execPtear_keeps w ..)
    | partitionRelease => exact (execPartitionRelease_keeps w ..)
    | ecreate => exact (execEcreate_keeps w ..)
    | ejoin => exact (execEjoin_keeps w ..)
    | report => exact (execReport_keeps w ..)
    | erevoke => exact (execErevoke_keeps w ..)
    | revocationApply => exact (execRevocationApply_keeps w ..)
    | lcs => exact (execLcs_keeps w ..)
    | uncorrectableError => exact (execUncorrectableError_keeps w ..)
    | correctedSummary => exact (execCorrectedSummary_keeps w ..)
    | hostLinkTraining => exact (execHostLinkTraining_keeps w ..)
    | registerWrite => exact (execRegisterWrite_keeps w ..)
    | lossOfLight => exact (execLossOfLight_keeps w ..)
    | remapEnd => exact (execRemapEnd_keeps w ..)
    | rankDeparture => exact (execRankDeparture_keeps w ..)
end Sys2Proof.Machine
end

section
/-! SUPPORT. Every turn and every step keeps memory in its canonical form. -/

namespace Sys2Proof.Machine
variable {s : State}

/-! ### A turn and a step -/

theorem execCand_keeps (w : Memory.wf s.mem = true) (c : Cand) : OutKeeps (execCand c s) := by
  cases c with
  | i x => exact exec_keeps w x
  | late x =>
    cases x with
    | fmp => exact execFmp_keeps w ..
    | cgsel => exact execCgsel_keeps w ..
    | cjoin => exact execCjoin_keeps w ..
    | cleave => exact execCleave_keeps w ..
    | cstat => exact execCstat_keeps w ..
    | sqpost => exact execSqpost_keeps w ..
    | sqstat => exact execSqstat_keeps w ..
    | rpost => exact execRpost_keeps w ..
    | rarm => exact execRarm_keeps w ..

theorem State.takeHit_wf (w : Memory.wf s.mem = true) (x : Hit) : Memory.wf (s.takeHit x).mem = true := by
  unfold State.takeHit; split
  · exact State.takeTrap_wf (s := State.mapHart _ _) (State.logFail_wf w ..) _
  · exact State.takeTrap_wf (s := State.mapHart _ _) (State.logFail_wf w ..) _

theorem State.execNamed_keeps (w : Memory.wf s.mem = true) (c : Code) (x : Cand) : OutKeeps (s.execNamed c x) := by
  have wd := State.drain_wf w
  refine OutKeeps.ite (execCand_keeps w x) ?_
  dsimp only; split
  · exact State.takeHit_wf wd _
  · exact OutKeeps.ite (finish_keeps wd trivial) (execCand_keeps wd x)

theorem State.issueNext_keeps (w : Memory.wf s.mem = true) : OutKeeps s.issueNext := by
  refine OutKeeps.ite (finish_keeps w trivial) ?_
  extract_lets u
  have wu : Memory.wf u.mem = true := w
  have hf := State.fetchWord_keeps wu u.hart.pc
  split
  · next e => exact finish_keeps wu (keeps_of_error e hf)
  · next ir code t e =>
    have wt := wf_of_ok e hf
    extract_lets v
    have wv : Memory.wf v.mem = true := wt
    split
    · exact finish_keeps wv (illegal_keeps wv)
    · split
      · exact finish_keeps wv (illegal_keeps wv)
      · exact OutKeeps.ite (finish_keeps wv trivial) (State.execNamed_keeps wv ..)

theorem State.lookPast_mem {t : State} (e : s.lookPast = some t) : t.mem = s.mem := by
  unfold State.lookPast at e; dsimp only at e
  split at e
  · cases e
  · split at e
    · cases e
    · split at e
      · cases e
      · split at e
        · cases e
        · cases e; rfl

theorem State.takeEarly_mem (s t : State) : (s.takeEarly t).mem = t.mem := by
  unfold State.takeEarly; split
  · rfl
  · split
    · split <;> rfl
    · split
      · rfl
      · split <;> rfl

theorem State.issueTurn_keeps (w : Memory.wf s.mem = true) : OutKeeps s.issueTurn := by
  unfold State.issueTurn; split
  · next t e => rw [outKeeps_next, State.lookPast_mem e]; exact w
  · have h := State.issueNext_keeps w
    split
    · next t e => rw [e] at h; rw [outKeeps_next, State.takeEarly_mem]; exact h
    · exact h

/-! ### Entries of the queue -/

theorem State.partEntry_mem {pre rest : List Frozen} {e : Frozen} {x : Instr} {m : Member} {t : State}
    (h : s.partEntry pre e rest x m = some t) : t.mem = s.mem := by
  unfold State.partEntry at h; dsimp only at h
  split at h
  · cases h
  · split at h
    · cases h; rfl
    · cases h

theorem State.runEntry_keeps (w : Memory.wf s.mem = true) {pre rest : List Frozen} {e : Frozen}
    {o : Host.Outcome State Fault Refusal} (h : s.runEntry pre e rest = some o) : OutKeeps o := by
  have part : ∀ {x m}, (s.partEntry pre e rest x m).map .next = some o → OutKeeps o := by
    intro x m hp
    obtain ⟨t, ht, rfl⟩ := Option.map_eq_some_iff.1 hp
    rw [outKeeps_next, State.partEntry_mem ht]; exact w
  unfold State.runEntry at h; extract_lets g t at h
  have wt : Memory.wf t.mem = true := State.prepared_wf (s := State.mapHart _ _) w _
  split at h
  · cases h
  · split at h
    · cases h
    · next m hm =>
      have hk := memberFor_keeps hm t wt
      split at h
      · exact part h
      · split at h
        · next u eu =>
          have wu : Memory.wf u.mem = true := wf_of_ok eu hk
          cases h
          rw [outKeeps_next, State.mapHart_mem, State.launched_mem]; exact wu
        · next c u eu =>
          have wu : Memory.wf u.mem = true := keeps_of_error eu hk
          cases h; exact finish_keeps w wu
        · exact part h
        · cases h; trivial

theorem State.runQueue_keeps (w : Memory.wf s.mem = true) {o : Host.Outcome State Fault Refusal} :
    ∀ (l pre : List Frozen), s.runQueue pre l = some o → OutKeeps o
  | [], _, h => by cases h
  | e :: rest, pre, h => by
    unfold State.runQueue at h; split at h
    · next e' => cases h; exact State.runEntry_keeps w e'
    · exact State.runQueue_keeps w rest _ h

theorem State.queueTurn_keeps (w : Memory.wf s.mem = true) {o : Host.Outcome State Fault Refusal}
    (h : s.queueTurn = some o) : OutKeeps o := by
  unfold State.queueTurn at h; dsimp only at h; split at h
  · split at h
    · cases h
    · exact State.runQueue_keeps (State.drain_wf w) _ _ h
  · cases h

theorem State.placedTurn_keeps (w : Memory.wf s.mem = true) (b : Bool) : OutKeeps (s.placedTurn b) := by
  unfold State.placedTurn; split
  · exact State.takeHit_wf w _
  · split
    · exact State.asyncTrap_wf w _
    · split
      · exact State.takeHit_wf w _
      · refine OutKeeps.ite ?_ (State.issueTurn_keeps w)
        split
        · next o e => exact State.queueTurn_keeps (s := s.drawn) w e
        · exact State.issueTurn_keeps (s := s.drawn) w

theorem hartTurn_keeps (w : Memory.wf s.mem = true) : OutKeeps (hartTurn s) := by
  unfold hartTurn; split
  · exact State.wakeTurn_wf w
  · exact State.wakeTurn_wf w
  · exact State.placedTurn_keeps w _
  · exact State.placedTurn_keeps (State.drain_wf w) _

theorem State.rotate_mem (s : State) : s.rotate.mem = s.mem := by unfold State.rotate; split <;> rfl

theorem State.background_keeps (w : Memory.wf s.mem = true) : OutKeeps s.background := by
  unfold State.background; split
  · exact w
  · exact State.engineTurn_keeps w
  · have h := execOnHart_keeps w s.hart.ref fun x => match x.status with
      | .parked (.gyield t) d none => if t ≤ s.clock then { x with status := .parked (.gyield t) d (some 0) } else x
      | _ => x
    exact execHartResume_keeps h _
  · refine OutKeeps.ite ((execShootdownRequest_keeps w _).andThen fun t ht => execShootdownAcknowledge_keeps ht _) ?_
    split
    · exact w
    · exact State.commandStep_keeps w ..

theorem State.freeTurn_keeps (w : Memory.wf s.mem = true) : OutKeeps s.freeTurn := by
  unfold State.freeTurn; extract_lets u
  have wu : Memory.wf u.mem = true := by dsimp only [u]; rw [State.rotate_mem]; exact w
  exact (State.background_keeps (s := { u with agenda := u.others.map fun h => .hart h.ref }) wu).andThen
    fun t ht => hartTurn_keeps ht

theorem step_keeps (w : Memory.wf s.mem = true) : OutKeeps (step s) := by
  unfold step; extract_lets u
  have wu : Memory.wf u.mem = true := w
  split
  · exact State.freeTurn_keeps wu
  · refine OutKeeps.ite (hartTurn_keeps ?_) wu
    rw [State.focus_mem]; exact wu
  · next i rest _ => exact exec_keeps (s := { u with agenda := rest }) wu i

/-- Settles O46: each instruction and each step of an agent keeps the form (`exec_keeps`), and so do the turns that run
them. -/
theorem stepKeepsMemoryCanonical : Obligations.StepKeepsMemoryCanonical := by
  intro s t hs e
  have h := step_keeps (s := s) hs
  rw [e] at h; exact h
end Sys2Proof.Machine
end

section
/-! SUPPORT. The reset state, and what a write of tvec leaves. -/

namespace Sys2Proof.Machine

/-! ### The reset state -/

theorem reset_block_zero (p : Nat) : State.reset.block p 0 = (({} : Huane).lcs.setWidth 64 <<< 4) ||| 0 := rfl

theorem reset_partRuns (p : Nat) : State.reset.partRuns p = false := by
  rw [State.partRuns, reset_block_zero]; decide

/-- Settles O45: the reset state is the model's default state, of which each part says so itself. -/
theorem resetState : Obligations.ResetState := by
  unfold Obligations.ResetState
  refine ⟨?harts, ?bytes, ?sound, rfl, rfl, rfl, rfl, rfl, rfl, rfl, fun p => ⟨rfl, rfl, rfl, rfl, reset_partRuns p⟩⟩
  case harts => rfl
  case bytes => exact fun a => rfl
  case sound => rfl

/-! ### A write of tvec drops bit 0 -/

/-- A hart whose tvec holds 1, which no write of tvec gives it. -/
def oddTvecState : State := { State.reset with hart := { sup := { tvec := 1 } } }

theorem oddTvecState_csrGet_tvec : oddTvecState.csrGet 0x804 = some 1 := rfl

theorem oddTvecState_csrGet_csrPut_tvec : (oddTvecState.csrPut 0x804 0).csrGet 0x804 = some 0 := rfl

/-- Refutes O14: where tvec holds 1, a write of 0 clears bit 0 too, which is not among tvec's writable bits; the
statement is of every state, and asks no bit 0 of 0 of tvec. -/
theorem not_csrReadsBackItsWrites : ¬ Obligations.CsrReadsBackItsWrites := by
  rintro ⟨readBack, -⟩
  obtain ⟨h, -⟩ := readBack oddTvecState 0 1 (0x804, BitVec.allOnes 64 <<< 1) (by decide) oddTvecState_csrGet_tvec
  rw [oddTvecState_csrGet_csrPut_tvec] at h
  exact absurd h (by decide)
end Sys2Proof.Machine
end

section
/-! SUPPORT. What writes do to the register blocks that lie in memory (R4). -/

namespace Sys2Proof.Machine
variable {s t : State} {m : List Host.Cell}

/-! ### The bytes of a number in memory -/

/-- Byte i of n bytes read is byte i of the number. -/
theorem readN_byte (m : List Host.Cell) : ∀ (n a i : Nat), i < n → BitVec.ofNat 8 (readN m a n / 256 ^ i) = readByte m (a + i)
  | n + 1, a, 0, _ => by
    apply BitVec.eq_of_toNat_eq
    have := (readByte m a).isLt
    simp [readN]
    omega
  | n + 1, a, i + 1, h => by
    have e : ((readByte m a).toNat + 256 * readN m (a + 1) n) / 256 = readN m (a + 1) n := by
      have := (readByte m a).isLt
      omega
    rw [readN, Nat.pow_succ, Nat.mul_comm (256 ^ i), ← Nat.div_div_eq_div_mul, e, readN_byte m n (a + 1) i (by omega)]
    congr 1; omega

theorem readN_lt (m : List Host.Cell) : ∀ (n a : Nat), readN m a n < 256 ^ n
  | 0, _ => by simp [readN]
  | n + 1, a => by
    have h := readN_lt m n (a + 1)
    have := (readByte m a).isLt
    rw [readN, Nat.pow_succ]
    omega

theorem readQuad_byte (m : List Host.Cell) (a : Nat) {i : Nat} (h : i < 8) :
    BitVec.ofNat 8 ((readQuad m a).toNat / 256 ^ i) = readByte m (a + i) := by
  rw [readQuad, BitVec.toNat_ofNat, Nat.mod_eq_of_lt (show readN m a 8 < 2 ^ 64 from readN_lt m 8 a), readN_byte m 8 a i h]

theorem readWord_byte (m : List Host.Cell) (a : Nat) {i : Nat} (h : i < 4) :
    BitVec.ofNat 8 ((readWord m a).toNat / 256 ^ i) = readByte m (a + i) := by
  rw [readWord, BitVec.toNat_ofNat, Nat.mod_eq_of_lt (show readN m a 4 < 2 ^ 32 from readN_lt m 4 a), readN_byte m 4 a i h]

/-- Setting bit 0 of a number changes its byte 0 alone. -/
theorem or_one_byte (v : Quad) {i : Nat} (h : 0 < i) : (v ||| 1).toNat / 256 ^ i = v.toNat / 256 ^ i := by
  have e : (256 : Nat) ^ i = 2 ^ (8 * i) := by rw [Nat.pow_mul]
  have one : (1 : Nat) >>> (8 * i) = 0 := by
    rw [Nat.shiftRight_eq_div_pow, Nat.div_eq_of_lt]
    exact Nat.one_lt_two_pow (by omega)
  rw [e, ← Nat.shiftRight_eq_div_pow, ← Nat.shiftRight_eq_div_pow, BitVec.toNat_or, Nat.shiftRight_or_distrib]
  simp [one]

/-! ### Bytes that memory does not list -/

/-- No cell of memory is at this address. -/
def Unlisted (m : List Host.Cell) (x : Nat) : Prop := ∀ c ∈ m, c.1 ≠ x

theorem Unlisted.readByte {x : Nat} : ∀ {m : List Host.Cell}, Unlisted m x → readByte m x = 0
  | [], _ => rfl
  | (a, b) :: r, h => by
    rw [Machine.readByte, if_neg (h (a, b) List.mem_cons_self)]
    split
    · rfl
    · exact Unlisted.readByte fun c hc => h c (List.mem_cons_of_mem _ hc)

theorem mem_writeByte {c : Host.Cell} (x : Nat) (b : Byte) : ∀ {m : List Host.Cell}, c ∈ writeByte m x b → c ∈ m ∨ c = (x, b)
  | [], h => by
    rw [writeByte] at h
    split at h
    · exact .inl h
    · exact .inr (List.mem_singleton.1 h)
  | (a, d) :: r, h => by
    rw [writeByte] at h
    split at h <;> split at h
    · exact .inl (List.mem_cons_of_mem _ h)
    · exact (List.mem_cons.1 h).elim .inr fun k => .inl (List.mem_cons_of_mem _ k)
    · split at h
      · exact .inl h
      · exact (List.mem_cons.1 h).elim .inr .inl
    · rcases List.mem_cons.1 h with k | k
      · exact .inl (k ▸ List.mem_cons_self)
      · exact (mem_writeByte x b k).imp_left (List.mem_cons_of_mem _)

theorem Unlisted.writeByte {x y : Nat} (h : Unlisted m x) (hy : y ≠ x) (b : Byte) : Unlisted (writeByte m y b) x :=
  fun c hc => (mem_writeByte y b hc).elim (h c) fun e => e ▸ hy

theorem Unlisted.writeN {x : Nat} : ∀ (n : Nat) {m : List Host.Cell} {a : Nat} (v : Nat), Unlisted m x → (x < a ∨ a + n ≤ x) →
    Unlisted (writeN m a n v) x
  | 0, _, _, _, h, _ => h
  | n + 1, _, _, _, h, hx => Unlisted.writeN n _ (h.writeByte (by omega) _) (by omega)

/-! ### A written TAIL -/

/-- A TAIL that is refused stays, and BADTAIL takes bit 0; nothing else is written. -/
theorem State.tailWritten_cases (s : State) (m : List Host.Cell) (d : Nat) : s.tailWritten m d = m ∨
    s.tailWritten m d = writeQuad (writeN m (d + 24) 4 (readWord s.mem (d + 24)).toNat) (d + 32) (readQuad m (d + 32) ||| 1) := by
  unfold State.tailWritten
  dsimp only
  split
  · exact .inl rfl
  · exact .inr rfl

theorem Unlisted.tailWritten {x d : Nat} (h : Unlisted m x) (ht : x < d + 24 ∨ d + 28 ≤ x) (hb : x < d + 32 ∨ d + 40 ≤ x) :
    Unlisted (s.tailWritten m d) x := by
  rcases s.tailWritten_cases m d with e | e <;> rw [e]
  · exact h
  · exact (h.writeN 4 _ (by omega)).writeN 8 _ (by omega)

theorem Unlisted.tailsWritten {x : Nat} : ∀ (l : List Nat) {m : List Host.Cell}, Unlisted m x →
    (∀ d ∈ l, (x < d + 24 ∨ d + 28 ≤ x) ∧ (x < d + 32 ∨ d + 40 ≤ x)) → Unlisted (l.foldl s.tailWritten m) x
  | [], _, h, _ => h
  | d :: l, _, h, hl => by
    obtain ⟨ht, hb⟩ := hl d List.mem_cons_self
    exact Unlisted.tailsWritten l (h.tailWritten ht hb) fun d hd => hl d (List.mem_cons_of_mem _ hd)

/-- Every byte but the first of BADTAIL is left, or is of a TAIL that goes back to what it was. -/
theorem readByte_tailWritten (w : Memory.wf m = true) {d x : Nat} (hx : x ≠ d + 32) :
    readByte (s.tailWritten m d) x = readByte m x ∨ readByte (s.tailWritten m d) x = readByte s.mem x := by
  rcases s.tailWritten_cases m d with e | e <;> rw [e]
  · exact .inl rfl
  · rw [writeQuad, readByte_writeN 8 _ _ x (Memory.wf_writeN _ _ _ w), readByte_writeN 4 _ _ x w]
    by_cases hb : d + 32 ≤ x ∧ x < d + 32 + 8
    · left
      rw [if_pos hb, or_one_byte _ (by omega), readQuad_byte m (d + 32) (by omega)]
      congr 1; omega
    · rw [if_neg hb]
      by_cases ht : d + 24 ≤ x ∧ x < d + 24 + 4
      · right
        rw [if_pos ht, readWord_byte s.mem (d + 24) (by omega)]
        congr 1; omega
      · left; rw [if_neg ht]

theorem readByte_tailsWritten {x : Nat} : ∀ (l : List Nat) {m : List Host.Cell}, Memory.wf m = true → (∀ d ∈ l, x ≠ d + 32) →
    readByte m x = readByte s.mem x → readByte (l.foldl s.tailWritten m) x = readByte s.mem x
  | [], _, _, _, e => e
  | d :: l, _, w, hl, e => by
    refine readByte_tailsWritten l (State.tailWritten_wf s d w) (fun d hd => hl d (List.mem_cons_of_mem _ hd)) ?_
    exact (readByte_tailWritten w (hl d List.mem_cons_self)).elim (·.trans e) id

/-- A write leaves every byte outside it, but for the BADTAIL of a TAIL that it writes. -/
theorem readByte_put_other (w : Memory.wf s.mem = true) {a n x : Nat} (v : Nat) (hx : ¬(a ≤ x ∧ x < a + n))
    (hd : ∀ d ∈ s.tailsIn a n, x ≠ d + 32) : readByte (s.put a n v) x = readByte s.mem x :=
  readByte_tailsWritten _ (Memory.wf_writeN _ _ _ w) hd (by rw [readByte_writeN n a _ x w, if_neg hx])

theorem wfFrom_of_cons {a lo : Nat} {b : Byte} {r : List Host.Cell} (w : wfFrom lo ((a, b) :: r) = true) :
    wfFrom (a + 1) r = true := (wfFrom_cons.1 w).2.2

/-- Cells that are kept, changed or dropped where they stand leave the byte of those that are kept. -/
theorem readByte_filterMap_keep {f : Host.Cell → Option Host.Cell} {x : Nat}
    (hf : ∀ c d, f c = some d → c.2 ≠ 0 → d.1 = c.1 ∧ d.2 ≠ 0) (hx : ∀ c, c.1 = x → f c = some c) :
    ∀ (m : List Host.Cell) (lo : Nat), wfFrom lo m = true → readByte (m.filterMap f) x = readByte m x
  | [], _, _ => rfl
  | (a, b) :: r, lo, w => by
    obtain ⟨_, hb, hr⟩ := wfFrom_cons.1 w
    have ih := readByte_filterMap_keep hf hx r (a + 1) hr
    rw [readByte_cons hr, List.filterMap_cons]
    by_cases ha : a = x
    · rw [hx (a, b) ha, readByte_cons (wfFrom_filterMap hf r (a + 1) hr), ih]
    · rw [if_neg (Ne.symm ha)]
      split
      · exact ih
      · next d e =>
        obtain ⟨h1, h2⟩ := hf _ _ e hb
        obtain ⟨y, z⟩ := d
        cases h1
        rw [readByte_cons (wfFrom_filterMap hf r (a + 1) hr), if_neg (Ne.symm ha), ih]

/-- Zeroing leaves every byte outside its range, but for the BADTAIL of a TAIL in it. -/
theorem readByte_zeroed_other (w : Memory.wf s.mem = true) {lo n x : Nat} (hx : x < lo ∨ lo + n ≤ x)
    (hd : ∀ d ∈ s.tailsIn lo n, x ≠ d + 32) : readByte (s.zeroed lo n) x = readByte s.mem x := by
  have hf : ∀ c d : Host.Cell, (if c.1 < lo ∨ lo + n ≤ c.1 then some c else
      (let b := s.heldByte c.1 0; if b = 0 then none else some (c.1, b))) = some d → c.2 ≠ 0 → d.1 = c.1 ∧ d.2 ≠ 0 := by
    intro c d e hc
    split at e
    · cases e; exact ⟨rfl, hc⟩
    · dsimp only at e; split at e
      · cases e
      · next h => cases e; exact ⟨rfl, h⟩
  refine readByte_tailsWritten _ (wfFrom_filterMap hf _ _ w) hd ?_
  exact readByte_filterMap_keep hf (fun c e => if_pos (e ▸ hx)) _ 0 w

/-! ### Where TAILs lie -/

theorem mem_tailsIn {a n d : Nat} (h : d ∈ s.tailsIn a n) : ∃ b k, a / 2 ^ 53 < 256 ∧ s.blockBase (a / 2 ^ 53) 1 = some b ∧
    d = b + 16832 + 64 * k ∧ k < 2048 ∧ a < d + 28 ∧ d + 24 < a + n := by
  unfold State.tailsIn at h
  split at h
  · cases h
  · next hp =>
    split at h
    · cases h
    · next b hb =>
      dsimp only at h
      split at h
      · cases h
      · obtain ⟨hm, hd⟩ := List.mem_filter.1 h
        obtain ⟨i, _, rfl⟩ := List.mem_map.1 hm
        have hd := of_decide_eq_true hd
        exact ⟨b, _, by omega, hb, rfl, by omega, hd.2.1, hd.2.2⟩

theorem State.blockBase_some {p q b : Nat} (h : s.blockBase p q = some b) :
    s.partRuns p = true ∧ p * 2 ^ 53 ≤ b ∧ b + 2 ^ 38 ≤ (p + 1) * 2 ^ 53 := by
  unfold State.blockBase at h
  dsimp only at h
  split at h
  · next hr =>
    cases h
    have h1 : fieldOf (s.block p q) 37 2 < 2 ^ 2 := BitVec.isLt _
    have h2 : fieldOf (s.block p q) 0 37 < 2 ^ 37 := BitVec.isLt _
    refine ⟨hr, ?_, ?_⟩ <;> unfold hbmKey <;> omega
  · cases h

/-! ### Which quads are plain memory -/

theorem ringFields_ne_all (q : Nat) : ringFields q ≠ Fields.all := by
  unfold ringFields; split <;> decide

/-- Whether a quad of the scheduler tables is plain memory does not turn on the DEV bit of its queue. -/
theorem schedFields_all_iff (q : Nat) (x y : Bool) : schedFields q x = Fields.all ↔ schedFields q y = Fields.all := by
  unfold schedFields
  by_cases h : q < 2104
  · simp only [if_pos h]
  · simp only [show ¬q = 0 by omega, show ¬q < 8 by omega, show ¬q < 56 by omega, h, if_false]
    split
    case h_3 => cases x <;> cases y <;> decide
    all_goals rfl

theorem schedFields_tail (k : Nat) (dev : Bool) : schedFields (2104 + 8 * k + 3) dev = { rw := if dev then 0 else 0xFFFFFFFF } := by
  unfold schedFields
  rw [if_neg (by omega), if_neg (by omega), if_neg (by omega), if_neg (by omega), show (2104 + 8 * k + 3 - 2104) % 8 = 3 by omega]
  rfl

theorem schedFields_badtail (k : Nat) (dev : Bool) : schedFields (2104 + 8 * k + 4) dev = { w1c := 1 } := by
  unfold schedFields
  rw [if_neg (by omega), if_neg (by omega), if_neg (by omega), if_neg (by omega), show (2104 + 8 * k + 4 - 2104) % 8 = 4 by omega]
  rfl

/-- The number of a quad in the block of n bytes at the base that a quad of the bring-up block names. -/
def State.quadAt (s : State) (x quad n : Nat) : Option Nat := quadIn ((s.blockBase (x / 2 ^ 53) quad).getD 0) n x

/-- The quad of a die's fault ring control block in which an address lies. -/
def State.ringQuad (s : State) (x : Nat) : Option Nat :=
  (List.range 4).findSome? fun die => quadIn (s.xlat (x / 2 ^ 53) die) 64 x

/-- Whether the queue whose descriptor holds a quad of the scheduler tables is fed by glaunch. -/
def State.devAt (s : State) (p : Nat × Nat) : Bool := bitOf (readQuad s.mem (p.1 + 8 * (p.2 / 8 * 8) + 8)) 7

/-- The first register block that holds an address says what its quad is; what lies in none is plain memory. -/
theorem State.fieldsAt_eq (s : State) (x : Nat) : s.fieldsAt x =
    if 256 ≤ x / 2 ^ 53 ∨ !s.partRuns (x / 2 ^ 53) then Fields.all
    else (((s.ringQuad x).map ringFields).or <| ((s.schedAt x).map fun p => schedFields p.2 (s.devAt p)).or <|
      ((s.quadAt x 2 524288).map fabricFields).or <| ((s.quadAt x 3 64).map ringFields).or <|
      (s.quadAt x 8 69632).map mailboxFields).getD Fields.all := by
  rw [State.fieldsAt]
  extract_lets at_
  rw [show at_ 2 524288 = s.quadAt x 2 524288 from rfl, show at_ 3 64 = s.quadAt x 3 64 from rfl,
    show at_ 8 69632 = s.quadAt x 8 69632 from rfl,
    show (List.range 4).findSome? (fun die => quadIn (s.xlat (x / 2 ^ 53) die) 64 x) = s.ringQuad x from rfl]
  congr 1
  unfold State.devAt
  generalize s.ringQuad x = r, s.schedAt x = q, s.quadAt x 2 524288 = f, s.quadAt x 3 64 = g, s.quadAt x 8 69632 = h
  -- the kernel is kept from evaluating these, whose cases count up to their literals
  generalize ringFields = R, schedFields = S, fabricFields = F, mailboxFields = M
  cases r
  case some => rfl
  case none =>
    rcases q with _ | ⟨_, _⟩
    case some => rfl
    case none => cases f <;> cases g <;> cases h <;> rfl

/-- TAIL and BADTAIL of a queue are no plain memory. -/
theorem fieldsAt_ne_all_of_tail {a n d x : Nat} (hd : d ∈ s.tailsIn a n) (hx : d + 24 ≤ x ∧ x < d + 28 ∨ d + 32 ≤ x ∧ x < d + 40) :
    s.fieldsAt x ≠ Fields.all := by
  obtain ⟨b, k, hp, hb, rfl, hk, -, -⟩ := mem_tailsIn hd
  obtain ⟨hr, h1, h2⟩ := State.blockBase_some hb
  have e : x / 2 ^ 53 = a / 2 ^ 53 := by omega
  have sched : s.schedAt x = some (b, (x - b) / 8) := by
    unfold State.schedAt
    rw [e, hb]
    dsimp only
    rw [quadIn, if_pos (by omega)]; rfl
  rw [State.fieldsAt_eq, e, hr, sched, if_neg (by simp; omega)]
  cases s.ringQuad x with
  | some q => simpa using ringFields_ne_all q
  | none =>
  simp only [Option.map_none, Option.none_or, Option.map_some, Option.some_or, Option.getD_some]
  generalize s.devAt (b, (x - b) / 8) = dev
  rcases hx with hx | hx
  · rw [show (x - b) / 8 = 2104 + 8 * k + 3 by omega, schedFields_tail]
    cases dev <;> decide
  · rw [show (x - b) / 8 = 2104 + 8 * k + 4 by omega, schedFields_badtail]
    decide

theorem allOnes_byte (x : Nat) : (Fields.all.rw).extractLsb' (8 * (x % 8)) 8 = BitVec.allOnes 8 := by
  have h : x % 8 < 8 := Nat.mod_lt _ (by decide)
  generalize x % 8 = i at h
  interval_cases i <;> rfl

/-- Plain memory holds the byte that is written. -/
theorem State.heldByte_all {x : Nat} (hf : s.fieldsAt x = Fields.all) (b : Byte) : s.heldByte x b = b := by
  unfold State.heldByte
  dsimp only
  rw [hf, allOnes_byte, BitVec.and_allOnes, BitVec.not_allOnes]
  simp

/-- Plain memory that is zeroed is not listed. -/
theorem Unlisted.zeroed {lo n x : Nat} (hf : s.fieldsAt x = Fields.all) (hx : lo ≤ x ∧ x < lo + n ∨ Unlisted s.mem x) :
    Unlisted (s.zeroed lo n) x := by
  refine Unlisted.tailsWritten _ ?_ fun d hd => ?_
  · intro c hc e
    obtain ⟨c', hm, h⟩ := List.mem_filterMap.1 hc
    have zero : s.heldByte x 0 = 0 := by
      rw [State.heldByte_all hf]
    split at h
    · next out =>
      cases h
      exact hx.elim (fun k => by omega) fun k => k c hm e
    · dsimp only at h
      split at h
      · cases h
      · next hz =>
        cases h
        exact hz (e ▸ zero)
  · by_contra k
    exact fieldsAt_ne_all_of_tail hd (by omega) hf

/-! ### States with the same bring-up blocks -/

/-- The bring-up blocks read alike: the register blocks in memory lie at the same places. -/
def SameBlocks (s t : State) : Prop := ∀ p q, t.block p q = s.block p q

namespace SameBlocks

theorem refl (s : State) : SameBlocks s s := fun _ _ => rfl

theorem trans {u : State} (h : SameBlocks s t) (k : SameBlocks t u) : SameBlocks s u := fun p q => (k p q).trans (h p q)

theorem of_pkgs (h : t.pkgs = s.pkgs) : SameBlocks s t := fun p q => by simp only [State.block, State.pack, h]

variable (h : SameBlocks s t)
include h

theorem partRuns (p : Nat) : t.partRuns p = s.partRuns p := by rw [State.partRuns, State.partRuns, h]

theorem blockBase (p q : Nat) : t.blockBase p q = s.blockBase p q := by
  unfold State.blockBase; rw [h.partRuns, h]

theorem xlat (p die : Nat) : t.xlat p die = s.xlat p die := by rw [State.xlat, State.xlat, h]

theorem schedAt (x : Nat) : t.schedAt x = s.schedAt x := by unfold State.schedAt; rw [h.blockBase]

theorem tailsIn (a n : Nat) : t.tailsIn a n = s.tailsIn a n := by unfold State.tailsIn; rw [h.blockBase]

theorem quadAt (x quad n : Nat) : t.quadAt x quad n = s.quadAt x quad n := by
  rw [State.quadAt, State.quadAt, h.blockBase]

theorem ringQuad (x : Nat) : t.ringQuad x = s.ringQuad x := by
  unfold State.ringQuad; simp only [h.xlat]

theorem fieldsAt_all {x : Nat} : t.fieldsAt x = Fields.all ↔ s.fieldsAt x = Fields.all := by
  rw [State.fieldsAt_eq, State.fieldsAt_eq, h.partRuns, h.ringQuad, h.schedAt, h.quadAt, h.quadAt, h.quadAt]
  split
  · rfl
  · cases s.ringQuad x with
    | some q => simp only [Option.map_some, Option.some_or]
    | none =>
    cases s.schedAt x with
    | some p =>
      simp only [Option.map_none, Option.none_or, Option.map_some, Option.some_or, Option.getD_some]
      exact schedFields_all_iff ..
    | none => simp only [Option.map_none, Option.none_or]
end SameBlocks
end Sys2Proof.Machine
end

section
/-! SUPPORT. tlbinv, snap, pwait and mwipe at level S. -/

namespace Sys2Proof.Machine
variable {s t : State}

/-! ### Privileged instructions at level S -/

theorem State.privileged_s (h : s.hart.level = .s) (f : State → Except Stop State) : s.privileged f = finish s (f s) := by
  unfold State.privileged; rw [h]; rfl

theorem Hart.setS_eq (h : Hart) (r : SReg) (v : Quad) (t : TaintSet) : h.setS r v t =
    { h with s := if r = 0#5 then h.s else h.s.set r.toNat v, st := if r = 0#5 then h.st else h.st.set r.toNat t } := by
  by_cases e : r = 0#5
  · rw [Hart.setS, if_pos (show r = 0 from e), if_pos e, if_pos e]
  · rw [Hart.setS, if_neg (show ¬r = 0 from e), if_neg e, if_neg e]

theorem State.answer_eq_ranS (s : State) (d : SReg) (x : Quad) : s.answer d x = ranS s 4 d x 0 := by
  rw [State.answer, State.mapHart]
  rw [Hart.setS_eq]; rfl

/-! ### An lsync that does not wait -/

theorem Hart.rankOf_le (h : Hart) (x : Slice) : h.rankOf x ≤ 4 := by
  unfold Hart.rankOf
  cases x with
  | vault => dsimp only; split_ifs <;> omega
  | l2 => dsimp only; split_ifs <;> omega
  | remote => exact Nat.le_refl 4
  | host => exact Nat.le_refl 4

theorem lsync_of_ready (h : SyncReady s .g) : s.lsync .g = .ok (synced s .g) := by
  obtain ⟨hc, hb, hl, hf, hp, hh⟩ := h
  rw [show performed s .g = s.drain from if_pos rfl] at hp hh
  have cmds : s.hart.cmds.any (fun c => c.running && decide (c.nearest ≤ Scope.rank .g)) = false := by
    rw [List.any_eq_false]
    intro c hm
    rcases hc c hm with e | e
    · simp [Cmd.running, e]
    · simp; omega
  have colls : s.hart.colls.any (fun c => decide ((if c.msg.isSome then 2 else 4) ≤ Scope.rank .g)) = false := by
    rw [List.any_eq_false]
    intro c hm
    have := hl c hm
    simp; omega
  have queue : (s.hart.thaw && s.hart.frozen.any fun e => decide (s.hart.entryRank e ≤ Scope.rank .g)) = false := by
    rcases hf with e | e
    · rw [e]; rfl
    · rw [Bool.and_eq_false_iff, List.any_eq_false]
      right; intro x hx
      have := e x hx
      simp; omega
  have accesses : (s.drain.hart.pend.any fun a => decide (s.hart.rankOf a.slice ≤ Scope.rank .g)) = false := by
    have none : s.drain.hart.pend = [] := List.eq_nil_iff_forall_not_mem.2 fun a ha =>
      absurd (hp a ha) (Nat.not_lt.2 (Hart.rankOf_le ..))
    rw [none]; rfl
  have hits : (s.drain.hart.hits.any (·.level == s.drain.hart.level)) = false := by
    rw [List.any_eq_false]
    intro x hx
    simpa using hh x hx
  have e : ∃ u, s.lsync .g = .ok u := by
    unfold State.lsync
    simp only [cmds, hb, colls, queue, accesses, hits, Bool.or_false, Bool.false_eq_true, if_false, if_true]
    exact ⟨_, rfl⟩
  obtain ⟨u, e⟩ := e
  rw [synced, e]

/-! ### A wiped piece -/

@[simp] theorem State.putQuads_hart : ∀ (qs : List Quad) (s : State) (a : Nat), (s.putQuads a qs).hart = s.hart
  | [], _, _ => rfl
  | _ :: r, _, _ => State.putQuads_hart r ..

/-- The step of mwipe on one piece. -/
def State.wipeOne (s : State) (p : Nat × Bool) : State :=
  let t := s.wipe p.1 65536
  if p.2 then t.emptyEntries p.1 65536 (s.sieveAt p.1) else t

theorem State.wipeOne_store (s : State) (a : Nat) : s.wipeOne (a, false) = s.wipe a 65536 := rfl

@[simp] theorem State.wipe_hart (s : State) (a n : Nat) : (s.wipe a n).hart = s.hart := rfl
@[simp] theorem State.wipe_mem (s : State) (a n : Nat) : (s.wipe a n).mem = s.zeroed a n := rfl
@[simp] theorem State.wipe_pkgs (s : State) (a n : Nat) : (s.wipe a n).pkgs = s.pkgs := rfl

/-- A fold of steps that keep a part of the state keeps it. -/
theorem foldl_keeps {α β γ : Type} (f : α → β → α) (part : α → γ) (h : ∀ a b, part (f a b) = part a) :
    ∀ (l : List β) (a : α), part (l.foldl f a) = part a
  | [], _ => rfl
  | b :: l, a => (foldl_keeps f part h l (f a b)).trans (h a b)

@[simp] theorem State.emptyEntries_hart (s : State) (a n size : Nat) : (s.emptyEntries a n size).hart = s.hart :=
  foldl_keeps _ State.hart (fun _ _ => by dsimp only; split <;> rfl) _ _

@[simp] theorem State.wipeOne_hart (s : State) (p : Nat × Bool) : (s.wipeOne p).hart = s.hart := by
  unfold State.wipeOne; dsimp only
  split
  · rw [State.emptyEntries_hart, State.wipe_hart]
  · rfl

theorem wiped_hart (ps : List (Nat × Bool)) (s : State) : (ps.foldl State.wipeOne s).hart = s.hart :=
  foldl_keeps _ State.hart State.wipeOne_hart ps s

/-- A byte outside the pieces, and of no BADTAIL whose TAIL lies in one, is left. -/
theorem readByte_wiped_other {x : Nat} : ∀ (ps : List (Nat × Bool)) {s : State}, Memory.wf s.mem = true →
    (∀ p ∈ ps, p.2 = false) → (∀ p ∈ ps, (x < p.1 ∨ p.1 + 65536 ≤ x) ∧ ∀ d ∈ s.tailsIn p.1 65536, x ≠ d + 32) →
    readByte (ps.foldl State.wipeOne s).mem x = readByte s.mem x
  | [], _, _, _, _ => rfl
  | (a, b) :: ps, s, w, hs, h => by
    obtain rfl : b = false := hs _ List.mem_cons_self
    obtain ⟨hx, hd⟩ := h _ List.mem_cons_self
    have same : SameBlocks s (s.wipeOne (a, false)) := .of_pkgs rfl
    rw [List.foldl_cons, readByte_wiped_other ps (State.zeroed_wf a 65536 w) (fun p hp => hs p (List.mem_cons_of_mem _ hp))]
    · exact readByte_zeroed_other w hx hd
    · intro p hp
      rw [same.tailsIn]
      exact h p (List.mem_cons_of_mem _ hp)

/-- Plain memory in a piece is not listed once the pieces are wiped. -/
theorem Unlisted.wiped {x : Nat} : ∀ (ps : List (Nat × Bool)) {s : State}, (∀ p ∈ ps, p.2 = false) → s.fieldsAt x = Fields.all →
    (∃ p ∈ ps, p.1 ≤ x ∧ x < p.1 + 65536) ∨ Unlisted s.mem x → Unlisted (ps.foldl State.wipeOne s).mem x
  | [], _, _, _, h => h.elim (fun ⟨_, hp, _⟩ => nomatch hp) id
  | (a, b) :: ps, s, hs, hf, h => by
    obtain rfl : b = false := hs _ List.mem_cons_self
    have same : SameBlocks s (s.wipeOne (a, false)) := .of_pkgs rfl
    refine Unlisted.wiped ps (fun p hp => hs p (List.mem_cons_of_mem _ hp)) (same.fieldsAt_all.2 hf) ?_
    rcases h with ⟨p, hp, hx⟩ | h
    · rcases List.mem_cons.1 hp with rfl | hp
      · exact .inr (Unlisted.zeroed hf (.inl hx))
      · exact .inl ⟨p, hp, hx⟩
    · exact .inr (Unlisted.zeroed hf (.inr h))

@[simp] theorem State.putArea_hart : ∀ (ps : List (Nat × Nat)) (s : State) (qs : List Quad), (s.putArea ps qs).hart = s.hart
  | [], _, _ => rfl
  | (_, _) :: r, _, _ => (State.putArea_hart r ..).trans (State.putQuads_hart ..)

@[simp] theorem State.putQuads_free : ∀ (qs : List Quad) (s : State) (a : Nat), (s.putQuads a qs).free = s.free
  | [], _, _ => rfl
  | _ :: r, _, _ => State.putQuads_free r ..

@[simp] theorem State.putArea_free : ∀ (ps : List (Nat × Nat)) (s : State) (qs : List Quad), (s.putArea ps qs).free = s.free
  | [], _, _ => rfl
  | (_, _) :: r, _, _ => (State.putArea_free r ..).trans (State.putQuads_free ..)

/-! ### The instructions -/

theorem exec_tlbinv (d a b : SReg) (s : State) : exec (.tlbinv d a b) s = execTlbinv d a b s := rfl
theorem exec_snap (d a b : SReg) (s : State) : exec (.snap d a b) s = execSnap d a b s := rfl
theorem exec_pwait (d a : SReg) (s : State) : exec (.pwait d a) s = execPwait d a s := rfl
theorem exec_mwipe (d a b : SReg) (s : State) : exec (.mwipe d a b) s = execMwipe d a b s := rfl

/-- A hart that snaps: its area is written, and it is told the remap number. -/
theorem execSnap_next (d a b : SReg) (hs : s.hart.level = .s) (ps : List (Nat × Nat)) :
    let v := (s.needS [d, a, b]).drain
    let p := v.pack v.hart.pkg
    (v.hart.getS a).toNat ≤ 39 → v.area (v.hart.getS b) 512 8 .write .any = .ok ps →
    (∀ c ∈ p.colours, c.remapping = false) → execSnap d a b s = .next (ranS
      { v.putArea ps (p.snapRecord (v.hart.getS a).toNat (Config.mucenClock (v.clock - p.resetClock)) fun i =>
          Config.value (v.free + i)) with
        free := v.free + 52, hart := { v.hart with sup := { v.hart.sup with snapseq := p.remapSeq.setWidth 64 } } }
      4 d (p.remapSeq.setWidth 64) 0) := by
  intro v p ha hp hc
  have still : p.colours.any (·.remapping) = false := by simpa [List.any_eq_false] using hc
  unfold execSnap
  rw [State.privileged_s hs]
  dsimp only
  rw [if_neg (Nat.not_lt.2 ha), hp]
  dsimp only
  rw [if_neg (by rw [still]; exact Bool.false_ne_true)]
  dsimp only [finish]
  rw [State.answer_eq_ranS]
  simp only [State.mapHart, State.putArea_hart, State.putArea_free]
  rfl

/-- mwipe once its lsync does not wait: the pieces are wiped, and it answers its length. -/
theorem execMwipe_next (d a b : SReg) (hs : s.hart.level = .s) (ps : List (Nat × Bool)) (hr : SyncReady (s.needS [d, a, b]) .g) :
    let v := synced (s.needS [d, a, b]) .g
    let lo := (v.hart.getS a).toNat
    let n := (v.hart.getS b).toNat
    lo % 65536 = 0 → n % 65536 = 0 → n ≤ 2 ^ 30 → (v.awaitTurn (v.hart.canon (v.hart.getS a)) n true).isOk = true →
    v.wipePieces ((List.range (n / 65536)).map fun i => lo + 65536 * i) = .ok ps →
    execMwipe d a b s = .next (ranS (ps.foldl State.wipeOne v) 4 d (BitVec.ofNat 64 n) 0) := by
  intro v lo n hlo hn hle ht hp
  unfold execMwipe
  rw [State.privileged_s hs]
  dsimp only
  rw [lsync_of_ready hr]
  dsimp only
  rw [if_neg (not_or.2 ⟨not_not.2 hlo, not_or.2 ⟨not_not.2 hn, Nat.not_lt.2 hle⟩⟩), hp]
  dsimp only
  split
  · next e he => rw [he] at ht; cases ht
  · dsimp only [finish]
    rw [State.answer_eq_ranS]; rfl

/-- Settles O22: each instruction of level S is its own definition on the path the clause names; a wiped byte is followed
through the pieces by `Unlisted.wiped` and `readByte_wiped_other`. -/
theorem supervisorInstructions : Obligations.SupervisorInstructions := by
  unfold Obligations.SupervisorInstructions
  intro s d a b hs u h v w p asid off mine
  refine ⟨?request, ?acknowledged, ?snap, ?pending, ?release, ?mwipe⟩
  case request =>
    intro hm
    rw [exec_tlbinv, execTlbinv, State.privileged_s hs]
    dsimp only
    split
    · rfl
    · next x e => exact absurd (hm.symm.trans e) nofun
  case acknowledged =>
    intro x hm ha
    rw [exec_tlbinv, execTlbinv, State.privileged_s hs]
    dsimp only
    split
    · next e => exact absurd (hm.symm.trans e) nofun
    · next y e =>
      obtain rfl : x = y := Option.some.inj (hm.symm.trans e)
      rw [ha]
      dsimp only [finish]
      rw [State.answer_eq_ranS]; rfl
  case snap => exact fun ps ha hp hc => execSnap_next d a b hs ps ha hp hc
  case pending =>
    intro hb hp
    rw [exec_pwait, execPwait, State.privileged_s hs]
    dsimp only
    rw [if_neg (by rw [bitOf, hb]; exact Bool.false_ne_true), if_neg hp, State.answer_eq_ranS]
    rfl
  case release =>
    intro hb busy
    have e : (w.hart.queueBusy || w.hart.cmds.any Cmd.running) = true ↔ busy := by
      simp [busy, Cmd.running]
    rw [exec_pwait, execPwait, State.privileged_s hs]
    dsimp only
    rw [if_pos (by rw [bitOf, hb])]
    refine ⟨fun hbusy => ?_, fun hfree => ?_⟩
    · rw [if_pos (e.2 hbusy), State.answer_eq_ranS]; rfl
    · rw [if_neg fun k => hfree (e.1 k)]; rfl
  case mwipe =>
    intro hr v lo n hlo hn hle ht ps hp
    refine ⟨_, (exec_mwipe d a b s).trans (execMwipe_next d a b hs ps hr hlo hn hle ht hp), ?_, fun hstore hv x => ⟨?_, ?_⟩⟩
    · unfold ranS; rw [wiped_hart]
    · exact fun hx hf => (Unlisted.wiped ps hstore hf (.inl hx)).readByte
    · exact fun hx => readByte_wiped_other ps hv hstore hx
end Sys2Proof.Machine
end

section
/-! SUPPORT. A write to a register block, bit by bit (R4). -/

namespace Sys2Proof.Machine
variable {s t : State} {m : List Host.Cell}

/-! ### Numbers and their bytes -/

theorem toNat_add_mul_div (b : Byte) (y : Nat) : (b.toNat + 256 * y) / 256 = y := by
  have := b.isLt
  omega

theorem ofNat_toNat_add_mul (b : Byte) (y : Nat) : BitVec.ofNat 8 (b.toNat + 256 * y) = b := by
  apply BitVec.eq_of_toNat_eq
  have := b.isLt
  rw [BitVec.toNat_ofNat]
  omega

/-- Byte i of a number is byte i of its n low bytes. -/
theorem ofNat_mod_byte {n i : Nat} (v : Nat) (h : i < n) : BitVec.ofNat 8 (v % 256 ^ n / 256 ^ i) = BitVec.ofNat 8 (v / 256 ^ i) := by
  obtain ⟨k, rfl⟩ := Nat.exists_eq_add_of_lt h
  apply BitVec.eq_of_toNat_eq
  rw [BitVec.toNat_ofNat, BitVec.toNat_ofNat, show i + k + 1 = i + (k + 1) by omega, Nat.pow_add, Nat.mod_mul_right_div_self,
    Nat.mod_mod_of_dvd]
  exact Dvd.intro_left (256 ^ k) rfl

/-- What is read back of n bytes written is the number's n low bytes. -/
theorem readN_writeN_mod (w : Memory.wf m = true) (a n v : Nat) : readN (writeN m a n v) a n = v % 256 ^ n :=
  readN_eq_of_bytes _ n a _ (Nat.mod_lt _ (Nat.pow_pos (by decide))) fun y h h' => by
    rw [readByte_writeN n a v y w, if_pos ⟨h, h'⟩, ofNat_mod_byte v (by omega)]

theorem readWord_writeN (w : Memory.wf m = true) (a v : Nat) : readWord (writeN m a 4 v) a = BitVec.ofNat 32 v := by
  apply BitVec.eq_of_toNat_eq
  rw [readWord, readN_writeN_mod w, BitVec.toNat_ofNat, BitVec.toNat_ofNat]
  exact Nat.mod_mod _ _

/-! ### What a block holds after a write -/

theorem State.held_byte (s : State) : ∀ (n a v i : Nat), i < n →
    BitVec.ofNat 8 (s.held a n v / 256 ^ i) = s.heldByte (a + i) (BitVec.ofNat 8 (v / 256 ^ i))
  | n + 1, a, v, 0, _ => by
    rw [State.held, Nat.pow_zero, Nat.div_one, ofNat_toNat_add_mul, Nat.div_one]; rfl
  | n + 1, a, v, i + 1, h => by
    rw [State.held, Nat.pow_succ, Nat.mul_comm (256 ^ i), ← Nat.div_div_eq_div_mul, toNat_add_mul_div,
      State.held_byte s n (a + 1) (v / 256) i (by omega), Nat.div_div_eq_div_mul, show a + 1 + i = a + (i + 1) by omega]

/-- Where every byte takes what is written, the write is that of plain memory. -/
theorem writeN_held (s : State) : ∀ (n : Nat) (m : List Host.Cell) (a v : Nat), (∀ i, i < n → ∀ b, s.heldByte (a + i) b = b) →
    writeN m a n (s.held a n v) = writeN m a n v
  | 0, _, _, _, _ => rfl
  | n + 1, m, a, v, h => by
    rw [State.held, writeN, writeN, ofNat_toNat_add_mul, toNat_add_mul_div, show s.heldByte a _ = _ from h 0 (by omega) _,
      writeN_held s n _ (a + 1) (v / 256)]
    intro i hi b
    rw [show a + 1 + i = a + (i + 1) by omega]
    exact h (i + 1) (by omega) b

/-- Where every byte keeps what it holds, the write changes nothing. -/
theorem writeN_held_kept (w : Memory.wf s.mem = true) {a n v : Nat} (h : ∀ i, i < n → ∀ b, s.heldByte (a + i) b = readByte s.mem (a + i)) :
    writeN s.mem a n (s.held a n v) = s.mem := by
  refine Memory.ext (Memory.wf_writeN _ _ _ w) w fun y => ?_
  rw [readByte_writeN n a _ y w]
  split
  · next hy =>
    rw [State.held_byte s n a v (y - a) (by omega), h (y - a) (by omega)]
    congr 1; omega
  · rfl

/-- Bit j of a byte after a write: a writable bit takes the written one, a written 1 clears a W1C bit, another stays. -/
theorem State.heldByte_bit (s : State) (x : Nat) (b : Byte) {j : Nat} (hj : j < 8) :
    (s.heldByte x b).getLsbD j =
      if (s.fieldsAt x).rw.getLsbD (8 * (x % 8) + j) then b.getLsbD j
      else if (s.fieldsAt x).w1c.getLsbD (8 * (x % 8) + j) then (readByte s.mem x).getLsbD j && !b.getLsbD j
      else (readByte s.mem x).getLsbD j := by
  unfold State.heldByte
  simp only [BitVec.getLsbD_or, BitVec.getLsbD_and, BitVec.getLsbD_not, BitVec.getLsbD_extractLsb', hj, decide_true, Bool.true_and]
  generalize (s.fieldsAt x).rw.getLsbD (8 * (x % 8) + j) = r
  generalize (s.fieldsAt x).w1c.getLsbD (8 * (x % 8) + j) = c
  generalize (readByte s.mem x).getLsbD j = o
  generalize b.getLsbD j = n
  cases r <;> cases c <;> cases o <;> cases n <;> rfl

theorem State.heldByte_readOnly {x : Nat} (hf : s.fieldsAt x = { rw := 0 }) (b : Byte) : s.heldByte x b = readByte s.mem x := by
  refine BitVec.eq_of_getLsbD_eq fun j hj => ?_
  rw [State.heldByte_bit s x b hj, hf]
  simp

/-- A byte of the low half of a quad whose low half is writable takes the written one. -/
theorem State.heldByte_lowWord {x : Nat} (hf : s.fieldsAt x = { rw := 0xFFFFFFFF }) (hx : x % 8 < 4) (b : Byte) : s.heldByte x b = b := by
  refine BitVec.eq_of_getLsbD_eq fun j hj => ?_
  have bit : (0xFFFFFFFF#64).getLsbD (8 * (x % 8) + j) = true := by
    rw [show (0xFFFFFFFF#64 : Quad) = (BitVec.allOnes 32).setWidth 64 from rfl, BitVec.getLsbD_setWidth, BitVec.getLsbD_allOnes]
    simp; omega
  rw [State.heldByte_bit s x b hj, hf]
  exact if_pos bit

theorem State.put_of_noTails {a n : Nat} (h : s.tailsIn a n = []) (v : Nat) : s.put a n v = writeN s.mem a n (s.held a n v) := by
  rw [State.put, h]; rfl

theorem readByte_put_noTails (w : Memory.wf s.mem = true) {a n i : Nat} (h : s.tailsIn a n = []) (v : Nat) (hi : i < n) :
    readByte (s.put a n v) (a + i) = s.heldByte (a + i) (BitVec.ofNat 8 (v / 256 ^ i)) := by
  rw [State.put_of_noTails h, readByte_writeN n a _ _ w, if_pos (by omega), Nat.add_sub_cancel_left, State.held_byte s n a v i hi]

theorem ofNat_byte_bit (v i : Nat) {j : Nat} (hj : j < 8) : (BitVec.ofNat 8 (v / 256 ^ i)).getLsbD j = v.testBit (8 * i + j) := by
  rw [BitVec.getLsbD_ofNat, show (256 : Nat) ^ i = 2 ^ (8 * i) by rw [Nat.pow_mul], Nat.testBit_div_two_pow]
  simp only [hj, decide_true, Bool.true_and]
  rw [Nat.add_comm]

/-! ### A written TAIL -/

/-- The TAIL of a queue may move to a value. -/
def State.tailPasses (s : State) (d : Nat) (new : Word) : Prop :=
  (new - readWord s.mem (d + 16)).toNat ≤ 2 ^ fieldOf (readQuad s.mem (d + 8)) 0 5 ∧ (new - readWord s.mem (d + 24)).toNat < 2 ^ 31

theorem State.tailWritten_kept {d : Nat} (h : bitOf (readQuad s.mem (d + 8)) 7 = true ∨ s.tailPasses d (readWord m (d + 24))) :
    s.tailWritten m d = m := if_pos h

theorem State.tailWritten_refused {d : Nat} (h : ¬(bitOf (readQuad s.mem (d + 8)) 7 = true ∨ s.tailPasses d (readWord m (d + 24)))) :
    s.tailWritten m d =
      writeQuad (writeN m (d + 24) 4 (readWord s.mem (d + 24)).toNat) (d + 32) (readQuad m (d + 32) ||| 1) := if_neg h

theorem State.put_tail {a n d : Nat} (h : s.tailsIn a n = [d]) (v : Nat) :
    s.put a n v = s.tailWritten (writeN s.mem a n (s.held a n v)) d := by
  rw [State.put, h]; rfl

theorem readQuad_writeN_other (w : Memory.wf m = true) {a n v x : Nat} (h : x + 8 ≤ a ∨ a + n ≤ x) :
    readQuad (writeN m a n v) x = readQuad m x := by
  rw [readQuad, readQuad, readN_writeN_other w h]

/-- A TAIL that is refused reads as before, and BADTAIL is set. -/
theorem readBack_refused (w : Memory.wf m = true) (a : Nat) (tail : Word) (q : Quad) :
    readWord (writeQuad (writeN m a 4 tail.toNat) (a + 8) q) a = tail ∧
      readQuad (writeQuad (writeN m a 4 tail.toNat) (a + 8) q) (a + 8) = q := by
  have w4 := Memory.wf_writeN 4 a tail.toNat w
  refine ⟨?_, readQuad_writeQuad w4 ..⟩
  rw [readWord, writeQuad, readN_writeN_other w4 (by omega), ← readWord, readWord_writeN w, BitVec.ofNat_toNat, BitVec.setWidth_eq]

theorem registerBlocksInMemory : registerBlocksInMemoryRule := by
  unfold registerBlocksInMemoryRule
  intro s a n v w
  refine ⟨?plain, fun x hx hd => readByte_put_other w v hx hd, ?bits, ?tail⟩
  case plain =>
    intro hf ht
    rw [State.put_of_noTails ht]
    exact writeN_held s n _ a v fun i hi b => State.heldByte_all (hf i hi) b
  case bits =>
    intro ht i j hi hj
    dsimp only
    rw [readByte_put_noTails w ht v hi, State.heldByte_bit s _ _ hj, ofNat_byte_bit v i hj]
  case tail =>
    intro b q d _ _ _ hd ha hn _ hb ht hf tail new c ok
    subst hn
    have kept : c.getLsbD 7 = true → writeN s.mem a 4 (s.held a 4 v) = s.mem := by
      intro hc
      refine writeN_held_kept w fun i hi y => State.heldByte_readOnly ?_ y
      rw [hf i hi, schedFields_tail, show (readQuad s.mem (d + 8)).getLsbD 7 = true from hc]; rfl
    have taken : c.getLsbD 7 = false → writeN s.mem a 4 (s.held a 4 v) = writeN s.mem a 4 v := by
      intro hc
      refine writeN_held s 4 _ a v fun i hi y => State.heldByte_lowWord ?_ (by omega) y
      rw [hf i hi, schedFields_tail, show (readQuad s.mem (d + 8)).getLsbD 7 = false from hc]; rfl
    have dev : c.getLsbD 7 = false → bitOf (readQuad s.mem (d + 8)) 7 ≠ true := fun hc => by
      rw [bitOf, show (readQuad s.mem (d + 8)).getLsbD 7 = false from hc]; exact Bool.false_ne_true
    have passes : s.tailPasses d (readWord (writeN s.mem a 4 v) (d + 24)) ↔ ok := by
      rw [← ha, readWord_writeN w, State.tailPasses, ← ha]
    have other : readQuad (writeN s.mem a 4 v) (d + 32) = readQuad s.mem (d + 32) := readQuad_writeN_other w (by omega)
    rw [State.put_tail ht]
    refine ⟨fun hc => ?_, fun hc hok => ?_, fun hc hok => ?_⟩
    · rw [kept hc, State.tailWritten_kept (.inl hc)]
      exact ⟨rfl, rfl⟩
    · rw [taken hc, State.tailWritten_kept (.inr (passes.2 hok))]
      exact ⟨readWord_writeN w a v, other⟩
    · rw [taken hc, State.tailWritten_refused (fun k => k.elim (dev hc) fun k => hok (passes.1 k)), other, ← ha,
        show d + 32 = a + 8 by omega]
      exact readBack_refused (Memory.wf_writeN 4 a v w) a tail _
end Sys2Proof.Machine
end

section
/-! SUPPORT. Performing accesses writes no byte but theirs (R112). -/

namespace Sys2Proof.Machine
variable {s t : State}

/-! ### Where an access goes does not turn on what was performed before it -/

theorem State.tables_of_steady (e : t.steady = s.steady) : t.tables = s.tables := congrArg (·.tables) e

theorem State.windows_of_steady (e : t.steady = s.steady) (i : Nat) :
    (t.hart.windows[i]!).map (·.base) = (s.hart.windows[i]!).map (·.base) := by
  have h : t.hart.windows.map (fun w => w.map fun w => ({ w with buf := [] } : Window)) =
      s.hart.windows.map (fun w => w.map fun w => ({ w with buf := [] } : Window)) := congrArg (·.hart.windows) e
  by_cases hi : i < 32
  · have := congrArg (·[i]) h
    simp only [Vector.getElem_map] at this
    rw [getElem!_pos t.hart.windows i hi, getElem!_pos s.hart.windows i hi]
    have k := congrArg (Option.map (·.base)) this
    simpa only [Option.map_map, Function.comp_def] using k
  · rw [getElem!_neg t.hart.windows i hi, getElem!_neg s.hart.windows i hi]

theorem State.canon_of_steady (e : t.steady = s.steady) (a : Quad) : t.hart.canon a = s.hart.canon a := by
  have r := State.ref_of_steady e
  have w := State.windows_of_steady e (fieldOf a 56 5)
  unfold Hart.canon Hart.pkg Hart.die Hart.core
  rw [r]
  cases ht : t.hart.windows[fieldOf a 56 5]! <;> cases hs : s.hart.windows[fieldOf a 56 5]! <;> rw [ht, hs] at w
  case none.some => cases w
  case some.none => cases w
  case some.some x y =>
    have b : x.base = y.base := Option.some.inj w
    simp only [b]

theorem State.translate_congr (e : t.steady = s.steady) (hm : t.mem = s.mem) (pkg die : Nat) (asid : BitVec 16) (off chan : Nat)
    (k : AccKind) (a : Quad) :
    t.translate t.hart pkg die asid off chan k a = s.translate s.hart pkg die asid off chan k a := by
  have hr := State.ref_of_steady e
  have root : t.rootAddr = s.rootAddr := by
    funext p d i
    rw [State.rootAddr, State.rootAddr, (SameBlocks.of_pkgs (State.pkgs_of_steady e)).xlat]
  have walk : t.walk = s.walk := by
    funext p d i o
    unfold State.walk; rw [hm, root]
  have cached : t.walkCached = s.walkCached := by
    funext p d c i o
    unfold State.walkCached State.cachedTable; rw [walk, hm, State.tables_of_steady e]
  have tlb : t.tlbLookup t.hart = s.tlbLookup s.hart := by
    funext p d i o
    unfold State.tlbLookup Hart.pkg Hart.die Hart.core; rw [hr, State.tlb_of_steady e]
  unfold State.translate Hart.pkg Hart.die Hart.core
  rw [walk, cached, tlb, hr]

/-- An access arrives where it would have arrived with the memory of now before the accesses performed so far. -/
theorem State.arrival_of_steady (e : t.steady = s.steady) (a : Access) : t.arrival a = ({ s with mem := t.mem } : State).arrival a := by
  have e' : t.steady = ({ s with mem := t.mem } : State).steady := e
  unfold State.arrival
  have hr := State.ref_of_steady e
  unfold Hart.pkg Hart.die
  simp only [State.canon_of_steady e', State.translate_congr e' rfl, hr]

/-! ### What an access changes of its hart -/

/-- A load that is delivered changes registers and flags alone. -/
theorem Hart.deliver_shape (h : Hart) (dst : LoadDst) (n x : Nat) :
    ∃ sr v c, h.deliver dst n x = { h with s := sr, v := v, csr := c } := by
  unfold Hart.deliver
  cases dst with
  | s d signed =>
    dsimp only
    split
    · exact ⟨h.s, h.v, h.csr, rfl⟩
    · exact ⟨_, h.v, h.csr, rfl⟩
  | v d i fmt high sc rnd sat =>
    dsimp only
    split
    · exact ⟨h.s, _, h.csr, rfl⟩
    · exact ⟨h.s, _, _, rfl⟩

theorem Hart.setVElems_shape (d : VReg) (wide : Bool) : ∀ (l : List (Nat × Quad)) (h : Hart),
    ∃ v, l.foldl (fun h p => h.setVElem d wide p.1 p.2) h = { h with v := v }
  | [], h => ⟨h.v, rfl⟩
  | p :: l, h => by
    obtain ⟨v, e⟩ := Hart.setVElems_shape d wide l (h.setVElem d wide p.1 p.2)
    exact ⟨v, by rw [List.foldl_cons, e]; rfl⟩

/-- An access that is applied changes of its hart registers, flags and window buffers alone. -/
theorem State.applyAccess_hart_shape (s : State) (a : Access) (fwd : Option Nat) :
    ∃ sr v c w, (s.applyAccess a fwd).hart = { s.hart with s := sr, v := v, csr := c, windows := w } := by
  have delivered : ∀ (h : Hart) (w) (dst : LoadDst) (n x : Nat), h = { s.hart with windows := w } →
      ∃ sr v c w, h.deliver dst n x = { s.hart with s := sr, v := v, csr := c, windows := w } := by
    rintro h w dst n x rfl
    obtain ⟨sr, v, c, e⟩ := Hart.deliver_shape { s.hart with windows := w } dst n x
    exact ⟨sr, v, c, w, e⟩
  have same : ∃ sr v c w, s.hart = { s.hart with s := sr, v := v, csr := c, windows := w } := ⟨_, _, _, _, rfl⟩
  unfold State.applyAccess
  dsimp only
  cases a.op with
  | load => exact delivered s.hart _ _ _ _ rfl
  | loadConst => exact delivered s.hart _ _ _ _ rfl
  | loadWindow =>
    dsimp only
    split
    · exact delivered _ _ _ _ _ rfl
    · exact delivered _ _ _ _ _ rfl
  | store => exact same
  | storeNibble => exact same
  | amo op x d => exact delivered s.hart _ (.s d false) _ _ rfl
  | cas e x d => exact delivered s.hart _ (.s d false) _ _ rfl
  | exchange x dst => dsimp only; split <;> rw [State.setHart_hart] <;> exact delivered s.hart _ _ _ _ rfl
  | vamo op tag es dst =>
    dsimp only
    split
    · exact same
    · obtain ⟨v, e⟩ := Hart.setVElems_shape _ _ _ s.hart
      exact ⟨_, v, _, _, e⟩

theorem Hart.afterAccess_shape (h : Hart) (a : Access) : ∃ tr un, h.afterAccess a = { h with trains := tr, unacked := un } := by
  unfold Hart.afterAccess
  split
  · split
    · exact ⟨_, _, rfl⟩
    · exact ⟨_, h.unacked, rfl⟩
  · split
    · split
      · exact ⟨h.trains, _, rfl⟩
      · exact ⟨_, _, rfl⟩
    · exact ⟨_, _, rfl⟩

@[simp] theorem Hart.afterAccess_pend (h : Hart) (a : Access) : (h.afterAccess a).pend = h.pend := by
  obtain ⟨_, _, e⟩ := h.afterAccess_shape a; rw [e]
@[simp] theorem Hart.afterAccess_s (h : Hart) (a : Access) : (h.afterAccess a).s = h.s := by
  obtain ⟨_, _, e⟩ := h.afterAccess_shape a; rw [e]
@[simp] theorem Hart.afterAccess_v (h : Hart) (a : Access) : (h.afterAccess a).v = h.v := by
  obtain ⟨_, _, e⟩ := h.afterAccess_shape a; rw [e]
@[simp] theorem Hart.afterAccess_hits (h : Hart) (a : Access) : (h.afterAccess a).hits = h.hits := by
  obtain ⟨_, _, e⟩ := h.afterAccess_shape a; rw [e]

theorem State.applyAccess_pend (s : State) (a : Access) (fwd : Option Nat) : (s.applyAccess a fwd).hart.pend = s.hart.pend := by
  obtain ⟨_, _, _, _, e⟩ := s.applyAccess_hart_shape a fwd; rw [e]

theorem Hart.hitAt_pend (h : Hart) (c : Byte) (i : Nat) (a b : Access) (home : Option (Nat × Nat × Nat))
    (hb : b ∈ (h.hitAt c i a home).pend) : b ∈ h.pend := List.mem_of_mem_eraseIdx (List.mem_of_mem_filter hb)

/-- An access that is performed makes none. -/
theorem State.performAt_pend (s : State) (i : Nat) {b : Access} (hb : b ∈ (s.performAt i).hart.pend) : b ∈ s.hart.pend := by
  unfold State.performAt at hb
  split at hb
  · exact hb
  · split at hb
    · rw [State.mapHart_hart] at hb
      split at hb
      · exact Hart.hitAt_pend _ _ _ _ _ _ hb
      · rw [Hart.afterAccess_pend] at hb; exact List.mem_of_mem_eraseIdx hb
    · split at hb
      · exact Hart.hitAt_pend _ _ _ _ _ _ hb
      · dsimp only at hb
        split at hb
        · exact Hart.hitAt_pend _ _ _ _ _ _ hb
        · rw [State.mapHart_hart, Hart.afterAccess_pend, State.applyAccess_pend] at hb
          exact List.mem_of_mem_eraseIdx hb

/-! ### What an access writes -/

/-- An access writes nothing, or so many of the bytes that it may store to. -/
theorem State.applyAccess_mem_cases (s : State) (a : Access) (fwd : Option Nat) (hs : 0 < a.size) :
    (s.applyAccess a fwd).mem = s.mem ∨ ∃ n v, n ≤ storedBytes a ∧ (s.applyAccess a fwd).mem = s.put a.addr n v := by
  unfold State.applyAccess storedBytes
  dsimp only
  cases a.op with
  | load => exact .inl rfl
  | loadConst => exact .inl rfl
  | loadWindow => left; dsimp only; split <;> rfl
  | store => exact .inr ⟨_, _, Nat.le_refl _, rfl⟩
  | storeNibble => exact .inr ⟨1, _, hs, rfl⟩
  | amo => exact .inr ⟨_, _, Nat.le_refl _, rfl⟩
  | cas =>
    dsimp only
    split
    · exact .inr ⟨_, _, Nat.le_refl _, rfl⟩
    · exact .inl rfl
  | exchange =>
    right; dsimp only
    split
    · exact ⟨1, _, hs, rfl⟩
    · exact ⟨_, _, Nat.le_refl _, rfl⟩
  | vamo =>
    right; dsimp only
    split <;> exact ⟨_, _, Nat.le_refl _, rfl⟩

theorem mem_tailsIn_mono {a n n' d : Nat} (h : n ≤ n') (hd : d ∈ s.tailsIn a n) : d ∈ s.tailsIn a n' := by
  unfold State.tailsIn at hd ⊢
  split at hd
  · cases hd
  · next hp =>
    rw [if_neg hp]
    split at hd
    · cases hd
    · dsimp only at hd ⊢
      split at hd
      · cases hd
      · rw [if_neg (by omega)]
        obtain ⟨hm, hd⟩ := List.mem_filter.1 hd
        obtain ⟨i, hi, rfl⟩ := List.mem_map.1 hm
        have hd := of_decide_eq_true hd
        have hi := List.mem_range.1 hi
        exact List.mem_filter.2 ⟨List.mem_map.2 ⟨i, List.mem_range.2 (by omega), rfl⟩, decide_eq_true (by omega)⟩

/-- An access leaves a byte that it does not store to, and that is no BADTAIL of a TAIL it stores to. -/
theorem readByte_applyAccess (w : Memory.wf s.mem = true) (a : Access) (fwd : Option Nat) (hs : 0 < a.size) {x : Nat}
    (hx : ¬(a.addr ≤ x ∧ x < a.addr + storedBytes a)) (hd : ∀ d ∈ s.tailsIn a.addr (storedBytes a), x ≠ d + 32) :
    readByte (s.applyAccess a fwd).mem x = readByte s.mem x := by
  rcases s.applyAccess_mem_cases a fwd hs with e | ⟨n, v, hn, e⟩ <;> rw [e]
  exact readByte_put_other w v (by omega) fun d k => hd d (mem_tailsIn_mono hn k)

theorem State.arrival_size {a b : Access} (h : s.arrival a = .ok b) : b.size = a.size := by
  unfold State.arrival at h
  split at h
  · cases h; rfl
  · dsimp only at h
    split at h
    · cases h; rfl
    · split at h
      · cases h; rfl
      · cases h
      · cases h; rfl

theorem readByte_performAt (w : Memory.wf s.mem = true) (i : Nat) {x : Nat}
    (h : ∀ a ∈ s.hart.pend, 0 < a.size ∧ ∀ b, s.arrival a = .ok b →
      ¬(b.addr ≤ x ∧ x < b.addr + storedBytes b) ∧ ∀ d ∈ s.tailsIn b.addr (storedBytes b), x ≠ d + 32) :
    readByte (s.performAt i).mem x = readByte s.mem x := by
  unfold State.performAt
  split
  · rfl
  · next a ha =>
    obtain ⟨hs, hb⟩ := h a (List.mem_of_getElem? ha)
    split
    · rfl
    · split
      · rfl
      · next b e =>
        obtain ⟨hx, hd⟩ := hb b e
        dsimp only
        split
        · rfl
        · exact readByte_applyAccess w b _ (State.arrival_size e ▸ hs) hx hd

theorem readByte_drainUntilGo {x : Nat} (hu : Untouched s x) (p : Access → Bool) : ∀ (n : Nat) (t : State), t.steady = s.steady →
    Memory.wf t.mem = true → (∀ a ∈ t.hart.pend, a ∈ s.hart.pend) → readByte (drainUntilGo p n t).mem x = readByte t.mem x
  | 0, _, _, _, _ => rfl
  | n + 1, t, e, w, hp => by
    unfold drainUntilGo
    split
    · split
      · next i _ =>
        rw [readByte_drainUntilGo hu p n (t.performAt i) ((State.performAt_steady t i).trans e) (State.performAt_wf w i)
          fun a ha => hp a (State.performAt_pend t i ha)]
        refine readByte_performAt w i fun a ha => ?_
        obtain ⟨hs, hb⟩ := hu a (hp a ha)
        refine ⟨hs, fun b k => ?_⟩
        rw [State.arrival_of_steady e] at k
        rw [(SameBlocks.of_pkgs (State.pkgs_of_steady e)).tailsIn]
        exact hb t.mem b k
      · rfl
    · rfl

theorem accessesStoreWhereTheySay : accessesStoreWhereTheySayRule := by
  unfold accessesStoreWhereTheySayRule
  intro s x w hu
  have until_ : ∀ p, readByte (s.drainUntil p).mem x = readByte s.mem x := fun p =>
    readByte_drainUntilGo hu p _ s rfl w fun _ ha => ha
  have all : readByte s.drain.mem x = readByte s.mem x := by
    unfold State.drain
    split
    · rfl
    · exact until_ _
  refine ⟨all, fun rs => ?_, until_⟩
  unfold State.needS
  split
  · exact all
  · rfl

theorem scalarUsesWaitForLoads : scalarUsesWaitForLoadsRule := by
  unfold scalarUsesWaitForLoadsRule
  intro s rs h
  refine if_neg fun k => ?_
  obtain ⟨a, ha, k⟩ := List.any_eq_true.1 k
  have named : ∀ d : SReg, (d != 0 && rs.contains d) = true → d ∈ rs ∧ d ≠ 0#5 := fun d hd => by
    obtain ⟨h0, hm⟩ := Bool.and_eq_true_iff.1 hd
    exact ⟨List.contains_iff_mem.1 hm, by simpa using h0⟩
  split at k
  · next d g e => exact (h a ha d (named d k).1 (named d k).2 g 0 .swap 0 0).1 e
  · next d g e => exact (h a ha d (named d k).1 (named d k).2 g 0 .swap 0 0).2.1 e
  · next i d g e => exact (h a ha d (named d k).1 (named d k).2 g i .swap 0 0).2.2.1 e
  · next op x d e => exact (h a ha d (named d k).1 (named d k).2 false 0 op x 0).2.2.2.1 e
  · next x y d e => exact (h a ha d (named d k).1 (named d k).2 false 0 .swap x y).2.2.2.2 e
  · cases k
end Sys2Proof.Machine
end

section
/-! SUPPORT. What a scalar access does at its home, and where it arrives (R349). -/

namespace Sys2Proof.Machine
variable {s t : State} {i : Nat} {a a0 : Access}

/-! ### An access that fails at its home -/

/-- An access that fails writes nothing, and its failure waits to be taken. -/
theorem hitAt_failed (s : State) (c : Byte) (i : Nat) (a : Access) (home : Option (Nat × Nat × Nat)) :
    let t := s.mapHart (·.hitAt c i a home)
    t.mem = s.mem ∧ t.hart.s = s.hart.s ∧ t.hart.v = s.hart.v ∧
      ∃ x ∈ t.hart.hits, x.cause = c ∧ x.tinfo = a.shown ∧ x.seq = a.seq ∧ x.home = home :=
  ⟨rfl, rfl, rfl, _, List.mem_append_right _ (List.mem_singleton.2 rfl), rfl, rfl, rfl, rfl⟩

theorem performAt_unauthentic (hi : s.hart.pend[i]? = some a) (hu : s.unauthentic a = true) : s.performAt i =
    s.mapHart fun h => if a.op.reads then h.hitAt 0x0B i a else ({ h with pend := h.pend.eraseIdx i }).afterAccess a := by
  rw [State.performAt, hi]; exact if_pos hu

theorem performAt_refused {f : Fail} (hi : s.hart.pend[i]? = some a) (hu : s.unauthentic a = false) (hf : s.arrival a = .error f) :
    s.performAt i = s.mapHart (·.hitAt f.cause i a f.home) := by
  rw [State.performAt, hi]
  dsimp only
  rw [hu, hf]; rfl

section
variable (hi : s.hart.pend[i]? = some a0) (hu : s.unauthentic a0 = false) (ha : s.arrival a0 = .ok a)
  (hf : forwardData (s.hart.pend.take i) a = none)
include hi hu ha hf

/-- An access at its home: where it reads a poisoned granule it fails, else it is applied. -/
theorem performAt_arrived : s.performAt i = if a.op.reads && s.poisoned a.addr then s.mapHart (·.hitAt 0x0B i a)
    else (s.applyAccess a none).mapHart fun h => ({ h with pend := h.pend.eraseIdx i }).afterAccess a := by
  rw [State.performAt, hi]
  dsimp only
  rw [hu, ha]
  dsimp only
  rw [hf]
  simp only [Bool.false_eq_true, if_false, Option.isNone_none, Bool.and_true]

theorem performAt_poisoned (hr : a.op.reads = true) (hp : s.poison.contains (a.addr / 32) = true) :
    s.performAt i = s.mapHart (·.hitAt 0x0B i a) := by
  rw [performAt_arrived hi hu ha hf, hr, if_pos (show (true && s.poisoned a.addr) = true from hp)]

theorem performAt_applied (hp : a.op.reads = true → s.poison.contains (a.addr / 32) = false) :
    s.performAt i = (s.applyAccess a none).mapHart fun h => ({ h with pend := h.pend.eraseIdx i }).afterAccess a := by
  rw [performAt_arrived hi hu ha hf, if_neg]
  intro k
  obtain ⟨hr, k⟩ := Bool.and_eq_true_iff.1 k
  exact absurd ((hp hr).symm.trans k) Bool.false_ne_true

/-- What an access does at its home is what it does when it is applied. -/
theorem performAt_parts (hp : a.op.reads = true → s.poison.contains (a.addr / 32) = false) :
    let t := s.performAt i
    let u := s.applyAccess a none
    t.mem = u.mem ∧ t.hart.s = u.hart.s ∧ t.hart.v = u.hart.v ∧ t.hart.pend = s.hart.pend.eraseIdx i := by
  dsimp only
  rw [performAt_applied hi hu ha hf hp]
  refine ⟨rfl, ?_, ?_, ?_⟩
  · rw [State.mapHart_hart, Hart.afterAccess_s]
  · rw [State.mapHart_hart, Hart.afterAccess_v]
  · rw [State.mapHart_hart, Hart.afterAccess_pend, State.applyAccess_pend]
end

/-! ### Scalar accesses -/

theorem Hart.getS_of_s {h k : Hart} (e : h.s = k.s) (r : SReg) : h.getS r = k.getS r := by
  rw [Hart.getS, Hart.getS, e]

theorem Hart.getS_deliver (h : Hart) {d : SReg} (hd : d ≠ 0#5) (signed : Bool) (n x : Nat) :
    (h.deliver (.s d signed) n x).getS d = if signed then (BitVec.ofNat (8 * n) x).signExtend 64 else BitVec.ofNat 64 x := by
  have h0 : ¬d = 0 := hd
  simp only [Hart.deliver, if_neg h0]
  rw [Hart.getS_of_ne _ hd]
  exact Vector.getElem_set_self ..

theorem accessEffects : accessEffectsRule := by
  unfold accessEffectsRule
  intro s i a0 a hi hu ha hf t old
  refine ⟨fun hr hp => ?_, fun hp => ?_⟩
  · obtain ⟨hm, hs, hv, x, hx, hc, ht, hq, -⟩ := hitAt_failed s 0x0B i a none
    rw [show t = _ from performAt_poisoned hi hu ha hf hr hp]
    exact ⟨hm, hs, hv, x, hx, hc, ht, hq⟩
  · obtain ⟨hm, hs, -, hpend⟩ := performAt_parts hi hu ha hf hp
    refine ⟨hpend, fun d signed e hd => ?load, fun x e => ?store, fun op x d e => ?amo, fun e x d eo => ?cas⟩
    case load =>
      rw [Hart.getS_of_s hs, hm, State.applyAccess, e]
      exact ⟨Hart.getS_deliver _ hd .., rfl⟩
    case store =>
      rw [hm, hs, State.applyAccess, e]
      exact ⟨rfl, rfl⟩
    case amo =>
      rw [Hart.getS_of_s hs, hm, State.applyAccess, e]
      exact ⟨rfl, fun hd => (Hart.getS_deliver _ hd false ..)⟩
    case cas =>
      rw [Hart.getS_of_s hs, hm, State.applyAccess, eo]
      refine ⟨?_, fun hd => (Hart.getS_deliver _ hd false ..)⟩
      dsimp only
      rw [State.setHart_mem]
      split <;> rfl

/-! ### Arrival -/

theorem accKind_eq (r w : Bool) : accKind r w = if w then (if r then .atomic else .write) else .read := by
  cases r <;> cases w <;> rfl

/-- An access to another die goes where its translation there says, or fails as the translation does. -/
theorem arrival_far {v : BitVec 16 × Nat × Nat} (hv : a.via = some v)
    (far : s.hart.canon a.shown / 2 ^ 53 % 256 ≠ s.hart.pkg ∨ s.hart.canon a.shown / 2 ^ 51 % 4 ≠ s.hart.die) :
    s.arrival a = match s.translate s.hart (s.hart.canon a.shown / 2 ^ 53 % 256) (s.hart.canon a.shown / 2 ^ 51 % 4) v.1
        (s.hart.canon a.shown % 2 ^ 42) (s.hart.canon a.shown / 2 ^ 42 % 512) (accKind a.op.reads a.op.writes) a.shown with
      | .ok (pa, page, size) => .ok { a with
          addr := hbmKey (s.hart.canon a.shown / 2 ^ 53 % 256) (s.hart.canon a.shown / 2 ^ 51 % 4) pa, via := some (v.1, page, size) }
      | .error (.inl f) => .error f
      | .error (.inr _) => .ok a := by
  rw [State.arrival, hv]
  exact if_neg (by rintro ⟨h1, h2⟩; exact far.elim (· h1) (· h2))

/-- The key that authenticates an access is dropped at its package. -/
theorem unauthentic_iff : s.unauthentic a = true ↔ ∃ p die, a.slice = .remote p die ∧
    ∃ e, s.memberOf s.hart.pkg s.hart.asid = some e ∧ ∃ o ∈ (s.pack p).huane.applied, o.enclave = e.1.id ∧ o.member = e.2 := by
  unfold State.unauthentic State.keyDropped
  cases a.slice with
  | remote p die =>
    cases s.memberOf s.hart.pkg s.hart.asid with
    | none => simp
    | some e => simp
  | vault => simp
  | l2 => simp
  | host => simp

theorem accessArrival : accessArrivalRule := by
  unfold accessArrivalRule
  intro s i a hi t c pkg die k page failed
  have to_failed : ∀ {cause home}, t = s.mapHart (·.hitAt cause i a home) → failed cause home := fun e => by
    dsimp only [failed]; rw [e]; exact hitAt_failed ..
  refine ⟨fun own => ?own, fun hv far => ?far, fun hu => ⟨fun hr => ?read, fun hr => ?write⟩, unauthentic_iff⟩
  case own =>
    unfold State.arrival
    rcases hv : a.via with _ | ⟨asid, x, y⟩
    · rfl
    · exact if_pos (own.resolve_left (by rw [hv]; exact nofun))
  case far =>
    obtain ⟨v, hv⟩ := Option.ne_none_iff_exists'.1 hv
    have e := arrival_far hv far
    have same : page = s.translate s.hart pkg die v.1 (c % 2 ^ 42) (c / 2 ^ 42 % 512) (accKind a.op.reads a.op.writes) a.shown := by
      dsimp only [page, k]; rw [hv, accKind_eq]; rfl
    rw [← same] at e
    refine ⟨fun pa lo n hp => ?_, fun f hp hu => ?_⟩
    · rw [hp] at e
      exact ⟨_, e, rfl, rfl, rfl, rfl⟩
    · rw [hp] at e
      exact to_failed (performAt_refused hi hu e)
  case read =>
    refine to_failed ?_
    rw [show t = _ from performAt_unauthentic hi hu, hr]; rfl
  case write =>
    rw [show t = _ from performAt_unauthentic hi hu, hr]
    refine ⟨rfl, ?_, ?_⟩
    · exact Hart.afterAccess_pend ..
    · exact Hart.afterAccess_hits ..
end Sys2Proof.Machine
end

section
/-! SUPPORT. What a vector access does at its home (R235). -/

namespace Sys2Proof.Machine
variable {s t : State}

/-! ### Vector accesses -/

/-- The element that a loaded datum of a format becomes. -/
def elementOf (fmt : MemFmt) (high : Bool) (sc : Option Byte) (rnd : Rnd) (sat : Bool) (x : Nat) : Quad :=
  let datum := if fmt = .e2m1 then (if high then x / 16 else x % 16) else x
  match sc with
  | none => widen fmt datum
  | some k => (widenScaled fmt datum k rnd sat).1

theorem Hart.deliver_v_v (h : Hart) (d : VReg) (e : Nat) (fmt : MemFmt) (high : Bool) (sc : Option Byte) (rnd : Rnd) (sat : Bool)
    (n x : Nat) : (h.deliver (.v d e fmt high sc rnd sat) n x).v =
      (h.setVElem d fmt.tag.wide e (elementOf fmt high sc rnd sat x)).v := by
  unfold Hart.deliver elementOf
  cases sc <;> rfl

theorem Hart.deliver_v_s (h : Hart) (d : VReg) (e : Nat) (fmt : MemFmt) (high : Bool) (sc : Option Byte) (rnd : Rnd) (sat : Bool)
    (n x : Nat) : (h.deliver (.v d e fmt high sc rnd sat) n x).s = h.s := by
  unfold Hart.deliver
  cases sc <;> rfl

/-- A byte whose nibble is replaced. -/
def withNibble (high : Bool) (old x : Nat) : Nat := if high then old % 16 + 16 * (x % 16) else old / 16 * 16 + x % 16

theorem applyExchange (s : State) (a : Access) (fwd : Option Nat) {x : Nat} {d : VReg} {e : Nat} {fmt : MemFmt} {high : Bool}
    {sc : Option Byte} {rnd : Rnd} {sat : Bool} (h : a.op = .exchange x (.v d e fmt high sc rnd sat)) :
    (s.applyAccess a fwd).hart = s.hart.deliver (.v d e fmt high sc rnd sat) a.size (readN s.mem a.addr a.size) ∧
      (s.applyAccess a fwd).mem = if fmt = .e2m1 then s.put a.addr 1 (withNibble high (readN s.mem a.addr a.size) x)
        else s.put a.addr a.size x := by
  unfold State.applyAccess
  rw [h]
  cases fmt <;> exact ⟨rfl, rfl⟩

theorem readN_one (m : List Host.Cell) (a : Nat) : readN m a 1 = (readByte m a).toNat := by
  rw [readN, readN]; omega

/-- A merged update leaves the value that all its operands make in turn, and each element the value before its own. -/
theorem vamoApply_eq (op : AmoOp) (tag : Tag) : ∀ (es : List (Nat × Quad)) (v : Quad),
    vamoApply op tag es v = (es.foldl (fun v p => amoApply op tag.wide v p.2) v,
      (es.zip (List.range es.length)).map fun p =>
        (p.1.1, (es.take p.2).foldl (fun v p => amoApply op tag.wide v p.2) v))
  | [], v => rfl
  | (j, x) :: r, v => by
    rw [vamoApply, vamoApply_eq op tag r]
    simp only [List.foldl_cons, List.length_cons, List.range_succ_eq_map, List.zip_cons_cons, List.map_cons, List.take_zero,
      List.foldl_nil, List.zip_map_right, List.map_map, Function.comp_def, Prod.map, id, List.take_succ_cons]

/-- A merged update at its home: the last value is written, and each element that has a register gets its own. -/
theorem applyVamo (s : State) (a : Access) (fwd : Option Nat) {op : AmoOp} {tag : Tag} {es : List (Nat × Quad)} {dst : Option VReg}
    (h : a.op = .vamo op tag es dst) : s.applyAccess a fwd =
      let r := vamoApply op tag es (BitVec.ofNat 64 (readN s.mem a.addr a.size))
      (s.store a.addr a.size r.1.toNat false).setHart (dst.elim s.hart fun d =>
        r.2.foldl (fun h p => h.setVElem d tag.wide p.1 p.2) s.hart) := by
  cases a
  cases h
  cases dst <;> rfl

theorem Hart.setVElems_s (d : VReg) (wide : Bool) (l : List (Nat × Quad)) (h : Hart) :
    (l.foldl (fun h p => h.setVElem d wide p.1 p.2) h).s = h.s := by
  obtain ⟨v, e⟩ := Hart.setVElems_shape d wide l h
  rw [e]

theorem vectorAccessEffects : vectorAccessEffectsRule := by
  unfold vectorAccessEffectsRule
  intro s i a0 a hi hu ha hf hp t old nibble loaded
  obtain ⟨hm, hs, hv, -⟩ := performAt_parts hi hu ha hf hp
  refine ⟨fun d e fmt high sc rnd sat => ⟨fun ho => ?load, fun x ho => ?exchange⟩, fun high x ho h1 => ?nibble,
    fun op tag es dst ho => ?vamo⟩
  case load =>
    rw [hm, hs, hv, State.applyAccess, ho]
    exact ⟨rfl, Hart.deliver_v_s (n := a.size) .., Hart.deliver_v_v (n := a.size) ..⟩
  case exchange =>
    obtain ⟨hh, hmem⟩ := applyExchange s a none ho
    rw [hm, hs, hv, hh]
    exact ⟨Hart.deliver_v_s .., Hart.deliver_v_v .., hmem⟩
  case nibble =>
    rw [hm, hs, hv, State.applyAccess, ho]
    refine ⟨?_, rfl, rfl⟩
    dsimp only [nibble, old]
    rw [h1, readN_one]; rfl
  case vamo =>
    intro apply before
    rw [hm, hs, hv, applyVamo s a none ho, vamoApply_eq]
    refine ⟨?_, ?_, ?_⟩
    · dsimp only [before]
      rw [List.take_length]; rfl
    · cases dst with
      | none => rfl
      | some d => exact Hart.setVElems_s ..
    · cases dst with
      | none => rfl
      | some d => exact congrArg Hart.v List.foldl_map

/-- Settles O11: where an access arrives is fixed by what no access changes (`State.arrival_of_steady`), so each writes its own
bytes alone; what it does there is its application (`performAt_parts`), and what a write does to a block is `State.heldByte_bit`
for each of its bytes. -/
theorem performingAccesses : Obligations.PerformingAccesses :=
  ⟨accessesStoreWhereTheySay, scalarUsesWaitForLoads, accessEffects, accessArrival, vectorAccessEffects, registerBlocksInMemory⟩
end Sys2Proof.Machine
end

section
/-! SUPPORT. Package reset, the bring-up block and GO (R405 to R407). -/

namespace Sys2Proof.Machine
variable {s t : State} {pkg : Nat}

/-! ### Association lists -/

theorem assocGet_assocSet {α : Type} (l : List (Nat × α)) (k j : Nat) (v d : α) :
    assocGet (assocSet l k v) j d = if j = k then v else assocGet l j d := by
  have h : ∀ l : List (Nat × α), j ≠ k → (l.filter (·.1 != k)).find? (·.1 == j) = l.find? (·.1 == j) := by
    intro l hj
    rw [List.find?_filter]
    congr 1
    funext p
    by_cases e : p.1 = j
    · simp [e, hj]
    · simp [e]
  unfold assocGet assocSet
  by_cases e : j = k
  · simp [e]
  · rw [List.find?_cons, show (k == j) = false by simpa using Ne.symm e, if_neg e, h l e]

/-! ### Packages -/

theorem onlyPacks_refl (s : State) (ps : List Nat) : OnlyPacks s s ps := ⟨rfl, rfl, rfl, fun _ _ => rfl⟩

theorem onlyPacks_trans {u : State} {ps : List Nat} (h : OnlyPacks s t ps) (k : OnlyPacks t u ps) : OnlyPacks s u ps := by
  obtain ⟨h1, h2, h3, h4⟩ := h
  obtain ⟨k1, k2, k3, k4⟩ := k
  exact ⟨k1.trans h1, k2.trans h2, k3.trans h3, fun p hp => (k4 p hp).trans (h4 p hp)⟩

/-! ### The bring-up block -/

/-- LCS stands above STATE in quad 0 of the block. -/
theorem fieldOf_state (l : BitVec 4) (n : Fin 16) : fieldOf ((l.setWidth 64 <<< 4) ||| BitVec.ofNat 64 n.val) 0 4 = n.val := by
  revert l n; decide

theorem fieldOf_lcs (l : BitVec 4) (n : Fin 16) : fieldOf ((l.setWidth 64 <<< 4) ||| BitVec.ofNat 64 n.val) 4 4 = l.toNat := by
  revert l n; decide

theorem State.block_of_pack {p : Package} (h : s.pack pkg = p) (quad : Nat) : s.block pkg quad =
    let q := assocGet p.block quad (if quad = 10 then 0x320000007D0 else 0)
    if quad = 0 then (p.huane.lcs.setWidth 64 <<< 4) ||| q else q := by
  rw [State.block, h]

theorem State.pack_setBlock (s : State) (pkg quad : Nat) (v : Quad) :
    (s.setBlock pkg quad v).pack pkg = { s.pack pkg with block := assocSet (s.pack pkg).block quad v } :=
  s.pack_setPack_eq (s.pack_pkg pkg)

theorem State.onlyPacks_setBlock (s : State) (pkg quad : Nat) (v : Quad) : OnlyPacks s (s.setBlock pkg quad v) [pkg] :=
  s.onlyPacks_setPack (s.pack_pkg pkg)

theorem State.block_setBlock_other (s : State) {pkg quad i : Nat} (v : Quad) (h : i ≠ quad) :
    (s.setBlock pkg quad v).block pkg i = s.block pkg i := by
  rw [State.block_of_pack (s.pack_setBlock pkg quad v), State.block_of_pack rfl]
  dsimp only
  rw [assocGet_assocSet, if_neg h]

theorem State.block_setBlock_same (s : State) {pkg quad : Nat} (v : Quad) (h : quad ≠ 0) :
    (s.setBlock pkg quad v).block pkg quad = v := by
  rw [State.block_of_pack (s.pack_setBlock pkg quad v)]
  dsimp only
  rw [assocGet_assocSet, if_pos rfl, if_neg h]

theorem State.block_setBlock_zero (s : State) (pkg : Nat) (v : Quad) :
    (s.setBlock pkg 0 v).block pkg 0 = ((s.pack pkg).huane.lcs.setWidth 64 <<< 4) ||| v := by
  rw [State.block_of_pack (s.pack_setBlock pkg 0 v)]
  dsimp only
  rw [assocGet_assocSet, if_pos rfl, if_pos rfl]

/-! ### A package reset -/

/-- The package whose turn is over gives way to a placed one. -/
theorem State.someTurn_harts {h : Hart} (hh : h ∈ s.someTurn.harts) : h ∈ s.harts := by
  unfold State.someTurn at hh
  split at hh
  · next v x r hv ho =>
    rw [State.harts, if_pos hv, ho]
    unfold State.harts at hh
    dsimp only at hh
    split at hh
    · exact List.mem_cons_of_mem _ hh
    · exact hh
  · exact hh

@[simp] theorem State.someTurn_poison (s : State) : s.someTurn.poison = s.poison := by unfold State.someTurn; split <;> rfl
@[simp] theorem State.someTurn_pkgs (s : State) : s.someTurn.pkgs = s.pkgs := by unfold State.someTurn; split <;> rfl
@[simp] theorem State.someTurn_ended (s : State) : s.someTurn.ended = s.ended := by unfold State.someTurn; split <;> rfl
theorem State.someTurn_pack (s : State) (p : Nat) : s.someTurn.pack p = s.pack p := by simp only [State.pack, State.someTurn_pkgs]
theorem State.someTurn_block (s : State) (p q : Nat) : s.someTurn.block p q = s.block p q := by
  simp only [State.block, State.someTurn_pack]

/-- Every image has a slot from which it runs. -/
def State.verified (s : State) (pkg : Nat) : Bool := images.all fun i => ((s.pack pkg).huane.boots s.free i).isSome

theorem State.verified_iff : s.verified pkg = true ↔ ∀ i < 3, ((s.pack pkg).huane.boots s.free i).isSome = true := by
  rw [State.verified, List.all_eq_true]
  constructor
  · intro h i hi
    refine h i ?_
    rw [images]; interval_cases i <;> decide
  · intro h i hi
    refine h i ?_
    rw [images] at hi
    simp at hi; omega

theorem resetPackage_pack (s : State) (pkg : Nat) : (s.resetPackage pkg).pack pkg =
    { pkg := pkg, resetClock := s.clock, huane := (s.pack pkg).huane.kept s.free,
      block := [(0, if s.verified pkg then 3 else 1), (10, 800 * 2 ^ 32 + 2000)] } := by
  unfold State.resetPackage
  exact State.pack_setPack _ _

theorem resetPackage_mem (s : State) (pkg : Nat) :
    (s.resetPackage pkg).mem = if s.verified pkg then s.mem.filter fun c => !inPackage pkg c.1 else s.mem := by
  unfold State.resetPackage State.verified
  dsimp only
  rw [State.setPack_mem]
  split <;> rfl

theorem resetPackage_poison (s : State) (pkg : Nat) :
    (s.resetPackage pkg).poison = if s.verified pkg then s.poison.filter fun g => !inPackage pkg (32 * g) else s.poison := by
  unfold State.resetPackage State.verified
  dsimp only
  rw [State.setPack_poison]
  split <;> rfl

theorem resetPackage_ended (s : State) (pkg : Nat) : (s.resetPackage pkg).ended = s.ended.filter (·.pkg != pkg) := by
  unfold State.resetPackage
  dsimp only [State.setPack]
  split <;> rfl

theorem resetPackage_others (s : State) (pkg : Nat) : (s.resetPackage pkg).others = s.others.filter (·.pkg != pkg) := by
  unfold State.resetPackage
  dsimp only [State.setPack]
  split <;> rfl

theorem resetPackage_hart (s : State) (pkg : Nat) : (s.resetPackage pkg).hart = if s.hart.pkg != pkg then s.hart else {} := by
  unfold State.resetPackage
  dsimp only [State.setPack]
  split <;> rfl

theorem resetPackage_harts {h : Hart} (hh : h ∈ (s.resetPackage pkg).harts) : h.pkg ≠ pkg := by
  have others : h ∈ (s.resetPackage pkg).others → h.pkg ≠ pkg := fun k => by
    rw [resetPackage_others] at k
    simpa using (List.mem_filter.1 k).2
  unfold State.harts at hh
  split at hh
  · exact others hh
  · next v =>
    rcases List.mem_cons.1 hh with e | k
    · rw [resetPackage_hart] at v e
      split at e
      · next c => rw [e]; simpa using c
      · next c => rw [if_neg c] at v; exact absurd rfl v
    · exact others k

theorem resetPackage_block (s : State) (pkg : Nat) : (s.resetPackage pkg).block pkg 0 =
    ((s.pack pkg).huane.lcs.setWidth 64 <<< 4) ||| (if s.verified pkg then 3 else 1) := by
  rw [State.block_of_pack (resetPackage_pack s pkg)]; rfl

theorem resetPackage_state (s : State) (pkg : Nat) :
    fieldOf ((s.resetPackage pkg).block pkg 0) 0 4 = if s.verified pkg then 3 else 1 := by
  rw [resetPackage_block]
  split
  · exact fieldOf_state _ 3
  · exact fieldOf_state _ 1

theorem resetPackage_lcs (s : State) (pkg : Nat) :
    fieldOf ((s.resetPackage pkg).block pkg 0) 4 4 = (s.pack pkg).huane.lcs.toNat := by
  rw [resetPackage_block]
  split
  · exact fieldOf_lcs _ 3
  · exact fieldOf_lcs _ 1

theorem kept_active (h : Huane) (free i : Nat) (hi : i < 3) (hb : (h.boots free i).isSome = true) :
    some (assocGet (h.kept free).active i 0) = h.boots free i := by
  obtain ⟨k, e⟩ := Option.isSome_iff_exists.1 hb
  have get : assocGet (h.kept free).active i 0 = (h.boots free i).getD (assocGet h.active i 0) := by
    interval_cases i <;> rfl
  rw [get, e]; rfl

/-- The slot of an image whose versions are listed: A where its version is good, else B where that is. -/
theorem boots_of_listed {h : Huane} {i : Nat} {a b : Option Nat} (free : Nat) (e : h.slots.find? (·.1 == i) = some (i, a, b)) :
    let good := fun (x : Option Nat) => ∃ n, x = some n ∧ assocGet h.least i 0 ≤ n
    (good a → h.boots free i = some 0) ∧ (¬good a → good b → h.boots free i = some 1) ∧
      (¬good a → ¬good b → h.boots free i = none) := by
  intro good
  have flash : h.flash free i = (a, b) := by rw [Huane.flash, e]
  have any_iff : ∀ x : Option Nat, (x.any fun n => decide (assocGet h.least i 0 ≤ n)) = true ↔ good x := by
    intro x
    cases x <;> simp [good]
  unfold Huane.boots
  rw [flash]
  dsimp only
  refine ⟨fun ha => ?_, fun ha hb => ?_, fun ha hb => ?_⟩
  · rw [if_pos ((any_iff a).2 ha)]
  · rw [if_neg (ha ∘ (any_iff a).1), if_pos ((any_iff b).2 hb)]
  · rw [if_neg (ha ∘ (any_iff a).1), if_neg (hb ∘ (any_iff b).1)]

/-! ### GO and the bases -/

theorem anyBaseBad_iff (s : State) (pkg : Nat) :
    ((List.range 9).any fun i => decide (1 ≤ i) && s.baseBad pkg i) = true ↔ ∃ i, 1 ≤ i ∧ i ≤ 8 ∧ s.baseBad pkg i = true := by
  rw [List.any_eq_true]
  constructor
  · rintro ⟨i, hi, h⟩
    obtain ⟨h1, h2⟩ := Bool.and_eq_true_iff.1 h
    exact ⟨i, of_decide_eq_true h1, by have := List.mem_range.1 hi; omega, h2⟩
  · rintro ⟨i, h1, h8, h⟩
    exact ⟨i, List.mem_range.2 (by omega), Bool.and_eq_true_iff.2 ⟨decide_eq_true h1, h⟩⟩

theorem exec_packageReset (pkg : Nat) (s : State) : exec (.packageReset pkg) s = .next (s.resetPackage pkg).someTurn := rfl
theorem exec_go (pkg : Nat) (s : State) : exec (.go pkg) s = execGo pkg s := rfl
theorem exec_registerWrite (pkg : Nat) (r : RegId) (v : Quad) (s : State) :
    exec (.registerWrite pkg r v) s = execRegisterWrite pkg r v s := rfl

theorem bringUp : bringUpRules := by
  unfold bringUpRules
  intro s pkg quad value
  refine ⟨⟨_, exec_packageReset pkg s, fun h hh => resetPackage_harts (State.someTurn_harts hh), ?ended, ?kept, ?verified, ?lcs, ?caps,
    ?huane, ?gangs, ?waiting⟩, ?go, ?base⟩
  case ended =>
    intro h hh
    rw [State.someTurn_ended, resetPackage_ended] at hh
    simpa using (List.mem_filter.1 hh).2
  case kept =>
    intro c hc out
    rw [State.someTurn_mem, resetPackage_mem]
    split
    · exact List.mem_filter.2 ⟨hc, by rw [out]; rfl⟩
    · exact hc
  case verified =>
    intro h ok
    refine ⟨fun hok => ?_, fun hok => ?_, fun i a b e => boots_of_listed s.free e⟩
    · have v := State.verified_iff.2 hok
      rw [State.someTurn_block, State.someTurn_mem, State.someTurn_poison, State.someTurn_pack, resetPackage_state, resetPackage_mem,
        resetPackage_poison, resetPackage_pack, v]
      refine ⟨rfl, fun c hc => by simpa using (List.mem_filter.1 hc).2, fun g hg => by simpa using (List.mem_filter.1 hg).2, ?_⟩
      exact fun i hi => kept_active h s.free i hi (hok i hi)
    · rw [State.someTurn_block, resetPackage_state, if_neg fun k => hok (State.verified_iff.1 k)]
  case lcs => rw [State.someTurn_block, resetPackage_lcs]
  case caps =>
    rw [State.someTurn_block, State.block_of_pack (resetPackage_pack s pkg)]; rfl
  case huane => rw [State.someTurn_pack, resetPackage_pack]; rfl
  case gangs => rw [State.someTurn_pack, resetPackage_pack]
  case waiting => rw [State.someTurn_pack, resetPackage_pack]
  case go =>
    intro hgo hst bad
    refine ⟨_, (exec_go pkg s).trans (if_neg ?_), onlyPacks_trans (s.onlyPacks_setBlock pkg 9 0) (State.onlyPacks_setBlock _ pkg 0 _), ?_,
      fun hb => ?_, fun hb => ?_⟩
    · rw [hgo]; simp; omega
    · rw [State.block_setBlock_other _ _ (by decide), State.block_setBlock_same _ _ (by decide)]
    · rw [State.block_setBlock_zero, if_pos ((anyBaseBad_iff s pkg).2 hb)]
      exact fieldOf_state _ 5
    · rw [State.block_setBlock_zero, if_neg fun k => hb ((anyBaseBad_iff s pkg).1 k)]
      exact fieldOf_state _ 4
  case base =>
    intro h1 h8 hr
    have mask : blockMask quad = 0x7FFFFFFFFF := if_pos ⟨h1, h8⟩
    refine ⟨s.setBlock pkg quad (value &&& 0x7FFFFFFFFF), ?_, s.onlyPacks_setBlock pkg quad _, s.block_setBlock_same _ (by omega),
      fun i hi => s.block_setBlock_other _ hi⟩
    rw [exec_registerWrite, execRegisterWrite, mask, hr, if_neg (by simp)]
end Sys2Proof.Machine
end

section
/-! SUPPORT. Register writes and the poll of the mailbox (R408, R409). -/

namespace Sys2Proof.Machine
variable {s t : State} {pkg : Nat}

/-! ### Register writes -/

theorem registers : registerRules := by
  unfold registerRules
  intro s pkg v
  refine ⟨fun f idx quad q hq hr => ?queue, fun port b hp hb => ?port, fun b hb => ?slot, fun die hd hr => ?ring,
    fun ring a hr ha => ⟨?tail, ?badtail⟩⟩
  case queue =>
    rw [exec_registerWrite, execRegisterWrite]
    rw [hq]
    dsimp only
    rw [if_pos hr]
  case port =>
    rw [exec_registerWrite, execRegisterWrite]
    rw [hb]
    dsimp only
    rw [if_pos hp]; rfl
  case slot =>
    rw [exec_registerWrite, execRegisterWrite]
    rw [State.setSlotStatus, hb]
  case ring =>
    rw [exec_registerWrite, execRegisterWrite]
    rw [hr, if_pos (by simpa using hd)]
  case tail =>
    rw [exec_registerWrite, execRegisterWrite]
    rw [ha]
    dsimp only
    rw [if_neg (by omega), if_pos rfl]
  case badtail =>
    rw [exec_registerWrite, execRegisterWrite]
    rw [ha]
    dsimp only
    rw [if_neg (by omega), if_neg (by decide), if_pos rfl]; rfl

/-! ### Huane's own record -/

theorem State.pack_onHuane (s : State) (pkg : Nat) (f : Huane → Huane) :
    (s.onHuane pkg f).pack pkg = { s.pack pkg with huane := f (s.pack pkg).huane } := s.pack_setPack_eq (s.pack_pkg pkg)

theorem State.onlyPacks_onHuane (s : State) (pkg : Nat) (f : Huane → Huane) : OnlyPacks s (s.onHuane pkg f) [pkg] :=
  s.onlyPacks_setPack (s.pack_pkg pkg)

/-- A change of Huane's record that leaves the life-cycle state leaves the block. -/
theorem State.sameBlocks_onHuane (s : State) (pkg : Nat) {f : Huane → Huane} (hf : (f (s.pack pkg).huane).lcs = (s.pack pkg).huane.lcs) :
    SameBlocks s (s.onHuane pkg f) := by
  intro p q
  by_cases e : p = pkg
  · subst e
    rw [State.block_of_pack (s.pack_onHuane p f), State.block_of_pack rfl]
    dsimp only
    rw [hf]
  · have h := (s.onlyPacks_onHuane pkg f).2.2.2 p (by simpa using e)
    rw [State.block, State.block, h]

theorem SameBlocks.ringAt (h : SameBlocks s t) (p ring : Nat) : t.ringAt p ring = s.ringAt p ring := by
  unfold State.ringAt State.baseAt; rw [h, h]

/-! ### A poll -/

/-- The oldest command of a ring, where Huane has seen one. -/
theorem State.command_some {ring a : Nat} {q : List Quad} (ha : s.ringAt pkg ring = some a) (h : s.command pkg ring = some q) :
    assocGet (s.pack pkg).huane.tails ring (s.ringHead a) ≠ s.ringHead a ∧ q = readQuads s.mem (slotAt a (s.ringHead a)) 8 := by
  unfold State.command at h
  rw [ha] at h
  dsimp only at h
  split at h
  · cases h
  · next c =>
    cases h
    exact ⟨fun e => c (.inr (.inl e)), rfl⟩

/-- Huane has seen the TAIL of a ring. -/
def seen (ring : Nat) (tail : Word) (h : Huane) : Huane := { h with tails := assocSet h.tails ring tail }

/-- A ring is polled whose TAIL is in range and whose oldest command has a code of R408. -/
def RingInOrder (s : State) (pkg ring : Nat) : Prop :=
  ∀ a, s.ringAt pkg ring = some a → (readWord s.mem a - s.ringHead a).toNat ≤ 32 ∧
    (readWord s.mem a ≠ s.ringHead a → let c := cmdCode (readQuads s.mem (slotAt a (s.ringHead a)) 8); 1 ≤ c ∧ c ≤ 8)

theorem pollRing_inOrder {ring a : Nat} (ha : s.ringAt pkg ring = some a) (h : RingInOrder s pkg ring) :
    s.pollRing pkg ring = s.onHuane pkg (seen ring (readWord s.mem a)) := by
  obtain ⟨hr, hc⟩ := h a ha
  have ha' : (s.onHuane pkg (seen ring (readWord s.mem a))).ringAt pkg ring = some a := by
    rw [(s.sameBlocks_onHuane pkg (f := seen ring (readWord s.mem a)) rfl).ringAt, ha]
  unfold State.pollRing
  rw [ha]
  dsimp only
  rw [if_neg (Nat.not_lt.2 hr)]
  change (match (s.onHuane pkg (seen ring (readWord s.mem a))).command pkg ring with
    | none => _
    | some q => _) = _
  split
  · rfl
  · next q hq =>
    obtain ⟨hne, rfl⟩ := State.command_some ha' hq
    rw [State.pack_onHuane] at hne
    dsimp only [seen] at hne
    rw [assocGet_assocSet, if_pos rfl] at hne
    obtain ⟨h1, h8⟩ := hc hne
    exact if_neg (not_or.2 ⟨by change ¬cmdCode (readQuads s.mem (slotAt a (s.ringHead a)) 8) = 0; omega,
      by change ¬9 ≤ cmdCode (readQuads s.mem (slotAt a (s.ringHead a)) 8); omega⟩)

/-- What a poll of some rings has done. -/
structure Polled (s v : State) (pkg : Nat) (rings : List Nat) : Prop where
  packs : OnlyPacks s v [pkg]
  blocks : SameBlocks s v
  tails : ∀ r ∈ rings, ∀ a, s.ringAt pkg r = some a → assocGet (v.pack pkg).huane.tails r 0 = readWord s.mem a

theorem pollRing_polled {rings : List Nat} {v : State} {ring : Nat} (h : Polled s v pkg rings) (hr : RingInOrder s pkg ring) :
    Polled s (v.pollRing pkg ring) pkg (ring :: rings) := by
  obtain ⟨hp, hb, ht⟩ := h
  cases ha : s.ringAt pkg ring with
  | none =>
    have e : v.pollRing pkg ring = v := by
      unfold State.pollRing; rw [hb.ringAt, ha]
    rw [e]
    refine ⟨hp, hb, fun r k a hra => ?_⟩
    rcases List.mem_cons.1 k with rfl | k
    · rw [ha] at hra; cases hra
    · exact ht r k a hra
  | some a =>
    have mem : v.mem = s.mem := hp.1
    have order : RingInOrder v pkg ring := by
      unfold RingInOrder State.ringHead
      rw [hb.ringAt, mem]
      exact hr
    rw [pollRing_inOrder ((hb.ringAt ..).trans ha) order]
    refine ⟨onlyPacks_trans hp (v.onlyPacks_onHuane ..), hb.trans (v.sameBlocks_onHuane _ rfl), fun r k b hb' => ?_⟩
    rw [State.pack_onHuane]
    dsimp only [seen]
    rw [assocGet_assocSet, mem]
    split
    · next e =>
      subst e
      rw [Option.some.inj (ha.symm.trans hb')]
    · next e => exact ht r ((List.mem_cons.1 k).resolve_left e) b hb'

theorem pollRings_polled : ∀ (l : List Nat) {rings : List Nat} {v : State}, Polled s v pkg rings → (∀ r ∈ l, RingInOrder s pkg r) →
    Polled s (l.foldl (fun v r => v.pollRing pkg r) v) pkg (l.reverse ++ rings)
  | [], _, _, h, _ => h
  | r :: l, rings, v, h, hl => by
    rw [List.foldl_cons, List.reverse_cons, List.append_assoc]
    exact pollRings_polled l (pollRing_polled h (hl r List.mem_cons_self)) fun r' k => hl r' (List.mem_cons_of_mem _ k)

theorem exec_mailboxPoll (pkg : Nat) (s : State) : exec (.mailboxPoll pkg) s = execMailboxPoll pkg s := rfl

theorem poll_sees (h : ∀ r, r < 17 → RingInOrder s pkg r) : ∃ v, exec (.mailboxPoll pkg) s = .next v ∧ OnlyPacks s v [pkg] ∧
    ∀ r, r < 17 → ∀ a, s.ringAt pkg r = some a → assocGet (v.pack pkg).huane.tails r 0 = readWord s.mem a := by
  obtain ⟨hp, -, ht⟩ := pollRings_polled (s := s) (pkg := pkg) (List.range 17) (rings := [])
    ⟨onlyPacks_refl s _, .refl s, fun _ k => nomatch k⟩ fun r k => h r (List.mem_range.1 k)
  exact ⟨_, exec_mailboxPoll pkg s, hp, fun r hr => ht r (by simpa using hr)⟩

/-! ### Commands -/

/-- A command that is due runs: what is left is what its body does. -/
theorem runCommand_of_commanded {ring code : Nat} {q : List Quad} {bytes : List Byte} (h : Commanded s pkg ring code q bytes)
    (body : List Quad → List Byte → State × Option Reply) : s.runCommand pkg ring code body =
      (body q bytes).2.elim (body q bytes).1 fun r => (body q bytes).1.endCommand pkg ring r := by
  obtain ⟨hc, hcode, hr, h0, h6, hi⟩ := h
  unfold State.runCommand
  rw [hc]
  dsimp only
  have runs : ¬(cmdCode q ≠ code ∨ code ≠ 1 ∧ (!s.partRuns pkg) = true) := by
    rintro (k | ⟨h1, h2⟩)
    · exact k hcode
    · rw [hr.resolve_left h1] at h2; cases h2
  rw [if_neg runs, if_neg (not_or.2 ⟨not_not.2 h0, not_not.2 h6⟩), hi]
  dsimp only
  cases (body q bytes).2 <;> rfl
end Sys2Proof.Machine
end

section
/-! SUPPORT. The mailbox commands on images and partitions (R409, R412). -/

namespace Sys2Proof.Machine
variable {s t : State} {pkg ring : Nat} {q : List Quad} {bytes : List Byte}

/-! ### The mailbox commands on partitions -/

/-- A command of one ring whose body answers. -/
theorem runCommand_answers {code : Nat} (h : Commanded s pkg ring code q bytes) {body : List Quad → List Byte → State × Option Reply}
    {u : State} {r : Reply} (e : body q bytes = (u, some r)) : s.runCommand pkg ring code body = u.endCommand pkg ring r := by
  rw [runCommand_of_commanded h, e]; rfl

theorem runCommand_goes_on {code : Nat} (h : Commanded s pkg ring code q bytes) {body : List Quad → List Byte → State × Option Reply}
    {u : State} (e : body q bytes = (u, none)) : s.runCommand pkg ring code body = u := by
  rw [runCommand_of_commanded h, e]; rfl

theorem exec_fwload (pkg ring : Nat) (s : State) : exec (.fwload pkg ring) s = execFwload pkg ring s := rfl
theorem exec_pcreate (pkg ring : Nat) (s : State) : exec (.pcreate pkg ring) s = execPcreate pkg ring s := rfl
theorem exec_ptear (pkg ring : Nat) (s : State) : exec (.ptear pkg ring) s = execPtear pkg ring s := rfl
theorem exec_partitionRelease (pkg part : Nat) (s : State) : exec (.partitionRelease pkg part) s = execPartitionRelease pkg part s := rfl

/-- The slots of an image once a version of it is loaded into the one that does not run. -/
def Huane.loaded (h : Huane) (i version : Nat) : Option Nat × Option Nat :=
  let now := match h.slots.find? (·.1 == i) with
    | some x => x.2
    | none => (none, none)
  if assocGet h.active i 0 = 0 then (now.1, some version) else (some version, now.2)

theorem Huane.loaded_B {h : Huane} {i : Nat} (version : Nat) (a : assocGet h.active i 0 = 0) : (h.loaded i version).2 = some version := by
  unfold Huane.loaded; rw [if_pos a]

theorem Huane.loaded_A {h : Huane} {i : Nat} (version : Nat) (a : assocGet h.active i 0 ≠ 0) : (h.loaded i version).1 = some version := by
  unfold Huane.loaded; rw [if_neg a]

/-- FWLOAD: what the image's verification says decides. -/
theorem fwload_answers (hc : Commanded s pkg ring 1 q bytes) (h0 : ring = 0) (hi : (q.getD 1 0).toNat ≤ 2) (hz : q.getD 2 0 = 0) :
    match Config.firmware bytes with
    | none => exec (.fwload pkg ring) s = .next (s.endCommand pkg ring { status := 4 })
    | some version =>
      (version < assocGet (s.pack pkg).huane.least (q.getD 1 0).toNat 0 →
        exec (.fwload pkg ring) s = .next (s.endCommand pkg ring { status := 4 })) ∧
      (assocGet (s.pack pkg).huane.least (q.getD 1 0).toNat 0 ≤ version → ∃ x, exec (.fwload pkg ring) s = .next
          ((s.onHuane pkg fun h => { h with slots := ((q.getD 1 0).toNat, x) :: h.slots.filter (·.1 != (q.getD 1 0).toNat) }).endCommand
            pkg ring { status := 0, result := BitVec.ofNat 64 version }) ∧
        (assocGet (s.pack pkg).huane.active (q.getD 1 0).toNat 0 = 0 → x.2 = some version) ∧
        (assocGet (s.pack pkg).huane.active (q.getD 1 0).toNat 0 ≠ 0 → x.1 = some version)) := by
  have head : ¬(2 < (q.getD 1 0).toNat ∨ q.getD 2 0 ≠ 0) := not_or.2 ⟨Nat.not_lt.2 hi, not_not.2 hz⟩
  rw [exec_fwload, execFwload]
  cases hv : Config.firmware bytes with
  | none =>
    dsimp only
    refine congrArg _ (runCommand_answers hc ?_)
    rw [if_neg (not_not.2 h0), if_neg head, hv]
  | some version =>
    dsimp only
    refine ⟨fun old => congrArg _ (runCommand_answers hc ?_), fun new => ?_⟩
    · rw [if_neg (not_not.2 h0), if_neg head, hv]
      exact if_pos old
    · refine ⟨(s.pack pkg).huane.loaded (q.getD 1 0).toNat version, congrArg _ (runCommand_answers hc ?_), Huane.loaded_B version,
        Huane.loaded_A version⟩
      rw [if_neg (not_not.2 h0), if_neg head, hv]
      exact if_neg (Nat.not_lt.2 new)

/-- PCREATE of resources that no partition holds. -/
theorem pcreate_answers {rs : List Resource} (hc : Commanded s pkg ring 2 q bytes) (h0 : ring = 0) (hf : (q.getD 1 0).toNat ≤ 16)
    (hz : q.getD 2 0 = 0) (hr : resourceList (bytes.length + 1) bytes = some rs) (hp : s.partitionOn pkg (q.getD 1 0).toNat = none)
    (free : ∀ p ∈ (s.pack pkg).huane.partitions, ∀ a ∈ p.resources, ∀ b ∈ rs, a.overlaps b = false) :
    exec (.pcreate pkg ring) s = .next (((s.onHuane pkg fun h => { h with
      partitions := h.partitions ++ [{ id := (s.pack pkg).huane.nextPartition, function := (q.getD 1 0).toNat, resources := rs }],
      nextPartition := h.nextPartition + 1 }).setFunc pkg (q.getD 1 0).toNat (queuesOf rs)).endCommand pkg ring
        { status := 0, result := BitVec.ofNat 64 (s.pack pkg).huane.nextPartition }) := by
  have apart : ((s.partitionOn pkg (q.getD 1 0).toNat).isSome ||
      (s.pack pkg).huane.partitions.any fun p => p.resources.any fun a => rs.any fun b => a.overlaps b) = false := by
    rw [hp, Option.isSome_none, Bool.false_or, List.any_eq_false]
    intro p hp
    rw [Bool.not_eq_true, List.any_eq_false]
    intro a ha
    rw [Bool.not_eq_true, List.any_eq_false]
    intro b hb
    rw [free p hp a ha b hb]; exact Bool.false_ne_true
  rw [exec_pcreate, execPcreate]
  refine congrArg _ (runCommand_answers hc ?_)
  dsimp only
  rw [if_neg (not_not.2 h0), if_neg (not_or.2 ⟨Nat.not_lt.2 hf, not_not.2 hz⟩), hr]
  dsimp only
  exact if_neg (by rw [apart]; exact Bool.false_ne_true)

/-- Huane's record once the partitions of a number are being torn down. -/
def Huane.torn (p : Partition) (ring : Option Nat) (h : Huane) : Huane :=
  { h with partitions := h.partitions.map fun x => if x.id = p.id then { x with tearing := true, ring := ring } else x }

theorem State.tear_eq (s : State) (pkg : Nat) (p : Partition) (ring : Option Nat) :
    ∃ u : State, s.tear pkg p ring = u.onHuane pkg (Huane.torn p ring) := ⟨_, rfl⟩

/-- PTEAR: every partition of the number is torn down, for the ring that asks. -/
theorem ptear_starts {p : Partition} (hc : Commanded s pkg ring 3 q bytes) (h0 : ring = 0) (hz : q.getD 2 0 = 0)
    (hp : (s.pack pkg).huane.partitions.find? (fun p => p.id == (q.getD 1 0).toNat && !p.tearing) = some p) :
    ∃ v, exec (.ptear pkg ring) s = .next v ∧
      ∀ x ∈ (v.pack pkg).huane.partitions, x.id = p.id → x.tearing = true ∧ x.ring = some ring := by
  refine ⟨s.tear pkg p (some ring), ?_, fun x hx e => ?_⟩
  · rw [exec_ptear, execPtear]
    refine congrArg _ (runCommand_goes_on hc ?_)
    rw [if_neg (not_not.2 h0), if_neg (not_not.2 hz), hp]
  · obtain ⟨u, hu⟩ := s.tear_eq pkg p (some ring)
    rw [hu, State.pack_onHuane] at hx
    obtain ⟨y, -, rfl⟩ := List.mem_map.1 hx
    split
    · exact ⟨rfl, rfl⟩
    · next k => rw [if_neg k] at e; exact absurd e k
end Sys2Proof.Machine
end

section
/-! SUPPORT. The release of a partition wipes its memory (R412, R413). -/

namespace Sys2Proof.Machine
variable {s t : State} {pkg x : Nat}

/-! ### What wiping a resource leaves -/

/-- Harts, bring-up blocks and Huane's records are as they were. -/
structure WipeKeeps (s t : State) : Prop where
  hart : t.hart = s.hart
  others : t.others = s.others
  blocks : SameBlocks s t
  huane : ∀ p, (t.pack p).huane = (s.pack p).huane

namespace WipeKeeps

theorem refl (s : State) : WipeKeeps s s := ⟨rfl, rfl, .refl s, fun _ => rfl⟩

theorem trans {u : State} (h : WipeKeeps s t) (k : WipeKeeps t u) : WipeKeeps s u :=
  ⟨k.hart.trans h.hart, k.others.trans h.others, h.blocks.trans k.blocks, fun p => (k.huane p).trans (h.huane p)⟩

theorem of_pkgs (hh : t.hart = s.hart) (ho : t.others = s.others) (hp : t.pkgs = s.pkgs) : WipeKeeps s t :=
  ⟨hh, ho, .of_pkgs hp, fun p => by simp only [State.pack, hp]⟩

theorem foldl {β : Type} {f : State → β → State} (h : ∀ s b, WipeKeeps s (f s b)) : ∀ (l : List β) (s : State),
    WipeKeeps s (l.foldl f s)
  | [], s => .refl s
  | b :: l, s => (h s b).trans (WipeKeeps.foldl h l (f s b))

theorem wipe (s : State) (a n : Nat) : WipeKeeps s (s.wipe a n) := .of_pkgs rfl rfl rfl

theorem forgetBytes (s : State) (p a n : Nat) : WipeKeeps s (s.forgetBytes p a n) := .of_pkgs rfl rfl rfl

theorem setCore (s : State) (c : Core) : WipeKeeps s (s.setCore c) := .of_pkgs rfl rfl rfl

theorem emptyEntries (s : State) (a n size : Nat) : WipeKeeps s (s.emptyEntries a n size) :=
  foldl (fun s i => by dsimp only; split; exact .of_pkgs rfl rfl rfl; exact .refl s) _ _

theorem setWaiting (s : State) (pkg : Nat) (w : List Waiting) : WipeKeeps s (s.setPack { s.pack pkg with waiting := w }) := by
  have own : (s.setPack { s.pack pkg with waiting := w }).pack pkg = { s.pack pkg with waiting := w } := s.pack_setPack_eq (s.pack_pkg pkg)
  have other : ∀ p, p ≠ pkg → (s.setPack { s.pack pkg with waiting := w }).pack p = s.pack p := fun p hp =>
    s.pack_setPack_ne (by rw [s.pack_pkg]; exact hp)
  refine ⟨rfl, rfl, fun p q => ?_, fun p => ?_⟩
  · by_cases e : p = pkg
    · subst e; rw [State.block_of_pack own, State.block_of_pack rfl]
    · rw [State.block, State.block, other p e]
  · by_cases e : p = pkg
    · subst e; rw [own]
    · rw [other p e]

end WipeKeeps

/-- The step of a wipe of memory on one die. -/
def State.wipeDie (s : State) (pkg : Nat) (r : Resource) (die : Nat) : State :=
  let lo := max r.first (die * 2 ^ 37)
  let at_ := hbmKey pkg die (lo - die * 2 ^ 37)
  let n := min (r.first + r.count) ((die + 1) * 2 ^ 37) - lo
  (s.wipe at_ n).forgetBytes pkg at_ n

/-- The step of a wipe of vault units on one unit. -/
def State.wipeUnit (s : State) (pkg : Nat) (r : Resource) (i : Nat) : State :=
  let n := r.first + i
  let c := s.core pkg (n / 48 / 96) (n / 48 % 96)
  let at_ := vaultKey pkg (n / 48 / 96) (n / 48 % 96) (65536 * (n % 48))
  (((s.wipe at_ 65536).emptyEntries at_ 65536 c.sieve).forgetBytes pkg at_ 65536).setCore { c with units := c.units.filter (·.1 != n % 48) }

theorem wipeResource_dies (s : State) (pkg : Nat) {r : Resource} (h : r.type = 3) :
    s.wipeResource pkg r = (List.range 4).foldl (fun s die => s.wipeDie pkg r die) s := by
  unfold State.wipeResource; rw [h]; rfl

theorem wipeResource_units (s : State) (pkg : Nat) {r : Resource} (h : r.type = 4) :
    s.wipeResource pkg r = (List.range r.count).foldl (fun s i => s.wipeUnit pkg r i) s := by
  unfold State.wipeResource; rw [h]; rfl

theorem WipeKeeps.wipeDie (s : State) (pkg : Nat) (r : Resource) (die : Nat) : WipeKeeps s (s.wipeDie pkg r die) :=
  (WipeKeeps.wipe s _ _).trans (WipeKeeps.forgetBytes ..)

theorem WipeKeeps.wipeUnit (s : State) (pkg : Nat) (r : Resource) (i : Nat) : WipeKeeps s (s.wipeUnit pkg r i) :=
  (((WipeKeeps.wipe s _ _).trans (WipeKeeps.emptyEntries ..)).trans (WipeKeeps.forgetBytes ..)).trans (WipeKeeps.setCore ..)

/-- Of what else a resource of another type changes: nothing, TLBs and ended harts, or the records that wait. -/
theorem wipeResource_other (s : State) (pkg : Nat) {r : Resource} (h3 : r.type ≠ 3) (h4 : r.type ≠ 4) :
    WipeKeeps s (s.wipeResource pkg r) ∧ (s.wipeResource pkg r).mem = s.mem ∧ (s.wipeResource pkg r).cores = s.cores := by
  unfold State.wipeResource
  split
  · exact ⟨.of_pkgs rfl rfl rfl, rfl, rfl⟩
  · exact ⟨.setWaiting .., rfl, rfl⟩
  · next h => exact absurd h h3
  · next h => exact absurd h h4
  · exact ⟨.refl s, rfl, rfl⟩

theorem WipeKeeps.wipeResource (s : State) (pkg : Nat) (r : Resource) : WipeKeeps s (s.wipeResource pkg r) := by
  by_cases h3 : r.type = 3
  · rw [wipeResource_dies s pkg h3]
    exact .foldl (fun s die => .wipeDie s pkg r die) _ s
  · by_cases h4 : r.type = 4
    · rw [wipeResource_units s pkg h4]
      exact .foldl (fun s i => .wipeUnit s pkg r i) _ s
    · exact (wipeResource_other s pkg h3 h4).1

/-! ### A byte that is wiped -/

/-- A byte is listed nowhere: not in memory, and its line in no cache of the package. -/
structure Gone (s : State) (pkg x : Nat) : Prop where
  memory : Unlisted s.mem x
  caches : ∀ c ∈ s.cores, c.pkg = pkg → ∀ l ∈ c.icache ++ c.ccache, l.1 ≠ x / 64

/-- Steps that keep a property, one of which makes it hold. -/
theorem foldl_reaches {α β : Type} {f : α → β → α} {I P : α → Prop} (hI : ∀ a b, I a → I (f a b)) (hP : ∀ a b, I a → P a → P (f a b)) :
    ∀ (l : List β) (a : α), I a → (P a ∨ ∃ b ∈ l, ∀ a, I a → P (f a b)) → P (l.foldl f a)
  | [], _, _, h => h.elim id fun ⟨_, hb, _⟩ => nomatch hb
  | b :: l, a, i, h => by
    refine foldl_reaches hI hP l (f a b) (hI a b i) ?_
    rcases h with h | ⟨c, hc, h⟩
    · exact .inl (hP a b i h)
    · rcases List.mem_cons.1 hc with rfl | hc
      · exact .inl (h a i)
      · exact .inr ⟨c, hc, h⟩

theorem Gone.of_same (h : Gone s pkg x) (hm : t.mem = s.mem) (hc : t.cores = s.cores) : Gone t pkg x :=
  ⟨hm ▸ h.memory, hc ▸ h.caches⟩

theorem Unlisted.wipe {a n : Nat} (hf : s.fieldsAt x = Fields.all) (h : a ≤ x ∧ x < a + n ∨ Unlisted s.mem x) :
    Unlisted (s.wipe a n).mem x := Unlisted.zeroed hf h

theorem Gone.wipe (h : Gone s pkg x) (hf : s.fieldsAt x = Fields.all) (a n : Nat) : Gone (s.wipe a n) pkg x :=
  ⟨Unlisted.wipe hf (.inr h.memory), h.caches⟩

/-- A cache that forgets a range holds no line of it, and no line that it did not hold. -/
theorem mem_caches_forgetBytes {p a n : Nat} {c : Core} (hc : c ∈ (s.forgetBytes p a n).cores) : ∃ d ∈ s.cores, d.pkg = c.pkg ∧
    ∀ l ∈ c.icache ++ c.ccache, l ∈ d.icache ++ d.ccache ∧ (c.pkg = p → meets a n (64 * l.1) 64 = false) := by
  obtain ⟨d, hd, rfl⟩ := List.mem_map.1 hc
  refine ⟨d, hd, ?_, ?_⟩
  · split <;> rfl
  · intro l hl
    split at hl
    · rw [← List.filter_append] at hl
      obtain ⟨hl, out⟩ := List.mem_filter.1 hl
      exact ⟨hl, fun _ => by simpa using out⟩
    · next hp =>
      rw [if_neg hp]
      exact ⟨hl, fun k => absurd k hp⟩

theorem Gone.forgetBytes (h : Gone s pkg x) (p a n : Nat) : Gone (s.forgetBytes p a n) pkg x := by
  refine ⟨h.memory, fun c hc hp l hl => ?_⟩
  obtain ⟨d, hd, e, hl'⟩ := mem_caches_forgetBytes hc
  exact h.caches d hd (e.trans hp) l (hl' l hl).1

/-- A byte of plain memory is gone once its range is wiped and forgotten. -/
theorem Gone.of_wipe {a n : Nat} (hf : s.fieldsAt x = Fields.all) (hx : a ≤ x ∧ x < a + n) :
    Gone ((s.wipe a n).forgetBytes pkg a n) pkg x := by
  refine ⟨Unlisted.wipe hf (.inl hx), fun c hc hp l hl e => ?_⟩
  obtain ⟨d, -, -, hl'⟩ := mem_caches_forgetBytes hc
  have out := (hl' l hl).2 hp
  rw [meets, decide_eq_false_iff_not] at out
  omega

theorem Gone.emptyEntries (h : Gone s pkg x) {a : Nat} (ha : x < a) (n size : Nat) : Gone (s.emptyEntries a n size) pkg x := by
  unfold State.emptyEntries
  refine foldl_reaches (I := fun _ => True) (P := fun t : State => Gone t pkg x) (fun _ _ _ => trivial) (fun t i _ h => ?_) _ s trivial (.inl h)
  dsimp only
  split
  · exact ⟨h.memory.writeN 8 _ (by omega), h.caches⟩
  · exact h

theorem State.core_cases (s : State) (p d c : Nat) : s.core p d c ∈ s.cores ∨ s.core p d c = emptyCore p d c := by
  unfold State.core
  split
  · next h => exact .inl (List.mem_of_find?_eq_some h)
  · exact .inr rfl

/-- A core whose units change keeps the lines that its caches held before. -/
theorem Gone.setCore (h : Gone t pkg x) (hs : Gone s pkg x) (p d c : Nat) (u) :
    Gone (t.setCore { s.core p d c with units := u }) pkg x := by
  refine ⟨h.memory, fun k hk hp l hl => ?_⟩
  rcases List.mem_cons.1 hk with rfl | hk
  · rcases s.core_cases p d c with k | k
    · exact hs.caches _ k hp l hl
    · rw [k] at hl; cases hl
  · exact h.caches k (List.mem_of_mem_filter hk) hp l hl

theorem Gone.wipeDie (h : Gone s pkg x) (hf : s.fieldsAt x = Fields.all) (p : Nat) (r : Resource) (die : Nat) :
    Gone (s.wipeDie p r die) pkg x := (h.wipe hf _ _).forgetBytes ..

theorem vaultKey_least (pkg die core off : Nat) : vaultKey pkg 0 0 0 ≤ vaultKey pkg die core off := by
  unfold vaultKey
  gcongr <;> exact Nat.zero_le _

/-- The units of a package's vaults lie above its memory. -/
theorem hbmKey_lt_vaultKey {pkg die k : Nat} (hd : die < 4) (hk : k < 2 ^ 37) : hbmKey pkg die k < vaultKey pkg 0 0 0 := by
  unfold hbmKey vaultKey
  omega

theorem Gone.wipeUnit (h : Gone s pkg x) (hf : s.fieldsAt x = Fields.all) (hx : x < vaultKey pkg 0 0 0) (r : Resource) (i : Nat) :
    Gone (s.wipeUnit pkg r i) pkg x := by
  exact Gone.setCore ((((h.wipe hf _ _).emptyEntries (Nat.lt_of_lt_of_le hx (vaultKey_least ..)) _ _).forgetBytes _ _ _)) h _ _ _ _

theorem Gone.wipeResource (h : Gone s pkg x) (hf : s.fieldsAt x = Fields.all) (hx : x < vaultKey pkg 0 0 0) (r : Resource) :
    Gone (s.wipeResource pkg r) pkg x := by
  by_cases h3 : r.type = 3
  · rw [wipeResource_dies s pkg h3]
    exact foldl_reaches (I := fun t : State => t.fieldsAt x = Fields.all) (P := fun t : State => Gone t pkg x)
      (fun t die k => (WipeKeeps.wipeDie t pkg r die).blocks.fieldsAt_all.2 k) (fun t die k g => g.wipeDie k pkg r die) _ s hf (.inl h)
  · by_cases h4 : r.type = 4
    · rw [wipeResource_units s pkg h4]
      exact foldl_reaches (I := fun t : State => t.fieldsAt x = Fields.all) (P := fun t : State => Gone t pkg x)
        (fun t i k => (WipeKeeps.wipeUnit t pkg r i).blocks.fieldsAt_all.2 k) (fun t i k g => g.wipeUnit k hx r i) _ s hf (.inl h)
    · obtain ⟨-, hm, hc⟩ := wipeResource_other s pkg h3 h4
      exact h.of_same hm hc

/-- The part of a resource on a die holds the bytes of the resource there. -/
theorem mem_dieRange {pkg lo hi die k : Nat} (hk : k < 2 ^ 37) (hlo : lo ≤ die * 2 ^ 37 + k)
    (hhi : die * 2 ^ 37 + k < hi) : hbmKey pkg die (max lo (die * 2 ^ 37) - die * 2 ^ 37) ≤ hbmKey pkg die k ∧
      hbmKey pkg die k < hbmKey pkg die (max lo (die * 2 ^ 37) - die * 2 ^ 37) +
        (min hi ((die + 1) * 2 ^ 37) - max lo (die * 2 ^ 37)) := by
  unfold hbmKey
  omega

/-- A byte of memory that a resource names is gone once the resource is wiped. -/
theorem Gone.of_wipeResource {r : Resource} {die k : Nat} (h3 : r.type = 3) (hd : die < 4) (hk : k < 2 ^ 37)
    (hlo : r.first ≤ die * 2 ^ 37 + k) (hhi : die * 2 ^ 37 + k < r.first + r.count)
    (hf : s.fieldsAt (hbmKey pkg die k) = Fields.all) : Gone (s.wipeResource pkg r) pkg (hbmKey pkg die k) := by
  rw [wipeResource_dies s pkg h3]
  refine foldl_reaches (I := fun t : State => t.fieldsAt (hbmKey pkg die k) = Fields.all)
    (P := fun t : State => Gone t pkg (hbmKey pkg die k))
    (fun t die k => (WipeKeeps.wipeDie t pkg r die).blocks.fieldsAt_all.2 k) (fun t die k g => g.wipeDie k pkg r die) _ s hf
    (.inr ⟨die, List.mem_range.2 hd, fun t ht => Gone.of_wipe ht (mem_dieRange hk hlo hhi)⟩)

/-! ### The release -/

/-- PARTITION_RELEASE once no hart of the partition is left. -/
theorem partitionRelease_wipes {part : Nat} {p : Partition}
    (hp : (s.pack pkg).huane.partitions.find? (fun p => p.id == part && p.tearing) = some p)
    (none_left : ∀ x ∈ s.harts, x.pkg = pkg → holds p.resources 0 x.asid.toNat = false ∧
      ∀ g, s.gangOf x = some g → holds p.resources 1 g.queue = false) :
    ∃ t, exec (.partitionRelease pkg part) s = .next (match p.ring with
        | some r => t.endCommand pkg r { status := 0 }
        | none => t) ∧ t.hart = s.hart ∧ t.others = s.others ∧
      (t.pack pkg).huane.partitions = (s.pack pkg).huane.partitions.filter (·.id != part) ∧
      (∀ r ∈ p.resources, r.type = 3 → ∀ die < 4, ∀ k < 2 ^ 37, r.first ≤ die * 2 ^ 37 + k →
        die * 2 ^ 37 + k < r.first + r.count → t.fieldsAt (hbmKey pkg die k) = Fields.all →
          readByte t.mem (hbmKey pkg die k) = 0 ∧ ∀ c ∈ t.cores, c.pkg = pkg →
            ∀ x ∈ c.icache ++ c.ccache, x.1 ≠ hbmKey pkg die k / 64) ∧
      (∀ e ∈ t.enclaves, ∀ m ∈ e.members, ¬(m.2.1 = pkg ∧ m.2.2 = part)) := by
  have gone : s.harts.any (s.partitionHart pkg p) = false := by
    rw [List.any_eq_false]
    intro x hx k
    obtain ⟨hpkg, k⟩ := Bool.and_eq_true_iff.1 k
    obtain ⟨ha, hg⟩ := none_left x hx (by simpa using hpkg)
    rw [ha, Bool.false_or] at k
    cases e : s.gangOf x with
    | none => rw [e] at k; cases k
    | some g => rw [e, Option.any_some, hg g e] at k; cases k
  let u := p.resources.foldl (fun s r => s.wipeResource pkg r) s
  let w : State := { u with enclaves := u.enclaves.map fun (e : Enclave) =>
    ({ e with members := e.members.filter fun m => !(m.2.1 == pkg && m.2.2 == part) } : Enclave) }
  have keeps : WipeKeeps s u := .foldl (fun s r => .wipeResource s pkg r) _ s
  have blocks : SameBlocks s (w.onHuane pkg fun h => { h with partitions := h.partitions.filter (·.id != part) }) :=
    keeps.blocks.trans ((SameBlocks.of_pkgs rfl : SameBlocks u w).trans (w.sameBlocks_onHuane pkg rfl))
  refine ⟨w.onHuane pkg fun h => { h with partitions := h.partitions.filter (·.id != part) }, ?_, keeps.hart, keeps.others, ?_,
    fun r hr h3 die hd k hk hlo hhi hf => ?_, fun e he m hm => ?_⟩
  · rw [exec_partitionRelease, execPartitionRelease, hp]
    dsimp only
    rw [gone]
    rfl
  · rw [State.pack_onHuane]
    dsimp only
    rw [show (w.pack pkg).huane = (s.pack pkg).huane from keeps.huane pkg]
  · have start : s.fieldsAt (hbmKey pkg die k) = Fields.all := blocks.fieldsAt_all.1 hf
    have below : hbmKey pkg die k < vaultKey pkg 0 0 0 := hbmKey_lt_vaultKey hd hk
    have g : Gone u pkg (hbmKey pkg die k) :=
      foldl_reaches (I := fun t : State => t.fieldsAt (hbmKey pkg die k) = Fields.all)
        (P := fun t : State => Gone t pkg (hbmKey pkg die k))
        (fun t r k => (WipeKeeps.wipeResource t pkg r).blocks.fieldsAt_all.2 k) (fun t r k g => g.wipeResource k below r) _ s start
        (.inr ⟨r, hr, fun t ht => Gone.of_wipeResource h3 hd hk hlo hhi ht⟩)
    exact ⟨g.memory.readByte, g.caches⟩
  · obtain ⟨e', -, rfl⟩ := List.mem_map.1 he
    have := (List.mem_filter.1 hm).2
    rintro ⟨h1, h2⟩
    rw [h1, h2] at this
    simp at this

theorem mailbox : mailboxRules := by
  unfold mailboxRules
  intro s pkg ring q bytes h arg
  exact ⟨fun _ hr => poll_sees fun r k a ha => hr r k a ha, fwload_answers, fun rs hc h0 hf hz hr hp free =>
    pcreate_answers hc h0 hf hz hr hp free, fun p hc h0 hz hp => ptear_starts hc h0 hz hp,
    fun part p hp none_left => partitionRelease_wipes hp none_left⟩
end Sys2Proof.Machine
end

section
/-! SUPPORT. Enclaves and reports (R408, R410). -/

namespace Sys2Proof.Machine
variable {s t : State} {pkg ring : Nat} {q : List Quad} {bytes : List Byte}

/-! ### Enclaves -/

theorem exec_ecreate (pkg ring : Nat) (s : State) : exec (.ecreate pkg ring) s = execEcreate pkg ring s := rfl
theorem exec_ejoin (pkg ring : Nat) (s : State) : exec (.ejoin pkg ring) s = execEjoin pkg ring s := rfl
theorem exec_report (pkg ring : Nat) (s : State) : exec (.report pkg ring) s = execReport pkg ring s := rfl
theorem exec_erevoke (pkg ring : Nat) (s : State) : exec (.erevoke pkg ring) s = execErevoke pkg ring s := rfl
theorem exec_lcs (pkg ring : Nat) (s : State) : exec (.lcs pkg ring) s = execLcs pkg ring s := rfl
theorem exec_revocationApply (pkg enclave member epoch : Nat) (s : State) :
    exec (.revocationApply pkg enclave member epoch) s = execRevocationApply pkg enclave member epoch s := rfl

theorem ecreate_answers (hc : Commanded s pkg ring 4 q bytes) (hp : (s.partitionOn pkg ring).isSome = true)
    (hl : (s.pack pkg).huane.lcs = 2) (h1 : 1 ≤ fieldOf (q.getD 1 0) 0 8) (h16 : fieldOf (q.getD 1 0) 0 8 ≤ 16)
    (hq : 1 ≤ fieldOf (q.getD 1 0) 8 8) (hqn : fieldOf (q.getD 1 0) 8 8 ≤ fieldOf (q.getD 1 0) 0 8)
    (hz : fieldOf (q.getD 1 0) 17 47 = 0) (hb : bytes.length = 64 * (fieldOf (q.getD 1 0) 0 8 + (q.getD 2 0).toNat)) :
    ∃ (t : State) (e : Enclave), exec (.ecreate pkg ring) s = .next (t.endCommand pkg ring { status := 0, result := e.id }) ∧
      t.mem = s.mem ∧ t.hart = s.hart ∧ t.enclaves = s.enclaves ++ [e] ∧ e.quorum = fieldOf (q.getD 1 0) 8 8 ∧ e.members = [] ∧
      e.keys = cut64 (fieldOf (q.getD 1 0) 0 8) bytes ∧
      e.allowed = cut64 (q.getD 2 0).toNat (bytes.drop (64 * fieldOf (q.getD 1 0) 0 8)) ∧ e.hostio = bitOf (q.getD 1 0) 16 := by
  let e : Enclave := { id := Config.value s.free, quorum := fieldOf (q.getD 1 0) 8 8, keys := cut64 (fieldOf (q.getD 1 0) 0 8) bytes,
                       allowed := cut64 (q.getD 2 0).toNat (bytes.drop (64 * fieldOf (q.getD 1 0) 0 8)),
                       hostio := bitOf (q.getD 1 0) 16 }
  refine ⟨({ s with enclaves := s.enclaves ++ [e] } : State).drawn, e, ?_, rfl, rfl, rfl, rfl, rfl, rfl, rfl, rfl⟩
  rw [exec_ecreate, execEcreate]
  refine congrArg _ (runCommand_answers hc ?_)
  have may : ¬((s.partitionOn pkg ring).isNone = true ∨ (!lcsEnclaves (s.pack pkg).huane.lcs) = true) := by
    rw [hl, Option.isNone_iff_eq_none]
    rintro (k | k)
    · rw [k] at hp; cases hp
    · cases k
  have well : ¬(fieldOf (q.getD 1 0) 0 8 = 0 ∨ 16 < fieldOf (q.getD 1 0) 0 8 ∨ fieldOf (q.getD 1 0) 8 8 = 0 ∨
      fieldOf (q.getD 1 0) 0 8 < fieldOf (q.getD 1 0) 8 8 ∨ fieldOf (q.getD 1 0) 17 47 ≠ 0 ∨
      bytes.length ≠ 64 * (fieldOf (q.getD 1 0) 0 8 + (q.getD 2 0).toNat)) := by omega
  dsimp only
  rw [if_neg may, if_neg well]

theorem ejoin_answers {p : Partition} {e : Enclave} (hc : Commanded s pkg ring 5 q bytes) (hp : s.partitionOn pkg ring = some p)
    (he : s.enclaves.find? (·.id == q.getD 1 0) = some e) (hl : (s.pack pkg).huane.lcs = 2)
    (hm : ∀ x ∈ e.members, x.1 ≠ (q.getD 2 0).toNat ∧ x.2.1 ≠ pkg) (hr : s.revokedMember e.id (q.getD 2 0).toNat = false)
    (ha : Config.measure bytes ∈ e.allowed) :
    ∃ t : State, (exec (.ejoin pkg ring) s = .next (t.endCommand pkg ring { status := 4 }) ∧ t.enclaves = s.enclaves) ∨
      (exec (.ejoin pkg ring) s = .next (t.endCommand pkg ring { status := 0 }) ∧ t.mem = s.mem ∧ t.hart = s.hart ∧
        t.enclaves = s.enclaves.map fun x =>
          if x.id = e.id then { x with members := x.members ++ [((q.getD 2 0).toNat, pkg, p.id)] } else x) := by
  have admitted : ¬((!lcsEnclaves (s.pack pkg).huane.lcs) = true ∨
      (e.members.any fun x => x.1 == (q.getD 2 0).toNat || x.2.1 == pkg) = true ∨ s.revokedMember e.id (q.getD 2 0).toNat = true ∨
      (!e.allowed.contains (Config.measure bytes)) = true) := by
    rw [hl, hr]
    rintro (k | k | k | k)
    · cases k
    · obtain ⟨x, hx, k⟩ := List.any_eq_true.1 k
      obtain ⟨h1, h2⟩ := hm x hx
      exact (Bool.or_eq_true_iff.1 k).elim (fun k => h1 (beq_iff_eq.1 k)) fun k => h2 (beq_iff_eq.1 k)
    · cases k
    · simp [ha] at k
  by_cases choice : Config.choice s.free = true
  · refine ⟨s.drawn, .inl ⟨?_, rfl⟩⟩
    rw [exec_ejoin, execEjoin]
    refine congrArg _ (runCommand_answers hc ?_)
    dsimp only
    rw [hp, he]
    dsimp only
    rw [if_neg admitted, if_pos choice]
  · let w := (s.onHuane pkg fun h => { h with
      partitions := h.partitions.map fun x => if x.id = p.id then { x with measure := Config.measure bytes } else x }).drawn
    refine ⟨{ w with enclaves := w.enclaves.map fun x =>
      if x.id = e.id then { x with members := x.members ++ [((q.getD 2 0).toNat, pkg, p.id)] } else x }, .inr ⟨?_, rfl, rfl, rfl⟩⟩
    rw [exec_ejoin, execEjoin]
    refine congrArg _ (runCommand_answers hc ?_)
    dsimp only
    rw [hp, he]
    dsimp only
    rw [if_neg admitted, if_neg choice]

/-! ### Reports -/

theorem bytesOf_length (n x : Nat) : (bytesOf n x).length = n := by simp [bytesOf]

theorem report_length (h : Huane) (id : Quad) (member measure : Nat) {nonce : List Byte} (hn : nonce.length = 32) :
    (h.report id member measure nonce).length = 512 := by
  simp only [Huane.report, List.length_append, bytesOf_length, hn, List.length_flatMap, images]
  rfl

/-- Bytes 16 on of a report are its nonce. -/
theorem report_split (h : Huane) (id : Quad) (member measure : Nat) (nonce : List Byte) :
    ∃ l r, h.report id member measure nonce = l ++ (nonce ++ r) ∧ l.length = 16 := by
  refine ⟨bytesOf 8 id.toNat ++ bytesOf 2 member ++ bytesOf 2 h.lcs.toNat ++ bytesOf 4 0,
    bytesOf 64 measure ++ (images.flatMap (fun i => bytesOf 8 (h.version i)) ++ (bytesOf 8 0 ++ (bytesOf 8 h.leaf ++ bytesOf 360 0))),
    ?_, ?_⟩
  · unfold Huane.report
    simp only [List.append_assoc]
  · simp only [List.length_append, bytesOf_length]

theorem signed_nonce (h : Huane) (pkg : Nat) (id : Quad) (member measure : Nat) {nonce : List Byte} (hn : nonce.length = 32) :
    ((h.signed pkg (h.report id member measure nonce)).drop 16).take 32 = nonce := by
  obtain ⟨l, r, e, hl⟩ := report_split h id member measure nonce
  rw [Huane.signed, e, List.append_assoc, List.append_assoc, ← hl, List.drop_left, ← hn, List.take_left]

theorem signed_parts (h : Huane) (pkg : Nat) {report : List Byte} (hr : report.length = 512) :
    (h.signed pkg report).length = 3332 ∧ (h.signed pkg report).take 512 = report ∧
      (h.signed pkg report).drop 512 = (List.range 2820).map (Config.signature pkg h.leaf report) := by
  unfold Huane.signed
  refine ⟨by simp [hr], ?_, ?_⟩
  · rw [← hr, List.take_left]
  · rw [← hr, List.drop_left]

/-- The index and measurement with which the caller's partition is a member of an enclave. -/
def State.ownMember (s : State) (pkg ring : Nat) (id : Quad) : Option (Nat × Nat) :=
  match s.enclaves.find? (·.id == id), s.partitionOn pkg ring with
  | some e, some p =>
    (e.members.find? fun (m : Nat × Nat × Nat) => m.2.1 == pkg && m.2.2 == p.id).map fun (m : Nat × Nat × Nat) => (m.1, p.measure)
  | _, _ => none

theorem State.ownMember_isSome {id : Quad} {e : Enclave} {p : Partition} (he : s.enclaves.find? (·.id == id) = some e)
    (hp : s.partitionOn pkg ring = some p) (hm : ∃ m ∈ e.members, m.2.1 = pkg ∧ m.2.2 = p.id) :
    (s.ownMember pkg ring id).isNone = false := by
  obtain ⟨m, hm, h1, h2⟩ := hm
  rw [State.ownMember, he, hp]
  dsimp only
  rw [Option.isNone_map, Option.isNone_eq_false_iff, List.find?_isSome]
  exact ⟨m, hm, by simp [h1, h2]⟩

theorem report_answers (hc : Commanded s pkg ring 6 q bytes) (hb : bytes.length = 32) (hroom : 3332 ≤ fieldOf (q.getD 4 0) 32 32)
    (hi : (q.getD 2 0).toNat = 0)
    (hm : q.getD 1 0 = 0 ∨ ∃ e p, s.enclaves.find? (·.id == q.getD 1 0) = some e ∧ s.partitionOn pkg ring = some p ∧
      ∃ m ∈ e.members, m.2.1 = pkg ∧ m.2.2 = p.id)
    (hl : (s.pack pkg).huane.lcs = 1 ∨ (s.pack pkg).huane.lcs = 2) :
    (2 ^ 20 ≤ (s.pack pkg).huane.leaf → exec (.report pkg ring) s = .next (s.endCommand pkg ring { status := 3 })) ∧
    ((s.pack pkg).huane.leaf < 2 ^ 20 → ∃ (t : State) (out : List Byte), exec (.report pkg ring) s = .next (t.endCommand pkg ring
        { status := 0, result := BitVec.ofNat 64 (s.pack pkg).huane.leaf, out := out }) ∧ t.mem = s.mem ∧ t.hart = s.hart ∧
      (t.pack pkg).huane = { (s.pack pkg).huane with leaf := (s.pack pkg).huane.leaf + 1 } ∧ out.length = 3332 ∧
      (out.drop 16).take 32 = bytes ∧
      out.drop 512 = (List.range 2820).map (Config.signature pkg (s.pack pkg).huane.leaf (out.take 512))) := by
  have zero : q.getD 2 0 = 0 := BitVec.eq_of_toNat_eq hi
  have well : ¬(bytes.length ≠ 32 ∨ fieldOf (q.getD 4 0) 32 32 < 3332 ∨ q.getD 2 0 ≠ 0) :=
    not_or.2 ⟨not_not.2 hb, not_or.2 ⟨Nat.not_lt.2 hroom, not_not.2 zero⟩⟩
  have key : ¬((!lcsKey (s.pack pkg).huane.lcs) = true ∨ (q.getD 1 0 ≠ 0 ∧ (s.ownMember pkg ring (q.getD 1 0)).isNone = true)) := by
    rintro (k | ⟨h0, k⟩)
    · rcases hl with e | e <;> rw [e] at k <;> cases k
    · obtain ⟨e, p, he, hp, hm⟩ := hm.resolve_left h0
      rw [State.ownMember_isSome he hp hm] at k
      cases k
  rw [exec_report, execReport]
  refine ⟨fun full => congrArg _ (runCommand_answers hc ?_), fun room => ?_⟩
  · exact (if_neg well).trans ((if_neg key).trans (if_pos full))
  · let value := fun i => (Config.value (s.free + i)).toNat
    let who := if q.getD 1 0 = 0 then (value 0 % 65536, value 1) else (s.ownMember pkg ring (q.getD 1 0)).getD (0, 0)
    let h := (s.pack pkg).huane
    obtain ⟨hlen, htake, hdrop⟩ := signed_parts h pkg (report_length h (q.getD 1 0) who.1 who.2 hb)
    refine ⟨{ s.onHuane pkg (fun h => { h with leaf := h.leaf + 1 }) with free := s.free + 2 },
      h.signed pkg (h.report (q.getD 1 0) who.1 who.2 bytes), congrArg _ (runCommand_answers hc ?_), rfl, rfl, ?_, hlen,
      signed_nonce h pkg _ _ _ hb, ?_⟩
    · exact (if_neg well).trans ((if_neg key).trans (if_neg (Nat.not_le.2 room)))
    · exact congrArg Package.huane (s.pack_onHuane pkg fun h => { h with leaf := h.leaf + 1 })
    · rw [htake, hdrop]
end Sys2Proof.Machine
end

section
/-! SUPPORT. Revocation (R411). -/

namespace Sys2Proof.Machine
variable {s t : State} {pkg ring : Nat} {q : List Quad} {bytes : List Byte}

/-! ### Revocation -/

/-- The participants whose signatures of an order verify. -/
def goodSigs (e : Enclave) (bytes : List Byte) : List Nat :=
  ((orderSigs (byteNat ((bytes.drop 16).take 8)) (bytes.drop 24)).filter fun x => match e.keys[x.1]? with
    | some k => Config.verifies k e.id (byteNat (bytes.take 8)) (byteNat ((bytes.drop 8).take 8)) x.2
    | none => false).map (·.1)

theorem erevoke_answers {e : Enclave} (hc : Commanded s pkg ring 7 q bytes) (he : s.enclaves.find? (·.id == q.getD 1 0) = some e)
    (hp : ∃ p, s.partitionOn pkg ring = some p ∧ ∃ m ∈ e.members, m.2.1 = pkg ∧ m.2.2 = p.id)
    (hb : bytes.length = 24 + 2828 * byteNat ((bytes.drop 16).take 8)) (hi : (q.getD 2 0).toNat = 0) :
    let member := byteNat (bytes.take 8)
    let epoch := byteNat ((bytes.drop 8).take 8)
    let fresh := ∀ o ∈ s.orders, o.enclave = e.id → o.epoch < epoch
    (fresh → e.quorum ≤ (goodSigs e bytes).eraseDups.length → exec (.erevoke pkg ring) s =
      .next (({ s with orders := s.orders ++ [⟨e.id, member, epoch⟩] } : State).endCommand pkg ring { status := 0 })) ∧
    (¬fresh ∨ (goodSigs e bytes).eraseDups.length < e.quorum →
      exec (.erevoke pkg ring) s = .next (s.endCommand pkg ring { status := 4 })) := by
  intro member epoch fresh
  obtain ⟨p, hp, m, hm, h1, h2⟩ := hp
  have zero : q.getD 2 0 = 0 := BitVec.eq_of_toNat_eq hi
  have mine : ¬(!(s.partitionOn pkg ring).any fun p => e.members.any fun m => m.2.1 == pkg && m.2.2 == p.id) = true := by
    have : (e.members.any fun m => m.2.1 == pkg && m.2.2 == p.id) = true := List.any_eq_true.2 ⟨m, hm, by simp [h1, h2]⟩
    rw [hp, Option.any_some, this]
    exact Bool.false_ne_true
  have well : ¬(bytes.length ≠ 24 + 2828 * byteNat ((bytes.drop 16).take 8) ∨ q.getD 2 0 ≠ 0) :=
    not_or.2 ⟨not_not.2 hb, not_not.2 zero⟩
  have old : (s.orders.any fun o => o.enclave == e.id && decide (epoch ≤ o.epoch)) = true ↔ ¬fresh := by
    rw [List.any_eq_true]
    simp only [fresh, Bool.and_eq_true, beq_iff_eq, decide_eq_true_eq, not_forall, Nat.not_lt, exists_prop]
  rw [exec_erevoke, execErevoke]
  refine ⟨fun hf hq => congrArg _ (runCommand_answers hc ?_), fun bad => congrArg _ (runCommand_answers hc ?_)⟩
  · have good : ¬((goodSigs e bytes).eraseDups.length < e.quorum ∨
        (s.orders.any fun o => o.enclave == e.id && decide (epoch ≤ o.epoch)) = true) :=
      not_or.2 ⟨Nat.not_lt.2 hq, fun k => old.1 k hf⟩
    dsimp only
    rw [he]
    exact (if_neg mine).trans ((if_neg well).trans (if_neg good))
  · have refused : (goodSigs e bytes).eraseDups.length < e.quorum ∨
        (s.orders.any fun o => o.enclave == e.id && decide (epoch ≤ o.epoch)) = true := bad.symm.imp_right old.2
    dsimp only
    rw [he]
    exact (if_neg mine).trans ((if_neg well).trans (if_pos refused))

/-! ### A revocation is applied -/

/-- A hart of a partition's asids has cause 0x21 pending. -/
def Halted (pkg : Nat) (p : Partition) (h : Hart) : Prop :=
  h.pkg = pkg → holds p.resources 0 h.asid.toNat = true → h.sup.pend.getLsbD 1 = true

/-- Every hart that the state holds is so, placed or not. -/
def AllHalted (pkg : Nat) (p : Partition) (s : State) : Prop := Halted pkg p s.hart ∧ ∀ h ∈ s.others, Halted pkg p h

theorem AllHalted.harts {p : Partition} (h : AllHalted pkg p s) {x : Hart} (hx : x ∈ s.harts) : Halted pkg p x := by
  unfold State.harts at hx
  split at hx
  · exact h.2 x hx
  · rcases List.mem_cons.1 hx with rfl | hx
    · exact h.1
    · exact h.2 x hx

theorem getLsbD_or_left {x y : BitVec 3} {i : Nat} (h : x.getLsbD i = true) : (x ||| y).getLsbD i = true := by
  rw [BitVec.getLsbD_or, h, Bool.true_or]

theorem State.pack_setPack_gangs (s : State) (pkg : Nat) (gs : List Gang) :
    (s.setPack { s.pack pkg with gangs := gs }).pack pkg = { s.pack pkg with gangs := gs } := s.pack_setPack_eq (s.pack_pkg pkg)

/-- The orders that Huane has applied, and that the harts of a partition are halted. -/
structure Revoking (pkg : Nat) (p : Partition) (applied : List Order) (s : State) : Prop where
  orders : (s.pack pkg).huane.applied = applied
  halted : AllHalted pkg p s

namespace Revoking
variable {p : Partition} {applied : List Order}

theorem of_same (h : Revoking pkg p applied s) (hp : t.pkgs = s.pkgs) (hh : t.hart = s.hart) (ho : t.others = s.others) :
    Revoking pkg p applied t := by
  obtain ⟨orders, halted⟩ := h
  refine ⟨by rw [State.pack, hp]; exact orders, ?_⟩
  rw [AllHalted, hh, ho]; exact halted

theorem setQueueQuad (h : Revoking pkg p applied s) (k q i : Nat) (v : Quad) : Revoking pkg p applied (s.setQueueQuad k q i v) := by
  unfold State.setQueueQuad State.setSchedQuad
  split
  · exact h
  · exact h.of_same rfl rfl rfl

theorem setFunc (h : Revoking pkg p applied s) (k f : Nat) (qs : List Nat) : Revoking pkg p applied (s.setFunc k f qs) :=
  List.foldlRecOn qs _ h fun _ k _ _ => k.setQueueQuad ..

theorem pendGang (h : Revoking pkg p applied s) (k : Nat) (g : Word) (b : BitVec 3) : Revoking pkg p applied (s.pendGang k g b) := by
  obtain ⟨orders, hart, others⟩ := h
  have step : ∀ x : Hart, Halted pkg p x → Halted pkg p
      (if x.pkg = k ∧ x.csr.gangid = g then { x with sup := { x.sup with pend := x.sup.pend ||| b } } else x) := by
    intro x hx
    split
    · exact fun h1 h2 => getLsbD_or_left (hx h1 h2)
    · exact hx
  refine ⟨orders, step _ hart, fun x hx => ?_⟩
  obtain ⟨y, hy, rfl⟩ := List.mem_map.1 hx
  exact step y (others y hy)

theorem setGang (h : Revoking pkg p applied s) (k : Nat) (g : Gang) : Revoking pkg p applied (s.setGang k g) := by
  obtain ⟨orders, halted⟩ := h
  refine ⟨?_, halted⟩
  unfold State.setGang
  dsimp only
  by_cases e : pkg = k
  · subst e
    rw [s.pack_setPack_gangs]; exact orders
  · rw [s.pack_setPack_ne (by rw [s.pack_pkg]; exact e)]; exact orders

theorem abortGang (h : Revoking pkg p applied s) (k : Nat) (g : Gang) : Revoking pkg p applied (s.abortGang k g) := by
  unfold State.abortGang
  split
  · exact h
  · exact (h.setGang ..).pendGang ..

theorem onHuane (h : Revoking pkg p applied s) {f : Huane → Huane} (hf : ∀ x, (f x).applied = x.applied) :
    Revoking pkg p applied (s.onHuane pkg f) := by
  obtain ⟨orders, halted⟩ := h
  refine ⟨?_, halted⟩
  rw [State.pack_onHuane]
  exact (hf _).trans orders

theorem tear (h : Revoking pkg p applied s) (x : Partition) (ring : Option Nat) : Revoking pkg p applied (s.tear pkg x ring) := by
  unfold State.tear
  extract_lets qs u gangs v
  have hu : Revoking pkg p applied u := List.foldlRecOn qs _ h fun _ k _ _ => k.setQueueQuad ..
  have hv : Revoking pkg p applied v := List.foldlRecOn gangs _ hu fun _ k _ _ => k.abortGang ..
  exact (hv.setFunc ..).onHuane fun _ => rfl

end Revoking

/-- A member's partition is halted: its harts have the cause pending, and the orders stay. -/
theorem haltMember_revoking (s : State) (pkg : Nat) (enclave : Quad) (p : Partition) :
    Revoking pkg p (s.pack pkg).huane.applied (s.haltMember pkg enclave p) := by
  have step : ∀ x : Hart, Halted pkg p (if x.pkg = pkg ∧ holds p.resources 0 x.asid.toNat then
      { x with enclave := enclave, sup := { x.sup with pend := x.sup.pend ||| 2 } } else x) := by
    intro x
    split
    · intro _ _
      rw [BitVec.getLsbD_or]
      simp
    · next no => exact fun h1 h2 => absurd ⟨h1, h2⟩ no
  unfold State.haltMember
  extract_lets f u
  have hu : Revoking pkg p (s.pack pkg).huane.applied u := by
    refine ⟨rfl, step _, fun x hx => ?_⟩
    obtain ⟨y, -, rfl⟩ := List.mem_map.1 hx
    exact step y
  split
  · exact hu
  · exact hu.tear ..

/-- The groups that a revocation hits are marked for their abort; nothing else changes. -/
theorem abortGroups_pkgs (cause : Byte) (pkg : Nat) (l : List Group) (s : State) :
    (l.foldl (fun s g => s.abortGroup g.handle cause pkg) s).pkgs = s.pkgs :=
  foldl_keeps (fun s g => State.abortGroup s g.handle cause pkg) State.pkgs (fun _ _ => rfl) l s

/-- A package applies an order: it drops the member's keys, and the groups with a rank of the member are to abort. -/
def State.dropKeys (s : State) (pkg : Nat) (o : Order) : State :=
  let u := s.onHuane pkg fun h => { h with applied := o :: h.applied }
  (u.groups.filter fun g => g.joined.any fun j =>
    match u.findHart j.2 with
    | some h => (match u.memberOf h.pkg h.asid with
      | some x => x.1.id == o.enclave && x.2 == o.member
      | none => false)
    | none => false).foldl (fun u g => u.abortGroup g.handle 4 pkg) u

theorem dropKeys_huane (s : State) (pkg : Nat) (o : Order) :
    ((s.dropKeys pkg o).pack pkg).huane = { (s.pack pkg).huane with applied := o :: (s.pack pkg).huane.applied } := by
  unfold State.dropKeys
  extract_lets u
  rw [State.pack, abortGroups_pkgs]
  exact congrArg Package.huane (s.pack_onHuane pkg fun h => { h with applied := o :: h.applied })

section
variable {enclave member epoch : Nat} {e : Enclave} (he : s.enclaves.find? (·.id == BitVec.ofNat 64 enclave) = some e)
  (ho : (⟨BitVec.ofNat 64 enclave, member, epoch⟩ : Order) ∈ s.orders) (hm : ∃ m ∈ e.members, m.2.1 = pkg)
  (hn : (⟨BitVec.ofNat 64 enclave, member, epoch⟩ : Order) ∉ (s.pack pkg).huane.applied)
include he ho hm hn

/-- An order that is new at a member package: its keys are dropped, and the member's partition there is halted. -/
theorem revocationApply_next : exec (.revocationApply pkg enclave member epoch) s =
    .next (let v := s.dropKeys pkg ⟨BitVec.ofNat 64 enclave, member, epoch⟩
      match e.members.find? fun m => m.1 == member && m.2.1 == pkg with
      | none => v
      | some m =>
        match (v.pack pkg).huane.partitions.find? (·.id == m.2.2) with
        | some p => v.haltMember pkg (BitVec.ofNat 64 enclave) p
        | none => v) := by
  have due : ¬((!s.orders.contains (⟨BitVec.ofNat 64 enclave, member, epoch⟩ : Order)) = true ∨
      (!e.members.any fun m => m.2.1 == pkg) = true ∨
      (s.pack pkg).huane.applied.contains (⟨BitVec.ofNat 64 enclave, member, epoch⟩ : Order) = true) := by
    rintro (k | k | k)
    · rw [List.contains_iff_mem.2 ho] at k; cases k
    · obtain ⟨m, hm, h1⟩ := hm
      rw [List.any_eq_true.2 ⟨m, hm, by simpa using h1⟩] at k; cases k
    · exact hn (List.contains_iff_mem.1 k)
  rw [exec_revocationApply, execRevocationApply, he]
  exact if_neg due

theorem revocationApply_halts : ∃ v, exec (.revocationApply pkg enclave member epoch) s = .next v ∧
    (v.pack pkg).huane.applied = ⟨BitVec.ofNat 64 enclave, member, epoch⟩ :: (s.pack pkg).huane.applied ∧
    (∀ m p, e.members.find? (fun m => m.1 == member && m.2.1 == pkg) = some m →
      (s.pack pkg).huane.partitions.find? (·.id == m.2.2) = some p →
      ∀ x ∈ v.harts, x.pkg = pkg → holds p.resources 0 x.asid.toNat = true → x.sup.pend.getLsbD 1 = true) := by
  rw [revocationApply_next he ho hm hn]
  extract_lets v
  have hv : (v.pack pkg).huane = _ := dropKeys_huane s pkg ⟨BitVec.ofNat 64 enclave, member, epoch⟩
  have halts : ∀ p, Revoking pkg p (⟨BitVec.ofNat 64 enclave, member, epoch⟩ :: (s.pack pkg).huane.applied)
      (v.haltMember pkg (BitVec.ofNat 64 enclave) p) := fun p => by
    have := haltMember_revoking v pkg (BitVec.ofNat 64 enclave) p
    rwa [hv] at this
  refine ⟨_, rfl, ?_, fun m p hm hp x hx => ?_⟩
  · split
    · rw [hv]
    · split
      · exact (halts _).orders
      · rw [hv]
  · rw [hm] at hx
    dsimp only at hx
    rw [hv] at hx
    dsimp only at hx
    rw [hp] at hx
    exact (halts p).halted.harts hx
end

end Sys2Proof.Machine
end

section
/-! SUPPORT. Life-cycle states (R415), and what Huane does as a whole. -/

namespace Sys2Proof.Machine
variable {s t : State} {pkg ring : Nat} {q : List Quad} {bytes : List Byte}

/-! ### The next life-cycle state -/

@[simp] theorem State.onHart_pkgs (s : State) (r : HartRef) (f : Hart → Hart) : (s.onHart r f).pkgs = s.pkgs := by
  unfold State.onHart; split <;> rfl

@[simp] theorem State.wakeLine_pkgs (s : State) (line n : Nat) : (s.wakeLine line n).1.pkgs = s.pkgs := by
  unfold State.wakeLine
  exact foldl_keeps (fun t (w : Waiter) => State.onHart t w.hart (Hart.wake 0)) State.pkgs (fun _ _ => State.onHart_pkgs ..) _ _

@[simp] theorem State.putOutput_pkgs (s : State) (pkg ring : Nat) (q : Quad) (out : List Byte) :
    (s.putOutput pkg ring q out).pkgs = s.pkgs := by
  unfold State.putOutput
  split
  · rfl
  · next at_ _ =>
    split
    · exact foldl_keeps (fun (s : State) (x : Byte × Nat) => { s with mem := writeN s.mem (at_ x.2) 1 x.1.toNat }) State.pkgs
        (fun _ _ => rfl) _ _
    · rfl

@[simp] theorem State.endCommand_pkgs (s : State) (pkg ring : Nat) (r : Reply) : (s.endCommand pkg ring r).pkgs = s.pkgs := by
  unfold State.endCommand
  split
  · rfl
  · dsimp only
    rw [State.wakeLine_pkgs, State.putOutput_pkgs]

/-- The state before the reset that LCS ends in: the life-cycle state has moved, and the memory of the package is wiped. -/
def State.lcsWiped (s : State) (pkg ring : Nat) (result : Quad) : State :=
  ((s.onHuane pkg fun h => { h with lcs := h.lcs + 1 }).endCommand pkg ring { status := 0, result := result }).wipePackage pkg

theorem lcsWiped_lcs (s : State) (pkg ring : Nat) (x : Quad) :
    ((s.lcsWiped pkg ring x).pack pkg).huane.lcs = (s.pack pkg).huane.lcs + 1 := by
  have e : (s.lcsWiped pkg ring x).pkgs = (s.onHuane pkg fun h => { h with lcs := h.lcs + 1 }).pkgs := State.endCommand_pkgs ..
  rw [State.pack, e]
  exact congrArg (·.huane.lcs) (s.pack_onHuane pkg fun h => { h with lcs := h.lcs + 1 })

theorem lcsWiped_mem {x : Quad} {c : Host.Cell} (hc : c ∈ (s.lcsWiped pkg ring x).mem) : inPackage pkg c.1 = false := by
  simpa using (List.mem_filter.1 hc).2

theorem lcs_resets (hc : Commanded s pkg ring 8 q bytes) (h0 : ring = 0) (hz : q.getD 2 0 = 0) (h4 : (q.getD 1 0).toNat ≤ 4)
    (hn : (q.getD 1 0).toNat = (s.pack pkg).huane.lcs.toNat + 1) :
    ∃ v, exec (.lcs pkg ring) s = .next v ∧ (v.pack pkg).huane.lcs = (s.pack pkg).huane.lcs + 1 ∧
      (fieldOf (v.block pkg 0) 0 4 = 3 ∨ fieldOf (v.block pkg 0) 0 4 = 1) ∧
      fieldOf (v.block pkg 0) 4 4 = (s.pack pkg).huane.lcs.toNat + 1 ∧ (∀ x ∈ v.harts, x.pkg ≠ pkg) ∧
      ∀ c ∈ v.mem, inPackage pkg c.1 = false := by
  let u := s.lcsWiped pkg ring (BitVec.ofNat 64 (q.getD 1 0).toNat)
  have next : ((s.pack pkg).huane.lcs + 1).toNat = (s.pack pkg).huane.lcs.toNat + 1 := by
    rw [BitVec.toNat_add, show (1 : BitVec 4).toNat = 1 from rfl, ← hn]
    exact Nat.mod_eq_of_lt (by omega)
  refine ⟨(u.resetPackage pkg).someTurn, ?_, ?_, ?_, ?_, fun x hx => resetPackage_harts (State.someTurn_harts hx), fun c hx => ?_⟩
  · rw [exec_lcs, execLcs]
    refine congrArg _ (runCommand_goes_on hc ?_)
    exact (if_neg (not_not.2 h0)).trans
      ((if_neg (not_or.2 ⟨Nat.not_lt.2 h4, not_not.2 hz⟩)).trans (if_neg (not_not.2 hn)))
  · rw [State.someTurn_pack, resetPackage_pack]
    exact lcsWiped_lcs ..
  · rw [State.someTurn_block, resetPackage_state]
    split
    · exact .inl rfl
    · exact .inr rfl
  · rw [State.someTurn_block, resetPackage_lcs, lcsWiped_lcs, next]
  · rw [State.someTurn_mem, resetPackage_mem] at hx
    split at hx
    · exact lcsWiped_mem (List.mem_filter.1 hx).1
    · exact lcsWiped_mem hx

theorem enclaves : enclaveRules := by
  unfold enclaveRules
  intro s pkg ring q bytes h arg i
  refine ⟨fun hc hp hl h1 h16 hq hqn hz hb => ecreate_answers hc hp hl h1 h16 hq hqn hz hb,
    fun p e hc hp he hl hm hr ha => ejoin_answers hc hp he hl hm hr ha,
    fun hc hb hroom hi hm hl => report_answers hc hb hroom hi hm hl,
    fun e => fun hc he hp hb hi => erevoke_answers hc he hp hb hi,
    fun enclave member epoch e => fun he ho hm hn => revocationApply_halts he ho hm hn,
    fun hc h0 hz h4 hn => lcs_resets hc h0 hz h4 hn⟩

/-- Settles O58: each rule is a case of the reset, of a register write, of a mailbox command (`runCommand_of_commanded`) or of
an order; what a release wipes is followed through its resources by `Gone`. -/
theorem huaneCommands : Obligations.HuaneCommands := ⟨bringUp, registers, mailbox, enclaves⟩
end Sys2Proof.Machine
end

section
/-! SUPPORT. Ordering, and waiting on memory: lsync at every scope, quiescence, the stores before ifence and wakea. -/

namespace Sys2Proof.Machine
variable {s t : State}

/-! ### lsync at every scope (R121) -/

/-- What an lsync leaves of a hart whose accesses within the scope are performed. -/
def Hart.joinedOnce (h : Hart) (sc : Scope) : Hart :=
  ({ h with unacked := (if sc = .h then h.unacked else []), joins := h.joins + 1 } : Hart).completeNb

/-- Something that runs beside the hart's accesses has an access within the scope left. -/
def SyncBusy (s : State) (sc : Scope) : Bool :=
  s.hart.cmds.any (fun c => c.running && decide (c.nearest ≤ Scope.rank sc)) || s.remoteBusy (Scope.rank sc)
    || s.hart.colls.any (fun c => decide ((if c.msg.isSome then 2 else 4) ≤ Scope.rank sc))
    || (s.hart.thaw && s.hart.frozen.any fun e => decide (s.hart.entryRank e ≤ Scope.rank sc))

/-- An access within the scope is left once those that can be are performed, or one has failed. -/
def SyncLeft (s : State) (sc : Scope) : Bool :=
  (performed s sc).hart.pend.any (fun a => decide (s.hart.rankOf a.slice ≤ Scope.rank sc))
    || (performed s sc).hart.hits.any (·.level == (performed s sc).hart.level)

theorem syncBusy_eq_false_iff (s : State) (sc : Scope) : SyncBusy s sc = false ↔
    (∀ c ∈ s.hart.cmds, c.stopped = true ∨ Scope.rank sc < c.nearest) ∧ s.remoteBusy (Scope.rank sc) = false ∧
    (∀ c ∈ s.hart.colls, Scope.rank sc < if c.msg.isSome then 2 else 4) ∧
    (s.hart.thaw = false ∨ ∀ e ∈ s.hart.frozen, Scope.rank sc < s.hart.entryRank e) := by
  have cmd : ∀ c : Cmd, (c.running && decide (c.nearest ≤ Scope.rank sc)) = false ↔ c.stopped = true ∨ Scope.rank sc < c.nearest := by
    intro c
    rw [Bool.and_eq_false_iff, Cmd.running, Bool.not_eq_false', decide_eq_false_iff_not, Nat.not_le]
  simp only [SyncBusy, Bool.or_eq_false_iff, Bool.and_eq_false_iff, List.any_eq_false, Bool.not_eq_true, cmd,
    decide_eq_false_iff_not, Nat.not_le, and_assoc]

theorem syncLeft_eq_false_iff (s : State) (sc : Scope) : SyncLeft s sc = false ↔
    (∀ a ∈ (performed s sc).hart.pend, Scope.rank sc < s.hart.rankOf a.slice) ∧
    ∀ x ∈ (performed s sc).hart.hits, x.level ≠ (performed s sc).hart.level := by
  simp only [SyncLeft, Bool.or_eq_false_iff, List.any_eq_false, Bool.not_eq_true, decide_eq_false_iff_not, Nat.not_le,
    beq_eq_false_iff_ne]

theorem syncReady_iff (s : State) (sc : Scope) : SyncReady s sc ↔ SyncBusy s sc = false ∧ SyncLeft s sc = false := by
  rw [syncBusy_eq_false_iff, syncLeft_eq_false_iff, SyncReady]
  simp only [and_assoc]

theorem lsync_eq (s : State) (sc : Scope) : s.lsync sc =
    if SyncBusy s sc then .error (.hold .sync)
    else if SyncLeft s sc then .error (.hold .sync) else .ok ((performed s sc).mapHart (·.joinedOnce sc)) := rfl

theorem lsync_ok {sc : Scope} (h : SyncReady s sc) : s.lsync sc = .ok ((performed s sc).mapHart (·.joinedOnce sc)) := by
  obtain ⟨hb, hl⟩ := (syncReady_iff s sc).1 h
  rw [lsync_eq, hb, hl]; rfl

theorem lsync_ok_synced {sc : Scope} (h : SyncReady s sc) : s.lsync sc = .ok (synced s sc) := by
  rw [synced, lsync_ok h]

theorem lsync_hold {sc : Scope} (h : ¬SyncReady s sc) : s.lsync sc = .error (.hold .sync) := by
  rw [lsync_eq]
  split_ifs with hb hl
  · rfl
  · rfl
  · exact absurd ((syncReady_iff s sc).2 ⟨Bool.eq_false_iff.2 hb, Bool.eq_false_iff.2 hl⟩) h

theorem performed_steady (s : State) (sc : Scope) : (performed s sc).steady = s.steady := by
  unfold performed
  split
  · exact State.drain_steady s
  · exact State.drainUntil_steady s _

/-! ### Completion counters leave accesses and acknowledgements alone -/

theorem Hart.bumpK_pend (h : Hart) (k : KReg) : (h.bumpK k).pend = h.pend := by
  unfold Hart.bumpK; dsimp only; split <;> rfl

theorem Hart.bumpK_unacked (h : Hart) (k : KReg) : (h.bumpK k).unacked = h.unacked := by
  unfold Hart.bumpK; dsimp only; split <;> rfl

theorem Hart.completeNb_pend (h : Hart) : h.completeNb.pend = h.pend :=
  foldl_keeps (fun (h : Hart) (o : NbOp) => h.bumpK o.k) (·.pend) (fun h o => h.bumpK_pend o.k) _ _

theorem Hart.completeNb_unacked (h : Hart) : h.completeNb.unacked = h.unacked :=
  foldl_keeps (fun (h : Hart) (o : NbOp) => h.bumpK o.k) (·.unacked) (fun h o => h.bumpK_unacked o.k) _ _

theorem Hart.joinedOnce_pend (h : Hart) (sc : Scope) : (h.joinedOnce sc).pend = h.pend := Hart.completeNb_pend _

theorem Hart.joinedOnce_unacked (h : Hart) (sc : Scope) :
    (h.joinedOnce sc).unacked = if sc = .h then h.unacked else [] := Hart.completeNb_unacked _

theorem Hart.joinedOnce_joins (h : Hart) (sc : Scope) : (h.joinedOnce sc).joins = h.joins + 1 :=
  congrArg (·.joins) (Hart.completeNb_steady
    ({ h with unacked := (if sc = .h then h.unacked else []), joins := h.joins + 1 } : Hart))

theorem Hart.joinedOnce_pc (h : Hart) (sc : Scope) : (h.joinedOnce sc).pc = h.pc :=
  congrArg (·.pc) (Hart.completeNb_steady
    ({ h with unacked := (if sc = .h then h.unacked else []), joins := h.joins + 1 } : Hart))

/-! ### The instructions that order -/

theorem performed_readByte {sc : Scope} {x : Nat} (hu : Untouched s x) (hs : Sound s) :
    readByte (performed s sc).mem x = readByte s.mem x := by
  obtain ⟨drained, -, until_⟩ := accessesStoreWhereTheySay s x hs hu
  unfold performed
  split
  · exact drained
  · exact until_ _

theorem execLsync_ready {sc : Scope} (h : SyncReady s sc) : ∃ t, execLsync sc s = .next t ∧ t.hart.pc = s.hart.pc + 4 ∧
    t.hart.joins = s.hart.joins + 1 ∧ (∀ a ∈ t.hart.pend, Scope.rank sc < s.hart.rankOf a.slice) ∧
    (sc = .g → t.hart.pend = []) ∧ (sc ≠ .h → t.hart.unacked = []) ∧
    (∀ x, Untouched s x → Sound s → readByte t.mem x = readByte s.mem x) := by
  have steady := performed_steady s sc
  obtain ⟨-, left⟩ := (syncReady_iff s sc).1 h
  obtain ⟨outside, -⟩ := (syncLeft_eq_false_iff s sc).1 left
  refine ⟨((performed s sc).mapHart (·.joinedOnce sc)).done 4, ?_, ?_, ?_, ?_, ?_, ?_, ?_⟩
  · rw [execLsync, lsync_ok h]; rfl
  · show ((performed s sc).hart.joinedOnce sc).pc + 4 = _
    rw [Hart.joinedOnce_pc, State.pc_of_steady steady]
  · show ((performed s sc).hart.joinedOnce sc).joins = _
    rw [Hart.joinedOnce_joins]
    exact congrArg (·.hart.joins + 1) steady
  · show ∀ a ∈ ((performed s sc).hart.joinedOnce sc).pend, _
    rw [Hart.joinedOnce_pend]; exact outside
  · rintro rfl
    show ((performed s .g).hart.joinedOnce .g).pend = []
    rw [Hart.joinedOnce_pend]
    exact List.eq_nil_iff_forall_not_mem.2 fun a ha => absurd (outside a ha) (Nat.not_lt.2 (Hart.rankOf_le ..))
  · intro hsc
    show ((performed s sc).hart.joinedOnce sc).unacked = []
    rw [Hart.joinedOnce_unacked, if_neg hsc]
  · exact fun x hu hs => performed_readByte hu hs

theorem execLsync_waits {sc : Scope} (h : ¬SyncReady s sc) : execLsync sc s = .next (s.holdHart .sync) := by
  rw [execLsync, lsync_hold h]; rfl

/-- An address that passes its checks resolves. -/
theorem resolve_of_check {a : Quad} {n : Nat} {k : AccKind} {r : SpaceRule} {l : Loc}
    (h : s.check s.hart s.hart.asid a n k r = .ok l) : s.resolve a n k r = .ok l := by
  rw [State.resolve, h]

theorem awaitTurn_eq_ok {a n : Nat} {w : Bool} (h : (s.awaitTurn a n w).isOk = true) : s.awaitTurn a n w = .ok () := by
  cases e : s.awaitTurn a n w with
  | error x => rw [e] at h; cases h
  | ok u => rfl

/-- A scalar store of n bytes whose address passes issues its access. -/
theorem storeReg_next (len n : Nat) (b a : SReg) (off : Quad) (l : Loc) :
    let u := s.needS [b, a]
    Reaches u (u.hart.getS a + off) n .write .any true l →
    s.storeReg len n b a off = .next (issued u len
      { seq := 0, queue := 0, slice := l.slice, addr := l.phys, size := n, shown := l.shown, via := l.via, tag := none,
        held := u.hart.taintS a ||| u.hart.taintS b, op := .store ((u.hart.getS b).toNat % 256 ^ n) }) := by
  intro u h
  obtain ⟨hc, ht⟩ := h
  unfold State.storeReg
  dsimp only
  rw [show s.needS [b, a] = u from rfl, resolve_of_check hc]
  dsimp only
  rw [awaitTurn_eq_ok ht]
  clear_value u
  rfl

/-- The store widths, each with its size. -/
theorem stWidth_size {p : StWidth × Nat} (h : p ∈ ([(.b, 1), (.h, 2), (.w, 4), (.q, 8)] : List (StWidth × Nat))) :
    StWidth.size p.1 = p.2 := by
  revert p; decide

theorem execStRel_next {sc : Scope} (wd : StWidth) (b a : SReg) (l : Loc) (h : SyncReady s sc) :
    let u := (synced s sc).needS [b, a]
    Reaches u (u.hart.getS a) (StWidth.size wd) .write .any true l →
    execStRel wd sc a b s = .next (issued u 4
      { seq := 0, queue := 0, slice := l.slice, addr := l.phys, size := StWidth.size wd, shown := l.shown, via := l.via,
        tag := none, held := u.hart.taintS a ||| u.hart.taintS b,
        op := .store ((u.hart.getS b).toNat % 256 ^ StWidth.size wd) }) := by
  intro u hr
  rw [execStRel, lsync_ok_synced h]
  exact storeReg_next 4 _ b a 0 l ((BitVec.add_zero (u.hart.getS a)).symm ▸ hr)

/-- The condition under which ifence waits, as its statement says it. -/
theorem ifence_waits_iff (s u : State) : (s.hart.queueStores || u.hart.pend.any (·.op.writes)) = true ↔
    (s.hart.thaw = true ∧ ∃ e ∈ s.hart.frozen, ∃ r ∈ e.ranges, r.2 = true) ∨ ∃ a ∈ u.hart.pend, a.op.writes = true := by
  simp only [Hart.queueStores, Bool.or_eq_true, Bool.and_eq_true, List.any_eq_true]

theorem orderingInstructions : orderingInstructionsRule := by
  refine ⟨fun s sc => ⟨execLsync_ready, execLsync_waits⟩, ?stRel, ?ifence⟩
  case stRel =>
    intro s sc b a l p hp hr u hreach
    rw [show (2 : Nat) ^ (8 * p.2) = 256 ^ p.2 by rw [Nat.pow_mul]]
    rw [← stWidth_size hp] at hreach ⊢
    exact execStRel_next p.1 b a l hr hreach
  case ifence =>
    intro s u left
    have waits := ifence_waits_iff s u
    show (_ → execIfence s = _) ∧ (_ → execIfence s = _)
    unfold execIfence
    refine ⟨fun ⟨hq, hp⟩ => ?_, fun h => ?_⟩
    · refine if_neg fun k => ?_
      rcases waits.1 k with k | ⟨a, ha, k⟩
      · exact hq k
      · rw [hp a ha] at k; cases k
    · exact if_pos (waits.2 h)

/-! ### Parking (R38) -/

theorem quiesce_ok (h : Quiet s) : s.quiesce = .ok s.drain := by
  obtain ⟨hb, hp, hs⟩ := h
  rw [State.quiesce, hb]
  simp [hp, hs]

/-! ### Waking -/

/-- A hart that is woken changes in its status alone. -/
theorem Hart.wake_eq (c : Quad) (h : Hart) : ∃ st, h.wake c = { h with status := st } := by
  unfold Hart.wake
  split
  · exact ⟨_, rfl⟩
  · exact ⟨_, rfl⟩

/-- Waking the harts of a list changes the hart whose turn it is in its status alone. -/
theorem wakeAll_hart (c : Quad) : ∀ (l : List Waiter) (s : State), ∃ st,
    (l.foldl (fun t w => t.onHart w.hart (Hart.wake c)) s).hart = { s.hart with status := st }
  | [], s => ⟨s.hart.status, rfl⟩
  | w :: r, s => by
    obtain ⟨st, e⟩ := wakeAll_hart c r (s.onHart w.hart (Hart.wake c))
    rw [List.foldl_cons, e]
    unfold State.onHart
    split
    · obtain ⟨st', e'⟩ := s.hart.wake_eq c
      exact ⟨st, by rw [e']⟩
    · exact ⟨st, rfl⟩

theorem State.onHart_waiters (s : State) (r : HartRef) (f : Hart → Hart) : (s.onHart r f).waiters = s.waiters := by
  unfold State.onHart; split <;> rfl

theorem wakeAll_waiters (c : Quad) (l : List Waiter) (s : State) :
    (l.foldl (fun t w => t.onHart w.hart (Hart.wake c)) s).waiters = s.waiters :=
  foldl_keeps _ State.waiters (fun _ _ => State.onHart_waiters ..) l s

/-- The waiters of a line that a wakea of n wakes: the oldest n, and all for 0. -/
def State.chosen (s : State) (line n : Nat) : List Waiter :=
  let mine := s.waiters.filter (·.line == line)
  if n = 0 then mine else mine.take n

theorem State.wakeLine_waiters (s : State) (line n : Nat) :
    (s.wakeLine line n).1.waiters = s.waiters.filter fun w => !(s.chosen line n).any (·.hart == w.hart) :=
  wakeAll_waiters ..

theorem State.wakeLine_hart (s : State) (line n : Nat) : ∃ st, (s.wakeLine line n).1.hart = { s.hart with status := st } :=
  wakeAll_hart ..

theorem Hart.getS_setS_same (h : Hart) {d : SReg} (v : Quad) (t : TaintSet) (hd : d ≠ 0) : (h.setS d v t).getS d = v := by
  rw [Hart.setS_eq, Hart.getS, if_neg hd]
  dsimp only
  rw [if_neg (show ¬d = 0#5 from hd)]
  exact Vector.getElem_set_self _

theorem Hart.getS_setS_other (h : Hart) {d r : SReg} (v : Quad) (t : TaintSet) (hr : r ≠ d) :
    (h.setS d v t).getS r = h.getS r := by
  have hn : d.toNat ≠ r.toNat := fun e => hr (BitVec.eq_of_toNat_eq e.symm)
  rw [Hart.setS_eq, Hart.getS, Hart.getS]
  refine if_congr Iff.rfl rfl ?_
  dsimp only
  split
  · rfl
  · exact Vector.getElem_set_ne _ _ hn

theorem State.mapHart_setS_done (s : State) (d : SReg) (x : Quad) : (s.mapHart (·.setS d x 0)).done 4 = ranS s 4 d x 0 :=
  State.answer_eq_ranS s d x

/-! ### waita and wakea -/

theorem execWaita_next (d a b : SReg) (l : Loc) (h : SyncReady s .g) :
    let u := synced s .g
    let home := homeOf l.phys
    u.check u.hart u.hart.asid (u.hart.getS a) 8 .read .home = .ok l →
    (readQuad u.mem l.phys ≠ u.hart.getS b → execWaita d a b s = .next (ranS u 4 d 1 0)) ∧
    (readQuad u.mem l.phys = u.hart.getS b → 32 ≤ (u.waiters.filter (·.home == home)).length →
      execWaita d a b s = .next (ranS u 4 d 2 0)) ∧
    (readQuad u.mem l.phys = u.hart.getS b → (u.waiters.filter (·.home == home)).length < 32 → Quiet u →
      execWaita d a b s = .next (parked { u.drain with waiters := u.drain.waiters ++ [⟨home, l.phys / 64, u.drain.hart.ref⟩] }
        (.waita (l.phys / 64)) d (u.drain.hart.pc + 4))) := by
  intro u home hc
  unfold execWaita
  rw [lsync_ok_synced h]
  dsimp only
  rw [resolve_of_check hc]
  dsimp only
  refine ⟨fun ne => ?_, fun eq full => ?_, fun eq room hq => ?_⟩
  · rw [if_pos ne, State.mapHart_setS_done]; rfl
  · rw [if_neg (not_not.2 eq), if_pos (show Config.waitListEntries ≤ _ from full), State.mapHart_setS_done]; rfl
  · rw [if_neg (not_not.2 eq), if_neg (show ¬Config.waitListEntries ≤ _ from Nat.not_le.2 room), quiesce_ok hq]; rfl

theorem execWakea_next (d a b : SReg) (l : Loc) {w : State} :
    let u := s.needS [d, a, b]
    let line := l.phys / 64
    let inLine := fun (x : Access) => x.op.writes && meets (64 * line) 64 x.addr x.size
    let v := w.drainUntil inLine
    let r := v.wakeLine line (v.hart.getS b).toNat
    u.check19 u.hart u.hart.asid (u.hart.getS a) 8 .read .home = .ok l →
    u.settle (u.hart.taintS a ||| u.hart.taintS b) = .ok w →
    v.hart.queueTouches (w.hart.canon (w.hart.getS a) / 64 * 64) 64 false = false → v.hart.pend.any inLine = false →
    execWakea d a b s = .next ((r.1.mapHart (·.setS d (BitVec.ofNat 64 r.2) 0)).done 4) := by
  intro u line inLine v r hc hs hq hp
  unfold execWakea
  dsimp only
  rw [show s.needS [d, a, b] = u from rfl, hc]
  dsimp only
  rw [hs]
  dsimp only
  rw [if_neg]
  · rfl
  · show ¬(v.hart.queueTouches (w.hart.canon (w.hart.getS a) / 64 * 64) 64 false || v.hart.pend.any inLine) = true
    rw [hq, hp]
    exact Bool.false_ne_true

theorem waitAndWake : waitAndWakeRule := by
  refine ⟨fun s d a b l h => execWaita_next d a b l h, ?wakea⟩
  intro s w d a b l u line inLine v mine n woken hc hs hq hp
  obtain ⟨st, woke⟩ := v.wakeLine_hart line n
  refine ⟨_, execWakea_next d a b l hc hs hq hp, v.wakeLine_mem line n, ?_, ?_, ?_, v.wakeLine_waiters line n⟩
  · show ((v.wakeLine line n).1.hart.setS d _ 0).pc + 4 = _
    rw [woke, Hart.setS_pc]
  · exact fun hd => Hart.getS_setS_same _ _ _ hd
  · intro r hr
    refine (Hart.getS_setS_other _ _ _ hr).trans ?_
    show (v.wakeLine line n).1.hart.getS r = _
    rw [woke]; rfl

/-- Settles O12: lsync waits exactly while something of its scope is busy or left (`syncReady_iff`), st.rel and waita begin with
it, and wakea removes the waiters that `State.chosen` names. -/
theorem orderingAndWaiting : Obligations.OrderingAndWaiting := ⟨orderingInstructions, waitAndWake⟩
end Sys2Proof.Machine
end

section
/-! SUPPORT. Lane groups, vector configuration and strip loops: the low bits of a byte, and what a grant sets. -/

namespace Sys2Proof.Machine
variable {s t : State}

/-! ### Counting the bits of a byte -/

theorem popCount_eq_countP (x : Byte) : popCount x.toNat 8 = (List.range 8).countP (x.getLsbD ·) := by
  simp only [popCount, List.countP_eq_length_filter, BitVec.testBit_toNat]

theorem countP_or_of_disjoint {α : Type} (p q : α → Bool) : ∀ l : List α, (∀ a ∈ l, (p a && q a) = false) →
    l.countP (fun a => p a || q a) = l.countP p + l.countP q
  | [], _ => rfl
  | a :: l, h => by
    have ih := countP_or_of_disjoint p q l fun x hx => h x (List.mem_cons_of_mem _ hx)
    have ha := h a List.mem_cons_self
    rw [List.countP_cons, List.countP_cons, List.countP_cons, ih]
    cases hp : p a <;> cases hq : q a
    · simp
    · simp; omega
    · simp; omega
    · simp [hp, hq] at ha

/-- The bits of disjoint bytes add up. -/
theorem popCount_or {x y : Byte} (h : x &&& y = 0) : popCount (x ||| y).toNat 8 = popCount x.toNat 8 + popCount y.toNat 8 := by
  have disjoint : ∀ i, (x.getLsbD i && y.getLsbD i) = false := fun i => by
    rw [← BitVec.getLsbD_and, h]; exact BitVec.getLsbD_zero
  simp only [popCount_eq_countP, BitVec.getLsbD_or]
  exact countP_or_of_disjoint _ _ _ fun i _ => disjoint i

/-! ### The lowest set bits -/

/-- What `lowBits` has collected, and how many, from the first k bits. -/
def lowBitsGo (n : Nat) (b : Byte) (k : Nat) : Byte × Nat :=
  (List.range k).foldl (fun (acc : Byte × Nat) i =>
    if bitOf b i && decide (acc.2 < n) then (acc.1 ||| (1#8 <<< i), acc.2 + 1) else acc) (0, 0)

theorem lowBits_eq (n : Nat) (b : Byte) : lowBits n b = (lowBitsGo n b 8).1 := rfl

theorem lowBitsGo_succ (n : Nat) (b : Byte) (k : Nat) : lowBitsGo n b (k + 1) =
    if bitOf b k && decide ((lowBitsGo n b k).2 < n) then
      ((lowBitsGo n b k).1 ||| (1#8 <<< k), (lowBitsGo n b k).2 + 1) else lowBitsGo n b k := by
  rw [lowBitsGo, List.range_succ, List.foldl_append]; rfl

theorem lowBitsGo_count (n : Nat) (b : Byte) : ∀ k, (lowBitsGo n b k).2 = min n ((List.range k).countP (b.getLsbD ·))
  | 0 => (Nat.min_zero n).symm
  | k + 1 => by
    have ih := lowBitsGo_count n b k
    rw [lowBitsGo_succ, List.range_succ, List.countP_append, List.countP_singleton, bitOf]
    cases b.getLsbD k
    · simp [ih]
    · by_cases full : (lowBitsGo n b k).2 < n
      · simp [full]; omega
      · simp [full]; omega

/-- A collected bit is one of the byte below k, and the collected bits below k are as many as were counted. -/
theorem lowBitsGo_bits (n : Nat) (b : Byte) : ∀ k, k ≤ 8 →
    (∀ i, (lowBitsGo n b k).1.getLsbD i = true → i < k ∧ b.getLsbD i = true) ∧
    (List.range k).countP ((lowBitsGo n b k).1.getLsbD ·) = (lowBitsGo n b k).2
  | 0, _ => ⟨fun i h => absurd h (by simp [lowBitsGo]), rfl⟩
  | k + 1, hk => by
    obtain ⟨sub, count⟩ := lowBitsGo_bits n b k (by omega)
    have top : (lowBitsGo n b k).1.getLsbD k = false := by
      by_contra h
      exact absurd (sub k (Bool.not_eq_false _ ▸ h)).1 (Nat.lt_irrefl k)
    rw [lowBitsGo_succ, List.range_succ, List.countP_append, List.countP_singleton]
    split
    · next taken =>
      obtain ⟨hb, -⟩ := Bool.and_eq_true_iff.1 taken
      have one : ∀ i, (1#8 <<< k).getLsbD i = decide (i = k) := fun i => by
        rw [Bool.eq_iff_iff, decide_eq_true_eq]
        simp only [BitVec.getLsbD_shiftLeft, BitVec.getLsbD_one, Bool.and_eq_true, decide_eq_true_eq, Bool.not_eq_true',
          decide_eq_false_iff_not]
        omega
      refine ⟨fun i h => ?_, ?_⟩
      · rw [BitVec.getLsbD_or, one, Bool.or_eq_true, decide_eq_true_eq] at h
        rcases h with h | rfl
        · exact ⟨Nat.lt_succ_of_lt (sub i h).1, (sub i h).2⟩
        · exact ⟨Nat.lt_succ_self i, hb⟩
      · have same : (List.range k).countP (((lowBitsGo n b k).1 ||| 1#8 <<< k).getLsbD ·) =
            (List.range k).countP ((lowBitsGo n b k).1.getLsbD ·) := by
          refine List.countP_congr fun i hi => ?_
          have : i ≠ k := Nat.ne_of_lt (List.mem_range.1 hi)
          rw [BitVec.getLsbD_or, one, decide_eq_false this, Bool.or_false]
        rw [same, count, BitVec.getLsbD_or, one]
        simp
    · exact ⟨fun i h => ⟨Nat.lt_succ_of_lt (sub i h).1, (sub i h).2⟩, by rw [count, top]; rfl⟩

theorem lowBits_sub {n : Nat} {b : Byte} {i : Nat} (h : (lowBits n b).getLsbD i = true) : b.getLsbD i = true :=
  ((lowBitsGo_bits n b 8 (Nat.le_refl 8)).1 i h).2

theorem popCount_lowBits (n : Nat) (b : Byte) : popCount (lowBits n b).toNat 8 = min n (popCount b.toNat 8) := by
  rw [popCount_eq_countP, popCount_eq_countP, lowBits_eq, (lowBitsGo_bits n b 8 (Nat.le_refl 8)).2, lowBitsGo_count]

/-- The bits of x lie among those of y. -/
theorem and_not_eq_zero {x y : Byte} (h : ∀ i, x.getLsbD i = true → y.getLsbD i = true) : x &&& ~~~y = 0 := by
  refine BitVec.eq_of_getLsbD_eq fun i hi => ?_
  rw [BitVec.getLsbD_and, BitVec.getLsbD_not, decide_eq_true hi, Bool.true_and, show (0 : Byte).getLsbD i = false from BitVec.getLsbD_zero]
  cases hx : x.getLsbD i
  · rfl
  · rw [h i hx]; rfl

/-! ### The grant (R25) -/

/-- The lane groups of a hart once a grant has made their number n. -/
def granted (n g : Nat) (own free : Byte) : Byte := if n ≤ g then lowBits n own else own ||| lowBits (n - g) free

theorem granted_among (n g : Nat) (own free : Byte) : granted n g own free &&& ~~~(own ||| free) = 0 := by
  refine and_not_eq_zero fun i h => ?_
  rw [BitVec.getLsbD_or, Bool.or_eq_true]
  unfold granted at h
  split at h
  · exact .inl (lowBits_sub h)
  · rw [BitVec.getLsbD_or, Bool.or_eq_true] at h
    exact h.imp id lowBits_sub

theorem popCount_granted {n g : Nat} {own free : Byte} (hg : popCount own.toNat 8 = g) (apart : own &&& free = 0)
    (hn : n ≤ g + popCount free.toNat 8) : popCount (granted n g own free).toNat 8 = n := by
  unfold granted
  split
  · next h => rw [popCount_lowBits, hg]; omega
  · next h =>
    have apart' : own &&& lowBits (n - g) free = 0 := by
      refine BitVec.eq_of_getLsbD_eq fun i _ => ?_
      have hi : (own.getLsbD i && free.getLsbD i) = false := by
        rw [← BitVec.getLsbD_and, apart]; exact BitVec.getLsbD_zero
      rw [BitVec.getLsbD_and, show (0 : Byte).getLsbD i = false from BitVec.getLsbD_zero]
      cases hl : (lowBits (n - g) free).getLsbD i
      · exact Bool.and_false _
      · rwa [lowBits_sub hl] at hi
    rw [popCount_or apart', popCount_lowBits, hg]
    omega

theorem vlmaxFor_eq (g nreg : Nat) (w64 : Bool) : vlmaxFor g nreg w64 = 8192 * g / (2 ^ (3 + nreg) * (if w64 then 2 else 1)) := by
  rw [vlmaxFor, Nat.pow_add]; rfl

/-- The number of lane groups that a request gives. -/
def State.grantCount (s : State) : Nat := min s.hart.csr.lgreq.toNat (s.hart.g + popCount s.freeShare.toNat 8)

/-- LGREQ after a grant of n. -/
def UserCsr.requestAfter (c : UserCsr) (n : Nat) : BitVec 4 := if n = c.lgreq.toNat then 0 else c.lgreq

theorem applyGrant_none (h : s.hart.csr.lgreq = 0) : s.applyGrant = s := by
  unfold State.applyGrant
  exact if_pos (congrArg BitVec.toNat h)

theorem applyGrant_same (h : s.hart.csr.lgreq ≠ 0) (e : s.grantCount = s.hart.g) :
    s.applyGrant = s.setHart { s.hart with csr := { s.hart.csr with lgreq := s.hart.csr.requestAfter s.grantCount } } := by
  have want : s.hart.csr.lgreq.toNat ≠ 0 := fun k => h (BitVec.eq_of_toNat_eq k)
  unfold State.applyGrant
  dsimp only
  rw [if_neg want, if_pos (show min _ _ = _ from e)]
  rfl

theorem applyGrant_changed (h : s.hart.csr.lgreq ≠ 0) (e : s.grantCount ≠ s.hart.g) :
    s.applyGrant = s.setHart { s.hart.clearVectors with
      g := s.grantCount
      csr := { s.hart.csr with
        lgrp := granted s.grantCount s.hart.g s.hart.csr.lgrp s.freeShare
        vlmax := BitVec.ofNat 32 (vlmaxFor s.grantCount s.hart.csr.nreg.toNat s.hart.csr.w64)
        lgreq := s.hart.csr.requestAfter s.grantCount } } := by
  have want : s.hart.csr.lgreq.toNat ≠ 0 := fun k => h (BitVec.eq_of_toNat_eq k)
  unfold State.applyGrant
  dsimp only
  rw [if_neg want, if_neg (show ¬min _ _ = _ from e)]
  rfl

/-- Settles O16: a grant either leaves the count and clears what was asked, or gives the lane groups that `granted` counts. -/
theorem laneGrant : Obligations.LaneGrant := by
  unfold Obligations.LaneGrant
  intro s h t n
  refine ⟨applyGrant_none, fun hr hg apart => ?_⟩
  by_cases e : n = h.g
  · have ht : t = _ := applyGrant_same hr e
    rw [ht]
    refine ⟨e.symm, hg.trans e.symm, and_not_eq_zero fun i hi => ?_, rfl, fun _ => ⟨rfl, rfl, rfl⟩, fun ne => absurd e ne,
      rfl, rfl, rfl⟩
    rw [BitVec.getLsbD_or]
    exact Bool.or_eq_true_iff.2 (.inl hi)
  · have ht : t = _ := applyGrant_changed hr e
    rw [ht]
    refine ⟨rfl, popCount_granted hg apart (Nat.min_le_right _ _), granted_among .., rfl, fun e' => absurd e' e,
      fun _ => ⟨fun i => Vector.getElem_replicate .., fun i => Vector.getElem_replicate .., ?_⟩, rfl, rfl, rfl⟩
    rw [← vlmaxFor_eq]; rfl

/-! ### Configuration (R192, R193) -/

theorem execVcfg_next (h : Quiet s) (d : SReg) (nreg : BitVec 2) (w64 : Bool) (lgreq : BitVec 4) :
    let u := s.drain
    let n := 8192 * u.hart.g / (2 ^ (3 + nreg.toNat) * (if w64 then 2 else 1))
    execVcfg d nreg w64 lgreq s = .next (ranS { u with hart := { u.hart with
      v := Vector.replicate 64 {}, m := Vector.replicate 8 {},
      csr := { u.hart.csr with nreg := nreg, w64 := w64, lgreq := lgreq, vlmax := BitVec.ofNat 32 n, vl := 0,
                               vlast := 0 } } } 4 d (BitVec.ofNat 64 n) 0) := by
  intro u n
  unfold execVcfg
  rw [quiesce_ok h]
  dsimp only [finish, State.mapHart]
  rw [vlmaxFor_eq, Hart.setS_eq]
  rfl

/-- The state in which vsetl sets vl: a waiting request is applied where no vector instruction is in flight. -/
theorem tryGrant_eq (u : State) : u.tryGrant =
    if u.hart.csr.lgreq = 0 ∨ u.hart.vectorBusy = true then u
    else if u.drain.hart.struck = true ∨ ∃ a ∈ u.drain.hart.pend, a.queue ≠ 0 then u.drain else u.drain.applyGrant := by
  have held : (u.drain.hart.struck || u.drain.hart.pend.any (fun a => a.queue != 0)) = true ↔
      u.drain.hart.struck = true ∨ ∃ a ∈ u.drain.hart.pend, a.queue ≠ 0 := by
    rw [Bool.or_eq_true, List.any_eq_true]; simp only [bne_iff_ne]
  unfold State.tryGrant
  exact if_congr Iff.rfl rfl (if_congr held rfl rfl)

theorem execVsetl_next (s : State) (d a : SReg) (gl : BitVec 2) (tp mp : Bool) :
    let v := (s.needS [d, a]).tryGrant
    let vl : Word := BitVec.ofNat 32 (min (v.hart.getS a).toNat (v.hart.csr.vlmax.toNat * 2 ^ gl.toNat))
    execVsetl d a gl tp mp s = .next (ranS { v with hart := { v.hart with
      ct := v.hart.ct ||| v.hart.taintS a,
      csr := { v.hart.csr with
        gl := gl, tp := tp, mp := mp, vl := vl,
        vlast := if v.hart.csr.vlast.toNat % 2 ^ gl.toNat ≠ 0 then 0 else v.hart.csr.vlast } } }
      4 d (vl.setWidth 64) 0) := by
  intro v vl
  unfold execVsetl
  dsimp only [State.mapHart]
  rw [Hart.setS_eq]
  rfl

/-! ### Strip loops (R27, R28) -/

theorem execSloop_next (s : State) (a : SReg) (off : BitVec 12) :
    let u := s.needS [a]
    let first := u.hart.csr.grant (u.hart.getS a)
    execSloop a off s = .next { u with hart := { u.hart with
      ct := u.hart.ct ||| u.hart.taintS a, status := .running, par := none,
      csr := { u.hart.csr with slen := u.hart.getS a, strip := 0, sbase := 0, vl := first },
      pc := if first = 0 then s.hart.pc + 2 * off.signExtend 64 else u.hart.pc + 4 } } := by
  intro u first
  rw [← State.pc_of_steady (State.needS_steady s [a])]
  rfl

/-- What is left of the length after a strip, no less than nothing. -/
theorem left_toNat (x y : Quad) : (if x.toNat ≤ y.toNat then 0 else x - y : Quad).toNat = x.toNat - y.toNat := by
  split
  · next h => exact (Nat.sub_eq_zero_of_le h).symm
  · next h => exact BitVec.toNat_sub_of_le (BitVec.le_def.2 (Nat.le_of_not_le h))

theorem execSnext_next (s : State) (off : BitVec 12) :
    let old := s.hart.csr
    let sbase := old.sbase + old.vl.setWidth 64
    let next : Word := BitVec.ofNat 32 (min (old.slen.toNat - sbase.toNat) (old.vlmax.toNat * 2 ^ old.gl.toNat))
    execSnext off s = .next { s with hart := { s.hart with
      status := .running, par := if next = 0 then none else s.hart.par,
      csr := { old with sbase := sbase, strip := old.strip + 1, vl := next },
      pc := if next = 0 then s.hart.pc + 4 else s.hart.pc + 2 * off.signExtend 64 } } := by
  intro old sbase next
  have granted : old.grant (if old.slen.toNat ≤ sbase.toNat then 0 else old.slen - sbase) = next := by
    rw [UserCsr.grant, left_toNat]; rfl
  rw [← granted]
  rfl

theorem exec_vcfg (d : SReg) (n : BitVec 2) (w : Bool) (l : BitVec 4) (s : State) :
    exec (.vcfg d n w l) s = execVcfg d n w l s := rfl
theorem exec_vsetl (d a : SReg) (gl : BitVec 2) (tp mp : Bool) (s : State) :
    exec (.vsetl d a gl tp mp) s = execVsetl d a gl tp mp s := rfl
theorem exec_sloop (a : SReg) (off : BitVec 12) (s : State) : exec (.sloop a off) s = execSloop a off s := rfl
theorem exec_snext (off : BitVec 12) (s : State) : exec (.snext off) s = execSnext off s := rfl

theorem vectorConfiguration : vectorConfigurationRule := by
  intro s d a nreg w64 lgreq gl tp mp
  refine ⟨fun h => (exec_vcfg ..).trans (execVcfg_next h d nreg w64 lgreq), ?_⟩
  intro u w v x vl
  rw [exec_vsetl, execVsetl_next, tryGrant_eq]

/-- Settles O17: each instruction is its own definition, where a grant of vl is the smaller of two numbers. -/
theorem vectorConfigurationAndStrips : Obligations.VectorConfigurationAndStrips :=
  ⟨vectorConfiguration, fun s a off => ⟨(exec_sloop ..).trans (execSloop_next s a off), (exec_snext ..).trans (execSnext_next s off)⟩⟩
end Sys2Proof.Machine
end

section
/-! SUPPORT. Steps of a hart that no instruction names: asynchronous traps, waits that end, parked harts that go on. -/

namespace Sys2Proof.Machine
variable {s t : State}

/-! ### Trap entry keeps the name of the hart -/

theorem Hart.setGroupData_ref (h : Hart) (r : VReg) (d : List Word) : (h.setGroupData r d).ref = h.ref := by
  unfold Hart.setGroupData
  split
  · rfl
  · exact foldl_keeps _ (fun x : Hart => x.ref) (by intros; rfl) _ _

theorem Hart.freezeHit_ref (h : Hart) (seq j : Nat) : (h.freezeHit seq j).ref = h.ref := by
  unfold Hart.freezeHit
  split
  · rfl
  · dsimp only
    split
    · rfl
    · exact Hart.setGroupData_ref ..

theorem Hart.freezeHits_ref (h : Hart) : h.freezeHits.ref = h.ref :=
  foldl_keeps (fun (x : Hart) (a : Hit) => match a.elem with
    | none => x
    | some _ => x.freezeHit a.seq (x.lowestHit a.seq)) (fun x : Hart => x.ref)
    (fun x a => by
      split
      · rfl
      · exact Hart.freezeHit_ref ..) h.hits h

theorem Hart.freezeColls_ref (h : Hart) : h.freezeColls.ref = h.ref := by
  unfold Hart.freezeColls
  exact foldl_keeps _ (fun x : Hart => x.ref) (by intros; rfl) h.colls h

theorem Hart.enterTrap_ref (h : Hart) (t : Trap) : (h.enterTrap t).ref = h.ref := rfl
theorem Hart.enterTrap_status (h : Hart) (t : Trap) : (h.enterTrap t).status = .running := rfl
theorem Hart.dropTags_ref (h : Hart) : h.dropTags.ref = h.ref := rfl

theorem State.ringAppend_ref (s : State) (blk base lo hi : Nat) (r : List Quad) :
    (s.ringAppend blk base lo hi r).hart.ref = s.hart.ref := by
  unfold State.ringAppend
  dsimp only
  split
  · rfl
  · obtain ⟨st, e⟩ := State.wakeLine_hart _ (lineOf blk) 0
    rw [e]

theorem State.machineCheck_ref (s : State) (pkg addr kind unit count : Nat) (asid : BitVec 16) :
    (s.machineCheck pkg addr kind unit count asid).hart.ref = s.hart.ref := by
  unfold State.machineCheck
  split
  · rfl
  · dsimp only
    exact State.ringAppend_ref ..

theorem State.noteTrap_ref (s : State) (t : Trap) : (s.noteTrap t).hart.ref = s.hart.ref := by
  unfold State.noteTrap
  split
  · rfl
  · split
    · exact State.machineCheck_ref ..
    · rfl

theorem State.unpark_ref (s : State) : s.unpark.hart.ref = s.hart.ref := by
  unfold State.unpark
  split
  · exact Hart.setS_ref ..
  · rfl

theorem State.orphanShoots_hart (s : State) : s.orphanShoots.hart = s.hart := by
  unfold State.orphanShoots
  dsimp only
  split <;> rfl

theorem State.takeTrap_ref (s : State) (t : Trap) : (s.takeTrap t).hart.ref = s.hart.ref := by
  unfold State.takeTrap
  simp only [State.drawn_hart, State.mapHart_hart]
  rw [Hart.enterTrap_ref, Hart.dropTags_ref, Hart.freezeHits_ref, State.ref_of_steady (State.drain_steady _),
    State.mapHart_hart, Hart.dropTags_ref, Hart.freezeColls_ref, State.orphanShoots_hart, State.unpark_ref,
    State.noteTrap_ref]

theorem State.takeTrap_status (s : State) (t : Trap) : (s.takeTrap t).hart.status = .running := by
  unfold State.takeTrap
  simp only [State.drawn_hart, State.mapHart_hart]
  exact Hart.enterTrap_status ..

theorem Hart.wipeRevoked_ref (h : Hart) : h.wipeRevoked.ref = h.ref := rfl
theorem Hart.wipeRevoked_status (h : Hart) : h.wipeRevoked.status = h.status := rfl

theorem State.asyncTrap_ref (s : State) (c : Byte) : (s.asyncTrap c).hart.ref = s.hart.ref := by
  unfold State.asyncTrap
  split
  · rw [State.mapHart_hart, Hart.wipeRevoked_ref, State.takeTrap_ref, State.mapHart_hart, Hart.discardWork]
  · exact State.takeTrap_ref ..

theorem State.asyncTrap_status (s : State) (c : Byte) : (s.asyncTrap c).hart.status = .running := by
  unfold State.asyncTrap
  split
  · rw [State.mapHart_hart, Hart.wipeRevoked_status, State.takeTrap_status]
  · exact State.takeTrap_status ..

/-! ### The hart whose turn it is -/

theorem State.focus_self {r : HartRef} (hr : s.hart.ref = r) (hv : s.hart.status ≠ .vacant) : s.focus r = s := if_pos ⟨hr, hv⟩

theorem State.findHart_self {r : HartRef} (hr : s.hart.ref = r) (hv : s.hart.status ≠ .vacant) : s.findHart r = some s.hart := by
  rw [State.findHart, State.harts, if_neg hv, List.find?_cons_of_pos (by rw [hr]; exact beq_self_eq_true r)]

/-- What is done with the hart whose turn it is, and leaves it placed, is done where it stands. -/
theorem State.withHart_self {r : HartRef} {f : State → State} (hr : s.hart.ref = r) (hv : s.hart.status ≠ .vacant)
    (hr' : (f s).hart.ref = r) (hv' : (f s).hart.status ≠ .vacant) : s.withHart r f = f s := by
  have found : (s.harts.find? (·.ref == r)).isNone = false := by
    rw [show s.harts.find? (·.ref == r) = s.findHart r from rfl, State.findHart_self hr hv]; rfl
  unfold State.withHart
  rw [found, State.focus_self hr hv, hr]
  exact State.focus_self hr' hv'

/-- The turn of a hart that runs or is held takes its asynchronous cause (R334). -/
theorem wakeTurn_of_issuing (h : s.hart.status = .running ∨ ∃ w, s.hart.status = .held w) :
    s.wakeTurn = s.hart.asyncCause.elim s s.asyncTrap := by
  cases e : s.hart.asyncCause with
  | none => rcases h with h | ⟨w, h⟩ <;> simp only [State.wakeTurn, h, e, Option.elim_none]
  | some c => rcases h with h | ⟨w, h⟩ <;> simp only [State.wakeTurn, h, e, Option.elim_some]

theorem execTrapEntry_next {r : HartRef} (hr : s.hart.ref = r) (h : s.hart.status = .running ∨ ∃ w, s.hart.status = .held w) :
    execTrapEntry r s = .next (s.hart.asyncCause.elim s s.asyncTrap) := by
  have placed : s.hart.status ≠ .vacant := by rcases h with h | ⟨w, h⟩ <;> rw [h] <;> exact nofun
  rw [execTrapEntry]
  refine congrArg Host.Outcome.next ?_
  have turn := wakeTurn_of_issuing h
  cases e : s.hart.asyncCause with
  | none =>
    rw [e] at turn
    exact (State.withHart_self hr placed (turn.symm ▸ hr) (turn.symm ▸ placed)).trans turn
  | some c =>
    rw [e] at turn
    refine (State.withHart_self hr placed ?_ ?_).trans turn
    · rw [turn, Option.elim_some, State.asyncTrap_ref, hr]
    · rw [turn, Option.elim_some, State.asyncTrap_status]; exact nofun

/-! ### Parked harts -/

/-- A hart that something has woken, or that is not in waita, goes on. -/
theorem execHartResume_woken {r : HartRef} {h : Hart} (e : s.findHart r = some h)
    (woken : ∀ line d, h.status ≠ .parked (.waita line) d none) : execHartResume r s = .next (s.goOn r) := by
  rw [execHartResume, e]
  dsimp only
  split
  · next line d k => exact absurd k (woken line d)
  · rfl

theorem execHartResume_waiting {r : HartRef} {h : Hart} {line : Nat} {d : SReg} (e : s.findHart r = some h)
    (waits : h.status = .parked (.waita line) d none) : execHartResume r s =
      .next (if Config.choice s.free then (s.wakeSpurious r).goOn r else s.drawn) := by
  rw [execHartResume, e]
  dsimp only
  rw [waits]

theorem wakeSpurious_eq (s : State) (r : HartRef) : s.wakeSpurious r =
    ({ s with waiters := s.waiters.filter (·.hart != r), free := s.free + 1 } : State).onHart r (Hart.wake 2) := by
  unfold State.wakeSpurious State.onHart
  dsimp only
  split <;> rfl

/-- Settles O23: trap entry is `State.wakeTurn` where the hart stands (`State.withHart_self`); the other steps are their own
definitions on the status that the clause names. -/
theorem hartEvents : Obligations.HartEvents := by
  unfold Obligations.HartEvents
  intro s r p cause
  refine ⟨?trap, rfl, ?woken, ?waiting, ?gyield, ?gwait, rfl⟩
  case trap =>
    intro hr hs
    have taken : s.hart.asyncCause = cause := by
      unfold Hart.asyncCause
      by_cases hu : s.hart.uninterrupted = true
      · rw [if_pos hu]; exact (if_pos (.inl hu)).symm
      · rw [if_neg hu]
        by_cases hl : s.hart.level = .s ∧ s.hart.sup.aie = false
        · rw [if_pos hl]; exact (if_pos (.inr hl)).symm
        · rw [if_neg hl]; exact (if_neg (not_or.2 ⟨hu, hl⟩)).symm
    have step := execTrapEntry_next hr hs
    rw [taken] at step
    refine step.trans ?_
    cases cause with
    | none => rfl
    | some c => rfl
  case woken =>
    intro h e nw
    have go := execHartResume_woken e nw
    rw [State.goOn, e] at go
    exact ⟨fun q => go.trans (congrArg _ (if_pos q)), fun q => go.trans (congrArg _ (if_neg (Bool.eq_false_iff.1 q)))⟩
  case waiting =>
    intro h line d e hw
    refine (execHartResume_waiting e hw).trans ?_
    rw [wakeSpurious_eq]; rfl
  case gyield =>
    intro h t d c hs
    rw [Hart.resume, hs]
    exact ⟨Hart.setS_status .., Hart.setS_pc .., fun hd => Hart.getS_setS_same _ _ _ hd⟩
  case gwait =>
    intro h q n d c hs
    rw [Hart.resume, hs]
    exact ⟨Hart.setS_status .., Hart.setS_pc .., fun hd => Hart.getS_setS_same _ _ _ hd⟩
end Sys2Proof.Machine
end

section
/-! SUPPORT. Gangs: launching one, and the other gang instructions. -/

namespace Sys2Proof.Machine
variable {s t : State}

/-! ### Writes turn on memory and the bring-up blocks alone (R4) -/

/-- States with the same memory and the same bring-up blocks take a write alike. -/
structure SameWrites (s t : State) : Prop where
  blocks : SameBlocks s t
  mem : t.mem = s.mem

namespace SameWrites
variable (h : SameWrites s t)
include h

theorem fieldsAt (x : Nat) : t.fieldsAt x = s.fieldsAt x := by
  rw [State.fieldsAt_eq, State.fieldsAt_eq, h.blocks.partRuns, h.blocks.ringQuad, h.blocks.schedAt, h.blocks.quadAt,
    h.blocks.quadAt, h.blocks.quadAt]
  simp only [State.devAt, h.mem]

theorem heldByte (x : Nat) (b : Byte) : t.heldByte x b = s.heldByte x b := by
  unfold State.heldByte; rw [h.fieldsAt, h.mem]

theorem held : ∀ (n a v : Nat), t.held a n v = s.held a n v
  | 0, _, _ => rfl
  | n + 1, a, v => by rw [State.held, State.held, h.heldByte, held n]

theorem tailWritten : t.tailWritten = s.tailWritten := by
  funext mem d
  unfold State.tailWritten; rw [h.mem]

theorem put (a n v : Nat) : t.put a n v = s.put a n v := by
  rw [State.put, State.put, h.blocks.tailsIn, h.held, h.mem, h.tailWritten]
end SameWrites

/-- Quads written in states that take writes alike leave such states. -/
theorem SameWrites.putQuads : ∀ (qs : List Quad) {s t : State} (a : Nat), SameWrites s t →
    SameWrites (s.putQuads a qs) (t.putQuads a qs)
  | [], _, _, _, h => h
  | q :: r, _, _, a, h => SameWrites.putQuads r (a + 8)
      ⟨h.blocks, h.put a 8 q.toNat⟩

@[simp] theorem State.putQuads_pkgs : ∀ (qs : List Quad) (s : State) (a : Nat), (s.putQuads a qs).pkgs = s.pkgs
  | [], _, _ => rfl
  | _ :: r, _, _ => State.putQuads_pkgs r ..

@[simp] theorem State.putQuads_others : ∀ (qs : List Quad) (s : State) (a : Nat), (s.putQuads a qs).others = s.others
  | [], _, _ => rfl
  | _ :: r, _, _ => State.putQuads_others r ..

/-- A package that differs in neither its bring-up block nor its life cycle leaves the blocks as they were. -/
theorem SameBlocks.setPack {p : Package} (hb : p.block = (s.pack p.pkg).block) (hl : p.huane.lcs = (s.pack p.pkg).huane.lcs) :
    SameBlocks s (s.setPack p) := by
  intro pkg quad
  unfold State.block
  by_cases e : pkg = p.pkg
  · subst e
    dsimp only
    rw [State.pack_setPack, hb, hl]
  · rw [State.pack_setPack_ne _ e]

/-! ### glaunch (R178) -/

theorem storesTo_eq_false {h : Hart} {phys n : Nat} (hs : ∀ x ∈ h.pend, x.op.writes = true → meets phys n x.addr x.size = false) :
    h.storesTo phys n = false := by
  rw [Hart.storesTo, List.any_eq_false]
  intro x hx k
  obtain ⟨hw, hm⟩ := Bool.and_eq_true_iff.1 k
  rw [hs x hx hw] at hm
  cases hm

/-- The record of the launch joins those of its package. -/
def State.launchNoted (u : State) (q : Nat) (tail : Word) : State :=
  let p := u.pack u.hart.pkg
  u.setPack { p with
    parents := (q, tail, u.lineage u.hart) :: p.parents,
    launches := { queue := q, seq := tail, hart := u.hart.ref, gang := u.hart.csr.gangid, instr := u.hart.seq } :: p.launches }

/-- A launch: the record is written to the slot of TAIL, and TAIL moves on. -/
def State.launched64 (u : State) (q : Nat) (tail : Word) (phys : Nat) (quads : List Quad) : State :=
  let v := (u.launchNoted q tail).putQuads phys quads
  ({ v with poison := removeNat (removeNat v.poison (granule phys)) (granule phys + 1) } : State).setQueueQuad u.hart.pkg q 3
    ((tail + 1).setWidth 64)

/-- At `u`, where the accesses before it are performed, glaunch has a record at l that it may read, and an open queue of its
own address space that glaunch feeds (R178, R365). -/
structure LaunchOpen (s u : State) (d a b : SReg) (l : Loc) : Prop where
  settles : let v := (s.needS [d, a, b]).drain
    v.settle (v.hart.taintS a ||| v.hart.taintS b) = .ok u
  record : u.check19 u.hart u.hart.asid (u.hart.getS a) 64 .read .own = .ok l
  turn : (u.awaitTurn (u.hart.canon (u.hart.getS a)) 64 false).isOk = true
  written : ∀ x ∈ u.hart.pend, x.op.writes = true → meets l.phys 64 x.addr x.size = false
  clean : u.poison.contains (l.phys / 32) = false
  clean' : u.poison.contains (l.phys / 32 + 1) = false
  queue : (u.hart.getS b).toNat ≤ 2047
  dev : (u.queueDesc u.hart.pkg (u.hart.getS b).toNat).dev = true
  en : (u.queueDesc u.hart.pkg (u.hart.getS b).toNat).en = true
  ctx : u.ctxAsid u.hart.pkg (u.queueDesc u.hart.pkg (u.hart.getS b).toNat).ctx = u.hart.asid

/-- glaunch with a readable record and an open queue: QFULL, or the launch. -/
theorem execGlaunch_open {u : State} {d a b : SReg} {l : Loc} (h : LaunchOpen s u d a b l) :
    let q := (u.hart.getS b).toNat
    let desc := u.queueDesc u.hart.pkg q
    ((desc.tail - desc.head).toNat = 2 ^ desc.log2 →
      execGlaunch d a b s = .next (ranS u 4 d 0xFFFFFFFFFFFFFFFF 0)) ∧
    ∀ l', (desc.tail - desc.head).toNat ≠ 2 ^ desc.log2 → fieldOf desc.ring 61 3 = 0 →
      pkgOf u.hart.pkg (fieldOf desc.ring 53 8) = u.hart.pkg →
      u.check u.hart u.hart.asid (desc.slot desc.tail) 64 .write .own = .ok l' →
      execGlaunch d a b s = .next (ranS (u.launched64 q desc.tail l'.phys ((readQuads u.mem l.phys 8).take 7 ++ [0])) 4 d
        (desc.tail.setWidth 64) 0) := by
  intro q desc
  have stores := storesTo_eq_false h.written
  have clean : ¬(u.poisoned l.phys || u.poisoned (l.phys + 32)) = true := by
    have next : granule (l.phys + 32) = l.phys / 32 + 1 := Nat.add_div_right _ (by decide)
    rw [State.poisoned, State.poisoned, next, granule, h.clean, h.clean']
    exact Bool.false_ne_true
  have opened : ¬(2047 < q ∨ (!desc.dev) = true ∨ (!desc.en) = true ∨ u.ctxAsid u.hart.pkg desc.ctx ≠ u.hart.asid) := by
    rw [h.dev, h.en, h.ctx]
    simpa using h.queue
  unfold execGlaunch
  dsimp only [bind, Except.bind]
  rw [h.settles]
  dsimp only
  rw [h.record]
  dsimp only
  rw [awaitTurn_eq_ok h.turn]
  dsimp only
  rw [if_neg (show ¬u.hart.storesTo l.phys 64 = true by rw [stores]; exact Bool.false_ne_true)]
  rw [if_neg clean, if_neg opened]
  refine ⟨fun full => ?_, fun l' room kind own hl => ?_⟩
  · rw [if_pos full, State.mapHart_setS_done]; rfl
  · rw [if_neg room, if_neg (not_or.2 ⟨not_not.2 kind, not_not.2 own⟩)]
    rw [resolve_of_check hl]
    dsimp only
    rw [State.mapHart_setS_done]
    rfl

theorem launchNoted_blocks (u : State) (q : Nat) (tail : Word) : SameBlocks u (u.launchNoted q tail) := by
  unfold State.launchNoted
  dsimp only
  refine SameBlocks.setPack ?_ ?_
  · dsimp only; rw [State.pack_pkg]
  · dsimp only; rw [State.pack_pkg]

theorem State.setQueueQuad_eq {s : State} {pkg base : Nat} (h : s.blockBase pkg 1 = some base) (q i : Nat) (v : Quad) :
    s.setQueueQuad pkg q i v = { s with mem := writeQuad s.mem (base + 16832 + 64 * q + 8 * i) v } := by
  rw [State.setQueueQuad, State.setSchedQuad, h, Nat.add_assoc, Nat.add_assoc, Nat.add_assoc]

theorem launched64_eq {u : State} {base : Nat} (h : u.blockBase u.hart.pkg 1 = some base) (q : Nat) (tail : Word) (phys : Nat)
    (quads : List Quad) :
    let v := (u.launchNoted q tail).putQuads phys quads
    u.launched64 q tail phys quads = { v with
      poison := removeNat (removeNat v.poison (granule phys)) (granule phys + 1)
      mem := writeQuad (u.putQuads phys quads).mem (base + 16832 + 64 * q + 24) ((tail + 1).setWidth 64) } := by
  intro v
  have blocks := launchNoted_blocks u q tail
  have base' : ({ v with poison := removeNat (removeNat v.poison (granule phys)) (granule phys + 1) } : State).blockBase
      u.hart.pkg 1 = some base :=
    ((blocks.trans (SameBlocks.of_pkgs (State.putQuads_pkgs quads _ phys))).blockBase u.hart.pkg 1).trans h
  have written : v.mem = (u.putQuads phys quads).mem := (SameWrites.putQuads quads phys ⟨blocks, rfl⟩).mem
  rw [← written]
  exact State.setQueueQuad_eq base' q 3 _

theorem gangLaunch : gangLaunchRule := by
  intro s u d a b l l' base v pkg q desc hs hc ht hw hp hp' hq hdev hen hctx
  have launch : LaunchOpen s u d a b l := ⟨hs, hc, ht, hw, hp, hp', hq, hdev, hen, hctx⟩
  obtain ⟨full, room⟩ := execGlaunch_open launch
  refine ⟨full, fun hn hk ho hl hb => ⟨_, room l' hn hk ho hl, ?_⟩⟩
  rw [launched64_eq hb]
  have own : (u.launchNoted q desc.tail).hart = u.hart := rfl
  have noted : (((u.launchNoted q desc.tail).putQuads l'.phys ((readQuads u.mem l.phys 8).take 7 ++ [0])).pack pkg) =
      (u.launchNoted q desc.tail).pack pkg := by
    unfold State.pack; rw [State.putQuads_pkgs]
  have packed : (u.launchNoted q desc.tail).pack pkg = { u.pack pkg with
      parents := (q, desc.tail, u.lineage u.hart) :: (u.pack pkg).parents,
      launches := ⟨q, desc.tail, u.hart.ref, u.hart.csr.gangid, u.hart.seq⟩ :: (u.pack pkg).launches } :=
    State.pack_setPack_eq u (State.pack_pkg u pkg)
  refine ⟨?_, rfl, ?_, ?_, ?_⟩
  · unfold ranS
    dsimp only
    rw [State.putQuads_hart, own]
  · exact congrArg Package.parents (noted.trans packed)
  · exact congrArg Package.launches (noted.trans packed)
  · exact State.putQuads_others ..

/-! ### gwait (R180) -/

/-- gwait on an open queue of its own address space: it answers the code that `State.gwaitCode` gives, or parks. -/
theorem execGwait_open (d a b : SReg) :
    let u := s.needS [d, a, b]
    let v := synced u .g
    let pkg := v.hart.pkg
    let q := (v.hart.getS a).toNat
    let n : Word := (v.hart.getS b).setWidth 32
    SyncReady u .g → q ≤ 2047 → (v.blockBase pkg 1).isSome = true → v.ctxAsid pkg (v.queueDesc pkg q).ctx = v.hart.asid →
    (∀ c, v.gwaitCode pkg q n = some c → (c = 3 → v.noteMark pkg q n = v) → execGwait d a b s = .next (ranS v 4 d c 0)) ∧
    (v.gwaitCode pkg q n = none → Quiet v →
      execGwait d a b s = .next (parked v.drain (.gwait q n) d v.drain.hart.pc)) := by
  intro u v pkg q n hr hq hb hc
  have opened : ¬(2047 < q ∨ (v.blockBase pkg 1).isNone = true ∨ v.ctxAsid pkg (v.queueDesc pkg q).ctx ≠ v.hart.asid) := by
    rw [hc, Option.isNone_eq_false_iff.2 hb]
    simpa using hq
  unfold execGwait
  dsimp only
  rw [lsync_ok_synced hr]
  dsimp only
  rw [if_neg opened]
  refine ⟨fun c code marked => ?_, fun code quiet => ?_⟩
  · rw [code]
    dsimp only
    by_cases h3 : c = 3
    · rw [h3, if_pos rfl, marked h3, State.mapHart_setS_done]
    · rw [if_neg fun k => h3 (Option.some.inj k), State.mapHart_setS_done]
  · rw [code]
    dsimp only
    rw [if_neg nofun, quiesce_ok quiet]
    rfl

/-- A record whose mark can be read is reported to no home. -/
theorem noteMark_of_mark {v : State} {pkg q : Nat} {n : Word} {m : Word × Nat} (h : v.recordMark pkg q n = some m) :
    v.noteMark pkg q n = v := by
  unfold State.recordMark at h
  unfold State.noteMark
  dsimp only at h ⊢
  split at h
  · next l e => rw [e]
  · cases h

/-- The answer for a record that is accepted, by its number and its STATE. -/
def markCode (n : Word) (m : Word × Nat) : Option Quad :=
  if m.1 ≠ n ∨ m.2 = 0 then some 3
  else if m.2 = 4 then some 0 else if m.2 = 5 then some 1 else if m.2 = 6 then some 2 else none

section
variable {v : State} {pkg q : Nat} {n : Word}

theorem gwaitCode_past (h : (n - (v.queueDesc pkg q).tail).toNat < 2 ^ 31) : v.gwaitCode pkg q n = some 1 :=
  if_pos (decide_eq_true h)

theorem gwaitCode_waiting (h : (n - (v.queueDesc pkg q).tail).toNat ≥ 2 ^ 31)
    (w : (n - v.nextAccept pkg q).toNat < 2 ^ 31) : v.gwaitCode pkg q n = none := by
  unfold State.gwaitCode
  dsimp only
  rw [if_neg (by rw [seqGe, decide_eq_true_eq]; omega), if_pos (show seqGe _ _ = true from decide_eq_true w)]

theorem gwaitCode_accepted (h : (n - (v.queueDesc pkg q).tail).toNat ≥ 2 ^ 31)
    (w : (n - v.nextAccept pkg q).toNat ≥ 2 ^ 31) {m : Word × Nat} (hm : v.recordMark pkg q n = some m) :
    v.gwaitCode pkg q n = markCode n m := by
  unfold State.gwaitCode
  dsimp only
  rw [if_neg (by rw [seqGe, decide_eq_true_eq]; omega), if_neg (by rw [seqGe, decide_eq_true_eq]; omega), hm]
  rfl
end

/-! ### gbar (R181) -/

/-- Whether a hart is one of a gang. -/
def Hart.ofGang (h : Hart) (pkg : Nat) (gang : Word) : Prop := h.pkg = pkg ∧ h.csr.gangid = gang

/-- A hart goes on from gbar. -/
def Hart.passBarrier (h : Hart) : Hart := { h.advance 4 with status := .running, atBarrier := false }

/-- The barrier of a gang opens where its hart whose turn it is and all the others have arrived. -/
theorem releaseBarrier_arrived {pkg : Nat} {gang : Word} (hv : s.hart.status ≠ .vacant) (mine : s.hart.ofGang pkg gang)
    (own : s.hart.atBarrier = true) (all : ∀ h ∈ s.others, h.ofGang pkg gang → h.atBarrier = true) :
    s.releaseBarrier pkg gang = { s with
      hart := s.hart.passBarrier
      others := s.others.map fun h => if h.pkg = pkg ∧ h.csr.gangid = gang then h.passBarrier else h } := by
  have members : s.gangHarts pkg gang = s.hart :: s.others.filter fun h => h.pkg == pkg && h.csr.gangid == gang := by
    rw [State.gangHarts, State.harts, if_neg hv]
    exact List.filter_cons_of_pos (by simpa [Hart.ofGang] using mine)
  have here : (s.gangHarts pkg gang).all (·.atBarrier) = true := by
    rw [members, List.all_cons, own, Bool.true_and, List.all_eq_true]
    intro h hm
    obtain ⟨hm, hg⟩ := List.mem_filter.1 hm
    exact all h hm (by simpa [Hart.ofGang] using hg)
  unfold State.releaseBarrier
  dsimp only
  rw [here, members, if_neg (by simp), if_neg hv, if_pos (show s.hart.pkg = pkg ∧ s.hart.csr.gangid = gang from mine)]
  rfl

theorem releaseBarrier_waits {pkg : Nat} {gang : Word} {h : Hart} (hm : h ∈ s.harts) (mine : h.ofGang pkg gang)
    (late : h.atBarrier = false) : s.releaseBarrier pkg gang = s := by
  have here : (s.gangHarts pkg gang).all (·.atBarrier) = false := by
    rw [List.all_eq_false]
    exact ⟨h, List.mem_filter.2 ⟨hm, by simpa [Hart.ofGang] using mine⟩, by rw [late]; exact Bool.false_ne_true⟩
  unfold State.releaseBarrier
  dsimp only
  rw [here, if_pos (by simp)]

/-- The hart whose turn it is stands at gbar. -/
def State.atGbar (v : State) : State := { v with hart := { v.hart with atBarrier := true, status := .held .gangBarrier } }

theorem execGbar_next (h : SyncReady s .g) : execGbar s =
    .next ((synced s .g).atGbar.releaseBarrier (synced s .g).hart.pkg (synced s .g).hart.csr.gangid) := by
  rw [execGbar, lsync_ok_synced h]; rfl

/-! ### gyield and gexit (R182, R183) -/

theorem execGyield_next (h : Quiet s) : ∃ n, 1024 ≤ n ∧ n ≤ 2048 ∧
    execGyield s = .next (parked s.drain (.gyield (s.drain.clock + n)) 0 (s.drain.hart.pc + 4)).drawn := by
  refine ⟨1024 + (Config.value s.drain.free).toNat % 1025, by omega, by omega, ?_⟩
  rw [execGyield, quiesce_ok h, ← Nat.add_assoc]
  rfl

/-- Opening a barrier leaves a hart that has ended as it is. -/
theorem releaseBarrier_vacant {pkg : Nat} {gang : Word} (h : s.hart.status = .vacant) :
    (s.releaseBarrier pkg gang).hart = s.hart := by
  unfold State.releaseBarrier
  dsimp only
  rw [if_pos h]
  split <;> rfl

theorem endHart_status (s : State) : s.endHart.hart.status = .vacant := by
  unfold State.endHart
  dsimp only
  rw [releaseBarrier_vacant rfl]

theorem execGexit_next (hc : ∀ c ∈ s.hart.cmds, c.stopped = true) (hb : s.remoteBusy 4 = false) (hl : s.hart.colls = [])
    (hq : s.hart.queued = false) (hp : s.drain.hart.pend = []) (hs : s.drain.hart.struck = false) :
    execGexit s = .next s.drain.endHart := by
  have idle : s.hart.cmds.any Cmd.running = false := by
    rw [List.any_eq_false]
    intro c hm
    rw [Cmd.running, hc c hm]; exact Bool.false_ne_true
  rw [execGexit, State.exitGang, idle, hb, hl, hq]
  dsimp only [List.isEmpty_nil, Bool.not_true, Bool.or_self]
  rw [hp, hs]
  rfl

theorem gangInstructions : gangInstructionsRule := by
  refine ⟨fun s => rfl, ?gwait, ?gbar, fun s h => execGyield_next h, ?gexit⟩
  case gwait =>
    intro s d a b u v pkg q n desc hr hq hb hc waits
    obtain ⟨answers, parks⟩ := execGwait_open d a b hr hq hb hc
    refine ⟨fun h => answers 1 (gwaitCode_past h) nofun, fun h w => parks (gwaitCode_waiting h w), fun h w st hm => ?_,
      fun h w m st ne hm => ?_⟩
    · have code := gwaitCode_accepted h w hm
      refine ⟨?_, ?_, ?_⟩
      · rintro (rfl | rfl | rfl)
        · exact answers 0 (code.trans (by simp [markCode])) nofun
        · exact answers 1 (code.trans (by simp [markCode])) nofun
        · exact answers 2 (code.trans (by simp [markCode])) nofun
      · rintro rfl
        exact answers 3 (code.trans (by simp [markCode])) fun _ => noteMark_of_mark hm
      · intro h0 h4 h5 h6
        exact parks (code.trans (by simp [markCode, h0, h4, h5, h6]))
    · exact answers 3 ((gwaitCode_accepted h w hm).trans (by simp [markCode, ne])) fun _ => noteMark_of_mark hm
  case gbar =>
    intro s hr v mine arrived
    have step : exec .gbar s = .next (v.atGbar.releaseBarrier v.hart.pkg v.hart.csr.gangid) := execGbar_next hr
    have own : v.atGbar.hart.ofGang v.hart.pkg v.hart.csr.gangid := ⟨rfl, rfl⟩
    refine ⟨fun late => ?_, fun all => ?_⟩
    · simp only [arrived, not_forall] at late
      obtain ⟨h, hm, hg, hl⟩ := late
      rw [step, releaseBarrier_waits (s := v.atGbar) (List.mem_cons_of_mem _ hm) hg (Bool.not_eq_true _ ▸ hl)]
      rfl
    · rw [releaseBarrier_arrived (s := v.atGbar) nofun own rfl all] at step
      refine ⟨_, step, rfl, rfl, fun h hm hg => ?_⟩
      obtain ⟨h0, -, rfl⟩ := List.mem_map.1 hm
      by_cases hg0 : h0.pkg = v.hart.pkg ∧ h0.csr.gangid = v.hart.csr.gangid
      · rw [if_pos hg0]; exact ⟨rfl, rfl⟩
      · rw [if_neg hg0] at hg; exact absurd hg hg0
  case gexit =>
    intro s hc hb hl hq hp hs
    exact ⟨execGexit_next hc hb hl hq hp hs, endHart_status _, State.endHart_mem _⟩

/-- Settles O18: glaunch either answers QFULL or is `State.launched64`; gwait answers what `markCode` says of the record; the
last hart of a gang opens its barrier (`releaseBarrier_arrived`). -/
theorem gangs : Obligations.Gangs := ⟨gangLaunch, gangInstructions⟩
end Sys2Proof.Machine
end

section
/-! SUPPORT. The steps in which issued accesses are performed, acknowledged and counted. -/

namespace Sys2Proof.Machine
variable {s t : State}

/-! ### What performing one access does to the accesses and failures of its hart -/

theorem length_eraseIdx_lt {α : Type} {l : List α} {i : Nat} {a : α} (h : l[i]? = some a) : (l.eraseIdx i).length < l.length := by
  have hi : i < l.length := (List.getElem?_eq_some_iff.1 h).1
  rw [List.length_eraseIdx_of_lt hi]
  omega

/-- What performing access i leaves: the access alone is gone, or it has failed at its home and is gone with others. -/
def Performed (s t : State) (i : Nat) : Prop :=
  (t.hart.pend = s.hart.pend.eraseIdx i ∧ t.hart.hits = s.hart.hits) ∨
  (t.hart.pend.length < s.hart.pend.length ∧ ∃ x, t.hart.hits = s.hart.hits ++ [x])

theorem performed_hitAt {i : Nat} {a : Access} (h : s.hart.pend[i]? = some a) (c : Byte) (b : Access)
    (home : Option (Nat × Nat × Nat)) : Performed s (s.mapHart fun h => h.hitAt c i b home) i :=
  .inr ⟨Nat.lt_of_le_of_lt (List.length_filter_le ..) (length_eraseIdx_lt h), _, rfl⟩

theorem performed_erased (u : State) (i : Nat) (a : Access) (hp : u.hart.pend = s.hart.pend) (hh : u.hart.hits = s.hart.hits) :
    Performed s (u.mapHart fun h => ({ h with pend := h.pend.eraseIdx i } : Hart).afterAccess a) i := by
  left
  rw [State.mapHart_hart, Hart.afterAccess_pend, Hart.afterAccess_hits, hp, hh]
  exact ⟨rfl, rfl⟩

theorem performAt_performed {i : Nat} {a : Access} (h : s.hart.pend[i]? = some a) : Performed s (s.performAt i) i := by
  unfold State.performAt
  rw [h]
  dsimp only
  split
  · by_cases hr : a.op.reads = true
    · simp only [hr, if_true]; exact performed_hitAt h ..
    · simp only [hr]; exact performed_erased s i a rfl rfl
  · split
    · exact performed_hitAt h ..
    · next b _ =>
      split
      · exact performed_hitAt h ..
      · obtain ⟨_, _, _, _, e⟩ := s.applyAccess_hart_shape b (forwardData (s.hart.pend.take i) b)
        exact performed_erased _ i b (by rw [e]) (by rw [e])

theorem performAt_length {i : Nat} {a : Access} (h : s.hart.pend[i]? = some a) :
    (s.performAt i).hart.pend.length < s.hart.pend.length := by
  rcases performAt_performed h with ⟨e, -⟩ | ⟨lt, -⟩
  · rw [e]; exact length_eraseIdx_lt h
  · exact lt

theorem performAt_hits_le {i : Nat} {a : Access} (h : s.hart.pend[i]? = some a) :
    s.hart.hits.length ≤ (s.performAt i).hart.hits.length := by
  rcases performAt_performed h with ⟨-, e⟩ | ⟨-, x, e⟩
  · rw [e]
  · rw [e, List.length_append]; exact Nat.le_add_right ..

/-! ### Runs of accesses -/

/-- With as many turns as there are accesses, a run goes on till the first that must wait, or till none is left. -/
theorem performRun_delivers (p : Access → Bool) : ∀ (n : Nat) (s : State), s.hart.pend.length ≤ n → Delivers p s (s.performRun p n)
  | 0, s, hn => .stop fun i a _ e => by
    rw [List.eq_nil_of_length_eq_zero (Nat.le_zero.1 hn)] at e; cases e
  | n + 1, s, hn => by
    unfold State.performRun
    cases hi : s.hart.pend.findIdx? p with
    | none => exact .stop fun i a k => by rw [hi] at k; cases k
    | some i =>
      dsimp only
      cases ha : s.hart.pend[i]? with
      | none => exact .stop fun j a k e => by rw [hi] at k; cases k; rw [ha] at e; cases e
      | some a =>
        dsimp only
        have less := performAt_length ha
        split
        · next hm => exact .step hi ha hm (performRun_delivers p n (s.performAt i) (by omega))
        · next hm =>
          refine .stop fun j b k e => ?_
          rw [hi] at k; cases k
          rw [ha] at e; cases e
          exact Bool.eq_false_iff.2 hm

theorem delivers_hits_le {p : Access → Bool} (h : Delivers p s t) : s.hart.hits.length ≤ t.hart.hits.length := by
  induction h with
  | stop => exact Nat.le_refl _
  | step _ e _ _ ih => exact Nat.le_trans (performAt_hits_le e) ih

theorem filter_eraseIdx_of_not {α : Type} {q : α → Bool} : ∀ {l : List α} {i : Nat} {a : α}, l[i]? = some a → q a = false →
    (l.eraseIdx i).filter q = l.filter q
  | x :: l, 0, a, h, hq => by
    obtain rfl : x = a := Option.some.inj h
    rw [List.eraseIdx_cons_zero, List.filter_cons_of_neg (Bool.eq_false_iff.1 hq)]
  | x :: l, i + 1, a, h, hq => by
    rw [List.eraseIdx_cons_succ, List.filter_cons, List.filter_cons, filter_eraseIdx_of_not (l := l) h hq]

/-- The accesses that a run does not name stay, in their order, where none that it performs fails. -/
theorem delivers_others_stay {p : Access → Bool} (h : Delivers p s t) (hh : t.hart.hits = s.hart.hits) :
    (t.hart.pend.filter fun a => !p a) = s.hart.pend.filter fun a => !p a := by
  induction h with
  | stop => rfl
  | @step s t i a hi ha _ r ih =>
    have named : p a = true := by
      obtain ⟨hlt, hp, -⟩ := List.findIdx?_eq_some_iff_getElem.1 hi
      obtain ⟨_, rfl⟩ := List.getElem?_eq_some_iff.1 ha
      exact hp
    have more := delivers_hits_le r
    rw [hh] at more
    rcases performAt_performed ha with ⟨gone, same⟩ | ⟨-, x, grown⟩
    · rw [ih (hh.trans same.symm), gone]
      exact filter_eraseIdx_of_not ha (by rw [named]; rfl)
    · rw [grown, List.length_append, List.length_singleton] at more
      omega

/-! ### Steps of a placed hart -/

theorem withHart_placed {r : HartRef} (h : s.placed r = true) (f : State → State) :
    s.withHart r f = (f (s.focus r)).focus s.hart.ref := by
  refine if_neg ?_
  rw [show s.harts.find? (·.ref == r) = s.findHart r from rfl, Option.isNone_eq_false_iff.2 h]
  exact Bool.false_ne_true

theorem performIf_due {i : Nat} {a : Access} {is : Access → Bool} (ha : s.hart.pend[i]? = some a) (his : is a = true)
    (hm : s.hart.mayPerform (s.hart.pend.take i) a = true) : s.performIf i is = (s.performAt i).mapHart (·.completeNb) := by
  unfold State.performIf
  rw [ha]
  dsimp only
  rw [his, hm]
  rfl

theorem performingEvents_hold : performingEvents := by
  intro s r i a hr u ha hm after
  have due : ∀ is : Access → Bool, is a = true → s.withHart r (fun s => s.performIf i is) = after := fun is his => by
    rw [withHart_placed hr, performIf_due ha his hm]
  refine ⟨fun h => ?_, fun ht hv hn => ?_, fun ht hl => ?_, fun ht hl => ?_, fun h => ?_⟩
  · exact congrArg _ (due (fun a => a.op.isLoad) h)
  · exact congrArg _ (due (fun a => !a.op.isAtomic && !a.op.isVamo && a.train.isNone) (by simp [ht, hv, hn]))
  · exact congrArg _ (due (fun a => a.op.isAtomic && !a.slice.isRemote) (by simp [ht, hl]))
  · exact congrArg _ (due (fun a => (a.op.isAtomic || a.op.isVamo) && a.slice.isRemote) (by simpa [hl] using ht))
  · exact congrArg _ (due (fun a => a.op.isVamo) h)

theorem groupEvents_hold : groupEvents := by
  intro s r v g n hr u inGroup inTrain
  refine ⟨⟨u.performRun inGroup u.hart.pend.length, performRun_delivers _ _ _ (Nat.le_refl _), ?_⟩,
    ⟨u.performRun inTrain u.hart.pend.length, performRun_delivers _ _ _ (Nat.le_refl _), ?_⟩, fun p w h hh => delivers_others_stay h hh⟩
  · exact congrArg Host.Outcome.next (withHart_placed hr _)
  · exact congrArg Host.Outcome.next (withHart_placed hr _)

/-! ### Bookkeeping -/

/-- A change of a placed hart is told by what it does to that hart. -/
theorem changesHart_onHart_of {r : HartRef} {h : Hart} (f g : Hart → Hart) (hf : ∀ h, (f h).ref = h.ref ∧ (f h).status = h.status)
    (hh : s.findHart r = some h) (e : f h = g h) : ChangesHart s r g (.next (s.onHart r f)) := by
  obtain ⟨v, ho, hm, hr, hq⟩ := changesHart_onHart s r f (fun h => (hf h).1) fun h => (hf h).2
  refine ⟨v, ho, hm, fun x hx => ?_, hq⟩
  obtain rfl : h = x := Option.some.inj (hh.symm.trans hx)
  rw [← e]
  exact hr h hx

theorem Hart.completeNb_place (h : Hart) : h.completeNb.ref = h.ref ∧ h.completeNb.status = h.status :=
  ⟨congrArg (·.ref) h.completeNb_steady, congrArg (·.status) h.completeNb_steady⟩

theorem Hart.bumpK_place (h : Hart) (k : KReg) : (h.bumpK k).ref = h.ref ∧ (h.bumpK k).status = h.status :=
  ⟨congrArg (·.ref) (h.bumpK_steady k), congrArg (·.status) (h.bumpK_steady k)⟩

theorem bookkeepingEvents_hold : bookkeepingEvents := by
  intro s r h t i c n o hh
  refine ⟨fun busy idle => ?tag, changesHart_onHart s r _ (fun _ => rfl) (fun _ => rfl), fun applied => ?train,
    fun ho hd => ?counted⟩
  case tag =>
    refine changesHart_onHart_of _ _ (fun x => ?_) hh ?_
    · split <;> exact ⟨rfl, rfl⟩
    · rw [busy, idle]; rfl
  case train =>
    refine changesHart_onHart_of _ _ (fun x => ?_) hh ?_
    · split
      · exact ⟨rfl, rfl⟩
      · exact Hart.completeNb_place _
    · rw [applied]; rfl
  case counted =>
    refine changesHart_onHart_of _ _ (fun x => ?_) hh ?_
    · split
      · exact ⟨rfl, rfl⟩
      · split
        · exact Hart.bumpK_place ..
        · exact ⟨rfl, rfl⟩
    · simp only [ho, hd, if_true]

/-- Settles O49: a step performs the access that it names where it may be (`performIf_due`); a run is a `Delivers`
(`performRun_delivers`), which leaves the other accesses (`delivers_others_stay`). -/
theorem accessEvents : Obligations.AccessEvents := ⟨performingEvents_hold, groupEvents_hold, bookkeepingEvents_hold⟩
end Sys2Proof.Machine
end

section
/-! SUPPORT. The elements of a register group: reading and packing them, and what an element-wise write leaves (R34, R185). -/

namespace Sys2Proof.Machine
variable {h : Hart}

/-! ### Containers and elements -/

/-- What an element of a width can hold of a value. -/
def elemFit (wide : Bool) (x : Quad) : Quad := if wide then x else (x.setWidth 32).setWidth 64

theorem elemFit_of_lt {wide : Bool} {x : Quad} (hx : wide = false → x.toNat < 2 ^ 32) : elemFit wide x = x := by
  cases wide with
  | true => rfl
  | false =>
    have hx := hx rfl
    refine BitVec.eq_of_toNat_eq ?_
    show ((x.setWidth 32).setWidth 64).toNat = _
    rw [BitVec.toNat_setWidth, BitVec.toNat_setWidth]
    omega

theorem elemAt_lt (l : List Word) (i : Nat) : (elemAt l false i).toNat < 2 ^ 32 := by
  show ((l.getD i 0).setWidth 64).toNat < _
  rw [BitVec.toNat_setWidth]
  have := (l.getD i 0).isLt
  omega

theorem halves_append (x : Quad) : x.extractLsb' 32 32 ++ x.setWidth 32 = x := by
  refine BitVec.eq_of_getLsbD_eq fun i hi => ?_
  rw [BitVec.getLsbD_append, BitVec.getLsbD_setWidth, BitVec.getLsbD_extractLsb']
  by_cases h : i < 32
  · simp [h]
  · simp [h, show i - 32 < 32 by omega, Nat.add_sub_cancel' (Nat.le_of_not_lt h)]

theorem elemAt_cons_wide (x y : Word) (l : List Word) : ∀ i, elemAt (x :: y :: l) true i = if i = 0 then y ++ x else elemAt l true (i - 1)
  | 0 => rfl
  | _ + 1 => rfl

theorem elemAt_cons_narrow (x : Word) (l : List Word) : ∀ i, elemAt (x :: l) false i = if i = 0 then x.setWidth 64 else elemAt l false (i - 1)
  | 0 => rfl
  | _ + 1 => rfl

/-- Containers of an element of a width. -/
def elemWords (wide : Bool) : Nat := if wide then 2 else 1

theorem elemAt_drop (l : List Word) (wide : Bool) (i : Nat) : elemAt (l.drop (elemWords wide)) wide i = elemAt l wide (i + 1) := by
  cases wide with
  | true =>
    show (l.drop 2).getD (2 * i + 1) 0 ++ (l.drop 2).getD (2 * i) 0 = l.getD (2 * (i + 1) + 1) 0 ++ l.getD (2 * (i + 1)) 0
    simp only [List.getD_eq_getElem?_getD, List.getElem?_drop]
    rw [show 2 + (2 * i + 1) = 2 * (i + 1) + 1 by omega, show 2 + 2 * i = 2 * (i + 1) by omega]
  | false =>
    show ((l.drop 1).getD i 0).setWidth 64 = (l.getD (i + 1) 0).setWidth 64
    simp only [List.getD_eq_getElem?_getD, List.getElem?_drop]
    rw [Nat.add_comm]

theorem takeElems_succ (wide : Bool) (n : Nat) (l : List Word) :
    takeElems wide (n + 1) l = elemAt l wide 0 :: takeElems wide n (l.drop (elemWords wide)) := by
  cases wide with
  | true =>
    cases l with
    | nil => rfl
    | cons x l => cases l <;> rfl
  | false => cases l <;> rfl

theorem takeElems_length (wide : Bool) : ∀ (n : Nat) (l : List Word), (takeElems wide n l).length = n
  | 0, _ => rfl
  | n + 1, l => by rw [takeElems_succ, List.length_cons, takeElems_length]

theorem takeElems_getElem? (wide : Bool) : ∀ (n : Nat) (l : List Word) (i : Nat), i < n →
    (takeElems wide n l)[i]? = some (elemAt l wide i)
  | n + 1, l, 0, _ => by rw [takeElems_succ, List.getElem?_cons_zero]
  | n + 1, l, i + 1, hi => by
    rw [takeElems_succ, List.getElem?_cons_succ, takeElems_getElem? wide n _ i (Nat.lt_of_succ_lt_succ hi), elemAt_drop]

theorem packElems_length (wide : Bool) : ∀ xs : List Quad, (packElems wide xs).length = xs.length * elemWords wide
  | [] => (Nat.zero_mul _).symm
  | x :: xs => by
    have ih := packElems_length wide xs
    cases wide with
    | true =>
      show (packElems true xs).length + 1 + 1 = (xs.length + 1) * 2
      rw [ih]; show xs.length * 2 + 1 + 1 = _; omega
    | false =>
      show (packElems false xs).length + 1 = (xs.length + 1) * 1
      rw [ih]; show xs.length * 1 + 1 = _; omega

/-- An element of packed elements is the one packed there, as far as the width holds it. -/
theorem elemAt_packElems (wide : Bool) (rest : List Word) : ∀ (xs : List Quad) (i : Nat) (x : Quad), xs[i]? = some x →
    elemAt (packElems wide xs ++ rest) wide i = elemFit wide x
  | y :: xs, i, x, hx => by
    cases wide with
    | true =>
      rw [show packElems true (y :: xs) ++ rest = y.setWidth 32 :: y.extractLsb' 32 32 :: (packElems true xs ++ rest) from rfl,
        elemAt_cons_wide]
      cases i with
      | zero =>
        obtain rfl : y = x := Option.some.inj hx
        rw [if_pos rfl]; exact halves_append y
      | succ i => rw [if_neg (Nat.succ_ne_zero i)]; exact elemAt_packElems true rest xs i x hx
    | false =>
      rw [show packElems false (y :: xs) ++ rest = y.setWidth 32 :: (packElems false xs ++ rest) from rfl, elemAt_cons_narrow]
      cases i with
      | zero =>
        obtain rfl : y = x := Option.some.inj hx
        rw [if_pos rfl]; rfl
      | succ i => rw [if_neg (Nat.succ_ne_zero i)]; exact elemAt_packElems false rest xs i x hx

theorem padTo_length (n : Nat) (l : List Word) : (padTo n l).length = n := by
  rw [padTo, List.length_take, List.length_append, List.length_replicate]
  omega

theorem padTo_of_length {n : Nat} {l : List Word} (h : l.length = n) : padTo n l = l := by
  rw [padTo, h, Nat.sub_self, List.replicate_zero, List.append_nil, ← h, List.take_length]

/-! ### Results, and the choice of R185 -/

theorem bodyResults_succ (act : Nat → Bool) (f : Nat → FRes) (n i : Nat) : bodyResults act f (n + 1) i =
    ((if act i then (f i).1 else 0) :: (bodyResults act f n (i + 1)).1,
     (if act i then (f i).2 else 0) ||| (bodyResults act f n (i + 1)).2) := by
  rw [bodyResults]
  cases act i with
  | true => rfl
  | false => exact Prod.ext rfl BitVec.zero_or.symm

theorem bodyResults_length (act : Nat → Bool) (f : Nat → FRes) : ∀ n i, (bodyResults act f n i).1.length = n
  | 0, _ => rfl
  | n + 1, i => by rw [bodyResults_succ, List.length_cons, bodyResults_length act f n]

theorem bodyResults_getD (act : Nat → Bool) (f : Nat → FRes) : ∀ n i k, k < n →
    (bodyResults act f n i).1.getD k 0 = if act (i + k) then (f (i + k)).1 else 0
  | n + 1, i, 0, _ => by rw [bodyResults_succ]; rfl
  | n + 1, i, k + 1, hk => by
    have ih := bodyResults_getD act f n (i + 1) k (Nat.lt_of_succ_lt_succ hk)
    rw [show i + 1 + k = i + (k + 1) by omega] at ih
    rw [bodyResults_succ, List.getD_cons_succ, ih]

/-- A flag is raised where an element that is active raises it (R69). -/
theorem bodyResults_flags (act : Nat → Bool) (f : Nat → FRes) (b : Nat) : ∀ n i,
    (bodyResults act f n i).2.getLsbD b = (List.range n).any fun k => act (i + k) && (f (i + k)).2.getLsbD b
  | 0, _ => BitVec.getLsbD_zero
  | n + 1, i => by
    have first : (if act i then (f i).2 else 0 : FFlags).getLsbD b = (act i && (f i).2.getLsbD b) := by
      cases act i with
      | true => rfl
      | false => exact BitVec.getLsbD_zero
    rw [bodyResults_succ, BitVec.getLsbD_or, first, bodyResults_flags act f b n (i + 1), List.range_succ_eq_map, List.any_cons,
      List.any_map]
    simp only [Function.comp_def, Nat.add_zero, Nat.succ_eq_add_one, Nat.add_assoc, Nat.add_comm 1]

theorem mergeBody_length (act : Nat → Bool) (mp tp : Bool) : ∀ (was : List Quad) (i : Nat) (res : List Quad),
    (mergeBody act mp tp i res was).length = was.length
  | [], _, [] => rfl
  | [], _, _ :: _ => rfl
  | _ :: was, i, [] => congrArg (· + 1) (mergeBody_length act mp tp was (i + 1) [])
  | _ :: was, i, _ :: res => congrArg (· + 1) (mergeBody_length act mp tp was (i + 1) res)

theorem mergeBody_getElem? (act : Nat → Bool) (mp tp : Bool) : ∀ (was : List Quad) (i : Nat) (res : List Quad) (k : Nat),
    (mergeBody act mp tp i res was)[k]? = was[k]?.map fun o =>
      if k < res.length then (if act (i + k) then res.getD k 0 else if mp then 0 else o) else if tp then 0 else o
  | [], _, [], _ => rfl
  | [], _, _ :: _, _ => rfl
  | o :: was, i, [], 0 => rfl
  | o :: was, i, [], k + 1 => mergeBody_getElem? act mp tp was (i + 1) [] k
  | o :: was, i, x :: res, 0 => rfl
  | o :: was, i, x :: res, k + 1 => by
    have ih := mergeBody_getElem? act mp tp was (i + 1) res k
    rw [show i + 1 + k = i + (k + 1) by omega] at ih
    rw [show mergeBody act mp tp i (x :: res) (o :: was) =
      (if act i then x else if mp then 0 else o) :: mergeBody act mp tp (i + 1) res was from rfl]
    rw [List.getElem?_cons_succ, List.getElem?_cons_succ, ih]
    simp only [List.length_cons, Nat.add_lt_add_iff_right, List.getD_cons_succ]

theorem keepElems_length (skip : BitVec 65536) : ∀ (new old : List Quad) (i : Nat), (keepElems skip i new old).length = new.length
  | [], _, _ => rfl
  | _ :: _, [], _ => rfl
  | _ :: new, _ :: old, i => congrArg (· + 1) (keepElems_length skip new old (i + 1))

theorem keepElems_getElem? (skip : BitVec 65536) : ∀ (new old : List Quad) (i k : Nat), new.length = old.length →
    (keepElems skip i new old)[k]? = if bitOf skip (i + k) then old[k]? else new[k]?
  | [], [], i, k, _ => by
    show ([] : List Quad)[k]? = _
    split <;> rfl
  | x :: new, o :: old, i, 0, _ => by
    show some _ = _
    rw [Nat.add_zero]
    split <;> rfl
  | x :: new, o :: old, i, k + 1, h => by
    have ih := keepElems_getElem? skip new old (i + 1) k (Nat.succ.inj h)
    rw [show i + 1 + k = i + (k + 1) by omega] at ih
    exact ih

/-! ### Register groups (R26) -/

/-- The group that starts at r lies within the register file. -/
def Hart.groupFits (h : Hart) (r : VReg) : Prop := r.toNat + h.group ≤ 64

theorem groupFits_of_regOk {r : VReg} (hr : h.regOk r = true) : h.groupFits r := by
  obtain ⟨-, ha⟩ := Bool.and_eq_true_iff.1 hr
  have ha : r.toNat % h.group = 0 := by simpa using ha
  have hl := r.isLt
  have divides : h.group ∣ 64 := by
    rw [Hart.group, show (64 : Nat) = 2 ^ 6 by rfl]
    exact Nat.pow_dvd_pow 2 (by have := h.csr.gl.isLt; omega)
  obtain ⟨k, hk⟩ := divides
  obtain ⟨j, hj⟩ := Nat.dvd_of_mod_eq_zero ha
  have below : j < k := by
    by_contra hn
    have := Nat.mul_le_mul_left h.group (Nat.le_of_not_lt hn)
    omega
  have := Nat.mul_le_mul_left h.group (show j + 1 ≤ k from below)
  rw [Nat.mul_add, Nat.mul_one] at this
  show r.toNat + h.group ≤ 64
  omega

/-- The registers once the first n of the group at r have taken their parts of the data. -/
def Hart.withParts (h : Hart) (r : VReg) (data : List Word) (n : Nat) : Vector VecReg 64 :=
  Vector.ofFn fun k : Fin 64 =>
    if r.toNat ≤ k.1 ∧ k.1 < r.toNat + n then
      { h.v[k] with data := (data.drop ((k.1 - r.toNat) * h.regWords)).take h.regWords }
    else h.v[k]

theorem Hart.withParts_getElem (h : Hart) (r : VReg) (data : List Word) (n k : Nat) (hk : k < 64) :
    (h.withParts r data n)[k] = if r.toNat ≤ k ∧ k < r.toNat + n then
      { h.v[k] with data := (data.drop ((k - r.toNat) * h.regWords)).take h.regWords } else h.v[k] :=
  Vector.getElem_ofFn ..

theorem Hart.withParts_succ (r : VReg) (data : List Word) (n : Nat) (hn : r.toNat + n < 64) :
    (h.withParts r data n).set! (r.toNat + n)
      { (h.withParts r data n)[r.toNat + n]! with data := (data.drop (n * h.regWords)).take h.regWords } =
    h.withParts r data (n + 1) := by
  refine Vector.ext fun k hk => ?_
  rw [getElem!_pos (h.withParts r data n) _ hn, Vector.set!_eq_setIfInBounds, Vector.getElem_setIfInBounds,
    Hart.withParts_getElem, Hart.withParts_getElem, Hart.withParts_getElem]
  by_cases e : r.toNat + n = k
  · subst e
    rw [if_pos rfl, if_neg (by omega), if_pos (by omega), Nat.add_sub_cancel_left]
  · rw [if_neg e]
    exact if_congr (by omega) rfl rfl

/-- Register i of the group at r takes its part of the data. -/
def Hart.setPart (r : VReg) (data : List Word) (h : Hart) (i : Nat) : Hart :=
  let j := (r.toNat + i) % 64
  { h with v := h.v.set! j { (h.v[j]!) with data := (data.drop (i * h.regWords)).take h.regWords } }

theorem Hart.setPart_with (r : VReg) (data : List Word) (v : Vector VecReg 64) (i : Nat) (hi : r.toNat + i < 64) :
    Hart.setPart r data { h with v := v } i =
      { h with v := v.set! (r.toNat + i) { v[r.toNat + i]! with data := (data.drop (i * h.regWords)).take h.regWords } } := by
  unfold Hart.setPart
  rw [Nat.mod_eq_of_lt hi]
  rfl

theorem setParts_eq (r : VReg) (data : List Word) : ∀ n, r.toNat + n ≤ 64 →
    (List.range n).foldl (Hart.setPart r data) h = { h with v := h.withParts r data n }
  | 0, _ => by
    have same : h.withParts r data 0 = h.v := Vector.ext fun k hk => by
      rw [Hart.withParts_getElem, if_neg (by omega)]
    rw [same]; rfl
  | n + 1, hn => by
    rw [List.range_succ, List.foldl_append, setParts_eq r data n (by omega), List.foldl_cons, List.foldl_nil,
      Hart.setPart_with r data _ n (by omega), Hart.withParts_succ r data n (by omega)]

/-- Data of the group's length are dealt out to its registers. -/
theorem setGroupData_eq {r : VReg} {data : List Word} (fits : h.groupFits r) (hd : data.length = h.regWords * h.group) :
    h.setGroupData r data = { h with v := h.withParts r data h.group } := by
  unfold Hart.setGroupData
  split
  · next one =>
    rw [one, Nat.mul_one] at hd
    have same : h.v.set r.toNat { h.v[r.toNat] with data := data } = h.withParts r data 1 := Vector.ext fun k hk => by
      rw [Vector.getElem_set, Hart.withParts_getElem]
      by_cases e : r.toNat = k
      · subst e
        rw [if_pos rfl, if_pos (by omega), Nat.sub_self, Nat.zero_mul, List.drop_zero, ← hd, List.take_length]
      · rw [if_neg e, if_neg (by omega)]
    rw [same, one]
  · exact setParts_eq r data _ fits

/-- Consecutive parts of a list make up its beginning. -/
theorem flatMap_parts (data : List Word) (w : Nat) : ∀ n, (List.range n).flatMap (fun i => (data.drop (i * w)).take w) = data.take (n * w)
  | 0 => by rw [Nat.zero_mul]; rfl
  | n + 1 => by
    rw [List.range_succ, List.flatMap_append, flatMap_parts data w n, List.flatMap_singleton, Nat.add_mul, Nat.one_mul, List.take_add]

/-- A group that has taken data of its length holds them. -/
theorem groupData_withParts {g : Hart} {r : VReg} {data : List Word} (fits : h.groupFits r)
    (hd : data.length = h.regWords * h.group) (hg : g.group = h.group) (hw : g.regWords = h.regWords)
    (hv : ∀ k (hk : k < 64), g.v[k].data = (h.withParts r data h.group)[k].data) : g.groupData r = data := by
  have part : ∀ i, i < h.group → (g.v[(r.toNat + i) % 64]!).data = (data.drop (i * h.regWords)).take h.regWords := fun i hi => by
    have fits : r.toNat + h.group ≤ 64 := fits
    rw [Nat.mod_eq_of_lt (by omega), getElem!_pos g.v _ (by omega), hv, Hart.withParts_getElem, if_pos (by omega),
      Nat.add_sub_cancel_left]
  unfold Hart.groupData
  split
  · next one =>
    rw [hg] at one
    rw [hv, Hart.withParts_getElem, if_pos (by omega), Nat.sub_self, Nat.zero_mul, List.drop_zero]
    rw [one, Nat.mul_one] at hd
    rw [← hd, List.take_length]
  · have parts : ∀ i ∈ List.range h.group, padTo g.regWords (g.v[(r.toNat + i) % 64]!).data =
        (data.drop (i * h.regWords)).take h.regWords := fun i hi => by
      have hi := List.mem_range.1 hi
      rw [part i hi, hw]
      refine padTo_of_length ?_
      rw [List.length_take, List.length_drop, hd]
      have := Nat.mul_le_mul_right h.regWords (show i + 1 ≤ h.group from hi)
      rw [Nat.add_mul, Nat.one_mul] at this
      rw [Nat.mul_comm h.regWords]
      omega
    rw [hg, List.flatMap_congr parts, flatMap_parts, Nat.mul_comm, ← hd, List.take_length]

/-! ### Element-wise writes (R185) -/

/-- The elements of a destination before a write of a tag. -/
def Hart.elemsBefore (h : Hart) (vd : VReg) (t : Tag) : List Quad :=
  takeElems t.wide h.maxElems (padTo (h.regWords * h.group) (h.groupData vd))

/-- The elements of a destination after a write of a tag. -/
def Hart.elemsAfter (h : Hart) (vd : VReg) (t : Tag) (act : Nat → Bool) (mp : Bool) (res : List Quad) : List Quad :=
  let body := mergeBody act mp h.csr.tp 0 res (h.elemsBefore vd t)
  if h.doneElems = 0 then body else keepElems h.doneElems 0 body (h.elemsBefore vd t)

/-- The containers of a destination after a write of a tag. -/
def Hart.wordsAfter (h : Hart) (vd : VReg) (t : Tag) (act : Nat → Bool) (mp : Bool) (res : List Quad) : List Word :=
  packElems t.wide (h.elemsAfter vd t act mp res) ++ (padTo (h.regWords * h.group) (h.groupData vd)).drop (h.maxElems * t.words)

theorem Hart.elemsAfter_length (vd : VReg) (t : Tag) (act : Nat → Bool) (mp : Bool) (res : List Quad) :
    (h.elemsAfter vd t act mp res).length = h.maxElems := by
  have before : (h.elemsBefore vd t).length = h.maxElems := takeElems_length ..
  unfold Hart.elemsAfter
  dsimp only
  split
  · rw [mergeBody_length, before]
  · rw [keepElems_length, mergeBody_length, before]

/-- Element i after a write: what an earlier run has executed stays; else R185's choice (R34, R36). -/
theorem Hart.elemsAfter_getElem? (vd : VReg) (t : Tag) (act : Nat → Bool) (mp : Bool) (res : List Quad) {i : Nat}
    (hi : i < h.maxElems) : (h.elemsAfter vd t act mp res)[i]? =
      let old := elemAt (padTo (h.regWords * h.group) (h.groupData vd)) t.wide i
      some (if h.doneElems.getLsbD i then old
        else if i < res.length then (if act i then res.getD i 0 else if mp then 0 else old) else if h.csr.tp then 0 else old) := by
  have before : (h.elemsBefore vd t)[i]? = some (elemAt (padTo (h.regWords * h.group) (h.groupData vd)) t.wide i) :=
    takeElems_getElem? _ _ _ _ hi
  have merged := mergeBody_getElem? act mp h.csr.tp (h.elemsBefore vd t) 0 res i
  rw [before, Nat.zero_add, Option.map_some] at merged
  unfold Hart.elemsAfter
  dsimp only
  split
  · next none => rw [merged, none, show (0 : BitVec 65536).getLsbD i = false from BitVec.getLsbD_zero, if_neg Bool.false_ne_true]
  · rw [keepElems_getElem? _ _ _ _ _ (mergeBody_length ..), Nat.zero_add, merged, before, bitOf]
    split <;> rfl

theorem Hart.maxElems_words {t : Tag} (hw : t.wide = true → h.csr.w64 = true) :
    h.maxElems * t.words ≤ h.regWords * h.group := by
  have e : h.maxElems * t.words = h.csr.vlmax.toNat * t.words * h.group := by
    rw [Hart.maxElems, Nat.mul_right_comm]
  rw [e, Hart.regWords]
  refine Nat.mul_le_mul_right _ (Nat.mul_le_mul_left _ ?_)
  unfold Tag.words
  cases ht : t.wide with
  | true => rw [hw ht]
  | false =>
    cases h.csr.w64 with
    | true => decide
    | false => decide

theorem Hart.wordsAfter_length {t : Tag} (hw : t.wide = true → h.csr.w64 = true) (vd : VReg) (act : Nat → Bool) (mp : Bool)
    (res : List Quad) : (h.wordsAfter vd t act mp res).length = h.regWords * h.group := by
  have := Hart.maxElems_words hw
  rw [Hart.wordsAfter, List.length_append, packElems_length, Hart.elemsAfter_length, List.length_drop, padTo_length]
  exact Nat.add_sub_of_le this

/-- A destination group takes its tag and taint, and vlast names it. -/
def Hart.stamped (h : Hart) (vd : VReg) (t : Tag) (taint : TaintSet) : Hart :=
  { h with v := h.v.set vd.toNat { h.v[vd.toNat] with tag := t, taint := taint }, csr := { h.csr with vlast := vd } }

theorem writeV_stamped (vd : VReg) (t : Tag) (act : Nat → Bool) (mp : Bool) (res : List Quad) (taint : TaintSet) :
    h.writeV vd t act mp res taint = (h.setGroupData vd (h.wordsAfter vd t act mp res)).stamped vd t taint := rfl

/-- The registers after a write of a destination group. -/
def Hart.regsAfter (h : Hart) (vd : VReg) (words : List Word) (t : Tag) (taint : TaintSet) : Vector VecReg 64 :=
  let parts := h.withParts vd words h.group
  parts.set vd.toNat { parts[vd.toNat] with tag := t, taint := taint }

theorem Hart.regsAfter_data (vd : VReg) (words : List Word) (t : Tag) (taint : TaintSet) (k : Nat) (hk : k < 64) :
    (h.regsAfter vd words t taint)[k].data = (h.withParts vd words h.group)[k].data := by
  unfold Hart.regsAfter
  generalize h.withParts vd words h.group = parts
  dsimp only
  rw [Vector.getElem_set]
  split
  · next e => subst e; rfl
  · rfl

theorem Hart.regsAfter_same (vd : VReg) (words : List Word) (t : Tag) (taint : TaintSet) :
    (h.regsAfter vd words t taint)[vd.toNat].tag = t ∧ (h.regsAfter vd words t taint)[vd.toNat].taint = taint := by
  unfold Hart.regsAfter
  generalize h.withParts vd words h.group = parts
  dsimp only
  rw [Vector.getElem_set_self]
  exact ⟨rfl, rfl⟩

theorem Hart.regsAfter_other (vd : VReg) (words : List Word) (t : Tag) (taint : TaintSet) {r : VReg}
    (hr : r.toNat < vd.toNat ∨ vd.toNat + h.group ≤ r.toNat) : (h.regsAfter vd words t taint)[r.toNat] = h.v[r.toNat] := by
  have : 0 < h.group := Nat.two_pow_pos h.csr.gl.toNat
  unfold Hart.regsAfter
  dsimp only
  rw [Vector.getElem_set_ne _ _ (by omega), Hart.withParts_getElem, if_neg (by omega)]

/-- A hart with other vector registers, whose vlast is vd. -/
def Hart.withV (h : Hart) (v : Vector VecReg 64) (vd : VReg) : Hart := { h with v := v, csr := { h.csr with vlast := vd } }

@[simp] theorem Hart.withV_group (h : Hart) (v : Vector VecReg 64) (vd : VReg) : (h.withV v vd).group = h.group := rfl
@[simp] theorem Hart.withV_regWords (h : Hart) (v : Vector VecReg 64) (vd : VReg) : (h.withV v vd).regWords = h.regWords := rfl
@[simp] theorem Hart.withV_v (h : Hart) (v : Vector VecReg 64) (vd : VReg) : (h.withV v vd).v = v := rfl
@[simp] theorem Hart.withV_vlast (h : Hart) (v : Vector VecReg 64) (vd : VReg) : (h.withV v vd).csr.vlast = vd := rfl
@[simp] theorem Hart.withV_fflags (h : Hart) (v : Vector VecReg 64) (vd : VReg) : (h.withV v vd).csr.fflags = h.csr.fflags := rfl
@[simp] theorem Hart.withV_s (h : Hart) (v : Vector VecReg 64) (vd : VReg) : (h.withV v vd).s = h.s := rfl
@[simp] theorem Hart.withV_m (h : Hart) (v : Vector VecReg 64) (vd : VReg) : (h.withV v vd).m = h.m := rfl
@[simp] theorem Hart.withV_pc (h : Hart) (v : Vector VecReg 64) (vd : VReg) : (h.withV v vd).pc = h.pc := rfl

/-- A write of a destination group changes its registers, as they take their parts of the containers, and vlast. -/
theorem writeV_eq {vd : VReg} {t : Tag} (fits : h.groupFits vd) (hw : t.wide = true → h.csr.w64 = true) (act : Nat → Bool)
    (mp : Bool) (res : List Quad) (taint : TaintSet) : h.writeV vd t act mp res taint =
    h.withV (h.regsAfter vd (h.wordsAfter vd t act mp res) t taint) vd := by
  rw [writeV_stamped, setGroupData_eq fits (Hart.wordsAfter_length hw vd act mp res)]
  rfl

section
variable {vd : VReg} {t : Tag} (fits : h.groupFits vd) (hw : t.wide = true → h.csr.w64 = true)
include fits hw

theorem writeV_elem (act : Nat → Bool) (mp : Bool) (res : List Quad) (taint : TaintSet) {i : Nat} (hi : i < h.maxElems) :
    elemAt ((h.writeV vd t act mp res taint).groupData vd) t.wide i =
      let old := elemAt (padTo (h.regWords * h.group) (h.groupData vd)) t.wide i
      elemFit t.wide (if h.doneElems.getLsbD i then old
        else if i < res.length then (if act i then res.getD i 0 else if mp then 0 else old) else if h.csr.tp then 0 else old) := by
  have held : (h.writeV vd t act mp res taint).groupData vd = h.wordsAfter vd t act mp res := by
    rw [writeV_eq fits hw]
    refine groupData_withParts fits (Hart.wordsAfter_length hw vd act mp res) (Hart.withV_group ..) (Hart.withV_regWords ..) ?_
    rw [Hart.withV_v]
    exact Hart.regsAfter_data vd _ t taint
  rw [held]
  exact elemAt_packElems _ _ _ _ _ (Hart.elemsAfter_getElem? vd t act mp res hi)

theorem writeV_reg_other (act : Nat → Bool) (mp : Bool) (res : List Quad) (taint : TaintSet) {r : VReg}
    (hr : r.toNat < vd.toNat ∨ vd.toNat + h.group ≤ r.toNat) : (h.writeV vd t act mp res taint).v[r.toNat] = h.v[r.toNat] := by
  rw [writeV_eq fits hw]
  exact Hart.regsAfter_other vd _ t taint hr

theorem writeV_reg_same (act : Nat → Bool) (mp : Bool) (res : List Quad) (taint : TaintSet) :
    (h.writeV vd t act mp res taint).tagOf vd = t ∧ (h.writeV vd t act mp res taint).taintV vd = taint := by
  rw [writeV_eq fits hw]
  exact Hart.regsAfter_same vd _ t taint
end

/-- The results of the active elements that no earlier run has executed, with their flags. -/
def Hart.bodyOf (h : Hart) (mask : MaskOp) (f : Nat → FRes) : List Quad × FFlags :=
  bodyResults (fun i => h.active mask i && !bitOf h.doneElems i) f h.vl 0

theorem elementwise_eq (vd : VReg) (t : Tag) (mask : MaskOp) (f : Nat → FRes) (src : TaintSet) : h.elementwise vd t mask f src =
    (h.writeV vd t (h.active mask) h.csr.mp (h.bodyOf mask f).1 (src ||| h.taintM mask.m ||| h.keepTaint mask vd)).addFlags
      (h.bodyOf mask f).2 := rfl

theorem Hart.addFlags_fflags (h : Hart) (f : FFlags) : (h.addFlags f).csr.fflags = h.csr.fflags ||| f := rfl
theorem Hart.addFlags_vlast (h : Hart) (f : FFlags) : (h.addFlags f).csr.vlast = h.csr.vlast := rfl
theorem Hart.addFlags_groupData (h : Hart) (f : FFlags) (r : VReg) : (h.addFlags f).groupData r = h.groupData r := rfl

/-- Settles O27: the elements after the write are `Hart.elemsAfter`, and its registers are dealt out by `Hart.withParts`. -/
theorem elementwiseWrites : Obligations.ElementwiseWrites := by
  unfold Obligations.ElementwiseWrites
  intro h vd t mask f src hr hw narrow g n
  have fits := groupFits_of_regOk hr
  have hg : g = _ := elementwise_eq vd t mask f src
  generalize htaint : src ||| h.taintM mask.m ||| h.keepTaint mask vd = taint at hg
  obtain ⟨tag, taints⟩ := writeV_reg_same fits hw (h.active mask) h.csr.mp (h.bodyOf mask f).1 taint
  refine ⟨fun i hi => ?element, hg ▸ tag, ?vlast, ?taint, fun r outside => ?other, fun b _ => ?flags, ?s, ?m, ?pc⟩
  case element =>
    intro old
    have count : (h.bodyOf mask f).1.length = n := bodyResults_length ..
    rw [hg, Hart.addFlags_groupData]
    refine (writeV_elem fits hw (h.active mask) h.csr.mp (h.bodyOf mask f).1 taint hi).trans ?_
    dsimp only
    rw [count]
    change elemFit t.wide (if h.doneElems.getLsbD i = true then old else
      if i < n then (if h.active mask i = true then (h.bodyOf mask f).1.getD i 0 else if h.csr.mp = true then 0 else old)
      else if h.csr.tp = true then 0 else old) = _
    have oldFits : elemFit t.wide old = old := elemFit_of_lt fun hn => by
      show (elemAt _ t.wide i).toNat < _
      rw [hn]; exact elemAt_lt _ i
    have zeroFits : elemFit t.wide 0 = 0 := elemFit_of_lt fun _ => by decide
    by_cases hd : h.doneElems.getLsbD i = true
    · rw [if_pos hd, if_pos hd, oldFits]
    · rw [if_neg hd, if_neg hd]
      by_cases hn : i < n
      · have result := bodyResults_getD (fun i => h.active mask i && !bitOf h.doneElems i) f h.vl 0 i hn
        rw [Nat.zero_add] at result
        rw [if_pos hn, if_pos hn]
        by_cases ha : h.active mask i = true
        · rw [if_pos ha, if_pos ha, show (h.bodyOf mask f).1.getD i 0 = _ from result, bitOf, ha, Bool.eq_false_iff.2 hd]
          exact elemFit_of_lt (narrow i)
        · rw [if_neg ha, if_neg ha]
          split
          · exact zeroFits
          · exact oldFits
      · rw [if_neg hn, if_neg hn]
        split
        · exact zeroFits
        · exact oldFits
  case vlast => rw [hg, Hart.addFlags_vlast, writeV_eq fits hw, Hart.withV_vlast]
  case taint => rw [hg]; exact taints.trans htaint.symm
  case other => rw [hg]; exact writeV_reg_other fits hw _ _ _ _ outside
  case flags =>
    have raised := bodyResults_flags (fun i => h.active mask i && !bitOf h.doneElems i) f b h.vl 0
    simp only [Nat.zero_add] at raised
    rw [hg, Hart.addFlags_fflags, writeV_eq fits hw, Hart.withV_fflags, BitVec.getLsbD_or, show (h.bodyOf mask f).2.getLsbD b = _ from raised]
    rfl
  case s => rw [hg, Hart.addFlags_s, writeV_eq fits hw, Hart.withV_s]
  case m => rw [hg, Hart.addFlags_m, writeV_eq fits hw, Hart.withV_m]
  case pc => rw [hg, Hart.addFlags_pc, writeV_eq fits hw, Hart.withV_pc]
end Sys2Proof.Machine
end

section
/-! SUPPORT. Convoys: the members that the checks of the header pass, and how a member runs and how sloop.par begins. -/

namespace Sys2Proof.Machine
variable {s t u v w : State}

/-! ### The checks of R149 -/

theorem State.fetchMembers_length (header : Word) (units : BitVec 18) : ∀ (n i : Nat) (a : Quad) (after : Nat) {s : State}
    {r : List Quad × State × Nat}, s.fetchMembers header units n i a after = .ok r → r.1.length = n
  | 0, _, _, _, _, _, e => by cases e; rfl
  | n + 1, _, _, _, _, _, e => by
    unfold State.fetchMembers at e
    split at e
    · cases e
    dsimp only at e
    split at e
    · cases e
    split at e
    · cases e
    split at e
    · split at e
      · cases e
      · next hr => cases e; exact congrArg (· + 1) (State.fetchMembers_length header units n _ _ _ hr)
    · cases e

theorem State.checkMembers_length : ∀ (ws : List Quad) {s : State} {ms : List (Quad × Member)},
    s.checkMembers ws = .ok ms → ms.length = ws.length
  | [], _, _, e => by cases e; rfl
  | w :: ws, _, _, e => by
    unfold State.checkMembers at e
    split at e
    · cases e
    dsimp only at e
    split at e
    · cases e
    · next hms => cases e; exact congrArg (· + 1) (State.checkMembers_length ws hms)

/-- CNT says how many members there are, less two (R144). -/
theorem State.checkConvoy_length {a : Quad} {header : Word} {cnt : BitVec 3} {units : BitVec 18}
    {ms : List (Quad × Member)} {after : Nat} (e : s.checkConvoy a header cnt units = .ok (ms, u, after)) :
    ms.length = cnt.toNat + 2 := by
  unfold State.checkConvoy at e
  dsimp only at e
  split at e
  · cases e
  split at e
  · cases e
  split at e
  · cases e
  · next hf =>
    split at e
    · cases e
    · next hm =>
      cases e
      exact (State.checkMembers_length _ hm).trans (State.fetchMembers_length _ _ _ _ _ _ hf)

/-- A header of more than six members fails before anything behind it is fetched. -/
theorem State.checkConvoy_tooMany (s : State) (a : Quad) (header : Word) {cnt : BitVec 3} (units : BitVec 18)
    (many : 5 ≤ cnt.toNat) : s.checkConvoy a header cnt units = .error (convoyTrap s header 0) := by
  unfold State.checkConvoy
  exact if_pos many

/-! ### Running -/

theorem execConvoyHeader_ran {cnt : BitVec 3} {units : BitVec 18} {ms : List (Quad × Member)} {after : Nat}
    (checks : s.checkConvoy s.hart.pc (s.hart.ir.setWidth 32) cnt units = .ok (ms, u, after))
    (settles : u.settleS (ms.map (·.1)) = .ok w) (issues : w.issueAllOnly ms = .ok ())
    (entries : ¬(0 < (ms.filter fun m => matrixWord m.1).length ∧
      matrixEntries < w.matrixUsed w.hart + (ms.filter fun m => matrixWord m.1).length))
    (runs : w.runMembers s.hart.pc (s.hart.pc + BitVec.ofNat 64 (4 + 8 * ms.length)) false ms = .ok v) :
    execConvoyHeader cnt units s = .next (ran v (4 + 8 * ms.length)) := by
  unfold execConvoyHeader
  simp only [checks, settles, issues]
  rw [if_neg entries, runs]
  rfl

theorem execConvoyHeader_tooMany (s : State) {cnt : BitVec 3} (units : BitVec 18) (many : 5 ≤ cnt.toNat) :
    execConvoyHeader cnt units s =
      .next (s.takeTrap { cause := 0x02, tinfo := (s.hart.ir.setWidth 32).setWidth 64 }) := by
  have tinfo (x : Quad) : x ||| (BitVec.ofNat 64 0 <<< 32) = x := by simp
  unfold execConvoyHeader
  simp only [s.checkConvoy_tooMany _ _ units many, convoyTrap, finish, tinfo]

theorem State.runMembers_cons {h a : Quad} {later : Bool} {w : Quad} {m : Member} (rest : List (Quad × Member))
    (runs : ({ s with hart := { s.hart with ir := w } } : State).issueVector w h a later m.run = .ok u) :
    s.runMembers h a later ((w, m) :: rest) = u.runMembers h a true rest := by
  rw [State.runMembers]
  have runs' : (s.mapHart fun h => { h with ir := w }).issueVector w h a later m.run = .ok u := runs
  simp only [runs']

/-- What no queue and no collective holds runs at once. -/
theorem State.issueVector_runs {word pc after : Quad} {later : Bool} {body : State → Except Stop State}
    (queue : s.hart.queued = false) (collective : s.blockedVst = false) (runs : body (s.prepared word) = .ok u) :
    s.issueVector word pc after later body =
      .ok (u.launched (s.prepared word).hart ((s.prepared word).hart.entryOf word pc)).nextSeq := by
  unfold State.issueVector
  simp only [queue, collective, runs, Bool.false_and, Bool.false_eq_true, if_false]

/-! ### sloop.par -/

theorem execSloopPar_next {a : SReg} {off : BitVec 12} {q : Quad} {c : Code} {ms : List (Quad × Member)} {after : Nat}
    {ps : List Parcel} (fetches : s.fetchWord (s.hart.pc + 4) = .ok (q, some c, t)) (major : q.extractLsb' 0 7 = 0x77#7)
    (reserved : q.extractLsb' 28 4 = 0)
    (formed : (Instr.convoyHeader (q.extractLsb' 7 3) (q.extractLsb' 10 18)).wellFormed = true)
    (checks : t.checkConvoy (s.hart.pc + 4) (q.setWidth 32) (q.extractLsb' 7 3) (q.extractLsb' 10 18) = .ok (ms, u, after))
    (next : u.fetchMore (s.hart.pc + 4 + BitVec.ofNat 64 (4 + 8 * ms.length)) 2 = .ok (ps, v))
    (snext : ps.foldr (fun (x : Parcel) acc => x.toNat + 65536 * acc) 0 % 128 = 0x67)
    (column : ps.foldr (fun (x : Parcel) acc => x.toNat + 65536 * acc) 0 / 2 ^ 17 % 8 = 4)
    (ordered : parOk [] (ms.map (·.2)) = true) :
    execSloopPar a off s = .next ((v.startLoop a off).mapHart fun h =>
      { h with par := if h.csr.vl = 0 then none else some h.seq }) := by
  have zero : fieldOf q 28 4 = 0 := congrArg BitVec.toNat reserved
  unfold execSloopPar
  simp only [fetches, major, zero, formed, checks, next, snext, column, ordered]
  rfl

/-- Settles O37, from the functions that run a convoy: each of its premises takes one branch of them. -/
theorem convoys : Obligations.Convoys := by
  unfold Obligations.Convoys
  refine ⟨fun s u w v cnt units ms after checks settles issues entries runs => ⟨State.checkConvoy_length checks, ?header⟩,
    fun s h a later w m rest u => ⟨rfl, State.runMembers_cons rest, fun queue collective => State.issueVector_runs queue collective⟩,
    fun s cnt units many => (by rfl : exec (.convoyHeader cnt units) s = _).trans (execConvoyHeader_tooMany s units many),
    fun s t u v a off q c ms after ps => ?sloop⟩
  case header =>
    refine (by rfl : exec (.convoyHeader cnt units) s = _).trans
      (execConvoyHeader_ran checks settles issues (fun ⟨_, full⟩ => ?_) runs)
    dsimp only at entries
    unfold matrixEntries at full
    omega
  case sloop =>
    intro cnt units w fetches major reserved formed checks next snext column ordered
    exact ⟨v.startLoop a off, rfl, execSloopPar_next fetches major reserved formed checks next snext column ordered⟩
end Sys2Proof.Machine
end

section
/-! SUPPORT. The counterexample to the statement of vector atomics: a hart that has captured the elements of its data
register (R220). -/

namespace Sys2Proof.Machine

/-! ### The operands of a merged update -/

/-- The value of the first element of a merged update. -/
def AccOp.firstOperand : AccOp → Option Quad
  | .vamo _ _ es _ => es.head?.map (·.2)
  | _ => none

/-- An update whose operands are those of `l` by f begins with one of them. -/
theorem AccOp.firstOperand_vamo {op : AmoOp} {t : Tag} {d : Option VReg} {l : List Elem} {f : Elem → Quad} {x : Quad}
    (h : AccOp.firstOperand (.vamo op t (l.map fun e => (e.j, f e)) d) = some x) : ∃ e ∈ l, f e = x := by
  cases l with
  | nil => cases h
  | cons e r => exact ⟨e, List.mem_cons_self, Option.some.inj h⟩

/-! ### A hart that has captured 9 where v7 holds 5 -/

/-- The operands of vamo.add v7 through q6. -/
def captureArgs : VMem := ⟨0, 7, 6, ⟨0, false⟩, false, 0, .dyn, false⟩

/-- A hart of one element: q6 is a unit stream of I32 in the vault of its core, v7 holds 5, and the captured data are 9. -/
def captured : State :=
  ({ State.reset.withLaunch with cores := [{ pkg := 0, die := 0, core := 0, units := [(0, 1)] }] } : State).mapHart fun h =>
    { h with
      ir := match encode (.vamo .add captureArgs) with | some (.w64 w) => w | _ => 0
      csr := { h.csr with vl := 1 }
      v := h.v.set! 7 { tag := .i32, data := [5] }
      q := h.q.set! 6 { base := 0x3FE7F00000000000, kind := 1, fmt := .i32 }
      capData := some [9] }

theorem captured_word : wordInstr captured.hart.ir = some (.vamo .add captureArgs) := by decide +kernel

theorem State.needV_of_idle {s : State} (idle : s.hart.pend = []) (rs : List VReg) : s.needV rs = s := by
  simp [State.needV, idle]

theorem State.needS_of_idle {s : State} (idle : s.hart.pend = []) (rs : List SReg) : s.needS rs = s := by
  simp [State.needS, idle]

theorem State.ready_of_idle {s : State} (idle : s.hart.pend = []) (struck : s.hart.struck = false) {vs : List VReg}
    (coll : s.hart.awaitsColl vs = false) : s.ready vs [] = .ok s := by
  simp [State.ready, State.needV_of_idle, State.needS_of_idle, idle, struck, coll]

theorem captured_prepared : captured.prepared captured.hart.ir = captured := by
  unfold State.prepared
  simp only [captured_word]
  rw [State.needV_of_idle (by rfl), if_neg (by decide +kernel)]

/-- The instruction begins at `captured` itself: its hart has no access to perform, and a unit stream has no tables. -/
theorem captured_begins : Begins captured captured (.vamo .add captureArgs) [7] captureArgs := by
  refine ⟨captured_word, ?unit, by decide +kernel, by decide +kernel, captured, ?ready, ?walk⟩
  case unit => unfold VectorUnit; decide +kernel
  case ready =>
    rw [captured_prepared]
    exact State.ready_of_idle (by rfl) (by decide +kernel) (by decide +kernel)
  case walk =>
    unfold State.walkReady
    exact if_pos (by decide +kernel)

/-- The walk of `captured`. -/
def captureWalk : Gathered := walkOf captured .atomic captured.hart.q[6] none ⟨0, false⟩

/-- v7 holds no 9. -/
theorem captureWalk_operands : ∀ e ∈ captureWalk.present,
    (captureWalk.st.hart.elems 7 .i32 captureWalk.st.hart.csr.vl.toNat).getD e.j 0 ≠ 9 := by decide +kernel

/-- The first operands of the updates that an outcome leaves to be performed. -/
def leftOperands : Host.Outcome State Fault Refusal → List (Option Quad)
  | .next v => v.hart.pend.map fun a => a.op.firstOperand
  | _ => []

/-- The update adds what was captured. -/
theorem captured_operands : leftOperands (exec (.vamo .add captureArgs) captured) = [some 9] := by decide +kernel

/-- Refutes O36: vamo reads the data that the hart has captured where it has captured some (R220), and the statement has
the elements of the register, for every value of `capData`. `captured` is a state in which the two differ. -/
theorem not_vectorAtomics : ¬ Obligations.VectorAtomics := by
  unfold Obligations.VectorAtomics
  intro h
  obtain ⟨v, new, runs, -, hart, -, -, -, operands, -⟩ := h.1 captured captured .add captureArgs false captured_begins
    (by rfl) (by decide +kernel) (by decide +kernel) (by decide +kernel) (by decide +kernel) (by decide +kernel)
    (by decide +kernel) (by decide +kernel) (by rfl)
  have pend : v.hart.pend = new := (congrArg Hart.pend hart).trans (congrArg (· ++ new) (by rfl : captureWalk.st.hart.pend = []))
  have nine : new.map (fun a => a.op.firstOperand) = [some 9] := by
    rw [← pend, ← captured_operands]
    exact (congrArg leftOperands runs).symm
  obtain ⟨a, ha, first⟩ := List.mem_map.1 (nine ▸ List.mem_singleton_self (some (9 : Quad)))
  obtain ⟨e, -, -, -, op⟩ := operands a ha
  obtain ⟨x, hx, value⟩ := AccOp.firstOperand_vamo (op ▸ first)
  exact captureWalk_operands x (List.mem_of_mem_filter hx) value
end Sys2Proof.Machine
end

section
/-! SUPPORT. Scalar floating point: an instruction that rounds or not, and the bits that a sign move keeps. -/

namespace Sys2Proof.Machine

/-! ### The two shared operations (R165) -/

/-- The hart of an instruction of 4 bytes that wrote sd and raised flags is that of `ranF`. -/
theorem State.mapHart_flagged_done (s : State) (d : SReg) (f : Hart → FRes) (t : Hart → TaintSet) :
    (s.mapHart fun h => (h.setS d (f h).1 (t h)).addFlags (f h).2).done 4 = ranF s d (f s.hart) (t s.hart) := by
  simp only [State.mapHart, Hart.setS_eq]
  rfl

theorem State.fpPlain_eq (s : State) (d : SReg) (src : List SReg) (f : Hart → FRes) :
    s.fpPlain d src f = .next (ranF (s.needS (d :: src)) d (f (s.needS (d :: src)).hart)
      (src.foldl (fun acc r => acc ||| (s.needS (d :: src)).hart.taintS r) 0)) :=
  congrArg _ (State.mapHart_flagged_done _ d f fun h => src.foldl (fun acc r => acc ||| h.taintS r) 0)

theorem State.fpRound_eq (s : State) (rm : RMode) (d : SReg) (src : List SReg) (f : Rnd → Hart → FRes) :
    s.fpRound rm d src f = match rm.resolve s.hart.csr.frm with
      | some r => .next (ranF (s.needS (d :: src)) d (f r (s.needS (d :: src)).hart)
          (src.foldl (fun acc r => acc ||| (s.needS (d :: src)).hart.taintS r) 0))
      | none => .next (s.takeTrap { cause := 0x01, tinfo := s.hart.ir }) := by
  unfold State.fpRound State.rounding
  cases rm.resolve s.hart.csr.frm with
  | none => rfl
  | some r => exact s.fpPlain_eq d src (f r)

/-! ### Signs and bits (R165) -/

theorem ofNat_mod_two_pow (x : Quad) (n : Nat) : BitVec.ofNat 64 (x.toNat % 2 ^ n) = x &&& BitVec.ofNat 64 (2 ^ n - 1) := by
  rw [← Nat.and_two_pow_sub_one_eq_mod, BitVec.ofNat_and, BitVec.ofNat_toNat, BitVec.setWidth_eq]

/-- The bits below a sign and the sign have none in common. -/
theorem ofNat_mod_add_sign (x : Quad) (n : Nat) (g : Bool) : BitVec.ofNat 64 (x.toNat % 2 ^ n + if g then 2 ^ n else 0) =
    (if g then BitVec.ofNat 64 (2 ^ n) else 0) ||| (x &&& BitVec.ofNat 64 (2 ^ n - 1)) := by
  rw [← ofNat_mod_two_pow]
  cases g with
  | false => simp
  | true =>
    have apart := Nat.two_pow_add_eq_or_of_lt (Nat.mod_lt x.toNat (Nat.two_pow_pos n)) 1
    rw [Nat.mul_one] at apart
    rw [if_pos rfl, if_pos rfl, Nat.add_comm, apart, BitVec.ofNat_or]

/-- A sign move keeps the bits below the sign (R70). -/
theorem FFmt.withSign_eq (fmt : FFmt) (g : Bool) (x : Quad) :
    let w := match fmt with | .f32 => 32 | .f64 => 64
    fmt.ff.withSign g x = (if g then BitVec.ofNat 64 (2 ^ (w - 1)) else 0) ||| (x &&& BitVec.ofNat 64 (2 ^ (w - 1) - 1)) := by
  cases fmt with
  | f32 => exact ofNat_mod_add_sign x 31 g
  | f64 => exact ofNat_mod_add_sign x 63 g

theorem FFmt.bits_eq (fmt : FFmt) (x : Quad) :
    fmt.ff.bits x = x &&& BitVec.ofNat 64 (2 ^ (match fmt with | .f32 => 32 | .f64 => 64) - 1) := by
  cases fmt with
  | f32 => exact ofNat_mod_two_pow x 32
  | f64 => exact ofNat_mod_two_pow x 64

theorem FFmt.neg_eq (fmt : FFmt) (x : Quad) : fmt.ff.neg x = x.getLsbD ((match fmt with | .f32 => 32 | .f64 => 64) - 1) := by
  cases fmt <;> rfl

/-! ### The instructions -/

theorem scalarFloatRounding : scalarFloatRoundingRule := by
  intro s fmt rm code d a b c u u1 u3 x y t t3 fused cases
  have runs : ∀ {i : Instr} {f : Rnd → State} {src : List SReg} {g : Rnd → Hart → FRes}, exec i s = s.fpRound rm d src g →
      (∀ r, ranF (s.needS (d :: src)) d (g r (s.needS (d :: src)).hart)
        (src.foldl (fun acc r => acc ||| (s.needS (d :: src)).hart.taintS r) 0) = f r) → cases i f := by
    intro i f src g op same
    rw [State.fpRound_eq] at op
    dsimp only [cases]
    generalize rm.resolve s.hart.csr.frm = mode at op ⊢
    cases mode with
    | none => exact op
    | some r => exact op.trans (congrArg _ (same r))
  have two : ∀ p : FRes, ranF u d p (0 ||| u.hart.taintS a ||| u.hart.taintS b) = ranF u d p t := by simp [t]
  have one : ∀ p : FRes, ranF u1 d p (0 ||| u1.hart.taintS a) = ranF u1 d p (u1.hart.taintS a) := by simp
  have three : ∀ p : FRes, ranF u3 d p (0 ||| u3.hart.taintS a ||| u3.hart.taintS b ||| u3.hart.taintS c) = ranF u3 d p t3 := by
    simp [t3]
  exact ⟨runs rfl fun _ => two _, runs rfl fun _ => two _, runs rfl fun _ => two _, runs rfl fun _ => two _,
    runs rfl fun _ => one _, runs rfl fun _ => one _, runs rfl fun _ => three _, runs rfl fun _ => three _,
    runs rfl fun _ => three _⟩

theorem scalarFloatPlain : scalarFloatPlainRule := by
  intro s fmt d a b u u1 x y t w low sign sx sy cmp
  have two : ∀ {i : Instr} {f : Hart → FRes} {p : FRes}, exec i s = s.fpPlain d [a, b] f → f u.hart = p →
      exec i s = .next (ranF u d p t) := by
    intro i f p op same
    rw [op, State.fpPlain_eq, ← same]
    simp [t, u]
  have one : ∀ {i : Instr} {f : Hart → FRes} {p : FRes}, exec i s = s.fpPlain d [a] f → f u1.hart = p →
      exec i s = .next (ranF u1 d p (u1.hart.taintS a)) := by
    intro i f p op same
    rw [op, State.fpPlain_eq, ← same]
    simp [u1]
  have moved : ∀ g g', g = g' → ((fmt.ff.withSign g x, 0) : FRes) = (sign g' ||| low x, 0) := by
    rintro g _ rfl
    exact congrArg (·, 0) (FFmt.withSign_eq fmt g x)
  have hx : fmt.ff.neg x = sx := FFmt.neg_eq fmt x
  have hy : fmt.ff.neg y = sy := FFmt.neg_eq fmt y
  exact ⟨two rfl rfl, two rfl rfl, two rfl rfl, two rfl rfl, two rfl rfl, two rfl rfl, one rfl rfl,
    two rfl (moved _ _ hy), two rfl (moved _ _ (congrArg _ hy)), two rfl (moved _ _ (congrArg₂ _ hx hy)),
    one rfl (congrArg (·, 0) (FFmt.bits_eq fmt _))⟩

/-- Settles O5: an instruction that rounds and one that does not are `State.fpRound` and `State.fpPlain` of its operation. -/
theorem scalarFloatingPoint : Obligations.ScalarFloatingPoint := ⟨scalarFloatRounding, scalarFloatPlain⟩
end Sys2Proof.Machine
end

section
/-! SUPPORT. CSR instructions: the traps, the wait, and the write of each (R58, R175, R176). -/

namespace Sys2Proof.Machine

/-! ### The registers that are singled out -/

theorem csrWaits_iff (n : BitVec 12) : csrWaits n = true ↔ n = 0x015 ∨ n = 0x016 ∨ n = 0x018 := by
  simp [csrWaits, or_assoc]

theorem csrW1c_iff (n : BitVec 12) : csrW1c n = true ↔ n = 0x016 ∨ n = 0x017 := by
  simp [csrW1c]

theorem csrTaints_iff (n : BitVec 12) : csrTaints n = true ↔ n = 0x011 ∨ n = 0x020 ∨ n = 0x021 ∨ n = 0x022 ∨ n = 0x039 ∨
    n = 0x040 ∨ n = 0x041 ∨ n = 0x042 := by
  simp [csrTaints, or_assoc]

/-! ### The shared operation (R175) -/

/-- The state in which a CSR instruction that uses these s registers reads its CSR. -/
def State.csrTurn (s : State) (n : BitVec 12) (rs : List SReg) : State :=
  if csrWaits n then (s.needS rs).drain else s.needS rs

/-- Nothing earlier than an access to CSR n is left to wait for at `t` (R58). -/
def State.csrClearAt (t : State) (n : BitVec 12) : Prop :=
  csrWaits n = true → t.hart.struck = false ∧ ∀ a ∈ t.hart.pend, a.queue = 0

/-- What the write of a CSR instruction leaves, where the old value is `old` (R175, R176). -/
def State.csrWrite (v : State) (n : BitVec 12) (old : Quad) (o : CsrOp) (a : SReg) : State :=
  let x := v.hart.getS a
  let w := if csrW1c n then (if o = CsrOp.clear then v else v.csrClear n x)
    else v.csrPut n (match o with | .write => x | .set => old ||| x | .clear => old &&& ~~~ x)
  if csrTaints n then w.mapHart (·.addControl (v.hart.taintS a)) else w

section
variable {s : State} {d : SReg} {n : BitVec 12} {op : Option (CsrOp × SReg)}

theorem csr_permitted (h : n.toNat < 0x800 ∨ s.hart.level = .s) : ¬(0x800 ≤ n.toNat ∧ s.hart.level = .u) := by
  rintro ⟨high, atU⟩
  rcases h with low | atS
  · omega
  · rw [atS] at atU
    cases atU

/-- A number of level S at level U (R327). -/
theorem State.csr_forbidden (h : ¬(n.toNat < 0x800 ∨ s.hart.level = .s)) :
    s.csr d n op = .next (s.takeTrap { cause := 0x03, tinfo := s.hart.ir }) := by
  obtain ⟨low, notS⟩ := not_or.1 h
  have atU : s.hart.level = .u := by cases e : s.hart.level with
    | u => rfl
    | s => exact absurd e notS
  unfold State.csr
  rw [if_pos ⟨Nat.le_of_not_lt low, atU⟩]
  rfl

theorem State.csr_busy (h : n.toNat < 0x800 ∨ s.hart.level = .s) (w : csrWaits n = true) (b : s.hart.vectorBusy = true) :
    s.csr d n op = .next (s.holdHart .presence) := by
  unfold State.csr
  rw [if_neg (csr_permitted h), if_pos ⟨w, b⟩]
  rfl

/-- With nothing that it may not pass in the way, the access turns on what its turn holds. -/
theorem State.csr_allowed (h : n.toNat < 0x800 ∨ s.hart.level = .s) (idle : csrWaits n = true → s.hart.vectorBusy = false) :
    s.csr d n op = finish s (
      let t := s.csrTurn n (d :: (op.map (·.2)).toList)
      if csrWaits n ∧ (t.hart.struck ∨ t.hart.pend.any fun a => a.queue != 0) then .error (.hold .presence) else
      match t.csrGet n with
      | none => .error (illegal t)
      | some old => .ok (((match op with
          | none => t
          | some (o, a) => t.csrWrite n old o a).mapHart (·.setS d old 0)).done 4)) := by
  unfold State.csr
  rw [if_neg (csr_permitted h), if_neg (by rintro ⟨w, b⟩; rw [idle w] at b; cases b)]
  rfl

theorem State.csr_held (h : n.toNat < 0x800 ∨ s.hart.level = .s) (w : csrWaits n = true)
    (c : ¬(s.csrTurn n (d :: (op.map (·.2)).toList)).csrClearAt n) : s.csr d n op = .next (s.holdHart .presence) := by
  cases b : s.hart.vectorBusy with
  | true => exact State.csr_busy h w b
  | false =>
    rw [State.csr_allowed h fun _ => b]
    dsimp only
    rw [if_pos]
    · rfl
    · refine ⟨w, ?_⟩
      simpa [State.csrClearAt, w, imp_iff_not_or] using c

/-- Nothing is in the way: the CSR is read. -/
theorem State.csr_ready (h : n.toNat < 0x800 ∨ s.hart.level = .s) (idle : csrWaits n = true → s.hart.vectorBusy = false)
    {t : State} (ht : s.csrTurn n (d :: (op.map (·.2)).toList) = t) (c : t.csrClearAt n) :
    s.csr d n op = finish s (match t.csrGet n with
      | none => .error (illegal t)
      | some old => .ok (((match op with
          | none => t
          | some (o, a) => t.csrWrite n old o a).mapHart (·.setS d old 0)).done 4)) := by
  rw [State.csr_allowed h idle, ht]
  dsimp only
  rw [if_neg]
  rintro ⟨w, struck | waiting⟩
  · exact Bool.false_ne_true ((c w).1.symm.trans struck)
  · obtain ⟨x, hx, ne⟩ := List.any_eq_true.1 waiting
    exact bne_iff_ne.1 ne ((c w).2 x hx)
end

/-- Settles O13: `State.csr_forbidden`, `State.csr_held` and `State.csr_ready` are the three ends of a CSR instruction. -/
theorem csrInstructions : Obligations.CsrInstructions := by
  unfold Obligations.CsrInstructions
  intro s d a n waits w1c tainting at_ allowed u v x clear ct
  have hwaits : csrWaits n = true ↔ waits := csrWaits_iff n
  have turn : ∀ rs, s.csrTurn n rs = at_ rs := fun rs => if_congr hwaits rfl rfl
  have clears : ∀ t, clear t ↔ t.csrClearAt n := fun t => imp_congr_left hwaits.symm
  have tainted : ∀ t : State, (if csrTaints n then t.mapHart (·.addControl (v.hart.taintS a)) else t) = ct t :=
    fun t => if_congr (csrTaints_iff n) rfl rfl
  refine ⟨fun may idle hu hv => ⟨fun old get => ?read, fun old get => ?write, fun none => ?unlisted⟩,
    fun may => ⟨State.csr_forbidden may, State.csr_forbidden may, State.csr_forbidden may, State.csr_forbidden may⟩,
    fun may w blocked => ?held⟩
  case read =>
    refine (State.csr_ready may (fun w => idle (hwaits.1 w)) (turn [d]) ((clears _).1 hu)).trans ?_
    rw [get]
    exact congrArg _ (State.mapHart_setS_done _ d old)
  case write =>
    have written : ∀ o t, v.csrWrite n old o a = ct t → s.csr d n (some (o, a)) = .next (ranS (ct t) 4 d old 0) := by
      intro o t same
      refine (State.csr_ready may (fun w => idle (hwaits.1 w)) (turn [d, a]) ((clears _).1 hv)).trans ?_
      rw [get, ← same]
      exact congrArg _ (State.mapHart_setS_done _ d old)
    refine ⟨written .write _ ?_, written .set _ ?_, written .clear _ ?_⟩ <;>
      exact (tainted _).trans (congrArg ct (if_congr (csrW1c_iff n) rfl rfl))
  case unlisted =>
    refine (State.csr_ready may (fun w => idle (hwaits.1 w)) (turn [d]) ((clears _).1 hu)).trans ?_
    rw [none]
    rfl
  case held =>
    rcases blocked with busy | blocked
    · exact State.csr_busy may (hwaits.2 w) busy
    · exact State.csr_held may (hwaits.2 w) fun c =>
        blocked ((clears u).2 (Eq.mp (congrArg (State.csrClearAt · n) (turn [d])) c))
end Sys2Proof.Machine
end

section
/-! SUPPORT. A vector instruction that executes at once: its checks, the registers that it waits for, and what it leaves
(R26, R33, R36). -/

namespace Sys2Proof.Machine
variable {s u : State}

/-! ### Checks of the unit and of register names (R23, R26) -/

theorem State.vecUnit_ok {vs : List VReg} (h : VectorUnit s vs) : s.vecUnit = .ok () := by
  obtain ⟨groups, lanes, owned, -⟩ := h
  unfold State.vecUnit
  rw [if_neg (by simp [groups, lanes]), if_neg (by rintro ⟨atS, no⟩; simp [owned atS] at no)]

theorem State.vecRegs_ok {vs : List VReg} (h : VectorUnit s vs) : s.vecRegs vs = .ok () := by
  have named : vs.all s.hart.regOk = true := List.all_eq_true.2 fun r hr => by
    obtain ⟨low, whole⟩ := h.2.2.2 r hr
    simp [Hart.regOk, Hart.nregs, Hart.group, low, whole]
  unfold State.vecRegs
  rw [State.vecUnit_ok h]
  exact if_pos named

/-- Check 6 passes to the rounding mode where no tag is wider than the containers. -/
theorem State.checks6_ok {vs : List VReg} {tags : List Tag} {rnd : Except Stop Rnd} (h : VectorUnit s vs)
    (fits : ∀ t ∈ tags, t.wide = true → s.hart.csr.w64 = true) : s.checks6 vs tags rnd = rnd := by
  unfold State.checks6
  rw [State.vecRegs_ok h]
  refine if_neg fun wide => ?_
  obtain ⟨t, ht, w⟩ := List.any_eq_true.1 wide
  obtain ⟨tw, narrow⟩ := Bool.and_eq_true_iff.1 w
  simp [fits t ht tw] at narrow

theorem State.preRegs_ok {vs : List VReg} {t : Tag} (h : VectorUnit s vs) (fits : t.wide = true → s.hart.csr.w64 = true) :
    s.preRegs vs (some t) = .ok .rne := State.checks6_ok h (by simpa using fits)

/-! ### Waiting for registers (R33, R36) -/

theorem State.ready_of_complete {vs : List VReg} {ss : List SReg} (h : Complete s vs ss) :
    s.ready vs ss = .ok (complete s vs ss) ∧ s.readyEach vs ss = .ok (complete s vs ss) := by
  unfold Complete State.readyEach at h
  unfold State.readyEach
  split at h
  · cases h
  · next present =>
    rw [if_neg present, and_self]
    unfold State.ready at h ⊢
    split at h
    · cases h
    · dsimp only at h ⊢
      split at h
      · cases h
      · next no waits => rw [if_neg no, if_neg waits]; rfl

/-! ### Running (R150) -/

theorem State.launched_hart (s : State) (h : Hart) (e : Frozen) :
    (s.launched h e).hart = { s.hart with flights := (s.launched h e).hart.flights } := by
  unfold State.launched
  split
  · rfl
  · split
    · rfl
    · dsimp only [State.mapHart]
      split <;> rfl

@[simp] theorem State.launched_seq (s : State) (h : Hart) (e : Frozen) : (s.launched h e).hart.seq = s.hart.seq := by
  rw [State.launched_hart]

@[simp] theorem State.launched_pc (s : State) (h : Hart) (e : Frozen) : (s.launched h e).hart.pc = s.hart.pc := by
  rw [State.launched_hart]

theorem ranV_hart (s u : State) (n : Nat) (h : Hart) : (ranV s u n h).hart = { h with
    pc := h.pc + BitVec.ofNat 64 n, status := .running, seq := h.seq + 1, flights := (ranV s u n h).hart.flights } := by
  unfold ranV
  dsimp only
  rw [State.launched_hart]

@[simp] theorem ranV_mem (s u : State) (n : Nat) (h : Hart) : (ranV s u n h).mem = u.mem := State.launched_mem _ _ _

/-- A vector instruction with no memory word runs at once where neither the queue nor a collective holds it. -/
theorem State.vector_ran {body : State → Except Stop State} (queue : s.hart.queued = false) (collective : s.blockedVst = false)
    (plain : PlainWord s) (runs : body s = .ok u) : s.vector body = .next (ranV s u 8 u.hart) := by
  have prepared : s.prepared s.hart.ir = s := by
    cases h : wordInstr s.hart.ir with
    | none => unfold State.prepared; rw [h]
    | some x => exact (plain x h).2
  unfold State.vector State.vectorN
  rw [State.issueVector_runs queue collective (prepared.symm ▸ runs), prepared]
  simp [finish, ranV, State.done, State.nextSeq, State.mapHart, Hart.advance]

/-- As `State.vector_ran`, for an instruction that waits for its registers and then changes its hart alone. -/
theorem State.vector_ran_hart {vs : List VReg} {ss : List SReg} {body : State → Except Stop State} {h : Hart}
    (ready : VectorReady s vs ss) (runs : body s = .ok { u with hart := h }) : s.vector body = .next (ranV s u 8 h) := by
  obtain ⟨-, queue, collective, plain, -⟩ := ready
  exact State.vector_ran queue collective plain runs

end Sys2Proof.Machine
end

section
/-! SUPPORT. Mask registers: what a write leaves bit by bit (R189), and the instructions that write one (R205, R207, R209). -/

namespace Sys2Proof.Machine
variable {s : State} {h : Hart}

/-! ### A write of a mask (R189) -/

theorem getLsbD_setBit (acc : BitVec 65536) (b : Bool) (k i : Nat) (hi : i < 65536) :
    (if b then acc ||| 1#65536 <<< k else acc &&& ~~~(1#65536 <<< k)).getLsbD i = if i = k then b else acc.getLsbD i := by
  have one : (1#65536 <<< k).getLsbD i = decide (i = k) := by
    rw [BitVec.getLsbD_shiftLeft, BitVec.getLsbD_one]
    grind
  cases b with
  | false =>
    rw [if_neg Bool.false_ne_true, BitVec.getLsbD_and, BitVec.getLsbD_not, one]
    by_cases e : i = k <;> simp [hi, e]
  | true =>
    rw [if_pos rfl, BitVec.getLsbD_or, one]
    by_cases e : i = k <;> simp [e]

/-- The listed bits from index k on, and the others as they were. -/
theorem maskOfList_getLsbD {i : Nat} (hi : i < 65536) : ∀ (l : List Bool) (k : Nat) (acc : BitVec 65536),
    (maskOfList l k acc).getLsbD i = if k ≤ i ∧ i < k + l.length then l.getD (i - k) false else acc.getLsbD i
  | [], k, acc => (if_neg fun ⟨low, high⟩ => Nat.not_lt.2 low high).symm
  | b :: r, k, acc => by
    rw [maskOfList, maskOfList_getLsbD hi r, getLsbD_setBit acc b k i hi, List.length_cons]
    by_cases here : i = k
    · subst here
      simp
    · by_cases after : k < i
      · obtain ⟨j, rfl⟩ : ∃ j, i = k + 1 + j := ⟨i - (k + 1), by omega⟩
        rw [if_neg here, Nat.add_sub_cancel_left, show k + 1 + j - k = j + 1 by omega, List.getD_cons_succ]
        exact if_congr (by omega) rfl rfl
      · rw [if_neg (by omega), if_neg here, if_neg (by omega)]

theorem Hart.active_iff (h : Hart) (mask : MaskOp) (i : Nat) :
    h.active mask i = true ↔ ((mask.m = 0#3 ∨ h.m[mask.m.toNat].bits.getLsbD i = true) ↔ mask.comp = false) := by
  have bit : h.maskBit mask.m i = true ↔ (mask.m = 0#3 ∨ h.m[mask.m.toNat].bits.getLsbD i = true) := by
    simp [Hart.maskBit, bitOf]
  rw [← bit, Hart.active]
  cases h.maskBit mask.m i <;> cases mask.comp <;> simp

theorem Hart.writeMask_zero {md : MReg} {mask : MaskOp} {f : Nat → Bool} {t : TaintSet} (empty : h.vl = 0) :
    h.writeMask md mask f t = h := if_pos empty

/-- The body bits that a write of md gives. -/
def Hart.maskBody (h : Hart) (md : MReg) (mask : MaskOp) (f : Nat → Bool) (i : Nat) : Bool :=
  if h.doneElems.getLsbD i then h.m[md.toNat].bits.getLsbD i
  else if h.active mask i then f i else if h.csr.mp then false else h.m[md.toNat].bits.getLsbD i

/-- The taint of a mask that has been written: the old one stays where old bits may (R125). -/
def Hart.maskTaint (h : Hart) (md : MReg) (mask : MaskOp) (t : TaintSet) : TaintSet :=
  t ||| h.taintM mask.m ||| (if (!h.csr.mp && mask.m != 0) || !h.csr.tp then h.m[md.toNat].taint else 0)

theorem Hart.writeMask_pos {md : MReg} {mask : MaskOp} {f : Nat → Bool} {t : TaintSet} (body : 0 < h.vl) :
    h.writeMask md mask f t = { h with
      m := h.m.set md.toNat ⟨maskOfList ((List.range h.vl).map (h.maskBody md mask f)) 0 h.m[md.toNat].bits, false,
        h.maskTaint md mask t⟩ } :=
  if_neg (Nat.pos_iff_ne_zero.1 body)

theorem maskWrites : maskWritesRule := by
  intro h md mask f t g n
  refine ⟨Hart.writeMask_zero, fun body => ?_⟩
  have written : g = _ := Hart.writeMask_pos body
  rw [written]
  simp only [Vector.getElem_set_self]
  refine ⟨trivial, fun i hi => ?bits, ?taint, fun m ne => ?others, trivial, trivial, trivial⟩
  case bits =>
    rw [maskOfList_getLsbD hi]
    simp only [List.length_map, List.length_range, Nat.zero_le, true_and, Nat.zero_add, Nat.sub_zero]
    refine if_ctx_congr Iff.rfl (fun body => ?_) fun _ => rfl
    rw [List.getD_eq_getElem?_getD, List.getElem?_map, List.getElem?_range (show i < h.vl from body)]
    exact if_congr Iff.rfl rfl (if_congr (h.active_iff mask i) rfl rfl)
  case taint =>
    unfold Hart.maskTaint
    congr 2
    simp
  case others =>
    exact Vector.getElem_set_ne _ _ fun e => ne (BitVec.eq_of_toNat_eq e.symm)

/-! ### The instructions -/

/-- An instruction on masks alone runs once its unit is granted. -/
theorem State.mask_ran {f : Hart → Hart} (ready : VectorReady s []) :
    s.vector (fun s => do s.vecUnit; .ok (s.mapHart f)) = .next (ranV s s 8 (f s.hart)) := by
  refine State.vector_ran_hart ready ?_
  rw [State.vecUnit_ok ready.1]
  rfl

theorem State.mlogic_ran (md ma mb : MReg) (f : Bool → Bool → Bool) (ready : VectorReady s []) :
    s.vector (fun s => s.mlogic md ma mb f) = .next (ranV s s 8 (s.hart.writeMask md ⟨0, false⟩
      (fun i => f (s.hart.maskBit ma i) (s.hart.maskBit mb i)) (s.hart.taintM ma ||| s.hart.taintM mb))) :=
  State.mask_ran ready

theorem wholeMask_eq (h : Hart) (ma : MReg) : h.wholeMask ma =
    (if ma = 0 then BitVec.allOnes 65536 else h.m[ma.toNat].bits) &&& BitVec.ofNat 65536 (2 ^ h.maxElems - 1) := by
  unfold Hart.wholeMask
  dsimp only
  split
  · rw [BitVec.allOnes_and]
  · rfl

/-- The bits of a mask in bitmap form: m0 has a true bit for each element. -/
theorem bitmapBits_eq (h : Hart) (ma : MReg) : (if ma = 0 then h.wholeMask ma else h.m[ma.toNat].bits) =
    if ma = 0 then BitVec.ofNat 65536 (2 ^ h.maxElems - 1)
    else if ma = 0 then BitVec.allOnes 65536 else h.m[ma.toNat].bits := by
  rw [wholeMask_eq]
  split
  · rw [BitVec.allOnes_and]
  · rfl

theorem compareElems_eq (c : CmpCond) (t : Tag) (x y : Quad) : compareElems c t x y =
    if t.isF then t.ff.cmp c x y else
      (match c with
        | .eq => decide (t.int x = t.int y) | .ne => decide (t.int x ≠ t.int y)
        | .lt => decide (t.int x < t.int y) | .ge => decide (t.int x ≥ t.int y)
        | .le => decide (t.int x ≤ t.int y) | .gt => decide (t.int x > t.int y) | .uo => false, 0) := by
  unfold compareElems
  split
  · rfl
  · cases c <;> rfl

theorem vcmp_ran {c : CmpCond} {md : MReg} {va : VReg} {vb : VSrc} {mask : MaskOp}
    (ready : VectorReady s (va :: vsrcVregs vb) (vsrcSregs vb)) (fits : (s.hart.tagOf va).wide = true → s.hart.csr.w64 = true)
    (tags : ∀ r, vb = .v r → s.hart.tagOf r = s.hart.tagOf va) :
    let t := s.hart.tagOf va
    let u := complete s (va :: vsrcVregs vb) (vsrcSregs vb)
    let r := fun i => compareElems c t ((u.hart.elems va t u.hart.vl).getD i 0) (u.hart.srcElem vb t u.hart.vl i)
    s.vector (vecVcmp c md va vb mask) = .next (ranV s u 8
      ((u.hart.writeMask md mask (fun i => (r i).1) (u.hart.taintV va ||| u.hart.taintSrc vb)).addFlags
        ((List.range u.hart.vl).foldl (fun acc i =>
          if u.hart.active mask i && !bitOf u.hart.doneElems i then acc ||| (r i).2 else acc) 0))) := by
  have same : ((vsrcVregs vb).all fun v => s.hart.tagOf v == s.hart.tagOf va) = true := by
    cases vb with
    | v r => simpa [vsrcVregs] using tags r rfl
    | s r => rfl
  intro t u r
  refine State.vector_ran_hart ready ?_
  unfold vecVcmp
  dsimp only
  rw [State.preRegs_ok ready.1 fits, State.tagOk, if_pos same, (State.ready_of_complete ready.2.2.2.2).2]
  rfl

theorem mfromx_ran {md : MReg} {va : VReg} {mask : MaskOp} (ready : VectorReady s [va])
    (fits : (s.hart.tagOf va).wide = true → s.hart.csr.w64 = true) :
    let u := complete s [va] []
    s.vector (vecMfromx md va mask) = .next (ranV s u 8 (u.hart.writeMask md mask
      (fun i => (u.hart.elems va (u.hart.tagOf va) u.hart.vl).getD i 0 != 0) (u.hart.taintV va))) := by
  intro u
  refine State.vector_ran_hart ready ?_
  unfold vecMfromx
  rw [State.preRegs_ok ready.1 fits, (State.ready_of_complete ready.2.2.2.2).1]
  rfl

theorem maskInstructions : maskInstructionsRule := by
  refine ⟨fun s md ma mb ready => ⟨?logic, ?mnot, ?mtobit, ?mtolist⟩, ?vcmp, ?mfromx⟩
  case logic =>
    intro p hp
    simp only [logicTable, List.mem_cons, List.not_mem_nil, or_false] at hp
    obtain rfl | rfl | rfl | rfl := hp
    · exact State.mlogic_ran md ma mb (fun x y => x && y) ready
    · exact State.mlogic_ran md ma mb (fun x y => x || y) ready
    · exact State.mlogic_ran md ma mb (fun x y => x != y) ready
    · exact State.mlogic_ran md ma mb (fun x y => x && !y) ready
  case mnot =>
    refine (State.mlogic_ran md ma 0 (fun x _ => !x) ready).trans ?_
    rw [show s.hart.taintM ma ||| s.hart.taintM 0 = s.hart.taintM ma from BitVec.or_zero]
  case mtobit =>
    refine (State.mask_ran ready).trans ?_
    rw [bitmapBits_eq]
    rfl
  case mtolist =>
    refine (State.mask_ran ready).trans ?_
    dsimp only
    rw [bitmapBits_eq, wholeMask_eq]
    rfl
  case vcmp =>
    intro s c md va vb mask t u h n x y r ready fits tags
    refine (vcmp_ran ready fits tags).trans ?_
    simp only [compareElems_eq]
    rfl
  case mfromx =>
    intro s md va mask ready fits u h
    exact mfromx_ran ready fits

/-- Settles O29: bit by bit a write of a mask is `maskOfList_getLsbD`, and each instruction makes one such write. -/
theorem masks : Obligations.Masks := ⟨maskInstructions, maskWrites⟩
end Sys2Proof.Machine
end

section
/-! SUPPORT. Tiles: what a row and an element hold after a write, one at a time and over the rows of an instruction (R50). -/

namespace Sys2Proof.Machine

/-! ### One row and one element -/

theorem tileSetRow_getD : ∀ (t : Tile) (i : Nat) (r : List Word) (k : Nat),
    (tileSetRow t i r).getD k [] = if k = i then r else t.getD k []
  | [], 0, r, k => by cases k <;> rfl
  | [], i + 1, r, k => by
    cases k with
    | zero => rfl
    | succ k => simpa [tileSetRow] using tileSetRow_getD [] i r k
  | _ :: t, 0, r, k => by cases k <;> rfl
  | _ :: t, i + 1, r, k => by
    cases k with
    | zero => rfl
    | succ k => simpa [tileSetRow] using tileSetRow_getD t i r k

theorem setContainer_getD : ∀ (l : List Word) (c : Nat) (w : Word) (k : Nat),
    (setContainer l c w).getD k 0 = if k = c then w else l.getD k 0
  | [], 0, w, k => by cases k <;> rfl
  | [], c + 1, w, k => by
    cases k with
    | zero => rfl
    | succ k => simpa [setContainer] using setContainer_getD [] c w k
  | _ :: l, 0, w, k => by cases k <;> rfl
  | _ :: l, c + 1, w, k => by
    cases k with
    | zero => rfl
    | succ k => simpa [setContainer] using setContainer_getD l c w k

theorem tileGet_tileSet (t : Tile) (i j : Nat) (x : Quad) (k l : Nat) :
    tileGet (tileSet t i j x) k l = if k = i ∧ l = j then (x.setWidth 32).setWidth 64 else tileGet t k l := by
  unfold tileGet tileSet
  rw [tileSetRow_getD]
  by_cases row : k = i
  · subst row
    rw [if_pos rfl, setContainer_getD]
    by_cases col : l = j
    · rw [if_pos col, if_pos ⟨rfl, col⟩]
    · rw [if_neg col, if_neg fun h => col h.2]
  · rw [if_neg row, if_neg fun h => row h.1]

/-! ### The rows that an instruction changes -/

/-- Each listed row of a tile changed once, as a function of its number and of what it held. -/
def changeRows (f : Nat → List Word → List Word) (rows : List Nat) (t : Tile) : Tile :=
  rows.foldl (fun t i => tileSetRow t i (f i (t.getD i []))) t

theorem changeRows_getD (f : Nat → List Word → List Word) (i : Nat) : ∀ (rows : List Nat) (t : Tile), rows.Nodup →
    (changeRows f rows t).getD i [] = if i ∈ rows then f i (t.getD i []) else t.getD i []
  | [], t, _ => (if_neg List.not_mem_nil).symm
  | r :: rows, t, once => by
    obtain ⟨new, rest⟩ := List.nodup_cons.1 once
    refine (changeRows_getD f i rows _ rest).trans ?_
    rw [tileSetRow_getD]
    by_cases here : i = r
    · subst here
      rw [if_neg new, if_pos rfl, if_pos List.mem_cons_self]
    · rw [if_neg here]
      exact if_congr (by simp [here]) rfl rfl

/-- Elements written along a line: e of row or column x takes `f e`. -/
theorem tileGet_writeLine (col : Bool) (x : Nat) (f : Nat → Quad) (i j : Nat) : ∀ (es : List Nat) (t : Tile),
    tileGet (es.foldl (fun t e => if col then tileSet t e x (f e) else tileSet t x e (f e)) t) i j =
      if (if col then j else i) = x ∧ (if col then i else j) ∈ es then ((f (if col then i else j)).setWidth 32).setWidth 64
      else tileGet t i j
  | [], t => (if_neg fun h => List.not_mem_nil h.2).symm
  | e :: es, t => by
    rw [List.foldl_cons, tileGet_writeLine col x f i j es]
    cases col with
    | true =>
      simp only [if_true, tileGet_tileSet, List.mem_cons]
      by_cases line : j = x <;> by_cases here : i = e <;> simp [line, here]
    | false =>
      simp only [Bool.false_eq_true, if_false, tileGet_tileSet, List.mem_cons]
      by_cases line : i = x <;> by_cases here : j = e <;> simp [line, here]

/-! ### The tiles of a hart -/

@[simp] theorem Hart.setTile_tile (h : Hart) (t : TReg) (x : Tile) (owned : t.toNat < h.tiles.length) :
    (h.setTile t x).tile t = x := by
  simp [Hart.tile, Hart.setTile, owned]

theorem Hart.setTile_tile_ne (h : Hart) {t t' : TReg} (x : Tile) (ne : t' ≠ t) : (h.setTile t x).tile t' = h.tile t' := by
  have apart : t.toNat ≠ t'.toNat := fun e => ne (BitVec.eq_of_toNat_eq e.symm)
  simp [Hart.tile, Hart.setTile, apart]

end Sys2Proof.Machine
end

section
/-! SUPPORT. Matrix arithmetic and moving rows: a K step element by element, and what issue leaves alone (R81, R242, R249,
R250). -/

namespace Sys2Proof.Machine
variable {s u w : State}

/-! ### Before an instruction executes -/

theorem bind_of_ok {ε α β : Type} {x : Except ε α} {a : α} (h : x = .ok a) (f : α → Except ε β) : (x >>= f) = f a := by
  rw [h]; rfl

/-- An entry of the matrix queue is the core's: hart and memory stay (R242). -/
theorem State.matrixEntry_frame (h : s.matrixEntry = .ok w) : w.hart = s.hart ∧ w.mem = s.mem := by
  unfold State.matrixEntry at h
  dsimp only at h
  split_ifs at h <;> cases h <;> exact ⟨rfl, rfl⟩

theorem State.awaitTags_steady {t : TaintSet} (h : s.awaitTags t = .ok u) : u.steady = s.steady := by
  unfold State.awaitTags at h
  dsimp only at h
  split_ifs at h
  · cases h; rfl
  · cases h; exact State.drain_steady s

theorem complete_steady (s : State) (vs : List VReg) (ss : List SReg) : (complete s vs ss).steady = s.steady :=
  (State.needS_steady _ ss).trans (State.needV_steady s vs)

theorem State.tagOf_of_steady (e : u.steady = s.steady) (r : VReg) : u.hart.tagOf r = s.hart.tagOf r := by
  have same : u.hart.v.map (fun r => ({ tag := r.tag } : VecReg)) = s.hart.v.map (fun r => ({ tag := r.tag } : VecReg)) :=
    congrArg (·.hart.v) e
  simpa [Hart.tagOf] using congrArg (fun v : Vector VecReg 64 => v[r.toNat].tag) same

theorem State.tileOk_of_unit {vs : List VReg} {t : TReg} (unit : VectorUnit s vs) (owned : t.toNat < s.hart.tiles.length) :
    s.tileOk t = .ok () := if_pos ⟨owned, by simp [unit.2.1]⟩

theorem State.limitOk_of {c : Prop} [Decidable c] (h : c) : s.limitOk (decide c) = .ok () := if_pos (decide_eq_true h)

theorem State.rounding_of {rm : RMode} {r : Rnd} (h : rm.resolve s.hart.csr.frm = some r) : s.rounding rm = .ok r := by
  unfold State.rounding
  rw [h]

/-! ### Clearing the granted block (R249) -/

/-- The tile with its granted block cleared. -/
def Hart.clearedTile (h : Hart) (t : TReg) : Tile :=
  changeRows (fun _ row => List.replicate h.csr.mNg.toNat 0 ++ row.drop h.csr.mNg.toNat) (List.range h.csr.mMg.toNat) (h.tile t)

theorem Hart.tileGet_clearedTile (h : Hart) (t : TReg) (i j : Nat) : tileGet (h.clearedTile t) i j =
    if i < h.csr.mMg.toNat ∧ j < h.csr.mNg.toNat then 0 else tileGet (h.tile t) i j := by
  unfold tileGet Hart.clearedTile
  rw [changeRows_getD _ _ _ _ List.nodup_range]
  simp only [List.mem_range]
  by_cases row : i < h.csr.mMg.toNat
  · by_cases col : j < h.csr.mNg.toNat
    · rw [if_pos row, if_pos ⟨row, col⟩, List.getD_append _ _ _ _ (by simpa using col)]
      simp [List.getD_eq_getElem?_getD, col]
    · rw [if_pos row, if_neg fun h => col h.2, List.getD_append_right _ _ _ _ (by simpa using col)]
      simp [List.getD_eq_getElem?_getD, Nat.not_lt.1 col]
  · rw [if_neg row, if_neg fun h => row h.1]

/-- mzero, once the matrix queue has an entry for it. -/
theorem vecMzero_runs {vs : List VReg} {t : TReg} (unit : VectorUnit s vs) (owned : t.toNat < s.hart.tiles.length)
    (entry : s.matrixEntry = .ok w) : vecMzero t s =
      .ok { w with hart := { s.hart.setTile t (s.hart.clearedTile t) with csr := { s.hart.csr with kk := 0 } } } := by
  refine (bind_of_ok (State.vecUnit_ok unit) _).trans ((bind_of_ok (State.tileOk_of_unit unit owned) _).trans
    ((bind_of_ok entry _).trans ?_))
  rw [← (State.matrixEntry_frame entry).1]
  rfl

/-! ### A K step (R81, R249) -/

/-- One row of a K step: each listed column takes its step, from what it held. -/
theorem mopRow_getD (neg : Bool) (r : Rnd) (a : FVal) (j : Nat) : ∀ (bs : List FVal) (k : Nat) (row : List Word),
    (mopRow neg r a bs k row).1.getD j 0 = if k ≤ j ∧ j < k + bs.length then
      (mopStep neg r a (bs.getD (j - k) (.fin false 0 0)) ((row.getD j 0).setWidth 64)).1.setWidth 32 else row.getD j 0
  | [], k, row => (if_neg fun ⟨low, high⟩ => Nat.not_lt.2 low high).symm
  | b :: bs, k, row => by
    refine (mopRow_getD neg r a j bs (k + 1) _).trans ?_
    rw [setContainer_getD, List.length_cons]
    by_cases here : j = k
    · subst here
      simp
    · by_cases after : k < j
      · obtain ⟨n, rfl⟩ : ∃ n, j = k + 1 + n := ⟨j - (k + 1), by omega⟩
        rw [if_neg here, Nat.add_sub_cancel_left, show k + 1 + n - k = n + 1 by omega, List.getD_cons_succ]
        exact if_congr (by omega) rfl rfl
      · rw [if_neg (by omega), if_neg here, if_neg (by omega)]

/-- The operands of a K step that an element of va and one of vb give. -/
def Hart.mopLeft (h : Hart) (va : VReg) (i : Nat) : FVal :=
  (reduceOperand h.csr.precision ((h.elems va .f32 h.vl).getD i 0)).1
def Hart.mopRight (h : Hart) (vb : VReg) (j : Nat) : FVal :=
  (reduceOperand h.csr.precision ((h.elems vb .f32 h.csr.mcols.toNat).getD j 0)).1

/-- The column operands in order. -/
def Hart.mopCols (h : Hart) (vb : VReg) : List FVal :=
  (((h.elems vb .f32 h.csr.mcols.toNat).toList.map (reduceOperand h.csr.precision)).map (·.1))

theorem Hart.mopCols_length (h : Hart) (vb : VReg) : (h.mopCols vb).length = h.csr.mcols.toNat := by
  simp [Hart.mopCols, Hart.elems, takeElems_length]

theorem Hart.mopCols_getD (h : Hart) (vb : VReg) {j : Nat} (hj : j < h.csr.mcols.toNat) (d : FVal) :
    (h.mopCols vb).getD j d = h.mopRight vb j := by
  have inside : j < (takeElems (Tag.wide .f32) h.csr.mcols.toNat (h.groupData vb)).length := by rwa [takeElems_length]
  simp [Hart.mopCols, Hart.mopRight, Hart.elems, List.getD_eq_getElem?_getD, inside]

/-- The tile after a K step: without a column it stays. -/
def Hart.steppedTile (h : Hart) (neg : Bool) (t : TReg) (va vb : VReg) (mask : MaskOp) (r : Rnd) : Tile :=
  if (h.mopCols vb).isEmpty then h.tile t else changeRows (fun i row => (mopRow neg r (h.mopLeft va i) (h.mopCols vb) 0 row).1)
    ((List.range h.vl).filter (h.active mask)) (h.tile t)

theorem Hart.tileGet_steppedTile (h : Hart) (neg : Bool) (t : TReg) (va vb : VReg) (mask : MaskOp) (r : Rnd) (i j : Nat) :
    tileGet (h.steppedTile neg t va vb mask r) i j = if i < h.vl ∧ h.active mask i = true ∧ j < h.csr.mcols.toNat then
      ((mopStep neg r (h.mopLeft va i) (h.mopRight vb j) (tileGet (h.tile t) i j)).1.setWidth 32).setWidth 64
    else tileGet (h.tile t) i j := by
  unfold tileGet Hart.steppedTile
  split
  · next none =>
    have empty : h.csr.mcols.toNat = 0 := by rw [← h.mopCols_length vb, List.isEmpty_iff.1 none, List.length_nil]
    rw [if_neg fun h => Nat.not_lt_zero j (empty ▸ h.2.2)]
  · rw [changeRows_getD _ _ _ _ (List.nodup_range.filter _)]
    simp only [List.mem_filter, List.mem_range]
    by_cases row : i < h.vl ∧ h.active mask i = true
    · rw [if_pos row, mopRow_getD, h.mopCols_length, Nat.zero_add, Nat.sub_zero]
      by_cases col : j < h.csr.mcols.toNat
      · rw [if_pos ⟨Nat.zero_le j, col⟩, if_pos ⟨row.1, row.2, col⟩, h.mopCols_getD vb col]
      · rw [if_neg fun h => col h.2, if_neg fun h => col h.2.2]
    · rw [if_neg row, if_neg fun h => row ⟨h.1, h.2.1⟩]

/-- A fold that changes rows, and gathers flags beside them. -/
theorem foldl_fst_changeRows {step : Tile × FFlags → Nat → Tile × FFlags} {f : Nat → List Word → List Word}
    (h : ∀ acc i, (step acc i).1 = tileSetRow acc.1 i (f i (acc.1.getD i []))) :
    ∀ (rows : List Nat) (acc : Tile × FFlags), (rows.foldl step acc).1 = changeRows f rows acc.1
  | [], _ => rfl
  | i :: rows, acc => by
    rw [List.foldl_cons, foldl_fst_changeRows h rows, h]
    rfl

/-- mop and mopn, once their sources' tags have retired and the matrix queue has an entry. -/
theorem State.mopBody_runs {neg : Bool} {t : TReg} {va vb : VReg} {mask : MaskOp} {rm : RMode} {r : Rnd}
    (ready : VectorReady s [va, vb]) (owned : t.toNat < s.hart.tiles.length)
    (fits : s.hart.vl ≤ s.hart.csr.mMg.toNat ∧ s.hart.csr.mcols.toNat ≤ s.hart.csr.mNg.toNat ∧
      s.hart.csr.mcols.toNat ≤ s.hart.maxElems)
    (tags : s.hart.tagOf va = .f32 ∧ s.hart.tagOf vb = .f32) (mode : rm.resolve s.hart.csr.frm = some r)
    (retired : (complete s [va, vb] []).awaitTags
      ((complete s [va, vb] []).hart.taintV va ||| (complete s [va, vb] []).hart.taintV vb) = .ok u)
    (entry : u.matrixEntry = .ok w) : ∃ g, s.mopBody neg t va vb mask rm = .ok { w with hart := g } ∧
      g = { u.hart with tiles := g.tiles, csr := { u.hart.csr with kk := u.hart.csr.kk + 1, fflags := g.csr.fflags } } ∧
      g.tiles = u.hart.tiles.set t.toNat (u.hart.steppedTile neg t va vb mask r) ∧ ∃ fl, g.csr.fflags = u.hart.csr.fflags ||| fl := by
  have pre : s.preMop va vb rm = .ok r := (State.checks6_ok ready.1 (by simp)).trans (State.rounding_of mode)
  have tagged : s.tagOk (s.hart.tagOf va == .f32 && s.hart.tagOf vb == .f32) = .ok () := if_pos (by simp [tags])
  refine ⟨_, (bind_of_ok pre _).trans ((bind_of_ok (State.tileOk_of_unit ready.1 owned) _).trans
    ((bind_of_ok (State.limitOk_of fits) _).trans ((bind_of_ok tagged _).trans
    ((bind_of_ok (State.ready_of_complete ready.2.2.2.2).1 _).trans ((bind_of_ok retired _).trans
    ((bind_of_ok entry _).trans rfl)))))), ?_⟩
  rw [(State.matrixEntry_frame entry).1]
  refine ⟨rfl, ?_, _, rfl⟩
  dsimp only [Hart.addFlags, Hart.setTile]
  refine congrArg (u.hart.tiles.set t.toNat) ?_
  split
  · next none => exact (if_pos (by simpa [Hart.mopCols] using none)).symm
  · next some =>
    refine Eq.trans ?_ (if_neg (by simpa [Hart.mopCols] using some)).symm
    refine foldl_fst_changeRows ?_ _ _
    exact fun _ _ => rfl
end Sys2Proof.Machine
end

section
/-! SUPPORT. The matrix instructions as a whole: arithmetic, tile stores, and moving rows (R249 to R251). -/

namespace Sys2Proof.Machine
variable {s u w : State}

/-! ### mzero, mop and mopn -/

theorem Hart.tile_of_set {g h : Hart} {t : TReg} {x : Tile} (tiles : g.tiles = h.tiles.set t.toNat x)
    (owned : t.toNat < h.tiles.length) : g.tile t = x ∧ ∀ t', t' ≠ t → g.tile t' = h.tile t' := by
  have same : ∀ r, g.tile r = (h.setTile t x).tile r := fun r => congrArg (fun l : List Tile => l.getD r.toNat []) tiles
  exact ⟨(same t).trans (Hart.setTile_tile h t x owned), fun t' ne => (same t').trans (Hart.setTile_tile_ne h x ne)⟩

theorem matrixArithmetic : matrixArithmeticRule := by
  intro s u w t va vb mask rm r i j c h row col owned
  refine ⟨fun unit queue collective plain entry => ?mzero,
    fun ready rows cols room taga tagb mode retired entry => ?mop⟩
  case mzero =>
    obtain ⟨hart, mem⟩ := State.matrixEntry_frame entry
    have runs := State.vector_ran queue collective plain (vecMzero_runs unit owned entry)
    exact ⟨hart, mem, _, runs, rfl, (congrArg (tileGet · i j) (Hart.tile_of_set rfl owned).1).trans
      (Hart.tileGet_clearedTile s.hart t i j), (Hart.tile_of_set rfl owned).2⟩
  case mop =>
    obtain ⟨hart, mem⟩ := State.matrixEntry_frame entry
    have steady : u.steady = s.steady := (State.awaitTags_steady retired).trans (complete_steady s _ _)
    have held : t.toNat < u.hart.tiles.length := (State.tiles_of_steady steady).symm ▸ owned
    refine ⟨hart, mem, fun p hp => ?_⟩
    obtain ⟨g, runs, frame, tiles, fl, flags⟩ :=
      State.mopBody_runs (neg := p.2) (mask := mask) ready owned ⟨rows, cols, room⟩ ⟨taga, tagb⟩ mode retired entry
    obtain ⟨stepped, others⟩ := Hart.tile_of_set tiles held
    have exec : exec p.1 s = s.vector fun s => s.mopBody p.2 t va vb mask rm := by
      simp only [List.mem_cons, List.not_mem_nil, or_false] at hp
      obtain rfl | rfl := hp <;> rfl
    refine ⟨g, exec.trans (State.vector_ran_hart ready runs), frame, ?_, ?_, others⟩
    · rw [flags]
      ext k
      simp
      tauto
    · rw [stepped]
      exact Hart.tileGet_steppedTile u.hart p.2 t va vb mask r i j

/-! ### mrd and mwr (R250) -/

theorem vecMrd_runs {col : Bool} {t : TReg} {v : VReg} {a : SReg} {mask : MaskOp} (ready : VectorReady s [v] [a])
    (owned : t.toNat < s.hart.tiles.length) (fits : ((complete s [v] [a]).hart.getS a).toNat ≤ 127 ∧ (complete s [v] [a]).hart.vl ≤ 128)
    (entry : (complete s [v] [a]).matrixEntry = .ok w) :
    let h := (complete s [v] [a]).hart
    let x := (h.getS a).toNat
    vecMrd col v t a mask s = .ok { w with
      hart := h.elementwise v .f32 mask
        (fun i => (if col then tileGet (h.tile t) i x else tileGet (h.tile t) x i, 0)) (h.taintS a) } := by
  have pre : s.preRegs [v] none = .ok .rne := State.checks6_ok ready.1 (by simp)
  refine (bind_of_ok pre _).trans ((bind_of_ok (State.tileOk_of_unit ready.1 owned) _).trans
    ((bind_of_ok (State.ready_of_complete ready.2.2.2.2).1 _).trans ((bind_of_ok (State.limitOk_of fits) _).trans
    ((bind_of_ok entry _).trans ?_))))
  rw [← (State.matrixEntry_frame entry).1]
  rfl

/-- The tile after the active elements of va are written along row or column x. -/
def Hart.linedTile (h : Hart) (col : Bool) (t : TReg) (va : VReg) (x : Nat) (mask : MaskOp) : Tile :=
  ((List.range h.vl).filter (h.active mask)).foldl (fun tl i =>
    if col then tileSet tl i x ((h.elems va .f32 h.vl).getD i 0) else tileSet tl x i ((h.elems va .f32 h.vl).getD i 0)) (h.tile t)

theorem vecMwr_runs {col : Bool} {t : TReg} {v : VReg} {a : SReg} {mask : MaskOp} (ready : VectorReady s [v] [a])
    (owned : t.toNat < s.hart.tiles.length) (fits : ((complete s [v] [a]).hart.getS a).toNat ≤ 127 ∧ (complete s [v] [a]).hart.vl ≤ 128)
    (tag : s.hart.tagOf v = .f32) (retired : (complete s [v] [a]).awaitTags ((complete s [v] [a]).hart.taintV v) = .ok u)
    (entry : u.matrixEntry = .ok w) : vecMwr col t v a mask s =
      .ok { w with hart := u.hart.setTile t (u.hart.linedTile col t v (u.hart.getS a).toNat mask) } := by
  have pre : s.preRegs [v] none = .ok .rne := State.checks6_ok ready.1 (by simp)
  have tagged : (complete s [v] [a]).tagOk ((complete s [v] [a]).hart.tagOf v == .f32) = .ok () := if_pos (by
    rw [State.tagOf_of_steady (complete_steady s _ _), tag]; rfl)
  refine (bind_of_ok pre _).trans ((bind_of_ok (State.tileOk_of_unit ready.1 owned) _).trans
    ((bind_of_ok (State.ready_of_complete ready.2.2.2.2).1 _).trans ((bind_of_ok (State.limitOk_of fits) _).trans
    ((bind_of_ok tagged _).trans ((bind_of_ok retired _).trans ((bind_of_ok entry _).trans ?_))))))
  rw [← (State.matrixEntry_frame entry).1]
  rfl

theorem matrixRows : matrixRowsRule := by
  intro s w col t v a mask i j u h x ready owned low fits
  refine ⟨fun entry => ?mrd, fun y tag retired entry => ?mwr⟩
  case mrd =>
    obtain ⟨hart, mem⟩ := State.matrixEntry_frame entry
    exact ⟨hart, mem, State.vector_ran_hart ready (vecMrd_runs ready owned ⟨low, fits⟩ entry)⟩
  case mwr =>
    have steady : y.steady = s.steady := (State.awaitTags_steady retired).trans (complete_steady s _ _)
    have held : t.toNat < y.hart.tiles.length := (State.tiles_of_steady steady).symm ▸ owned
    have runs := State.vector_ran_hart ready (vecMwr_runs (col := col) (mask := mask) ready owned ⟨low, fits⟩ tag retired entry)
    refine ⟨(State.matrixEntry_frame entry).2, _, runs, rfl, ?_, fun t' ne => Hart.setTile_tile_ne _ _ ne⟩
    rw [Hart.setTile_tile _ _ _ held]
    refine (tileGet_writeLine col _ _ i j _ _).trans ?_
    simp only [List.mem_filter, List.mem_range]
    rfl
end Sys2Proof.Machine
end

section
/-! SUPPORT. mst: what issuing a command enters in an empty interlock table, and what the command captures (R132, R133, R251). -/

namespace Sys2Proof.Machine
variable {s u w : State}

/-! ### Entering the interlock table (R133) -/

theorem Hart.takeEntries_idle {h : Hart} (idle : ∀ c ∈ h.cmds, c.queued = false) (n : Nat) : h.takeEntries n = h := by
  cases n with
  | zero => rfl
  | succ n =>
    have none : h.cmds.findIdx? (·.queued) = none := List.findIdx?_eq_none_iff.2 idle
    unfold Hart.takeEntries
    rw [none]

theorem Hart.takeEntries_found {h : Hart} {i : Nat} {c : Cmd} (found : h.cmds.findIdx? (·.queued) = some i)
    (here : h.cmds[i]? = some c) (room : h.interlock.length + c.ranges.length ≤ Config.interlockEntries) (n : Nat) :
    h.takeEntries (n + 1) = ({ h with
      interlock := h.interlock ++ c.ranges, cmds := h.cmds.set i { c with queued := false, ranges := [] } } : Hart).takeEntries n := by
  rw [Hart.takeEntries]
  simp only [found, here, if_neg (Nat.not_lt.2 room)]

/-- The only command that waits enters its ranges where there is room for them. -/
theorem Hart.takeEntries_last {h : Hart} (idle : ∀ c ∈ h.cmds, c.queued = false) {c : Cmd} (waits : c.queued = true)
    (room : h.interlock.length + c.ranges.length ≤ Config.interlockEntries) (n : Nat) :
    ({ h with cmds := h.cmds ++ [c] } : Hart).takeEntries (n + 1) =
      { h with interlock := h.interlock ++ c.ranges, cmds := h.cmds ++ [{ c with queued := false, ranges := [] }] } := by
  have none : h.cmds.findIdx? (fun c : Cmd => c.queued) = none := List.findIdx?_eq_none_iff.2 idle
  have last : (h.cmds ++ [c]).findIdx? (fun c : Cmd => c.queued) = some h.cmds.length := by
    rw [List.findIdx?_append, none]
    simp [waits]
  refine (Hart.takeEntries_found (h := { h with cmds := h.cmds ++ [c] }) last List.getElem?_concat_length room n).trans ?_
  dsimp only
  rw [List.set_append_right _ _ (Nat.le_refl _), Nat.sub_self, List.set_cons_zero]
  refine Hart.takeEntries_idle (fun x hx => ?_) n
  rcases List.mem_append.1 hx with old | new
  · exact idle x old
  · rw [List.mem_singleton.1 new]

/-- Arrival pointers alone move (R134). -/
theorem State.movePointers_eq (s : State) (seq : Nat) : ∃ f : Interlock → Interlock, (∀ e, ∃ l, f e = { e with arrival := l }) ∧
    s.movePointers seq = { s with hart := { s.hart with interlock := s.hart.interlock.map f } } := by
  unfold State.movePointers
  split
  · exact ⟨id, fun e => ⟨e.arrival, rfl⟩, by rw [List.map_id]⟩
  · refine ⟨_, fun e => ?_, rfl⟩
    split
    · exact ⟨_, rfl⟩
    · exact ⟨_, rfl⟩

/-- The entries that a command makes: those that are not empty, with its number. -/
def Cmd.entries (c : Cmd) (es : List Interlock) : List Interlock :=
  (es.filter fun e => decide (e.base < e.limit)).map fun e => { e with seq := c.seq }

theorem Cmd.entries_singleton {c : Cmd} {e : Interlock} (own : e.seq = c.seq) :
    c.entries [e] = if e.base < e.limit then [e] else [] := by
  unfold Cmd.entries
  rw [List.filter_singleton]
  by_cases bytes : e.base < e.limit <;> simp [bytes, ← own]

/-- A command issues at once where no entry stands and none waits. -/
theorem State.issueCmd_idle {es : List Interlock} {c : Cmd} (free : s.hart.interlock = [])
    (idle : ∀ c ∈ s.hart.cmds, c.queued = false ∧ c.ranges = []) (room : es.length ≤ Config.interlockEntries) :
    ∃ f : Interlock → Interlock, (∀ e, ∃ l, f e = { e with arrival := l }) ∧ s.issueCmd es c = .ok { s with
      hart := { s.hart with interlock := (c.entries es).map f,
                            cmds := s.hart.cmds ++ [{ c with queued := false, ranges := [] }] } } := by
  have ranges : s.hart.cmds.flatMap (·.ranges) = [] := List.flatMap_eq_nil_iff.2 fun c hc => (idle c hc).2
  have open_ : ¬(c.entries es).any (fun e => s.hart.interlocked e.base (e.limit - e.base) e.write) = true := by
    simp [Hart.interlocked, free, ranges]
  have fits : s.hart.interlock.length + (c.entries es).length ≤ Config.interlockEntries := by
    rw [free, List.length_nil, Nat.zero_add, Cmd.entries, List.length_map]
    exact (List.length_filter_le _ _).trans room
  have entered := Hart.takeEntries_last (c := { c with queued := true, ranges := c.entries es })
    (fun c hc => (idle c hc).1) rfl fits s.hart.cmds.length
  have issued : s.issueCmd es c = .ok (State.movePointers _ c.seq) := if_neg open_
  obtain ⟨f, keeps, moved⟩ := State.movePointers_eq { s with hart := ({ s.hart with
    cmds := s.hart.cmds ++ [{ c with queued := true, ranges := c.entries es }] } : Hart).takeEntries (s.hart.cmds.length + 1) } c.seq
  refine ⟨f, keeps, issued.trans ((congrArg Except.ok moved).trans ?_)⟩
  rw [entered, free]
  rfl

/-! ### What mst captures (R251) -/

/-- A stream whose configuration passes has a kind, a format that is no scale, and an index register that may be named. -/
theorem State.streamOk_ok {q : Stream} {x : Option Stream} (h : s.streamOk q = .ok x) :
    ¬(q.kind = 0 ∨ q.fmt = .e8m0) ∧ ¬(3 ≤ q.kind.toNat ∧ !s.hart.regOk q.idx) := by
  unfold State.streamOk at h
  dsimp only at h
  split_ifs at h with kind idx
  all_goals exact ⟨kind, idx⟩

/-- The mask of a stored row, as it stands. -/
def Hart.rowMask (h : Hart) (mask : MaskOp) : BitVec 65536 := maskOfList ((List.range h.vl).map (h.active mask)) 0 0

/-- The command that mst issues: all that it reads of its hart, it reads then. -/
def Hart.drainCmd (h : Hart) (st : Stream) (q : QReg) (t : TReg) (a b : SReg) (mask : MaskOp) (k : KReg) (r : Rnd) (sat : Bool) : Cmd :=
  { seq := h.seq, k := k, pc := h.pc, word := h.ir, asid := h.asid,
    nearest := min (h.rankRange (st.rowRange h.csr.sbase h.vl (h.getS a).toNat (h.getS b))) (h.nearest st h.csr.sbase h.vl),
    held := h.taintStream q ||| h.taintS a ||| h.taintS b ||| h.taintM mask.m ||| h.ct,
    op := .drain st (h.streamIdx st h.vl).toList (h.tagOf st.idx) (h.tile t) (h.getS a).toNat (h.getS b) h.vl (h.rowMask mask)
      h.csr.sbase r sat }

theorem vecMst_runs {t : TReg} {q : QReg} {a b : SReg} {mask : MaskOp} {k : KReg} {rm : RMode} {sat : Bool} {r : Rnd} :
    let st := s.hart.q[q.toNat]
    let c := complete s st.vregs [a, b]
    let h := c.hart
    t.toNat < s.hart.tiles.length → VectorReady s st.vregs [a, b] → s.streamOk st = .ok none → st.sc = false →
    st.fmt.isF = true → (h.getS a).toNat ≤ 128 → h.vl ≤ 128 → s.storeRounding .f32 st.fmt rm = .ok r →
    c.matrixEntry = .ok w → vecMst q t a b mask k rm sat s = w.issueCmd
      [h.entry (st.rowRange h.csr.sbase h.vl (h.getS a).toNat (h.getS b)) true k] (h.drainCmd st q t a b mask k r sat) := by
  intro st c h owned ready stream unscaled float rows cols mode entry
  have unit : VectorUnit s [] := ⟨ready.1.1, ready.1.2.1, ready.1.2.2.1, by simp⟩
  have pre : s.preMst q rm = .ok r := (State.checks6_ok unit (by simp)).trans mode
  obtain ⟨kind, idx⟩ := State.streamOk_ok stream
  have configured : ¬(st.kind = 0 ∨ st.fmt = .e8m0 ∨ st.sc ∨ (3 ≤ st.kind.toNat ∧ !s.hart.regOk st.idx)) := by
    rintro (zero | scale | scaled | named)
    · exact kind (.inl zero)
    · exact kind (.inr scale)
    · exact Bool.false_ne_true (unscaled.symm.trans scaled)
    · exact idx named
  refine (bind_of_ok pre _).trans ((bind_of_ok (State.tileOk_of_unit unit owned) _).trans ((if_neg configured).trans ?_))
  refine (bind_of_ok (if_pos float : s.tagOk st.fmt.isF = .ok ()) _).trans ((bind_of_ok stream _).trans
    ((bind_of_ok (State.ready_of_complete ready.2.2.2.2).1 _).trans ((bind_of_ok (State.limitOk_of ⟨rows, cols⟩) _).trans
    ((bind_of_ok entry _).trans ?_))))
  rw [(State.matrixEntry_frame entry).1]
  rfl

/-- F data that is copied or widened takes no mode (R73). -/
theorem State.storeRounding_f32 {fmt : MemFmt} {rm : RMode} {r : Rnd}
    (mode : (if fmt = .f32 ∨ fmt = .f64 then some .rne else rm.resolve s.hart.csr.frm) = some r) :
    s.storeRounding .f32 fmt rm = .ok r := by
  unfold State.storeRounding
  split at mode
  · next wide =>
    cases mode
    refine if_neg ?_
    rcases wide with rfl | rfl <;> decide
  · next narrow =>
    obtain ⟨f32, f64⟩ := not_or.1 narrow
    rw [if_pos (by simp [f32, f64, Tag.isF])]
    exact State.rounding_of mode

theorem Hart.rowMask_getLsbD (h : Hart) (mask : MaskOp) {i : Nat} (body : i < h.vl) (hi : i < 65536) :
    (h.rowMask mask).getLsbD i = h.active mask i := by
  unfold Hart.rowMask
  rw [maskOfList_getLsbD hi, if_pos (by simpa using body)]
  simp [List.getD_eq_getElem?_getD, body]

theorem tileStore : tileStoreRule := by
  intro s w t q a b mask k rm sat r st u h vl rows range size owned ready stream unscaled float rowsFit colsFit mode entry free idle
  obtain ⟨hart, mem⟩ := State.matrixEntry_frame entry
  obtain ⟨f, keeps, issued⟩ := State.issueCmd_idle (s := w) (es := [h.entry (st.rowRange h.csr.sbase h.vl rows (h.getS b)) true k])
    (c := h.drainCmd st q t a b mask k r sat) (hart ▸ free) (hart ▸ idle) (Nat.le_of_lt_succ (by simp [Config.interlockEntries]))
  have runs := (vecMst_runs owned ready stream unscaled float rowsFit colsFit (State.storeRounding_f32 mode) entry).trans issued
  obtain ⟨-, queue, collective, plain, -⟩ := ready
  have ran := State.vector_ran queue collective plain runs
  rw [hart] at ran
  generalize hv : ranV s _ 8 _ = v at ran
  have left := hv ▸ ranV_hart s _ 8 _
  have kept : v.mem = u.mem := hv ▸ (ranV_mem s _ 8 _).trans mem
  have lock : v.hart.interlock = (if range < range + size then [_] else []).map f :=
    (congrArg Hart.interlock left).trans (congrArg (List.map f) (Cmd.entries_singleton rfl))
  refine ⟨v, { h.drainCmd st q t a b mask k r sat with queued := false, ranges := [] }, ran, kept, ?hart, rfl, rfl, rfl,
    ⟨h.rowMask mask, fun i body hi => h.rowMask_getLsbD mask body hi, rfl⟩, fun empty => ?none, fun bytes => ?some⟩
  case hart =>
    rw [congrArg Hart.interlock left]
    exact left
  case none => rw [lock, if_neg (by omega), List.map_nil]
  case some =>
    rw [if_pos (by omega)] at lock
    obtain ⟨l, moved⟩ := keeps (h.entry (st.rowRange h.csr.sbase h.vl rows (h.getS b)) true k)
    refine ⟨_, lock, ?_⟩
    rw [moved]
    exact ⟨rfl, rfl, rfl, rfl, rfl⟩

/-- Settles O41: each instruction executes as `State.vector_ran` says, on the tile that `tileGet_writeLine`, `changeRows` and
`Hart.drainCmd` describe. -/
theorem matrixOperations : Obligations.MatrixOperations := ⟨matrixArithmetic, tileStore, matrixRows⟩
end Sys2Proof.Machine
end

section
/-! SUPPORT. Completion counters, walks and hints, and shoot-downs (R54, R344, R352 to R360). -/

namespace Sys2Proof.Machine
variable {s : State}

/-! ### Completion counters (R54) -/

@[simp] theorem Hart.bumpK_k (h : Hart) (k : KReg) : (h.bumpK k).k = h.k.set k.toNat (h.k[k.toNat] + 1) := by
  unfold Hart.bumpK
  dsimp only
  split <;> rfl

/-- The overflow bit of the counter that wraps is set, and no other bit changes. -/
theorem Hart.bumpK_kstat (h : Hart) (k : KReg) {i : Nat} (hi : i < 24) : (h.bumpK k).csr.kstat.getLsbD i =
    (h.csr.kstat.getLsbD i || (decide (i = 16 + k.toNat) && decide (h.k[k.toNat] = 0xFFFFFFFF))) := by
  have bit : (1#24 <<< (16 + k.toNat)).getLsbD i = decide (i = 16 + k.toNat) := by
    rw [BitVec.getLsbD_shiftLeft, BitVec.getLsbD_one]
    grind
  unfold Hart.bumpK
  dsimp only
  split
  · next wraps => rw [BitVec.getLsbD_or, bit, decide_eq_true wraps, Bool.and_true]
  · next counts => rw [decide_eq_false counts, Bool.and_false, Bool.or_false]

theorem counterAdvances : counterRule := by
  intro s r h c o placed op done
  obtain ⟨-, -, -, advances⟩ := bookkeepingEvents_hold s r h 0 0 c 0 o placed
  obtain ⟨v, next, -, here, -⟩ := advances op done
  refine ⟨v, _, next, here h placed, ?_, fun k ne => ?_, fun i hi => Hart.bumpK_kstat _ _ hi⟩
  · rw [Hart.bumpK_k, Vector.getElem_set_self]
  · rw [Hart.bumpK_k, Vector.getElem_set_ne _ _ fun e => ne (BitVec.eq_of_toNat_eq e.symm)]

/-! ### Walks and hints (R352, R355, R356) -/

/-- The entry with which a walk that ends in a leaf fills the TLB that asked. -/
def tlbEntryOf (w : WalkReq) (l : Leaf) (size : Nat) : TlbEntry :=
  { pkg := w.pkg, die := w.die, core := w.core, asid := BitVec.ofNat 16 w.asid, page := w.offset - w.offset % size, size := size,
    leaf := l }

theorem tlbEntries_pos (core : Option Nat) : ∃ n, tlbEntries core = n + 1 := by
  cases core with
  | none => exact ⟨32767, rfl⟩
  | some c => exact ⟨2047, rfl⟩

theorem State.mem_fillTlb_self (s : State) (w : WalkReq) (l : Leaf) (size : Nat) : tlbEntryOf w l size ∈ (s.fillTlb w l size).tlb := by
  obtain ⟨n, full⟩ := tlbEntries_pos w.core
  unfold State.fillTlb
  dsimp only
  rw [full, List.take_succ_cons]
  exact List.mem_append_left _ List.mem_cons_self

theorem State.mem_fillTlb {w : WalkReq} {l : Leaf} {size : Nat} {e : TlbEntry} (h : e ∈ (s.fillTlb w l size).tlb) :
    e = tlbEntryOf w l size ∨ e ∈ s.tlb := by
  unfold State.fillTlb at h
  dsimp only at h
  rcases List.mem_append.1 h with mine | other
  · rcases List.mem_cons.1 (List.mem_of_mem_take mine) with new | old
    · exact .inl new
    · exact .inr (List.mem_of_mem_filter (List.mem_of_mem_filter old))
  · exact .inr (List.mem_of_mem_filter (List.mem_of_mem_filter other))

theorem State.mem_fillTables {w : WalkReq} {e : TableEntry} (h : e ∈ (s.fillTables w).tables) : e ∈ s.tables ∨
    (e.pkg = w.pkg ∧ e.die = w.die ∧ e.core = w.core ∧ e.asid = BitVec.ofNat 16 w.asid) := by
  unfold State.fillTables at h
  dsimp only at h
  rcases List.mem_append.1 h with mine | other
  · rcases List.mem_append.1 (List.mem_of_mem_take mine) with new | old
    · obtain ⟨x, -, rfl⟩ := List.mem_map.1 new
      exact .inr ⟨rfl, rfl, rfl, rfl⟩
    · exact .inl (List.mem_of_mem_filter (List.mem_of_mem_filter old))
  · exact .inl (List.mem_of_mem_filter (List.mem_of_mem_filter other))

/-- Without a cached table, and where no leaf is found from one, the walk is that of R352. -/
theorem State.walkCached_uncached (s : State) (pkg die : Nat) (core : Option Nat) (asid : BitVec 16) (off : Nat) :
    (s.cachedTable pkg die core asid off = none → s.walkCached pkg die core asid off = s.walk pkg die asid off) ∧
    ((∀ m n, s.walkCached pkg die core asid off ≠ .leaf m n) → s.walkCached pkg die core asid off = s.walk pkg die asid off) := by
  unfold State.walkCached
  refine ⟨fun none => by rw [none], fun noLeaf => ?_⟩
  cases held : s.cachedTable pkg die core asid off with
  | none => rfl
  | some e =>
    rw [held] at noLeaf
    dsimp only at noLeaf ⊢
    split at noLeaf
    · next m n found => exact absurd rfl (noLeaf m n)
    · rfl

/-- The state after a hint that is used: the die's TLB holds the leaf. -/
def State.hintUsed (s : State) (w : WalkReq) (l : Leaf) (size : Nat) : State :=
  ((s.fillTlb { w with core := none } l size).fillTables { w with core := none }).drawn

/-- A hint is used or does nothing; it is used where the free choice does not drop it (R356). -/
theorem execTranslationHint_ends (s : State) (w : WalkReq) :
    let cached := s.walkCached w.pkg w.die none (BitVec.ofNat 16 w.asid) w.offset
    ∃ v, execTranslationHint w s = .next v ∧
      ((v = s ∨ v = s.drawn) ∧ (s.hinted w = false → v = s) ∧
        (∀ l n, cached = .leaf l n → l.chan = w.chan → l.allows (hintKind w) = true → s.hinted w = true →
          Config.choice s.free = true) ∨
      s.hinted w = true ∧ ∃ l n, cached = .leaf l n ∧ l.chan = w.chan ∧ l.allows (hintKind w) = true ∧ v = s.hintUsed w l n) := by
  unfold execTranslationHint
  dsimp only
  generalize s.walkCached w.pkg w.die none (BitVec.ofNat 16 w.asid) w.offset = cached
  cases s.hinted w with
  | false => exact ⟨s, rfl, .inl ⟨.inl rfl, fun _ => rfl, fun _ _ _ _ _ asked => Bool.noConfusion asked⟩⟩
  | true =>
    cases Config.choice s.free with
    | true => exact ⟨s.drawn, rfl, .inl ⟨.inr rfl, nofun, fun _ _ _ _ _ _ => rfl⟩⟩
    | false =>
      cases cached with
      | leaf l n =>
        by_cases may : l.chan = w.chan ∧ l.allows (hintKind w) = true
        · exact ⟨s.hintUsed w l n, congrArg _ (if_pos may), .inr ⟨rfl, l, n, rfl, may.1, may.2, rfl⟩⟩
        · refine ⟨s.drawn, congrArg _ (if_neg may), .inl ⟨.inr rfl, nofun, fun l' n' found chan allows _ => ?_⟩⟩
          cases found
          exact absurd ⟨chan, allows⟩ may
      | absent n => exact ⟨s.drawn, rfl, .inl ⟨.inr rfl, nofun, nofun⟩⟩
      | beyond a => exact ⟨s.drawn, rfl, .inl ⟨.inr rfl, nofun, nofun⟩⟩

theorem translationEvents_hold : translationEvents := by
  intro s w l size a asid cached entry
  have walks : ∀ r, cached w.core = r → execTlbMissWalk w s = match r with
      | .leaf l size => .next ((s.fillTlb w l size).fillTables w)
      | .absent _ => .next s
      | .beyond a => .fault (.noMemory a) := by
    rintro _ rfl
    rfl
  refine ⟨fun core => s.walkCached_uncached .., fun leaf => ?_, fun ⟨n, absent⟩ => walks _ absent, fun beyond => walks _ beyond, ?_⟩
  · exact ⟨(s.fillTlb w l size).fillTables w, walks _ leaf, rfl, rfl, rfl, s.mem_fillTlb_self w l size,
      fun e => State.mem_fillTlb, fun e => State.mem_fillTables⟩
  · obtain ⟨v, next, ⟨stays, idle, drops⟩ | ⟨asked, l', n', found, chan, may, rfl⟩⟩ := execTranslationHint_ends s w
    · have same : v.mem = s.mem ∧ v.hart = s.hart ∧ v.others = s.others ∧ v.tlb = s.tlb := by
        rcases stays with rfl | rfl <;> exact ⟨rfl, rfl, rfl, rfl⟩
      obtain ⟨mem, hart, others, tlb⟩ := same
      refine ⟨v, next, mem, hart, others, fun _ e he => .inr (tlb ▸ he), fun _ _ => tlb, fun leaf c m asked used => ?_, idle, fun _ => tlb⟩
      exact absurd (used.symm.trans (drops l size leaf c m asked)) Bool.false_ne_true
    · have same : cached none = .leaf l size → l = l' ∧ size = n' := fun leaf => WalkResult.leaf.inj (leaf.symm.trans found)
      refine ⟨_, next, rfl, rfl, rfl, fun leaf e he => ?_, fun leaf no => ?_, fun leaf _ _ _ _ => ?_, fun idle => ?_,
        fun noLeaf => absurd found (noLeaf l' n')⟩
      · obtain ⟨rfl, rfl⟩ := same leaf
        exact State.mem_fillTlb he
      · obtain ⟨rfl, rfl⟩ := same leaf
        rcases no with other | denied
        · exact absurd chan other
        · exact absurd (denied.symm.trans may) Bool.false_ne_true
      · obtain ⟨rfl, rfl⟩ := same leaf
        exact s.mem_fillTlb_self { w with core := none } l size
      · exact absurd (idle.symm.trans asked) Bool.false_ne_true

/-! ### Shoot-downs (R359, R360) -/

/-- The request as it runs: its number, and the accesses that it waits for. -/
def State.begun (s : State) (pkg : Nat) (x : Shoot) : Shoot :=
  { x with ran := some ((s.pack pkg).shootdown + 1),
           waits := s.harts.flatMap fun h => (h.pend.filter (x.covers pkg h)).map fun a => (h.ref, a.seq) }

/-- A hart of the package forgets what it has walked ahead. -/
def unwalked (pkg : Nat) (h : Hart) : Hart :=
  if h.pkg = pkg then { h with q := h.q.map fun q => { q with prewalk := 0 } } else h

/-- The state once a request has run: what it names is gone from the TLBs of the package. -/
def State.shotDown (s : State) (pkg : Nat) (x : Shoot) : State :=
  let p := s.pack pkg
  { s.setPack { p with shootdown := p.shootdown + 1, shoots := p.shoots.set (p.shoots.idxOf x) (s.begun pkg x) } with
    tlb := s.tlb.filter (fun e => !(e.pkg == pkg && x.names e.asid e.page e.size)),
    tables := s.tables.filter (fun e => !(e.pkg == pkg && x.names e.asid e.page e.size)),
    hart := unwalked pkg s.hart, others := s.others.map (unwalked pkg) }

theorem execShootdownRequest_runs {pkg : Nat} {x : Shoot} (oldest : (s.pack pkg).shoots.find? (!·.acked) = some x)
    (waiting : x.ran = none) : execShootdownRequest pkg s = .next (s.shotDown pkg x) := by
  unfold execShootdownRequest
  dsimp only
  rw [oldest]
  exact if_neg (by simp [waiting])

theorem unwalked_pkg (pkg : Nat) (h : Hart) : (unwalked pkg h).pkg = h.pkg := by
  unfold unwalked
  split <;> rfl

theorem unwalked_prewalk {pkg : Nat} {h : Hart} (own : h.pkg = pkg) {q : Stream} (hq : q ∈ (unwalked pkg h).q.toList) :
    q.prewalk = 0 := by
  unfold unwalked at hq
  rw [if_pos own] at hq
  obtain ⟨r, -, rfl⟩ : ∃ r ∈ h.q.toList, { r with prewalk := 0 } = q := by simpa using hq
  rfl

/-- Every hart of the state after a request has forgotten what it walked ahead in the package. -/
theorem State.mem_shotDown_harts {pkg : Nat} {x : Shoot} {h : Hart} (hh : h ∈ (s.shotDown pkg x).harts) :
    ∃ g, h = unwalked pkg g := by
  unfold State.harts at hh
  have others : h ∈ s.others.map (unwalked pkg) → ∃ g, h = unwalked pkg g := fun m => by
    obtain ⟨g, -, e⟩ := List.mem_map.1 m
    exact ⟨g, e.symm⟩
  split at hh
  · exact others hh
  · rcases List.mem_cons.1 hh with here | other
    · exact ⟨s.hart, here⟩
    · exact others other

theorem State.shotDown_pack (s : State) (pkg : Nat) (x : Shoot) : (s.shotDown pkg x).pack pkg = { s.pack pkg with
    shootdown := (s.pack pkg).shootdown + 1,
    shoots := (s.pack pkg).shoots.set ((s.pack pkg).shoots.idxOf x) (s.begun pkg x) } :=
  State.pack_setPack_eq s (s.pack_pkg pkg)

theorem execShootdownAcknowledge_done {pkg : Nat} {x : Shoot}
    (running : (s.pack pkg).shoots.find? (fun y => y.ran.isSome && !y.acked) = some x)
    (performed : ∀ h ∈ s.harts, ∀ a ∈ h.pend, Shoot.covers x pkg h a = true → (h.ref, a.seq) ∉ x.waits) :
    execShootdownAcknowledge pkg s = .next (s.setPack { s.pack pkg with
      shoots := ((s.pack pkg).shoots.set ((s.pack pkg).shoots.idxOf x) { x with acked := true }).filter
        fun z => !(z.acked && z.orphan) }) := by
  unfold execShootdownAcknowledge
  dsimp only
  rw [running]
  refine if_neg fun left => ?_
  obtain ⟨h, hh, left⟩ := List.any_eq_true.1 left
  obtain ⟨a, ha, left⟩ := List.any_eq_true.1 left
  obtain ⟨covered, due⟩ := Bool.and_eq_true_iff.1 left
  exact performed h hh a ha covered (List.contains_iff_mem.1 due)

theorem shootdownEvents_hold : shootdownEvents := by
  intro s pkg x p
  refine ⟨fun oldest waiting => ?_, fun running performed => ?_⟩
  · have listed : x ∈ p.shoots := List.mem_of_find?_eq_some oldest
    have unacked : x.acked = false := by simpa using List.find?_some oldest
    have pack := s.shotDown_pack pkg x
    refine ⟨s.shotDown pkg x, execShootdownRequest_runs oldest waiting, rfl, congrArg Package.shootdown pack,
      ⟨s.begun pkg x, ?_, rfl, rfl, rfl, unacked, rfl⟩, fun e => ?_, fun e => ?_, fun h hh own q hq => ?_⟩
    · rw [pack]
      exact List.mem_set (List.idxOf_lt_length_iff.2 listed) _
    · exact List.mem_filter.trans (and_congr_right fun _ => by simp [imp_iff_not_or])
    · exact List.mem_filter.trans (and_congr_right fun _ => by simp [imp_iff_not_or])
    · obtain ⟨g, rfl⟩ := State.mem_shotDown_harts hh
      exact unwalked_prewalk ((unwalked_pkg pkg g).symm.trans own) hq
  · exact (show exec (.shootdownAcknowledge pkg) s = _ from execShootdownAcknowledge_done running performed) ▸
      changesPack_setPack s (s.pack_pkg pkg)

/-- Settles O50: counters are `Hart.bumpK`, walks fill a TLB by `State.mem_fillTlb`, and a request is `Shoot.names`. -/
theorem translationAndCounters : Obligations.TranslationAndCounters := ⟨translationEvents_hold, shootdownEvents_hold, counterAdvances⟩
end Sys2Proof.Machine
end

section
/-! SUPPORT. What the scheduler writes, and the records that it accepts or rejects (R357, R364 to R371). -/

namespace Sys2Proof.Machine
variable {s : State}

/-! ### Writes of the scheduler leave the packages -/

@[simp] theorem State.ringAppend_pkgs (s : State) (blk base lo hi : Nat) (r : List Quad) :
    (s.ringAppend blk base lo hi r).pkgs = s.pkgs := by
  unfold State.ringAppend
  dsimp only
  split
  · rfl
  · exact State.wakeLine_pkgs ..

@[simp] theorem State.logFail_pkgs (s : State) (h : Hart) (f : Fail) (passed : Bool) (k : AccKind) :
    (s.logFail h f passed k).pkgs = s.pkgs := by
  unfold State.logFail
  split
  · rfl
  · dsimp only
    split
    · rfl
    · exact State.ringAppend_pkgs ..

@[simp] theorem State.markRecord_pkgs (s : State) (pkg q : Nat) (asid : BitVec 16) (seq : Word) (reason state : Nat) :
    (s.markRecord pkg q asid seq reason state).pkgs = s.pkgs := by
  unfold State.markRecord
  split
  · rfl
  · exact State.logFail_pkgs ..
  · rfl

@[simp] theorem State.setQueueQuad_pkgs (s : State) (pkg q i : Nat) (v : Quad) : (s.setQueueQuad pkg q i v).pkgs = s.pkgs := by
  unfold State.setQueueQuad State.setSchedQuad
  split <;> rfl

@[simp] theorem State.advanceHead_pkgs (s : State) (pkg q : Nat) : (s.advanceHead pkg q).pkgs = s.pkgs := by
  unfold State.advanceHead
  dsimp only
  split
  · rfl
  · exact State.setQueueQuad_pkgs ..

@[simp] theorem State.noteMark_pkgs (s : State) (pkg q : Nat) (seq : Word) : (s.noteMark pkg q seq).pkgs = s.pkgs := by
  unfold State.noteMark
  dsimp only
  split
  · exact State.logFail_pkgs ..
  · rfl

@[simp] theorem State.noteGroups_pkgs (s : State) (pkg : Nat) (asid : BitVec 16) :
    ∀ (n : Nat) (a : Quad), (s.noteGroups pkg asid a n).pkgs = s.pkgs
  | 0, _ => rfl
  | n + 1, a => by
    unfold State.noteGroups
    split
    · exact State.logFail_pkgs ..
    · rfl
    · exact State.noteGroups_pkgs s pkg asid n (a + 16)

theorem State.pack_of_pkgs {t : State} (h : t.pkgs = s.pkgs) (pkg : Nat) : t.pack pkg = s.pack pkg := by
  rw [State.pack, State.pack, h]

@[simp] theorem State.markRecord_pack (s : State) (pkg q : Nat) (asid : BitVec 16) (seq : Word) (reason state n : Nat) :
    (s.markRecord pkg q asid seq reason state).pack n = s.pack n := State.pack_of_pkgs (State.markRecord_pkgs ..) n

/-! ### Rejecting a record (R371) -/

theorem State.reject_pack (s : State) (pkg q : Nat) (asid : BitVec 16) (seq : Word) (reason : Nat) :
    (s.reject pkg q asid seq reason).pack pkg =
      { s.pack pkg with
        waiting := (s.pack pkg).waiting.filter fun w => !(w.queue == q && w.seq == seq)
        nexts := assocSet (s.pack pkg).nexts q (seq + 1) } := by
  unfold State.reject
  dsimp only
  rw [State.pack_of_pkgs (State.advanceHead_pkgs ..)]
  refine (State.pack_setPack_eq _ ?_).trans ?_
  · exact State.pack_pkg ..
  · rw [State.markRecord_pack]

/-! ### Accepting a record (R371) -/

/-- The launch record of queue q that the scheduler reads next, as it waits once it is accepted. -/
def State.readRecord (s : State) (pkg q : Nat) (quads : List Quad) : Waiting :=
  { queue := q, seq := s.nextAccept pkg q, quads := quads, ctx := (s.queueDesc pkg q).ctx,
    asid := s.ctxAsid pkg (s.queueDesc pkg q).ctx, dies := (s.queueDesc pkg q).dies, groups := [],
    ancestors := match (s.pack pkg).parents.find? (fun x => x.1 == q && x.2.1 == s.nextAccept pkg q) with
      | some x => x.2.2
      | none => [] }

/-- A record that is read is the package's no longer: it has no entry for the harts that launched it. -/
def State.recordTaken (s : State) (pkg q : Nat) : State :=
  let p := s.pack pkg
  let n := s.nextAccept pkg q
  (s.markRecord pkg q (s.ctxAsid pkg (s.queueDesc pkg q).ctx) n 0 1).setPack
    { p with parents := p.parents.filter (fun x => !(x.1 == q && x.2.1 == n)),
             launches := p.launches.filter fun x => !(x.queue == q && x.seq == n) }

/-- The scheduler looks at the next record of a queue: none of it waits, one has been appended, and what its glaunch must see
written is written. -/
structure AcceptDue (s : State) (pkg q : Nat) : Prop where
  idle : (s.pack pkg).waiting.find? (·.queue == q) = none
  sched : s.schedEn pkg = true
  queue : (s.queueDesc pkg q).en = true
  appended : s.nextAccept pkg q ≠ (s.queueDesc pkg q).tail
  written : s.launchEarly pkg q (s.nextAccept pkg q) = false

theorem AcceptDue.guard {pkg q : Nat} (h : AcceptDue s pkg q) : ¬((!s.schedEn pkg) = true ∨ (!(s.queueDesc pkg q).en) = true ∨
    s.nextAccept pkg q = (s.queueDesc pkg q).tail ∨ s.launchEarly pkg q (s.nextAccept pkg q) = true) := by
  simp [h.sched, h.queue, h.appended, h.written]

/-- The group list of a record that is read. -/
def State.recordGroups (s : State) (pkg q : Nat) (quads : List Quad) : Option (List (Quad × Quad)) :=
  let asid := s.ctxAsid pkg (s.queueDesc pkg q).ctx
  (s.markRecord pkg q asid (s.nextAccept pkg q) 0 1).groupList pkg asid (quads.getD 2 0 &&& ~~~63#64)
    (fieldOf (quads.getD 2 0) 0 5)

/-- The homes report what of a record that is read cannot be: its group list, and the records it depends on. -/
def State.recordNoted (s : State) (pkg q : Nat) (quads : List Quad) : State :=
  (s.readRecord pkg q quads).deps.foldl (fun s d => s.noteMark pkg d.2.1 d.2.2)
    (if (s.recordGroups pkg q quads).isNone then
      (s.recordTaken pkg q).noteGroups pkg (s.ctxAsid pkg (s.queueDesc pkg q).ctx) (quads.getD 2 0 &&& ~~~63#64)
        (fieldOf (quads.getD 2 0) 0 5)
    else s.recordTaken pkg q)

theorem State.recordNoted_pack (s : State) (pkg q : Nat) (quads : List Quad) :
    (s.recordNoted pkg q quads).pack pkg = (s.recordTaken pkg q).pack pkg := by
  refine State.pack_of_pkgs ?_ pkg
  refine (foldl_keeps _ State.pkgs (fun _ _ => State.noteMark_pkgs ..) _ _).trans ?_
  split
  · exact State.noteGroups_pkgs ..
  · rfl

theorem State.recordTaken_pack (s : State) (pkg q : Nat) : (s.recordTaken pkg q).pack pkg =
    { s.pack pkg with
      parents := (s.pack pkg).parents.filter fun x => !(x.1 == q && x.2.1 == s.nextAccept pkg q)
      launches := (s.pack pkg).launches.filter fun x => !(x.queue == q && x.seq == s.nextAccept pkg q) } :=
  State.pack_setPack_eq _ (s.pack_pkg pkg)

/-- A record that passes waits, with the groups of its list, and the queue goes on with the next. -/
def State.recordPassed (s : State) (pkg q : Nat) (quads : List Quad) : State :=
  let t := s.recordNoted pkg q quads
  t.setPack { t.pack pkg with
    waiting := (t.pack pkg).waiting ++ [{ s.readRecord pkg q quads with groups := (s.recordGroups pkg q quads).getD [] }]
    nexts := assocSet (t.pack pkg).nexts q (s.nextAccept pkg q + 1) }

theorem State.recordPassed_pack (s : State) (pkg q : Nat) (quads : List Quad) :
    let v := s.recordPassed pkg q quads
    (v.pack pkg).gangs = (s.pack pkg).gangs ∧
    (v.pack pkg).waiting = (s.pack pkg).waiting ++
      [{ s.readRecord pkg q quads with groups := (s.recordGroups pkg q quads).getD [] }] ∧
    v.nextAccept pkg q = s.nextAccept pkg q + 1 := by
  have packed := State.pack_setPack_eq (s.recordNoted pkg q quads) (p := { (s.recordNoted pkg q quads).pack pkg with
    waiting := ((s.recordNoted pkg q quads).pack pkg).waiting ++
      [{ s.readRecord pkg q quads with groups := (s.recordGroups pkg q quads).getD [] }]
    nexts := assocSet ((s.recordNoted pkg q quads).pack pkg).nexts q (s.nextAccept pkg q + 1) }) (State.pack_pkg ..)
  unfold State.nextAccept
  unfold State.recordPassed
  dsimp only
  rw [packed]
  dsimp only
  rw [State.recordNoted_pack, State.recordTaken_pack, assocGet_assocSet, if_pos rfl]
  exact ⟨rfl, rfl, rfl⟩

/-- A record that is read passes, or is rejected with the reason of the first check that fails. -/
theorem execRecordAccept_read {pkg q : Nat} {l : Loc} (due : AcceptDue s pkg q)
    (hl : let asid := s.ctxAsid pkg (s.queueDesc pkg q).ctx
      s.check (agentHart pkg asid) asid ((s.queueDesc pkg q).slot (s.nextAccept pkg q)) 64 .read .own = .ok l)
    (hp : s.poisoned (l.phys + 32) = false) :
    let quads := readQuads s.mem l.phys 8
    let t := s.recordNoted pkg q quads
    let reason := t.reasonOf pkg (s.readRecord pkg q quads) (s.recordGroups pkg q quads)
    execRecordAccept pkg q s = .next (if reason = 0 then s.recordPassed pkg q quads
      else t.reject pkg q (s.ctxAsid pkg (s.queueDesc pkg q).ctx) (s.nextAccept pkg q) reason) := by
  intro quads t reason
  unfold execRecordAccept
  dsimp only
  rw [due.idle]
  dsimp only
  rw [if_neg due.guard, hl]
  dsimp only
  rw [if_neg (by rw [hp]; exact Bool.false_ne_true)]
  change (match reason with
    | 0 => Host.Outcome.next (s.recordPassed pkg q quads)
    | r => Host.Outcome.next (t.reject pkg q (s.ctxAsid pkg (s.queueDesc pkg q).ctx) (s.nextAccept pkg q) r)) = _
  clear_value reason
  cases reason with
  | zero => rfl
  | succ r => rfl

theorem acceptRules_holds : acceptRules := by
  intro s pkg q d p n asid
  refine ⟨fun w hw fails => ?_, fun idle hs hq hn hl => ?_, fun a seq reason => ?_⟩
  · show execRecordAccept pkg q s = _
    have any : (w.deps.any fun d => s.depState pkg d == .fails) = true := by
      obtain ⟨e, he, hf⟩ := fails
      exact List.any_eq_true.2 ⟨e, he, by rw [hf]; rfl⟩
    unfold execRecordAccept
    dsimp only
    rw [hw]
    dsimp only
    rw [if_pos any]
  · have due : AcceptDue s pkg q := ⟨idle, hs, hq, hn, hl⟩
    refine ⟨fun f hf => ?_, fun l hl => ⟨fun hp => ?_, fun hp => ?_⟩⟩
    · show execRecordAccept pkg q s = _
      unfold execRecordAccept
      dsimp only
      rw [idle]
      dsimp only
      rw [if_neg due.guard, hf]
    · show execRecordAccept pkg q s = _
      unfold execRecordAccept
      dsimp only
      rw [idle]
      dsimp only
      rw [if_neg due.guard, hl]
      dsimp only
      rw [if_pos hp]
    · intro noted quads list count groups taken
      have step := execRecordAccept_read due hl hp
      refine ⟨s.readRecord pkg q quads, rfl, rfl, rfl, rfl, rfl, rfl, ?_⟩
      intro t
      have read : t = s.recordNoted pkg q quads := by
        unfold State.recordNoted
        simp only [Option.isNone_iff_eq_none]
        rfl
      clear_value t
      subst read
      refine ⟨fun fails => step.trans (congrArg _ (if_neg fails)), fun passes => ?_⟩
      obtain ⟨hg, hw, hn⟩ := State.recordPassed_pack s pkg q quads
      exact ⟨_, step.trans (congrArg _ (if_pos passes)), rfl, rfl, rfl, hg, hw, hn⟩
  · dsimp only
    rw [State.reject_pack]
    refine ⟨rfl, rfl, ?_⟩
    dsimp only
    rw [assocGet_assocSet, if_pos rfl]
end Sys2Proof.Machine
end

section
/-! SUPPORT. The doorbell and the Sieve sizes (R105, R364, R366). -/

namespace Sys2Proof.Machine
variable {s : State} {pkg q die core : Nat}

/-! ### The doorbell -/

theorem execQueueTailWrite_windowed (h : s.windowed pkg q = true) (value : Word) :
    execQueueTailWrite pkg q value s = .next (s.writeTail pkg q value) := congrArg _ (if_pos h)

theorem State.writeTail_dev (h : (s.queueDesc pkg q).dev = true) (value : Word) : s.writeTail pkg q value = s := if_pos h

theorem State.writeTail_host (h : (s.queueDesc pkg q).dev = false) (value : Word) : s.writeTail pkg q value =
    if 2 ^ (s.queueDesc pkg q).log2 < (value - (s.queueDesc pkg q).head).toNat ∨
        2 ^ 31 ≤ (value - (s.queueDesc pkg q).tail).toNat then
      s.setQueueQuad pkg q 4 (s.queueQuad pkg q 4 ||| 1)
    else s.setQueueQuad pkg q 3 (value.setWidth 64) := if_neg (by rw [h]; exact Bool.false_ne_true)

/-! ### The state of a core -/

theorem State.core_setCore (s : State) (c : Core) : (s.setCore c).core c.pkg c.die c.core = c := by
  simp [State.core, State.setCore]

theorem State.core_pkg_die_core (s : State) (pkg die core : Nat) :
    (s.core pkg die core).pkg = pkg ∧ (s.core pkg die core).die = die ∧ (s.core pkg die core).core = core := by
  unfold State.core
  split
  · next c h => simpa [and_assoc] using List.find?_some h
  · exact ⟨rfl, rfl, rfl⟩

theorem State.core_setCore_of_core {c : Core} (hp : c.pkg = pkg) (hd : c.die = die) (hc : c.core = core) :
    (s.setCore c).core pkg die core = c := by
  subst hp hd hc
  exact s.core_setCore c

/-- What emptying the entries of a Sieve leaves: all but memory. -/
theorem State.emptyEntries_cores (s : State) (a n size : Nat) : (s.emptyEntries a n size).cores = s.cores :=
  foldl_keeps _ State.cores (fun _ _ => by dsimp only; split <;> rfl) _ _

theorem State.wipe_cores (s : State) (a n : Nat) : (s.wipe a n).cores = s.cores := rfl

theorem State.wipe_others (s : State) (a n : Nat) : (s.wipe a n).others = s.others := rfl

theorem State.emptyEntries_others (s : State) (a n size : Nat) : (s.emptyEntries a n size).others = s.others :=
  foldl_keeps _ State.others (fun _ _ => by dsimp only; split <;> rfl) _ _

theorem State.core_of_cores {t : State} (h : t.cores = s.cores) : t.core pkg die core = s.core pkg die core := by
  rw [State.core, State.core, h]

/-! ### The Sieve of a core -/

/-- A core takes a Sieve of a size: its units are those below, and the Sieve is empty. -/
def State.recarved (s : State) (pkg die core size : Nat) : State :=
  let c : Core := { s.core pkg die core with sieve := size }
  let first := 48 - c.sieveUnits
  let base := vaultKey pkg die core (65536 * first)
  ((s.setCore { c with units := c.units.filter fun u => decide (u.1 < first) }).wipe base (65536 * c.sieveUnits)).emptyEntries
    base (65536 * c.sieveUnits) size

theorem State.recarved_hart (s : State) (pkg die core size : Nat) : (s.recarved pkg die core size).hart = s.hart := by
  unfold State.recarved
  extract_lets c first base
  clear_value base first c
  rw [State.emptyEntries_hart, State.wipe_hart, State.setCore_hart]

theorem State.recarved_others (s : State) (pkg die core size : Nat) : (s.recarved pkg die core size).others = s.others := by
  unfold State.recarved
  extract_lets c first base
  clear_value base first c
  rw [State.emptyEntries_others, State.wipe_others, State.setCore_others]

theorem State.recarved_core (s : State) (pkg die core size : Nat) :
    let c : Core := { s.core pkg die core with sieve := size }
    (s.recarved pkg die core size).core pkg die core =
      { c with units := c.units.filter fun u => decide (u.1 < 48 - c.sieveUnits) } := by
  obtain ⟨hp, hd, hn⟩ := s.core_pkg_die_core pkg die core
  intro c
  unfold State.recarved
  dsimp only
  rw [State.core_of_cores (State.emptyEntries_cores ..), State.core_of_cores (State.wipe_cores ..)]
  exact State.core_setCore_of_core hp hd hn

theorem execSieveRecarve_empty {base : Nat} (hc : core < 384) (hb : s.blockBase pkg 1 = some base)
    (changed : (s.core pkg (core / 96) (core % 96)).sieve ≠ s.sieveWanted pkg core)
    (empty : ∀ h ∈ s.harts, ¬(h.pkg = pkg ∧ h.die = core / 96 ∧ h.core = core % 96)) :
    execSieveRecarve pkg core s = .next (s.recarved pkg (core / 96) (core % 96) (s.sieveWanted pkg core)) := by
  have free : ¬(s.harts.any fun h => h.pkg == pkg && h.die == core / 96 && h.core == core % 96) = true := by
    rw [Bool.not_eq_true, List.any_eq_false]
    intro h hm
    simpa [and_assoc] using empty h hm
  unfold execSieveRecarve
  dsimp only
  rw [if_neg]
  · rfl
  · rw [hb]
    rintro (k | k | k | k)
    · omega
    · cases k
    · exact changed k
    · exact free k

theorem tableRules_holds : tableRules := by
  intro s pkg q core value base
  refine ⟨fun h => ?_, fun h => ?_, ?_⟩
  · exact congrArg Host.Outcome.next (if_neg (by rw [h]; exact Bool.false_ne_true))
  · have step : exec (.queueTailWrite pkg q value) s = .next (s.writeTail pkg q value) := execQueueTailWrite_windowed h value
    exact ⟨fun dev => step.trans (congrArg _ (State.writeTail_dev dev value)),
      fun dev out => step.trans (congrArg _ ((State.writeTail_host dev value).trans (if_pos out))),
      fun dev inside => step.trans (congrArg _ ((State.writeTail_host dev value).trans (if_neg inside)))⟩
  · intro die n size hc hb changed empty
    have core' := s.recarved_core pkg die n size
    refine ⟨s.recarved pkg die n size, execSieveRecarve_empty hc hb changed empty, s.recarved_hart .., s.recarved_others .., ?_, ?_⟩
    · rw [core']
    · rw [core']
      intro u hu
      obtain ⟨-, below⟩ := List.mem_filter.1 hu
      have below := of_decide_eq_true below
      dsimp only [Core.sieveUnits] at below ⊢
      omega
end Sys2Proof.Machine
end

section
/-! SUPPORT. Gangs that are placed, and the victims that make room for them (R61, R373, R374, R377). -/

namespace Sys2Proof.Machine
variable {s t u : State} {pkg : Nat} {w : Waiting}

/-! ### Starting harts (R373) -/

/-- The harts and packages of a state. -/
def State.people (s : State) : Hart × List Hart × List Package := (s.hart, s.others, s.pkgs)

theorem State.wipe_people (s : State) (a n : Nat) : (s.wipe a n).people = s.people := rfl
theorem State.setCore_people (s : State) (c : Core) : (s.setCore c).people = s.people := rfl

theorem State.giveUnits_people (s : State) (pkg : Nat) (c : GangCore) (asid : BitVec 16) :
    (s.giveUnits pkg c asid).people = s.people := by
  refine foldl_keeps _ State.people (fun t i => ?_) _ _
  dsimp only
  rw [State.setCore_people]
  split
  · rfl
  · exact State.wipe_people ..

theorem State.placeRoot_people (s : State) (pkg die : Nat) (asid : BitVec 16) (root : Quad) :
    (s.placeRoot pkg die asid root).people = s.people := by
  unfold State.placeRoot
  split <;> rfl

theorem State.joinRank_people (s : State) (handle : Quad) (rank : Nat) (r : HartRef) :
    (s.joinRank handle rank r).people = s.people := by
  unfold State.joinRank
  dsimp only
  split <;> rfl

/-- A hart starts for a record: at its entry, with its argument in s3, as a hart of its gang (R61, R326, R373). -/
def Hart.startsFor (h : Hart) (pkg : Nat) (w : Waiting) : Prop :=
  h.pkg = pkg ∧ h.status = .running ∧ h.pc = w.quad 0 ∧ h.getS 3 = w.quad 1 ∧ h.csr.gangid = w.gangid ∧ h.g = w.lg ∧
    h.sup.asid = w.asid ∧ h.csr.nreg = w.nreg ∧ h.csr.w64 = w.w64 ∧ h.tiles.length = w.tl

theorem newHart_startsFor (s : State) (pkg : Nat) (w : Waiting) (c : GangCore) (index j part : Nat) :
    (s.newHart pkg w c index j part).startsFor pkg w := by
  have arg : (s.newHart pkg w c index j part).getS 3 = w.quad 1 := by
    simp [Hart.getS, State.newHart]
  exact ⟨rfl, rfl, rfl, arg, rfl, rfl, rfl, rfl, rfl, List.length_replicate⟩

/-- t is s with more harts, which start for a record. -/
structure Starts (pkg : Nat) (w : Waiting) (s t : State) : Prop where
  hart : t.hart = s.hart
  pkgs : t.pkgs = s.pkgs
  others : ∃ new, t.others = s.others ++ new ∧ ∀ h ∈ new, h.startsFor pkg w

namespace Starts

theorem refl (pkg : Nat) (w : Waiting) (s : State) : Starts pkg w s s := 
  ⟨rfl, rfl, [], (List.append_nil _).symm, fun _ h => absurd h List.not_mem_nil⟩

theorem trans (h : Starts pkg w s t) (k : Starts pkg w t u) : Starts pkg w s u := by
  obtain ⟨new, hn, hs⟩ := h.others
  obtain ⟨more, kn, ks⟩ := k.others
  refine ⟨k.hart.trans h.hart, k.pkgs.trans h.pkgs, new ++ more, by rw [kn, hn, List.append_assoc], fun x hx => ?_⟩
  exact (List.mem_append.1 hx).elim (hs x) (ks x)

theorem startCore (s : State) (pkg : Nat) (w : Waiting) (index : Nat) (c : GangCore) : Starts pkg w s (s.startCore pkg w index c) := by
  unfold State.startCore
  extract_lets parts s1 k s2 new s3
  have people : s3.people = s.people := by
    refine (foldl_keeps _ State.people (fun a h => ?_) new s2).trans ?_
    · refine foldl_keeps _ State.people (fun a j => ?_) _ a
      cases j with
      | none => rfl
      | some j => exact State.joinRank_people ..
    · exact (State.setCore_people ..).trans ((State.placeRoot_people ..).trans (State.giveUnits_people ..))
  have started : ∀ h ∈ new, h.startsFor pkg w := by
    intro h hm
    obtain ⟨x, -, rfl⟩ := List.mem_map.1 hm
    exact newHart_startsFor ..
  clear_value s3 new
  obtain ⟨hart, others, pkgs⟩ : s3.hart = s.hart ∧ s3.others = s.others ∧ s3.pkgs = s.pkgs := by
    simpa only [State.people, Prod.mk.injEq] using people
  exact ⟨hart, pkgs, new, by rw [others], started⟩

theorem fold (pkg : Nat) (w : Waiting) : ∀ (l : List (GangCore × Nat)) (s : State),
    Starts pkg w s (l.foldl (fun s x => s.startCore pkg w x.2 x.1) s)
  | [], s => refl pkg w s
  | x :: l, s => (startCore s pkg w x.2 x.1).trans (fold pkg w l _)

/-- Every hart that was placed still is. -/
theorem harts (h : Starts pkg w s t) : ∃ new, t.harts = s.harts ++ new ∧ ∀ h ∈ new, h.startsFor pkg w := by
  obtain ⟨new, hn, hs⟩ := h.others
  refine ⟨new, ?_, hs⟩
  unfold State.harts
  rw [h.hart, hn]
  split <;> rfl
end Starts

/-! ### Placing a record (R373, R374) -/

/-- The gang of a record that is placed on cores as the n-th of its package. -/
def Waiting.gang (w : Waiting) (n : Nat) (cores : List GangCore) : Gang :=
  { gangid := w.gangid, queue := w.queue, seq := w.seq, ctx := w.ctx, prio := w.prio, order := n, size := w.size, hpc := w.hpc,
    vault := w.vault, ancestors := w.ancestors, cores := cores }

/-- The harts of a record start on its cores, and its gang joins those of the package. -/
def State.gangStarted (s : State) (pkg : Nat) (w : Waiting) (cores : List GangCore) : State :=
  let s := (cores.zip (List.range cores.length)).foldl (fun s x => s.startCore pkg w x.2 x.1) s
  let p := s.pack pkg
  s.setPack { p with
    gangs := p.gangs ++ [w.gang p.placements cores], placements := p.placements + 1, lastQueue := w.queue,
    waiting := p.waiting.filter fun x => !(x.queue == w.queue && x.seq == w.seq) }

theorem State.placeGang_eq (s : State) (pkg : Nat) (w : Waiting) (cores : List GangCore) :
    s.placeGang pkg w cores = ((s.gangStarted pkg w cores).markRecord pkg w.queue w.asid w.seq 0 2).someTurn := rfl

theorem State.gangStarted_pack (s : State) (pkg : Nat) (w : Waiting) (cores : List GangCore) :
    let p := s.pack pkg
    (s.gangStarted pkg w cores).pack pkg = { p with
      gangs := p.gangs ++ [w.gang p.placements cores], placements := p.placements + 1, lastQueue := w.queue,
      waiting := p.waiting.filter fun x => !(x.queue == w.queue && x.seq == w.seq) } := by
  have started := Starts.fold pkg w (cores.zip (List.range cores.length)) s
  unfold State.gangStarted
  extract_lets p t p'
  have same : t.pack pkg = s.pack pkg := State.pack_of_pkgs started.pkgs pkg
  refine (State.pack_setPack_eq _ ?_).trans ?_
  · exact State.pack_pkg ..
  · rw [show p' = p from same]

/-- A placeable record that no other precedes is placed on the cores that it takes. -/
theorem execGangPlace_placed {q : Nat} {cores : List GangCore} (hw : (s.pack pkg).waiting.find? (·.queue == q) = some w)
    (placeable : s.placeable pkg w = true) (fits : s.fit pkg w [] = some cores)
    (first : ∀ x ∈ (s.pack pkg).waiting, x.queue ≠ q → s.placeable pkg x = true →
      x.prio ≤ w.prio ∧ (x.prio = w.prio → (s.pack pkg).turn q ≤ (s.pack pkg).turn x.queue)) :
    execGangPlace pkg q s = .next (s.placeGang pkg w cores) := by
  have ahead : ¬((s.pack pkg).waiting.any fun x => x.queue != q && s.placeable pkg x && (decide (w.prio < x.prio) ||
      (x.prio == w.prio && decide ((s.pack pkg).turn x.queue < (s.pack pkg).turn q)))) = true := by
    rw [List.any_eq_true]
    rintro ⟨x, hx, before⟩
    simp only [Bool.and_eq_true, Bool.or_eq_true, bne_iff_ne, decide_eq_true_eq, beq_iff_eq] at before
    obtain ⟨⟨hq, hp⟩, order⟩ := before
    obtain ⟨below, turn⟩ := first x hx hq hp
    rcases order with above | ⟨same, sooner⟩
    · omega
    · exact absurd (turn same) (Nat.not_le.2 sooner)
  unfold execGangPlace
  dsimp only
  rw [hw]
  dsimp only
  rw [if_neg (by rw [placeable]; exact fun k => k.elim nofun ahead), fits]

/-! ### Pre-emption (R377) -/

/-- The hart takes a PEND bit, if it is one of the gang. -/
def Hart.pended (pkg : Nat) (gang : Word) (bit : BitVec 3) (h : Hart) : Hart :=
  if h.pkg = pkg ∧ h.csr.gangid = gang then { h with sup := { h.sup with pend := h.sup.pend ||| bit } } else h

theorem State.pendGang_harts (s : State) (pkg : Nat) (gang : Word) (bit : BitVec 3) :
    (s.pendGang pkg gang bit).harts = s.harts.map (Hart.pended pkg gang bit) := by
  have status : ∀ h : Hart, (h.pended pkg gang bit).status = h.status := fun h => by unfold Hart.pended; split <;> rfl
  show (if (s.hart.pended pkg gang bit).status = .vacant then s.others.map (Hart.pended pkg gang bit)
    else s.hart.pended pkg gang bit :: s.others.map (Hart.pended pkg gang bit)) = _
  rw [status, State.harts]
  split <;> rfl

theorem Hart.pended_gang (h : Hart) (pkg : Nat) (gang : Word) (bit : BitVec 3) :
    (h.pended pkg gang bit).pkg = h.pkg ∧ (h.pended pkg gang bit).csr.gangid = h.csr.gangid := by
  unfold Hart.pended
  split <;> exact ⟨rfl, rfl⟩

theorem Hart.pended_pend {h : Hart} {pkg : Nat} {gang : Word} (hp : h.pkg = pkg) (hg : h.csr.gangid = gang) (bit : BitVec 3) :
    (h.pended pkg gang bit).sup.pend = h.sup.pend ||| bit := by
  rw [Hart.pended, if_pos ⟨hp, hg⟩]

/-- A PEND bit of a gang rises at its every hart. -/
theorem State.pendGang_rises {h : Hart} {gang : Word} {bit : BitVec 3} {i : Nat} (hi : bit.getLsbD i = true)
    (hm : h ∈ (s.pendGang pkg gang bit).harts) (hp : h.pkg = pkg) (hg : h.csr.gangid = gang) : h.sup.pend.getLsbD i = true := by
  rw [State.pendGang_harts] at hm
  obtain ⟨k, -, rfl⟩ := List.mem_map.1 hm
  obtain ⟨kp, kg⟩ := k.pended_gang pkg gang bit
  rw [Hart.pended_pend (kp ▸ hp) (kg ▸ hg), BitVec.getLsbD_or, hi, Bool.or_true]

/-- A PEND bit of a hart stays when a gang takes another. -/
theorem State.pendGang_keeps {gang gang' : Word} {bit : BitVec 3} {i : Nat}
    (all : ∀ h ∈ s.harts, h.pkg = pkg → h.csr.gangid = gang → h.sup.pend.getLsbD i = true) :
    ∀ h ∈ (s.pendGang pkg gang' bit).harts, h.pkg = pkg → h.csr.gangid = gang → h.sup.pend.getLsbD i = true := by
  intro h hm hp hg
  rw [State.pendGang_harts] at hm
  obtain ⟨k, hk, rfl⟩ := List.mem_map.1 hm
  obtain ⟨kp, kg⟩ := k.pended_gang pkg gang' bit
  have held := all k hk (kp ▸ hp) (kg ▸ hg)
  unfold Hart.pended
  split
  · exact (BitVec.getLsbD_or ..).trans (by rw [held, Bool.true_or])
  · exact held

theorem State.setGang_gangs (s : State) (pkg : Nat) (g : Gang) :
    ((s.setGang pkg g).pack pkg).gangs = (s.pack pkg).gangs.map fun x => if x.gangid = g.gangid then g else x :=
  congrArg Package.gangs (s.pack_setPack_gangs pkg _)

/-- What a gang is set to, every gang of its number is. -/
theorem State.setGang_same {g x : Gang} (hx : x ∈ ((s.setGang pkg g).pack pkg).gangs) (e : x.gangid = g.gangid) : x = g := by
  rw [State.setGang_gangs] at hx
  obtain ⟨y, -, rfl⟩ := List.mem_map.1 hx
  split at e
  · next h => exact if_pos h
  · next h => exact absurd e h

/-- The gangs of a number are pre-empted, and PEND bit 8 has risen at their harts. -/
def State.preempts (s : State) (pkg : Nat) (gang : Word) : Prop :=
  (∀ x ∈ (s.pack pkg).gangs, x.gangid = gang → x.preempted = true) ∧
    ∀ h ∈ s.harts, h.pkg = pkg → h.csr.gangid = gang → h.sup.pend.getLsbD 0 = true

/-- One victim is pre-empted. -/
def State.preemptGang (s : State) (pkg : Nat) (g : Gang) : State :=
  (s.setGang pkg { g with preempted := true }).pendGang pkg g.gangid 1

theorem State.preemptGang_preempts (s : State) (pkg : Nat) (g : Gang) : (s.preemptGang pkg g).preempts pkg g.gangid := by
  refine ⟨fun x hx e => ?_, fun h hm hp hg => State.pendGang_rises (i := 0) (by decide) hm hp hg⟩
  rw [State.setGang_same (g := { g with preempted := true }) hx e]

theorem State.preempts.preemptGang {gang : Word} (h : s.preempts pkg gang) (g : Gang) : (s.preemptGang pkg g).preempts pkg gang := by
  by_cases e : g.gangid = gang
  · subst e; exact s.preemptGang_preempts pkg g
  · obtain ⟨gangs, harts⟩ := h
    refine ⟨fun x hx hg => ?_, State.pendGang_keeps harts⟩
    have hx : x ∈ ((s.setGang pkg { g with preempted := true }).pack pkg).gangs := hx
    rw [State.setGang_gangs] at hx
    obtain ⟨y, hy, rfl⟩ := List.mem_map.1 hx
    split
    · rfl
    · next n => exact gangs y hy (by rw [if_neg n] at hg; exact hg)

theorem preemptGangs_preempt {g : Gang} : ∀ (l : List Gang) (s : State), g ∈ l ∨ s.preempts pkg g.gangid →
    (l.foldl (fun s g => s.preemptGang pkg g) s).preempts pkg g.gangid
  | [], _, h => h.resolve_left List.not_mem_nil
  | x :: l, s, h => by
    refine preemptGangs_preempt l _ ?_
    rcases h with h | h
    · rcases List.mem_cons.1 h with rfl | h
      · exact .inr (s.preemptGang_preempts pkg g)
      · exact .inl h
    · exact .inr (h.preemptGang x)

theorem placeRules_holds : placeRules := by
  intro s pkg q w p hw
  refine ⟨fun cores placeable fits first => ?_, ?_⟩
  · have step := execGangPlace_placed hw placeable fits first
    rw [State.placeGang_eq] at step
    have packed := s.gangStarted_pack pkg w cores
    have started := Starts.fold pkg w (cores.zip (List.range cores.length)) s
    obtain ⟨new, hn, starts⟩ := started.harts
    have harts : (s.gangStarted pkg w cores).harts = s.harts ++ new := hn
    refine ⟨s.gangStarted pkg w cores, w.gang (s.pack pkg).placements cores, step, ?_, rfl, rfl, rfl, rfl, rfl, rfl, rfl, rfl, ?_, ?_,
      started.hart, fun h hm => ?_, fun h hm => ?_⟩
    · rw [packed]
    · rw [packed]
    · rw [packed]
    · rw [harts]; exact List.mem_append_left _ hm
    · rw [harts] at hm
      exact (List.mem_append.1 hm).imp_right (starts h)
  · intro going eligible all hs hq hd hv
    have step : execPreemptVictims pkg q s = .next ((p.gangs.filter fun g => all.contains g.gangid && !g.preempted).foldl
        (fun s g => s.preemptGang pkg g) s) := by
      unfold execPreemptVictims
      dsimp only
      rw [hw]
      dsimp only
      rw [if_neg (by rw [hs, hq, hd]; simp), hv]
      rfl
    refine ⟨_, step, foldl_mem (f := fun s g => s.preemptGang pkg g) (fun _ _ => rfl) _ _, fun g hg fresh victim => ?_⟩
    exact preemptGangs_preempt _ s (.inl (List.mem_filter.2 ⟨hg, by simpa [fresh] using victim⟩))

end Sys2Proof.Machine
end

section
/-! SUPPORT. Gangs that abort, return, trigger and end (R343, R376 to R379). -/

namespace Sys2Proof.Machine
variable {s : State} {pkg : Nat} {r : HartRef} {g : Gang}

/-! ### The gang of a placed hart -/

theorem State.ref_of_findHart {x : Hart} (h : s.findHart r = some x) : x.ref = r := by
  simpa using List.find?_some h

theorem State.mem_of_findHart {x : Hart} (h : s.findHart r = some x) : x ∈ s.harts := List.mem_of_find?_eq_some h

/-- The gang of a hart is one of its package's. -/
theorem State.gangOf_mem {x : Hart} (hx : s.findHart r = some x) (hg : s.gangOf x = some g) : g ∈ (s.pack r.pkg).gangs := by
  rw [← State.ref_of_findHart hx]
  exact List.mem_of_find?_eq_some hg

/-! ### A grace that ends (R343, R378) -/

theorem State.abortGang_aborted (h : g ∈ (s.pack pkg).gangs) :
    ∃ y ∈ ((s.abortGang pkg g).pack pkg).gangs, y.gangid = g.gangid ∧ y.aborted = true := by
  unfold State.abortGang
  split
  · next aborted => exact ⟨g, h, rfl, aborted⟩
  · refine ⟨{ g with aborted := true, abortAt := some s.clock }, ?_, rfl, rfl⟩
    show _ ∈ ((s.setGang pkg _).pack pkg).gangs
    rw [State.setGang_gangs]
    exact List.mem_map.2 ⟨g, h, if_pos rfl⟩

/-- A gang that aborts pends cause 0x22 at its every hart. -/
theorem State.abortGang_pends {h : Hart} (fresh : g.aborted = false) (hm : h ∈ (s.abortGang pkg g).harts) (hp : h.pkg = pkg)
    (hg : h.csr.gangid = g.gangid) : h.sup.pend.getLsbD 2 = true := by
  rw [State.abortGang, if_neg (by rw [fresh]; exact Bool.false_ne_true)] at hm
  exact State.pendGang_rises (by decide) hm hp hg

theorem graceExpired {x : Hart} {n : Nat} (hx : s.findHart r = some x) (hg : s.gangOf x = some g) (ends : x.graceEnd = some n)
    (due : n ≤ s.clock) : execGraceExpiry r s =
      .next ((s.onHart r fun y => { y with graceEnd := none }).abortGang r.pkg g) := by
  unfold execGraceExpiry
  rw [hx]
  dsimp only
  rw [ends, hg]
  exact if_pos due

/-! ### A hart that is ended (R378) -/

theorem State.releaseBarrier_others_length (s : State) (pkg : Nat) (gang : Word) :
    (s.releaseBarrier pkg gang).others.length = s.others.length := by
  unfold State.releaseBarrier
  dsimp only
  split
  · rfl
  · exact List.length_map _

theorem State.releaseCore_others (s : State) (h : Hart) : (s.releaseCore h).others = s.others := by
  unfold State.releaseCore
  split <;> rfl

theorem State.endHart_others_length (s : State) : s.endHart.others.length = s.others.length := by
  unfold State.endHart
  extract_lets h s1 s2
  rw [State.releaseBarrier_others_length]
  refine congrArg List.length ((foldl_keeps _ State.others (fun t j => ?_) _ s1).trans (State.releaseCore_others ..))
  cases j <;> rfl

/-- A hart that ends is placed no more. -/
theorem State.endHart_harts_length (s : State) : s.endHart.harts.length = s.others.length := by
  rw [State.harts, if_pos (endHart_status s), State.endHart_others_length]

theorem State.mem_harts_of_others {h : Hart} (hm : h ∈ s.others) : h ∈ s.harts := by
  unfold State.harts
  split
  · exact hm
  · exact List.mem_cons_of_mem _ hm

theorem State.others_find_of_findHart {x : Hart} (hx : s.findHart r = some x)
    (other : ¬(s.hart.ref = r ∧ s.hart.status ≠ .vacant)) : s.others.find? (·.ref == r) = some x := by
  unfold State.findHart State.harts at hx
  split at hx
  · exact hx
  · next placed =>
    rwa [List.find?_cons_of_neg (by simpa using fun e => other ⟨e, placed⟩)] at hx

/-- Without the harts of a name that one has, fewer are left. -/
theorem State.harts_without_lt {x : Hart} (hm : x ∈ s.harts) (hr : x.ref = r) :
    (s.harts.filter (·.ref != r)).length < s.harts.length :=
  List.length_filter_lt_length_iff_exists.2 ⟨x, hm, by simpa using hr⟩

/-- Where a placed hart has the turn, the others are fewer than all that were placed. -/
theorem State.focus_others_length (h : s.placed r = true) : (s.focus r).others.length < s.harts.length := by
  obtain ⟨x, hx⟩ := Option.isSome_iff_exists.1 h
  unfold State.focus
  split
  · next own =>
    obtain ⟨-, placed⟩ := own
    rw [State.harts, if_neg placed]
    exact Nat.lt_succ_self _
  · next other =>
    rw [State.others_find_of_findHart hx other]
    exact State.harts_without_lt (State.mem_of_findHart hx) (State.ref_of_findHart hx)

/-- A change of turn places no hart. -/
theorem State.focus_harts_length (s : State) (r : HartRef) : (s.focus r).harts.length ≤ s.harts.length := by
  unfold State.focus
  split
  · exact Nat.le_refl _
  · split
    · exact Nat.le_refl _
    · next y hy =>
      have fewer := State.harts_without_lt (State.mem_harts_of_others (List.mem_of_find?_eq_some hy))
        (show y.ref = r by simpa using List.find?_some hy)
      rw [State.harts]
      split
      · exact Nat.le_of_lt fewer
      · exact fewer

theorem State.someTurn_harts_length (s : State) : s.someTurn.harts.length ≤ s.harts.length := by
  unfold State.someTurn
  split
  · next x l hv ho =>
    unfold State.harts
    rw [if_pos hv, ho]
    dsimp only
    split
    · exact Nat.le_succ _
    · exact Nat.le_refl _
  · exact Nat.le_refl _

/-- A hart that is still placed a grace after its gang aborted is placed no longer. -/
theorem forcedHartEnd {x : Hart} {n : Nat} (hx : s.findHart r = some x) (hg : s.gangOf x = some g) (ha : g.abortAt = some n)
    (due : n + x.sup.preempt.toNat * 1024 ≤ s.clock) :
    ∃ v, execForcedHartEnd r s = .next v ∧ v.harts.length < s.harts.length ∧ ∀ y ∈ v.ended, y.ref ≠ r := by
  have placed : s.placed r = true := Option.isSome_iff_exists.2 ⟨x, hx⟩
  have step : execForcedHartEnd r s = .next (State.someTurn
      { s.withHart r fun s => (s.mapHart Hart.discardWork).drain.endHart with
        ended := (s.withHart r fun s => (s.mapHart Hart.discardWork).drain.endHart).ended.filter (·.ref != r) }) := by
    unfold execForcedHartEnd
    rw [hx]
    dsimp only
    rw [hg]
    dsimp only
    rw [ha]
    exact if_neg (Nat.not_lt.2 due)
  refine ⟨_, step, ?_, fun y hy => ?_⟩
  · refine Nat.lt_of_le_of_lt (State.someTurn_harts_length _) ?_
    show (s.withHart r _).harts.length < _
    rw [withHart_placed placed]
    calc _ ≤ ((s.focus r).mapHart Hart.discardWork).drain.endHart.harts.length := State.focus_harts_length ..
      _ = (s.focus r).others.length := by
        rw [State.endHart_harts_length, State.others_of_steady (State.drain_steady _), State.mapHart_others]
      _ < s.harts.length := State.focus_others_length placed
  · rw [State.someTurn_ended] at hy
    simpa using (List.mem_filter.1 hy).2

/-! ### Quotas that return (R379) -/

/-- A change of the hart of a name, which keeps its name and leaves it placed, is seen at that hart alone. -/
theorem State.onHart_findHart (s : State) (r q : HartRef) (f : Hart → Hart) (hf : ∀ h, (f h).ref = h.ref)
    (hv : ∀ h, (f h).status ≠ .vacant) :
    (s.onHart r f).findHart q = (s.findHart q).map fun h => if h.ref = r then f h else h := by
  unfold State.onHart
  split
  · next own =>
    obtain ⟨hr, placed⟩ := own
    have here : (f s.hart).ref = r := (hf _).trans hr
    unfold State.findHart State.harts
    rw [if_neg (hv _), if_neg placed]
    by_cases e : r = q
    · subst e
      rw [List.find?_cons_of_pos (by simpa using here), List.find?_cons_of_pos (by simpa using hr), Option.map_some, if_pos hr]
    · rw [List.find?_cons_of_neg (by simpa [here] using e), List.find?_cons_of_neg (by simpa [hr] using e)]
      cases found : s.others.find? (·.ref == q) with
      | none => rfl
      | some h =>
        have name : h.ref = q := by simpa using List.find?_some found
        rw [Option.map_some, if_neg (by rw [name]; exact Ne.symm e)]
  · next other =>
    unfold State.findHart State.harts
    dsimp only
    split
    · exact find_map_ref _ _ _ _ hf
    · next placed =>
      have away : s.hart.ref ≠ r := fun e => other ⟨e, placed⟩
      rw [List.find?_cons, List.find?_cons]
      cases s.hart.ref == q with
      | true => exact congrArg some (if_neg away).symm
      | false => exact find_map_ref _ _ _ _ hf

/-- The hart runs with its quota, and pwait answers 0. -/
def Hart.requota (d : SReg) (lanes : Byte) (tiles : BitVec 4) (h : Hart) : Hart :=
  ({ h with status := .running, tmask := tiles, csr := { h.csr with lgrp := lanes } } : Hart).setS d 0 0

/-- k is the hart h as a return of quotas leaves it: perhaps running, with its registers as they were. -/
structure Requotaed (h k : Hart) : Prop where
  ref : k.ref = h.ref
  gang : k.csr.gangid = h.csr.gangid
  v : k.v = h.v
  pc : k.pc = h.pc
  status : k.status = h.status ∨ k.status = .running

namespace Requotaed
variable {h k : Hart}

theorem refl (h : Hart) : Requotaed h h := ⟨rfl, rfl, rfl, rfl, .inl rfl⟩

theorem requota (hk : Requotaed h k) (d : SReg) (l : Byte) (t : BitVec 4) : Requotaed h (k.requota d l t) := by
  obtain ⟨ref, gang, v, pc, -⟩ := hk
  refine ⟨?_, ?_, ?_, ?_, .inr ?_⟩
  · rw [Hart.requota, Hart.setS_ref, ← ref]
  · rw [Hart.requota, Hart.setS_eq, ← gang]
  · rw [Hart.requota, Hart.setS_v, ← v]
  · rw [Hart.requota, Hart.setS_pc, ← pc]
  · rw [Hart.requota, Hart.setS_status]
end Requotaed

theorem Hart.requota_ref (h : Hart) (d : SReg) (l : Byte) (t : BitVec 4) : (h.requota d l t).ref = h.ref := Hart.setS_ref ..
theorem Hart.requota_status (h : Hart) (d : SReg) (l : Byte) (t : BitVec 4) : (h.requota d l t).status = .running :=
  Hart.setS_status ..

/-- Handing quotas back changes a hart as `Requotaed` says; one that runs goes on, and one that waits among those named runs. -/
theorem State.handBack_findHart (c : GangCore) {h k : Hart} : ∀ (l : List Hart) (s : State) (lanes : Byte) (tiles : BitVec 4),
    s.findHart h.ref = some k → Requotaed h k →
    ∃ k', (s.handBack c l lanes tiles).findHart h.ref = some k' ∧ Requotaed h k' ∧
      (k.status = .running ∨ (∃ x ∈ l, x.ref = h.ref ∧ x.hasReleased = true) → k'.status = .running)
  | [], s, _, _, found, same => ⟨k, found, same, fun run => run.elim id fun ⟨_, hx, _⟩ => absurd hx List.not_mem_nil⟩
  | x :: l, s, lanes, tiles, found, same => by
    unfold State.handBack
    dsimp only
    split
    · next d code hs =>
      have after := s.onHart_findHart x.ref h.ref (Hart.requota d (lowBits x.g lanes) (lowTiles x.tiles.length tiles))
        (fun y => y.requota_ref ..) (fun y => by rw [Hart.requota_status]; exact nofun)
      rw [found, Option.map_some] at after
      by_cases e : k.ref = x.ref
      · rw [if_pos e] at after
        obtain ⟨k', found', same', runs⟩ := State.handBack_findHart c l _ _ _ after (same.requota ..)
        exact ⟨k', found', same', fun _ => runs (.inl (k.requota_status ..))⟩
      · rw [if_neg e] at after
        obtain ⟨k', found', same', runs⟩ := State.handBack_findHart c l _ _ _ after same
        refine ⟨k', found', same', fun run => runs (run.imp_right fun ⟨y, hy, name, rel⟩ => ?_)⟩
        rcases List.mem_cons.1 hy with rfl | hy
        · exact absurd (same.ref.trans name.symm) e
        · exact ⟨y, hy, name, rel⟩
    · next stays =>
      obtain ⟨k', found', same', runs⟩ := State.handBack_findHart c l _ _ _ found same
      refine ⟨k', found', same', fun run => runs (run.imp_right fun ⟨y, hy, name, rel⟩ => ?_)⟩
      rcases List.mem_cons.1 hy with rfl | hy
      · unfold Hart.hasReleased at rel
        split at rel
        · next hs => exact absurd hs (stays _ _)
        · cases rel
      · exact ⟨y, hy, name, rel⟩

@[simp] theorem State.handBack_pkgs (c : GangCore) : ∀ (l : List Hart) (s : State) (a : Byte) (b : BitVec 4),
    (s.handBack c l a b).pkgs = s.pkgs
  | [], _, _, _ => rfl
  | h :: r, s, a, b => by
    unfold State.handBack
    dsimp only
    split
    · rw [State.handBack_pkgs c r, State.onHart_pkgs]
    · exact State.handBack_pkgs c r ..

/-- The lane groups and tiles of one core return to the harts of a gang there. -/
def State.returnCore (s : State) (pkg : Nat) (gang : Word) (c : GangCore) : State :=
  s.handBack c ((s.gangHarts pkg gang).filter fun h => h.die == c.die && h.core == c.core) c.lanes c.tiles

/-- Once the cores of a gang are returned, a hart of it that had released its quota on one of them runs. -/
theorem returnCores_findHart {h : Hart} (hp : h.pkg = pkg) (hg : h.csr.gangid = g.gangid) (rel : h.hasReleased = true) :
    ∀ (cores : List GangCore) (s : State) (k : Hart), s.findHart h.ref = some k → Requotaed h k →
      k.status = .running ∨ (∃ c ∈ cores, c.die = h.die ∧ c.core = h.core) →
      ∃ k', (cores.foldl (fun s c => s.returnCore pkg g.gangid c) s).findHart h.ref = some k' ∧ Requotaed h k' ∧
        k'.status = .running
  | [], _, k, found, same, runs => ⟨k, found, same, runs.elim id fun ⟨_, hc, _⟩ => absurd hc List.not_mem_nil⟩
  | c :: cores, s, k, found, same, runs => by
    obtain ⟨k', found', same', step⟩ := State.handBack_findHart c
      ((s.gangHarts pkg g.gangid).filter fun h => h.die == c.die && h.core == c.core) s c.lanes c.tiles found same
    refine returnCores_findHart hp hg rel cores _ k' found' same' ?_
    rcases runs with run | ⟨d, hd, die, core⟩
    · exact .inl (step (.inl run))
    · rcases List.mem_cons.1 hd with rfl | hd
      · refine .inl (step ?_)
        rcases same.status with e | run
        · right
          refine ⟨k, List.mem_filter.2 ⟨List.mem_filter.2 ⟨State.mem_of_findHart found, ?_⟩, ?_⟩, same.ref, ?_⟩
          · simpa [Hart.pkg, same.ref, same.gang, hg] using hp
          · simp [Hart.die, Hart.core, same.ref, die, core]
          · unfold Hart.hasReleased at rel ⊢
            rw [e]; exact rel
        · exact .inl run
      · exact .inr ⟨d, hd, die, core⟩

theorem execQuotaReturn_due {gang : Nat} (hg : (s.pack pkg).gangs.find? (·.gangid.toNat == gang) = some g)
    (released : s.released pkg g = true)
    (first : ∀ y ∈ (s.pack pkg).gangs, y.gangid ≠ g.gangid → s.released pkg y = true →
      y.prio ≤ g.prio ∧ (y.prio = g.prio → g.order ≤ y.order))
    (room : ∀ c ∈ g.cores, s.blocked pkg c.die g.prio = false ∧ (s.coreReturn pkg g c).isSome = true) :
    let cores := g.cores.filterMap fun c => s.coreReturn pkg g c
    execQuotaReturn pkg gang s = .next (cores.foldl (fun s c => s.returnCore pkg g.gangid c)
      (s.setGang pkg { g with preempted := false, cores := cores })) := by
  have leads : ((s.pack pkg).gangs.any fun x => x.gangid != g.gangid && s.released pkg x
      && (decide (g.prio < x.prio) || (x.prio == g.prio && decide (x.order < g.order)))) = false := by
    rw [List.any_eq_false]
    intro x hx before
    simp only [Bool.and_eq_true, Bool.or_eq_true, bne_iff_ne, decide_eq_true_eq, beq_iff_eq] at before
    obtain ⟨⟨other, rel⟩, order⟩ := before
    obtain ⟨below, sooner⟩ := first x hx other rel
    rcases order with above | ⟨same, earlier⟩
    · omega
    · exact absurd (sooner same) (Nat.not_le.2 earlier)
  have open' : (g.cores.any fun c => s.blocked pkg c.die g.prio) = false :=
    List.any_eq_false.2 fun c hc => by rw [(room c hc).1]; exact Bool.false_ne_true
  have whole : (g.cores.filterMap fun c => s.coreReturn pkg g c).length = g.cores.length :=
    List.filterMap_length_eq_length.2 fun c hc => (room c hc).2
  unfold execQuotaReturn
  dsimp only
  rw [hg]
  dsimp only
  rw [if_neg (by rw [released, leads, open']; simp), if_neg (not_not.2 whole)]
  rfl

/-- What a core returns to a gang, it returns on that core. -/
theorem coreReturn_place {c d : GangCore} (h : s.coreReturn pkg g c = some d) : d.die = c.die ∧ d.core = c.core := by
  unfold State.coreReturn at h
  dsimp only at h
  split at h
  · cases h
  · cases h; exact ⟨rfl, rfl⟩

/-- A pre-empted gang that is first to get its quota back is pre-empted no longer, and its harts run on. -/
theorem quotaReturned {gang : Nat} (hg : (s.pack pkg).gangs.find? (·.gangid.toNat == gang) = some g)
    (released : s.released pkg g = true)
    (first : ∀ y ∈ (s.pack pkg).gangs, y.gangid ≠ g.gangid → s.released pkg y = true →
      y.prio ≤ g.prio ∧ (y.prio = g.prio → g.order ≤ y.order))
    (room : ∀ c ∈ g.cores, s.blocked pkg c.die g.prio = false ∧ (s.coreReturn pkg g c).isSome = true) :
    ∃ v, execQuotaReturn pkg gang s = .next v ∧ v.mem = s.mem ∧
      (∀ y ∈ (v.pack pkg).gangs, y.gangid = g.gangid → y.preempted = false) ∧
      (∀ h ∈ s.gangHarts pkg g.gangid, s.findHart h.ref = some h → (∃ c ∈ g.cores, c.die = h.die ∧ c.core = h.core) →
        ∃ h', v.findHart h.ref = some h' ∧ h'.status = .running ∧ h'.v = h.v ∧ h'.pc = h.pc) := by
  refine ⟨_, execQuotaReturn_due hg released first room, ?_, fun y hy e => ?_, fun h hm found ⟨c, hc, die, core⟩ => ?_⟩
  · exact foldl_mem (f := fun s c => s.returnCore pkg g.gangid c) (fun _ _ => State.handBack_mem ..) _ _
  · rw [State.pack_of_pkgs (foldl_keeps (fun s c => s.returnCore pkg g.gangid c) State.pkgs
      (fun _ _ => State.handBack_pkgs ..) _ _)] at hy
    rw [State.setGang_same hy e]
  · obtain ⟨hp, hid⟩ : h.pkg = pkg ∧ h.csr.gangid = g.gangid := by simpa using (List.mem_filter.1 hm).2
    have rel : h.hasReleased = true := by
      obtain ⟨-, all⟩ := Bool.and_eq_true_iff.1 released
      exact List.all_eq_true.1 all h hm
    obtain ⟨d, hd⟩ := Option.isSome_iff_exists.1 (room c hc).2
    obtain ⟨ddie, dcore⟩ := coreReturn_place hd
    have returned := List.mem_filterMap.2 ⟨c, hc, hd⟩
    obtain ⟨k, foundk, same, runs⟩ := returnCores_findHart hp hid rel _ (s.setGang pkg _) h found (.refl h)
      (.inr ⟨d, returned, ddie.trans die, dcore.trans core⟩)
    exact ⟨k, foundk, runs, same.v, same.pc⟩

/-! ### Gangs that trigger, and gangs that end (R179, R376) -/

/-- The record of a gang takes STATE 3 when its last hart is marked. -/
theorem gangTriggered {gang : Nat} {l : Loc} (hg : (s.pack pkg).gangs.find? (·.gangid.toNat == gang) = some g)
    (fresh : g.triggered = false) (live : s.gangHarts pkg g.gangid ≠ [])
    (marked : ∀ h ∈ s.gangHarts pkg g.gangid, s.marked h = true)
    (hl : let t := s.setGang pkg { g with triggered := true }
      t.check19 (agentHart pkg (s.ctxAsid pkg g.ctx)) (s.ctxAsid pkg g.ctx) ((t.queueDesc pkg g.queue).slot g.seq) 64
        .read .own = .ok l) :
    execGangTrigger pkg gang s = .next { s.setGang pkg { g with triggered := true } with
      mem := writeQuad s.mem (l.phys + 56) (BitVec.ofNat 64 (g.seq.toNat * 2 ^ 32 + 3)) } := by
  have all : (s.gangHarts pkg g.gangid).all s.marked = true := List.all_eq_true.2 marked
  have mark : (s.setGang pkg { g with triggered := true }).markRecord pkg g.queue (s.ctxAsid pkg g.ctx) g.seq 0 3 =
      { s.setGang pkg { g with triggered := true } with
        mem := writeQuad s.mem (l.phys + 56) (BitVec.ofNat 64 (g.seq.toNat * 2 ^ 32 + 3)) } := by
    unfold State.markRecord
    rw [hl]
    rfl
  unfold execGangTrigger
  rw [hg]
  dsimp only
  rw [if_neg (by rw [fresh, all]; simpa using live), mark]

/-- Gangs that go leave the address space of a context as it was. -/
theorem State.ctxAsid_setGangs (s : State) (pkg : Nat) (gs : List Gang) (n c : Nat) :
    (s.setPack { s.pack pkg with gangs := gs }).ctxAsid n c = s.ctxAsid n c := by
  have blocks : SameBlocks s (s.setPack { s.pack pkg with gangs := gs }) := by
    refine SameBlocks.setPack ?_ ?_
    · dsimp only; rw [State.pack_pkg]
    · dsimp only; rw [State.pack_pkg]
  unfold State.ctxAsid State.ctxQuad State.schedQuad
  rw [blocks.blockBase]
  rfl

/-- A gang of which no hart is left ends with the code of its end. -/
theorem gangEnded {gang : Nat} (hg : (s.pack pkg).gangs.find? (·.gangid.toNat == gang) = some g)
    (empty : s.gangHarts pkg g.gangid = []) :
    let p := s.pack pkg
    let t := s.setPack { p with gangs := p.gangs.filter (·.gangid != g.gangid) }
    execGangEnd pkg gang s = .next (((t.markRecord pkg g.queue (s.ctxAsid pkg g.ctx) g.seq 0
      (if g.aborted then 6 else 4)).wakeGwait pkg g.queue g.seq (if g.aborted then 2 else 0)).advanceHead pkg g.queue) := by
  intro p t
  unfold execGangEnd
  dsimp only
  rw [hg]
  dsimp only
  rw [empty, if_neg (by simp), State.ctxAsid_setGangs]

theorem gangRules_holds : gangRules := by
  intro s pkg gang r x g n
  refine ⟨fun hx hg => ⟨fun ends due => ?_, fun aborts due => forcedHartEnd hx hg aborts due⟩, fun hg => ?_⟩
  · refine ⟨_, graceExpired hx hg ends due, ?_, ?_, fun fresh h hm hp hid => State.abortGang_pends fresh hm hp hid⟩
    · rw [State.abortGang_mem, State.onHart_mem]
    · refine State.abortGang_aborted ?_
      rw [State.pack_of_pkgs (State.onHart_pkgs ..)]
      exact State.gangOf_mem hx hg
  · refine ⟨fun released first room => quotaReturned hg released first room, fun l => ?_, fun empty => gangEnded hg empty⟩
    intro t fresh live marked hl
    exact ⟨_, gangTriggered hg fresh live marked hl, rfl, rfl, rfl, fun y hy e => by rw [State.setGang_same hy e]⟩

/-- Settles O57: accepting reads the next record of a queue (`execRecordAccept_read`), placing starts its harts (`Starts`), a
victim takes PEND bit 8 (`preemptGangs_preempt`), and a returned quota lets its hart run (`returnCores_findHart`). -/
theorem schedulerEvents : Obligations.SchedulerEvents := ⟨acceptRules_holds, placeRules_holds, gangRules_holds, tableRules_holds⟩
end Sys2Proof.Machine
end

section
/-! SUPPORT. NaN operands of floating-point arithmetic: which are signalling, and what an operation makes of them (R69, R70). -/

namespace Sys2Proof

/-! ### Signalling NaNs (R69) -/

theorem mod_two_pow_succ_lt_iff (x n : Nat) : x % 2 ^ (n + 1) < 2 ^ n ↔ x.testBit n = false := by
  have low := Nat.mod_lt x (Nat.two_pow_pos n)
  rw [Nat.mod_pow_succ, Nat.testBit_eq_decide_div_mod_eq]
  rcases Nat.mod_two_eq_zero_or_one (x / 2 ^ n) with bit | bit <;> simp [bit, low]

/-- A NaN of a format with infinities is signalling where its fraction lies below the top bit of the field. -/
theorem FF.decode_isSnan {f : FF} (ieee : f.ieeeNan = true) (bits : Nat) : (f.decode bits).isSnan =
    ((f.decode bits).isNan && decide (bits % 2 ^ f.fbits < 2 ^ (f.fbits - 1))) := by
  unfold FF.decode
  dsimp only
  split_ifs with zero top frac odd
  · rfl
  · rfl
  · rfl
  · simp [ieee] at odd
  · rfl

/-- The number of the bit that tells a quiet NaN. -/
def FFmt.quietBit : FFmt → Nat
  | .f32 => 22 | .f64 => 51

theorem FFmt.isSnan_val (fmt : FFmt) (x : Quad) :
    (fmt.ff.val x).isSnan = ((fmt.ff.val x).isNan && !x.getLsbD fmt.quietBit) := by
  have frac : decide (x.toNat % 2 ^ fmt.ff.width % 2 ^ fmt.ff.fbits < 2 ^ (fmt.ff.fbits - 1)) = !x.getLsbD fmt.quietBit := by
    have top : fmt.ff.fbits = fmt.quietBit + 1 := by cases fmt <;> rfl
    have within : fmt.ff.fbits ≤ fmt.ff.width := by unfold FF.width; omega
    rw [Nat.mod_mod_of_dvd _ (Nat.pow_dvd_pow 2 within), top, Nat.add_sub_cancel, BitVec.getLsbD]
    simp [mod_two_pow_succ_lt_iff]
  have ieee : fmt.ff.ieeeNan = true := by cases fmt <;> rfl
  unfold FF.val
  rw [FF.decode_isSnan ieee, frac]

/-! ### What the operations make of a NaN (R70) -/

theorem FVal.addExact_nan (r : Rnd) {x y : FVal} (h : x.isNan ∨ y.isNan) : ∃ s, x.addExact r y = some (.nan s) := by
  cases x with
  | nan s => exact ⟨s, rfl⟩
  | inf | fin =>
    cases y with
    | nan s => exact ⟨s, rfl⟩
    | inf | fin => simp [FVal.isNan] at h

theorem FVal.mulExact_nan {x y : FVal} (h : x.isNan ∨ y.isNan) : ∃ s, x.mulExact y = some (.nan s) := by
  cases x with
  | nan s => exact ⟨s, rfl⟩
  | inf | fin =>
    cases y with
    | nan s => exact ⟨s, rfl⟩
    | inf | fin => simp [FVal.isNan] at h

theorem FVal.isNan_negate (x : FVal) : x.negate.isNan = x.isNan := by cases x <;> rfl

theorem FF.ofExact_nan (f : FF) (r : Rnd) (sat : Bool) {x : Option FVal} (h : ∃ s, x = some (.nan s)) (fl : FFlags) :
    f.ofExact r sat x fl = f.nan fl := by
  obtain ⟨s, rfl⟩ := h
  rfl

section
variable (f : FF) (r : Rnd) (sat : Bool) {x y : Quad}

theorem FF.add_nan (h : (f.val x).isNan ∨ (f.val y).isNan) : f.add r sat x y = f.nan (snanFlag [f.val x, f.val y]) :=
  f.ofExact_nan r sat (FVal.addExact_nan r h) _

theorem FF.sub_nan (h : (f.val x).isNan ∨ (f.val y).isNan) : f.sub r sat x y = f.nan (snanFlag [f.val x, f.val y]) :=
  f.ofExact_nan r sat (FVal.addExact_nan r (by rwa [FVal.isNan_negate])) _

theorem FF.mul_nan (h : (f.val x).isNan ∨ (f.val y).isNan) : f.mul r sat x y = f.nan (snanFlag [f.val x, f.val y]) :=
  f.ofExact_nan r sat (FVal.mulExact_nan h) _

theorem FF.div_nan (h : (f.val x).isNan ∨ (f.val y).isNan) : f.div r sat x y = f.nan (snanFlag [f.val x, f.val y]) := by
  unfold FF.div
  generalize f.val x = a at h ⊢
  generalize f.val y = b at h ⊢
  cases a with
  | nan => rfl
  | inf | fin =>
    cases b with
    | nan => rfl
    | inf | fin => simp [FVal.isNan] at h

theorem FF.sqrt_nan (h : (f.val x).isNan) : f.sqrt r sat x = f.nan (if (f.val x).isSnan then flagNV else 0) := by
  unfold FF.sqrt
  generalize f.val x = a at h ⊢
  cases a with
  | nan => rfl
  | inf | fin => cases h

/-- A fused form whose addend is a NaN gives the canonical NaN, whatever its product is. -/
theorem FF.fma_nan_addend {z : Quad} (h : (f.val z).isNan) :
    (f.fma r sat false false x y z).1 = (f.nan 0).1 := by
  unfold FF.fma
  dsimp only [Bool.false_eq_true, if_false]
  cases (f.val x).mulExact (f.val y) with
  | none => rfl
  | some p => exact (congrArg Prod.fst (f.ofExact_nan r sat (FVal.addExact_nan r (.inr h)) _)).trans rfl

end

theorem FFmt.nan_eq (fmt : FFmt) (fl : FFlags) :
    fmt.ff.nan fl = ((match fmt with | .f32 => 0x7FC00000 | .f64 => 0x7FF8000000000000), fl) := by
  cases fmt <;> rfl

/-- Settles O6: an operation on a NaN is `FF.nan` of the signalling flag, and a NaN signals by `FFmt.isSnan_val`. -/
theorem nanResultsAreCanonical : Obligations.NanResultsAreCanonical := by
  unfold Obligations.NanResultsAreCanonical
  intro fmt r x y z f canon quietBit snan flags
  have quiet : quietBit = fmt.quietBit := by cases fmt <;> rfl
  have signals : snan = fun v => (f.val v).isSnan := funext fun v => by rw [fmt.isSnan_val, ← quiet]
  have result : ∀ {p : FRes} {fl : FFlags}, p = f.nan fl → p = (canon, fl) := fun h => h.trans (fmt.nan_eq _)
  have pair : snanFlag [f.val x, f.val y] = flags (snan x || snan y) := by simp [snanFlag, flags, signals]
  refine ⟨fun nan => ⟨?_, ?_, ?_, ?_⟩, fun nan => ?root, fun nan => ?fused⟩
  case root => exact signals ▸ result (f.sqrt_nan r false nan)
  case fused => exact (f.fma_nan_addend r false nan).trans (congrArg Prod.fst (fmt.nan_eq 0))
  all_goals rw [← pair]
  · exact result (f.add_nan r false nan)
  · exact result (f.sub_nan r false nan)
  · exact result (f.mul_nan r false nan)
  · exact result (f.div_nan r false nan)

end Sys2Proof
end

section
/-! SUPPORT. The counterexample to the statement of reductions: a hart of which an element is done already (R34). -/

namespace Sys2Proof.Machine

/-- The operands of vscan.sum v2, v1. -/
def scanArgs : VRed := ⟨.sum, 2, 1, none, ⟨0, false⟩, .rne⟩

/-- A hart of two elements, the second of them done: v1 holds 1 and 2^-30, whose sum is inexact in F32. -/
def halfDone : State := State.reset.withLaunch.mapHart fun h =>
  { h with
    csr := { h.csr with vl := 2 }
    v := h.v.set! 1 { tag := .f32, data := [0x3F800000, 0x30800000] }
    doneElems := 2 }

theorem halfDone_ready : VectorReady halfDone [2, 1] := by
  unfold VectorReady VectorUnit PlainWord Complete
  decide +kernel

/-- The flags that an outcome leaves accrued. -/
def flagsLeft : Host.Outcome State Fault Refusal → FFlags
  | .next v => v.hart.csr.fflags
  | _ => 0

/-- vscan raises the flag of the element that is done. -/
theorem halfDone_flags : flagsLeft (exec (.vscan scanArgs) halfDone) = flagNX := by decide +kernel

/-- Refutes O32: vscan raises the flags of every active element (R213), and the statement takes them from an element-wise
write, which leaves out the elements that `doneElems` names (R34). In `halfDone` the inexact sum is such an element. -/
theorem not_reductions : ¬ Obligations.Reductions := by
  unfold Obligations.Reductions vectorReductionsRule
  intro h
  have runs := ((h.1 halfDone scanArgs 0 0 0 ⟨0, false⟩ .rne .sum).1 halfDone_ready (by decide +kernel) (by decide +kernel)
    (by decide +kernel) .rne (by decide +kernel)).2
  have flags := halfDone_flags.symm.trans (congrArg flagsLeft runs)
  exact absurd flags (by decide +kernel)

end Sys2Proof.Machine
end

section
/-! SUPPORT. Integer register operations: products, quotients, orders and bit counts as bit vectors have them (R75, R158). -/

namespace Sys2Proof.Machine

/-! ### The shared operations (R158) -/

theorem State.mapHart_setS_done_ranS (s : State) (n : Nat) (d : SReg) (x : Hart → Quad) (t : Hart → TaintSet) :
    (s.mapHart fun h => h.setS d (x h) (t h)).done n = ranS s n d (x s.hart) (t s.hart) := by
  simp only [State.mapHart, Hart.setS_eq]
  rfl

theorem State.op2_eq (s : State) (n : Nat) (f : Quad → Quad → Quad) (d a b : SReg) : s.op2 n f d a b =
    .next (ranS (s.needS [d, a, b]) n d (f ((s.needS [d, a, b]).hart.getS a) ((s.needS [d, a, b]).hart.getS b))
      ((s.needS [d, a, b]).hart.taintS a ||| (s.needS [d, a, b]).hart.taintS b)) :=
  congrArg _ (State.mapHart_setS_done_ranS _ n d (fun h => f (h.getS a) (h.getS b)) fun h => h.taintS a ||| h.taintS b)

theorem State.op1_eq (s : State) (n : Nat) (f : Quad → Quad) (d a : SReg) : s.op1 n f d a =
    .next (ranS (s.needS [d, a]) n d (f ((s.needS [d, a]).hart.getS a)) ((s.needS [d, a]).hart.taintS a)) :=
  congrArg _ (State.mapHart_setS_done_ranS _ n d (fun h => f (h.getS a)) fun h => h.taintS a)

/-! ### Products -/

/-- The high half of a product of integers, cut to 64 bits. -/
theorem extractLsb'_ofInt_high (p : Int) : (BitVec.ofInt 128 p).extractLsb' 64 64 = BitVec.ofInt 64 (p / 2 ^ 64) := by
  apply BitVec.eq_of_toNat_eq
  rw [BitVec.extractLsb'_toNat, BitVec.toNat_ofInt, BitVec.toNat_ofInt, Nat.shiftRight_eq_div_pow]
  norm_num
  omega

theorem mulHigh_signed (x y : Quad) : mulHigh true x y = (x.signExtend 128 * y.signExtend 128).extractLsb' 64 64 := by
  rw [BitVec.signExtend, BitVec.signExtend, ← BitVec.ofInt_mul, extractLsb'_ofInt_high]
  rfl

theorem mulHigh_unsigned (x y : Quad) : mulHigh false x y = (x.setWidth 128 * y.setWidth 128).extractLsb' 64 64 := by
  have wide : ∀ z : Quad, z.setWidth 128 = BitVec.ofInt 128 z.toNat := fun z => by
    rw [BitVec.ofInt_natCast, BitVec.ofNat_toNat]
  rw [wide, wide, ← BitVec.ofInt_mul, extractLsb'_ofInt_high]
  rfl

/-! ### Quotients and remainders (R75) -/

theorem Tag.ofInt_wide {t : Tag} (wide : t.wide = true) (v : Int) : t.ofInt false v = BitVec.ofInt 64 v := by
  unfold Tag.ofInt Tag.bits quadOfInt
  rw [wide, if_pos rfl]
  exact BitVec.setWidth_eq _

theorem Tag.int_i64_eq_zero (y : Quad) : Tag.int .i64 y = 0 ↔ y = 0 := BitVec.toInt_inj (y := 0#64)

theorem Tag.int_n64_eq_zero (y : Quad) : Tag.int .n64 y = 0 ↔ y = 0 :=
  Int.natCast_eq_zero.trans (BitVec.toNat_inj (y := 0#64))

theorem ofInt_int_n64 (x : Quad) : BitVec.ofInt 64 (Tag.int .n64 x) = x := by
  refine (BitVec.ofInt_natCast 64 x.toNat).trans ?_
  rw [BitVec.ofNat_toNat, BitVec.setWidth_eq]

theorem quotient_signed (x y : Quad) : quotient .i64 x y = if y = 0 then BitVec.allOnes 64 else x.sdiv y := by
  rw [quotient, Tag.ofInt_wide rfl, divInt, if_congr (Tag.int_i64_eq_zero y) rfl rfl, apply_ite (BitVec.ofInt 64)]
  refine if_congr Iff.rfl rfl (BitVec.eq_of_toInt_eq ?_)
  rw [BitVec.toInt_ofInt, BitVec.toInt_sdiv]
  rfl

theorem quotient_unsigned (x y : Quad) : quotient .n64 x y = if y = 0 then BitVec.allOnes 64 else x.udiv y := by
  rw [quotient, Tag.ofInt_wide rfl, divInt, if_congr (Tag.int_n64_eq_zero y) rfl rfl, apply_ite (BitVec.ofInt 64)]
  refine if_congr Iff.rfl rfl ?_
  calc BitVec.ofInt 64 ((x.toNat : Int).tdiv y.toNat)
      = BitVec.ofInt 64 ((x.udiv y).toNat : Int) := congrArg _ (Int.ofNat_tdiv x.toNat y.toNat).symm
    _ = x.udiv y := ofInt_int_n64 _

theorem remainder_signed (x y : Quad) : remainder .i64 x y = if y = 0 then x else x.srem y := by
  rw [remainder, Tag.ofInt_wide rfl, remInt, if_congr (Tag.int_i64_eq_zero y) rfl rfl, apply_ite (BitVec.ofInt 64)]
  refine if_congr Iff.rfl BitVec.ofInt_toInt ?_
  exact (congrArg _ (BitVec.toInt_srem x y).symm).trans BitVec.ofInt_toInt

theorem remainder_unsigned (x y : Quad) : remainder .n64 x y = if y = 0 then x else x.umod y := by
  rw [remainder, Tag.ofInt_wide rfl, remInt, if_congr (Tag.int_n64_eq_zero y) rfl rfl, apply_ite (BitVec.ofInt 64)]
  refine if_congr Iff.rfl (ofInt_int_n64 x) ?_
  calc BitVec.ofInt 64 ((x.toNat : Int).tmod y.toNat)
      = BitVec.ofInt 64 ((x.umod y).toNat : Int) := congrArg _ (Int.ofNat_tmod x.toNat y.toNat).symm
    _ = x.umod y := ofInt_int_n64 _

/-! ### Orders -/

theorem ite_sle (x y v w : Quad) : (if x.toInt ≤ y.toInt then v else w) = if x.sle y then v else w :=
  if_congr BitVec.sle_iff_toInt_le.symm rfl rfl

theorem ite_ule (x y v w : Quad) : (if x.toNat ≤ y.toNat then v else w) = if x.ule y then v else w :=
  if_congr (by rw [BitVec.ule_eq_decide, decide_eq_true_iff]) rfl rfl

/-! ### Bit counts -/

theorem leadingZeros_spec (x : Quad) : leadingZeros x.toNat 64 ≤ 64 ∧
    (∀ i, i < leadingZeros x.toNat 64 → x.getLsbD (63 - i) = false) ∧
    (leadingZeros x.toNat 64 < 64 → x.getLsbD (63 - leadingZeros x.toNat 64) = true) := by
  unfold leadingZeros bitLen
  by_cases zero : x.toNat = 0
  · rw [if_pos zero, show x = 0#64 from BitVec.eq_of_toNat_eq zero]
    simp
  · have short : x.toNat.log2 < 64 := (Nat.log2_lt zero).2 x.isLt
    rw [if_neg zero]
    refine ⟨by omega, fun i hi => Nat.testBit_lt_two_pow ?_, fun _ => ?_⟩
    · exact Nat.lt_of_lt_of_le Nat.lt_log2_self (Nat.pow_le_pow_right (by decide) (by omega))
    · rw [show 63 - (64 - (x.toNat.log2 + 1)) = x.toNat.log2 by omega]
      exact Nat.testBit_log2 zero

theorem ctzGo_spec (x : Nat) : ∀ w i, ctzGo x w i ≤ i + w ∧ (∀ k, i ≤ k → k < ctzGo x w i → x.testBit k = false) ∧
    (ctzGo x w i < i + w → x.testBit (ctzGo x w i) = true)
  | 0, i => ⟨Nat.le_refl i, fun k low high => absurd high (Nat.not_lt.2 low), fun h => absurd h (Nat.lt_irrefl i)⟩
  | w + 1, i => by
    rw [ctzGo]
    split
    · next set => exact ⟨by omega, fun k low high => absurd high (Nat.not_lt.2 low), fun _ => set⟩
    · next clear =>
      obtain ⟨bound, zeros, one⟩ := ctzGo_spec x w (i + 1)
      refine ⟨by omega, fun k low high => ?_, fun h => one (by omega)⟩
      obtain rfl | after := Nat.eq_or_lt_of_le low
      · exact Bool.eq_false_iff.2 clear
      · exact zeros k after high

theorem popCount_quad (x : Quad) : popCount x.toNat 64 = (List.range 64).countP fun i => x.getLsbD i := by
  simp only [popCount, List.countP_eq_length_filter, BitVec.testBit_toNat]

/-! ### The instructions -/

/-- An operation on two registers, by what it computes. -/
theorem State.op2_runs {s : State} {i : Instr} {d a b : SReg} {z : Quad} (f : Quad → Quad → Quad)
    (op : exec i s = s.op2 4 f d a b) (value : f ((s.needS [d, a, b]).hart.getS a) ((s.needS [d, a, b]).hart.getS b) = z) :
    exec i s = .next (ranS (s.needS [d, a, b]) 4 d z
      ((s.needS [d, a, b]).hart.taintS a ||| (s.needS [d, a, b]).hart.taintS b)) := by
  rw [op, State.op2_eq, value]

/-- An operation on one register, likewise. -/
theorem State.op1_runs {s : State} {i : Instr} {d a : SReg} {z : Quad} (f : Quad → Quad)
    (op : exec i s = s.op1 4 f d a) (value : f ((s.needS [d, a]).hart.getS a) = z) :
    exec i s = .next (ranS (s.needS [d, a]) 4 d z ((s.needS [d, a]).hart.taintS a)) := by
  rw [op, State.op1_eq, value]

theorem integerRegisterOperations : integerRegisterOperationsRule := by
  intro s d a b u x y t n
  exact ⟨State.op2_runs (· + ·) rfl rfl, State.op2_runs (· - ·) rfl rfl, State.op2_runs (· &&& ·) rfl rfl,
    State.op2_runs (· ||| ·) rfl rfl, State.op2_runs (· ^^^ ·) rfl rfl, State.op2_runs (fun x y => x <<< shiftCount y) rfl rfl,
    State.op2_runs (fun x y => x >>> shiftCount y) rfl rfl, State.op2_runs (fun x y => x.sshiftRight (shiftCount y)) rfl rfl,
    State.op2_runs (fun x y => x.rotateLeft (shiftCount y)) rfl rfl,
    State.op2_runs (fun x y => x.rotateRight (shiftCount y)) rfl rfl, State.op2_runs (· * ·) rfl rfl,
    State.op2_runs (mulHigh true) rfl (mulHigh_signed x y), State.op2_runs (mulHigh false) rfl (mulHigh_unsigned x y),
    State.op2_runs (fun x y => if x.toInt ≤ y.toInt then x else y) rfl (ite_sle x y x y),
    State.op2_runs (fun x y => if x.toInt ≤ y.toInt then y else x) rfl (ite_sle x y y x),
    State.op2_runs (fun x y => if x.toNat ≤ y.toNat then x else y) rfl (ite_ule x y x y),
    State.op2_runs (fun x y => if x.toNat ≤ y.toNat then y else x) rfl (ite_ule x y y x),
    State.op2_runs (fun x y => boolQuad (decide (x.toInt < y.toInt))) rfl rfl,
    State.op2_runs (fun x y => boolQuad (decide (x.toNat < y.toNat))) rfl rfl⟩

theorem integerDivision : integerDivisionRule := by
  intro s d a b u x y t
  exact ⟨State.op2_runs (quotient .i64) rfl (quotient_signed x y),
    State.op2_runs (quotient .n64) rfl (quotient_unsigned x y),
    State.op2_runs (remainder .i64) rfl (remainder_signed x y),
    State.op2_runs (remainder .n64) rfl (remainder_unsigned x y)⟩

theorem bitCounts : bitCountsRule := by
  intro s d a u x t
  obtain ⟨lead, above, first⟩ := leadingZeros_spec x
  obtain ⟨trail, below, last⟩ := ctzGo_spec x.toNat 64 0
  rw [Nat.zero_add] at trail last
  exact ⟨⟨_, lead, above, first, State.op1_runs (fun x => BitVec.ofNat 64 (leadingZeros x.toNat 64)) rfl rfl⟩,
    ⟨_, trail, fun i => below i (Nat.zero_le i), last,
      State.op1_runs (fun x => BitVec.ofNat 64 (ctzGo x.toNat 64 0)) rfl rfl⟩,
    State.op1_runs (fun x => BitVec.ofNat 64 (popCount x.toNat 64)) rfl (congrArg _ (popCount_quad x))⟩

/-- Settles O1: each instruction is `State.op2` or `State.op1` of its operation, which the lemmas above compute. -/
theorem integerOperations : Obligations.IntegerOperations := ⟨integerRegisterOperations, integerDivision, bitCounts⟩

end Sys2Proof.Machine
end

section
/-! SUPPORT. The shape of a product: the block of a tile, and what mshape, mstep and mwait answer (R80, R245 to R247). -/

namespace Sys2Proof.Machine

/-! ### Blocks of a tile (R245) -/

theorem cut32_eq (x : Quad) : cut32 x = if x.toNat < 2 ^ 32 then x.setWidth 32 else BitVec.allOnes 32 := by
  unfold cut32
  split
  · next small => rw [Nat.min_eq_left (by omega), BitVec.ofNat_toNat]
  · next large => rw [Nat.min_eq_right (by omega)]; rfl

theorem toNat_ofNat_min_byte {n : Nat} (low : n ≤ 128) (m : Nat) : (BitVec.ofNat 8 (min n m)).toNat = min n m := by
  rw [BitVec.toNat_ofNat]
  exact Nat.mod_eq_of_lt (by omega)

theorem MClass.limits_le (c : MClass) : (MClass.limits c).1 ≤ 128 ∧ (MClass.limits c).2 ≤ 128 := by
  cases c <;> decide

/-- Rows and columns in the form that mshape and mstep answer. -/
def blockQuad (rows cols : Nat) : Quad := BitVec.ofNat 64 (rows + 2 ^ 16 * cols)

theorem UserCsr.ragged_eq (c : UserCsr) : c.ragged =
    blockQuad (min c.mMg.toNat (c.mM.toNat - c.mi.toNat)) (min c.mNg.toNat (c.mN.toNat - c.nj.toNat)) := rfl

/-! ### mshape (R245) -/

/-- The user CSRs after mshape (R245). -/
def Hart.shapeCsr (h : Hart) (c : MClass) (a b e : SReg) : UserCsr :=
  { h.csr with
    mM := cut32 (h.getS a), mN := cut32 (h.getS b), mK := cut32 (h.getS e), mclass := c.code,
    mMg := BitVec.ofNat 8 (min (MClass.limits c).1 h.maxElems), mNg := BitVec.ofNat 8 (min (MClass.limits c).2 h.maxElems),
    mi := 0, nj := 0, kk := 0 }

theorem execMshape_eq (c : MClass) (d a b e : SReg) (s : State) :
    let u := s.needS [d, a, b, e]
    let h := u.hart
    let r := h.shapeCsr c a b e
    execMshape c d a b e s = .next (ranS { u with hart := { h with
      ct := h.ct ||| (h.taintS a ||| h.taintS b ||| h.taintS e), csr := r } } 8 d
      (if r.mM = 0 ∨ r.mN = 0 ∨ r.mMg = 0 then 0 else r.ragged) 0) := by
  unfold execMshape
  simp only [State.mapHart, Hart.setS_eq]
  rfl

/-- The granted block of a tile that begins at (0, 0). -/
theorem Hart.ragged_shapeCsr (h : Hart) (c : MClass) (a b e : SReg) : (h.shapeCsr c a b e).ragged =
    blockQuad (min (min (MClass.limits c).1 h.maxElems) (cut32 (h.getS a)).toNat)
      (min (min (MClass.limits c).2 h.maxElems) (cut32 (h.getS b)).toNat) := by
  obtain ⟨rows, cols⟩ := MClass.limits_le c
  rw [UserCsr.ragged_eq]
  simp only [Hart.shapeCsr, toNat_ofNat_min_byte rows, toNat_ofNat_min_byte cols]
  rfl

theorem Hart.shapeCsr_rows (h : Hart) (c : MClass) (a b e : SReg) :
    (h.shapeCsr c a b e).mMg = 0 ↔ min (MClass.limits c).1 h.maxElems = 0 := by
  rw [← BitVec.toNat_inj]
  exact Eq.congr_left (toNat_ofNat_min_byte (MClass.limits_le c).1 _)

theorem mshape_ran (s : State) (c : MClass) (d a b e : SReg) :
    let u := s.needS [d, a, b, e]
    let h := u.hart
    let rows := min (MClass.limits c).1 h.maxElems
    let cols := min (MClass.limits c).2 h.maxElems
    let m := cut32 (h.getS a)
    let n := cut32 (h.getS b)
    execMshape c d a b e s = .next (ranS { u with hart := { h with
      ct := h.ct ||| (h.taintS a ||| h.taintS b ||| h.taintS e), csr := h.shapeCsr c a b e } } 8 d
      (if m = 0 ∨ n = 0 ∨ rows = 0 then 0 else blockQuad (min rows m.toNat) (min cols n.toNat)) 0) := by
  intro u h rows cols m n
  rw [execMshape_eq, h.ragged_shapeCsr, if_congr (or_congr Iff.rfl (or_congr Iff.rfl (h.shapeCsr_rows c a b e))) rfl rfl]
  rfl

/-! ### mstep (R246) -/

/-- The row and the column at which the next tile begins: by columns, then by rows. -/
def UserCsr.nextRow (o : UserCsr) : Nat :=
  if o.mN.toNat ≤ o.nj.toNat + o.mNg.toNat then o.mi.toNat + o.mMg.toNat else o.mi.toNat
def UserCsr.nextCol (o : UserCsr) : Nat :=
  if o.mN.toNat ≤ o.nj.toNat + o.mNg.toNat then 0 else o.nj.toNat + o.mNg.toNat

/-- No tile is left. -/
abbrev UserCsr.PastLast (o : UserCsr) : Prop := o.mM.toNat ≤ o.nextRow ∨ o.mMg = 0

/-- The user CSRs after mstep. -/
def UserCsr.stepped (o : UserCsr) : UserCsr :=
  { o with kk := 0, mi := if o.PastLast then 0 else BitVec.ofNat 32 o.nextRow,
           nj := if o.PastLast then 0 else BitVec.ofNat 32 o.nextCol }

theorem UserCsr.stepped_eq (o : UserCsr) : o.stepped =
    { o with kk := 0, mi := BitVec.ofNat 32 (if o.PastLast then 0 else o.nextRow),
             nj := BitVec.ofNat 32 (if o.PastLast then 0 else o.nextCol) } := by
  rw [apply_ite (BitVec.ofNat 32), apply_ite (BitVec.ofNat 32)]
  rfl

theorem execMstep_eq (d : SReg) (s : State) :
    let w := s.needS [d]
    let o := w.hart.csr
    execMstep d s = .next (ranS { w with hart := { w.hart with csr := o.stepped } } 8 d
      (if o.PastLast then 0 else o.stepped.ragged) 0) := by
  have past : ∀ (p : Prop) [Decidable p] (x : Byte), (decide p || x == 0) = true ↔ p ∨ x = 0 := by simp
  unfold execMstep
  simp only [State.mapHart, Hart.setS_eq, past, decide_eq_true_eq]
  rw [UserCsr.stepped_eq]
  rfl

/-- A tile that is left begins within the product, at numbers of 32 bits. -/
theorem UserCsr.ragged_stepped {o : UserCsr} (left : ¬o.PastLast) : o.stepped.ragged =
    blockQuad (min o.mMg.toNat (o.mM.toNat - o.nextRow)) (min o.mNg.toNat (o.mN.toNat - o.nextCol)) := by
  have row : (BitVec.ofNat 32 o.nextRow).toNat = o.nextRow := by
    have below : ¬o.mM.toNat ≤ o.nextRow := fun h => left (.inl h)
    exact BitVec.toNat_ofNat .. ▸ Nat.mod_eq_of_lt (by omega)
  have col : (BitVec.ofNat 32 o.nextCol).toNat = o.nextCol := by
    have below : o.nextCol ≤ o.mN.toNat := by unfold UserCsr.nextCol; split <;> omega
    exact BitVec.toNat_ofNat .. ▸ Nat.mod_eq_of_lt (by omega)
  rw [UserCsr.ragged_eq]
  simp only [UserCsr.stepped, if_neg left, row, col]

theorem mstep_ran (s : State) (d : SReg) :
    let w := s.needS [d]
    let o := w.hart.csr
    execMstep d s = .next (ranS { w with hart := { w.hart with csr := o.stepped } } 8 d (if o.PastLast then 0 else
      blockQuad (min o.mMg.toNat (o.mM.toNat - o.nextRow)) (min o.mNg.toNat (o.mN.toNat - o.nextCol))) 0) := by
  intro w o
  rw [execMstep_eq]
  exact congrArg (fun x => Host.Outcome.next (ranS { w with hart := { w.hart with csr := o.stepped } } 8 d x 0))
    (ite_congr rfl (fun _ => rfl) fun left => UserCsr.ragged_stepped left)

/-! ### The instructions -/

theorem matrixShapeInstructions : matrixShapeInstructionsRule := by
  intro s c d a b e u h w o lim most cut m n rows cols block last mi nj done
  refine ⟨?shape, ?step⟩
  case shape =>
    have limits : lim = MClass.limits c := by cases c <;> rfl
    have cuts : ∀ x, cut32 x = cut x := cut32_eq
    refine (mshape_ran s c d a b e).trans ?_
    simp only [Hart.shapeCsr, cuts, ← limits]
    rfl
  case step => exact mstep_ran s d

theorem execMwait_eq (s : State) : execMwait s =
    if s.hart.thaw = true ∧ ∃ e ∈ s.hart.frozen, matrixWord e.word = true then .next (s.holdHart .matrix) else .next (ran s 8) := by
  unfold execMwait
  exact if_congr (by rw [Bool.and_eq_true, List.any_eq_true]) rfl rfl

theorem matrixWait : matrixWaitRule := fun s =>
  ⟨fun idle => (execMwait_eq s).trans (if_neg idle), fun waiting => (execMwait_eq s).trans (if_pos waiting)⟩

/-- Settles O40: mshape answers the block of its grant (`mshape_ran`), mstep that of the next tile (`mstep_ran`), and mwait is one
case distinction (`execMwait_eq`). -/
theorem matrixShapes : Obligations.MatrixShapes := ⟨matrixShapeInstructions, matrixWait⟩

end Sys2Proof.Machine
end

section
/-! SUPPORT. Vector memory instructions: what their beginning leaves alone, and the walk of their elements (R216 to R220). -/

namespace Sys2Proof.Machine
variable {s t u b : State}

/-! ### What performing accesses leaves of the checks (R26, R51) -/

theorem State.noLanes_of_steady (e : u.steady = s.steady) : u.hart.noLanes = s.hart.noLanes := congrArg (·.hart.noLanes) e
theorem State.nreg_of_steady (e : u.steady = s.steady) : u.hart.csr.nreg = s.hart.csr.nreg := congrArg (·.hart.csr.nreg) e
theorem State.gl_of_steady (e : u.steady = s.steady) : u.hart.csr.gl = s.hart.csr.gl := congrArg (·.hart.csr.gl) e
theorem State.w64_of_steady (e : u.steady = s.steady) : u.hart.csr.w64 = s.hart.csr.w64 := congrArg (·.hart.csr.w64) e
theorem State.frm_of_steady (e : u.steady = s.steady) : u.hart.csr.frm = s.hart.csr.frm := congrArg (·.hart.csr.frm) e

theorem VectorUnit.of_steady {vs : List VReg} (unit : VectorUnit s vs) (e : u.steady = s.steady) : VectorUnit u vs := by
  obtain ⟨groups, lanes, owned, named⟩ := unit
  unfold VectorUnit
  rw [State.g_of_steady e, State.noLanes_of_steady e, State.level_of_steady e, State.sup_of_steady e, State.nreg_of_steady e,
    State.gl_of_steady e]
  exact ⟨groups, lanes, owned, named⟩

theorem VectorUnit.subset {vs ws : List VReg} (unit : VectorUnit s vs) (h : ws ⊆ vs) : VectorUnit s ws :=
  ⟨unit.1, unit.2.1, unit.2.2.1, fun r hr => unit.2.2.2 r (h hr)⟩

theorem State.regOk_of_steady (e : u.steady = s.steady) (r : VReg) : u.hart.regOk r = s.hart.regOk r := by
  unfold Hart.regOk Hart.nregs Hart.group
  rw [State.nreg_of_steady e, State.gl_of_steady e]

/-- A stream register with another taint: a load that is performed may take tags from it (R128). -/
def Stream.tainted (q : Stream) (x : TaintSet) : Stream := { q with taint := x }

theorem State.stream_of_steady (e : u.steady = s.steady) (i : QReg) :
    ∃ x, u.hart.q[i.toNat] = Stream.tainted s.hart.q[i.toNat] x := by
  have same : u.hart.q.map (Stream.tainted · 0) = s.hart.q.map (Stream.tainted · 0) := congrArg (·.hart.q) e
  have bare : Stream.tainted u.hart.q[i.toNat] 0 = Stream.tainted s.hart.q[i.toNat] 0 := by
    simpa using congrArg (fun v : Vector Stream 16 => v[i.toNat]) same
  refine ⟨u.hart.q[i.toNat].taint, ?_⟩
  calc u.hart.q[i.toNat] = (Stream.tainted u.hart.q[i.toNat] 0).tainted u.hart.q[i.toNat].taint := rfl
    _ = Stream.tainted s.hart.q[i.toNat] u.hart.q[i.toNat].taint := by rw [bare]; rfl

theorem State.streamOk_of_steady (e : u.steady = s.steady) {q : Stream} {scale : Option Stream} (x : TaintSet)
    (h : s.streamOk q = .ok scale) : ∃ y, u.streamOk (q.tainted x) = .ok (scale.map (Stream.tainted · y)) := by
  obtain ⟨y, scaled⟩ := State.stream_of_steady e q.scq
  have named := State.regOk_of_steady e q.idx
  have tagged := State.tagOf_of_steady e q.idx
  refine ⟨y, ?_⟩
  unfold State.streamOk at h
  dsimp only at h
  split_ifs at h with kind idx tag sc ok
  all_goals
    cases h
    refine (if_neg kind).trans ((if_neg (named ▸ idx)).trans ((if_neg (tagged ▸ tag)).trans ?_))
  · have ok' : q.fmt.scalable = true ∧ (u.hart.q[q.scq.toNat].kind = 1 ∨ u.hart.q[q.scq.toNat].kind = 2) ∧
        u.hart.q[q.scq.toNat].fmt = .e8m0 := by rw [scaled]; exact ok
    exact (if_pos sc).trans ((if_pos ok').trans (congrArg (fun z => Except.ok (some z)) scaled))
  · exact if_neg sc

/-! ### The walk does not look at taints -/

theorem walkOf_tainted (u : State) (k : AccKind) (q : Stream) (scale : Option Stream) (mask : MaskOp) (x y : TaintSet) :
    walkOf u k (q.tainted x) (scale.map (Stream.tainted · y)) mask = walkOf u k q scale mask := by
  cases scale <;> rfl

theorem State.awaitElems_tainted (u : State) (k : AccKind) (q : Stream) (scale : Option Stream) (mask : MaskOp) (write : Bool)
    (x y : TaintSet) :
    u.awaitElems (q.tainted x) (scale.map (Stream.tainted · y))
      (walkOf u.clean k (q.tainted x) (scale.map (Stream.tainted · y)) mask).present write =
    u.awaitElems q scale (walkOf u.clean k q scale mask).present write := by
  cases scale <;> rfl

/-! ### A walk changes window buffers alone (R99) -/

/-- The states differ in the buffers of windows, and in the number of the next free value. -/
def Rebuffered (s t : State) : Prop :=
  ∃ (ws : Vector (Option Window) 32) (n : Nat), t = { s with hart := { s.hart with windows := ws }, free := n }

theorem Rebuffered.refl (s : State) : Rebuffered s s := ⟨s.hart.windows, s.free, rfl⟩

theorem Rebuffered.trans (h : Rebuffered s t) (k : Rebuffered t u) : Rebuffered s u := by
  obtain ⟨ws, n, rfl⟩ := h
  obtain ⟨ws', n', rfl⟩ := k
  exact ⟨ws', n', rfl⟩

theorem State.readAt_rebuffered (s : State) (l : Loc) (n : Nat) : Rebuffered s (s.readAt l n).2 := by
  unfold State.readAt
  split
  · exact .refl s
  · split
    · exact .refl s
    · exact ⟨_, _, rfl⟩

theorem State.readAux_rebuffered {a : BitVec 16} {x : Quad} {n l : Nat} {k : AccKind} {r : Nat × Bool × State}
    (h : s.readAux a x n l k = .ok r) : Rebuffered s r.2.2 := by
  unfold State.readAux at h
  split at h
  · cases h
  · split at h
    · cases h
    · cases h
      exact State.readAt_rebuffered ..

theorem State.walkLevel_rebuffered {a : BitVec 16} {k : AccKind} {x b : Quad} {p : Policy} {t : Option Quad} {l : Nat}
    {r : Walked × State} (h : s.walkLevel a k x b p t l = .ok r) : Rebuffered s r.2 := by
  unfold State.walkLevel at h
  split at h
  · cases h
  · cases h; exact .refl s
  · split at h
    · cases h; exact .refl s
    · split at h
      · cases h
      · next hr => cases h; exact State.readAux_rebuffered hr

theorem Walked.andThen_rebuffered {w : Walked} {f : State → Quad → Except ElemFail (Walked × State)}
    (hf : ∀ (t : State) x v, f t x = .ok v → Rebuffered t v.2) {r : Walked × State} (h : w.andThen s f = .ok r) :
    Rebuffered s r.2 := by
  unfold Walked.andThen at h
  split at h
  · cases h; exact .refl s
  · split at h
    · cases h
    · next hr => cases h; have k := hf _ _ _ hr; exact k

/-- A level of the walk, and the levels after it. -/
theorem walkLevel_andThen_rebuffered {x : Except ElemFail (Walked × State)} {f : State → Quad → Except ElemFail (Walked × State)}
    (hx : ∀ v, x = .ok v → Rebuffered s v.2) (hf : ∀ (t : State) x v, f t x = .ok v → Rebuffered t v.2) {r : Walked × State}
    (h : (match x with
      | .error e => (.error e : Except ElemFail (Walked × State))
      | .ok (w, t) => w.andThen t f) = .ok r) : Rebuffered s r.2 := by
  split at h
  · cases h
  · exact (hx _ rfl).trans (Walked.andThen_rebuffered hf h)

theorem State.dataIndex_rebuffered {a : BitVec 16} {k : AccKind} {q : Stream} {b : Quad} {idx : Nat → Quad} {j : Nat}
    {r : Walked × State} (h : s.dataIndex a k q b idx j = .ok r) : Rebuffered s r.2 := by
  have first : ∀ (t : State) x v, t.walkLevel a k x q.bound1 q.pol1 none 0 = .ok v → Rebuffered t v.2 :=
    fun _ _ _ => State.walkLevel_rebuffered
  unfold State.dataIndex at h
  dsimp only at h
  split_ifs at h
  · cases h; exact .refl s
  · exact first _ _ _ h
  · exact walkLevel_andThen_rebuffered (fun _ => State.walkLevel_rebuffered) first h
  · exact walkLevel_andThen_rebuffered (fun _ => State.walkLevel_rebuffered)
      (fun _ _ _ => walkLevel_andThen_rebuffered (fun _ => State.walkLevel_rebuffered) first) h

theorem State.readScale_rebuffered {a : BitVec 16} {k : AccKind} {sc : Option Stream} {d : Quad}
    {r : Option Byte × Bool × State} (h : s.readScale a k sc d = .ok r) : Rebuffered s r.2.2 := by
  unfold State.readScale at h
  split at h
  · cases h; exact .refl s
  · split at h
    · cases h
    · next hr => cases h; exact State.readAux_rebuffered hr

theorem State.element_rebuffered {a : BitVec 16} {k x : AccKind} {q : Stream} {sc : Option Stream} {b : Quad}
    {idx : Nat → Quad} {j : Nat} {r : Option Elem × Bool × State} (h : s.element a k x q sc b idx j = .ok r) :
    Rebuffered s r.2.2 := by
  unfold State.element at h
  split at h
  · cases h
  · next hd => cases h; exact State.dataIndex_rebuffered hd
  · next hd =>
    split at h
    · cases h
    · next hs =>
      split at h
      · cases h
      · cases h
        exact (State.dataIndex_rebuffered hd).trans (State.readScale_rebuffered hs)

theorem gather_rebuffered {f : State → Nat → Except ElemFail (Option Elem × Bool × State)}
    (hf : ∀ (t : State) j r, f t j = .ok r → Rebuffered t r.2.2) : ∀ (l : List Nat) (s : State), Rebuffered s (gather f s l).st
  | [], s => .refl s
  | j :: r, s => by
    unfold gather
    split
    · exact .refl s
    · next h => exact (hf _ _ _ h).trans (gather_rebuffered hf r _)

theorem walkOf_rebuffered (u : State) (k : AccKind) (q : Stream) (scale : Option Stream) (mask : MaskOp) :
    Rebuffered u (walkOf u k q scale mask).st := gather_rebuffered (fun _ _ _ => State.element_rebuffered) _ u

/-! ### The beginning of an instruction (R33, R127, R220) -/

theorem State.prepared_steady (s : State) (word : Quad) : (s.prepared word).steady = s.steady := by
  have go : ∀ (b : Bool) (rs : List VReg), (if b then (s.needV rs).drain else s.needV rs).steady = s.steady := by
    intro b rs
    cases b with
    | false => exact State.needV_steady s rs
    | true => exact (State.drain_steady _).trans (State.needV_steady s rs)
  unfold State.prepared
  dsimp only
  split
  case h_7 => rfl
  all_goals exact go _ _

theorem State.ready_steady {vs : List VReg} {ss : List SReg} (h : s.ready vs ss = .ok t) : t.steady = s.steady := by
  unfold State.ready at h
  dsimp only at h
  split_ifs at h
  cases h
  exact complete_steady s vs ss

theorem ok_of_unless {ε α : Type} {c : Prop} [Decidable c] {e : ε} {x : Except ε α} {a : α}
    (h : (if c then .error e else x) = .ok a) : x = .ok a := by
  split at h
  · cases h
  · exact h

theorem State.walkReady_steady {q : QReg} {m : MReg} (h : s.walkReady q m = .ok t) : t.steady = s.steady := by
  unfold State.walkReady at h
  dsimp only at h
  by_cases reads : (!s.hart.q[q.toNat].walks) = true
  · rw [if_pos reads] at h
    cases h; rfl
  · rw [if_neg reads] at h
    cases ok_of_unless (ok_of_unless h)
    exact State.drain_steady s

/-- A vector instruction runs at once where neither the queue nor a collective holds it, from the state in which it is
prepared. -/
theorem State.vector_prepared {body : State → Except Stop State} (queue : s.hart.queued = false)
    (collective : s.blockedVst = false) (runs : body (s.prepared s.hart.ir) = .ok u) :
    s.vector body = .next (ranV (s.prepared s.hart.ir) u 8 u.hart) := by
  have same := State.prepared_steady s s.hart.ir
  unfold State.vector State.vectorN
  rw [State.issueVector_runs queue collective runs]
  unfold ranV
  rw [State.ir_of_steady same, State.pc_of_steady same]
  simp [finish, State.done, State.nextSeq, State.mapHart, Hart.advance]

/-! ### Issuing accesses (R127) -/

theorem State.issue_eq {v : State} {g : Hart} (same : g.ref = v.hart.ref) (a : Access) :
    ({ v with hart := g } : State).issue a = { v with hart := { g with pend := queuedWith v g a } } := by
  have path : ({ v with hart := g } : State).pathOfSlice a.slice = v.pathOfSlice a.slice := by
    unfold State.pathOfSlice Hart.pkg
    dsimp only
    rw [same]
    rfl
  unfold State.issue queuedWith
  rw [path]
  rfl

theorem State.issue_all {v : State} : ∀ (l : List Access) {g : Hart}, g.ref = v.hart.ref →
    l.foldl State.issue { v with hart := g } = { v with hart := issuedAll v g l }
  | [], _, _ => rfl
  | a :: l, g, same => by
    rw [List.foldl_cons, State.issue_eq same]
    exact State.issue_all l (g := { g with pend := queuedWith v g a }) same

theorem State.issueAll_eq {v : State} {g : Hart} (same : g.ref = v.hart.ref) (mk : Elem → Access) (es : List Elem) :
    (v.setHart g).issueAll mk es = { v with hart := issuedAll v g (es.map mk) } := by
  unfold State.issueAll
  rw [← State.issue_all _ same, List.foldl_map]
  rfl

/-- What is issued joins the accesses of the hart in order, and changes no address. -/
theorem issuedAll_addrs (u : State) : ∀ (l : List Access) (g : Hart),
    (issuedAll u g l).pend.map (·.addr) = g.pend.map (·.addr) ++ l.map (·.addr)
  | [], g => (List.append_nil _).symm
  | a :: l, g => by
    refine (issuedAll_addrs u l { g with pend := queuedWith u g a }).trans ?_
    simp [queuedWith]

/-! ### What a destination is prepared by (R124, R185) -/

theorem Hart.allocTag_eq (h : Hart) :
    h.allocTag.1 = { h with tagBusy := h.allocTag.1.tagBusy, tag0Last := h.allocTag.1.tag0Last } := by
  unfold Hart.allocTag
  split
  · rfl
  · split <;> rfl

theorem Hart.clampBit_eq (h : Hart) (c : Bool) :
    h.clampBit c = { h with csr := { h.csr with vstat := (h.clampBit c).csr.vstat } } := by
  cases c <;> rfl

theorem Hart.setGroupData_frame (h : Hart) (r : VReg) (d : List Word) :
    h.setGroupData r d = { h with v := (h.setGroupData r d).v } := by
  have rest : ({ h.setGroupData r d with v := h.v } : Hart) = h := by
    unfold Hart.setGroupData
    split
    · rfl
    · exact foldl_keeps _ (fun x : Hart => ({ x with v := h.v } : Hart)) (by intros; rfl) _ _
  generalize h.setGroupData r d = g at rest ⊢
  calc g = { ({ g with v := h.v } : Hart) with v := g.v } := rfl
    _ = { h with v := g.v } := by rw [rest]

theorem Hart.prepare_eq (h : Hart) (vd : VReg) (t : Tag) (mask : MaskOp) (dropped : List Nat) (limit : Nat) (x : TaintSet) :
    h.prepare vd t mask dropped limit x =
      { h with v := (h.prepare vd t mask dropped limit x).v, csr := { h.csr with vlast := vd } } := by
  unfold Hart.prepare
  dsimp only
  rw [Hart.setGroupData_frame]

@[simp] theorem Hart.prepare_tagOf (h : Hart) (vd : VReg) (t : Tag) (mask : MaskOp) (dropped : List Nat) (limit : Nat)
    (x : TaintSet) : (h.prepare vd t mask dropped limit x).tagOf vd = t := by
  simp [Hart.prepare, Hart.tagOf]

@[simp] theorem Hart.prepare_taintV (h : Hart) (vd : VReg) (t : Tag) (mask : MaskOp) (dropped : List Nat) (limit : Nat)
    (x : TaintSet) : (h.prepare vd t mask dropped limit x).taintV vd = x := by
  simp [Hart.prepare, Hart.taintV]

theorem Hart.addNb_eq (h : Hart) (nb : Bool) (k : KReg) : h.addNb nb k = { h with
    k := (h.addNb nb k).k, nbs := (h.addNb nb k).nbs, csr := { h.csr with kstat := (h.addNb nb k).csr.kstat } } := by
  have counts : ∀ (l : List NbOp) (g : Hart), g = { h with k := g.k, nbs := g.nbs, csr := { h.csr with kstat := g.csr.kstat } } →
      l.foldl (fun h o => h.bumpK o.k) g = { h with
        k := (l.foldl (fun h o => h.bumpK o.k) g).k, nbs := (l.foldl (fun h o => h.bumpK o.k) g).nbs,
        csr := { h.csr with kstat := (l.foldl (fun h o => h.bumpK o.k) g).csr.kstat } } := by
    intro l
    induction l with
    | nil => exact fun g hg => hg
    | cons o l ih =>
      refine fun g hg => ih (g.bumpK o.k) ?_
      rw [hg]
      unfold Hart.bumpK
      dsimp only
      split <;> rfl
  cases nb with
  | false => rfl
  | true => exact counts _ _ rfl

end Sys2Proof.Machine
end

section
/-! SUPPORT and settling theorem. Vector loads through streams (R225 to R228). -/

namespace Sys2Proof.Machine
variable {s t u b v : State} {i : Instr} {o : VMem} {vs : List VReg} {scale : Option Stream} {r : Rnd}

/-- Where a vector memory instruction begins, the state in which it is prepared passes its checks, and what it waits for
is there. -/
theorem Begins.prepared (begins : Begins s u i vs o) (stream : s.streamOk s.hart.q[o.q.toNat] = .ok scale) :
    ∃ x y t, (s.prepared s.hart.ir).hart.q[o.q.toNat] = s.hart.q[o.q.toNat].tainted x ∧
      (s.prepared s.hart.ir).streamOk (s.hart.q[o.q.toNat].tainted x) = .ok (scale.map (Stream.tainted · y)) ∧
      VectorUnit (s.prepared s.hart.ir) (vs ++ s.hart.q[o.q.toNat].vregs) ∧
      (s.prepared s.hart.ir).ready (vs ++ s.hart.q[o.q.toNat].vregs) [] = .ok t ∧ t.walkReady o.q o.mask.m = .ok u := by
  obtain ⟨-, unit, -, -, t, ready, walk⟩ := begins
  have same := State.prepared_steady s s.hart.ir
  obtain ⟨x, named⟩ := State.stream_of_steady same o.q
  obtain ⟨y, ok⟩ := State.streamOk_of_steady same x stream
  exact ⟨x, y, t, named, ok, VectorUnit.of_steady unit same, ready, walk⟩

theorem Begins.steady (begins : Begins s u i vs o) : u.steady = s.steady := by
  obtain ⟨-, -, -, -, t, ready, walk⟩ := begins
  exact (State.walkReady_steady walk).trans ((State.ready_steady ready).trans (State.prepared_steady s _))

/-- A walk leaves the hart its lane groups. -/
theorem Begins.walked_g (begins : Begins s u i vs o) (k : AccKind) (q : Stream) (scale : Option Stream) :
    (walkOf u k q scale o.mask).st.hart.g ≠ 0 := by
  obtain ⟨ws, n, same⟩ := walkOf_rebuffered u k q scale o.mask
  rw [same]
  exact (State.g_of_steady (Begins.steady begins)).symm ▸ begins.2.1.1

/-! ### What a load leaves of its hart, and its accesses -/

/-- The access of an element of a load that hart h issues. -/
def Hart.loadAccess (h : Hart) (o : VMem) (q : Stream) (r : Rnd) (e : Elem) : Access :=
  let dst := LoadDst.v o.dst e.j q.fmt (e.d.getLsbD 0) e.scale r o.sat
  { seq := h.seq, queue := 1 + e.j / 8 % h.g, slice := e.loc.slice, addr := e.loc.phys, size := q.fmt.bytes,
    op := match e.loc.slot with
      | some i => .loadWindow i dst
      | none => .load dst,
    held := h.taintStream o.q ||| h.taintM o.mask.m, tag := some h.allocTag.2, nb := o.nb, via := e.loc.via, shown := e.loc.shown }

/-- Hart h, with a tag for the load and its vl as given, once the destination is prepared. -/
def Hart.loadPrepared (h : Hart) (o : VMem) (q : Stream) (g : Gathered) (vl : Nat) (limit : Nat) : Hart :=
  (({ h.allocTag.1 with csr := { h.allocTag.1.csr with vl := BitVec.ofNat 32 vl } } : Hart).prepare o.dst q.fmt.tag o.mask g.dropped
    limit (tagBit h.allocTag.2 ||| (h.taintStream o.q ||| h.taintM o.mask.m))).clampBit g.clamped

/-- The state in which a load whose walk is g has issued its accesses. -/
def Gathered.loaded (g : Gathered) (o : VMem) (q : Stream) (r : Rnd) (vl : Nat) : State :=
  let h := g.st.hart
  { g.st with hart := issuedAll g.st (h.loadPrepared o q g vl h.maxElems) (g.present.map (h.loadAccess o q r)) }

theorem Hart.loadPrepared_eq (h : Hart) (o : VMem) (q : Stream) (g : Gathered) (vl limit : Nat) :
    h.loadPrepared o q g vl limit = { h with
      v := (h.loadPrepared o q g vl limit).v, tagBusy := h.allocTag.1.tagBusy, tag0Last := h.allocTag.1.tag0Last,
      csr := { h.csr with vl := BitVec.ofNat 32 vl, vlast := o.dst, vstat := (h.loadPrepared o q g vl limit).csr.vstat } } := by
  unfold Hart.loadPrepared
  rw [Hart.clampBit_eq, Hart.prepare_eq, Hart.allocTag_eq]

/-- `loadAccess` is the access that the model makes, with the tag taken and the queue of a hart that has lane groups. -/
theorem Hart.loadAccess_eq {h : Hart} (groups : h.g ≠ 0) (o : VMem) (q : Stream) (r : Rnd) :
    (fun e : Elem =>
      let h' : Hart := h.allocTag.1
      ({ seq := h'.seq, queue := h'.queueOf e.j, slice := e.loc.slice, addr := e.loc.phys, size := q.fmt.bytes,
         op := State.vload.loadVia e.loc (.v o.dst e.j q.fmt (decide (e.d.toNat % 2 = 1)) e.scale r o.sat),
         held := h.taintStream o.q ||| h.taintM o.mask.m, tag := some h.allocTag.2, nb := o.nb, via := e.loc.via,
         shown := e.loc.shown } : Access)) = h.loadAccess o q r := by
  have queue : ∀ j, h.allocTag.1.queueOf j = 1 + j / 8 % h.g := fun j => by
    rw [Hart.allocTag_eq]; exact if_neg groups
  have odd : ∀ d : Quad, decide (d.toNat % 2 = 1) = d.getLsbD 0 := fun d => by simp [BitVec.getLsbD, Nat.testBit]; grind
  have seq : h.allocTag.1.seq = h.seq := by rw [Hart.allocTag_eq]
  funext e
  unfold Hart.loadAccess State.vload.loadVia
  simp only [queue, odd, seq] <;> rfl

theorem Gathered.issueAll_loaded {g : Gathered} (groups : g.st.hart.g ≠ 0) (o : VMem) (q : Stream) (r : Rnd) (vl : Nat) :
    (g.st.setHart (g.st.hart.loadPrepared o q g vl g.st.hart.allocTag.1.maxElems)).issueAll
      (fun e : Elem =>
        let h' : Hart := g.st.hart.allocTag.1
        ({ seq := h'.seq, queue := h'.queueOf e.j, slice := e.loc.slice, addr := e.loc.phys, size := q.fmt.bytes,
           op := State.vload.loadVia e.loc (.v o.dst e.j q.fmt (decide (e.d.toNat % 2 = 1)) e.scale r o.sat),
           held := g.st.hart.taintStream o.q ||| g.st.hart.taintM o.mask.m, tag := some g.st.hart.allocTag.2, nb := o.nb,
           via := e.loc.via, shown := e.loc.shown } : Access)) g.present = g.loaded o q r vl := by
  rw [Hart.loadAccess_eq groups, State.issueAll_eq (by rw [Hart.loadPrepared_eq]), Hart.allocTag_eq]
  rfl

/-! ### The runs of a load -/

theorem Gathered.of_passed {g : Gathered} {α : Type} {a : α} {f : Nat → ElemFail → α} (h : g.fail = none) :
    (match g.fail with | none => a | some (j, e) => f j e) = a := by
  rw [h]

theorem Gathered.of_failed {g : Gathered} {α : Type} {a : α} {f : Nat → ElemFail → α} {j : Nat} {e : ElemFail}
    (h : g.fail = some (j, e)) : (match g.fail with | none => a | some (j, e) => f j e) = f j e := by
  rw [h]

/-- Load i begins at `u`: it passes the checks of its stream and its shape, it rounds by `r`, its elements wait for nothing,
and their walk is `g`. -/
structure LoadBegins (s u : State) (i : Instr) (o : VMem) (r : Rnd) (scale : Option Stream) (g : Gathered) : Prop where
  begins : Begins s u i [o.dst] o
  stream : s.streamOk s.hart.q[o.q.toNat] = .ok scale
  fits : s.hart.q[o.q.toNat].fmt.tag.wide = true → s.hart.csr.w64 = true
  mode : (if s.hart.q[o.q.toNat].sc then o.rm.resolve s.hart.csr.frm else some .rne) = some r
  free : u.awaitElems s.hart.q[o.q.toNat] scale (walkOf u.clean .read s.hart.q[o.q.toNat] scale o.mask).present false = .ok ()
  walked : walkOf u .read s.hart.q[o.q.toNat] scale o.mask = g

theorem LoadBegins.preLoad {g : Gathered} (l : LoadBegins s u i o r scale g) : (s.prepared s.hart.ir).preLoad o = .ok r := by
  have same := State.prepared_steady s s.hart.ir
  have mode := l.mode
  obtain ⟨x, y, t, named, -, unit, -, -⟩ := Begins.prepared l.begins l.stream
  unfold State.preLoad
  dsimp only
  rw [named, State.checks6_ok (VectorUnit.subset unit (by simp))
    (by rw [State.w64_of_steady same]; simpa [Stream.tainted] using l.fits)]
  unfold State.loadRounding Stream.tainted
  dsimp only
  split at mode
  · next sc => exact (if_pos sc).trans (State.rounding_of (State.frm_of_steady same ▸ mode))
  · next sc => cases mode; exact if_neg sc

theorem LoadBegins.vload_passes {g : Gathered} (l : LoadBegins s u i o r scale g) (ff : Bool) (passes : g.fail = none) :
    (s.prepared s.hart.ir).vload o ff =
      .ok ((g.loaded o s.hart.q[o.q.toNat] r g.st.hart.vl).mapHart (·.addNb o.nb o.k)) := by
  obtain ⟨x, y, t, named, ok, unit, ready, walk⟩ := Begins.prepared l.begins l.stream
  have groups : g.st.hart.g ≠ 0 := l.walked ▸ Begins.walked_g l.begins .read _ _
  have free := (State.awaitElems_tainted u .read _ scale o.mask false x y).trans l.free
  obtain rfl := (walkOf_tainted u .read _ scale o.mask x y).trans l.walked
  unfold State.vload
  refine (bind_of_ok l.preLoad _).trans ?_
  rw [named]
  refine (bind_of_ok ok _).trans ((bind_of_ok ready _).trans ((bind_of_ok walk _).trans
    ((bind_of_ok free _).trans ((Gathered.of_passed passes).trans ?_))))
  have issued := Gathered.issueAll_loaded groups o (s.hart.q[o.q.toNat].tainted x) r
    (walkOf u .read (s.hart.q[o.q.toNat].tainted x) (scale.map (Stream.tainted · y)) o.mask).st.hart.allocTag.1.vl
  refine (congrArg (fun t : State => Except.ok (t.mapHart (·.addNb o.nb o.k))) issued).trans ?_
  rw [Hart.allocTag_eq]
  rfl

/-- The state in which a load that element j shortens has issued its accesses: vstat bit 3 is set (R228). -/
def Gathered.shortened (g : Gathered) (o : VMem) (q : Stream) (r : Rnd) (j : Nat) : State :=
  (g.loaded o q r j).mapHart fun h => { h with csr := { h.csr with vstat := h.csr.vstat ||| 8 } }

theorem Hart.allocTag_active (h : Hart) (mask : MaskOp) (j : Nat) : h.allocTag.1.active mask j = h.active mask j := by
  rw [Hart.allocTag_eq]; rfl

/-- vldff that meets a missing translation after its first active element shortens vl to the failing element (R228). -/
theorem LoadBegins.vload_shortens {g : Gathered} (l : LoadBegins s u i o r scale g) {j lv : Nat} {f : Fail} {k : AccKind} {c : Bool}
    (fails : g.fail = some (j, ⟨.inl f, lv, k, c⟩)) (cause : f.cause = 0x08)
    (before : ∃ i, i < j ∧ g.st.hart.active o.mask i = true) :
    let v := g.shortened o s.hart.q[o.q.toNat] r j
    (s.prepared s.hart.ir).vload o true = .ok (v.logFail v.hart f true k) := by
  obtain ⟨x, y, t, named, ok, unit, ready, walk⟩ := Begins.prepared l.begins l.stream
  have groups : g.st.hart.g ≠ 0 := l.walked ▸ Begins.walked_g l.begins .read _ _
  have free := (State.awaitElems_tainted u .read _ scale o.mask false x y).trans l.free
  have earlier : (true && f.cause == 0x08 && (List.range j).any (g.st.hart.allocTag.1.active o.mask)) = true := by
    obtain ⟨i, hi, act⟩ := before
    simpa [cause, Hart.allocTag_active] using ⟨i, hi, act⟩
  obtain rfl := (walkOf_tainted u .read _ scale o.mask x y).trans l.walked
  unfold State.vload
  refine (bind_of_ok l.preLoad _).trans ?_
  rw [named]
  refine (bind_of_ok ok _).trans ((bind_of_ok ready _).trans ((bind_of_ok walk _).trans
    ((bind_of_ok free _).trans ((Gathered.of_failed fails).trans ((if_pos earlier).trans ?_)))))
  have issued := Gathered.issueAll_loaded groups o (s.hart.q[o.q.toNat].tainted x) r j
  exact congrArg (fun t : State => Except.ok (State.logFail
    (t.mapHart fun h => { h with csr := { h.csr with vstat := h.csr.vstat ||| 8 } })
    { t.hart with csr := { t.hart.csr with vstat := t.hart.csr.vstat ||| 8 } } f true k)) issued

/-! ### What a shortened load leaves -/

/-- An append to a ring may wake the hart, and changes nothing else of it. -/
theorem State.ringAppend_hart (s : State) (blk base lo hi : Nat) (record : List Quad) :
    ∃ st, (s.ringAppend blk base lo hi record).hart = { s.hart with status := st } := by
  unfold State.ringAppend
  dsimp only
  split
  · exact ⟨_, rfl⟩
  · exact State.wakeLine_hart _ _ 0

theorem State.logFail_hart (s : State) (h : Hart) (f : Fail) (passed : Bool) (k : AccKind) :
    ∃ st, (s.logFail h f passed k).hart = { s.hart with status := st } := by
  unfold State.logFail
  split
  · exact ⟨_, rfl⟩
  · dsimp only
    split
    · exact ⟨_, rfl⟩
    · exact State.ringAppend_hart ..

theorem State.logFail_homeless (s : State) (h : Hart) {f : Fail} (homeless : f.home = none) (passed : Bool) (k : AccKind) :
    s.logFail h f passed k = s := by
  unfold State.logFail
  rw [homeless]

theorem walkOf_mem (u : State) (k : AccKind) (q : Stream) (scale : Option Stream) (mask : MaskOp) :
    (walkOf u k q scale mask).st.mem = u.mem := by
  obtain ⟨ws, n, same⟩ := walkOf_rebuffered u k q scale mask
  rw [same]

@[simp] theorem Hart.clampBit_tagOf (h : Hart) (c : Bool) (r : VReg) : (h.clampBit c).tagOf r = h.tagOf r := by
  rw [Hart.clampBit_eq]; rfl

/-- The accesses of a load do not see how its destination is prepared. -/
theorem issuedAll_loadPrepared (u : State) (h : Hart) (o : VMem) (q : Stream) (g : Gathered) (vl limit : Nat) (l : List Access) :
    (issuedAll u (h.loadPrepared o q g vl limit) l).pend = (issuedAll u h l).pend := by
  rw [Hart.loadPrepared_eq]
  rfl

theorem Gathered.shortened_hart (g : Gathered) (o : VMem) (q : Stream) (r : Rnd) (j : Nat) :
    (g.shortened o q r j).hart = { g.st.hart with
      v := (g.shortened o q r j).hart.v, tagBusy := g.st.hart.allocTag.1.tagBusy, tag0Last := g.st.hart.allocTag.1.tag0Last,
      csr := { g.st.hart.csr with
        vl := BitVec.ofNat 32 j, vlast := o.dst, vstat := (g.shortened o q r j).hart.csr.vstat },
      pend := (issuedAll g.st g.st.hart (g.present.map (g.st.hart.loadAccess o q r))).pend } := by
  rw [← issuedAll_loadPrepared _ _ o q g j g.st.hart.maxElems]
  unfold Gathered.shortened Gathered.loaded State.mapHart issuedAll
  dsimp only
  rw [Hart.loadPrepared_eq]

theorem Gathered.shortened_vstat (g : Gathered) (o : VMem) (q : Stream) (r : Rnd) (j : Nat) :
    (g.shortened o q r j).hart.csr.vstat.getLsbD 3 = true := by
  simp [Gathered.shortened, State.mapHart]

theorem Gathered.shortened_tagOf (g : Gathered) (o : VMem) (q : Stream) (r : Rnd) (j : Nat) :
    (g.shortened o q r j).hart.tagOf o.dst = q.fmt.tag :=
  (Hart.clampBit_tagOf ..).trans (Hart.prepare_tagOf ..)

/-! ### Settling O34 -/

/-- A load that is not shortened leaves vl. -/
theorem Gathered.loaded_vl (g : Gathered) (o : VMem) (q : Stream) (r : Rnd) : g.loaded o q r g.st.hart.vl =
    let h := g.st.hart
    { g.st with
      hart := issuedAll g.st
        ((h.allocTag.1.prepare o.dst q.fmt.tag o.mask g.dropped h.maxElems
          (tagBit h.allocTag.2 ||| (h.taintStream o.q ||| h.taintM o.mask.m))).clampBit g.clamped)
        (g.present.map (h.loadAccess o q r)) } := by
  have same : BitVec.ofNat 32 g.st.hart.vl = g.st.hart.allocTag.1.csr.vl := by
    rw [Hart.allocTag_eq]
    exact (BitVec.ofNat_toNat ..).trans (BitVec.setWidth_eq _)
  unfold Gathered.loaded Hart.loadPrepared
  rw [same]

/-- Settles O34: the walk's elements issue in order (`LoadBegins.vload_passes`), or up to the one that shortens the load
(`LoadBegins.vload_shortens`), from the state in which the load is prepared. -/
theorem vectorLoads : Obligations.VectorLoads := by
  intro s u o r scale q t b g v h taint tag acc stream fits mode free
  have load : ∀ {i}, Begins s u i [o.dst] o → LoadBegins s u i o r scale g :=
    fun begins => ⟨begins, stream, fits, mode, free, rfl⟩
  refine ⟨fun passes i listed begins => ?_, fun j f k lv c begins fails cause before => ?_⟩
  · have ⟨_, _, queue, collective, _⟩ := begins
    have runs (ff : Bool) := State.vector_prepared (body := (·.vload o ff)) queue collective ((load begins).vload_passes ff passes)
    rw [Gathered.loaded_vl] at runs
    rcases List.mem_pair.1 listed with rfl | rfl
    · exact runs false
    · exact runs true
  · have ⟨_, _, queue, collective, _⟩ := begins
    have runs := State.vector_prepared (body := (·.vload o true)) queue collective ((load begins).vload_shortens fails cause before)
    let z := g.shortened o q r j
    obtain ⟨st, woken⟩ := State.logFail_hart z z.hart f true k
    have left := ranV_hart b (z.logFail z.hart f true k) 8 (z.logFail z.hart f true k).hart
    refine ⟨_, runs, fun homeless => ?_, ?_, ?_, ?_⟩
    · rw [ranV_mem, State.logFail_homeless _ _ homeless]
      exact walkOf_mem ..
    · rw [left, woken]
      exact g.shortened_vstat o q r j
    · rw [left, woken]
      unfold Hart.tagOf
      exact g.shortened_tagOf o q r j
    · rw [left, woken, g.shortened_hart o q r j]
      rfl

end Sys2Proof.Machine
end

section
/-! SUPPORT and settling theorem. Vector stores and exchanges through streams (R225, R226, R230). -/

namespace Sys2Proof.Machine
variable {s t u b v : State} {i : Instr} {o : VMem} {vs : List VReg} {scale : Option Stream} {r : Rnd} {g : Gathered}

theorem State.storeRounding_of {t : Tag} {fmt : MemFmt} {rm : RMode}
    (mode : (if t.isF ∧ fmt ≠ .f64 ∧ ¬(t = .f32 ∧ fmt = .f32) then rm.resolve s.hart.csr.frm else some .rne) = some r) :
    s.storeRounding t fmt rm = .ok r := by
  unfold State.storeRounding
  split at mode
  · next rounds => exact (if_pos (by simpa [and_assoc, imp_iff_not_or] using rounds)).trans (State.rounding_of mode)
  · next copies =>
    cases mode
    exact if_neg (by simpa [and_assoc, imp_iff_not_or] using copies)

/-- A store rounds in the state in which it is prepared as where it begins. -/
theorem State.storeRounding_prepared (word : Quad) {fmt : MemFmt} {rm : RMode} {d : VReg}
    (mode : (if (s.hart.tagOf d).isF ∧ fmt ≠ .f64 ∧ ¬(s.hart.tagOf d = .f32 ∧ fmt = .f32) then rm.resolve s.hart.csr.frm
      else some .rne) = some r) : (s.prepared word).storeRounding (s.hart.tagOf d) fmt rm = .ok r :=
  State.storeRounding_of (State.frm_of_steady (State.prepared_steady s word) ▸ mode)

/-! ### The runs of a store -/

theorem clearMarks_length (ws : List (Nat × Nat)) : (clearMarks ws).length = ws.length := by
  have go : ∀ (c : Nat → Bool) (l : List (Nat × Nat)), (clearMarks.go c l).length = l.length := by
    intro c l
    induction l with
    | nil => rfl
    | cons w l ih => exact congrArg (· + 1) ih
  exact go _ ws

theorem map_zip_fst {α β γ : Type} {l : List α} {m : List β} (h : l.length ≤ m.length) (f : α → γ) :
    (l.zip m).map (fun p => f p.1) = l.map f := by
  rw [← List.map_fst_zip h, List.map_map, List.map_fst_zip h]
  rfl

theorem Hart.storeAccesses_addr (h : Hart) (o : VMem) (q : Stream) (t : Tag) (r : Rnd) (x : TaintSet) (es : List Elem) :
    (h.storeAccesses o q t r x es).1.map (·.addr) = es.map (·.loc.phys) := by
  unfold Hart.storeAccesses
  refine List.map_map.trans ((map_zip_fst ?_ (fun v : Elem × Nat × FFlags => v.1.loc.phys)).trans List.map_map)
  simp [clearMarks_length]

theorem Hart.mem_storeAccesses {h : Hart} {o : VMem} {q : Stream} {t : Tag} {r : Rnd} {x : TaintSet} {es : List Elem} {a : Access}
    (ha : a ∈ (h.storeAccesses o q t r x es).1) : a.size = q.fmt.bytes ∧ a.seq = h.seq ∧ a.held = x := by
  obtain ⟨p, -, rfl⟩ := List.mem_map.1 ha
  exact ⟨rfl, rfl, rfl⟩

theorem Begins.vst_passes (begins : Begins s u (.vst o) [o.data] o) (stream : s.streamOk s.hart.q[o.q.toNat] = .ok scale)
    (accepts : s.hart.q[o.q.toNat].fmt.accepts (s.hart.tagOf o.data) = true)
    (mode : (s.prepared s.hart.ir).storeRounding (s.hart.tagOf o.data) s.hart.q[o.q.toNat].fmt o.rm = .ok r)
    (free : u.awaitElems s.hart.q[o.q.toNat] scale (walkOf u.clean .write s.hart.q[o.q.toNat] scale o.mask).present true = .ok ())
    (walked : walkOf u .write s.hart.q[o.q.toNat] scale o.mask = g) (passes : g.fail = none) :
    let h := g.st.hart
    let stores := h.storeAccesses o s.hart.q[o.q.toNat] (s.hart.tagOf o.data) r
      (h.taintStream o.q ||| h.taintM o.mask.m ||| h.taintV o.data) g.present
    vecVst o (s.prepared s.hart.ir) = .ok { g.st with
      hart := (issuedAll g.st ((h.clampBit g.clamped).addFlags stores.2) stores.1).addNb o.nb o.k } := by
  intro h stores
  obtain ⟨x, y, t, named, ok, unit, ready, walk⟩ := Begins.prepared begins stream
  have tagged := State.tagOf_of_steady (State.prepared_steady s s.hart.ir) o.data
  have free := (State.awaitElems_tainted u .write _ scale o.mask true x y).trans free
  have pre : (s.prepared s.hart.ir).preStore o = .ok r := by
    unfold State.preStore
    rw [named, tagged, State.checks6_ok (VectorUnit.subset unit (by simp)) (by simp)]
    exact mode
  obtain rfl := (walkOf_tainted u .write _ scale o.mask x y).trans walked
  unfold vecVst
  refine (bind_of_ok pre _).trans ?_
  rw [named, tagged]
  refine (bind_of_ok ok _).trans ((bind_of_ok (if_pos accepts : State.tagOk _ _ = .ok ()) _).trans ((bind_of_ok ready _).trans
    ((bind_of_ok walk _).trans ((bind_of_ok free _).trans ((Gathered.of_passed passes).trans ?_)))))
  have issued := State.issue_all (v := (walkOf u .write (s.hart.q[o.q.toNat].tainted x) (scale.map (Stream.tainted · y)) o.mask).st)
    stores.1 (g := (h.clampBit (walkOf u .write (s.hart.q[o.q.toNat].tainted x) (scale.map (Stream.tainted · y)) o.mask).clamped).addFlags
      stores.2) (by rw [Hart.clampBit_eq]; rfl)
  exact congrArg (fun t : State => Except.ok (t.mapHart (·.addNb o.nb o.k))) issued

/-! ### The runs of an exchange -/

@[simp] theorem Hart.addNb_tagOf (h : Hart) (nb : Bool) (k : KReg) (d : VReg) : (h.addNb nb k).tagOf d = h.tagOf d := by
  rw [Hart.addNb_eq]; rfl

@[simp] theorem Hart.addNb_taintV (h : Hart) (nb : Bool) (k : KReg) (d : VReg) : (h.addNb nb k).taintV d = h.taintV d := by
  rw [Hart.addNb_eq]; rfl

@[simp] theorem Hart.addNb_pend (h : Hart) (nb : Bool) (k : KReg) : (h.addNb nb k).pend = h.pend := by
  rw [Hart.addNb_eq]

/-- The elements of an exchange with their data, and the flags of narrowing it. -/
def Hart.exchanged (h : Hart) (o : VMem) (q : Stream) (t : Tag) (r : Rnd) (es : List Elem) : List (Elem × Nat × FFlags) :=
  es.map fun e => (e, narrow q.fmt t none r o.sat ((h.streamData o.data t h.vl).getD e.j 0))

/-- The access of an element of an exchange that hart h issues, with the tag and the taint of the instruction. -/
def Hart.exchangeAccess (h : Hart) (o : VMem) (q : Stream) (tag : BitVec 4) (x : TaintSet) (v : Elem × Nat × FFlags) : Access :=
  let e := v.1
  { seq := h.seq, queue := h.queueOf e.j, slice := e.loc.slice, addr := e.loc.phys, size := q.fmt.bytes,
    op := .exchange v.2.1 (.v o.dst e.j q.fmt (decide (e.d.toNat % 2 = 1)) none .rne false),
    held := x, tag := some tag, nb := o.nb, train := trainOf h.seq e.loc.slice, via := e.loc.via, shown := e.loc.shown }

/-- Hart h, with a tag for the exchange, once the destination is prepared and the flags are raised. -/
def Hart.exchangePrepared (h : Hart) (o : VMem) (q : Stream) (g : Gathered) (x : TaintSet) (vals : List (Elem × Nat × FFlags)) : Hart :=
  ((h.allocTag.1.prepare o.dst q.fmt.tag o.mask g.dropped h.allocTag.1.maxElems (tagBit h.allocTag.2 ||| x)).clampBit
    g.clamped).addFlags (vals.foldl (fun acc v => acc ||| v.2.2) 0)

/-- The state in which an exchange whose walk is g has issued its accesses. -/
def Gathered.exchanged (g : Gathered) (o : VMem) (q : Stream) (vals : List (Elem × Nat × FFlags)) : State :=
  let h := g.st.hart
  let x := h.taintStream o.q ||| h.taintM o.mask.m ||| h.taintV o.data
  let p := h.exchangePrepared o q g x vals
  { g.st with hart := issuedAll g.st p (vals.map (p.exchangeAccess o q h.allocTag.2 x)) }

theorem Hart.addFlags_eq (h : Hart) (f : FFlags) :
    h.addFlags f = { h with csr := { h.csr with fflags := (h.addFlags f).csr.fflags } } := rfl

theorem Hart.exchangePrepared_eq (h : Hart) (o : VMem) (q : Stream) (g : Gathered) (x : TaintSet) (vals : List (Elem × Nat × FFlags)) :
    let p := h.exchangePrepared o q g x vals
    p = { h with
      v := p.v, tagBusy := h.allocTag.1.tagBusy, tag0Last := h.allocTag.1.tag0Last,
      csr := { h.csr with vlast := o.dst, vstat := p.csr.vstat, fflags := p.csr.fflags } } := by
  unfold Hart.exchangePrepared
  rw [Hart.addFlags_eq, Hart.clampBit_eq, Hart.prepare_eq, Hart.allocTag_eq]

theorem Gathered.exchanged_hart (g : Gathered) (o : VMem) (q : Stream) (vals : List (Elem × Nat × FFlags)) :
    let p := (g.exchanged o q vals).hart
    p = { g.st.hart with
      v := p.v, tagBusy := g.st.hart.allocTag.1.tagBusy, tag0Last := g.st.hart.allocTag.1.tag0Last, pend := p.pend,
      csr := { g.st.hart.csr with vlast := o.dst, vstat := p.csr.vstat, fflags := p.csr.fflags } } := by
  unfold Gathered.exchanged issuedAll
  dsimp only
  rw [Hart.exchangePrepared_eq]

/-- The counters count an exchange only as it goes on. -/
theorem Gathered.exchanged_counters (g : Gathered) (o : VMem) (q : Stream) (vals : List (Elem × Nat × FFlags)) :
    let p := (g.exchanged o q vals).hart
    p.k = g.st.hart.k ∧ p.nbs = g.st.hart.nbs ∧ p.csr.kstat = g.st.hart.csr.kstat := by
  rw [Gathered.exchanged_hart]
  exact ⟨rfl, rfl, rfl⟩

theorem Gathered.exchanged_tagOf (g : Gathered) (o : VMem) (q : Stream) (vals : List (Elem × Nat × FFlags)) :
    (g.exchanged o q vals).hart.tagOf o.dst = q.fmt.tag :=
  (Hart.clampBit_tagOf ..).trans (Hart.prepare_tagOf ..)

@[simp] theorem Hart.clampBit_taintV (h : Hart) (c : Bool) (r : VReg) : (h.clampBit c).taintV r = h.taintV r := by
  rw [Hart.clampBit_eq]; rfl

theorem Gathered.exchanged_taintV (g : Gathered) (o : VMem) (q : Stream) (vals : List (Elem × Nat × FFlags)) :
    (g.exchanged o q vals).hart.taintV o.dst = tagBit g.st.hart.allocTag.2 |||
      (g.st.hart.taintStream o.q ||| g.st.hart.taintM o.mask.m ||| g.st.hart.taintV o.data) :=
  (Hart.clampBit_taintV ..).trans (Hart.prepare_taintV ..)

/-- An exchange issues one access for each element, in the order of the walk. -/
theorem Gathered.exchanged_addrs (g : Gathered) (o : VMem) (q : Stream) {vals : List (Elem × Nat × FFlags)}
    (elems : vals.map Prod.fst = g.present) :
    (g.exchanged o q vals).hart.pend.map (·.addr) = g.st.hart.pend.map (·.addr) ++ g.present.map (·.loc.phys) := by
  refine (issuedAll_addrs ..).trans (congrArg₂ (· ++ ·) ?_ ?_)
  · rw [Hart.exchangePrepared_eq]
  · rw [← elems, List.map_map, List.map_map]
    rfl

/-- `exchanged` is what the model makes of a walk that passes. -/
theorem Gathered.issue_exchanged {g : Gathered} (passes : g.fail = none) (o : VMem) (q : Stream)
    (vals : List (Elem × Nat × FFlags)) :
    let h := g.st.hart
    let x := h.taintStream o.q ||| h.taintM o.mask.m ||| h.taintV o.data
    let limit := match g.fail with
      | none => h.allocTag.1.maxElems
      | some (j, _) => j
    let p := ((h.allocTag.1.prepare o.dst q.fmt.tag o.mask g.dropped limit (tagBit h.allocTag.2 ||| x)).clampBit g.clamped).addFlags
      (vals.foldl (fun acc v => acc ||| v.2.2) 0)
    vals.foldl (fun s v => s.issue (p.exchangeAccess o q h.allocTag.2 x v)) (g.st.setHart p) = g.exchanged o q vals := by
  intro h x limit p
  have same : p = h.exchangePrepared o q g x vals := by
    simp only [p, limit, passes]
    rfl
  rw [same, ← List.foldl_map]
  exact State.issue_all _ (by rw [Hart.exchangePrepared_eq])

theorem Begins.vchg_passes (begins : Begins s u (.vchg o) [o.dst, o.data] o) (stream : s.streamOk s.hart.q[o.q.toNat] = .ok scale)
    (unscaled : s.hart.q[o.q.toNat].sc = false) (fits : s.hart.q[o.q.toNat].fmt.tag.wide = true → s.hart.csr.w64 = true)
    (accepts : s.hart.q[o.q.toNat].fmt.accepts (s.hart.tagOf o.data) = true)
    (mode : (s.prepared s.hart.ir).storeRounding (s.hart.tagOf o.data) s.hart.q[o.q.toNat].fmt o.rm = .ok r)
    (free : u.awaitElems s.hart.q[o.q.toNat] none (walkOf u.clean .atomic s.hart.q[o.q.toNat] none o.mask).present true = .ok ())
    (walked : walkOf u .atomic s.hart.q[o.q.toNat] none o.mask = g) (passes : g.fail = none) :
    vecVchg o (s.prepared s.hart.ir) = .ok ((g.exchanged o s.hart.q[o.q.toNat]
      (u.hart.exchanged o s.hart.q[o.q.toNat] (s.hart.tagOf o.data) r g.present)).mapHart (·.addNb o.nb o.k)) := by
  obtain ⟨x, y, t, named, ok, unit, ready, walk⟩ := Begins.prepared begins stream
  have same := State.prepared_steady s s.hart.ir
  have tagged := State.tagOf_of_steady same o.data
  have free := (State.awaitElems_tainted u .atomic _ none o.mask true x y).trans free
  have pre : (s.prepared s.hart.ir).preChange o = .ok r := by
    unfold State.preChange
    dsimp only
    rw [named, tagged, State.checks6_ok (VectorUnit.subset unit (by simp))
      (by rw [State.w64_of_steady same]; simpa [Stream.tainted] using fits)]
    exact mode
  obtain rfl := (walkOf_tainted u .atomic _ none o.mask x y).trans walked
  unfold vecVchg
  refine (bind_of_ok pre _).trans ?_
  rw [named, tagged]
  have plain : ¬(s.hart.q[o.q.toNat].tainted x).sc = true := by simp [Stream.tainted, unscaled]
  refine (if_neg plain).trans ((bind_of_ok ok _).trans
    ((bind_of_ok (if_pos accepts : State.tagOk _ _ = .ok ()) _).trans ((bind_of_ok ready _).trans ((bind_of_ok walk _).trans
    ((bind_of_ok free _).trans ((Gathered.of_passed passes).trans ?_))))))
  exact congrArg (fun t : State => Except.ok (t.mapHart (·.addNb o.nb o.k))) (Gathered.issue_exchanged passes o
    (s.hart.q[o.q.toNat].tainted x) _)

/-! ### Settling O35 -/

theorem walkOf_pend (u : State) (k : AccKind) (q : Stream) (scale : Option Stream) (mask : MaskOp) :
    (walkOf u k q scale mask).st.hart.pend = u.hart.pend := by
  obtain ⟨ws, n, same⟩ := walkOf_rebuffered u k q scale mask
  rw [same]

/-- A vector instruction changes no register of what it left as it goes on. -/
theorem ranV_tagOf (s u : State) (n : Nat) (h : Hart) (d : VReg) : (ranV s u n h).hart.tagOf d = h.tagOf d := by
  unfold Hart.tagOf
  rw [ranV_hart]

theorem ranV_taintV (s u : State) (n : Nat) (h : Hart) (d : VReg) : (ranV s u n h).hart.taintV d = h.taintV d := by
  unfold Hart.taintV
  rw [ranV_hart]

theorem ranV_pend (s u : State) (n : Nat) (h : Hart) : (ranV s u n h).hart.pend = h.pend := by rw [ranV_hart]

/-- The counters of an instruction that blocks stay. -/
theorem ranV_blocking (s u : State) (n : Nat) (h : Hart) (k : KReg) :
    let w := (ranV s u n (h.addNb false k)).hart
    w.k = h.k ∧ w.nbs = h.nbs ∧ w.csr.kstat = h.csr.kstat := by
  rw [ranV_hart]
  exact ⟨rfl, rfl, rfl⟩

/-- What a vector instruction that may not block leaves, besides what it left as it went on. -/
theorem ranV_addNb (s u : State) (n : Nat) (h : Hart) (nb : Bool) (k : KReg) :
    let w := (ranV s u n (h.addNb nb k)).hart
    w = { h with
      pc := h.pc + BitVec.ofNat 64 n, status := .running, seq := h.seq + 1, flights := w.flights, k := w.k, nbs := w.nbs,
      csr := { h.csr with kstat := w.csr.kstat } } := by
  intro w
  have left : w = _ := ranV_hart ..
  generalize w = w' at left ⊢
  rw [left]
  dsimp only
  rw [Hart.addNb_eq]

/-- An exchange leaves its hart as it was, but for what its destination, its accesses and its counters take. -/
theorem Gathered.exchanged_ran (b : State) (g : Gathered) (o : VMem) (q : Stream) (vals : List (Elem × Nat × FFlags)) :
    let z := g.exchanged o q vals
    let w := (ranV b (z.mapHart (·.addNb o.nb o.k)) 8 (z.hart.addNb o.nb o.k)).hart
    w = { g.st.hart with
      pc := g.st.hart.pc + 8, status := .running, seq := g.st.hart.seq + 1, v := w.v, flights := w.flights,
      tagBusy := g.st.hart.allocTag.1.tagBusy, tag0Last := g.st.hart.allocTag.1.tag0Last, pend := w.pend, k := w.k, nbs := w.nbs,
      csr := { g.st.hart.csr with vlast := o.dst, vstat := w.csr.vstat, fflags := w.csr.fflags, kstat := w.csr.kstat } } := by
  intro z w
  have left : w = _ := ranV_addNb ..
  generalize w = w' at left ⊢
  rw [left]
  dsimp only
  rw [g.exchanged_hart o q vals]
  rfl

/-- Settles O35: the accesses of the walk's elements issue in order (`Begins.vst_passes`, `Begins.vchg_passes`), and the
frame of each part of the instruction gives that of the whole. -/
theorem vectorStores : Obligations.VectorStores := by
  intro s u w o r scale q t b g gx h x taint rounding stream accepts mode
  have mode := State.storeRounding_prepared s.hart.ir mode
  refine ⟨fun begins passes free => ?_, fun begins unscaled fits passes free => ?_⟩
  · have ⟨_, _, queue, collective, _⟩ := begins
    exact ⟨State.vector_prepared (body := vecVst o) queue collective
      (Begins.vst_passes begins stream accepts mode free rfl passes), Hart.storeAccesses_addr .., fun a => Hart.mem_storeAccesses⟩
  · have ⟨_, _, queue, collective, _⟩ := begins
    have elems : (w.hart.exchanged o q t r gx.present).map Prod.fst = gx.present := List.map_map.trans (List.map_id _)
    have runs := State.vector_prepared (body := vecVchg o) queue collective
      (Begins.vchg_passes begins stream unscaled fits accepts mode free rfl passes)
    refine ⟨_, runs, (ranV_mem ..).trans (walkOf_mem ..), (ranV_tagOf ..).trans ((Hart.addNb_tagOf ..).trans (gx.exchanged_tagOf ..)),
      gx.exchanged_ran .., (ranV_taintV ..).trans ((Hart.addNb_taintV ..).trans (gx.exchanged_taintV ..)), ?_, fun blocking => ?_⟩
    · calc _ = (gx.exchanged o q _).hart.pend.map (·.addr) :=
            congrArg (List.map Access.addr) ((ranV_pend ..).trans (Hart.addNb_pend ..))
        _ = x.pend.map (·.addr) ++ gx.present.map (·.loc.phys) := gx.exchanged_addrs o q elems
        _ = _ := by rw [walkOf_pend]
    · obtain ⟨k, nbs, kstat⟩ := gx.exchanged_counters o q (w.hart.exchanged o q t r gx.present)
      rw [blocking, ← k, ← nbs, ← kstat]
      exact ranV_blocking _ _ 8 (gx.exchanged o q _).hart o.k

end Sys2Proof.Machine
end

section
/-! SUPPORT and settling theorems. Scalar loads, stores and atomics whose address passes its checks (R168, R171). -/

namespace Sys2Proof.Machine
variable {s t u v : State}

/-! ### Addresses that a scalar instruction reads (R88, R109) -/

theorem check19_of_check {a : Quad} {n : Nat} {k : AccKind} {r : SpaceRule} {l : Loc}
    (h : s.check s.hart s.hart.asid a n k r = .ok l) : s.check19 s.hart s.hart.asid a n k r = .ok l := by
  unfold State.check at h
  split at h
  · cases h
  next l' e =>
    split at h
    · cases h
    · exact e.trans h

/-- An address that passes as `Reads` says resolves, in the state in which check 10 is made. -/
theorem resolveRead_of_reads {a : Quad} {n : Nat} {k : AccKind} {r : SpaceRule} {l : Loc}
    (h : Reads u v a n k r (k == .atomic) l) : u.resolveRead a n k r = .ok (l, v) := by
  obtain ⟨⟨l0, first, left⟩, turn, last⟩ := h
  unfold State.resolveRead
  rw [first]
  dsimp only
  rw [awaitTurn_eq_ok turn]
  dsimp only
  by_cases poisoned : u.poisoned l0.phys = true
  · rw [if_pos poisoned] at left
    subst left
    rw [if_neg (by simp [poisoned]), resolve_of_check last]
  · rw [if_neg poisoned] at left
    subst left
    rw [if_pos (by simp [poisoned])]
    have same := (check19_of_check last).symm.trans first
    cases same
    rfl

/-! ### Accesses that take a tag (R124, R125) -/

/-- The hart that has taken a tag for sd, with the taint of the address. -/
def Hart.tagged (h : Hart) (d : SReg) (x : TaintSet) : Hart :=
  { h with
    tagBusy := h.allocTag.1.tagBusy, tag0Last := h.allocTag.1.tag0Last,
    st := if d = 0 then h.st else h.st.set d.toNat (tagBit h.allocTag.2 ||| x) }

theorem State.issueTagged_eq (s : State) (l : Loc) (size : Nat) (op : AccOp) (d : SReg) (x held : TaintSet) :
    s.issueTagged l size op d x held = (({ s with hart := s.hart.tagged d x } : State).issue
      { seq := s.hart.seq, queue := 0, slice := l.slice, addr := l.phys, size := size, op := op, held := held,
        tag := some s.hart.allocTag.2, via := l.via, shown := l.shown }).nextSeq := by
  have tagged : s.hart.tagged d x = if d = 0 then s.hart.allocTag.1 else
      { s.hart.allocTag.1 with st := s.hart.allocTag.1.st.set d.toNat (tagBit s.hart.allocTag.2 ||| x) } := by
    rw [s.hart.allocTag_eq]
    unfold Hart.tagged
    by_cases none : d = 0
    · rw [if_pos none, if_pos none]
    · rw [if_neg none, if_neg none]
  have seq : s.hart.seq = (s.hart.tagged d x).seq := rfl
  rw [seq, tagged]
  rfl

/-- Issuing an access that returns a value to sd, as an instruction of n bytes. -/
theorem issueTagged_done (s : State) (l : Loc) (size : Nat) (op : AccOp) (d : SReg) (x held : TaintSet) (n : Nat) :
    (s.issueTagged l size op d x held).done n = issuedTo s n d x
      { seq := 0, queue := 0, slice := l.slice, addr := l.phys, size := size, shown := l.shown, via := l.via, tag := none,
        held := held, op := op } := by
  have same : (s.hart.tagged d x).ref = s.hart.ref := rfl
  rw [State.issueTagged_eq, State.issue_eq same]
  rfl

/-! ### Loads, stores and atomics (R168, R171) -/

/-- A load of n bytes whose address passes issues its access. -/
theorem load_next (len n : Nat) (signed const : Bool) (d a : SReg) (off : Quad) (l : Loc)
    (h : let u := s.needS [d, a]; Reads u v (u.hart.getS a + off) n .read (if const then .own else .any) false l) :
    s.load len n signed const d a off = .next (issuedTo v len d (v.hart.taintS a)
      { seq := 0, queue := 0, slice := l.slice, addr := l.phys, size := n, shown := l.shown, via := l.via, tag := none,
        held := v.hart.taintS a, op := loadOp l const (.s d signed) }) := by
  unfold State.load
  dsimp only
  rw [resolveRead_of_reads h]
  exact congrArg Host.Outcome.next (issueTagged_done ..)

/-- The number of bytes of an atomic (R171). -/
def amoBytes : AmoWidth → Nat
  | .w32 => 4
  | .w64 => 8

/-- An atomic whose address passes issues its access. -/
theorem atomic_next (w : AmoWidth) (d a b : SReg) (op : Hart → AccOp) (held : Hart → TaintSet) (l : Loc)
    (h : let u := s.needS [d, a, b]; Reads u v (u.hart.getS a) (amoBytes w) .atomic .any true l) :
    s.atomic w d a b op held = .next (issuedTo v 4 d (v.hart.taintS a)
      { seq := 0, queue := 0, slice := l.slice, addr := l.phys, size := (amoBytes w), shown := l.shown, via := l.via, tag := none,
        held := held v.hart, op := op v.hart }) := by
  have resolved := resolveRead_of_reads h
  unfold State.atomic
  cases w with
  | w32 => dsimp only [amoBytes] at resolved ⊢; rw [resolved]; exact congrArg Host.Outcome.next (issueTagged_done ..)
  | w64 => dsimp only [amoBytes] at resolved ⊢; rw [resolved]; exact congrArg Host.Outcome.next (issueTagged_done ..)

/-- The scalar loads of the table are loads. -/
theorem exec_of_loadTable {p : (SReg → SReg → BitVec 12 → Instr) × Nat × Bool × Bool} (h : p ∈ loadTable) (d a : SReg)
    (imm : BitVec 12) (s : State) : exec (p.1 d a imm) s = s.load 4 p.2.1 p.2.2.1 p.2.2.2 d a (imm.signExtend 64) := by
  simp only [loadTable, List.mem_cons, List.not_mem_nil, or_false] at h
  rcases h with rfl | rfl | rfl | rfl | rfl | rfl | rfl | rfl | rfl | rfl | rfl | rfl | rfl | rfl <;> rfl

/-- The atomics of the table are atomics of their operation. -/
theorem exec_of_amoTable {p : (AmoWidth → SReg → SReg → SReg → Instr) × AmoOp} (h : p ∈ amoTable) (w : AmoWidth)
    (d a b : SReg) (s : State) : exec (p.1 w d a b) s = s.amo p.2 w d a b := by
  simp only [amoTable, List.mem_cons, List.not_mem_nil, or_false] at h
  rcases h with rfl | rfl | rfl | rfl | rfl | rfl | rfl | rfl | rfl | rfl <;> rfl

/-- The scalar stores, each with its size, are stores. -/
theorem exec_of_store {p : (SReg → SReg → BitVec 12 → Instr) × Nat}
    (h : p ∈ ([(.stB, 1), (.stH, 2), (.stW, 4), (.st, 8)] : List ((SReg → SReg → BitVec 12 → Instr) × Nat))) (b a : SReg)
    (imm : BitVec 12) (s : State) : exec (p.1 b a imm) s = s.storeReg 4 p.2 b a (imm.signExtend 64) := by
  simp only [List.mem_cons, List.not_mem_nil, or_false] at h
  rcases h with rfl | rfl | rfl | rfl <;> rfl

/-- Settles O7: each load is `State.load`, which issues its access where the address passes (`load_next`). -/
theorem scalarLoadsIssue : Obligations.ScalarLoadsIssue := by
  refine ⟨fun s v d a imm l p listed => ?_, fun s v d a off l => ?_⟩
  · intro u addr dst passes
    rw [exec_of_loadTable listed]
    exact load_next 4 p.2.1 p.2.2.1 p.2.2.2 d a _ l passes
  · exact load_next 2 8 false false _ _ _ l

/-- Settles O8: each store is `State.storeReg`, which issues its access where the address passes (`storeReg_next`). -/
theorem scalarStoresIssue : Obligations.ScalarStoresIssue := by
  refine ⟨fun s b a imm l p listed => ?_, fun s b a off l => ?_⟩
  · intro u passes
    rw [exec_of_store listed, show (2 : Nat) ^ (8 * p.2) = 256 ^ p.2 by rw [Nat.pow_mul]]
    exact storeReg_next 4 p.2 b a _ l passes
  · intro sb sa u passes
    have whole : (u.hart.getS sb).toNat % 256 ^ 8 = (u.hart.getS sb).toNat := Nat.mod_eq_of_lt (u.hart.getS sb).isLt
    rw [← whole]
    exact storeReg_next 2 8 sb sa _ l passes

/-- Settles O9: each atomic is `State.atomic` of its operation, which issues its access where the address passes
(`atomic_next`). -/
theorem scalarAtomicsIssue : Obligations.ScalarAtomicsIssue := by
  intro s v w d a b l n u acc passes
  have bytes : n = (amoBytes w) := by cases w <;> rfl
  clear_value n
  subst bytes
  refine ⟨fun p listed => ?_, ?_⟩
  · rw [exec_of_amoTable listed]
    exact atomic_next w d a b _ _ l passes
  · exact atomic_next w d a b (fun h => .cas (h.getS d) (h.getS b) d) (fun h => h.taintS a ||| h.taintS b ||| h.taintS d) l passes

end Sys2Proof.Machine
end

section
/-! SUPPORT and settling theorem. A step is the turn of a hart, which executes the word at its pc, or of another agent
(R98, R127, R139 to R141). -/

namespace Sys2Proof.Machine
variable {s s0 t u : State} {c : Code} {x : Cand}

/-! ### What the decoder names -/

theorem execCand_eq (x : Cand) (s : State) : execCand x s = exec x.toInstr s := by
  cases x with
  | i x => rfl
  | late l => cases l <;> rfl

theorem decodeCode_of_decodeCand (h : decodeCand c = .ok x) : decodeCode c = .ok x.toInstr := by
  unfold decodeCode
  rw [h]
  rfl

theorem decodeCand_error_of_decodeCode {e : DecodeError} (h : decodeCode c = .error e) : decodeCand c = .error e := by
  unfold decodeCode at h
  cases decoded : decodeCand c with
  | error e' =>
    rw [decoded] at h
    cases h
    rfl
  | ok x =>
    rw [decoded] at h
    cases h

/-! ### Executing what the word decodes to (R127) -/

theorem namesLoad_iff (h : Hart) (c : Code) (x : Cand) :
    NamesLoad h c x ↔ (h.pend.any fun a => a.sdst.any fun d => Cand.names c x d) = true := by
  simp only [NamesLoad, List.any_eq_true, Option.any_eq_true]

theorem execNamed_free (h : ¬NamesLoad s.hart c x) : s.execNamed c x = exec x.toInstr s := by
  rw [namesLoad_iff, Bool.not_eq_true] at h
  unfold State.execNamed
  exact (if_pos (congrArg not h)).trans (execCand_eq x s)

theorem Hart.elemHit_of_hits {h : Hart} (none : h.hits = []) : h.elemHit = Option.none := by
  rw [Hart.elemHit, none]
  rfl

theorem Hart.scalarHit_of_hits {h : Hart} (none : h.hits = []) : h.scalarHit = Option.none := by
  rw [Hart.scalarHit, none]
  rfl

/-- An instruction that names what a load will write executes once the hart's accesses are performed. -/
theorem execNamed_drained (waits : NamesLoad s.hart c x) (free : ¬NamesLoad s.drain.hart c x) (none : s.drain.hart.hits = []) :
    s.execNamed c x = exec x.toInstr s.drain := by
  rw [namesLoad_iff] at waits
  rw [namesLoad_iff, Bool.not_eq_true] at free
  unfold State.execNamed
  refine (if_neg fun k => Bool.false_ne_true ((congrArg not waits).symm.trans k)).trans ?_
  dsimp only
  rw [Hart.elemHit_of_hits none, Hart.scalarHit_of_hits none]
  exact (if_neg (by rw [free]; exact Bool.false_ne_true)).trans (execCand_eq x s.drain)

/-! ### The turn of a hart that issues -/

/-- The state in which a fetched word executes: the loads performed so far retired, and the word in the instruction register. -/
def State.fetched (t : State) (ir : Quad) : State := t.mapHart fun h => { h.retire with ir := ir }

/-- The state in which the next word is fetched. -/
def State.fetching (s : State) : State := { s with hart := { s.hart with ir := 0 } }

theorem inStep_none (idle : s.hart.queued = false) :
    (s.hart.thaw && s.hart.frozen.any fun e => (wordInstr e.word).any Instr.inStep) = false := by
  unfold Hart.queued at idle
  cases thawed : s.hart.thaw with
  | false => rfl
  | true =>
    rw [thawed, Bool.true_and, Bool.not_eq_false', List.isEmpty_iff] at idle
    rw [idle]
    rfl

section
variable {ir : Quad} (idle : s.hart.queued = false)
include idle

theorem issueNext_decoded (word : s.fetching.fetchWord s.hart.pc = .ok (ir, some c, t)) (decoded : decodeCand c = .ok x)
    (free : (t.fetched ir).hart.issueHeld c x = false) : s.issueNext = (t.fetched ir).execNamed c x := by
  unfold State.issueNext
  rw [inStep_none idle]
  refine (if_neg Bool.false_ne_true).trans ?_
  show (match s.fetching.fetchWord s.hart.pc with
    | .error e => finish s.fetching (.error e)
    | .ok (ir, code, t) => _) = _
  rw [word]
  dsimp only
  rw [decoded]
  exact if_neg (by rw [← Bool.not_eq_true] at free; exact free)

theorem issueNext_illegal {code : Option Code} (word : s.fetching.fetchWord s.hart.pc = .ok (ir, code, t))
    (bad : code = none ∨ ∃ w e, code = some w ∧ decodeCode w = .error e) :
    s.issueNext = .next ((t.fetched ir).takeTrap { cause := 0x01, tinfo := ir }) := by
  unfold State.issueNext
  rw [inStep_none idle]
  refine (if_neg Bool.false_ne_true).trans ?_
  show (match s.fetching.fetchWord s.hart.pc with
    | .error e => finish s.fetching (.error e)
    | .ok (ir, code, t) => _) = _
  rw [word]
  rcases bad with rfl | ⟨w, e, rfl, h⟩
  · rfl
  · dsimp only
    rw [decodeCand_error_of_decodeCode h]
    rfl

end

/-- Nothing comes before the next instruction of a running hart, and it has no prediction: its turn issues. -/
theorem hartTurn_issues (running : s.hart.status = .running) (hits : s.hart.hits = []) (quiet : s.hart.asyncCause = none)
    (idle : s.hart.queued = false) (looks : s.lookPast = none) (early : s.hart.early = none) : hartTurn s = s.issueNext := by
  have taken : ∀ t, s.takeEarly t = t := fun t => by rw [State.takeEarly, early]
  have issues : s.issueTurn = s.issueNext := by
    unfold State.issueTurn
    rw [looks]
    dsimp only
    split
    · next t e => rw [taken, e]
    · rfl
  rw [hartTurn, running]
  dsimp only
  rw [State.placedTurn, Hart.elemHit_of_hits hits, quiet, Hart.scalarHit_of_hits hits, idle, ← issues]
  rfl

theorem freeTurn_of_background
    (h : ({ s.rotate with agenda := s.rotate.others.map fun h => .hart h.ref } : State).background = .next t) :
    s.freeTurn = hartTurn t := by
  unfold State.freeTurn
  dsimp only at h ⊢
  rw [h]

/-- The state in which a step finds its turn: the clock and the counter of the free values have gone on. -/
def State.ticked (s : State) : State := { s with clock := s.clock + 1 + Config.stepClocks s.free, free := s.free + 1 }

theorem step_of_empty (agenda : s.agenda = []) : step s = s.ticked.freeTurn := by
  unfold step State.ticked
  dsimp only
  rw [agenda]

theorem step_of_hart {r : HartRef} {rest : List Turn} (agenda : s.agenda = .hart r :: rest) (placed : s.placed r = true) :
    step s = hartTurn (({ s.ticked with agenda := rest } : State).focus r) := by
  unfold step
  dsimp only
  rw [agenda]
  exact if_pos placed

theorem step_of_agent {i : Instr} {rest : List Turn} (agenda : s.agenda = .agent i :: rest) :
    step s = exec i { s.ticked with agenda := rest } := by
  unfold step
  dsimp only
  rw [agenda]
  rfl

/-- The turn that a step is. -/
theorem step_of_hasTurn (turn : HasTurn s0 s) : step s0 = hartTurn s := by
  rcases turn with ⟨r, rest, agenda, placed, rfl⟩ | ⟨agenda, turn⟩
  · exact step_of_hart agenda placed
  · exact (step_of_empty agenda).trans (freeTurn_of_background turn)

/-! ### Fetching a parcel (R98, R170) -/

/-- A read through a copy that holds no other bytes gives those of memory. -/
theorem staleRead_fresh {mem : List Host.Cell} {copy : List (Nat × Nat)} {a n : Nat} (free : Nat)
    (h : copyRead copy a n = none ∨ copyRead copy a n = some (readN mem a n)) : (staleRead mem copy a n free).1 = readN mem a n := by
  unfold staleRead
  rcases h with h | h
  · rw [h]
  · rw [h]
    dsimp only
    rw [if_pos rfl]

theorem fetchParcel_fresh {a : Quad} {l : Loc} (passes : s.check s.hart s.hart.asid a 2 .fetch .any = .ok l)
    (h : let copy := copyRead (s.core s.hart.pkg s.hart.die s.hart.core).icache l.phys 2
      copy = none ∨ copy = some (readN s.mem l.phys 2)) :
    ∃ t, s.fetchParcel a = .ok (BitVec.ofNat 16 (readN s.mem l.phys 2), t) ∧ t.mem = s.mem := by
  unfold State.fetchParcel
  rw [resolve_of_check passes]
  dsimp only
  rw [staleRead_fresh s.free h]
  exact ⟨_, rfl, rfl⟩

/-! ### Prediction (R164) -/

theorem lookPast_draws (s : State) : s.lookPast = none ∨
    ∃ e : Ahead, s.lookPast = some { s with free := s.free + 1, hart := { s.hart with early := some e } } := by
  cases looks : s.lookPast with
  | none => exact .inl rfl
  | some t =>
    refine .inr ?_
    unfold State.lookPast at looks
    dsimp only at looks
    split at looks
    · cases looks
    split at looks
    · cases looks
    split at looks
    · cases looks
    split at looks
    · cases looks
    · cases looks
      exact ⟨_, rfl⟩

theorem takeEarly_elsewhere {e : Ahead} (early : s.hart.early = some e) (pc : s.hart.pc = e.pc) (seq : s.hart.seq = e.seq)
    (away : t.hart.pc ≠ e.toward) : s.takeEarly t = t.mapHart fun h => { h with early := none } := by
  unfold State.takeEarly
  rw [early]
  exact (if_pos ⟨pc, seq⟩).trans (if_neg away)

/-- Settles O47: the step is the turn that it has (`step_of_hasTurn`), which issues (`hartTurn_issues`) what the word decodes
to (`issueNext_decoded`) or takes the trap (`issueNext_illegal`). -/
theorem stepRunsTheDecodedInstruction : Obligations.StepRunsTheDecodedInstruction := by
  refine ⟨?turn, fun s i rest => step_of_agent, fun s a l => fetchParcel_fresh, lookPast_draws,
    fun s t e => takeEarly_elsewhere⟩
  case turn =>
    intro s0 s t ir c turn running hits quiet idle looks early word u
    have issues : step s0 = s.issueNext :=
      (step_of_hasTurn turn).trans (hartTurn_issues running hits quiet idle looks early)
    refine ⟨?_, fun bad => issues.trans (issueNext_illegal idle word bad)⟩
    rintro w x rfl decoded free
    have runs := issues.trans (issueNext_decoded idle word decoded free)
    exact ⟨decodeCode_of_decodeCand decoded, fun h => runs.trans (execNamed_free h),
      fun waits h none => runs.trans (execNamed_drained waits h none)⟩

end Sys2Proof.Machine
end

section
/-! SUPPORT and settling theorem. Stream configuration, completion counters and read-only windows (R221, R222, R232, R233,
R240, R241, R356). -/

namespace Sys2Proof.Machine
variable {s t u v : State}

/-! ### Stream registers (R221, R222) -/

section
variable {q : QReg} {ss : List SReg} {taint : Hart → TaintSet} {f : Hart → Stream → Option Stream}

/-- A stream instruction that extends the stream, which restarts the pre-walk. -/
theorem extend_some {st : Stream} (h : f (s.needS ss).hart (s.needS ss).hart.q[q.toNat] = some st) :
    s.extend q ss taint f = .next (((s.needS ss).mapHart fun g =>
      g.setStream q st ((s.needS ss).hart.q[q.toNat].taint ||| taint g)).done 8) := by
  unfold State.extend
  dsimp only
  rw [h]
  rfl

/-- A stream instruction that cannot extend the stream of that KIND. -/
theorem extend_none (h : f (s.needS ss).hart (s.needS ss).hart.q[q.toNat] = none) :
    s.extend q ss taint f = .next ((s.needS ss).takeTrap { cause := 0x0C, tinfo := (s.needS ss).hart.ir }) := by
  unfold State.extend
  dsimp only
  rw [h]
  rfl

end

/-- The stream that qsetx makes of a unit stream. -/
def indexed (pol : Policy) (vb : VReg) (a : SReg) (h : Hart) (st : Stream) : Option Stream :=
  if st.kind ≠ 1 then none else some { st with idx := vb, bound1 := h.getS a, pol1 := pol, kind := 3 }

/-- The stream that qchain makes of an indexed stream, or of one with a table. -/
def chained (pol : Policy) (a b : SReg) (h : Hart) (st : Stream) : Option Stream :=
  if st.kind = 3 then some { st with stride := h.getS a, bound2 := h.getS b, pol2 := pol, kind := 4 }
  else if st.kind = 4 then some { st with table2 := h.getS a, bound3 := h.getS b, pol3 := pol, kind := 5 }
  else none

/-! ### Walking ahead (R356) -/

/-- `s` once the part has walked x pages ahead for a stream: the TLB of the core may have been filled, and one free value is
drawn. -/
def State.Ahead (s v : State) (q : QReg) (x : BitVec 3) : Prop :=
  v = { s with free := s.free + 1, tlb := v.tlb, tables := v.tables, hart := { s.hart with
    q := s.hart.q.set q.toNat { s.hart.q[q.toNat] with prewalk := x } } }

/-- A page more that is walked ahead. -/
theorem State.Ahead.walked {q : QReg} {x : BitVec 3} (h : s.Ahead v q x) (w : WalkReq) (l : Leaf) (size : Nat) (y : BitVec 3) :
    s.Ahead (((v.fillTlb w l size).fillTables w).mapHart fun h =>
      { h with q := h.q.set q.toNat { h.q[q.toNat] with prewalk := y } }) q y := by
  unfold State.Ahead at h ⊢
  generalize v.tlb = tlb, v.tables = tables at h
  subst h
  simp [State.mapHart, State.fillTlb, State.fillTables, Vector.set_set]

/-- The part walks at most as many pages ahead as it is given. -/
theorem walkAhead_ahead {q : QReg} {base : Nat} : ∀ (fuel n : Nat) {v : State}, s.Ahead v q (BitVec.ofNat 3 n) → n + fuel ≤ 4 →
    ∃ m, n ≤ m ∧ m ≤ n + fuel ∧ s.Ahead (v.walkAhead q base fuel n) q (BitVec.ofNat 3 m)
  | 0, n, v, h, _ => ⟨n, Nat.le_refl n, Nat.le_refl n, h⟩
  | fuel + 1, n, v, h, few => by
    unfold State.walkAhead
    dsimp only
    split
    · next l size leaf =>
      split
      · obtain ⟨m, least, most, ahead⟩ := walkAhead_ahead fuel (n + 1) (h.walked _ l size _) (by omega)
        exact ⟨m, by omega, by omega, ahead⟩
      · exact ⟨n, Nat.le_refl n, by omega, h⟩
    · exact ⟨n, Nat.le_refl n, by omega, h⟩

/-- Where the part has walked a page ahead, the next page of the stream is valid. -/
theorem walkAhead_valid {q : QReg} {base fuel : Nat}
    (h : ∀ l size, (l.r = true ∨ l.w = true) →
      v.walkCached v.hart.pkg v.hart.die (some v.hart.core) v.hart.asid ((base / 65536 + 1) * 65536) ≠ .leaf l size) :
    v.walkAhead q base fuel 0 = v := by
  cases fuel with
  | zero => rfl
  | succ fuel =>
    unfold State.walkAhead
    dsimp only
    split
    · next l size leaf =>
      refine if_neg fun valid => h l size ?_ leaf
      simpa using valid.2
    · rfl

/-- `s` as the part begins to walk ahead. -/
def State.walkStart (s : State) (q : QReg) : State :=
  (s.mapHart fun h => { h with q := h.q.set q.toNat { h.q[q.toNat] with prewalk := 0 } }).drawn

theorem State.walkStart_ahead (s : State) (q : QReg) : s.Ahead (s.walkStart q) q (BitVec.ofNat 3 0) := rfl

theorem lookAhead_ahead (s : State) (q : QReg) : ∃ x : BitVec 3, x.toNat ≤ 4 ∧ s.Ahead (s.lookAhead q) q x ∧
    (0 < x.toNat → ∃ l size, (l.r = true ∨ l.w = true) ∧ s.walkCached s.hart.pkg s.hart.die (some s.hart.core) s.hart.asid
      ((fieldOf s.hart.q[q.toNat].base 0 42 / 65536 + 1) * 65536) = .leaf l size) ∧
    (s.hart.q[q.toNat].kind = 0 → x = 0) := by
  unfold State.lookAhead
  dsimp only
  split
  · next walks =>
    have kind : s.hart.q[q.toNat].kind ≠ 0 := by
      intro none
      simp [Hart.walksAhead, none] at walks
    by_cases valid : ∃ l size, (l.r = true ∨ l.w = true) ∧ s.walkCached s.hart.pkg s.hart.die (some s.hart.core) s.hart.asid
      ((fieldOf s.hart.q[q.toNat].base 0 42 / 65536 + 1) * 65536) = .leaf l size
    · obtain ⟨m, -, most, ahead⟩ := walkAhead_ahead (base := fieldOf s.hart.q[q.toNat].base 0 42)
        ((Config.value s.free).toNat % 5) 0 (s.walkStart_ahead q) (by omega)
      refine ⟨_, ?_, ahead, fun _ => valid, fun none => absurd none kind⟩
      rw [BitVec.toNat_ofNat]
      omega
    · refine ⟨0, Nat.zero_le 4, ?_, fun pos => absurd pos (Nat.lt_irrefl 0), fun _ => rfl⟩
      have stays := walkAhead_valid (v := s.walkStart q) (q := q) (base := fieldOf s.hart.q[q.toNat].base 0 42)
        (fuel := (Config.value s.free).toNat % 5) fun l size may leaf => valid ⟨l, size, may, leaf⟩
      exact stays.symm ▸ s.walkStart_ahead q
  · exact ⟨0, Nat.zero_le 4, s.walkStart_ahead q, fun pos => absurd pos (Nat.lt_irrefl 0), fun _ => rfl⟩

/-! ### Counters (R232, R233) -/

theorem qget_quad (c : Stream) {n : BitVec 3} (other : n ≠ 7) :
    c.quad n = [c.base, c.stride, c.table2, c.bound1, c.bound2, c.bound3, c.control].getD n.toNat 0 := by
  have cases : ∀ n : BitVec 3, n = 0 ∨ n = 1 ∨ n = 2 ∨ n = 3 ∨ n = 4 ∨ n = 5 ∨ n = 6 ∨ n = 7 := by decide
  rcases cases n with rfl | rfl | rfl | rfl | rfl | rfl | rfl | rfl
  case inr.inr.inr.inr.inr.inr.inr => exact absurd rfl other
  all_goals rfl

/-- What kadd leaves of its hart: the sum modulo 2^32, and OVF where it carries. -/
theorem Hart.kadd_eq (h : Hart) (k : KReg) (x : Word) :
    ({ h with k := h.k.set k.toNat (BitVec.ofNat 32 (h.k[k.toNat].toNat + x.toNat)),
              csr := if 2 ^ 32 ≤ h.k[k.toNat].toNat + x.toNat then
                { h.csr with kstat := h.csr.kstat ||| (1#24 <<< (16 + k.toNat)) } else h.csr } : Hart) =
    { h with k := h.k.set k.toNat (h.k[k.toNat] + x), csr := { h.csr with
        kstat := if h.k[k.toNat].toNat + x.toNat < 2 ^ 32 then h.csr.kstat else h.csr.kstat ||| (1#24 <<< (16 + k.toNat)) } } := by
  have sum : BitVec.ofNat 32 (h.k[k.toNat].toNat + x.toNat) = h.k[k.toNat] + x := by
    rw [BitVec.ofNat_add, BitVec.ofNat_toNat, BitVec.ofNat_toNat, BitVec.setWidth_eq, BitVec.setWidth_eq]
  rw [sum]
  by_cases carries : 2 ^ 32 ≤ h.k[k.toNat].toNat + x.toNat
  · rw [if_pos carries, if_neg (Nat.not_lt.2 carries)]
  · rw [if_neg carries, if_pos (Nat.not_le.1 carries)]

theorem prewalk_needS (d : SReg) (v : State) (q : QReg) : (v.needS [d]).hart.q[q.toNat].prewalk = v.hart.q[q.toNat].prewalk := by
  obtain ⟨x, same⟩ := State.stream_of_steady (State.needS_steady v [d]) q
  rw [same]
  rfl

theorem streamAndCounterInstructions : streamAndCounterInstructionsRule := by
  intro s fmt q a b d scq pol vb n k set u v w stv stu c count x
  refine ⟨rfl, ⟨fun unit => ?_, fun other => ?_⟩, ⟨fun first => ?_, fun second => ?_, fun h3 h4 => ?_⟩, fun other => ?_, ?_,
    fun reached => ?_, ?_, rfl, ?_⟩
  · exact extend_some (s := s) (ss := [a]) (f := indexed pol vb a) (if_neg (not_not.2 unit))
  · exact extend_none (s := s) (ss := [a]) (f := indexed pol vb a) (if_pos other)
  · exact extend_some (s := s) (ss := [a, b]) (f := chained pol a b) (if_pos first)
  · have notFirst : ¬stu.kind = 3 := by rw [second]; decide
    exact extend_some (s := s) (ss := [a, b]) (f := chained pol a b) ((if_neg notFirst).trans (if_pos second))
  · exact extend_none (s := s) (ss := [a, b]) (f := chained pol a b) ((if_neg h3).trans (if_neg h4))
  · show execQget d q n s = _
    unfold execQget
    dsimp only
    rw [if_neg other, State.mapHart_setS_done_ranS, qget_quad _ other]
    rfl
  · obtain ⟨x, most, ahead, valid, none⟩ := lookAhead_ahead s q
    refine ⟨x, s.lookAhead q, most, ahead, valid, none, ?_⟩
    have quad : ((s.lookAhead q).needS [d]).hart.q[q.toNat].quad 7 = x.setWidth 64 := by
      show ((s.lookAhead q).needS [d]).hart.q[q.toNat].prewalk.setWidth 64 = _
      rw [prewalk_needS]
      unfold State.Ahead at ahead
      rw [ahead]
      simp
    show execQget d q 7 s = _
    unfold execQget
    dsimp only
    rw [if_pos rfl, State.mapHart_setS_done_ranS, quad]
    rfl
  · have yes : Sys2Proof.Machine.reached v.hart.k[k.toNat] (v.hart.getS a) = true := decide_eq_true reached
    show execKwait k a s = _
    unfold execKwait
    dsimp only
    rw [if_pos yes, if_pos yes]
    rfl
  · exact congrArg Host.Outcome.next (State.mapHart_setS_done_ranS w 8 d (fun h => h.k[k.toNat].setWidth 64) fun _ => 0)
  · exact congrArg (fun h : Hart => Host.Outcome.next ((v.setHart h).done 8)) (v.hart.kadd_eq k x)

/-! ### Read-only windows (R240, R241) -/

/-- A read through a slot. -/
def Access.through (slot : Nat) (a : Access) : Bool :=
  match a.op with
  | .loadWindow i _ => i == slot
  | _ => false

theorem Access.through_iff (slot : Nat) (a : Access) : Access.through slot a = true ↔ ∃ dst, a.op = .loadWindow slot dst := by
  unfold Access.through
  split
  · next i dst op => simp [op]
  · next other => exact ⟨fun h => absurd h Bool.false_ne_true, fun ⟨dst, op⟩ => absurd op (other _ _)⟩

/-- No command and no entry of the queue reads through a slot. -/
def SlotFree (h : Hart) (slot : Nat) : Prop :=
  (∀ c ∈ h.cmds, c.running = true → c.through slot = false) ∧ (h.thaw = false ∨ ∀ e ∈ h.frozen, quietWord e.word = true)

theorem slotFree_iff (h : Hart) (slot : Nat) : SlotFree h slot ↔ (h.cmds.any (fun c => c.running && c.through slot)
    || (h.thaw && h.frozen.any fun e => !quietWord e.word)) = false := by
  cases thawed : h.thaw <;> simp [SlotFree, thawed]

/-- The hart with other contents of a slot. -/
def Hart.withWindow (h : Hart) (slot : BitVec 5) (w : Option Window) : Hart :=
  { h with windows := h.windows.set slot.toNat w }

theorem Hart.withWindow_eq (h : Hart) (slot : BitVec 5) (w : Option Window) :
    ({ h with windows := h.windows.set! slot.toNat w } : Hart) = h.withWindow slot w := by
  have same : h.windows.set! slot.toNat w = h.windows.set slot.toNat w := by
    ext i : 1
    rw [Vector.set!_eq_setIfInBounds, Vector.getElem_setIfInBounds, Vector.getElem_set]
  rw [same]
  rfl

theorem Hart.withWindow_twice (h : Hart) (slot : BitVec 5) (w w' : Option Window) :
    (h.withWindow slot w).withWindow slot w' = h.withWindow slot w' := by
  simp [Hart.withWindow, Vector.set_set]

/-- A slot that nothing reads through any more closes. -/
theorem closeSlot_ok {slot : BitVec 5} (free : SlotFree s.hart slot.toNat)
    (left : ∀ x ∈ (s.drainUntil (Access.through slot.toNat)).hart.pend, ∀ dst, x.op ≠ .loadWindow slot.toNat dst) :
    s.closeSlot slot.toNat = .ok ((s.drainUntil (Access.through slot.toNat)).mapHart (·.withWindow slot none)) := by
  have none : (s.drainUntil (Access.through slot.toNat)).hart.pend.any (Access.through slot.toNat) = false := by
    rw [List.any_eq_false]
    intro x listed through
    obtain ⟨dst, op⟩ := (Access.through_iff slot.toNat x).1 through
    exact left x listed dst op
  have idle := (slotFree_iff s.hart slot.toNat).1 free
  unfold State.closeSlot
  refine (if_neg (by rw [idle]; exact Bool.false_ne_true)).trans ?_
  refine (if_neg (by rw [Bool.not_eq_true]; exact none)).trans ?_
  exact congrArg (fun h => Except.ok ((s.drainUntil (Access.through slot.toNat)).setHart h)) (Hart.withWindow_eq ..)

theorem closeSlot_waits {slot : Nat}
    (left : ∃ x ∈ (s.drainUntil (Access.through slot)).hart.pend, ∃ dst, x.op = .loadWindow slot dst) :
    s.closeSlot slot = .error (.hold .window) := by
  obtain ⟨x, listed, dst, op⟩ := left
  have some : (s.drainUntil (Access.through slot)).hart.pend.any (Access.through slot) = true :=
    List.any_eq_true.2 ⟨x, listed, (Access.through_iff slot x).2 ⟨dst, op⟩⟩
  unfold State.closeSlot
  dsimp only
  split
  · rfl
  · exact if_pos some

theorem drainUntil_idle (p : Access → Bool) (idle : s.hart.pend = []) : s.drainUntil p = s := by
  unfold State.drainUntil
  rw [idle]
  rfl

/-- The sources that rwo opens (R240). -/
theorem goodSource_iff (base len : Quad) :
    ((base.extractLsb' 61 3).toNat ≤ 1 ∧ len ≠ 0 ∧ len.toNat < 2 ^ 56) ↔
      ¬(1 < fieldOf base 61 3 ∨ len = 0 ∨ 2 ^ 56 ≤ len.toNat) := by
  unfold fieldOf
  rw [not_or, not_or, Nat.not_lt, Nat.not_le]

/-- A slot opens once the hart's accesses are performed, which then closes it. -/
theorem execRwo_opens {slot : BitVec 5} {a b : SReg}
    (fits : ¬(1 < fieldOf ((s.needS [a, b]).hart.getS a) 61 3 ∨ (s.needS [a, b]).hart.getS b = 0 ∨
      2 ^ 56 ≤ ((s.needS [a, b]).hart.getS b).toNat))
    (apart : (s.needS [a, b]).hart.interlocked ((s.needS [a, b]).hart.canon ((s.needS [a, b]).hart.getS a))
      ((s.needS [a, b]).hart.getS b).toNat false = false)
    (free : SlotFree (s.needS [a, b]).drain.hart slot.toNat) (empty : (s.needS [a, b]).drain.hart.pend = []) :
    execRwo slot a b s = .next (((s.needS [a, b]).drain.mapHart (·.withWindow slot
      (some { base := (s.needS [a, b]).hart.getS a, length := (s.needS [a, b]).hart.getS b }))).done 8) := by
  have closed := closeSlot_ok free fun x listed => by
    rw [drainUntil_idle _ empty, empty] at listed
    exact absurd listed List.not_mem_nil
  rw [drainUntil_idle _ empty] at closed
  unfold execRwo
  dsimp only
  rw [if_neg fits, if_neg (by rw [apart]; exact Bool.false_ne_true), closed]
  dsimp only
  have none : ((s.needS [a, b]).drain.mapHart (·.withWindow slot none)).hart.pend = [] := empty
  rw [none]
  refine (congrArg (finish _) (if_neg Bool.false_ne_true)).trans ?_
  exact congrArg (fun h => Host.Outcome.next (((s.needS [a, b]).drain.setHart h).done 8)) (Hart.withWindow_twice ..)

theorem readOnlyWindows : readOnlyWindowsRule := by
  intro s slot a b u base len good mine free w
  refine ⟨fun fits => execRwo_opens ((goodSource_iff base len).1 fits), fun bad => ?_, fun idle left => ?_, fun left => ?_⟩
  · show execRwo slot a b s = _
    unfold execRwo
    exact congrArg (finish u) (if_pos (not_not.1 fun h => bad ((goodSource_iff base len).2 h)))
  · show execRwc slot s = _
    unfold execRwc
    rw [closeSlot_ok idle left]
    rfl
  · show execRwc slot s = _
    unfold execRwc
    rw [closeSlot_waits left]
    rfl

/-- Settles O39: the stream, counter and window instructions are their definitions on the path that the clause names, where
the part walks ahead as `lookAhead_ahead` says and a slot closes as `closeSlot_ok` says. -/
theorem streamsCountersAndWindows : Obligations.StreamsCountersAndWindows :=
  ⟨streamAndCounterInstructions, readOnlyWindows⟩

end Sys2Proof.Machine
end

section
/-! SUPPORT and settling theorem. Issuing, running and completing engine commands (R251 to R263). -/

namespace Sys2Proof.Machine
variable {s t u v w : State}

/-! ### Issuing copies (R253, R254) -/

theorem ready_eq_complete {vs : List VReg} {ss : List SReg} (h : (s.ready vs ss).isOk = true) :
    s.ready vs ss = .ok (complete s vs ss) := by
  unfold State.ready at h ⊢
  split at h
  · cases h
  · next no =>
    dsimp only at h ⊢
    split at h
    · cases h
    · next waits => rw [if_neg no, if_neg waits]; rfl

/-- The command that a copy of n elements issues: what it reads of its hart, it reads then. -/
def Hart.copyCmd (h : Hart) (clock : Nat) (dst src : Stream) (qa qb : QReg) (a : SReg) (k : KReg) (ff : Option SReg) : Cmd :=
  { seq := h.seq, k := k, pc := h.pc, word := h.ir, asid := h.asid,
    nearest := min (h.nearest dst h.csr.sbase (h.getS a).toNat) (h.nearest src h.csr.sbase (h.getS a).toNat), issued := clock,
    held := h.taintStream qa ||| h.taintStream qb ||| h.taintS a ||| h.ct,
    op := .copy dst src (h.streamIdx dst (h.getS a).toNat).toList (h.streamIdx src (h.getS a).toNat).toList (h.tagOf dst.idx)
      (h.tagOf src.idx) (h.getS a).toNat h.csr.sbase ff }

/-- The streams of a copy pass the checks that need no length. -/
theorem copyStreams_ok {dst src : Stream} (dsc : dst.sc = false) (ssc : src.sc = false) (dok : s.streamOk dst = .ok none)
    (sok : s.streamOk src = .ok none) : ¬([dst, src].any fun q =>
      q.sc || q.kind == 0 || q.fmt == .e8m0 || (decide (3 ≤ q.kind.toNat) && !s.hart.regOk q.idx)) = true := by
  have passes : ∀ {q : Stream}, q.sc = false → s.streamOk q = .ok none →
      (q.sc || q.kind == 0 || q.fmt == .e8m0 || (decide (3 ≤ q.kind.toNat) && !s.hart.regOk q.idx)) = false := by
    intro q sc ok
    obtain ⟨kind, idx⟩ := State.streamOk_ok ok
    obtain ⟨kind, fmt⟩ := not_or.1 kind
    simpa [sc, show q.kind ≠ 0#4 from kind, fmt] using idx
  simp only [List.any_cons, List.any_nil, passes dsc dok, passes ssc sok]
  exact Bool.false_ne_true

theorem copy_issues {qa qb : QReg} {a : SReg} {k : KReg} {ff : Option SReg} :
    let dst := s.hart.q[qa.toNat]
    let src := s.hart.q[qb.toNat]
    let u := complete s (dst.vregs ++ src.vregs) (a :: ff.toList)
    let n := (u.hart.getS a).toNat
    dst.sc = false → src.sc = false → s.streamOk dst = .ok none → s.streamOk src = .ok none →
    MemFmt.cls dst.fmt = MemFmt.cls src.fmt → (s.ready (dst.vregs ++ src.vregs) (a :: ff.toList)).isOk = true → n < 2 ^ 32 →
    (3 ≤ dst.kind.toNat ∨ 3 ≤ src.kind.toNat → n ≤ u.hart.maxElems) →
    s.copy ff qa qb a k = u.nextSeq.issueCmd
      [u.hart.entry (src.span u.hart.csr.sbase n) false k, u.hart.entry (dst.span u.hart.csr.sbase n) true k]
      (u.hart.copyCmd u.clock dst src qa qb a k ff) := by
  intro dst src u n dsc ssc dok sok same ready few indexed
  have limit : (decide (n < 2 ^ 32) && (!(decide (3 ≤ dst.kind.toNat) || decide (3 ≤ src.kind.toNat)) || decide (n ≤ u.hart.maxElems))) = true := by
    rw [Bool.and_eq_true, decide_eq_true few, and_iff_right rfl]
    rcases Bool.eq_false_or_eq_true (decide (3 ≤ dst.kind.toNat) || decide (3 ≤ src.kind.toNat)) with is | isNot
    · rw [is, Bool.not_true, Bool.false_or, decide_eq_true_eq]
      exact indexed (by simpa using is)
    · rw [isNot]
      rfl
  refine (if_neg (copyStreams_ok dsc ssc dok sok)).trans ?_
  refine (bind_of_ok dok _).trans ((bind_of_ok sok _).trans ((bind_of_ok (if_pos (beq_iff_eq.2 same)) _).trans
    ((bind_of_ok (ready_eq_complete ready) _).trans ((bind_of_ok (if_pos limit) _).trans rfl))))

/-! ### Issuing commands (R132, R133) -/

/-- The hart after an engine instruction that issued command c, but for its interlock table. -/
def Hart.engaged (h : Hart) (c : Cmd) (locks : List Interlock) : Hart :=
  { h with
    pc := h.pc + 8, status := .running, seq := h.seq + 1, interlock := locks,
    cmds := h.cmds ++ [{ c with queued := false, ranges := [] }] }

/-- With no interlock entry in the way a command issues, and the hart runs on. -/
theorem engages {es : List Interlock} {c : Cmd} (free : s.hart.interlock = [])
    (idle : ∀ c ∈ s.hart.cmds, c.queued = false ∧ c.ranges = []) (room : es.length ≤ Config.interlockEntries) :
    ∃ v : State, (s.nextSeq.issueCmd es c).map (·.done 8) = .ok v ∧ v.mem = s.mem ∧
      v.hart = s.hart.engaged c v.hart.interlock := by
  obtain ⟨f, -, issued⟩ := State.issueCmd_idle (s := s.nextSeq) (c := c) (es := es) free idle room
  rw [issued]
  exact ⟨_, rfl, rfl, rfl⟩

theorem two_entries_fit (x y : Interlock) : [x, y].length ≤ Config.interlockEntries := by
  simp [Config.interlockEntries]

/-! ### Issuing a Fuller command (R259) -/

/-- The descriptor that a Fuller command reads. -/
def State.descAt (w : State) (l : Loc) : Desc := ⟨readQuads w.mem l.phys 8⟩

/-- The command that fmp issues: its descriptor is read then. -/
def State.fullerCmd (w : State) (l : Loc) (x : Quad) (a : SReg) (k : KReg) : Cmd :=
  { seq := w.hart.seq, k := k, pc := w.hart.pc, word := w.hart.ir, asid := w.hart.asid,
    nearest := (w.descAt l).arrays.foldl (fun acc r => min acc (w.hart.rankRange r)) (w.hart.rankRange (x, 64)),
    issued := w.clock, held := w.hart.taintS a ||| w.hart.ct, op := .fuller (w.descAt l).quads x }

theorem fuller_issues {a : SReg} {k : KReg} {l : Loc} :
    let t := s.needS [a]
    let x := t.hart.getS a
    fieldOf x 61 3 = 1 → x.toNat % 64 = 0 → t.check19 t.hart t.hart.asid x 8 .read .any = .ok l →
    t.settle (t.hart.taintS a) = .ok u → (u.awaitTurn (u.hart.canon x) 64 false).isOk = true →
    let w := u.drainUntil fun y => decide (y.addr < l.phys + 64 ∧ l.phys < y.addr + y.size)
    w.poisoned l.phys = false → w.poisoned (l.phys + 32) = false → w.hart.interlock = [] →
    (∀ c ∈ w.hart.cmds, c.queued = false) →
    s.fuller a k = w.nextSeq.issueCmd [w.hart.entry (x, 64) false k,
      w.hart.entry ((w.descAt l).quad 6, (w.descAt l).nv * (w.descAt l).fm * (w.descAt l).ofmt.bytes) true k] (w.fullerCmd l x a k) := by
  intro t x vault aligned passes settled turn w clean clean' free idle
  have whole : ¬(w.poisoned l.phys || w.poisoned (l.phys + 32)) = true := by simp [clean, clean']
  have room : ¬(w.hart.cmds.any (·.queued) || decide (Config.interlockEntries < w.hart.interlock.length + 2)) = true := by
    have none : w.hart.cmds.any (·.queued) = false := by simpa using idle
    simp [none, free, Config.interlockEntries]
  have located : (match t.check19 t.hart t.hart.asid x 8 .read .any with
      | .ok l => .ok l
      | .error e => .error (t.raise t.hart .read e) : Except Stop Loc) = .ok l := by rw [passes]
  refine (if_neg (not_not.2 vault)).trans ((if_neg (not_not.2 aligned)).trans ((bind_of_ok located _).trans
    ((bind_of_ok settled _).trans ((bind_of_ok (awaitTurn_eq_ok turn) _).trans ((if_neg whole).trans ((if_neg room).trans rfl))))))

theorem engineIssue_holds : engineIssue := by
  intro s d a qa qb k l dst src
  refine ⟨fun dsc ssc dok sok same p listed => ?_, ?_⟩
  · have runs : ∃ ff : Option SReg, p.2 = (a :: ff.toList, ff) ∧
        exec p.1 s = finish s ((s.copy ff qa qb a k).map (·.done 8)) := by
      simp only [List.mem_cons, List.not_mem_nil, or_false] at listed
      rcases listed with rfl | rfl
      · exact ⟨none, rfl, rfl⟩
      · exact ⟨some d, rfl, rfl⟩
    obtain ⟨ff, names, runs⟩ := runs
    rw [runs, names]
    intro u n ready idle few indexed free
    obtain ⟨v, done, mem, hart⟩ := engages (s := u) (c := u.hart.copyCmd u.clock dst src qa qb a k ff) free idle (two_entries_fit
      (u.hart.entry (src.span u.hart.csr.sbase n) false k) (u.hart.entry (dst.span u.hart.csr.sbase n) true k))
    rw [copy_issues dsc ssc dok sok same ready few indexed, done]
    exact ⟨v, _, rfl, mem, hart, rfl, rfl, rfl, rfl, rfl⟩
  · intro t x vault aligned passes u settled turn w clean clean' free idle
    obtain ⟨v, done, mem, hart⟩ := engages (s := w) (c := w.fullerCmd l x a k) free idle (two_entries_fit
      (w.hart.entry (x, 64) false k)
      (w.hart.entry ((w.descAt l).quad 6, (w.descAt l).nv * (w.descAt l).fm * (w.descAt l).ofmt.bytes) true k))
    have runs : exec (.fmp a k) s = finish s ((s.fuller a k).map (·.done 8)) := rfl
    rw [runs, fuller_issues vault aligned passes settled turn clean clean' free fun c hc => (idle c hc).1, done]
    exact ⟨v, _, rfl, mem, hart, rfl, rfl, rfl, rfl, rfl⟩

/-! ### Running a command to its end (R254, R257) -/

/-- Command d is c gone on to element n. -/
def Cmd.At (c d : Cmd) (n : Nat) : Prop := d.op = c.op ∧ d.next = n

theorem Cmd.total_of_op {c d : Cmd} (h : d.op = c.op) : d.total = c.total := by
  unfold Cmd.total
  rw [h]

theorem engineWrite_at (s : State) (c : Cmd) (j phys n x part : Nat) (bad : Bool) (off : Int) :
    c.At (s.engineWrite c j phys n x part bad off).2 c.next := by
  unfold State.engineWrite
  dsimp only
  split
  · exact ⟨rfl, rfl⟩
  · split
    · split <;> exact ⟨rfl, rfl⟩
    · exact ⟨rfl, rfl⟩

/-- A run that does not stop has gone on to element n. -/
def Run.Reaches (r : Run) (c : Cmd) (n : Nat) : Prop := r.stop = none → c.At r.c n

theorem Cmd.At.trans {c d e : Cmd} {m n : Nat} (h : c.At d m) (k : d.At e n) : c.At e n := ⟨k.1.trans h.1, k.2⟩

theorem Run.reaches_of_stop {r : Run} {c : Cmd} {n : Nat} {e : EngineStop} (h : r.stop = some e) : r.Reaches c n := by
  intro none
  rw [h] at none
  cases none

theorem copyElem_reaches (s : State) (c : Cmd) (dst src : Stream) (di si : Nat → Quad) (sbase : Quad) (j : Nat) :
    (s.copyElem c dst src di si sbase j).Reaches c (j + 1) := by
  unfold State.copyElem
  dsimp only
  split
  · exact Run.reaches_of_stop rfl
  split
  · exact Run.reaches_of_stop rfl
  split
  · split
    · exact Run.reaches_of_stop rfl
    split
    · exact Run.reaches_of_stop rfl
    · refine fun _ => ⟨(engineWrite_at ..).1.trans ?_, rfl⟩
      split <;> rfl
  · exact fun _ => ⟨rfl, rfl⟩

/-- A run of n elements from j on, each of which goes on to the next or stops. -/
theorem run_reaches {elem : State → Cmd → Nat → Run} {run : State → Cmd → Nat → Nat → Run}
    (zero : ∀ s c j, run s c 0 j = ⟨s, c, none⟩)
    (succ : ∀ s c n j, run s c (n + 1) j = match (elem s c j).stop with
      | some _ => elem s c j
      | none => run (elem s c j).s (elem s c j).c n (j + 1))
    (each : ∀ s c j, (elem s c j).Reaches c (j + 1)) :
    ∀ (n j : Nat) {s : State} {c : Cmd}, c.next = j → (run s c n j).Reaches c (j + n)
  | 0, j, s, c, here => fun _ => (zero s c j).symm ▸ ⟨rfl, here⟩
  | n + 1, j, s, c, here => by
    rw [succ]
    split
    · next e stops => exact Run.reaches_of_stop stops
    · next goes =>
      have first := each s c j goes
      have rest := run_reaches zero succ each n (j + 1) (s := (elem s c j).s) first.2
      rw [Nat.add_right_comm] at rest
      exact fun ends => first.trans (rest ends)

theorem copyRun_reaches {dst src : Stream} {di si : Nat → Quad} {sbase : Quad} (n j : Nat) {s : State} {c : Cmd} (here : c.next = j) :
    (s.copyRun c dst src di si sbase n j).Reaches c (j + n) :=
  run_reaches (run := fun s c n j => s.copyRun c dst src di si sbase n j) (fun _ _ _ => rfl) (fun _ _ _ _ => rfl)
    (fun s c j => copyElem_reaches s c dst src di si sbase j) n j here

theorem copyDown_op {dst src : Stream} {di si : Nat → Quad} {sbase : Quad} : ∀ (n : Nat) {s t : State} {c d : Cmd},
    s.copyDown c dst src di si sbase n = some (t, d) → d.op = c.op
  | 0, _, _, _, _, h => by cases h; rfl
  | n + 1, s, t, c, d, h => by
    unfold State.copyDown at h
    dsimp only at h
    split at h
    · cases h
    · next goes => exact (copyDown_op n h).trans (copyElem_reaches s c dst src di si sbase n goes).1

theorem copyAll_reaches {dst src : Stream} {di si : Nat → Quad} {sbase : Quad} {n j : Nat} {s : State} {c : Cmd} (here : c.next = j) :
    (s.copyAll c dst src di si sbase n j).Reaches c (j + n) := by
  unfold State.copyAll
  dsimp only
  split
  · next whole =>
    split
    · split
      · next t d down => exact fun _ => ⟨(copyDown_op n down : d.op = c.op), by rw [whole.1, Nat.zero_add]⟩
      · exact copyRun_reaches n j here
    · exact copyRun_reaches n j here
  · exact copyRun_reaches n j here

theorem drainElem_reaches (s : State) (c : Cmd) (q : Stream) (idx : Nat → Quad) (tile : Tile) (pitch : Quad) (cols : Nat)
    (mask : BitVec 65536) (sbase : Quad) (rnd : Rnd) (sat : Bool) (i : Nat) :
    (s.drainElem c q idx tile pitch cols mask sbase rnd sat i).Reaches c (i + 1) := by
  unfold State.drainElem
  dsimp only
  split
  · exact fun _ => ⟨rfl, rfl⟩
  split
  · exact Run.reaches_of_stop rfl
  · exact fun _ => ⟨rfl, rfl⟩
  · exact fun _ => ⟨(engineWrite_at ..).1, rfl⟩

theorem fullerVertex_reaches (s : State) (c : Cmd) (d : Desc) (k : Nat) : (s.fullerVertex c d k).Reaches c (k + 1) := by
  unfold State.fullerVertex
  dsimp only
  split
  · exact Run.reaches_of_stop rfl
  split
  · exact Run.reaches_of_stop rfl
  · refine fun _ => ⟨?_, rfl⟩
    exact foldl_keeps _ (fun x : State × Cmd => x.2.op) (fun x o => (engineWrite_at ..).1) _ _

/-- A command that runs from its record on, and does not stop, comes to its end. -/
theorem runCmd_ends (s : State) (c : Cmd) (goes : (s.runCmd c).stop = none) :
    (s.runCmd c).c.total ≤ (s.runCmd c).c.next := by
  have reaches : (s.runCmd c).Reaches c (c.next + (c.total - c.next)) := by
    unfold State.runCmd State.runFor
    split
    · exact copyAll_reaches rfl
    · next q idx _ tile _ pitch cols mask sbase rnd sat _ =>
      exact run_reaches (run := fun s c n j => s.drainRun c q (idxOf idx) tile pitch cols mask sbase rnd sat n j)
        (fun _ _ _ => rfl) (fun _ _ _ _ => rfl)
        (fun s c j => drainElem_reaches s c q (idxOf idx) tile pitch cols mask sbase rnd sat j) _ _ rfl
    · next quads _ _ =>
      dsimp only
      split
      · exact Run.reaches_of_stop rfl
      · exact run_reaches (run := fun s c n j => s.fullerRun c ⟨quads⟩ n j) (fun _ _ _ => rfl) (fun _ _ _ _ => rfl)
          (fun s c j => fullerVertex_reaches s c ⟨quads⟩ j) _ _ rfl
  obtain ⟨op, next⟩ := reaches goes
  rw [Cmd.total_of_op op, next]
  omega

theorem onHartOutcome_placed {r : HartRef} {f : State → Host.Outcome State Fault Refusal} (h : s.placed r = true)
    (next : f (s.focus r) = .next t) : onHartOutcome s r f = .next (t.focus s.hart.ref) := by
  unfold onHartOutcome
  rw [if_pos h, next]

/-- A command of the hart whose turn it is, which may run and does not stop, completes. -/
theorem commandStep_completes {i : Nat} {c : Cmd} {is : Cmd → Bool} (listed : s.hart.cmds[i]? = some c) (may : s.hart.mayRun c = true)
    (kind : is c = true) :
    let w := s.drainUntil fun a => decide (a.seq < c.seq)
    let x := w.runCmd c
    w.hart.standsBefore c = false → x.stop = none →
    s.commandStep i is = .next ((x.s.notePoison x.c).mapHart (·.completeCmd x.c none)) := by
  intro w x apart goes
  unfold State.commandStep
  rw [listed]
  refine (if_neg (by rw [kind, may]; decide)).trans ((if_neg (by rw [apart]; exact Bool.false_ne_true)).trans ?_)
  unfold Run.outcome
  rw [goes]
  exact if_pos (runCmd_ends w c goes)

theorem engineCompletion_holds : engineCompletion := by
  intro s r i c placed u listed may w x apart goes after
  have completes : ∀ is : Cmd → Bool, is c = true →
      onHartOutcome s r (fun s => s.commandStep i is) = .next after := fun is kind =>
    onHartOutcome_placed (f := fun s => s.commandStep i is) placed (commandStep_completes listed may kind apart goes)
  refine ⟨completes Cmd.isCopy, fun fuller turn => ?_, completes Cmd.isDrain⟩
  exact onHartOutcome_placed (f := fun s => s.commandStep i fun x => x.isFuller && s.fullerTurn x) placed
    (commandStep_completes listed may (Bool.and_eq_true_iff.2 ⟨fuller, turn⟩) apart goes)

/-! ### Records (R132, R133, R257) -/

/-- Commands and entries of h carry numbers other than n, and each command's waiting entries carry its number. -/
structure Hart.Without (h : Hart) (n : Nat) : Prop where
  cmds : ∀ x ∈ h.cmds, x.seq ≠ n
  locks : ∀ x ∈ h.interlock, x.seq ≠ n
  own : ∀ x ∈ h.cmds, ∀ e ∈ x.ranges, e.seq = x.seq

/-- A command that takes its entries leaves what it waits for to no other. -/
theorem Hart.Without.takeEntries {n : Nat} : ∀ (k : Nat) {h : Hart}, h.Without n → (h.takeEntries k).Without n
  | 0, _, w => w
  | k + 1, h, w => by
    unfold Hart.takeEntries
    split
    · exact w
    next i found =>
      split
      · exact w
      next c here =>
        split
        · exact w
        · have listed : c ∈ h.cmds := List.mem_of_getElem? here
          have each : ∀ x ∈ h.cmds.set i { c with queued := false, ranges := [] }, x ∈ h.cmds ∨ x = { c with queued := false, ranges := [] } :=
            fun x hx => List.mem_or_eq_of_mem_set hx
          refine Hart.Without.takeEntries k ⟨fun x hx => ?_, fun x hx => ?_, fun x hx e he => ?_⟩
          · rcases each x hx with old | rfl
            · exact w.cmds x old
            · exact w.cmds c listed
          · rcases List.mem_append.1 hx with old | new
            · exact w.locks x old
            · rw [w.own c listed x new]
              exact w.cmds c listed
          · rcases each x hx with old | rfl
            · exact w.own x old e he
            · cases he

theorem Hart.dropCmd_without (h : Hart) (c : Cmd) (own : ∀ x ∈ h.cmds, ∀ e ∈ x.ranges, e.seq = x.seq) :
    (h.dropCmd c).Without c.seq := by
  refine Hart.Without.takeEntries _ ⟨fun x hx => ?_, fun x hx => ?_, fun x hx => own x (List.mem_filter.1 hx).1⟩
  · simpa using (List.mem_filter.1 hx).2
  · simpa using (List.mem_filter.1 hx).2

/-- Commands that take their entries change nothing else. -/
theorem Hart.takeEntries_eq : ∀ (n : Nat) (h : Hart),
    h.takeEntries n = { h with interlock := (h.takeEntries n).interlock, cmds := (h.takeEntries n).cmds }
  | 0, _ => rfl
  | n + 1, h => by
    unfold Hart.takeEntries
    split
    · rfl
    split
    · rfl
    split
    · rfl
    · exact (Hart.takeEntries_eq n _).trans rfl

/-- The hart once the record of a command is written (R257). -/
def Hart.recording (h : Hart) (c : Cmd) (status : BitVec 4) (n : Nat) : Hart :=
  if c.recorded then { h with records := h.records.set c.k.toNat (c.record status n) } else h

/-- The hart once kstat shows the poison that a command has marked (R111). -/
def Hart.marking (h : Hart) (c : Cmd) : Hart :=
  if c.marked.isEmpty then h else { h with csr := { h.csr with kstat := h.csr.kstat ||| (1#24 <<< (8 + c.k.toNat)) } }

/-- The hart once a cpyff has written its result (R256). -/
def Hart.answering (h : Hart) (c : Cmd) (n : Nat) : Hart :=
  match c.op with
  | .copy _ _ _ _ _ _ _ _ (some sd) => h.setS sd (BitVec.ofNat 64 n) 0
  | _ => h

theorem Hart.completeCmd_eq (h : Hart) (c : Cmd) : h.completeCmd c none =
    ((((h.dropCmd c).recording c (if c.marked.isEmpty then 2 else 3) c.next).marking c).answering c c.next).bumpK c.k := rfl

/-- g is h but for records, CSRs, scalar registers and counters. -/
def Hart.Noted (h g : Hart) : Prop := g = { h with records := g.records, csr := g.csr, s := g.s, st := g.st, k := g.k }

theorem Hart.Noted.trans {h g f : Hart} (x : h.Noted g) (y : g.Noted f) : h.Noted f := by
  unfold Hart.Noted at x y ⊢
  rw [y, x]

theorem Hart.Noted.registers {h g : Hart} (x : h.Noted g) : g.pc = h.pc ∧ g.v = h.v ∧ g.m = h.m ∧ g.q = h.q := by
  unfold Hart.Noted at x
  rw [x]
  exact ⟨rfl, rfl, rfl, rfl⟩

theorem Hart.recording_noted (h : Hart) (c : Cmd) (status : BitVec 4) (n : Nat) : h.Noted (h.recording c status n) := by
  unfold Hart.recording
  split <;> rfl

theorem Hart.marking_noted (h : Hart) (c : Cmd) : h.Noted (h.marking c) := by
  unfold Hart.marking
  split <;> rfl

theorem Hart.setS_noted (h : Hart) (d : SReg) (x : Quad) (t : TaintSet) : h.Noted (h.setS d x t) := by
  rw [Hart.setS_eq]
  rfl

theorem Hart.answering_noted (h : Hart) (c : Cmd) (n : Nat) : h.Noted (h.answering c n) := by
  unfold Hart.answering
  split
  · exact h.setS_noted ..
  · rfl

theorem Hart.bumpK_noted (h : Hart) (k : KReg) : h.Noted (h.bumpK k) := by
  unfold Hart.bumpK
  dsimp only
  split <;> rfl

theorem Hart.completeCmd_noted (h : Hart) (c : Cmd) : (h.dropCmd c).Noted (h.completeCmd c none) := by
  rw [Hart.completeCmd_eq]
  exact (((h.dropCmd c).recording_noted ..).trans (Hart.marking_noted ..)).trans
    ((Hart.answering_noted ..).trans (Hart.bumpK_noted ..))

@[simp] theorem Hart.bumpK_records (h : Hart) (k : KReg) : (h.bumpK k).records = h.records := by
  unfold Hart.bumpK
  dsimp only
  split <;> rfl

@[simp] theorem Hart.answering_records (h : Hart) (c : Cmd) (n : Nat) : (h.answering c n).records = h.records := by
  unfold Hart.answering
  split
  · exact Hart.setS_records ..
  · rfl

@[simp] theorem Hart.answering_k (h : Hart) (c : Cmd) (n : Nat) : (h.answering c n).k = h.k := by
  unfold Hart.answering
  split
  · exact Hart.setS_k ..
  · rfl

@[simp] theorem Hart.marking_records (h : Hart) (c : Cmd) : (h.marking c).records = h.records := by
  unfold Hart.marking
  split <;> rfl

@[simp] theorem Hart.marking_k (h : Hart) (c : Cmd) : (h.marking c).k = h.k := by
  unfold Hart.marking
  split <;> rfl

@[simp] theorem Hart.recording_k (h : Hart) (c : Cmd) (status : BitVec 4) (n : Nat) : (h.recording c status n).k = h.k := by
  unfold Hart.recording
  split <;> rfl

theorem Hart.dropCmd_eq (h : Hart) (c : Cmd) :
    h.dropCmd c = { h with interlock := (h.dropCmd c).interlock, cmds := (h.dropCmd c).cmds } :=
  Hart.takeEntries_eq _ _

theorem engineRecords_holds : engineRecords := by
  intro h c own g
  obtain ⟨cmds, locks, -⟩ := h.dropCmd_without c own
  have noted := h.completeCmd_noted c
  have dropped := h.dropCmd_eq c
  have counted : g.k = h.k.set c.k.toNat (h.k[c.k.toNat] + 1) := by
    show (h.completeCmd c none).k = _
    rw [Hart.completeCmd_eq, dropped]
    simp
  refine ⟨fun x hx => cmds x ?_, fun x hx => locks x ?_, ?_, fun recorded => ?_, ?_⟩
  · rwa [← congrArg Hart.cmds noted]
  · rwa [← congrArg Hart.interlock noted]
  · rw [counted, Vector.getElem_set_self]
  · have record : g.records[c.k.toNat] = c.record (if c.marked.isEmpty then 2 else 3) c.next := by
      have written : g.records = (h.dropCmd c).records.set c.k.toNat (c.record (if c.marked.isEmpty then 2 else 3) c.next) := by
        show (h.completeCmd c none).records = _
        rw [Hart.completeCmd_eq, Hart.bumpK_records, Hart.answering_records, Hart.marking_records]
        exact congrArg Hart.records (if_pos recorded)
      rw [written, Vector.getElem_set_self]
    rw [record]
    refine ⟨rfl, ?_⟩
    show (if c.marked.isEmpty = true then (2 : BitVec 4) else 3) = if c.marked = [] then 2 else 3
    simp only [List.isEmpty_iff]
  · obtain ⟨pc, v, m, q⟩ := noted.registers
    rw [dropped] at pc v m q
    exact ⟨pc, v, m, q⟩

/-- Settles O51: a command issues with what it captures (`engages`), comes to its end where it does not stop
(`runCmd_ends`), and leaves its record and counter as `Hart.completeCmd_eq` says. -/
theorem engineInstructions : Obligations.EngineInstructions := ⟨engineIssue_holds, engineCompletion_holds, engineRecords_holds⟩

end Sys2Proof.Machine
end

section
/-! SUPPORT. What the transport of a package keeps, and the packets that it takes (R283, R399, R401). -/

namespace Sys2Proof.Machine
variable {s t u v : State} {pkg conn : Nat}

/-! ### The transport of a package -/

@[simp] theorem State.transport_onTransport (s : State) (pkg : Nat) (f : Transport → Transport) :
    (s.onTransport pkg f).transport pkg = f (s.transport pkg) :=
  congrArg Package.transport (s.pack_setPack_eq (p := { s.pack pkg with transport := f (s.pack pkg).transport }) (s.pack_pkg pkg))

theorem State.transport_of_pkgs (h : t.pkgs = s.pkgs) (pkg : Nat) : t.transport pkg = s.transport pkg :=
  congrArg Package.transport (State.pack_of_pkgs h pkg)

theorem State.onlyPacks_onTransport (s : State) (pkg : Nat) (f : Transport → Transport) : OnlyPacks s (s.onTransport pkg f) [pkg] :=
  s.onlyPacks_setPack (s.pack_pkg pkg)

theorem changesPack_onTransport (s : State) (pkg : Nat) (f : Transport → Transport) :
    ChangesPack s pkg { s.pack pkg with transport := f (s.transport pkg) } (.next (s.onTransport pkg f)) :=
  changesPack_setPack s (s.pack_pkg pkg)

theorem State.onSender_pkgs (s : State) (r : HartRef) (gang : Word) (f : Hart → Hart) : (s.onSender r gang f).pkgs = s.pkgs := by
  unfold State.onSender
  split
  · exact State.onHart_pkgs ..
  · rfl

theorem State.putBytes_pkgs (h : Hart) : ∀ (l : List (Nat × Nat)) (bytes : List Byte) (bad : List Nat) {s t : State},
    s.putBytes h bytes bad l = .ok t → t.pkgs = s.pkgs ∧ t.hart = s.hart
  | [], _, _, _, _, e => by cases e; exact ⟨rfl, rfl⟩
  | (a, n) :: r, bytes, bad, s, t, e => by
    unfold State.putBytes at e
    split at e
    · cases e
    · dsimp only at e
      obtain ⟨pkgs, hart⟩ := State.putBytes_pkgs h r _ _ e
      exact ⟨pkgs, hart⟩

/-! ### Cached contexts -/

theorem Transport.find_conn {t : Transport} {c : Conn} (h : t.find conn = some c) : c.conn = conn := by
  simpa using List.find?_some h

theorem Transport.find_mem {t : Transport} {c : Conn} (h : t.find conn = some c) : t.conns.any (·.conn == c.conn) = true :=
  List.any_eq_true.2 ⟨c, List.mem_of_find?_eq_some h, beq_self_eq_true _⟩

theorem Transport.setConn_of_cached {t : Transport} {c : Conn} (h : t.conns.any (·.conn == c.conn) = true) :
    t.setConn c = { t with conns := c :: t.conns.filter (·.conn != c.conn) } := if_pos h

theorem Transport.find_setConn_same {t : Transport} {c d : Conn} (h : t.find conn = some c) (e : d.conn = c.conn) :
    (t.setConn d).find conn = some d := by
  have is : d.conn = conn := e.trans (Transport.find_conn h)
  rw [Transport.setConn_of_cached (by rw [e]; exact Transport.find_mem h)]
  simp [Transport.find, is]

theorem Transport.find_setConn_ne (t : Transport) {c : Conn} (h : conn ≠ c.conn) : (t.setConn c).find conn = t.find conn := by
  unfold Transport.setConn
  split
  · have other : ∀ l : List Conn, (l.filter (·.conn != c.conn)).find? (·.conn == conn) = l.find? (·.conn == conn) := by
      intro l
      rw [List.find?_filter]
      congr 1
      funext d
      by_cases is : d.conn = conn <;> simp [is, h]
    exact (List.find?_cons_of_neg (by simpa using Ne.symm h)).trans (other _)
  · rfl

section
variable (t : Transport) (c : Conn)

@[simp] theorem Transport.setConn_staged : (t.setConn c).staged = t.staged := by
  unfold Transport.setConn
  split <;> rfl

@[simp] theorem Transport.setConn_acks : (t.setConn c).acks = t.acks := by
  unfold Transport.setConn
  split <;> rfl

@[simp] theorem Transport.setConn_requests : (t.setConn c).requests = t.requests := by
  unfold Transport.setConn
  split <;> rfl

end

/-- The asid of a cached connection. -/
def Transport.owner (t : Transport) (conn : Nat) : Option (BitVec 16) := (t.find conn).map (·.asid)

theorem Transport.owner_setConn {t : Transport} {c : Conn} (h : t.owner c.conn = some c.asid) (conn : Nat) :
    (t.setConn c).owner conn = t.owner conn := by
  obtain ⟨d, found, -⟩ := Option.map_eq_some_iff.1 h
  unfold Transport.owner
  by_cases is : conn = c.conn
  · subst is
    rw [Transport.find_setConn_same found (Transport.find_conn found).symm]
    exact h.symm
  · rw [Transport.find_setConn_ne t is]

/-- `u` has the staged packets of `t`, its acknowledgements and perhaps more, and its contexts, each of the same asid. -/
structure Transport.Carries (t u : Transport) : Prop where
  staged : u.staged = t.staged
  acks : t.acks <+: u.acks
  owner : ∀ conn, u.owner conn = t.owner conn

theorem Transport.Carries.refl (t : Transport) : t.Carries t := ⟨rfl, List.prefix_rfl, fun _ => rfl⟩

theorem Transport.Carries.trans {t u v : Transport} (h : t.Carries u) (k : u.Carries v) : t.Carries v :=
  ⟨k.staged.trans h.staged, h.acks.trans k.acks, fun conn => (k.owner conn).trans (h.owner conn)⟩

theorem Transport.carries_setConn {t : Transport} {c : Conn} (h : t.owner c.conn = some c.asid) : t.Carries (t.setConn c) := by
  exact ⟨t.setConn_staged c, by rw [Transport.setConn_acks], Transport.owner_setConn h⟩

theorem Transport.owner_of_find {t : Transport} {c : Conn} (h : t.find conn = some c) : t.owner c.conn = some c.asid := by
  rw [Transport.find_conn h]
  exact congrArg (Option.map Conn.asid) h

theorem Conn.rekeyed_if (p : Prop) [Decidable p] (c : Conn) :
    (if p then c.rekey else c).conn = c.conn ∧ (if p then c.rekey else c).asid = c.asid := by
  split <;> exact ⟨rfl, rfl⟩

/-- A packet put on the wire, and kept by its connection. -/
def Transport.sent (t : Transport) (now : Nat) (c : Conn) (p : TPacket) : Transport :=
  { t.setConn { c with psn := (c.psn + 1) % 2 ^ 32, unacked := c.unacked ++ [p], sentAt := (p.psn, now) :: c.sentAt } with
    wire := p :: t.wire }

theorem Transport.carries_sent {t : Transport} {c : Conn} (h : t.owner c.conn = some c.asid) (now : Nat) (p : TPacket) :
    t.Carries (t.sent now c p) := by
  obtain ⟨staged, acks, owner⟩ := Transport.carries_setConn (t := t)
    (c := { c with psn := (c.psn + 1) % 2 ^ 32, unacked := c.unacked ++ [p], sentAt := (p.psn, now) :: c.sentAt }) h
  exact ⟨staged, acks, owner⟩

theorem Transport.transmit_eq (t : Transport) (now udp : Nat) (c : Conn) (p : TPacket) :
    ∃ d q, d.conn = c.conn ∧ d.asid = c.asid ∧ t.transmit now udp c p = t.sent now d q := by
  obtain ⟨sameConn, sameAsid⟩ := Conn.rekeyed_if (2 ^ 31 ≤ psnPast c.psn c.keyPsn + 1) c
  exact ⟨_, _, sameConn, sameAsid, rfl⟩

theorem Transport.carries_transmit {t : Transport} {c : Conn} (h : t.find conn = some c) (now udp : Nat) (p : TPacket) :
    t.Carries (t.transmit now udp c p) := by
  obtain ⟨d, q, sameConn, sameAsid, sent⟩ := t.transmit_eq now udp c p
  rw [sent]
  exact Transport.carries_sent (by rw [sameConn, sameAsid]; exact Transport.owner_of_find h) now q

theorem Transport.carries_transmitAll (now udp conn : Nat) : ∀ (ps : List TPacket) (t : Transport), t.Carries (t.transmitAll now udp conn ps)
  | [], t => .refl t
  | p :: ps, t => by
    refine Transport.Carries.trans ?_ (Transport.carries_transmitAll now udp conn ps _)
    dsimp only
    split
    · next c found => exact Transport.carries_transmit found now udp p
    · exact .refl t

/-- The transport of package pkg at `u` carries on the one at `s`. -/
def State.Carries (pkg : Nat) (s u : State) : Prop := (s.transport pkg).Carries (u.transport pkg)

theorem State.Carries.refl (s : State) : s.Carries pkg s := Transport.Carries.refl _

theorem State.Carries.trans (h : State.Carries pkg s t) (k : State.Carries pkg t u) : State.Carries pkg s u :=
  Transport.Carries.trans h k

theorem State.Carries.of_pkgs (h : t.pkgs = s.pkgs) : State.Carries pkg s t := by
  unfold State.Carries
  rw [State.transport_of_pkgs h]
  exact .refl _

theorem State.carries_onTransport {f : Transport → Transport} (h : (s.transport pkg).Carries (f (s.transport pkg))) :
    State.Carries pkg s (s.onTransport pkg f) := by
  unfold State.Carries
  rwa [State.transport_onTransport]

theorem State.carries_setReq (s : State) (pkg : Nat) (w : WorkReq) : State.Carries pkg s (s.onTransport pkg (·.setReq w)) :=
  State.carries_onTransport ⟨rfl, List.prefix_rfl, fun _ => rfl⟩

theorem State.carries_sendPackets (s : State) (pkg conn : Nat) (ps : List TPacket) : State.Carries pkg s (s.sendPackets pkg conn ps) :=
  State.carries_onTransport (Transport.carries_transmitAll ..)

/-! ### Starting requests -/

theorem State.requestPackets_error {w : WorkReq} {c : Byte} (e : s.requestPackets w = .error (c, t)) :
    t.pkgs = s.pkgs ∧ ∃ st, t.hart = { s.hart with status := st } := by
  unfold State.requestPackets at e
  extract_lets total h at e
  split at e
  · split at e
    · simp only [Except.error.injEq, Prod.mk.injEq] at e
      obtain ⟨-, rfl⟩ := e
      split
      · exact ⟨State.logFail_pkgs .., State.logFail_hart ..⟩
      · exact ⟨rfl, _, rfl⟩
    · cases e
  · cases e
  · cases e

/-- What a package does to start requests: it carries on, and a hart may be woken. -/
def State.Starts (pkg : Nat) (s u : State) : Prop := State.Carries pkg s u ∧ ∃ st, u.hart = { s.hart with status := st }

theorem State.Starts.refl (s : State) : s.Starts pkg s := ⟨.refl s, _, rfl⟩

theorem State.Starts.trans (h : State.Starts pkg s t) (k : State.Starts pkg t u) : State.Starts pkg s u := by
  obtain ⟨carries, a, woken⟩ := h
  obtain ⟨carries', b, woken'⟩ := k
  exact ⟨carries.trans carries', b, by rw [woken', woken]⟩

theorem State.starts_startGo (pkg conn : Nat) : ∀ (n : Nat) (s : State), s.Starts pkg (s.startGo pkg conn n)
  | 0, s => .refl s
  | n + 1, s => by
    unfold State.startGo
    extract_lets t mine
    split
    · next w cached found =>
      extract_lets earlier started
      split
      · exact .refl s
      · refine State.Starts.trans (t := started) ?_ (State.starts_startGo pkg conn n _)
        dsimp only [started]
        split
        · exact ⟨s.carries_setReq pkg _, _, rfl⟩
        · split
          · next e =>
            obtain ⟨pkgs, st, woken⟩ := State.requestPackets_error e
            exact ⟨(State.Carries.of_pkgs pkgs).trans (State.carries_setReq _ pkg _), st, woken⟩
          · exact ⟨(s.carries_setReq pkg _).trans (State.carries_sendPackets _ pkg conn _), _, rfl⟩
    · exact .refl s

theorem State.starts_startRequests (s : State) (pkg conn : Nat) : s.Starts pkg (s.startRequests pkg conn) :=
  State.starts_startGo pkg conn _ s

theorem State.startRequests_uncached (h : (s.transport pkg).find conn = none) : s.startRequests pkg conn = s := by
  unfold State.startRequests
  cases (s.transport pkg).requests.length with
  | zero => rfl
  | succ n =>
    unfold State.startGo
    dsimp only
    rw [h]
    rfl

theorem State.carries_countArrival (s : State) (pkg : Nat) (asid : BitVec 16) (id : Word) :
    State.Carries pkg s (s.countArrival pkg asid id) := by
  unfold State.countArrival
  extract_lets t
  split
  · extract_lets w
    split
    · exact s.carries_setReq pkg w
    · exact State.Carries.trans (State.carries_onTransport ⟨rfl, List.prefix_rfl, fun _ => rfl⟩) (State.starts_startRequests _ pkg w.conn).1
  · exact State.carries_onTransport ⟨rfl, List.prefix_rfl, fun _ => rfl⟩

/-! ### Packets that arrive -/

theorem Transport.carries_ack (t : Transport) (conn psn : Nat) : t.Carries (t.ack conn psn) :=
  ⟨rfl, List.prefix_append _ _, fun _ => rfl⟩

theorem State.not_tooEarly {c : Conn} {p : TPacket} (h : p.op ≠ 3) : s.tooEarly pkg c p = false := by
  unfold State.tooEarly
  split
  · simp [h]
  · rfl

theorem State.placeAnswer_ok {w : WorkReq} {p : TPacket} (e : s.placeAnswer pkg w p = .ok v) :
    ∃ u, s.putBytes (engineHart w.hart w.asid) p.payload p.bad (rangeAt (w.quad 1 + BitVec.ofNat 64 p.offset) p.payload.length) = .ok u ∧
      v.mem = u.mem ∧ v.hart.s = u.hart.s ∧ State.Carries pkg s v := by
  unfold State.placeAnswer at e
  split at e
  · cases e
  · next u placed =>
    cases e
    refine ⟨u, placed, State.onSender_mem .., ?_, ?_⟩
    · unfold State.onSender State.onHart
      split
      · split <;> rfl
      · rfl
    · exact ((State.Carries.of_pkgs (State.putBytes_pkgs _ _ _ _ placed).1).trans (State.carries_setReq _ pkg _)).trans
        (State.Carries.of_pkgs (State.onSender_pkgs ..))

theorem State.carries_failAnswer (s : State) (pkg : Nat) (w : WorkReq) (e : Fail ⊕ Fault) :
    State.Carries pkg s (s.failAnswer pkg w e) := by
  unfold State.failAnswer
  extract_lets u
  have logged : u.pkgs = s.pkgs := by
    dsimp only [u]
    split
    · exact State.logFail_pkgs ..
    · rfl
  exact (State.Carries.of_pkgs logged).trans (State.carries_setReq u pkg _)

theorem Transport.carries_acks (conn : Nat) : ∀ (ps : List TPacket) (t : Transport), t.Carries (ps.foldl (fun t p => t.ack conn p.psn) t)
  | [], t => .refl t
  | p :: ps, t => (t.carries_ack conn p.psn).trans (Transport.carries_acks conn ps _)

theorem State.carries_placeEarly (pkg number : Nat) : ∀ (n : Nat) (s : State), State.Carries pkg s (s.placeEarly pkg number n)
  | 0, s => .refl s
  | n + 1, s => by
    unfold State.placeEarly
    split
    · exact .refl s
    · split
      · exact .refl s
      · split
        · exact (s.carries_failAnswer pkg _ _).trans (State.carries_onTransport (Transport.carries_acks ..))
        · next placed =>
          obtain ⟨-, -, -, -, carries⟩ := State.placeAnswer_ok placed
          exact (carries.trans (State.carries_onTransport (Transport.carries_ack ..))).trans (State.carries_placeEarly pkg number n _)

theorem State.carries_store (s : State) (a n x : Nat) (clears : Bool) : State.Carries pkg s (s.store a n x clears) := .of_pkgs rfl

theorem State.carries_applyPacket {c : Conn} {p : TPacket} (e : s.applyPacket pkg c p = .ok t) : State.Carries pkg s t := by
  unfold State.applyPacket at e
  extract_lets h at_ at e
  split at e
  · exact .of_pkgs (State.putBytes_pkgs _ _ _ _ e).1
  · split at e
    · cases e
    · cases e
      exact State.carries_sendPackets ..
  · split at e
    · cases e
    · cases e
      exact (s.carries_store ..).trans (State.carries_sendPackets ..)
  · split at e
    · cases e
      exact .refl s
    · split at e
      · cases e
        exact State.carries_setReq ..
      · split at e
        · cases e
          exact State.carries_setReq ..
        · split at e
          · cases e
            exact State.carries_failAnswer ..
          · next placed =>
            cases e
            obtain ⟨-, -, -, -, carries⟩ := State.placeAnswer_ok placed
            exact carries.trans (State.carries_placeEarly ..)

/-- What the transport notes of the bytes of a packet, and of the signal of a read. -/
def Transport.noted (t : Transport) (c : Conn) (p : TPacket) : Transport :=
  let n := assocGet c.got p.req 0 + p.payload.length
  match t.find c.conn with
  | some c => t.setConn { c with
      got := if decide (p.op = 0) && decide (p.total ≤ n) then assocDel c.got p.req
        else if p.op = 0 then assocSet c.got p.req n else c.got,
      sigs := match p.op, p.sig with
        | 1, some id => c.sigs ++ [(p.req, BitVec.ofNat 32 id)]
        | _, _ => c.sigs }
  | none => t

theorem Transport.noted_kept (t : Transport) (c : Conn) (p : TPacket) :
    t.Carries (t.noted c p) ∧ (t.noted c p).acks = t.acks ∧ (t.noted c p).requests = t.requests := by
  unfold Transport.noted
  dsimp only
  split
  · next d found => exact ⟨Transport.carries_setConn (Transport.owner_of_find found :), by simp, by simp⟩
  · exact ⟨.refl t, rfl, rfl⟩

/-- A packet with no signal, or one that is no write, starts no request. -/
theorem State.countBytes_quiet {c : Conn} {p : TPacket} (h : p.op ≠ 0 ∨ p.sig = none) :
    s.countBytes pkg c p = s.onTransport pkg (·.noted c p) := by
  unfold State.countBytes
  extract_lets n all u
  split
  · next id isAll isSig =>
    have isWrite : p.op = 0 := by
      dsimp only [all] at isAll
      simp at isAll
      exact isAll.1
    rcases h with notWrite | noSig
    · exact absurd isWrite notWrite
    · rw [noSig] at isSig
      cases isSig
  · rfl

theorem State.carries_countBytes (s : State) (pkg : Nat) (c : Conn) (p : TPacket) : State.Carries pkg s (s.countBytes pkg c p) := by
  have noted : State.Carries pkg s (s.onTransport pkg (·.noted c p)) := State.carries_onTransport (Transport.noted_kept _ c p).1
  unfold State.countBytes
  extract_lets n all u
  split
  · exact noted.trans (State.carries_countArrival ..)
  · exact noted

/-- The number of a packet is known. -/
def Transport.knows (t : Transport) (c : Conn) (p : TPacket) : Transport :=
  match t.find c.conn with
  | some c => t.setConn { c with seen := (p.key, p.psn) :: c.seen }
  | none => t

theorem Transport.knows_kept (t : Transport) (c : Conn) (p : TPacket) :
    t.Carries (t.knows c p) ∧ (t.knows c p).acks = t.acks ∧ (t.knows c p).requests = t.requests := by
  unfold Transport.knows
  split
  · next d found => exact ⟨Transport.carries_setConn (Transport.owner_of_find found :), by simp, by simp⟩
  · exact ⟨.refl t, rfl, rfl⟩

/-- A packet is taken: its number is known, and it is acknowledged unless it has come early. -/
def Transport.taken (t : Transport) (c : Conn) (p : TPacket) (early : Bool) : Transport :=
  if early then t.knows c p else (t.knows c p).ack c.conn p.psn

theorem Transport.taken_kept (t : Transport) (c : Conn) (p : TPacket) (early : Bool) :
    t.Carries (t.taken c p early) ∧ (t.taken c p early).requests = t.requests ∧
      (t.taken c p early).acks = if early then t.acks else t.acks ++ [(c.conn, p.psn)] := by
  obtain ⟨carries, acks, requests⟩ := t.knows_kept c p
  cases early with
  | true => exact ⟨carries, requests, acks⟩
  | false => exact ⟨carries.trans (Transport.carries_ack ..), requests, congrArg (· ++ [(c.conn, p.psn)]) acks⟩

theorem State.takePacket_applied {c : Conn} {p : TPacket} (ok : p.sealOk = true) (new : (p.key, p.psn) ∉ c.seen)
    (e : s.applyPacket pkg c p = .ok u) :
    s.takePacket pkg c p = (u.onTransport pkg (·.taken c p (s.tooEarly pkg c p))).countBytes pkg c p := by
  unfold State.takePacket
  rw [if_neg (by simp [ok]), if_neg (by simpa using new), e]
  rfl

theorem State.carries_notReady (s : State) (pkg : Nat) (p : TPacket) : State.Carries pkg s (s.notReady pkg p) :=
  State.carries_onTransport (f := fun t => { t with notready := t.notready ++ [(p.conn, p.psn, 1 + (Config.value s.free).toNat % 255)] })
    ⟨rfl, List.prefix_rfl, fun _ => rfl⟩

theorem State.carries_takePacket (s : State) (pkg : Nat) (c : Conn) (p : TPacket) : State.Carries pkg s (s.takePacket pkg c p) := by
  unfold State.takePacket
  split
  · exact s.carries_notReady pkg p
  · split
    · split
      · exact .refl s
      · exact State.carries_onTransport (Transport.carries_ack ..)
    · extract_lets early taken
      have took : ∀ u, State.Carries pkg u (u.onTransport pkg taken) := fun u =>
        State.carries_onTransport (Transport.taken_kept (u.transport pkg) c p early).1
      split
      · refine State.Carries.trans ?_ (took _)
        unfold State.denyPacket
        extract_lets u
        have logged : u.pkgs = s.pkgs := by
          dsimp only [u]
          split
          · exact State.logFail_pkgs ..
          · rfl
        exact (State.Carries.of_pkgs logged).trans (State.carries_sendPackets ..)
      · next applied => exact ((State.carries_applyPacket applied).trans (took _)).trans (State.carries_countBytes ..)

theorem State.taken_acked {c : Conn} {p : TPacket} (h : s.tooEarly pkg c p = false) (u : State) :
    (c.conn, p.psn) ∈ (((u.onTransport pkg (·.taken c p (s.tooEarly pkg c p))).countBytes pkg c p).transport pkg).acks := by
  refine (State.carries_countBytes _ pkg c p).acks.subset ?_
  rw [State.transport_onTransport, h, (Transport.taken_kept ..).2.2]
  simp

theorem State.taken_quiet {c : Conn} {p : TPacket} (h : p.op ≠ 0 ∨ p.sig = none) (u : State) (early : Bool) :
    let v := (u.onTransport pkg (·.taken c p early)).countBytes pkg c p
    v.mem = u.mem ∧ v.hart = u.hart ∧ (v.transport pkg).requests = (u.transport pkg).requests ∧
      (early = true → (v.transport pkg).acks = (u.transport pkg).acks) := by
  intro v
  obtain ⟨-, takenRequests, takenAcks⟩ := (u.transport pkg).taken_kept c p early
  have noted : (v.transport pkg) = ((u.transport pkg).taken c p early).noted c p := by
    dsimp only [v]
    rw [State.countBytes_quiet h, State.transport_onTransport, State.transport_onTransport]
  obtain ⟨-, acks, requests⟩ := ((u.transport pkg).taken c p early).noted_kept c p
  refine ⟨?_, ?_, ?_, fun is => ?_⟩
  · dsimp only [v]
    rw [State.countBytes_quiet h]
    rfl
  · dsimp only [v]
    rw [State.countBytes_quiet h]
    rfl
  · rw [noted, requests, takenRequests]
  · rw [noted, acks, takenAcks, if_pos is]

theorem receive_unread (not : s.isTransport pkg p = false) (low : 32 ≤ p.port) (high : p.port < 40) :
    exec (.transportPacketReceive pkg p) s = .next (s.onTransport pkg fun t =>
      { t with frames := assocSet t.frames p.port (assocGet t.frames p.port 0 + 1) }) := by
  show execTransportPacketReceive pkg p s = _
  unfold execTransportPacketReceive State.countFrame
  simp [not, Nat.not_lt.2 low, Nat.not_le.2 high]

section
variable {p : TPacket}

theorem receive_unopened (is : s.isTransport pkg p = true) (shut : s.connOpen pkg p.conn = false) :
    exec (.transportPacketReceive pkg p) s = .next (s.notReady pkg p) := by
  show execTransportPacketReceive pkg p s = _
  unfold execTransportPacketReceive
  simp [is, shut]

theorem receive_cached {c : Conn} (is : s.isTransport pkg p = true) (opened : s.connOpen pkg p.conn = true)
    (cached : (s.transport pkg).find p.conn = some c) :
    exec (.transportPacketReceive pkg p) s = .next (s.takePacket pkg c p) := by
  show execTransportPacketReceive pkg p s = _
  unfold execTransportPacketReceive
  simp [is, opened, cached]

theorem receive_crowded (is : s.isTransport pkg p = true) (opened : s.connOpen pkg p.conn = true)
    (uncached : (s.transport pkg).find p.conn = none)
    (crowd : 256 ≤ (s.transport pkg).staged.length ∨ 32 ≤ ((s.transport pkg).staged.filter (·.conn == p.conn)).length) :
    exec (.transportPacketReceive pkg p) s = .next (s.notReady pkg p) := by
  show execTransportPacketReceive pkg p s = _
  unfold execTransportPacketReceive
  simp only [is, opened, uncached, if_pos crowd]
  rfl

theorem receive_staged (is : s.isTransport pkg p = true) (opened : s.connOpen pkg p.conn = true)
    (uncached : (s.transport pkg).find p.conn = none) (room : (s.transport pkg).staged.length < 256)
    (own : ((s.transport pkg).staged.filter (·.conn == p.conn)).length < 32) :
    exec (.transportPacketReceive pkg p) s = .next (s.onTransport pkg fun t => { t with
      staged := t.staged ++ [p], fetching := if t.fetching.contains p.conn then t.fetching else p.conn :: t.fetching }) := by
  show execTransportPacketReceive pkg p s = _
  unfold execTransportPacketReceive
  simp only [is, opened, uncached, if_neg (not_or.2 ⟨Nat.not_le.2 room, Nat.not_le.2 own⟩)]
  rfl

theorem notReady_refused (s : State) (pkg : Nat) (p : TPacket) : ∃ d, 1 ≤ d ∧ d ≤ 255 ∧
    ChangesPack s pkg { s.pack pkg with transport := { s.transport pkg with
      notready := (s.transport pkg).notready ++ [(p.conn, p.psn, d)] } } (.next (s.notReady pkg p)) := by
  obtain ⟨v, e, only, pack⟩ := changesPack_onTransport s pkg fun t =>
    { t with notready := t.notready ++ [(p.conn, p.psn, 1 + (Config.value s.free).toNat % 255)] }
  cases e
  have short : (Config.value s.free).toNat % 255 < 255 := Nat.mod_lt _ (by decide)
  exact ⟨_, Nat.le_add_right 1 _, by omega, _, rfl, only, pack⟩

/-- A new packet on a cached connection that can be applied. -/
theorem receive_applied {c : Conn} (is : s.isTransport pkg p = true) (opened : s.connOpen pkg p.conn = true)
    (cached : (s.transport pkg).find p.conn = some c) (ok : p.sealOk = true) (new : (p.key, p.psn) ∉ c.seen)
    (applied : s.applyPacket pkg c p = .ok u) :
    ∃ v, exec (.transportPacketReceive pkg p) s = .next v ∧
      (s.tooEarly pkg c p = false → (c.conn, p.psn) ∈ (v.transport pkg).acks) ∧
      (p.op ≠ 0 ∨ p.sig = none → v.mem = u.mem ∧ v.hart = u.hart ∧ (v.transport pkg).requests = (u.transport pkg).requests ∧
        (s.tooEarly pkg c p = true → (v.transport pkg).acks = (u.transport pkg).acks)) :=
  ⟨_, (receive_cached is opened cached).trans (congrArg _ (State.takePacket_applied ok new applied)),
    fun late => State.taken_acked late u, fun quiet => State.taken_quiet quiet u _⟩

section
variable {c : Conn}

theorem applyPacket_write (op : p.op = 0) : s.applyPacket pkg c p = s.putBytes (engineHart ⟨pkg, 3072⟩ c.asid) p.payload p.bad
    (rangeAt (p.addr + BitVec.ofNat 64 p.offset) p.payload.length) := by
  unfold State.applyPacket
  rw [op]
  rfl

theorem applyPacket_read {data : List Byte × List Nat} (op : p.op = 1)
    (read : s.bytesAt (engineHart ⟨pkg, 3072⟩ c.asid) .engRead (rangeAt p.addr p.total) = .ok data) :
    s.applyPacket pkg c p = .ok (s.sendPackets pkg c.conn (dataPackets 3 p.req p.total p.addr none data)) := by
  unfold State.applyPacket portHart
  rw [op]
  dsimp only
  rw [read]
  rfl

theorem applyPacket_add {l : Loc} (op : p.op = 2)
    (passes : s.check (engineHart ⟨pkg, 3072⟩ c.asid) c.asid p.addr 8 .atomic .own = .ok l) :
    s.applyPacket pkg c p = .ok ((s.store l.phys 8 ((readN s.mem l.phys 8 + byteNat p.payload) % 2 ^ 64) false).sendPackets pkg c.conn
      [packet 4 p.req 0 8 p.addr none (natBytes (readN s.mem l.phys 8)) []]) := by
  unfold State.applyPacket portHart
  rw [op]
  dsimp only
  rw [passes]
  rfl

theorem applyPacket_denial {w : WorkReq} (op : p.op = 5) (answers : s.answered pkg c p = some w) :
    s.applyPacket pkg c p = .ok (s.onTransport pkg (·.setReq { w with ends := some (w.ends.getD 2) })) := by
  unfold State.applyPacket
  rw [answers, op]
  rfl

theorem applyPacket_early {w : WorkReq} (op : p.op = 3 ∨ p.op = 4) (answers : s.answered pkg c p = some w)
    (early : s.tooEarly pkg c p = true) :
    s.applyPacket pkg c p = .ok (s.onTransport pkg (·.setReq { w with early := w.early ++ [p] })) := by
  unfold State.applyPacket
  rw [answers, early]
  rcases op with op | op <;> rw [op] <;> rfl

theorem applyPacket_answer {w : WorkReq} (op : p.op = 3 ∨ p.op = 4) (answers : s.answered pkg c p = some w)
    (late : s.tooEarly pkg c p = false) (none : w.early = [])
    (placed : s.putBytes (engineHart w.hart w.asid) p.payload p.bad
      (rangeAt (w.quad 1 + BitVec.ofNat 64 p.offset) p.payload.length) = .ok u) :
    ∃ v, s.applyPacket pkg c p = .ok v ∧ v.mem = u.mem ∧ v.hart.s = s.hart.s := by
  obtain ⟨v, answered⟩ : ∃ v, s.placeAnswer pkg w p = .ok v := by
    unfold State.placeAnswer
    rw [placed]
    exact ⟨_, rfl⟩
  obtain ⟨u', placed', mem, regs, -⟩ := State.placeAnswer_ok answered
  obtain rfl : u = u' := Except.ok.inj (placed.symm.trans placed')
  refine ⟨v, ?_, mem, regs.trans (congrArg Hart.s (State.putBytes_pkgs _ _ _ _ placed).2)⟩
  unfold State.applyPacket
  rw [answers, late]
  dsimp only
  rw [answered, none]
  rcases op with op | op <;> rw [op] <;> rfl

end

/-- What becomes of a new packet on a cached connection. -/
theorem newPacket_applied {c : Conn} (is : s.isTransport pkg p = true) (opened : s.connOpen pkg p.conn = true)
    (cached : (s.transport pkg).find p.conn = some c) (ok : p.sealOk = true) (new : (p.key, p.psn) ∉ c.seen) :
    let h := engineHart ⟨pkg, 3072⟩ c.asid
    let acked := fun (v : State) => (c.conn, p.psn) ∈ (v.transport pkg).acks
    (∀ u, p.op = 0 → s.putBytes h p.payload p.bad (rangeAt (p.addr + BitVec.ofNat 64 p.offset) p.payload.length) = .ok u →
      ∃ v, exec (.transportPacketReceive pkg p) s = .next v ∧ acked v ∧ (p.sig = none → v.mem = u.mem ∧ v.hart = s.hart)) ∧
    (∀ data, p.op = 1 → s.bytesAt h .engRead (rangeAt p.addr p.total) = .ok data →
      ∃ v, exec (.transportPacketReceive pkg p) s = .next v ∧ v.mem = s.mem ∧ v.hart = s.hart ∧ acked v) ∧
    (∀ l, p.op = 2 → s.check h c.asid p.addr 8 .atomic .own = .ok l →
      ∃ v, exec (.transportPacketReceive pkg p) s = .next v ∧ v.hart = s.hart ∧ acked v ∧
        v.mem = s.put l.phys 8 ((readN s.mem l.phys 8 + byteNat p.payload) % 2 ^ 64)) ∧
    (∀ w, p.op = 5 → s.answered pkg c p = some w →
      ∃ v, exec (.transportPacketReceive pkg p) s = .next v ∧ v.mem = s.mem ∧ v.hart = s.hart ∧ acked v ∧
        ∀ x ∈ (v.transport pkg).requests, x.number = w.number → x.ends = some (w.ends.getD 2)) ∧
    (∀ w, p.op = 3 ∨ p.op = 4 → s.answered pkg c p = some w →
      (s.tooEarly pkg c p = true → ∃ v, exec (.transportPacketReceive pkg p) s = .next v ∧ v.mem = s.mem ∧
        v.hart = s.hart ∧ (v.transport pkg).acks = (s.transport pkg).acks) ∧
      (∀ u, s.tooEarly pkg c p = false → w.early = [] →
        s.putBytes (engineHart w.hart w.asid) p.payload p.bad
          (rangeAt (w.quad 1 + BitVec.ofNat 64 p.offset) p.payload.length) = .ok u →
        ∃ v, exec (.transportPacketReceive pkg p) s = .next v ∧ v.mem = u.mem ∧ v.hart.s = s.hart.s ∧ acked v)) := by
  intro h acked
  refine ⟨fun u op placed => ?_, fun data op read => ?_, fun l op passes => ?_, fun w op answers => ?_,
    fun w op answers => ⟨fun early => ?_, fun u late none placed => ?_⟩⟩
  · obtain ⟨v, runs, acks, quiet⟩ := receive_applied is opened cached ok new ((applyPacket_write op).trans placed)
    refine ⟨v, runs, acks (State.not_tooEarly (by omega)), fun noSig => ?_⟩
    obtain ⟨mem, hart, -⟩ := quiet (.inr noSig)
    exact ⟨mem, hart.trans (State.putBytes_pkgs _ _ _ _ placed).2⟩
  · obtain ⟨v, runs, acks, quiet⟩ := receive_applied is opened cached ok new (applyPacket_read op read)
    obtain ⟨mem, hart, -⟩ := quiet (.inl (by omega))
    exact ⟨v, runs, mem, hart, acks (State.not_tooEarly (by omega))⟩
  · obtain ⟨v, runs, acks, quiet⟩ := receive_applied is opened cached ok new (applyPacket_add op passes)
    obtain ⟨mem, hart, -⟩ := quiet (.inl (by omega))
    exact ⟨v, runs, hart, acks (State.not_tooEarly (by omega)), mem⟩
  · obtain ⟨v, runs, acks, quiet⟩ := receive_applied is opened cached ok new (applyPacket_denial op answers)
    obtain ⟨mem, hart, requests, -⟩ := quiet (.inl (by omega))
    refine ⟨v, runs, mem, hart, acks (State.not_tooEarly (by omega)), fun x listed number => ?_⟩
    rw [requests, State.transport_onTransport] at listed
    obtain ⟨y, -, rfl⟩ := List.mem_map.1 listed
    dsimp only at number ⊢
    split at number
    · next is => rw [if_pos is]
    · next isNot => exact absurd number isNot
  · obtain ⟨v, runs, acks, quiet⟩ := receive_applied is opened cached ok new (applyPacket_early op answers early)
    obtain ⟨mem, hart, -, same⟩ := quiet (.inl (by omega))
    refine ⟨v, runs, mem, hart, (same early).trans ?_⟩
    rw [State.transport_onTransport]
    rfl
  · obtain ⟨x, applied, mem, regs⟩ := applyPacket_answer op answers late none placed
    obtain ⟨v, runs, acks, quiet⟩ := receive_applied is opened cached ok new applied
    obtain ⟨vmem, hart, -⟩ := quiet (.inl (by omega))
    exact ⟨v, runs, vmem.trans mem, (congrArg Hart.s hart).trans regs, acks late⟩

end

theorem packetReceiveRules_hold : packetReceiveRules := by
  intro s pkg p k t refused
  refine ⟨fun not low high => ?_, fun is shut => ?_, fun is opened => ⟨fun uncached => ⟨fun room own => ?_, fun crowd => ?_⟩,
    fun c cached => ⟨fun bad => ?_, fun ok known late => ?_, newPacket_applied is opened cached⟩⟩⟩
  · rw [receive_unread not low high]
    exact changesPack_onTransport s pkg _
  · dsimp only [refused]
    rw [receive_unopened is shut]
    exact notReady_refused s pkg p
  · rw [receive_staged is opened uncached room own]
    refine ⟨_, changesPack_onTransport s pkg _, ?_, fun c => ?_⟩
    · split
      · next has => simpa using has
      · exact List.mem_cons_self
    · split
      · exact .inr
      · exact List.mem_cons.1
  · dsimp only [refused]
    rw [receive_crowded is opened uncached crowd]
    exact notReady_refused s pkg p
  · dsimp only [refused]
    rw [receive_cached is opened cached, State.takePacket, if_pos (by simp [bad])]
    exact notReady_refused s pkg p
  · rw [receive_cached is opened cached, State.takePacket, if_neg (by simp [ok]), if_pos (by simpa using known), if_neg (by simp [late])]
    exact changesPack_onTransport s pkg _

end Sys2Proof.Machine
end

section
/-! SUPPORT. Acknowledgements, retransmission and contexts that are fetched (R284, R285, R399 to R401). -/

namespace Sys2Proof.Machine
variable {s t u v : State} {pkg conn : Nat}

/-! ### Acknowledgements, retransmission, rekeying -/

section
variable (c : Conn) (cum : Nat) (sel : List Nat)

/-- An acknowledgement covers a packet number. -/
def ackCovers (cum : Nat) (sel : List Nat) (n : Nat) : Bool := decide ((cum + 2 ^ 32 - n) % 2 ^ 32 < 2 ^ 31) || sel.contains n

/-- Packets of a connection that an acknowledgement leaves. -/
def Conn.left : List TPacket := c.unacked.filter fun p => !ackCovers cum sel p.psn

/-- Signals of the peer's reads whose data is then all placed. -/
def Conn.told : List (Nat × Word) := c.sigs.filter fun x => !(c.left cum sel).any fun p => p.op == 3 && p.req == x.1

/-- A connection after an acknowledgement. -/
def Conn.acknowledged : Conn :=
  { c with unacked := c.left cum sel, sentAt := c.sentAt.filter fun x => (c.left cum sel).any (·.psn == x.1),
           resend := c.resend.filter fun p => !ackCovers cum sel p.1.psn,
           sigs := c.sigs.filter fun x => !(c.told cum sel).contains x,
           denials := c.denials.filter fun d => !ackCovers cum sel d.1 }

end

/-- Acknowledged writes of a connection count as done. -/
def Transport.countDone (conn : Nat) (gone : List TPacket) (t : Transport) : Transport :=
  gone.foldl (fun t p => { t with requests := t.requests.map fun w =>
    if p.op = 0 ∧ w.number = p.req ∧ w.conn = conn then { w with done := w.done + p.payload.length } else w }) t

theorem WorkReq.countDone_cons (w : WorkReq) (conn : Nat) (p : TPacket) (gone : List TPacket) :
    let own := fun (w : WorkReq) (p : TPacket) => p.op == 0 && p.req == w.number && w.conn == conn
    let w' : WorkReq := if p.op = 0 ∧ w.number = p.req ∧ w.conn = conn then { w with done := w.done + p.payload.length } else w
    ({ w' with done := w'.done + ((gone.filter (own w')).map (·.payload.length)).sum } : WorkReq) =
      { w with done := w.done + (((p :: gone).filter (own w)).map (·.payload.length)).sum } := by
  intro own w'
  dsimp only [w']
  split
  · next is =>
    obtain ⟨op, number, connected⟩ := is
    rw [List.filter_cons_of_pos (by simp [own, op, number, connected])]
    simp only [own, List.map_cons, List.sum_cons, Nat.add_assoc]
  · next isNot =>
    rw [List.filter_cons_of_neg]
    simp only [own, Bool.and_eq_true, beq_iff_eq]
    exact fun ⟨⟨op, number⟩, connected⟩ => isNot ⟨op, number.symm, connected⟩

theorem Transport.countDone_eq (conn : Nat) : ∀ (gone : List TPacket) (t : Transport), t.countDone conn gone =
    { t with requests := t.requests.map fun w => { w with done := w.done +
      ((gone.filter fun p => p.op == 0 && p.req == w.number && w.conn == conn).map (·.payload.length)).sum } }
  | [], t => by simp [Transport.countDone]
  | p :: gone, t => by
    refine (Transport.countDone_eq conn gone _).trans ?_
    simp only [List.map_map]
    congr 1
    refine List.map_congr_left fun w _ => ?_
    exact w.countDone_cons conn p gone

theorem acknowledge_runs {c : Conn} (cached : (s.transport pkg).find conn = some c) (cum : Nat) (sel : List Nat) :
    exec (.transportAcknowledge pkg conn cum sel) s = .next ((c.told cum sel).foldl (fun s x => s.countArrival pkg c.asid x.2)
      (s.onTransport pkg fun t => (t.setConn (c.acknowledged cum sel)).countDone conn
        (c.unacked.filter fun p => ackCovers cum sel p.psn))) := by
  show execTransportAcknowledge pkg conn cum sel s = _
  unfold execTransportAcknowledge
  rw [cached]
  rfl

theorem acknowledge_holds {c : Conn} (cached : (s.transport pkg).find conn = some c) (cum : Nat) (sel : List Nat) :
    let hit := fun (p : TPacket) => decide ((cum + 2 ^ 32 - p.psn) % 2 ^ 32 < 2 ^ 31) || sel.contains p.psn
    let gone := c.unacked.filter hit
    let left := c.unacked.filter fun p => !hit p
    let told := c.sigs.filter fun x => !left.any fun p => p.op == 3 && p.req == x.1
    ∃ v c', exec (.transportAcknowledge pkg conn cum sel) s =
        .next (told.foldl (fun s x => s.countArrival pkg c.asid x.2) v) ∧ OnlyPacks s v [pkg] ∧
      (v.transport pkg).find conn = some c' ∧ c'.unacked = left ∧
      (v.transport pkg).requests = (s.transport pkg).requests.map fun w => { w with done := w.done +
        ((gone.filter fun p => p.op == 0 && p.req == w.number && w.conn == conn).map (·.payload.length)).sum } := by
  intro hit gone left told
  refine ⟨_, c.acknowledged cum sel, acknowledge_runs cached cum sel, State.onlyPacks_onTransport .., ?_, rfl, ?_⟩
  · rw [State.transport_onTransport, Transport.countDone_eq]
    exact Transport.find_setConn_same cached rfl
  · rw [State.transport_onTransport, Transport.countDone_eq]
    dsimp only
    rw [Transport.setConn_requests]
    rfl

/-- A connection of which a packet is not sent again before a clock. -/
def Conn.delayed (c : Conn) (psn : Nat) (p : TPacket) (till : Nat) : Conn :=
  { c with denials := assocSet c.denials psn (assocGet c.denials psn 0 + 1), resend := (p, till) :: c.resend.filter (·.1.psn != psn) }

/-- A connection that gives a packet up. -/
def Conn.dropped (c : Conn) (psn : Nat) : Conn :=
  { c with unacked := c.unacked.filter (·.psn != psn), denials := assocDel c.denials psn }

section
variable {c : Conn} {psn : Nat} {p : TPacket}

theorem retransmit_runs (cached : (s.transport pkg).find conn = some c) (kept : c.unacked.find? (·.psn == psn) = some p)
    (free : (c.resend.any fun r => r.1.psn == psn && decide (s.clock < r.2)) = false)
    (due : assocGet c.sentAt psn 0 + 20 * 1200 ≤ s.clock) :
    exec (.retransmitTimeout pkg conn psn) s = .next (s.onTransport pkg fun t =>
      { t.setConn { c with resend := c.resend.filter (·.1.psn != psn), sentAt := assocSet c.sentAt psn s.clock } with
        wire := p :: t.wire }) := by
  show execRetransmitTimeout pkg conn psn s = _
  unfold execRetransmitTimeout
  rw [cached]
  dsimp only
  rw [kept]
  exact if_neg (not_or.2 ⟨by rw [free]; exact Bool.false_ne_true, Nat.not_lt.2 due⟩)

theorem notready_delays (cached : (s.transport pkg).find conn = some c) (kept : c.unacked.find? (·.psn == psn) = some p)
    {delay : Nat} (few : assocGet c.denials psn 0 + 1 < 64) :
    exec (.notready pkg conn psn delay) s = .next (s.onTransport pkg (·.setConn (c.delayed psn p (s.clock + delay * 1200)))) := by
  show execNotready pkg conn psn delay s = _
  unfold execNotready
  rw [cached]
  dsimp only
  rw [kept]
  exact if_neg (Nat.not_le.2 few)

theorem notready_ends (cached : (s.transport pkg).find conn = some c) (kept : c.unacked.find? (·.psn == psn) = some p)
    {delay : Nat} (many : 64 ≤ assocGet c.denials psn 0 + 1) :
    exec (.notready pkg conn psn delay) s = .next (s.onTransport pkg fun t =>
      { t.setConn (c.dropped psn) with requests := (t.setConn (c.dropped psn)).requests.map fun w =>
          if w.number = p.req ∧ w.conn = conn ∧ p.op ≤ 2 ∧ w.ends.isNone then { w with ends := some 3 } else w }) := by
  show execNotready pkg conn psn delay s = _
  unfold execNotready
  rw [cached]
  dsimp only
  rw [kept]
  exact if_pos many

theorem rekey_runs (cached : (s.transport pkg).find conn = some c) :
    exec (.rekey pkg conn) s = .next (s.onTransport pkg (·.setConn { c with keyEpoch := c.keyEpoch + 1, keyPsn := c.psn })) := by
  show execRekey pkg conn s = _
  unfold execRekey
  rw [cached]
  rfl

end

/-! ### Contexts that are fetched -/

/-- Packets that are answered NOTREADY. -/
def State.notReadyAll (s : State) (pkg : Nat) (ps : List TPacket) : State := ps.foldl (fun s p => s.notReady pkg p) s

theorem State.notReady_transport (s : State) (pkg : Nat) (p : TPacket) : ∃ d, (s.notReady pkg p).transport pkg =
    { s.transport pkg with notready := (s.transport pkg).notready ++ [(p.conn, p.psn, d)] } := by
  refine ⟨1 + (Config.value s.free).toNat % 255, ?_⟩
  exact State.transport_onTransport s pkg fun t =>
    { t with notready := t.notready ++ [(p.conn, p.psn, 1 + (Config.value s.free).toNat % 255)] }

theorem State.notReadyAll_answers (pkg : Nat) : ∀ (ps : List TPacket) (s : State),
    let v := s.notReadyAll pkg ps
    v.mem = s.mem ∧ v.hart = s.hart ∧ v.others = s.others ∧
      ∃ l, v.transport pkg = { s.transport pkg with notready := (s.transport pkg).notready ++ l } ∧
        ∀ p ∈ ps, ∃ d, (p.conn, p.psn, d) ∈ l
  | [], s => ⟨rfl, rfl, rfl, [], by simp [State.notReadyAll], by simp⟩
  | p :: ps, s => by
    obtain ⟨mem, hart, others, l, transport, answers⟩ := State.notReadyAll_answers pkg ps (s.notReady pkg p)
    obtain ⟨d, first⟩ := s.notReady_transport pkg p
    refine ⟨mem, hart, others, (p.conn, p.psn, d) :: l, ?_, fun q listed => ?_⟩
    · refine transport.trans ?_
      rw [first]
      simp
    · rcases List.mem_cons.1 listed with rfl | later
      · exact ⟨d, List.mem_cons_self⟩
      · obtain ⟨e, has⟩ := answers q later
        exact ⟨e, List.mem_cons_of_mem _ has⟩

theorem State.contextOf_conn {c : Conn} (h : s.contextOf pkg conn = some c) : c.conn = conn := by
  unfold State.contextOf at h
  extract_lets bytes at h
  split at h
  · next x found =>
    cases h
    have is := List.find?_some found
    simp only [Bool.and_eq_true, beq_iff_eq] at is
    exact is.1
  · obtain ⟨x, -, rfl⟩ := Option.map_eq_some_iff.1 h
    rfl

theorem State.transport_drawn (s : State) (pkg : Nat) : s.drawn.transport pkg = s.transport pkg := rfl

theorem State.writeBack_staged (s : State) (pkg : Nat) (c : Conn) :
    ((s.writeBack pkg c).transport pkg).staged = (s.transport pkg).staged := by
  unfold State.writeBack
  extract_lets bytes
  rw [State.transport_drawn, State.transport_onTransport]
  rfl

theorem State.cacheContext_caches (s : State) (pkg : Nat) (c : Conn) : ((s.cacheContext pkg c).transport pkg).staged = (s.transport pkg).staged ∧
    ((s.cacheContext pkg c).transport pkg).find c.conn = some c := by
  unfold State.cacheContext
  extract_lets t
  split
  · next old _ _ =>
    rw [State.transport_onTransport]
    refine ⟨?_, by simp [Transport.find]⟩
    exact s.writeBack_staged pkg old
  · rw [State.transport_onTransport]
    exact ⟨rfl, by simp [Transport.find]⟩

/-- Staged packets of a connection, handled in order. -/
def State.handleAll (s : State) (pkg conn : Nat) (ps : List TPacket) : State :=
  ps.foldl (fun s p => match (s.transport pkg).find conn with
    | some c => s.takePacket pkg c p
    | none => s.notReady pkg p) s

theorem State.carries_handleAll (pkg conn : Nat) : ∀ (ps : List TPacket) (s : State), State.Carries pkg s (s.handleAll pkg conn ps)
  | [], s => .refl s
  | p :: ps, s => by
    refine State.Carries.trans ?_ (State.carries_handleAll pkg conn ps _)
    dsimp only
    split
    · exact State.carries_takePacket ..
    · exact State.carries_notReady ..

section
variable (s pkg conn)

/-- The context of a connection is no longer awaited, nor are its packets staged. -/
def State.unstaged : State :=
  s.onTransport pkg fun t => { t with fetching := t.fetching.erase conn, staged := t.staged.filter (·.conn != conn) }

/-- A connection is closed: its requests end with code 3. -/
def State.closedConn : State :=
  (s.unstaged pkg conn).onTransport pkg fun t => { t with
    closed := conn :: t.closed,
    requests := t.requests.map fun w =>
      if w.conn = conn ∧ w.ends.isNone then { w with armed := false, started := true, ends := some 3 } else w }

end

theorem fetch_fails (awaited : conn ∈ (s.transport pkg).fetching) (none : s.contextOf pkg conn = none) :
    exec (.contextFetchComplete pkg conn) s =
      .next ((s.closedConn pkg conn).notReadyAll pkg ((s.transport pkg).staged.filter (·.conn == conn))) := by
  show execContextFetchComplete pkg conn s = _
  unfold execContextFetchComplete
  rw [none]
  have has : ¬(!(s.transport pkg).fetching.contains conn) = true := by simpa using awaited
  exact if_neg has

theorem fetch_waits (full : (s.transport pkg).full = true) {c : Conn} (some : s.contextOf pkg conn = some c) :
    exec (.contextFetchComplete pkg conn) s = .next s := by
  show execContextFetchComplete pkg conn s = _
  unfold execContextFetchComplete
  rw [some]
  dsimp only
  rw [if_pos full, ite_self]

theorem fetch_caches (awaited : conn ∈ (s.transport pkg).fetching) (place : (s.transport pkg).full = false) {c : Conn}
    (some : s.contextOf pkg conn = some c) : exec (.contextFetchComplete pkg conn) s =
      .next ((((s.unstaged pkg conn).cacheContext pkg c).handleAll pkg conn
        ((s.transport pkg).staged.filter (·.conn == conn))).startRequests pkg conn) := by
  show execContextFetchComplete pkg conn s = _
  unfold execContextFetchComplete
  rw [some]
  have has : ¬(!(s.transport pkg).fetching.contains conn) = true := by simpa using awaited
  refine (if_neg has).trans ?_
  dsimp only
  rw [if_neg (by rw [place]; exact Bool.false_ne_true)]
  rfl

theorem State.unstaged_staged {p : TPacket} (h : p ∈ ((s.unstaged pkg conn).transport pkg).staged) : p.conn ≠ conn := by
  unfold State.unstaged at h
  rw [State.transport_onTransport] at h
  simpa using (List.mem_filter.1 h).2

theorem fetch_holds (awaited : conn ∈ (s.transport pkg).fetching) : ∃ v, exec (.contextFetchComplete pkg conn) s = .next v ∧
    match s.contextOf pkg conn with
    | none => (∀ p ∈ (v.transport pkg).staged, p.conn ≠ conn) ∧ conn ∈ (v.transport pkg).closed ∧
      v.mem = s.mem ∧ v.hart = s.hart ∧ v.others = s.others ∧
      (∀ p ∈ (s.transport pkg).staged, p.conn = conn → ∃ d, (conn, p.psn, d) ∈ (v.transport pkg).notready) ∧
      ∀ w ∈ (v.transport pkg).requests, w.conn = conn → w.ends.isSome = true
    | some x => (s.transport pkg).full = false → (∀ p ∈ (v.transport pkg).staged, p.conn ≠ conn) ∧
      ∃ c, (v.transport pkg).find conn = some c ∧ c.asid = x.asid := by
  cases context : s.contextOf pkg conn with
  | none =>
    refine ⟨_, fetch_fails awaited context, ?_⟩
    obtain ⟨mem, hart, others, l, transport, answers⟩ :=
      State.notReadyAll_answers pkg ((s.transport pkg).staged.filter (·.conn == conn)) (s.closedConn pkg conn)
    unfold State.closedConn at transport
    rw [State.transport_onTransport] at transport
    dsimp only
    unfold State.closedConn
    rw [transport]
    refine ⟨fun p => State.unstaged_staged, List.mem_cons_self, mem, hart, others, fun p staged own => ?_, fun w listed own => ?_⟩
    · obtain ⟨d, has⟩ := answers p (List.mem_filter.2 ⟨staged, by simpa using own⟩)
      exact ⟨d, List.mem_append_right _ (own ▸ has)⟩
    · obtain ⟨x, -, rfl⟩ := List.mem_map.1 listed
      split at own
      · next is => rw [if_pos is]; rfl
      · next isNot =>
        rw [if_neg isNot]
        simpa [own, Option.isSome_iff_ne_none] using isNot
  | some x =>
    cases place : (s.transport pkg).full with
    | true => exact ⟨s, fetch_waits place context, fun waits => nomatch waits⟩
    | false =>
      refine ⟨_, fetch_caches awaited place context, fun _ => ?_⟩
      obtain ⟨cachedStaged, cached⟩ := (s.unstaged pkg conn).cacheContext_caches pkg x
      rw [State.contextOf_conn context] at cached
      obtain ⟨staged, -, owner⟩ := (State.carries_handleAll pkg conn ((s.transport pkg).staged.filter (·.conn == conn))
        ((s.unstaged pkg conn).cacheContext pkg x)).trans (State.starts_startRequests _ pkg conn).1
      refine ⟨fun p listed => ?_, ?_⟩
      · rw [staged, cachedStaged] at listed
        exact State.unstaged_staged listed
      · exact Option.map_eq_some_iff.1 ((owner conn).trans (congrArg (Option.map Conn.asid) cached))

theorem connectionRules_hold : connectionRules := by
  intro s pkg conn k t
  refine ⟨fun c cached => ⟨acknowledge_holds cached, fun psn p kept => ⟨fun free due => ?_, fun delay few => ?_, fun delay many => ?_⟩, ?_⟩,
    fetch_holds, fun few => ?_⟩
  · refine ⟨_, retransmit_runs cached kept free due, State.onlyPacks_onTransport .., ?_, ?_⟩
    · rw [State.transport_onTransport]
      rfl
    · rw [State.transport_onTransport]
      exact Transport.setConn_requests ..
  · refine ⟨_, c.delayed psn p (s.clock + delay * 1200), notready_delays cached kept few, State.onlyPacks_onTransport .., ?_, rfl,
      List.mem_cons_self, (assocGet_assocSet ..).trans (if_pos rfl), ?_⟩
    · rw [State.transport_onTransport]
      exact Transport.find_setConn_same cached rfl
    · rw [State.transport_onTransport]
      exact Transport.setConn_requests ..
  · refine ⟨_, c.dropped psn, notready_ends cached kept many, State.onlyPacks_onTransport .., ?_, rfl, ?_⟩
    · rw [State.transport_onTransport]
      exact Transport.find_setConn_same cached rfl
    · rw [State.transport_onTransport]
      dsimp only
      rw [Transport.setConn_requests]
      rfl
  · rw [rekey_runs cached]
    exact changesPack_onTransport s pkg _
  · unfold Transport.full
    rw [decide_eq_false (Nat.not_le.2 few), Bool.false_and]

end Sys2Proof.Machine
end

section
/-! SUPPORT and settling theorem. Work requests: what rpost and rarm list, and how a request ends (R282 to R285, R398). -/

namespace Sys2Proof.Machine
variable {s t u v w x y : State} {pkg conn : Nat}

/-! ### Ending a request -/

theorem fieldOf_lt {n : Nat} (q : BitVec n) (lo k : Nat) : fieldOf q lo k < 2 ^ k := BitVec.isLt _

theorem WorkReq.mayEnd_of {w : WorkReq} {code : Nat} (h : w.ends = some (BitVec.ofNat 8 code) ∧ code < 256 ∨
    w.ends = none ∧ w.started = true ∧ (code = 1 ∧ w.len ≤ w.done ∨ code = 3)) : w.mayEnd code = true := by
  unfold WorkReq.mayEnd
  rcases h with ⟨ends, small⟩ | ⟨ends, started, ⟨rfl, all⟩ | rfl⟩
  · simp [ends, Nat.mod_eq_of_lt small]
  · simp [ends, started, all]
  · simp [ends, started]

theorem Hart.endRemote_place (h : Hart) (seq : Nat) (k : KReg) (failed : Bool) :
    (h.endRemote seq k failed).ref = h.ref ∧ (h.endRemote seq k failed).status = h.status := by
  unfold Hart.endRemote
  obtain ⟨ref, status⟩ := Hart.bumpK_place (if failed then
    (({ h with interlock := h.interlock.filter (·.seq != seq) } : Hart).takeEntries h.cmds.length).kstatBit 1 k
    else ({ h with interlock := h.interlock.filter (·.seq != seq) } : Hart).takeEntries h.cmds.length) k
  rw [Hart.takeEntries_eq] at ref status ⊢
  refine ⟨ref.trans ?_, status.trans ?_⟩ <;> cases failed <;> rfl

theorem State.onSender_findHart {r : HartRef} {h : Hart} {gang : Word} {f : Hart → Hart} (found : s.findHart r = some h)
    (there : h.csr.gangid = gang) (hf : ∀ h, (f h).ref = h.ref ∧ (f h).status = h.status) :
    (s.onSender r gang f).findHart r = some (f h) := by
  have still : s.stillThere r gang = true := by
    unfold State.stillThere
    rw [found]
    exact beq_iff_eq.2 there
  obtain ⟨v, e, -, seen, -⟩ := changesHart_onHart s r f (fun h => (hf h).1) fun h => (hf h).2
  cases e
  unfold State.onSender
  rw [if_pos still]
  exact seen h found

/-- The state in which a request has ended with a code, its quad 7 written at l. -/
def State.requestEnded (s : State) (pkg code : Nat) (w : WorkReq) (l : Loc) : State :=
  (({ s with mem := s.put l.phys 8 (BitVec.ofNat 64 (min w.done w.len * 2 ^ 32 + fieldOf (w.quad 7) 8 24 * 256 + code % 256)).toNat } : State).onTransport
    pkg fun t => { t with requests := t.requests.filter (·.number != w.number) }).onSender w.hart w.gang (·.endRemote w.seq w.k (code != 1))

theorem requestComplete_runs {req code : Nat} {w : WorkReq} {l : Loc}
    (listed : (s.transport pkg).requests.find? (·.number == req) = some w) (may : w.mayEnd code = true)
    (passes : s.check19 (engineHart w.hart w.asid) w.asid (w.addr + 56) 8 .engWrite .own = .ok l) :
    exec (.workRequestComplete pkg req code) s = .next ((s.requestEnded pkg code w l).startRequests pkg w.conn) := by
  obtain rfl : w.number = req := by simpa using List.find?_some listed
  show execWorkRequestComplete pkg w.number code s = _
  unfold execWorkRequestComplete
  rw [listed]
  dsimp only
  rw [if_neg (by simp [may]), passes]
  rfl

theorem requestEnd_quad (w : WorkReq) (code : Nat) :
    (BitVec.ofNat 64 (min w.done w.len * 2 ^ 32 + fieldOf (w.quad 7) 8 24 * 256 + code % 256)).toNat =
      min w.done w.len * 2 ^ 32 + fieldOf (w.quad 7) 8 24 * 256 + code % 256 := by
  have len : w.len < 2 ^ 32 := fieldOf_lt (w.quad 0) 0 32
  have field : fieldOf (w.quad 7) 8 24 < 2 ^ 24 := fieldOf_lt (w.quad 7) 8 24
  have done : min w.done w.len ≤ w.len := Nat.min_le_right _ _
  rw [BitVec.toNat_ofNat]
  exact Nat.mod_eq_of_lt (by omega)

theorem frameAnswered_iff (f : EthFrame) :
    frameAnswered f = true ↔ f.kind ≠ .other ∧ f.own = true ∧ f.size ≤ 9216 ∧ f.tags ≤ 1 := by
  simp [frameAnswered, and_assoc]

theorem requestEndRules_hold : requestEndRules := by
  intro s pkg req code port w l f k t
  refine ⟨fun listed may passes => ⟨s.requestEnded pkg code w l, requestComplete_runs listed (WorkReq.mayEnd_of may) passes, ?_, ?_, ?_⟩,
    fun low high => ⟨fun answers => ?_, fun not => ?_⟩⟩
  · rw [← requestEnd_quad]
    exact State.onSender_mem ..
  · intro r left
    have number : w.number = req := by simpa using List.find?_some listed
    unfold State.requestEnded at left
    rw [State.transport_of_pkgs (State.onSender_pkgs ..), State.transport_onTransport] at left
    rw [← number]
    simpa using (List.mem_filter.1 left).2
  · intro h found there
    exact State.onSender_findHart found there fun h => h.endRemote_place ..
  · show ChangesPack s pkg _ (.next (if port < 32 ∨ 40 ≤ port then s else if frameAnswered f then _ else _))
    rw [if_neg (by omega), if_pos ((frameAnswered_iff f).2 answers)]
    exact changesPack_onTransport s pkg _
  · have counted : exec (.ethernetFrameReceive pkg port f) s = .next (s.onTransport pkg fun t =>
        { t with frames := assocSet t.frames port (assocGet t.frames port 0 + 1) }) := by
      show execEthernetFrameReceive pkg port f s = _
      unfold execEthernetFrameReceive State.countFrame
      have inside : ¬(port < 32 ∨ 40 ≤ port) := by omega
      rw [if_neg inside, if_neg (fun is => not ((frameAnswered_iff f).1 is)), if_neg inside]
    refine ⟨_, counted, State.onlyPacks_onTransport .., ?_, ?_⟩
    · rw [State.transport_onTransport]
      exact (assocGet_assocSet ..).trans (if_pos rfl)
    · rw [State.transport_onTransport]
      rfl

/-! ### rpost and rarm -/

/-- The request that a hart makes of what it reads; one with a reserved field or value ends with code 4. -/
def State.newRequest (y : State) (h : Hart) (conn : Nat) (quads : List Quad) (addr : Quad) (k : KReg) (arm : Bool) : WorkReq :=
  let w : WorkReq := { number := y.serial, conn := conn, quads := quads, addr := addr, hart := h.ref, gang := h.csr.gangid,
                       asid := h.asid, k := k, seq := h.seq,
                       nearest := h.rankRange (quads.getD 1 0, max 1 (fieldOf (quads.getD 0 0) 0 32)), armed := arm }
  if w.bad then { w with armed := false, ends := some 4 } else w

/-- A request put last on the list; the context of its connection is fetched. -/
def Transport.lists (t : Transport) (conn : Nat) (cached : Option Conn) (w : WorkReq) : Transport :=
  { t with requests := t.requests ++ [w],
           fetching := if cached.isSome ∨ t.fetching.contains conn then t.fetching else conn :: t.fetching }

/-- A request put last on the list of a package; an armed one takes the arrivals that are held. -/
def State.enlist (y : State) (pkg conn : Nat) (cached : Option Conn) (w : WorkReq) : State :=
  let s := ((y.onTransport pkg (·.lists conn cached w)).nextSerial.nextSeq).drawn
  if w.armed then s.takeHeld pkg w else s

section
variable {a b : SReg} {k : KReg} {l : Loc} {arm : Bool}

/-- The operands, the address and the 64 bytes of a request pass, at w and then at x. -/
structure State.ReadsRequest (s w x : State) (a b : SReg) (l : Loc) : Prop where
  settled : (s.needS [a, b]).settle ((s.needS [a, b]).hart.taintS a ||| (s.needS [a, b]).hart.taintS b) = .ok w
  passes : w.check19 w.hart w.hart.asid (w.hart.getS b) 64 .read .own = .ok l
  turn : (w.awaitTurn (w.hart.canon (w.hart.getS b)) 64 false).isOk = true
  stored : w.storesBefore (w.hart.getS b) 64 false = .ok x
  low : x.poisoned l.phys = false
  high : x.poisoned (l.phys + 32) = false

/-- The connection is open, and not of another address space. -/
def State.mayPost (x : State) (h : Hart) (conn : Nat) : Prop :=
  x.connOpen h.pkg conn = true ∧ (x.connOwner h.pkg conn = none ∨ x.connOwner h.pkg conn = some h.asid)

theorem State.mayPost_iff (x : State) (h : Hart) (conn : Nat) : x.mayPost h conn ↔
    ¬(!x.connOpen h.pkg conn ∨ ((x.connOwner h.pkg conn).isSome ∧ x.connOwner h.pkg conn ≠ some h.asid)) := by
  unfold State.mayPost
  cases x.connOpen h.pkg conn <;> cases x.connOwner h.pkg conn <;> simp

theorem postRequest_denied (reads : s.ReadsRequest w x a b l) (shut : ¬x.mayPost w.hart (w.hart.getS a).toNat) :
    s.postRequest arm a b k = .error (openTrap x 0x09) := by
  obtain ⟨settled, passes, turn, stored, low, high⟩ := reads
  rw [State.mayPost_iff, not_not] at shut
  unfold State.postRequest
  refine (bind_of_ok settled _).trans ?_
  extract_lets h conn' addr
  rw [passes]
  refine (bind_of_ok (a := l) rfl _).trans ?_
  refine (bind_of_ok (awaitTurn_eq_ok turn) _).trans ?_
  refine (bind_of_ok stored _).trans ?_
  rw [low, high]
  refine (if_neg Bool.false_ne_true).trans ?_
  refine (bind_of_ok (a := ()) rfl _).trans ?_
  exact if_pos shut

theorem postRequest_lists {z : State} (reads : s.ReadsRequest w x a b l) (opened : x.mayPost w.hart (w.hart.getS a).toNat)
    (held : x.storesBefore ((readQuads x.mem l.phys 8).getD 1 0) (if fieldOf ((readQuads x.mem l.phys 8).getD 0 0) 60 4 = 2 then 8
      else fieldOf ((readQuads x.mem l.phys 8).getD 0 0) 0 32) (fieldOf ((readQuads x.mem l.phys 8).getD 0 0) 60 4 != 0) = .ok y)
    (entered : (if arm then .ok y else y.enterRanges (w.hart.requestRanges (readQuads x.mem l.phys 8) k)) = .ok z) :
    s.postRequest arm a b k = .ok ((z.enlist w.hart.pkg (w.hart.getS a).toNat ((x.transport w.hart.pkg).find (w.hart.getS a).toNat)
      (z.newRequest w.hart (w.hart.getS a).toNat (readQuads x.mem l.phys 8) (w.hart.getS b) k arm)).startRequests w.hart.pkg
        (w.hart.getS a).toNat) := by
  obtain ⟨settled, passes, turn, stored, low, high⟩ := reads
  rw [State.mayPost_iff] at opened
  unfold State.postRequest
  refine (bind_of_ok settled _).trans ?_
  extract_lets h conn' addr
  rw [passes]
  refine (bind_of_ok (a := l) rfl _).trans ?_
  refine (bind_of_ok (awaitTurn_eq_ok turn) _).trans ?_
  refine (bind_of_ok stored _).trans ?_
  rw [low, high]
  refine (if_neg Bool.false_ne_true).trans ?_
  refine (bind_of_ok (a := ()) rfl _).trans ?_
  refine (if_neg opened).trans ?_
  refine (bind_of_ok (a := ()) rfl _).trans ?_
  refine (bind_of_ok held _).trans ?_
  cases arm with
  | true =>
    cases entered
    rfl
  | false =>
    exact bind_of_ok entered _

end

theorem State.enterRanges_idle {e : Interlock} (free : s.hart.interlock = []) (idle : ∀ c ∈ s.hart.cmds, c.queued = false ∧ c.ranges = []) :
    ∃ l, s.enterRanges [e] = .ok { s with hart := { s.hart with interlock := l } } := by
  have ranges : s.hart.cmds.flatMap (·.ranges) = [] := List.flatMap_eq_nil_iff.2 fun c hc => (idle c hc).2
  have waiting : s.hart.cmds.any (·.queued) = false := by simpa using fun c hc => (idle c hc).1
  have few : ([e].filter fun e => decide (e.base < e.limit)).length ≤ Config.interlockEntries :=
    (List.length_filter_le _ _).trans (show 1 ≤ Config.interlockEntries by decide)
  have enters : ¬(([e].filter fun e => decide (e.base < e.limit)).any (fun e => s.hart.interlocked e.base (e.limit - e.base) e.write)
      || s.hart.cmds.any (·.queued)
      || decide (Config.interlockEntries < s.hart.interlock.length + ([e].filter fun e => decide (e.base < e.limit)).length)) = true := by
    rw [waiting, free, List.length_nil, Nat.zero_add, decide_eq_false (Nat.not_lt.2 few)]
    simp [Hart.interlocked, free, ranges]
  exact ⟨_, if_neg enters⟩

/-- A request that a hart makes: what a hart names in it, and no code of its end but 4. -/
theorem State.newRequest_says (y : State) (h : Hart) (conn : Nat) (quads : List Quad) (addr : Quad) (k : KReg) (arm : Bool) :
    let r := y.newRequest h conn quads addr k arm
    r.number = y.serial ∧ r.conn = conn ∧ r.quads = quads ∧ r.addr = addr ∧ r.hart = h.ref ∧ r.asid = h.asid ∧ r.k = k ∧
      r.started = false ∧ (arm = false → r.armed = false) ∧ (r.ends = none ∨ r.ends = some 4) := by
  intro r
  dsimp only [r, State.newRequest]
  split
  · exact ⟨rfl, rfl, rfl, rfl, rfl, rfl, rfl, rfl, fun _ => rfl, .inr rfl⟩
  · exact ⟨rfl, rfl, rfl, rfl, rfl, rfl, rfl, rfl, id, .inl rfl⟩

theorem State.enlist_kept (y : State) (pkg conn : Nat) (cached : Option Conn) (w : WorkReq) :
    (y.enlist pkg conn cached w).mem = y.mem ∧ (y.enlist pkg conn cached w).hart = { y.hart with seq := y.hart.seq + 1 } := by
  unfold State.enlist
  split <;> exact ⟨rfl, rfl⟩

/-- A request that is listed is the last one, as it was made but for arrivals that it takes. -/
theorem State.enlist_lists (y : State) (pkg conn : Nat) (cached : Option Conn) (w : WorkReq) :
    ∃ n armed, (((y.enlist pkg conn cached w).transport pkg).requests.getLast? = some { w with arrivals := n, armed := armed }) ∧
      ((y.enlist pkg conn cached w).transport pkg).requests.length = (y.transport pkg).requests.length + 1 ∧
      (w.armed = false → armed = false) := by
  unfold State.enlist
  extract_lets s
  have listed : (s.transport pkg).requests = (y.transport pkg).requests ++ [w] :=
    congrArg Transport.requests (State.transport_onTransport y pkg (·.lists conn cached w))
  split
  · next armed =>
    unfold State.takeHeld
    extract_lets t held n
    rw [State.transport_onTransport]
    refine ⟨n, decide (n < w.count), ?_, ?_, fun not => absurd armed (by simp [not])⟩
    · simp only [Transport.setReq]
      rw [listed, List.map_append, List.map_singleton, List.getLast?_concat, if_pos rfl]
    · simp only [Transport.setReq]
      rw [listed, List.length_map, List.length_append]
      rfl
  · exact ⟨w.arrivals, w.armed, by rw [listed, List.getLast?_concat], by rw [listed, List.length_append]; rfl, id⟩

theorem finish_done (s u : State) (n : Nat) : finish s ((Except.ok u : Except Stop State).map (·.done n)) = .next (ran u n) := rfl

theorem requestRules_hold : requestRules := by
  intro s a b k l u w x settled conn addr pkg passes turn stored low high owner
  have reads : s.ReadsRequest w x a b l := ⟨settled, passes, turn, stored, low, high⟩
  refine ⟨fun uncached nothing => ?_, fun c cached => ?_, ?_⟩
  · dsimp only [owner, State.connOwner]
    rw [uncached]
    dsimp only [State.contextOf]
    rw [nothing, List.find?_nil, Option.map_map]
    rfl
  · dsimp only [owner, State.connOwner]
    rw [cached]
  intro open_ quads op len p listed
  have runs : exec p.1 s = finish s ((s.postRequest p.2 a b k).map (·.done 8)) := by
    rcases List.mem_cons.1 listed with rfl | listed
    · rfl
    · obtain rfl := List.mem_singleton.1 listed
      rfl
  refine ⟨fun opened y held free idle => ?_, fun shut => ⟨_, runs.trans (by rw [postRequest_denied reads shut]; rfl)⟩⟩
  obtain ⟨z, entered, zmem, ⟨i, zhart⟩, serial, pkgs⟩ : ∃ z : State,
      (if p.2 then .ok y else y.enterRanges (w.hart.requestRanges quads k)) = (.ok z : Except Stop State) ∧
      z.mem = y.mem ∧ (∃ i, z.hart = { y.hart with interlock := i }) ∧ z.serial = y.serial ∧ z.pkgs = y.pkgs := by
    cases p.2 with
    | true => exact ⟨y, rfl, rfl, ⟨y.hart.interlock, rfl⟩, rfl, rfl⟩
    | false =>
      obtain ⟨i, entered⟩ := State.enterRanges_idle (e := w.hart.entry (quads.getD 1 0, len) (op != 0) k) free idle
      exact ⟨_, entered, rfl, ⟨i, rfl⟩, rfl, rfl⟩
  have posts := runs.trans ((congrArg (fun r => finish s (r.map (·.done 8))) (postRequest_lists reads opened held entered)).trans
    (finish_done s _ 8))
  obtain ⟨mem, hart⟩ := z.enlist_kept pkg conn ((x.transport pkg).find conn) (z.newRequest w.hart conn quads addr k p.2)
  obtain ⟨n, armed, last, length, unarmed⟩ := z.enlist_lists pkg conn ((x.transport pkg).find conn)
    (z.newRequest w.hart conn quads addr k p.2)
  obtain ⟨number, named, read, place, own, asid, counter, started, posted, ends⟩ := z.newRequest_says w.hart conn quads addr k p.2
  obtain ⟨-, st, woken⟩ := (z.enlist pkg conn ((x.transport pkg).find conn)
    (z.newRequest w.hart conn quads addr k p.2)).starts_startRequests pkg conn
  rw [State.transport_of_pkgs pkgs] at length
  rw [zhart] at hart
  refine ⟨_, _, posts, mem.trans zmem, hart.trans ?_, ?_, State.startRequests_uncached,
    last, length, number.trans serial, named, read, place, own, asid, counter, started, fun post => unarmed (posted post), ends⟩
  · rw [congrArg Hart.interlock hart]
  · unfold ran
    rw [woken]

/-- Settles O55: what a package does for a connection carries on its transport (`State.carries_takePacket`), and each rule
reads the branch of its step. -/
theorem transportRequestsAndPackets : Obligations.TransportRequestsAndPackets :=
  ⟨requestRules_hold, packetReceiveRules_hold, connectionRules_hold, requestEndRules_hold⟩

end Sys2Proof.Machine
end

section
/-! SUPPORT. Performing accesses poisons nothing; the entries of the Sieve as the quads of a memory (R105, R106). -/

namespace Sys2Proof.Machine
variable {s t u v w : State}

/-! ### Accesses poison nothing (R110) -/

theorem State.store_clean (clean : s.poison = []) (a n x : Nat) (clears : Bool) : (s.store a n x clears).poison = [] := by
  unfold State.store
  cases clears <;> simp [clean, removeNat]

theorem State.applyAccess_clean (clean : s.poison = []) (a : Access) (fwd : Option Nat) : (s.applyAccess a fwd).poison = [] := by
  unfold State.applyAccess
  dsimp only
  split
  · exact clean
  · exact clean
  · split <;> exact clean
  · exact State.store_clean clean ..
  · exact State.store_clean clean ..
  · rw [State.setHart_poison]
    exact State.store_clean clean ..
  · rw [State.setHart_poison]
    split
    · exact State.store_clean clean ..
    · exact clean
  · split
    · rw [State.setHart_poison]
      exact State.store_clean clean ..
    · rw [State.setHart_poison]
      exact State.store_clean clean ..
  · split
    · exact State.store_clean clean ..
    · rw [State.setHart_poison]
      exact State.store_clean clean ..

theorem State.performAt_clean (clean : s.poison = []) (i : Nat) : (s.performAt i).poison = [] := by
  unfold State.performAt
  split
  · exact clean
  · split
    · exact clean
    · split
      · exact clean
      · extract_lets fwd
        split
        · exact clean
        · exact State.applyAccess_clean clean ..

theorem drainUntilGo_clean (p : Access → Bool) : ∀ (n : Nat) {s : State}, s.poison = [] → (drainUntilGo p n s).poison = []
  | 0, _, clean => clean
  | n + 1, s, clean => by
    unfold drainUntilGo
    split
    · split
      · exact drainUntilGo_clean p n (State.performAt_clean clean _)
      · exact clean
    · exact clean

theorem State.drain_clean (clean : s.poison = []) : s.drain.poison = [] := by
  unfold State.drain
  split
  · exact clean
  · exact drainUntilGo_clean _ _ clean

theorem complete_clean (clean : s.poison = []) (vs : List VReg) (ss : List SReg) : (complete s vs ss).poison = [] := by
  have vector : (s.needV vs).poison = [] := by
    unfold State.needV
    split
    · exact State.drain_clean clean
    · exact clean
  unfold complete State.needS
  split
  · exact State.drain_clean vector
  · exact vector

theorem State.settle_clean {x : TaintSet} (clean : s.poison = []) (settled : s.settle x = .ok w) : w.poison = [] := by
  unfold State.settle at settled
  split at settled
  · cases settled
    exact clean
  · dsimp only at settled
    split at settled
    · cases settled
    · cases settled
      exact State.drain_clean clean

/-! ### The entries of the Sieve (R105) -/

/-- Entries of the Sieve stand 16 bytes apart. -/
theorem Hart.sieveAddr_eq (h : Hart) (size e : Nat) : h.sieveAddr size e = h.sieveAddr size 0 + 16 * e := by
  unfold Hart.sieveAddr sieveOffset vaultKey
  omega

theorem Hart.sieveAddr_of_ref {h g : Hart} (e : g.ref = h.ref) (size : Nat) : g.sieveAddr size = h.sieveAddr size := by
  unfold Hart.sieveAddr Hart.pkg Hart.die Hart.core
  rw [e]

theorem sieveSet_lt {size : Nat} (whole : size % 16 = 0) (carved : size ≠ 0) (fits : 16 * size ≤ 0x300000) (key : Quad) :
    sieveSet size key < size / 16 := by
  have sets : size / 16 ≠ 0 := by omega
  have bits : Nat.log2 (size / 16) < 64 := (Nat.log2_lt sets).2 (by omega)
  refine Nat.lt_of_lt_of_le ?_ (Nat.log2_self_le sets)
  refine Nat.div_lt_of_lt_mul ?_
  rw [← Nat.pow_add, Nat.sub_add_cancel (Nat.le_of_lt bits)]
  exact BitVec.isLt _

/-- The entries of the set of a key. -/
def sieveWays (size : Nat) (key : Quad) : List Nat := (List.range 16).map (16 * sieveSet size key + ·)

theorem sieveWays_lt {size : Nat} (whole : size % 16 = 0) (carved : size ≠ 0) (fits : 16 * size ≤ 0x300000) {key : Quad} {e : Nat}
    (listed : e ∈ sieveWays size key) : e < size := by
  obtain ⟨i, low, rfl⟩ := List.mem_map.1 listed
  have low := List.mem_range.1 low
  have set := sieveSet_lt whole carved fits key
  omega

/-- The key and the value of entry e of a Sieve whose entries begin at a. -/
def sieveKeyAt (m : List Host.Cell) (a e : Nat) : Quad := readQuad m (a + 16 * e)
def sieveValueAt (m : List Host.Cell) (a e : Nat) : Quad := readQuad m (a + 16 * e + 8)

/-- Entry e takes a key and a value. -/
def sieveWritten (m : List Host.Cell) (a e : Nat) (key value : Quad) : List Host.Cell := writeQuads m (a + 16 * e) [key, value]

section
variable {m : List Host.Cell} (wf : Memory.wf m = true) (a e : Nat) (key value : Quad)
include wf

theorem sieveKeyAt_written (d : Nat) : sieveKeyAt (sieveWritten m a e key value) a d = if d = e then key else sieveKeyAt m a d := by
  unfold sieveKeyAt sieveWritten
  split
  · next same =>
    subst same
    have first := readQuads_writeQuads [key, value] (a + 16 * d) wf
    rw [List.length_cons, readQuads_succ] at first
    exact (List.cons.inj first).1
  · exact readQuad_congr _ fun y low high => readByte_writeQuads _ _ _ wf (by simp only [List.length_cons, List.length_nil]; omega)

theorem sieveValueAt_written (d : Nat) :
    sieveValueAt (sieveWritten m a e key value) a d = if d = e then value else sieveValueAt m a d := by
  unfold sieveValueAt sieveWritten
  split
  · next same =>
    subst same
    have both := readQuads_writeQuads [key, value] (a + 16 * d) wf
    rw [List.length_cons, readQuads_succ, List.length_singleton, readQuads_succ] at both
    exact (List.cons.inj (List.cons.inj both).2).1
  · exact readQuad_congr _ fun y low high => readByte_writeQuads _ _ _ wf (by simp only [List.length_cons, List.length_nil]; omega)

theorem readByte_sieveWritten {x : Nat} (outside : x < a + 16 * e ∨ a + 16 * (e + 1) ≤ x) :
    readByte (sieveWritten m a e key value) x = readByte m x := by
  refine readByte_writeQuads _ _ _ wf ?_
  simp only [List.length_cons, List.length_nil]
  omega

theorem sieveWritten_wf : Memory.wf (sieveWritten m a e key value) = true := Memory.wf_writeQuads _ _ wf

end

/-! ### Finding and inserting a key (R106) -/

/-- The entry of the set of a key that holds the key sought. -/
def sieveHit (m : List Host.Cell) (a size : Nat) (key sought : Quad) : Option Nat :=
  (sieveWays size key).find? fun e => sieveKeyAt m a e == sought

/-- The value that a key has. -/
def sieveValue (m : List Host.Cell) (a size : Nat) (key : Quad) : Option Quad :=
  (sieveHit m a size key key).map (sieveValueAt m a)

/-- The memory with a key found or inserted, and its value changed; none for the marker, and where the set is full. -/
def sieveInserted (m : List Host.Cell) (a size : Nat) (key : Quad) (upd : Quad → Quad) : Option (List Host.Cell) :=
  if key = emptyKey then none
  else
    match sieveHit m a size key key with
    | some e => some (sieveWritten m a e key (upd (sieveValueAt m a e)))
    | none =>
      match sieveHit m a size key emptyKey with
      | some e => some (sieveWritten m a e key (upd 0))
      | none => none

theorem sieveHit_spec {m : List Host.Cell} {a size e : Nat} {key sought : Quad} (h : sieveHit m a size key sought = some e) :
    e ∈ sieveWays size key ∧ sieveKeyAt m a e = sought :=
  ⟨List.mem_of_find?_eq_some h, by simpa using List.find?_some h⟩

theorem sieveHit_congr {m m' : List Host.Cell} {a size : Nat} {key sought : Quad}
    (h : ∀ e, (sieveKeyAt m' a e == sought) = (sieveKeyAt m a e == sought)) : sieveHit m' a size key sought = sieveHit m a size key sought :=
  congrArg (List.find? · (sieveWays size key)) (funext h)

theorem sieveHit_none {m : List Host.Cell} {a size : Nat} {key sought : Quad} :
    sieveHit m a size key sought = none ↔ ∀ e ∈ sieveWays size key, sieveKeyAt m a e ≠ sought := by
  unfold sieveHit
  simp [List.find?_eq_none]

section
variable {m : List Host.Cell} {a size e : Nat} {key k value : Quad} (wf : Memory.wf m = true)
include wf

/-- An entry that is written holds another key neither before nor after. -/
theorem sieveValue_written_ne (was : sieveKeyAt m a e = key ∨ sieveKeyAt m a e = emptyKey) (other : k ≠ key) (real : k ≠ emptyKey) :
    sieveValue (sieveWritten m a e key value) a size k = sieveValue m a size k := by
  have not : sieveKeyAt m a e ≠ k := by
    rcases was with was | was <;> rw [was]
    · exact Ne.symm other
    · exact Ne.symm real
  have same : sieveHit (sieveWritten m a e key value) a size k k = sieveHit m a size k k := by
    refine sieveHit_congr fun d => ?_
    rw [sieveKeyAt_written wf]
    split
    · next here => rw [here, beq_eq_false_iff_ne.2 not, beq_eq_false_iff_ne.2 (Ne.symm other)]
    · rfl
  unfold sieveValue
  rw [same]
  cases hit : sieveHit m a size k k with
  | none => rw [Option.map_none, Option.map_none]
  | some d =>
    have holds := (sieveHit_spec hit).2
    have apart : d ≠ e := fun here => not (here ▸ holds)
    rw [Option.map_some, Option.map_some, sieveValueAt_written wf, if_neg apart]

/-- A key that is written over itself keeps its entry. -/
theorem sieveValue_written_found (hit : sieveHit m a size key key = some e) :
    sieveValue (sieveWritten m a e key value) a size key = some value := by
  have holds := (sieveHit_spec hit).2
  have same : sieveHit (sieveWritten m a e key value) a size key key = sieveHit m a size key key := by
    refine sieveHit_congr fun d => ?_
    rw [sieveKeyAt_written wf]
    split
    · next here => rw [here, holds]
    · rfl
  unfold sieveValue
  rw [same, hit, Option.map_some, sieveValueAt_written wf, if_pos rfl]

/-- A key that takes an empty entry is found there. -/
theorem sieveValue_written_new (absent : sieveHit m a size key key = none) (way : e ∈ sieveWays size key) :
    sieveValue (sieveWritten m a e key value) a size key = some value := by
  have found : sieveHit (sieveWritten m a e key value) a size key key = some e := by
    cases hit : sieveHit (sieveWritten m a e key value) a size key key with
    | none => exact absurd (by rw [sieveKeyAt_written wf, if_pos rfl]) (sieveHit_none.1 hit e way)
    | some d =>
      obtain ⟨listed, holds⟩ := sieveHit_spec hit
      rw [sieveKeyAt_written wf] at holds
      split at holds
      · next here => rw [here]
      · exact absurd holds (sieveHit_none.1 absent d listed)
  unfold sieveValue
  rw [found, Option.map_some, sieveValueAt_written wf, if_pos rfl]

/-- A set that is full stays full. -/
theorem sieveHit_written_full (real : key ≠ emptyKey) (full : sieveHit m a size k emptyKey = none) :
    sieveHit (sieveWritten m a e key value) a size k emptyKey = none := by
  refine sieveHit_none.2 fun d listed => ?_
  rw [sieveKeyAt_written wf]
  split
  · exact real
  · exact sieveHit_none.1 full d listed

end

/-- Memory m' has the entries of m, with more keys in empty entries and with other values. -/
structure SieveGrows (a size : Nat) (m m' : List Host.Cell) : Prop where
  wf : Memory.wf m' = true
  outside : ∀ x, x < a ∨ a + 16 * size ≤ x → readByte m' x = readByte m x
  full : ∀ k, sieveHit m a size k emptyKey = none → sieveHit m' a size k emptyKey = none
  absent : ∀ k, k ≠ emptyKey → sieveHit m a size k emptyKey = none → sieveValue m a size k = none → sieveValue m' a size k = none
  kept : ∀ k, k ≠ emptyKey → sieveValue m a size k ≠ none → sieveValue m' a size k ≠ none

theorem SieveGrows.refl {a size : Nat} {m : List Host.Cell} (wf : Memory.wf m = true) : SieveGrows a size m m :=
  ⟨wf, fun _ _ => rfl, fun _ => id, fun _ _ _ => id, fun _ _ => id⟩

theorem SieveGrows.trans {a size : Nat} {m m' m'' : List Host.Cell} (h : SieveGrows a size m m') (k : SieveGrows a size m' m'') :
    SieveGrows a size m m'' where
  wf := k.wf
  outside x out := (k.outside x out).trans (h.outside x out)
  full key full := k.full key (h.full key full)
  absent key real full none := k.absent key real (h.full key full) (h.absent key real full none)
  kept key real has := k.kept key real (h.kept key real has)

section
variable {m m' : List Host.Cell} {a size : Nat} {key : Quad} {upd : Quad → Quad}

theorem sieveInserted_none : sieveInserted m a size key upd = none ↔
    key = emptyKey ∨ sieveValue m a size key = none ∧ sieveHit m a size key emptyKey = none := by
  unfold sieveInserted sieveValue
  split
  · next marker => simp [marker]
  · next real =>
    cases sieveHit m a size key key with
    | some e => simp [real]
    | none => cases sieveHit m a size key emptyKey <;> simp [real]

theorem sieveInserted_some (wf : Memory.wf m = true) (whole : size % 16 = 0) (carved : size ≠ 0) (fits : 16 * size ≤ 0x300000)
    (h : sieveInserted m a size key upd = some m') : key ≠ emptyKey ∧ SieveGrows a size m m' ∧
      sieveValue m' a size key = some (upd ((sieveValue m a size key).getD 0)) ∧
      ∀ k, k ≠ key → k ≠ emptyKey → sieveValue m' a size k = sieveValue m a size k := by
  have grows : ∀ e value, e ∈ sieveWays size key → key ≠ emptyKey → sieveKeyAt m a e = key ∨ sieveKeyAt m a e = emptyKey →
      sieveValue (sieveWritten m a e key value) a size key = some value →
      (sieveHit m a size key emptyKey = none → sieveValue m a size key = none → False) →
      SieveGrows a size m (sieveWritten m a e key value) ∧
      ∀ k, k ≠ key → k ≠ emptyKey → sieveValue (sieveWritten m a e key value) a size k = sieveValue m a size k := by
    intro e value way real was now room
    have low := sieveWays_lt whole carved fits way
    have others : ∀ k, k ≠ key → k ≠ emptyKey → sieveValue (sieveWritten m a e key value) a size k = sieveValue m a size k :=
      fun k other real => sieveValue_written_ne wf was other real
    refine ⟨⟨sieveWritten_wf wf .., fun x out => readByte_sieveWritten wf _ _ _ _ (by omega),
      fun k full => sieveHit_written_full wf real full, fun k realK full none => ?_, fun k realK has => ?_⟩, others⟩
    · by_cases same : k = key
      · subst same
        exact (room full none).elim
      · rw [others k same realK, none]
    · by_cases same : k = key
      · subst same
        rw [now]
        exact Option.some_ne_none _
      · exact (others k same realK).trans_ne has
  unfold sieveInserted at h
  split at h
  · cases h
  next real =>
  split at h
  · next e hit =>
    cases h
    obtain ⟨way, holds⟩ := sieveHit_spec hit
    have value : sieveValue m a size key = some (sieveValueAt m a e) := congrArg (Option.map _) hit
    have now := sieveValue_written_found (value := upd (sieveValueAt m a e)) wf hit
    obtain ⟨grown, others⟩ := grows e _ way real (.inl holds) now fun _ none => by rw [value] at none; cases none
    exact ⟨real, grown, by rw [now, value]; rfl, others⟩
  next absent =>
  split at h
  · next e free =>
    cases h
    obtain ⟨way, empty⟩ := sieveHit_spec free
    have value : sieveValue m a size key = none := congrArg (Option.map _) absent
    have now := sieveValue_written_new (value := upd 0) wf absent way
    obtain ⟨grown, others⟩ := grows e _ way real (.inr empty) now fun full _ => by rw [free] at full; cases full
    exact ⟨real, grown, by rw [now, value]; rfl, others⟩
  · cases h

end

/-! ### Element by element (R237) -/

/-- What the elements do to memory, one after another, with their results. -/
def memEach (g : List Host.Cell → Nat → List Host.Cell × Bool × Quad × Quad) :
    List Nat → List Host.Cell → List Host.Cell × List (Nat × Bool × Quad × Quad)
  | [], m => (m, [])
  | j :: r, m => ((memEach g r (g m j).1).1, (j, (g m j).2) :: (memEach g r (g m j).1).2)

/-- Elements that change memory alone, of sets that hold no poison. -/
theorem sieveEach_eq {poison : State → Nat → Option Nat} {f : State → Nat → State × Bool × Quad × Quad}
    {g : List Host.Cell → Nat → List Host.Cell × Bool × Quad × Quad} (clean : ∀ m j, poison { w with mem := m } j = none)
    (changes : ∀ m j, f { w with mem := m } j = ({ w with mem := (g m j).1 }, (g m j).2)) : ∀ (l : List Nat) (m : List Host.Cell),
    sieveEach { w with mem := m } poison f l = { state := { w with mem := (memEach g l m).1 }, out := (memEach g l m).2 }
  | [], _ => rfl
  | j :: r, m => by
    unfold sieveEach
    rw [clean, changes]
    dsimp only
    rw [sieveEach_eq clean changes r]
    rfl

/-- An element of svins or svacc. -/
def sieveUpdated (a size : Nat) (key : Nat → Quad) (add : Quad → Nat → Quad) (m : List Host.Cell) (j : Nat) :
    List Host.Cell × Bool × Quad × Quad :=
  match sieveInserted m a size (key j) (add · j) with
  | some m' => (m', false, 0, 0)
  | none => (m, true, 0, 0)

/-- Entries only grow; a key that ends in its set has the value it had, or 0, plus its operands; and an element reports its key
where that is the marker or ends in no entry. -/
structure SieveUpdates (a size : Nat) (key : Nat → Quad) (add : Quad → Nat → Quad) (l : List Nat) (m m' : List Host.Cell)
    (out : List (Nat × Bool × Quad × Quad)) : Prop where
  grows : SieveGrows a size m m'
  sums : ∀ k, k ≠ emptyKey → sieveValue m' a size k ≠ none →
    sieveValue m' a size k = some ((l.filter fun j => key j == k).foldl add ((sieveValue m a size k).getD 0))
  reports : ∀ x ∈ out, x.2.1 = true ↔ key x.1 = emptyKey ∨ sieveValue m' a size (key x.1) = none
  elems : out.map (·.1) = l

theorem sieveUpdates_each {a size : Nat} (whole : size % 16 = 0) (carved : size ≠ 0) (fits : 16 * size ≤ 0x300000)
    (key : Nat → Quad) (add : Quad → Nat → Quad) : ∀ (l : List Nat) (m : List Host.Cell), Memory.wf m = true →
    SieveUpdates a size key add l m (memEach (sieveUpdated a size key add) l m).1 (memEach (sieveUpdated a size key add) l m).2
  | [], m, wf => by
    refine ⟨.refl wf, fun k _ has => ?_, fun x listed => (nomatch listed), rfl⟩
    obtain ⟨x, is⟩ := Option.ne_none_iff_exists'.1 has
    have is : sieveValue m a size k = some x := is
    refine is.trans (congrArg some ?_)
    rw [List.filter_nil, List.foldl_nil, is, Option.getD_some]
  | j :: r, m, wf => by
    unfold memEach
    cases step : sieveInserted m a size (key j) (add · j) with
    | none =>
      have same : sieveUpdated a size key add m j = (m, true, 0, 0) := by
        unfold sieveUpdated
        rw [step]
      rw [same]
      obtain ⟨grows, sums, reports, elems⟩ := sieveUpdates_each whole carved fits key add r m wf
      have stuck : key j = emptyKey ∨ sieveValue (memEach (sieveUpdated a size key add) r m).1 a size (key j) = none := by
        rcases sieveInserted_none.1 step with marker | ⟨absent, full⟩
        · exact .inl marker
        · by_cases marker : key j = emptyKey
          · exact .inl marker
          · exact .inr (grows.absent _ marker full absent)
      refine ⟨grows, fun k real has => ?_, fun x listed => ?_, congrArg (j :: ·) elems⟩
      · have other : key j ≠ k := by
          rintro rfl
          rcases stuck with marker | absent
          · exact real marker
          · exact has absent
        rw [List.filter_cons_of_neg (by simpa using other)]
        exact sums k real has
      · rcases List.mem_cons.1 listed with rfl | later
        · exact iff_of_true rfl stuck
        · exact reports x later
    | some m' =>
      have same : sieveUpdated a size key add m j = (m', false, 0, 0) := by
        unfold sieveUpdated
        rw [step]
      rw [same]
      obtain ⟨real, grown, now, others⟩ := sieveInserted_some wf whole carved fits step
      obtain ⟨grows, sums, reports, elems⟩ := sieveUpdates_each whole carved fits key add r m' grown.wf
      refine ⟨grown.trans grows, fun k realK has => ?_, fun x listed => ?_, congrArg (j :: ·) elems⟩
      · refine (sums k realK has).trans ?_
        by_cases same : key j = k
        · subst same
          rw [List.filter_cons_of_pos (by simp), now, Option.getD_some, List.foldl_cons]
        · rw [List.filter_cons_of_neg (by simpa using same), others k (Ne.symm same) realK]
      · rcases List.mem_cons.1 listed with rfl | later
        · have has := grows.kept _ real (by rw [now]; exact Option.some_ne_none _)
          exact iff_of_false Bool.false_ne_true (not_or.2 ⟨real, has⟩)
        · exact reports x later

end Sys2Proof.Machine
end

section
/-! SUPPORT. The results of Sieve instructions: mask bits, and the elements of a group of 64-bit containers (R125, R185). -/

namespace Sys2Proof.Machine
variable {h : Hart} {mask : MaskOp}

/-! ### Elements that execute, and their mask bits -/

theorem Hart.mem_todo {j : Nat} : j ∈ h.todo mask ↔ j < h.vl ∧ h.start ≤ j ∧ h.active mask j = true := by
  simp [Hart.todo]

theorem Hart.todo_nodup (h : Hart) (mask : MaskOp) : (h.todo mask).Nodup := List.nodup_range.filter _

theorem Hart.sieveMask_frame (h : Hart) (md : MReg) (mask : MaskOp) (r : Sieved) (x : TaintSet) :
    h.sieveMask md mask r x = { h with m := (h.sieveMask md mask r x).m } := by
  unfold Hart.sieveMask
  extract_lets old f n bits
  split <;> rfl

theorem Hart.sieveMask_other {md r : MReg} (other : r ≠ md) (out : Sieved) (x : TaintSet) :
    (h.sieveMask md mask out x).m[r.toNat] = h.m[r.toNat] := by
  unfold Hart.sieveMask
  extract_lets old f n bits
  split
  · rfl
  · exact Vector.getElem_set_ne md.isLt r.isLt (fun same => other (BitVec.eq_of_toNat_eq same.symm))

/-- The bit of an element that has executed is its result. -/
theorem Hart.sieveMask_bit {md : MReg} {out : Sieved} {x : TaintSet} {j : Nat} (whole : out.fail = none) (does : j ∈ h.todo mask)
    (low : j < 65536) : (h.sieveMask md mask out x).m[md.toNat].bits.getLsbD j = out.out.any fun y => y.1 == j && y.2.1 := by
  obtain ⟨below, start, active⟩ := Hart.mem_todo.1 does
  unfold Hart.sieveMask
  extract_lets old f n bits
  have all : n = h.vl := by
    dsimp only [n]
    rw [whole]
  rw [if_neg (by omega)]
  dsimp only
  rw [Vector.getElem_set_self, maskOfList_getLsbD low]
  have len : bits.length = h.vl := by
    dsimp only [bits]
    rw [List.length_map, List.length_range, all]
  rw [if_pos ⟨Nat.zero_le _, by omega⟩]
  dsimp only [bits]
  rw [Nat.sub_zero, List.getD_eq_getElem?_getD, List.getElem?_map, List.getElem?_range (by omega), Option.map_some, Option.getD_some,
    if_pos active]
  exact if_neg (Nat.not_lt.2 start)

/-- An element is reported where the results that name it are. -/
theorem any_reported {out : List (Nat × Bool × Quad × Quad)} {p : Nat → Prop} (means : ∀ y ∈ out, y.2.1 = true ↔ p y.1) {j : Nat}
    (named : j ∈ out.map (·.1)) : (out.any fun y => y.1 == j && y.2.1) = true ↔ p j := by
  rw [List.any_eq_true]
  constructor
  · rintro ⟨y, listed, both⟩
    obtain ⟨same, reported⟩ := Bool.and_eq_true_iff.1 both
    rw [← beq_iff_eq.1 same]
    exact (means y listed).1 reported
  · intro holds
    obtain ⟨y, listed, rfl⟩ := List.mem_map.1 named
    exact ⟨y, listed, by simp [(means y listed).2 holds]⟩

/-! ### Elements of a group of 64-bit containers (R47) -/

theorem elemAt_setElem (l : List Word) (i k : Nat) (x : Quad) : elemAt (setElem l true i x) true k = if k = i then x else elemAt l true k := by
  unfold elemAt setElem
  rw [if_pos rfl, if_pos rfl, setContainer_getD, setContainer_getD, setContainer_getD, setContainer_getD]
  by_cases same : k = i
  · subst same
    rw [if_pos rfl, if_neg (by omega), if_pos rfl, if_pos rfl]
    exact halves_append x
  · rw [if_neg (by omega), if_neg (by omega), if_neg (by omega), if_neg (by omega), if_neg same, if_pos rfl]

theorem padTo_getD {n k : Nat} (l : List Word) (low : k < n) : (padTo n l).getD k 0 = l.getD k 0 := by
  unfold padTo
  rw [List.getD_eq_getElem?_getD, List.getD_eq_getElem?_getD, List.getElem?_take, if_pos low, List.getElem?_append]
  split
  · rfl
  · next past => rw [List.getElem?_replicate, List.getElem?_eq_none (Nat.le_of_not_lt past)]; split <;> rfl

theorem flatMap_getD {w : Nat} {f : Nat → List Word} (len : ∀ i, (f i).length = w) : ∀ (n k : Nat), k < n * w →
    ((List.range n).flatMap f).getD k 0 = (f (k / w)).getD (k % w) 0
  | 0, k, low => by omega
  | n + 1, k, low => by
    have first : ((List.range n).flatMap f).length = n * w := by
      rw [List.length_flatMap, List.map_congr_left fun i _ => len i]
      simp
    rw [List.range_succ, List.flatMap_append, List.flatMap_singleton]
    by_cases inner : k < n * w
    · rw [List.getD_append _ _ _ _ (by omega), flatMap_getD len n k inner]
    · rw [List.getD_append_right _ _ _ _ (by omega), first]
      rw [Nat.add_mul, Nat.one_mul] at low
      have last : k = (k - n * w) + w * n := by rw [Nat.mul_comm w]; omega
      have div : k / w = n := by
        rw [last, Nat.add_mul_div_left _ _ (by omega), Nat.div_eq_of_lt (by omega), Nat.zero_add]
      have mod : k % w = k - n * w := by
        conv_lhs => rw [last]
        rw [Nat.add_mul_mod_self_left, Nat.mod_eq_of_lt (by omega)]
      rw [div, mod]

/-- A container of a group is that of one of its registers. -/
theorem groupData_getD {r : VReg} (fits : h.groupFits r) {k : Nat} (low : k < h.regWords * h.group) :
    (h.groupData r).getD k 0 = ((h.v[r.toNat + k / h.regWords]?).getD default).data.getD (k % h.regWords) 0 := by
  have fits : r.toNat + h.group ≤ 64 := fits
  have words : 0 < h.regWords := Nat.pos_of_ne_zero fun none => by rw [none, Nat.zero_mul] at low; omega
  have which : k / h.regWords < h.group := Nat.div_lt_of_lt_mul low
  unfold Hart.groupData
  split
  · next one =>
    rw [one] at low which
    have inner : k < h.regWords := by omega
    rw [Nat.div_eq_of_lt inner, Nat.mod_eq_of_lt inner, Nat.add_zero, Vector.getElem?_eq_getElem r.isLt, Option.getD_some]
  · rw [flatMap_getD (fun i => padTo_length _ _) _ _ (by rwa [Nat.mul_comm]), padTo_getD _ (Nat.mod_lt _ words),
      Nat.mod_eq_of_lt (show r.toNat + k / h.regWords < 64 by omega), getElem!_pos h.v _ (by omega),
      Vector.getElem?_eq_getElem (by omega), Option.getD_some]

/-- Element k of a group is that of one of its registers. -/
theorem groupData_elemAt {r : VReg} (fits : h.groupFits r) (wide : h.csr.w64 = true) {k : Nat} (low : k < h.maxElems) :
    elemAt (h.groupData r) true k =
      elemAt ((h.v[r.toNat + k / h.csr.vlmax.toNat]?).getD default).data true (k % h.csr.vlmax.toNat) := by
  have words : h.regWords = h.csr.vlmax.toNat * 2 := by simp [Hart.regWords, wide]
  have low : k < h.csr.vlmax.toNat * h.group := low
  have even : ∀ c, c < 2 → (h.groupData r).getD (2 * k + c) 0 =
      ((h.v[r.toNat + k / h.csr.vlmax.toNat]?).getD default).data.getD (2 * (k % h.csr.vlmax.toNat) + c) 0 := by
    intro c two
    have room : 2 * k + c < h.regWords * h.group := by
      rw [words, Nat.mul_right_comm]
      omega
    have div : (2 * k + c) / h.regWords = k / h.csr.vlmax.toNat := by
      rw [words, Nat.mul_comm h.csr.vlmax.toNat, ← Nat.div_div_eq_div_mul, show (2 * k + c) / 2 = k by omega]
    have mod : (2 * k + c) % h.regWords = 2 * (k % h.csr.vlmax.toNat) + c := by
      rw [words, Nat.mul_comm h.csr.vlmax.toNat, Nat.mod_mul, show (2 * k + c) / 2 = k by omega, show (2 * k + c) % 2 = c by omega, Nat.add_comm]
    rw [groupData_getD fits room, div, mod]
  unfold elemAt
  rw [if_pos rfl, if_pos rfl, even 1 (by omega)]
  exact congrArg _ (even 0 (by omega))

/-- Element k of the group of r. -/
def Hart.elemOf (h : Hart) (r : VReg) (k : Nat) : Quad := elemAt (h.groupData r) true k

/-- Elements of a group depend on its registers alone. -/
theorem Hart.elemOf_congr {g : Hart} {r : VReg} (fits : h.groupFits r) (wide : h.csr.w64 = true) (vlmax : g.csr.vlmax = h.csr.vlmax)
    (gl : g.csr.gl = h.csr.gl) (w64 : g.csr.w64 = h.csr.w64)
    (same : ∀ k, r.toNat ≤ k → k < r.toNat + h.group → g.v[k]? = h.v[k]?) {k : Nat} (low : k < h.maxElems) :
    g.elemOf r k = h.elemOf r k := by
  have group : g.group = h.group := by rw [Hart.group, Hart.group, gl]
  have low' : k < h.csr.vlmax.toNat * h.group := low
  have which : k / h.csr.vlmax.toNat < h.group := Nat.div_lt_of_lt_mul low'
  unfold Hart.elemOf
  rw [groupData_elemAt (h := g) (by rwa [Hart.groupFits, group]) (w64.trans wide) (by rwa [Hart.maxElems, vlmax, group]),
    groupData_elemAt fits wide low, vlmax, same _ (Nat.le_add_right _ _) (Nat.add_lt_add_left which _)]

theorem Hart.setVElem_eq {r : VReg} (fits : h.groupFits r) (wide : h.csr.w64 = true) {i : Nat} (low : i < h.maxElems) (x : Quad) :
    ∃ lt : r.toNat + i / h.csr.vlmax.toNat < 64, h.setVElem r true i x = { h with v := (h.v.setIfInBounds (r.toNat + i / h.csr.vlmax.toNat)
      { h.v[r.toNat + i / h.csr.vlmax.toNat] with
        data := setElem h.v[r.toNat + i / h.csr.vlmax.toNat].data true (i % h.csr.vlmax.toNat) x }) } := by
  have fits : r.toNat + h.group ≤ 64 := fits
  have low : i < h.csr.vlmax.toNat * h.group := low
  have which : i / h.csr.vlmax.toNat < h.group := Nat.div_lt_of_lt_mul low
  have lt : r.toNat + i / h.csr.vlmax.toNat < 64 := by omega
  have words : h.regWords / 2 = h.csr.vlmax.toNat := by simp [Hart.regWords, wide]
  have some : h.csr.vlmax.toNat ≠ 0 := by
    intro none
    rw [none, Nat.zero_mul] at low
    omega
  refine ⟨lt, ?_⟩
  unfold Hart.setVElem
  dsimp only
  rw [if_pos rfl, words, if_neg some, if_neg some, Nat.mod_eq_of_lt lt, getElem!_pos h.v _ lt, Vector.set!_eq_setIfInBounds]

/-- Element k after element i is written. -/
theorem Hart.elemOf_setVElem {r : VReg} (fits : h.groupFits r) (wide : h.csr.w64 = true) {i k : Nat} (lowI : i < h.maxElems)
    (lowK : k < h.maxElems) (x : Quad) : (h.setVElem r true i x).elemOf r k = if k = i then x else h.elemOf r k := by
  obtain ⟨lt, set⟩ := Hart.setVElem_eq fits wide lowI x
  unfold Hart.elemOf
  rw [set, groupData_elemAt (by exact fits) (by exact wide) (by exact lowK), groupData_elemAt fits wide lowK]
  dsimp only
  generalize h.csr.vlmax.toNat = n at lt
  by_cases reg : i / n = k / n
  · rw [← reg, Vector.getElem?_setIfInBounds, if_pos rfl, if_pos lt, Option.getD_some, elemAt_setElem, Vector.getElem?_eq_getElem lt, Option.getD_some]
    refine if_congr ⟨fun mod => ?_, fun same => by rw [same]⟩ rfl rfl
    rw [← Nat.div_add_mod k n, ← Nat.div_add_mod i n, reg, mod]
  · rw [Vector.getElem?_setIfInBounds, if_neg (by omega), if_neg (fun same => reg (by rw [same]))]

theorem Hart.setVElem_other {r : VReg} (fits : h.groupFits r) (wide : h.csr.w64 = true) {i : Nat} (low : i < h.maxElems) (x : Quad)
    {k : Nat} (outside : k < r.toNat ∨ r.toNat + h.group ≤ k) : (h.setVElem r true i x).v[k]? = h.v[k]? := by
  obtain ⟨lt, set⟩ := Hart.setVElem_eq fits wide low x
  have low : i < h.csr.vlmax.toNat * h.group := low
  have which : i / h.csr.vlmax.toNat < h.group := Nat.div_lt_of_lt_mul low
  have begins : r.toNat ≤ r.toNat + i / h.csr.vlmax.toNat := Nat.le_add_right ..
  rw [set]
  exact Vector.getElem?_setIfInBounds.trans (if_neg (by omega))

/-- Elements of a group written one after another. -/
def Hart.setVElems (h : Hart) (r : VReg) (l : List (Nat × Quad)) : Hart := l.foldl (fun h p => h.setVElem r true p.1 p.2) h

/-- g has the registers of h outside the group of r, and its vector configuration. -/
structure Hart.SameOutside (h g : Hart) (r : VReg) : Prop where
  csr : g.csr.vlmax = h.csr.vlmax ∧ g.csr.gl = h.csr.gl ∧ g.csr.w64 = h.csr.w64
  other : ∀ k, k < r.toNat ∨ r.toNat + h.group ≤ k → g.v[k]? = h.v[k]?

theorem Hart.SameOutside.group {g : Hart} {r : VReg} (same : h.SameOutside g r) : g.group = h.group := by
  rw [Hart.group, Hart.group, same.csr.2.1]

theorem Hart.SameOutside.maxElems {g : Hart} {r : VReg} (same : h.SameOutside g r) : g.maxElems = h.maxElems := by
  rw [Hart.maxElems, Hart.maxElems, same.csr.1, same.group]

theorem Hart.SameOutside.trans {g f : Hart} {r : VReg} (first : h.SameOutside g r) (second : g.SameOutside f r) : h.SameOutside f r := by
  obtain ⟨vlmax, gl, w64⟩ := first.csr
  obtain ⟨vlmax', gl', w64'⟩ := second.csr
  exact ⟨⟨vlmax'.trans vlmax, gl'.trans gl, w64'.trans w64⟩,
    fun k out => (second.other k (by rwa [first.group])).trans (first.other k out)⟩

theorem Hart.sameOutside_setVElem {r : VReg} (fits : h.groupFits r) (wide : h.csr.w64 = true) {i : Nat} (low : i < h.maxElems) (x : Quad) :
    h.SameOutside (h.setVElem r true i x) r := ⟨⟨rfl, rfl, rfl⟩, fun _ => Hart.setVElem_other fits wide low x⟩

theorem Hart.setVElems_elem {r : VReg} : ∀ (l : List (Nat × Quad)) {h : Hart}, h.groupFits r → h.csr.w64 = true →
    (∀ p ∈ l, p.1 < h.maxElems) → (l.map (·.1)).Nodup →
    h.SameOutside (h.setVElems r l) r ∧ (∀ p ∈ l, (h.setVElems r l).elemOf r p.1 = p.2) ∧
      ∀ k, k < h.maxElems → k ∉ l.map (·.1) → (h.setVElems r l).elemOf r k = h.elemOf r k
  | [], h, _, _, _, _ => ⟨⟨⟨rfl, rfl, rfl⟩, fun _ _ => rfl⟩, fun p listed => (nomatch listed), fun _ _ _ => rfl⟩
  | q :: l, h, fits, wide, low, apart => by
    have lowQ := low q List.mem_cons_self
    have first := Hart.sameOutside_setVElem fits wide lowQ q.2
    obtain ⟨fresh, apart⟩ := List.nodup_cons.1 apart
    obtain ⟨same, elems, others⟩ := Hart.setVElems_elem l (h := h.setVElem r true q.1 q.2) (by rwa [Hart.groupFits, first.group])
      (first.csr.2.2.trans wide) (fun p listed => by rw [first.maxElems]; exact low p (List.mem_cons_of_mem _ listed)) apart
    refine ⟨first.trans same, fun p listed => ?_, fun k lowK not => ?_⟩
    · rcases List.mem_cons.1 listed with rfl | later
      · refine (others p.1 (by rwa [first.maxElems]) fresh).trans ?_
        rw [Hart.elemOf_setVElem fits wide lowQ lowQ, if_pos rfl]
      · exact elems p later
    · obtain ⟨other, not⟩ := not_or.1 (mt List.mem_cons.2 not)
      refine (others k (by rwa [first.maxElems]) not).trans ?_
      rw [Hart.elemOf_setVElem fits wide lowQ lowK, if_neg other]

theorem mergeLoad_length (act dropped : Nat → Bool) (mp tp : Bool) (vl limit : Nat) : ∀ (l : List Quad) (i : Nat),
    (mergeLoad act dropped mp tp vl limit i l).length = l.length
  | [], _ => rfl
  | _ :: l, i => congrArg (· + 1) (mergeLoad_length act dropped mp tp vl limit l (i + 1))

/-- A destination is prepared within its group. -/
theorem Hart.sameOutside_prepare {vd : VReg} (fits : h.groupFits vd) (wide : h.csr.w64 = true) (limit : Nat) (x : TaintSet) :
    h.SameOutside (h.prepare vd .n64 mask [] limit x) vd := by
  have words := Hart.maxElems_words (h := h) (t := .n64) fun _ => wide
  have group : 0 < h.group := Nat.two_pow_pos _
  refine ⟨by rw [Hart.prepare_eq]; exact ⟨rfl, rfl, rfl⟩, fun k outside => ?_⟩
  unfold Hart.prepare
  dsimp only
  rw [setGroupData_eq fits]
  · dsimp only
    rw [Vector.getElem?_set_ne _ (by omega)]
    by_cases inside : k < 64
    · rw [Vector.getElem?_eq_getElem inside, Vector.getElem?_eq_getElem inside, Hart.withParts_getElem, if_neg (by omega)]
    · rw [Vector.getElem?_eq_none (by omega), Vector.getElem?_eq_none (by omega)]
  · rw [List.length_append, packElems_length, mergeLoad_length, takeElems_length, List.length_drop, padTo_length]
    exact Nat.add_sub_of_le words

/-! ### The v destination of a Sieve instruction -/

section
variable {vd : VReg} {out : Sieved} {val : Bool × Quad × Quad → Quad} {x : TaintSet}

theorem Hart.sieveVec_writes (h : Hart) (vd : VReg) (mask : MaskOp) (out : Sieved) (val : Bool × Quad × Quad → Quad) (x : TaintSet)
    (whole : out.fail = none) : h.sieveVec vd mask out val x =
      (h.prepare vd .n64 mask [] h.maxElems x).setVElems vd (out.out.map fun y => (y.1, val y.2)) := by
  unfold Hart.sieveVec Hart.setVElems
  rw [whole, List.foldl_map]

theorem Hart.sieveVec_frame (h : Hart) (vd : VReg) (mask : MaskOp) (out : Sieved) (val : Bool × Quad × Quad → Quad) (x : TaintSet)
    (whole : out.fail = none) : h.sieveVec vd mask out val x =
      { h with v := (h.sieveVec vd mask out val x).v, csr := { h.csr with vlast := vd } } := by
  rw [Hart.sieveVec_writes _ _ _ _ _ _ whole]
  obtain ⟨v, shape⟩ := Hart.setVElems_shape vd true (out.out.map fun y => (y.1, val y.2)) (h.prepare vd .n64 mask [] h.maxElems x)
  unfold Hart.setVElems
  rw [shape, Hart.prepare_eq]

theorem Hart.sieveVec_elem (fits : h.groupFits vd) (wide : h.csr.w64 = true) (whole : out.fail = none)
    (low : ∀ y ∈ out.out, y.1 < h.maxElems) (apart : (out.out.map (·.1)).Nodup) :
    h.SameOutside (h.sieveVec vd mask out val x) vd ∧ ∀ y ∈ out.out, (h.sieveVec vd mask out val x).elemOf vd y.1 = val y.2 := by
  have prepared := Hart.sameOutside_prepare (mask := mask) fits wide h.maxElems x
  rw [Hart.sieveVec_writes _ _ _ _ _ _ whole]
  obtain ⟨same, elems, -⟩ := Hart.setVElems_elem (r := vd) (out.out.map fun y => (y.1, val y.2))
    (h := h.prepare vd .n64 mask [] h.maxElems x) (by rwa [Hart.groupFits, prepared.group]) (prepared.csr.2.2.trans wide)
    (fun p listed => by
      obtain ⟨y, has, rfl⟩ := List.mem_map.1 listed
      rw [prepared.maxElems]
      exact low y has)
    (by rw [List.map_map]; exact apart)
  exact ⟨prepared.trans same, fun y has => elems (y.1, val y.2) (List.mem_map_of_mem has)⟩

end

end Sys2Proof.Machine
end

section
/-! SUPPORT. What svins, svacc, svlook, svdrn and svclr run to (R237 to R239). -/

namespace Sys2Proof.Machine
variable {s t u v w : State} {mask : MaskOp} {size : Nat}

/-! ### The Sieve of a state -/

theorem State.sieveFind_eq (t : State) (size : Nat) (key sought : Quad) :
    t.sieveFind size (sieveSet size key) sought = sieveHit t.mem (t.hart.sieveAddr size 0) size key sought := by
  refine congrArg (List.find? · (sieveWays size key)) (funext fun e => ?_)
  rw [Hart.sieveAddr_eq]
  rfl

/-- The value that a key has at a state. -/
theorem State.sieveValue_eq (same : t.hart.ref = s.hart.ref) (size : Nat) (key : Quad) :
    ((t.sieveFind size (sieveSet size key) key).map fun e => readQuad t.mem (s.hart.sieveAddr size e + 8)) =
      sieveValue t.mem (s.hart.sieveAddr size 0) size key := by
  rw [State.sieveFind_eq, Hart.sieveAddr_of_ref same]
  refine congrArg (Option.map · _) (funext fun e => ?_)
  rw [Hart.sieveAddr_eq]
  rfl

theorem State.sieveInsert_eq (w : State) (m : List Host.Cell) (size : Nat) (key : Quad) (upd : Quad → Quad) :
    ({ w with mem := m } : State).sieveInsert size key upd =
      (sieveInserted m (w.hart.sieveAddr size 0) size key upd).map fun m' => { w with mem := m' } := by
  unfold State.sieveInsert sieveInserted
  split
  · rfl
  · dsimp only
    rw [State.sieveFind_eq, State.sieveFind_eq]
    dsimp only
    cases sieveHit m (w.hart.sieveAddr size 0) size key key with
    | some e =>
      dsimp only [State.sievePut, Option.map_some]
      rw [Hart.sieveAddr_eq]
      rfl
    | none =>
      cases sieveHit m (w.hart.sieveAddr size 0) size key emptyKey with
      | some e =>
        dsimp only [State.sievePut, Option.map_some]
        rw [Hart.sieveAddr_eq]
        rfl
      | none => rfl

theorem State.sievePoison_none (clean : w.poison = []) (size set : Nat) : w.sievePoison size set = none := by
  unfold State.sievePoison State.poisoned
  rw [clean]
  simp

theorem State.sieveSize_ok (carved : (s.core s.hart.pkg s.hart.die s.hart.core).sieve ≠ 0) :
    s.sieveSize = .ok (s.core s.hart.pkg s.hart.die s.hart.core).sieve := if_neg carved

/-! ### Before the elements -/

/-- At w the elements of a Sieve instruction begin, which issued at s on a core with a Sieve of `size` entries: w keeps the place
and the configuration of the hart, nothing is poisoned, and memory is canonical. -/
structure Sieving (s w : State) (size : Nat) : Prop where
  carved : (s.core s.hart.pkg s.hart.die s.hart.core).sieve = size
  some : size ≠ 0
  whole : size % 16 = 0
  fits : 16 * size ≤ 0x300000
  clean : w.poison = []
  steady : w.steady = s.steady
  wf : Memory.wf w.mem = true

theorem sieving_of_settled {vs : List VReg} {ss : List SReg} {x : TaintSet}
    (carved : (s.core s.hart.pkg s.hart.die s.hart.core).sieve = size) (some : size ≠ 0) (whole : size % 16 = 0)
    (fits : 16 * size ≤ 0x300000) (clean : s.poison = []) (sound : Sound s) (settled : (complete s vs ss).settle x = .ok w) :
    Sieving s w size := by
  refine ⟨carved, some, whole, fits, State.settle_clean (complete_clean clean vs ss) settled,
    (State.settle_steady settled).trans (complete_steady s vs ss), ?_⟩
  have keeps := State.settle_keeps (State.needS_wf (State.needV_wf sound vs) ss) x
  rw [show ((s.needV vs).needS ss).settle x = .ok w from settled] at keeps
  exact keeps

theorem Sieving.size_ok (h : Sieving s w size) : s.sieveSize = .ok size := by
  rw [← h.carved]
  exact State.sieveSize_ok (by rw [h.carved]; exact h.some)

theorem Sieving.ref (h : Sieving s w size) : w.hart.ref = s.hart.ref := State.ref_of_steady h.steady

/-- A register that passes its check names a group within the file. -/
theorem VectorUnit.fits {vs : List VReg} (unit : VectorUnit s vs) {r : VReg} (named : r ∈ vs) : s.hart.groupFits r := by
  obtain ⟨low, whole⟩ := unit.2.2.2 r named
  exact groupFits_of_regOk (by simp [Hart.regOk, Hart.nregs, Hart.group, low, whole])

/-- The groups of two registers that pass their checks are apart. -/
theorem VectorUnit.apart {vs : List VReg} (unit : VectorUnit s vs) {r q : VReg} (namedR : r ∈ vs) (namedQ : q ∈ vs) (other : r ≠ q) :
    r.toNat + s.hart.group ≤ q.toNat ∨ q.toNat + s.hart.group ≤ r.toNat := by
  have wholeR : r.toNat % s.hart.group = 0 := (unit.2.2.2 r namedR).2
  have wholeQ : q.toNat % s.hart.group = 0 := (unit.2.2.2 q namedQ).2
  have differ : r.toNat ≠ q.toNat := fun same => other (BitVec.eq_of_toNat_eq same)
  obtain ⟨i, isR⟩ := Nat.dvd_of_mod_eq_zero wholeR
  obtain ⟨j, isQ⟩ := Nat.dvd_of_mod_eq_zero wholeQ
  rw [isR, isQ] at differ ⊢
  rcases Nat.lt_or_gt_of_ne (fun same : i = j => differ (by rw [same])) with below | above
  · exact .inl (by simpa [Nat.mul_succ] using Nat.mul_le_mul_left s.hart.group (show i + 1 ≤ j from below))
  · exact .inr (by simpa [Nat.mul_succ] using Nat.mul_le_mul_left s.hart.group (show j + 1 ≤ i from above))

theorem Hart.allocTag_csr (h : Hart) : h.allocTag.1.csr = h.csr := by
  rw [Hart.allocTag_eq]

/-- Results at a hart that has taken a tag. -/
theorem Hart.todo_allocTag (h : Hart) (mask : MaskOp) : h.allocTag.1.todo mask = h.todo mask := by
  rw [Hart.allocTag_eq]
  rfl

/-! ### svins and svacc (R237, R238) -/

section
variable {md : MReg} {va : VReg} {b : Option VReg}

/-- The key of an element. -/
def Hart.sieveKeys (h : Hart) (va : VReg) (j : Nat) : Quad := sieveKey (h.tagOf va) ((h.streamData va (h.tagOf va) h.csr.vl.toNat).getD j 0)

/-- What an element adds to the value of its key. -/
def Hart.sieveAdds (h : Hart) (b : Option VReg) (acc : Quad) (j : Nat) : Quad :=
  match b with
  | none => acc
  | some b => sieveAdd (h.tagOf b) acc ((h.sieveVals b h.csr.vl.toNat).getD j 0)

/-- A hart that reports the elements of a Sieve instruction in mask register md. -/
def Hart.sieveReports (h : Hart) (md : MReg) (mask : MaskOp) (r : Sieved) (x : TaintSet) : Hart :=
  let g := h.allocTag.1.sieveMask md mask r x
  if r.out.any (fun y => y.2.1) then { g with csr := { g.csr with vstat := g.csr.vstat ||| 2 } } else g

theorem Hart.sieveReports_frame (h : Hart) (md : MReg) (mask : MaskOp) (r : Sieved) (x : TaintSet) :
    h.sieveReports md mask r x = { h with
      m := (h.allocTag.1.sieveMask md mask r x).m, tagBusy := h.allocTag.1.tagBusy, tag0Last := h.allocTag.1.tag0Last,
      csr := { h.csr with vstat := if r.out.any (fun y => y.2.1) then h.csr.vstat ||| 2 else h.csr.vstat } } := by
  unfold Hart.sieveReports
  dsimp only
  rw [Hart.sieveMask_frame, Hart.allocTag_eq]
  split <;> rfl

theorem sieveUpdate_runs (ready : VectorReady s (va :: b.toList)) (whole : (s.hart.tagOf va).isF = false)
    (fits : ∀ r ∈ va :: b.toList, (s.hart.tagOf r).wide = true → s.hart.csr.w64 = true)
    (sieve : Sieving s w size)
    (settled : (complete s (va :: b.toList) []).settle (b.toList.foldl (fun acc r => acc ||| (complete s (va :: b.toList) []).hart.taintV r)
      ((complete s (va :: b.toList) []).hart.taintV va) ||| (complete s (va :: b.toList) []).hart.taintM mask.m) = .ok w) :
    let each := memEach (sieveUpdated (w.hart.sieveAddr size 0) size (w.hart.sieveKeys va) (w.hart.sieveAdds b)) (w.hart.todo mask) w.mem
    ∃ x, s.sieveUpdate md va b mask = .ok { w with
      mem := each.1, hart := w.hart.sieveReports md mask { state := { w with mem := each.1 }, out := each.2 } x } := by
  intro each
  have pre : s.checks6 (va :: b.toList) (s.hart.tagOf va :: (b.map s.hart.tagOf).toList) (.ok .rne) = .ok .rne := by
    refine State.checks6_ok ready.1 fun t listed => ?_
    rcases List.mem_cons.1 listed with rfl | other
    · exact fits va List.mem_cons_self
    · cases b with
      | none => cases other
      | some b =>
        obtain rfl := List.mem_singleton.1 other
        exact fits b (List.mem_cons_of_mem _ (List.mem_singleton.2 rfl))
  have tag : w.hart.tagOf va = s.hart.tagOf va := State.tagOf_of_steady sieve.steady va
  refine ⟨tagBit w.hart.allocTag.2 ||| b.toList.foldl (fun acc r => acc ||| (complete s (va :: b.toList) []).hart.taintV r)
    ((complete s (va :: b.toList) []).hart.taintV va), ?_⟩
  unfold State.sieveUpdate
  refine (bind_of_ok pre _).trans ?_
  refine (bind_of_ok sieve.size_ok _).trans ?_
  refine (bind_of_ok (show s.tagOk (!(s.hart.tagOf va).isF) = .ok () from if_pos (by rw [whole]; rfl)) _).trans ?_
  refine (bind_of_ok (State.ready_of_complete ready.2.2.2.2).1 _).trans ?_
  refine (bind_of_ok settled _).trans ?_
  rw [← tag]
  extract_lets keys vals key upd poison r full
  have ran : r = { state := { w with mem := each.1 }, out := each.2 } := by
    refine sieveEach_eq (w := w) (fun m j => ?_) (fun m j => ?_) (w.hart.todo mask) w.mem
    · dsimp only [poison]
      split
      · rfl
      · exact State.sievePoison_none sieve.clean ..
    · have adds : upd j = fun v => w.hart.sieveAdds b v j := by
        cases b <;> rfl
      rw [State.sieveInsert_eq, adds]
      unfold sieveUpdated
      rw [show w.hart.sieveKeys va j = key j from rfl]
      cases sieveInserted m (w.hart.sieveAddr size 0) size (key j) (fun v => w.hart.sieveAdds b v j) <;> rfl
  clear_value r
  subst ran
  rfl

/-- A vector instruction that has run, with its memory and what it leaves of its hart. -/
theorem sieve_ran {body : State → Except Stop State} (queue : s.hart.queued = false) (collective : s.blockedVst = false)
    (plain : PlainWord s) (runs : body s = .ok u) : ∃ v, s.vector body = .next v ∧ v.mem = u.mem ∧
      ∃ flights, v.hart = { u.hart with
        pc := u.hart.pc + 8, status := .running, seq := u.hart.seq + 1, flights := flights } :=
  ⟨_, State.vector_ran queue collective plain runs, ranV_mem .., _, ranV_hart s u 8 u.hart⟩

theorem Sieved.reported_iff {out : List (Nat × Bool × Quad × Quad)} {p : Nat → Prop} (means : ∀ y ∈ out, y.2.1 = true ↔ p y.1) :
    (out.any fun y => y.2.1) = true ↔ ∃ j ∈ out.map (·.1), p j := by
  rw [List.any_eq_true]
  constructor
  · rintro ⟨y, listed, reported⟩
    exact ⟨y.1, List.mem_map_of_mem listed, (means y listed).1 reported⟩
  · rintro ⟨j, named, holds⟩
    obtain ⟨y, listed, rfl⟩ := List.mem_map.1 named
    exact ⟨y, listed, (means y listed).2 holds⟩

theorem sieveUpdate_leaves (ready : VectorReady s (va :: b.toList)) (whole : (s.hart.tagOf va).isF = false)
    (fits : ∀ r ∈ va :: b.toList, (s.hart.tagOf r).wide = true → s.hart.csr.w64 = true) (sieve : Sieving s w size)
    (settled : (complete s (va :: b.toList) []).settle (b.toList.foldl (fun acc r => acc ||| (complete s (va :: b.toList) []).hart.taintV r)
      ((complete s (va :: b.toList) []).hart.taintV va) ||| (complete s (va :: b.toList) []).hart.taintM mask.m) = .ok w) :
    let h := w.hart
    let a := h.sieveAddr size 0
    let key := h.sieveKeys va
    ∃ v, s.vector (·.sieveUpdate md va b mask) = .next v ∧ v.hart = { h with
        pc := h.pc + 8, status := .running, seq := h.seq + 1, m := v.hart.m, flights := v.hart.flights,
        tagBusy := h.allocTag.1.tagBusy, tag0Last := h.allocTag.1.tag0Last,
        csr := { h.csr with vstat := v.hart.csr.vstat } } ∧ v.hart.csr.vstat ||| 2 = h.csr.vstat ||| 2 ∧
      (∀ r : MReg, r ≠ md → v.hart.m[r.toNat] = h.m[r.toNat]) ∧
      (∀ x, x < a ∨ a + 16 * size ≤ x → readByte v.mem x = readByte w.mem x) ∧
      (∀ j ∈ h.todo mask, (j < 65536 → (v.hart.m[md.toNat].bits.getLsbD j = true ↔
        key j = emptyKey ∨ sieveValue v.mem a size (key j) = none)) ∧
        (key j ≠ emptyKey → sieveValue v.mem a size (key j) ≠ none → sieveValue v.mem a size (key j) =
          some (((h.todo mask).filter fun i => key i == key j).foldl (h.sieveAdds b) ((sieveValue w.mem a size (key j)).getD 0)))) ∧
      (v.hart.csr.vstat.getLsbD 1 = true ↔ h.csr.vstat.getLsbD 1 = true ∨
        ∃ j ∈ h.todo mask, key j = emptyKey ∨ sieveValue v.mem a size (key j) = none) := by
  intro h a key
  obtain ⟨x, runs⟩ := sieveUpdate_runs (md := md) (mask := mask) ready whole fits sieve settled
  obtain ⟨grows, sums, reports, elems⟩ := sieveUpdates_each (a := a) sieve.whole sieve.some sieve.fits key (h.sieveAdds b) (h.todo mask)
    w.mem sieve.wf
  generalize memEach (sieveUpdated (w.hart.sieveAddr size 0) size (w.hart.sieveKeys va) (w.hart.sieveAdds b)) (w.hart.todo mask) w.mem =
    each at runs grows sums reports elems
  obtain ⟨v, ran, mem, flights, hart⟩ := sieve_ran (body := (·.sieveUpdate md va b mask)) ready.2.1 ready.2.2.1 ready.2.2.2.1 runs
  dsimp only at mem hart
  rw [Hart.sieveReports_frame] at hart
  refine ⟨v, ran, by rw [hart], ?_, fun r other => ?_, fun x out => ?_, fun j does => ⟨fun low => ?_, fun real has => ?_⟩, ?_⟩
  · rw [hart]
    dsimp only
    split
    · rw [BitVec.or_assoc, BitVec.or_self]
    · rfl
  · rw [hart]
    dsimp only
    rw [Hart.sieveMask_other other, Hart.allocTag_eq]
  · rw [mem]
    exact grows.outside x out
  · rw [hart, mem]
    dsimp only
    rw [Hart.sieveMask_bit rfl (by rwa [Hart.todo_allocTag]) low]
    exact any_reported (p := fun i => key i = emptyKey ∨ sieveValue each.1 a size (key i) = none) reports (by rw [elems]; exact does)
  · rw [mem] at has ⊢
    exact sums _ real has
  · rw [hart, mem]
    dsimp only
    rw [← elems, ← Sieved.reported_iff (p := fun i => key i = emptyKey ∨ sieveValue each.1 a size (key i) = none) reports]
    show (if (each.2.any fun y => y.2.1) = true then h.csr.vstat ||| 2 else h.csr.vstat).getLsbD 1 = true ↔ _
    cases each.2.any fun y => y.2.1 <;> simp

end

/-- The destination group of a Sieve instruction whose elements are those to do, and the registers outside it. -/
theorem Sieving.dest_elem (sieve : Sieving s w size) {vs : List VReg} {vd : VReg} {out : Sieved} {val : Bool × Quad × Quad → Quad}
    {x : TaintSet} (unit : VectorUnit s vs) (named : vd ∈ vs) (wide : s.hart.csr.w64 = true) (whole : out.fail = none)
    (room : w.hart.csr.vl.toNat ≤ w.hart.csr.vlmax.toNat * 2 ^ w.hart.csr.gl.toNat) (elems : out.out.map (·.1) = w.hart.todo mask) :
    w.hart.SameOutside (w.hart.allocTag.1.sieveVec vd mask out val x) vd ∧
      ∀ y ∈ out.out, (w.hart.allocTag.1.sieveVec vd mask out val x).elemOf vd y.1 = val y.2 := by
  have fits : w.hart.groupFits vd := VectorUnit.fits (VectorUnit.of_steady unit sieve.steady) named
  have low : ∀ y ∈ out.out, y.1 < w.hart.maxElems := fun y listed => by
    have does : y.1 ∈ w.hart.todo mask := elems ▸ List.mem_map_of_mem listed
    exact Nat.lt_of_lt_of_le (Hart.mem_todo.1 does).1 room
  have tagged : w.hart.allocTag.1.v = w.hart.v ∧ w.hart.allocTag.1.csr = w.hart.csr := by
    rw [Hart.allocTag_eq]
    exact ⟨rfl, rfl⟩
  obtain ⟨v, csr⟩ := tagged
  have group : w.hart.allocTag.1.group = w.hart.group := by rw [Hart.group, Hart.group, csr]
  obtain ⟨same, written⟩ := Hart.sieveVec_elem (h := w.hart.allocTag.1) (mask := mask) (val := val) (x := x)
    (by rwa [Hart.groupFits, group]) (by rw [csr]; exact (State.w64_of_steady sieve.steady).trans wide) whole
    (by rwa [Hart.maxElems, csr, group]) (by rw [elems]; exact Hart.todo_nodup ..)
  refine ⟨⟨by rw [← csr]; exact same.csr, fun k out => ?_⟩, written⟩
  rw [← v]
  exact same.other k (by rwa [group])

/-! ### svlook (R239) -/

theorem sieveEach_const {poison : State → Nat → Option Nat} {f : State → Nat → State × Bool × Quad × Quad} {g : Nat → Bool × Quad × Quad}
    (clean : ∀ j, poison w j = none) (stays : ∀ j, f w j = (w, g j)) : ∀ l : List Nat,
    sieveEach w poison f l = { state := w, out := l.map fun j => (j, g j) }
  | [] => rfl
  | j :: r => by
    unfold sieveEach
    rw [clean, stays]
    dsimp only
    rw [sieveEach_const clean stays r]
    rfl

/-- A tag taken and a destination written leave the vector configuration. -/
theorem Hart.sieveVec_csr (h : Hart) (vd : VReg) (mask : MaskOp) (out : Sieved) (val : Bool × Quad × Quad → Quad) (x : TaintSet)
    (whole : out.fail = none) : (h.sieveVec vd mask out val x).csr.vlmax = h.csr.vlmax ∧
      (h.sieveVec vd mask out val x).csr.gl = h.csr.gl ∧ (h.sieveVec vd mask out val x).csr.w64 = h.csr.w64 := by
  rw [Hart.sieveVec_frame _ _ _ _ _ _ whole]
  exact ⟨rfl, rfl, rfl⟩

theorem Hart.tagOf_of_steady {h g : Hart} (e : g.steady = h.steady) (r : VReg) : g.tagOf r = h.tagOf r := by
  have same : g.v.map (fun r => ({ tag := r.tag } : VecReg)) = h.v.map (fun r => ({ tag := r.tag } : VecReg)) := congrArg (·.v) e
  simpa [Hart.tagOf] using congrArg (fun v : Vector VecReg 64 => v[r.toNat].tag) same

/-- Elements of a group depend on the registers and on the vector configuration. -/
theorem Hart.elemOf_of {h g : Hart} (v : g.v = h.v) (vlmax : g.csr.vlmax = h.csr.vlmax) (gl : g.csr.gl = h.csr.gl)
    (w64 : g.csr.w64 = h.csr.w64) (r : VReg) (k : Nat) : g.elemOf r k = h.elemOf r k := by
  unfold Hart.elemOf Hart.groupData Hart.regWords Hart.group
  rw [v, vlmax, gl, w64]

/-- The tag of a destination of a Sieve instruction. -/
theorem Hart.sieveVec_tagOf (h : Hart) (vd : VReg) (mask : MaskOp) (out : Sieved) (val : Bool × Quad × Quad → Quad) (x : TaintSet)
    (whole : out.fail = none) : (h.sieveVec vd mask out val x).tagOf vd = .n64 := by
  rw [Hart.sieveVec_writes _ _ _ _ _ _ whole]
  exact (Hart.tagOf_of_steady (Hart.setVElems_steady vd true _ _) vd).trans (Hart.prepare_tagOf ..)

section
variable {vd va : VReg} {mc : MReg}

/-- The entry that holds the key of an element. -/
def State.sieveFound (w : State) (size : Nat) (va : VReg) (j : Nat) : Option Nat :=
  if w.hart.sieveKeys va j = emptyKey then none
  else w.sieveFind size (sieveSet size (w.hart.sieveKeys va j)) (w.hart.sieveKeys va j)

/-- What svlook answers for an element: whether its key is found, and the value. -/
def State.sieveLooked (w : State) (size : Nat) (va : VReg) (j : Nat) : Bool × Quad × Quad :=
  ((w.sieveFound size va j).isSome, ((w.sieveFound size va j).map fun e => readQuad w.mem (w.hart.sieveAddr size e + 8)).getD 0, 0)

/-- A hart that takes the answers of svlook. -/
def Hart.sieveLooks (h : Hart) (vd : VReg) (mc : MReg) (mask : MaskOp) (r : Sieved) (x : TaintSet) : Hart :=
  let g := h.allocTag.1.sieveVec vd mask r (·.2.1) x
  if mc = 0 then g else g.sieveMask mc mask r x

theorem Hart.sieveLooks_frame (h : Hart) (vd : VReg) (mc : MReg) (mask : MaskOp) (r : Sieved) (x : TaintSet) (whole : r.fail = none) :
    h.sieveLooks vd mc mask r x = { h with
      v := (h.allocTag.1.sieveVec vd mask r (·.2.1) x).v, m := (h.sieveLooks vd mc mask r x).m, tagBusy := h.allocTag.1.tagBusy,
      tag0Last := h.allocTag.1.tag0Last, csr := { h.csr with vlast := vd } } := by
  unfold Hart.sieveLooks
  dsimp only
  split
  · rw [Hart.sieveVec_frame _ _ _ _ _ _ whole, Hart.allocTag_eq]
  · rw [Hart.sieveMask_frame, Hart.sieveVec_frame _ _ _ _ _ _ whole, Hart.allocTag_eq]

theorem Hart.sieveLooks_other {h : Hart} {r : MReg} (other : r ≠ mc ∨ mc = 0) (out : Sieved) (x : TaintSet) (whole : out.fail = none) :
    (h.sieveLooks vd mc mask out x).m[r.toNat] = h.m[r.toNat] := by
  have kept : (h.allocTag.1.sieveVec vd mask out (·.2.1) x).m = h.m := by
    rw [Hart.sieveVec_frame _ _ _ _ _ _ whole, Hart.allocTag_eq]
  unfold Hart.sieveLooks
  dsimp only
  split
  · simp only [kept]
  · next named =>
    rw [Hart.sieveMask_other (other.resolve_right named)]
    simp only [kept]

theorem Hart.sieveLooks_bit {h : Hart} (named : mc ≠ 0) {out : Sieved} {x : TaintSet} (whole : out.fail = none) {j : Nat}
    (does : j ∈ h.todo mask) (low : j < 65536) :
    (h.sieveLooks vd mc mask out x).m[mc.toNat].bits.getLsbD j = out.out.any fun y => y.1 == j && y.2.1 := by
  have same : (h.allocTag.1.sieveVec vd mask out (·.2.1) x).todo mask = h.todo mask := by
    rw [Hart.sieveVec_frame _ _ _ _ _ _ whole, Hart.allocTag_eq]
    rfl
  unfold Hart.sieveLooks
  dsimp only
  rw [if_neg named]
  exact Hart.sieveMask_bit whole (by rwa [same]) low

theorem svlook_runs (ready : VectorReady s [vd, va]) (whole : (s.hart.tagOf va).isF = false) (wide : s.hart.csr.w64 = true)
    (sieve : Sieving s w size)
    (settled : (complete s [vd, va] []).settle ((complete s [vd, va] []).hart.taintV va |||
      (complete s [vd, va] []).hart.taintM mask.m) = .ok w) :
    ∃ x, vecSvlook vd mc va mask s = .ok { w with
      hart := w.hart.sieveLooks vd mc mask { state := w, out := (w.hart.todo mask).map fun j => (j, w.sieveLooked size va j) } x } := by
  have pre : s.checks6 [vd, va] [s.hart.tagOf va, .n64] (.ok .rne) = .ok .rne := State.checks6_ok ready.1 fun _ _ _ => wide
  have tag : w.hart.tagOf va = s.hart.tagOf va := State.tagOf_of_steady sieve.steady va
  refine ⟨tagBit w.hart.allocTag.2 ||| ((complete s [vd, va] []).hart.taintV va ||| (complete s [vd, va] []).hart.taintM mask.m), ?_⟩
  unfold vecSvlook
  refine (bind_of_ok pre _).trans ?_
  refine (bind_of_ok sieve.size_ok _).trans ?_
  refine (bind_of_ok (show s.tagOk (!(s.hart.tagOf va).isF) = .ok () from if_pos (by rw [whole]; rfl)) _).trans ?_
  refine (bind_of_ok (State.ready_of_complete ready.2.2.2.2).1 _).trans ?_
  refine (bind_of_ok settled _).trans ?_
  rw [← tag]
  extract_lets keys key poison r
  have ran : r = { state := w, out := (w.hart.todo mask).map fun j => (j, w.sieveLooked size va j) } := by
    refine sieveEach_const (fun j => ?_) (fun j => ?_) (w.hart.todo mask)
    · dsimp only [poison]
      split
      · rfl
      · exact State.sievePoison_none sieve.clean ..
    · unfold State.sieveLooked State.sieveFound
      rw [show w.hart.sieveKeys va j = key j from rfl]
      split
      · rfl
      · cases w.sieveFind size (sieveSet size (key j)) (key j) <;> rfl
  clear_value r
  subst ran
  unfold Hart.sieveLooks
  dsimp only
  split <;> rfl

theorem svlook_leaves (ready : VectorReady s [vd, va]) (whole : (s.hart.tagOf va).isF = false) (wide : s.hart.csr.w64 = true)
    (sieve : Sieving s w size)
    (settled : (complete s [vd, va] []).settle ((complete s [vd, va] []).hart.taintV va |||
      (complete s [vd, va] []).hart.taintM mask.m) = .ok w) :
    let h := w.hart
    ∃ v, s.vector (vecSvlook vd mc va mask) = .next v ∧ v.mem = w.mem ∧ v.hart = { h with
        pc := h.pc + 8, status := .running, seq := h.seq + 1, v := v.hart.v, m := v.hart.m, flights := v.hart.flights,
        tagBusy := h.allocTag.1.tagBusy, tag0Last := h.allocTag.1.tag0Last, csr := { h.csr with vlast := vd } } ∧
      (∀ r : MReg, r ≠ mc ∨ mc = 0 → v.hart.m[r.toNat] = h.m[r.toNat]) ∧ v.hart.tagOf vd = .n64 ∧
      (h.csr.vl.toNat ≤ h.csr.vlmax.toNat * 2 ^ h.csr.gl.toNat → ∀ j ∈ h.todo mask,
        v.hart.elemOf vd j = (w.sieveLooked size va j).2.1 ∧
        (mc ≠ 0 → j < 65536 → v.hart.m[mc.toNat].bits.getLsbD j = (w.sieveFound size va j).isSome)) := by
  intro h
  obtain ⟨x, runs⟩ := svlook_runs (mc := mc) (mask := mask) ready whole wide sieve settled
  generalize out : (w.hart.todo mask).map (fun j => (j, w.sieveLooked size va j)) = l at runs
  obtain ⟨v, ran, mem, flights, hart⟩ := sieve_ran ready.2.1 ready.2.2.1 ready.2.2.2.1 runs
  dsimp only at mem hart
  have frame := Hart.sieveLooks_frame h vd mc mask { state := w, out := l } x rfl
  rw [frame] at hart
  refine ⟨v, ran, mem, by rw [hart], fun r other => ?_, ?_, fun room j does => ⟨?_, fun named low => ?_⟩⟩
  · rw [hart]
    exact Hart.sieveLooks_other other _ x rfl
  · rw [hart]
    exact Hart.sieveVec_tagOf h.allocTag.1 vd mask { state := w, out := l } (·.2.1) x rfl
  · obtain ⟨-, elems⟩ := sieve.dest_elem (vd := vd) (mask := mask) (out := { state := w, out := l }) (val := (·.2.1)) (x := x)
      ready.1 List.mem_cons_self wide rfl room (by rw [← out, List.map_map]; exact List.map_id _)
    obtain ⟨vlmax, gl, w64⟩ := Hart.sieveVec_csr h.allocTag.1 vd mask { state := w, out := l } (·.2.1) x rfl
    rw [Hart.allocTag_csr] at vlmax gl w64
    have answered : (j, w.sieveLooked size va j) ∈ l := by
      rw [← out]
      exact List.mem_map_of_mem does
    have regs : v.hart.v = (h.allocTag.1.sieveVec vd mask { state := w, out := l } (·.2.1) x).v := by rw [hart]
    have csr : v.hart.csr.vlmax = h.csr.vlmax ∧ v.hart.csr.gl = h.csr.gl ∧ v.hart.csr.w64 = h.csr.w64 := by
      rw [hart]
      exact ⟨rfl, rfl, rfl⟩
    have same : v.hart.elemOf vd j = (h.allocTag.1.sieveVec vd mask { state := w, out := l } (·.2.1) x).elemOf vd j :=
      Hart.elemOf_of regs (csr.1.trans vlmax.symm) (csr.2.1.trans gl.symm) (csr.2.2.trans w64.symm) vd j
    have written := elems _ answered
    exact same.trans written
  · rw [hart]
    refine (Hart.sieveLooks_bit named rfl does low).trans (Bool.eq_iff_iff.2 ?_)
    refine any_reported (p := fun i => (w.sieveFound size va i).isSome = true) (fun y listed => ?_) (by rw [← out, List.map_map]; simpa using does)
    rw [← out] at listed
    obtain ⟨i, -, rfl⟩ := List.mem_map.1 listed
    exact Iff.rfl

end

end Sys2Proof.Machine
end

section
/-! SUPPORT. Entries of the Sieve that are emptied, and svdrn (R239). -/

namespace Sys2Proof.Machine
variable {s t u v w : State} {mask : MaskOp} {size : Nat}

/-! ### Entries that are emptied -/

/-- Entry e of a Sieve whose entries begin at a is emptied. -/
def sieveEmptied (m : List Host.Cell) (a e : Nat) : List Host.Cell := writeQuad m (a + 16 * e) emptyKey

/-- Memory m' has the entries of m, of which those that satisfy p are emptied. -/
structure SieveEmpties (a size : Nat) (p : Nat → Prop) [DecidablePred p] (m m' : List Host.Cell) : Prop where
  wf : Memory.wf m' = true
  outside : ∀ x, x < a ∨ a + 16 * size ≤ x → readByte m' x = readByte m x
  keys : ∀ e, e < size → sieveKeyAt m' a e = if p e then emptyKey else sieveKeyAt m a e
  values : ∀ e, sieveValueAt m' a e = sieveValueAt m a e

theorem SieveEmpties.refl {a : Nat} {m : List Host.Cell} (wf : Memory.wf m = true) {p : Nat → Prop} [DecidablePred p]
    (none : ∀ e, e < size → p e → sieveKeyAt m a e = emptyKey) : SieveEmpties a size p m m :=
  ⟨wf, fun _ _ => rfl, fun e low => by
    split
    · next is => exact none e low is
    · rfl, fun _ => rfl⟩

theorem SieveEmpties.trans {a : Nat} {m m' m'' : List Host.Cell} {p q r : Nat → Prop} [DecidablePred p] [DecidablePred q]
    [DecidablePred r] (first : SieveEmpties a size p m m') (second : SieveEmpties a size q m' m'') (both : ∀ e, r e ↔ p e ∨ q e) :
    SieveEmpties a size r m m'' where
  wf := second.wf
  outside x out := (second.outside x out).trans (first.outside x out)
  keys e low := by
    rw [second.keys e low, first.keys e low]
    by_cases last : q e
    · rw [if_pos last, if_pos ((both e).2 (.inr last))]
    · rw [if_neg last]
      exact if_congr ((both e).trans (or_iff_left last)).symm rfl rfl
  values e := (second.values e).trans (first.values e)

theorem sieveEmptied_empties {a e : Nat} {m : List Host.Cell} (wf : Memory.wf m = true) (low : e < size) :
    SieveEmpties a size (· = e) m (sieveEmptied m a e) := by
  have other : ∀ y, y < a + 16 * e ∨ a + 16 * e + 8 ≤ y → readByte (sieveEmptied m a e) y = readByte m y := fun y out =>
    readByte_writeQuad wf _ _ y out
  refine ⟨Memory.wf_writeQuad _ _ wf, fun x out => other x (by omega), fun d _ => ?_,
    fun d => readQuad_congr _ fun y above below => other y (by omega)⟩
  split
  · next same =>
    rw [same]
    exact readQuad_writeQuad wf ..
  · next apart => exact readQuad_congr _ fun y above below => other y (by omega)

/-! ### svdrn -/

/-- What an element takes out of an entry: whether it holds a key, its value and its key. -/
def sieveDrained (m : List Host.Cell) (a size e : Nat) : Bool × Quad × Quad :=
  if size ≤ e ∨ sieveKeyAt m a e = emptyKey then (false, 0, emptyKey) else (true, sieveValueAt m a e, sieveKeyAt m a e)

/-- An element of svdrn, which takes entry e out. -/
def sieveTaken (a size lo : Nat) (m : List Host.Cell) (j : Nat) : List Host.Cell × Bool × Quad × Quad :=
  (if size ≤ lo + j ∨ sieveKeyAt m a (lo + j) = emptyKey then m else sieveEmptied m a (lo + j), sieveDrained m a size (lo + j))

theorem sieveTaken_empties {a lo j : Nat} {m : List Host.Cell} (wf : Memory.wf m = true) :
    SieveEmpties a size (· = lo + j) m (sieveTaken a size lo m j).1 := by
  unfold sieveTaken
  dsimp only
  split
  · next not =>
    refine .refl wf fun e low same => ?_
    rw [same] at low ⊢
    exact not.resolve_left (Nat.not_le.2 low)
  · next held => exact sieveEmptied_empties wf (Nat.not_le.1 (not_or.1 held).1)

theorem sieveTaken_each {a lo : Nat} : ∀ (l : List Nat) (m : List Host.Cell), Memory.wf m = true → l.Nodup →
    SieveEmpties a size (fun e => ∃ j ∈ l, lo + j = e) m (memEach (sieveTaken a size lo) l m).1 ∧
      (memEach (sieveTaken a size lo) l m).2 = l.map fun j => (j, sieveDrained m a size (lo + j))
  | [], m, wf, _ => ⟨.refl wf fun _ _ has => by simp at has, rfl⟩
  | j :: r, m, wf, apart => by
    obtain ⟨fresh, apart⟩ := List.nodup_cons.1 apart
    have first := sieveTaken_empties (a := a) (size := size) (lo := lo) (j := j) wf
    obtain ⟨rest, out⟩ := sieveTaken_each (a := a) (lo := lo) r (sieveTaken a size lo m j).1 first.wf apart
    refine ⟨first.trans rest fun e => by simp [eq_comm], ?_⟩
    unfold memEach
    dsimp only
    rw [out, List.map_cons]
    refine congrArg _ (List.map_congr_left fun i later => ?_)
    have other : i ≠ j := fun same => fresh (same ▸ later)
    have same : sieveDrained (sieveTaken a size lo m j).1 a size (lo + i) = sieveDrained m a size (lo + i) := by
      unfold sieveDrained
      by_cases low : lo + i < size
      · have kept : sieveKeyAt (sieveTaken a size lo m j).1 a (lo + i) = sieveKeyAt m a (lo + i) := by
          rw [first.keys _ low, if_neg (by omega)]
        rw [first.values, kept]
      · rw [if_pos (.inl (Nat.not_lt.1 low)), if_pos (.inl (Nat.not_lt.1 low))]
    rw [same]

section
variable {vd vb : VReg} {sa : SReg}

/-- A hart that takes the keys and the values of the entries that svdrn takes out. -/
def Hart.sieveDrains (h : Hart) (vd vb : VReg) (mask : MaskOp) (r : Sieved) (x : TaintSet) : Hart :=
  (h.allocTag.1.sieveVec vb mask r (·.2.1) x).sieveVec vd mask r (·.2.2) x

theorem Hart.sieveDrains_frame (h : Hart) (vd vb : VReg) (mask : MaskOp) (r : Sieved) (x : TaintSet) (whole : r.fail = none) :
    h.sieveDrains vd vb mask r x = { h with
      v := (h.sieveDrains vd vb mask r x).v, tagBusy := h.allocTag.1.tagBusy, tag0Last := h.allocTag.1.tag0Last,
      csr := { h.csr with vlast := vd } } := by
  unfold Hart.sieveDrains
  rw [Hart.sieveVec_frame _ _ _ _ _ _ whole, Hart.sieveVec_frame _ _ _ _ _ _ whole, Hart.allocTag_eq]

/-- Where the two destinations are apart, each holds what the elements answer for it. -/
theorem Sieving.drains_elem (sieve : Sieving s w size) {out : Sieved} {x : TaintSet} (unit : VectorUnit s [vd, vb])
    (wide : s.hart.csr.w64 = true) (whole : out.fail = none)
    (room : w.hart.csr.vl.toNat ≤ w.hart.csr.vlmax.toNat * 2 ^ w.hart.csr.gl.toNat) (elems : out.out.map (·.1) = w.hart.todo mask)
    (other : vd ≠ vb) {y : Nat × Bool × Quad × Quad} (listed : y ∈ out.out) :
    (w.hart.sieveDrains vd vb mask out x).elemOf vd y.1 = y.2.2.2 ∧ (w.hart.sieveDrains vd vb mask out x).elemOf vb y.1 = y.2.2.1 := by
  have unitW : VectorUnit w [vd, vb] := VectorUnit.of_steady unit sieve.steady
  have second : vb ∈ [vd, vb] := List.mem_cons_of_mem vd (List.mem_singleton.2 rfl)
  have low : ∀ y ∈ out.out, y.1 < w.hart.maxElems := fun y listed => by
    have does : y.1 ∈ w.hart.todo mask := elems ▸ List.mem_map_of_mem listed
    exact Nat.lt_of_lt_of_le (Hart.mem_todo.1 does).1 room
  obtain ⟨values, valuesAre⟩ := sieve.dest_elem (mask := mask) (val := (·.2.1)) (x := x) unit second wide whole room elems
  have kept : w.hart.sieveDrains vd vb mask out x =
      (w.hart.allocTag.1.sieveVec vb mask out (·.2.1) x).sieveVec vd mask out (·.2.2) x := rfl
  rw [kept]
  generalize w.hart.allocTag.1.sieveVec vb mask out (·.2.1) x = g at values valuesAre
  have wideG : g.csr.w64 = true := values.csr.2.2.trans ((State.w64_of_steady sieve.steady).trans wide)
  have fitsG : ∀ {r : VReg}, w.hart.groupFits r → g.groupFits r := fun fits => by rwa [Hart.groupFits, values.group]
  obtain ⟨keys, keysAre⟩ := Hart.sieveVec_elem (mask := mask) (val := (·.2.2)) (x := x)
    (fitsG (VectorUnit.fits unitW List.mem_cons_self)) wideG whole (by rwa [values.maxElems]) (by rw [elems]; exact Hart.todo_nodup ..)
  obtain ⟨vlmax, gl, w64⟩ := keys.csr
  have apart := VectorUnit.apart unitW List.mem_cons_self second other
  have stays := Hart.elemOf_congr (fitsG (VectorUnit.fits unitW second)) wideG vlmax gl w64
    (fun k above below => keys.other k (by rw [values.group] at below ⊢; omega))
    (k := y.1) (by rw [values.maxElems]; exact low y listed)
  exact ⟨keysAre y listed, stays.trans (valuesAre y listed)⟩

theorem svdrn_runs (ready : VectorReady s [vd, vb] [sa]) (wide : s.hart.csr.w64 = true) (sieve : Sieving s w size)
    (settled : (complete s [vd, vb] [sa]).settle ((complete s [vd, vb] [sa]).hart.taintS sa |||
      (complete s [vd, vb] [sa]).hart.taintM mask.m) = .ok w) :
    let each := memEach (sieveTaken (w.hart.sieveAddr size 0) size (w.hart.getS sa).toNat) (w.hart.todo mask) w.mem
    ∃ x, vecSvdrn vd vb sa mask s = .ok { w with
      mem := each.1, hart := w.hart.sieveDrains vd vb mask { state := { w with mem := each.1 }, out := each.2 } x } := by
  intro each
  have pre : s.checks6 [vd, vb] [.n64] (.ok .rne) = .ok .rne := State.checks6_ok ready.1 fun _ _ _ => wide
  refine ⟨tagBit w.hart.allocTag.2 ||| ((complete s [vd, vb] [sa]).hart.taintS sa ||| (complete s [vd, vb] [sa]).hart.taintM mask.m), ?_⟩
  unfold vecSvdrn
  refine (bind_of_ok pre _).trans ?_
  refine (bind_of_ok sieve.size_ok _).trans ?_
  refine (bind_of_ok (State.ready_of_complete ready.2.2.2.2).1 _).trans ?_
  refine (bind_of_ok settled _).trans ?_
  extract_lets entry poison r
  have ran : r = { state := { w with mem := each.1 }, out := each.2 } := by
    refine sieveEach_eq (w := w) (fun m j => ?_) (fun m j => ?_) (w.hart.todo mask) w.mem
    · dsimp only [poison]
      unfold State.poisoned
      rw [sieve.clean]
      simp
    · unfold sieveTaken sieveDrained sieveKeyAt sieveValueAt sieveEmptied
      dsimp only [entry]
      rw [← Hart.sieveAddr_eq]
      split <;> rfl
  clear_value r
  subst ran
  rfl

theorem svdrn_leaves (ready : VectorReady s [vd, vb] [sa]) (wide : s.hart.csr.w64 = true) (sieve : Sieving s w size)
    (settled : (complete s [vd, vb] [sa]).settle ((complete s [vd, vb] [sa]).hart.taintS sa |||
      (complete s [vd, vb] [sa]).hart.taintM mask.m) = .ok w) :
    let h := w.hart
    let a := h.sieveAddr size 0
    let entry := fun (j : Nat) => (h.getS sa).toNat + j
    ∃ v, s.vector (vecSvdrn vd vb sa mask) = .next v ∧ v.hart = { h with
        pc := h.pc + 8, status := .running, seq := h.seq + 1, v := v.hart.v, flights := v.hart.flights,
        tagBusy := h.allocTag.1.tagBusy, tag0Last := h.allocTag.1.tag0Last, csr := { h.csr with vlast := vd } } ∧
      SieveEmpties a size (fun e => ∃ j ∈ h.todo mask, entry j = e) w.mem v.mem ∧
      (vd ≠ vb → h.csr.vl.toNat ≤ h.csr.vlmax.toNat * 2 ^ h.csr.gl.toNat → ∀ j ∈ h.todo mask,
        v.hart.elemOf vd j = (sieveDrained w.mem a size (entry j)).2.2 ∧
        v.hart.elemOf vb j = (sieveDrained w.mem a size (entry j)).2.1) := by
  intro h a entry
  obtain ⟨x, runs⟩ := svdrn_runs (mask := mask) ready wide sieve settled
  obtain ⟨empties, out⟩ := sieveTaken_each (a := a) (size := size) (lo := (h.getS sa).toNat) (h.todo mask) w.mem sieve.wf
    (Hart.todo_nodup ..)
  generalize memEach (sieveTaken (w.hart.sieveAddr size 0) size (w.hart.getS sa).toNat) (w.hart.todo mask) w.mem = each
    at runs empties out
  obtain ⟨m, l⟩ := each
  obtain ⟨v, ran, mem, flights, hart⟩ := sieve_ran ready.2.1 ready.2.2.1 ready.2.2.2.1 runs
  dsimp only at mem hart out empties
  have frame := Hart.sieveDrains_frame h vd vb mask { state := { w with mem := m }, out := l } x rfl
  have regs : v.hart.v = (h.sieveDrains vd vb mask { state := { w with mem := m }, out := l } x).v := by rw [hart]
  rw [frame] at hart
  refine ⟨v, ran, by rw [hart], by rw [mem]; exact empties, fun other room j does => ?_⟩
  have answered : (j, sieveDrained w.mem a size (entry j)) ∈ l := by
    rw [out]
    exact List.mem_map_of_mem does
  obtain ⟨keys, values⟩ := sieve.drains_elem (mask := mask) (out := { state := { w with mem := m }, out := l }) (x := x)
    ready.1 wide rfl room (by rw [out, List.map_map]; exact List.map_id _)
    other answered
  have same : ∀ r, v.hart.elemOf r j = (h.sieveDrains vd vb mask { state := { w with mem := m }, out := l } x).elemOf r j := fun r =>
    Hart.elemOf_of regs (by rw [frame, hart]) (by rw [frame, hart]) (by rw [frame, hart]) r j
  exact ⟨(same vd).trans keys, (same vb).trans values⟩

end

end Sys2Proof.Machine
end

section
/-! SUPPORT and settling theorem. Emptying entries of the Sieve (R239), and the Sieve instructions together. -/

namespace Sys2Proof.Machine
variable {s t u v w : State} {mask : MaskOp} {size : Nat}

/-! ### svclr -/

/-- Entries from lo on, one after another, emptied. -/
def sieveCleared (m : List Host.Cell) (a lo : Nat) (l : List Nat) : List Host.Cell := l.foldl (fun m i => sieveEmptied m a (lo + i)) m

theorem sieveCleared_empties {a lo : Nat} : ∀ (l : List Nat) {m : List Host.Cell}, Memory.wf m = true →
    (∀ i ∈ l, lo + i < size) → SieveEmpties a size (fun e => ∃ i ∈ l, lo + i = e) m (sieveCleared m a lo l)
  | [], _, wf, _ => .refl wf fun _ _ has => by simp at has
  | i :: l, m, wf, low => by
    have first := sieveEmptied_empties (a := a) wf (low i List.mem_cons_self)
    have rest := sieveCleared_empties (a := a) (lo := lo) l first.wf fun j listed => low j (List.mem_cons_of_mem _ listed)
    exact first.trans rest fun e => by simp [eq_comm]

theorem sieveCleared_foldl (w : State) (size lo : Nat) : ∀ (l : List Nat) (m : List Host.Cell),
    l.foldl (fun s i => { s with mem := writeQuad s.mem (s.hart.sieveAddr size (lo + i)) emptyKey }) { w with mem := m } =
      { w with mem := sieveCleared m (w.hart.sieveAddr size 0) lo l }
  | [], _ => rfl
  | i :: l, m => by
    have next := sieveCleared_foldl w size lo l (sieveEmptied m (w.hart.sieveAddr size 0) (lo + i))
    rw [List.foldl_cons]
    dsimp only
    rw [Hart.sieveAddr_eq]
    exact next

/-- What is remembered of a vector instruction does not depend on memory. -/
theorem ranV_hart_of_mem (s w : State) (m : List Host.Cell) (n : Nat) (h : Hart) :
    (ranV s { w with mem := m } n h).hart = (ranV s w n h).hart := by
  unfold ranV State.launched
  dsimp only
  cases wordInstr (s.hart.entryOf s.hart.ir s.hart.pc).word with
  | none => rfl
  | some i =>
    dsimp only
    cases Instr.loads s.hart i <;> rfl

theorem svclr_leaves {sa sb : SReg} (ready : VectorReady s [] [sa, sb]) (sieve : Sieving s w size)
    (settled : (complete s [] [sa, sb]).settle ((complete s [] [sa, sb]).hart.taintS sa |||
      (complete s [] [sa, sb]).hart.taintS sb) = .ok w) :
    let lo := (w.hart.getS sa).toNat
    let n := (w.hart.getS sb).toNat
    ∃ v, s.vector (vecSvclr sa sb) = .next v ∧ v.hart = (ranV s w 8 w.hart).hart ∧
      SieveEmpties (w.hart.sieveAddr size 0) size (fun e => lo ≤ e ∧ e < lo + n) w.mem v.mem := by
  intro lo n
  let l := List.range (min size (lo + n) - lo)
  have runs : vecSvclr sa sb s = .ok { w with mem := sieveCleared w.mem (w.hart.sieveAddr size 0) lo l } := by
    unfold vecSvclr
    refine (bind_of_ok (State.vecUnit_ok ready.1) _).trans ?_
    refine (bind_of_ok sieve.size_ok _).trans ?_
    refine (bind_of_ok (State.ready_of_complete ready.2.2.2.2).1 _).trans ?_
    refine (bind_of_ok settled _).trans ?_
    exact congrArg Except.ok (sieveCleared_foldl w size lo l w.mem)
  have empties := sieveCleared_empties (size := size) (a := w.hart.sieveAddr size 0) (lo := lo) l sieve.wf fun i listed => by
    have low := List.mem_range.1 listed
    omega
  refine ⟨_, State.vector_ran ready.2.1 ready.2.2.1 ready.2.2.2.1 runs, ranV_hart_of_mem .., ?_⟩
  rw [ranV_mem]
  refine ⟨empties.wf, empties.outside, fun e low => (empties.keys e low).trans (if_congr ?_ rfl rfl), empties.values⟩
  constructor
  · rintro ⟨i, listed, rfl⟩
    have low := List.mem_range.1 listed
    omega
  · rintro ⟨above, below⟩
    exact ⟨e - lo, List.mem_range.2 (by omega), by omega⟩

/-! ### The addresses of the statement -/

theorem allOnes_eq_emptyKey : (BitVec.allOnes 64 : Quad) = emptyKey := by decide

/-- The entries of the Sieve of a hart stand where those of the hart as it executes do. -/
theorem Sieving.addr (sieve : Sieving s w size) (e : Nat) : s.hart.sieveAddr size e = w.hart.sieveAddr size 0 + 16 * e := by
  rw [← Hart.sieveAddr_of_ref sieve.ref, Hart.sieveAddr_eq]

theorem Sieving.outside (sieve : Sieving s w size) {x : Nat} (out : x < s.hart.sieveAddr size 0 ∨ s.hart.sieveAddr size size ≤ x) :
    x < w.hart.sieveAddr size 0 ∨ w.hart.sieveAddr size 0 + 16 * size ≤ x := by
  rw [sieve.addr, sieve.addr] at out
  exact out

/-- The value that svlook answers, as the statement writes it. -/
theorem Sieving.looked (sieve : Sieving s w size) (va : VReg) (j : Nat) : (w.sieveLooked size va j).2.1 =
    match w.sieveFound size va j with
    | .some e => readQuad w.mem (s.hart.sieveAddr size e + 8)
    | .none => 0 := by
  rw [← Hart.sieveAddr_of_ref sieve.ref]
  unfold State.sieveLooked
  cases w.sieveFound size va j <;> rfl

/-- Settles O38: what the elements do is followed in memory, as growth of the sets (svins, svacc) or as entries emptied
(svdrn, svclr), and their results in the destination. -/
theorem sieveInstructions : Obligations.SieveInstructions := by
  intro s md mc va vb vd sa sb mask size addr outside empty clean carved whole fits sound
  have marker : empty = emptyKey := allOnes_eq_emptyKey
  refine ⟨?_, ?_, ?_, ?_⟩
  · intro i b form ready integer wide u src w settled h key add value
    have sieve : Sieving s w size := sieving_of_settled rfl carved whole fits clean sound settled
    have body : exec i s = s.vector (·.sieveUpdate md va b mask) := by
      rcases form with ⟨rfl, rfl⟩ | ⟨rfl, rfl⟩ <;> rfl
    obtain ⟨v, ran, hart, vstat, others, out, elems, full⟩ := sieveUpdate_leaves (md := md) ready integer wide sieve settled
    have values : ∀ t : State, t.hart.ref = s.hart.ref → ∀ j, value t j = sieveValue t.mem (w.hart.sieveAddr size 0) size (key j) :=
      fun t same j => by
        rw [Hart.sieveAddr_of_ref sieve.ref]
        exact State.sieveValue_eq same size (key j)
    have after := values v (by rw [hart]; exact sieve.ref)
    have before := values w sieve.ref
    refine ⟨v, body.trans ran, hart, vstat, others, fun x outer => out x (sieve.outside outer), fun j does => ?_, ?_⟩
    · rw [marker, after, before]
      exact elems j does
    · rw [marker]
      simp only [after]
      exact full
  · intro ready integer wide u w settled h key found
    have sieve : Sieving s w size := sieving_of_settled rfl carved whole fits clean sound settled
    obtain ⟨v, ran, mem, hart, others, tag, elems⟩ := svlook_leaves (mc := mc) ready integer wide sieve settled
    have finds : ∀ j, found j = w.sieveFound size va j := fun j => by
      unfold State.sieveFound
      rw [← marker]
      rfl
    refine ⟨v, ran, mem, hart, others, tag, fun room j does => ?_⟩
    obtain ⟨looked, bit⟩ := elems room j does
    rw [finds]
    exact ⟨looked.trans (sieve.looked va j), bit⟩
  · intro ready wide u w settled h entry held
    have sieve : Sieving s w size := sieving_of_settled rfl carved whole fits clean sound settled
    have place : ∀ e, addr e = w.hart.sieveAddr size 0 + 16 * e := sieve.addr
    obtain ⟨v, ran, hart, empties, elems⟩ := svdrn_leaves ready wide sieve settled
    refine ⟨v, ran, hart, fun x outer => empties.outside x (sieve.outside outer), fun e low => ?_, fun other room j does => ?_⟩
    · rw [marker, place]
      exact empties.keys e low
    · obtain ⟨keys, vals⟩ := elems other room j does
      have means : held j ↔ ¬(size ≤ entry j ∨ sieveKeyAt w.mem (w.hart.sieveAddr size 0) (entry j) = emptyKey) := by
        rw [not_or, Nat.not_le, ← marker]
        dsimp only [held]
        rw [place]
        exact Iff.rfl
      unfold sieveDrained at keys vals
      refine ⟨fun holds => ?_, fun not => ?_⟩
      · rw [if_neg (means.1 holds)] at keys vals
        rw [place]
        exact ⟨keys, vals⟩
      · rw [if_pos (not_not.1 (mt means.2 not))] at keys vals
        exact ⟨keys.trans marker.symm, vals⟩
  · intro ready u w settled lo n
    have sieve : Sieving s w size := sieving_of_settled rfl carved whole fits clean sound settled
    have place : ∀ e, addr e = w.hart.sieveAddr size 0 + 16 * e := sieve.addr
    obtain ⟨v, ran, hart, empties⟩ := svclr_leaves ready sieve settled
    refine ⟨v, ran, hart, fun x outer => empties.outside x (sieve.outside outer), fun e low => ?_⟩
    rw [marker, place]
    exact ⟨empties.keys e low, empties.values e⟩

end Sys2Proof.Machine
end
